-- ==== Sys2Proof/Word.lean ====
section
/-! DEFINITION. The machine's word types and their plainest arithmetic (00_scope R8, R9). -/

namespace Sys2Proof

/-- A byte of memory. -/
abbrev Byte := BitVec 8
/-- A 32-bit register element, scalar, instruction word or literal. -/
abbrev Word := BitVec 32
/-- A 64-bit register value: a handle, a descriptor. -/
abbrev DWord := BitVec 64
/-- A set of lanes or a predicate register: bit `t` belongs to thread `t` (01 R18, R27). -/
abbrev Mask := BitVec 128

/-- The word whose unsigned value is `n` modulo 2^32. -/
def word (n : Nat) : Word := BitVec.ofNat 32 n

/-- The word whose value is `i` modulo 2^32. -/
def wordOfInt (i : Int) : Word := BitVec.ofInt 32 i

end Sys2Proof
end

