-- ==== Sys2Proof/Syntax.lean ====
section
/-! DEFINITION. The instructions and steps of spec/opcode_table.json: one constructor of `Instr` per row. Derrov words
(03 R75 to R91), walker words (12 R300, R301) and the steps that have no word (95_what_each_step_holds). -/

namespace Sys2Proof

/-- A register field (03 R77): v0-v95, s0-s27, z, lid, tix, lit. -/
inductive Reg where
  | v (n : Fin 96)
  | s (n : Fin 28)
  | z
  | lid
  | tix
  | lit
deriving DecidableEq, Repr

/-- IADD and ISUB suffixes (07 R171, R172). -/
inductive SatMode where | wrap | sat | nsat
deriving DecidableEq, Repr
/-- IMUL suffixes (07 R173). -/
inductive MulMode where | low | hi | nhi
deriving DecidableEq, Repr
/-- SHR suffixes (07 R175). -/
inductive ShrMode where | logical | arith | rot
deriving DecidableEq, Repr
/-- SHI kinds (07 R171). -/
inductive ShiKind where | shl | shr | sar | rot
deriving DecidableEq, Repr
/-- BFX forms (07 R176). -/
inductive BfxMode where | n | s | ins
deriving DecidableEq, Repr
/-- BITS functions (07 R177). -/
inductive BitsFn where | popc | clz | brev | ffs
deriving DecidableEq, Repr
/-- IUNA selectors (07 R171, R174). -/
inductive UnaFn where | abs | neg | sabs | sneg
deriving DecidableEq, Repr
/-- ISET and ISETI conditions (07 R178). -/
inductive ICond where | eq | ne | lt | ge | lo | hs | tst | ntst
deriving DecidableEq, Repr
/-- PLOG operations (07 R179). -/
inductive PlogOp where | and | or | xor | andn | orn | xnor | nand | nor
deriving DecidableEq, Repr
/-- Rounding modes (04 R104). -/
inductive Rm where | rne | rtz | rdn | rup
deriving DecidableEq, Repr
/-- FMNX functions (07 R183, R185). -/
inductive MnxFn where | min | max | minnum | maxnum
deriving DecidableEq, Repr
/-- FSET conditions (07 R186). -/
inductive FCond where | eq | ne | lt | le | gt | ge | ord | uno
deriving DecidableEq, Repr
/-- FCVT source formats (07 R187). -/
inductive CvtSrc where | f32 | bf16 | f16 | f8e4 | f8e5 | p2t8 | s32 | s8
deriving DecidableEq, Repr
/-- FCVT target formats (07 R187). -/
inductive CvtTgt where | f32 | bf16 | f16 | f8e4 | f8e5 | p2t8 | s32 | s8 | p1t4 | s4
deriving DecidableEq, Repr
/-- FSFU functions (07 R190). -/
inductive SfuFn where | rcp | rsq | ex2 | lg2 | sin | cos | tanh | sqrt
deriving DecidableEq, Repr
/-- FUNA functions (07 R183, R192). -/
inductive FunaFn where | abs | neg | cps
deriving DecidableEq, Repr
/-- FROW functions (07 R183, R197). -/
inductive RowFn where | ssq | sum | ctr
deriving DecidableEq, Repr
/-- VOTE forms (06 R154, R160). -/
inductive VoteFn where | any | all | uni | ballot
deriving DecidableEq, Repr
/-- MATCH forms (06 R154, R162). -/
inductive MatchFn where | lead | cnt | rank
deriving DecidableEq, Repr
/-- PSCAN operations (06 R154, R165). -/
inductive ScanOp where | add | fadd | max | min
deriving DecidableEq, Repr
/-- REDX operations (06 R154, R166). -/
inductive RedOp where | add | fadd | max | min | fmax | fmin | and | or
deriving DecidableEq, Repr
/-- SEGR operations (07 R198, R201). -/
inductive SegOp where | add | fadd | fmax | fmin
deriving DecidableEq, Repr
/-- MOV forms (05 R137). -/
inductive MovForm where | vv | vs | sv | ss | vsp | ssp
deriving DecidableEq, Repr
/-- Load and store spaces (01 R34); code 11 is illegal. -/
inductive Space where | sh | sp | ss
deriving DecidableEq, Repr
/-- Access sizes (03 R81). -/
inductive Size where | b8 | b16 | b32 | b64
deriving DecidableEq, Repr
/-- Atomic operations (08 R213). -/
inductive AtomOp where
  | addS32 | addF32 | addBf16x2 | addF16x2 | minS32 | maxS32 | minN32 | maxN32
  | minF32 | maxF32 | and | or | xor | exch | incWrap | decWrap
deriving DecidableEq, Repr
/-- FENCE kinds (08 R202, R216). -/
inductive FenceKind where | full | acq | rel | eng
deriving DecidableEq, Repr
/-- Scopes (15 R322). -/
inductive Scope where | grp | team | clu | die | dev | sys
deriving DecidableEq, Repr
/-- Selection key kinds (09 R226, R255). -/
inductive KeyKind where | s32 | n32 | f32
deriving DecidableEq, Repr
/-- CRC operand widths (09 R226, R254). -/
inductive CrcSz where | c8 | c16 | c32
deriving DecidableEq, Repr
/-- ALIN operations (10 R275). -/
inductive AlinOp where | add | sub | scale | copy | transpose
deriving DecidableEq, Repr
/-- OST target formats (10 R278). -/
inductive OstFmt where | bf16 | f16 | f8e4 | f8e5 | p2t8 | s8
deriving DecidableEq, Repr
/-- RSUM actions (11 R281, R289). -/
inductive RsumAct where | cont | retry | skip | patch
deriving DecidableEq, Repr

/-- The name of a group: its core, its lowest slot and its sub-slot (01 R17, R24; 24 R418). -/
structure GKey where
  core : Nat
  slot : Nat
  sub  : Nat
deriving DecidableEq, Repr

/-- The body of a vendor-defined message (21 R395). -/
structure Msg where
  status : BitVec 8
  gid    : BitVec 16
  epoch  : BitVec 32
  rank   : BitVec 16
  seq    : BitVec 32
deriving DecidableEq, Repr

/-- The atomics of an inbound request (21 R391). -/
inductive FabAtom where
  | add | minS | maxS | minN | maxN | and | or | xor | exch | cas | addF32 | other
deriving DecidableEq, Repr

/-- Who holds a suspended write or a wait: a copy of a core, or a job of a die (18 R378). -/
inductive EngRef where
  | copy (core id : Nat)
  | job (die idx : Nat)
deriving DecidableEq, Repr

/-- What is lost (18 R382): an HBM4E stack or a slice of a die's scratchpad. -/
inductive LostUnit where
  | stack (n : Nat)
  | slice (die n : Nat)
deriving DecidableEq, Repr

/-- One rail's reading (24 R422). -/
structure Rail where
  rail : BitVec 8
  mV   : BitVec 16
  temp : BitVec 16
  mA   : Word
  nJ   : Word
deriving DecidableEq, Repr

/-- The instructions and steps of the part: one constructor per row of spec/opcode_table.json, in its order. -/
inductive Instr where
  -- control and group state (05 R121)
  | nop
  | bra (neg : Bool) (p : Fin 8) (off : BitVec 21)
  | brx (a : Reg) (neg : Bool) (p : Fin 8)
  | call (neg : Bool) (p : Fin 8) (off : BitVec 21)
  | ret
  | exit
  | yield
  | loop (a : Reg) (n : BitVec 11)
  | winb (a : Reg) (imm : BitVec 11)
  | setx (a : Reg) (add : Bool)
  | split (d : Reg) (w : BitVec 11)
  | fuse (d a : Reg) (tag : BitVec 11)
  | isync
  | bkm (a : Reg) (id : BitVec 11)
  | waitf (mask : BitVec 12)
  | mov (d a : Reg) (b : BitVec 7) (form : MovForm)
  -- integer (07 R171)
  | iadd (d a b : Reg) (ind : Bool) (m : SatMode)
  | isub (d a b : Reg) (ind : Bool) (m : SatMode)
  | imul (d a b : Reg) (ind : Bool) (m : MulMode)
  | imad (d a b : Reg) (ind : Bool)
  | imnx (d a b : Reg) (ind uns max : Bool)
  | iuna (d a : Reg) (ind : Bool) (fn : UnaFn)
  | iset (p : Fin 8) (a b : Reg) (ind : Bool) (c : ICond)
  | iaddi (d a : Reg) (imm : BitVec 11)
  | iand (d a b : Reg) (ind : Bool)
  | ior (d a b : Reg) (ind : Bool)
  | ixor (d a b : Reg) (ind : Bool)
  | iandn (d a b : Reg) (ind : Bool)
  | shl (d a b : Reg) (ind : Bool)
  | shr (d a b : Reg) (ind : Bool) (m : ShrMode)
  | bfx (d a b : Reg) (ind : Bool) (m : BfxMode)
  | bits (d a : Reg) (ind : Bool) (fn : BitsFn)
  | sel (d a b : Reg) (ind : Bool) (p : Fin 8)
  | plog (d a b : Fin 8) (op : PlogOp)
  | idiv (d a b : Reg) (ind uns rem : Bool)
  | addr (d a b : Reg) (ind : Bool) (k : Fin 8)
  | iseti (p : Fin 8) (c : ICond) (a : Reg) (imm : BitVec 11)
  | andi (d a : Reg) (imm : BitVec 11)
  | xori (d a : Reg) (imm : BitVec 11)
  | shi (d a : Reg) (k : ShiKind) (n : Fin 32)
  -- floating point (07 R183)
  | fadd (d a b : Reg) (ind : Bool) (rm : Rm)
  | fsub (d a b : Reg) (ind : Bool) (rm : Rm)
  | fmul (d a b : Reg) (ind : Bool) (rm : Rm)
  | ffma (d a b : Reg) (ind nc : Bool) (rm : Rm)
  | fmnx (d a b : Reg) (ind : Bool) (fn : MnxFn)
  | fset (p : Fin 8) (a b : Reg) (ind : Bool) (c : FCond)
  | fcvt (d a : Reg) (src : CvtSrc) (tgt : CvtTgt) (ind sat : Bool) (rm : Rm)
  | hadd2 (d a b : Reg) (ind bf : Bool) (rm : Rm)
  | hfma2 (d a b : Reg) (ind bf : Bool) (rm : Rm)
  | hmul2 (d a b : Reg) (ind bf : Bool) (rm : Rm)
  | fsfu (d a : Reg) (ind : Bool) (fn : SfuFn)
  | funa (d a b : Reg) (ind : Bool) (fn : FunaFn)
  | expo (d a : Reg) (ind mant : Bool)
  | ldexp (d a b : Reg) (ind : Bool) (rm : Rm)
  | maxe (d a b : Reg) (ind : Bool)
  | sexp (d a b : Reg) (ind : Bool)
  | frow (d a b : Reg) (ind bf : Bool) (fn : RowFn)
  -- cross-lane (06 R154) and ragged tiles (07 R198)
  | shfx (d a b : Reg)
  | shfp (d a b : Reg)
  | shfb (d a b : Reg) (seg : Fin 8)
  | shfi (d a b : Reg)
  | shfr (d a b : Reg) (seg : Fin 8)
  | mat (d a b : Reg)
  | mapRd (d a : Reg)
  | mapWr (d a : Reg)
  | mapId (d a : Reg)
  | vote (d : BitVec 7) (p : Fin 8) (neg : Bool) (fn : VoteFn)
  | matchk (d a : Reg) (f : Bool) (fn : MatchFn)
  | pscan (d a : Reg) (h : Fin 8) (seg ex : Bool) (op : ScanOp)
  | qapp (d a b : Reg)
  | cdet (d a : Reg) (f next : Bool)
  | redx (d a b : Reg) (f : Bool) (op : RedOp)
  | segr (d a : Reg) (h : Fin 8) (last : Bool) (op : SegOp)
  | rlt (d a : Reg)
  | rwalk (d a b : Reg) (h : Fin 8)
  -- memory and synchronisation (08 R202)
  | ld (d a b : Reg) (sp : Space) (sz : Size)
  | st (d a b : Reg) (sp : Space) (sz : Size)
  | ldi (d a : Reg) (sp : Space) (sz : Size) (cnt : BitVec 7)
  | sti (d a : Reg) (sp : Space) (sz : Size) (cnt : BitVec 7)
  | ldn (d a b : Reg) (sp : Space) (sz : Size)
  | atomh (d a b : Reg) (op : AtomOp)
  | atomp (d a b : Reg) (op : AtomOp)
  | acas (d a b : Reg) (sp : Space) (sz : Size)
  | fence (k : FenceKind) (s : Scope)
  | bar (n : Fin 16)
  | bari (a : Reg) (n : Fin 16) (fixed : Bool)
  | bara (d : Reg) (n : Fin 16)
  | barw (a : Reg) (n : Fin 16)
  | ldt (d a b : Reg) (sp : Space)
  | stt (d a b : Reg) (sp : Space)
  -- copies, jobs, futures, selection (09 R226)
  | layd (l : Fin 16) (a b : Reg) (sp : Space)
  | cpy (p : Fin 8) (a : Reg) (nb fo : Bool)
  | close (d : Reg)
  | waitb (a : Reg)
  | rrot (p : Fin 8) (a : Reg) (nb : Bool)
  | cpyp (p : Fin 8) (a : Reg) (nb : Bool)
  | enq (h : Fin 16) (a : Reg)
  | waith (d : Reg) (h : Fin 16)
  | tsth (p : Fin 8) (h : Fin 16)
  | canh (h : Fin 16)
  | hsto (h : Fin 16) (a b : Reg)
  | hlod (h : Fin 16) (a b : Reg)
  | bina (n : Fin 16) (a b : Reg)
  | crc (d a b : Reg) (sz : CrcSz)
  | bhist (d a b : Reg) (dig : Fin 4) (k : KeyKind)
  | bsel (p : Fin 8) (a b : Reg) (within : Bool) (k : KeyKind)
  -- matrix (10 R258)
  | oclm (d a : Reg)
  | orel (a : Reg)
  | aclm (d a : Reg)
  | aclmGrant (a b : Reg)
  | arel (a : Reg)
  | arelRevoke (a : Reg)
  | mma (d a b : Reg) (tb ov : Bool)
  | mmaa (d a b : Reg) (ov : Bool)
  | mmsp (d a b : Reg) (tb ov : Bool)
  | publ (d a : Reg)
  | publSeal (a : Reg)
  | setl (a : Reg)
  | alin (d a b : Reg) (op : AlinOp)
  | adrn (d a b : Reg)
  | afil (a b : Reg)
  | old (d a b : Reg)
  | sltg (a b : Reg)
  | ast (d a b : Reg) (sp : Space)
  | ost (d a b : Reg) (sat : Bool) (fmt : OstFmt)
  -- effects and system (11 R281, R295)
  | perf (d a b : Reg) (neg : Bool) (p : Fin 8)
  | hpsh (d a b : Reg)
  | hpop
  | rsum (k : Fin 4) (b : Reg) (act : RsumAct)
  | tokd (k : Fin 4)
  | tokdAbort (k : Fin 4)
  | tokdMov (j k : Fin 4)
  | sysRdsr (d : Reg) (sel : BitVec 7)
  | sysWrsr (a : Reg) (sel : BitVec 7)
  | sysStamp (a : Reg)
  | sysProf (a : Reg)
  | sysTime (d : Reg)
  | sysFlags (d a : Reg) (rd : Bool)
  -- walker words (12 R301)
  | whalt
  | wli (d : Fin 16) (imm : BitVec 14)
  | wadd (d a b : Fin 16) (imm : BitVec 14)
  | wsub (d a b : Fin 16)
  | wmul (d a b : Fin 16)
  | wshl (d a : Fin 16) (n : Fin 32)
  | wshr (d a : Fin 16) (n : Fin 32)
  | wand (d a b : Fin 16)
  | wldw (d a sp : Fin 16) (imm : BitVec 14)
  | wldh (d a sp : Fin 16) (imm : BitVec 14)
  | wldb (d a sp : Fin 16) (imm : BitVec 14)
  | wbeq (a b : Fin 16) (imm : BitVec 14)
  | wbne (a b : Fin 16) (imm : BitVec 14)
  | wblo (a b : Fin 16) (imm : BitVec 14)
  | wbhs (a b : Fin 16) (imm : BitVec 14)
  | wjmp (imm : BitVec 14)
  | wtgt (a b : Fin 16)
  | wzero
  | wemit (a b : Fin 16)
  | wrun (d a b sp : Fin 16)
  | warv (n : Fin 16)
  | wfault (n : BitVec 14)
  -- steps without a word (95_what_each_step_holds)
  | clauseHeader (g : GKey)
  | storeQueueDrain (g : GKey)
  | longLatencyCompletion (g : GKey) (id : Nat)
  | lateEffectDelivery (g : GKey)
  | copyBlock (core id : Nat)
  | translationWalk (die : Nat)
  | matrixEntryStart (core : Nat)
  | matrixEntryFinish (core : Nat)
  | correctionApplication (core : Nat)
  | binningOpen (die job : Nat)
  | binningReplay (die job : Nat)
  | walkerJob (die job : Nat)
  | gather (die job : Nat)
  | topkHistogram (die job : Nat)
  | topkSelect (die job : Nat)
  | mainToMainCopy (die job : Nat)
  | walkerStepLimit (core : Nat)
  | collForm (die job : Nat)
  | collDisband (die job : Nat)
  | collBarrier (die job : Nat)
  | collBcast (die job : Nat)
  | collAllred (die job : Nat)
  | collRedscat (die job : Nat)
  | collGather (die job : Nat)
  | collXscan (die job : Nat)
  | signal (src tag : Nat) (count : Nat) (addr : Nat)
  | formMsg (die : Nat) (m : Msg) (members : List Word)
  | beatMsg (die : Nat) (m : Msg)
  | postMsg (die : Nat) (m : Msg) (c2 count : Word) (data : List Word)
  | abortMsg (die : Nat) (m : Msg)
  | decideMsg (die : Nat) (m : Msg)
  | readRequest (src tag addr len : Nat)
  | writeRequest (src tag addr : Nat) (bytes : List Byte) (enable : List Bool)
  | atomicRequest (src tag addr : Nat) (op : FabAtom) (v cmp : Word)
  | readCompletion (req : Nat) (ok : Bool) (bytes : List Byte)
  | writeCompletion (req : Nat) (ok : Bool)
  | atomicCompletion (req : Nat) (ok : Bool) (old : Word)
  | fabricRequestTimeout (req : Nat)
  | signalTagTimeout (src tag : Nat)
  | heartbeat (die : Nat) (gid : BitVec 16)
  | memberLost (die : Nat) (gid : BitVec 16) (rank : Nat)
  | collectiveTimeout (die : Nat) (gid : BitVec 16)
  | formTimeout (die job : Nat)
  | deciderUnreachable (die : Nat) (gid : BitVec 16)
  | portLaneFailure (port lanes : Nat)
  | copystall (g : GKey)
  | fuseRendezvousTimeout (g : GKey)
  | writeblock (r : EngRef)
  | heldWriteRewalk (die : Nat)
  | invctl (die : Nat) (v : Word)
  | invalidationComplete (die : Nat)
  | codeinv (die line count : Nat)
  | codeinvAccept (die : Nat)
  | doorbell (q tail : Nat)
  | launchRecord
  | clusterPlacement (corr : Nat)
  | fallbackMode (corr : Nat)
  | priority7Preemption (corr : Nat)
  | cancel (q : Nat) (hi : Word)
  | preempt (q : Nat) (hi : Word)
  | preemptHaltComplete (corr : Nat)
  | gridRestore (corr : Nat)
  | gridCompletion (corr : Nat)
  | railSample (die : Nat) (rails : List Rail)
  | energyShare (cores : List Nat) (dieRails packageRails : Nat)
  | patrolScrub
  | unitLoss (u : LostUnit)
  | atctl (v : Word)
  | attestationReport
  | registerWrite (secure : Bool) (off : Nat) (v : Word)
  | hostMemoryAccess (secure write : Bool) (addr len : Nat) (bytes : List Byte)
  | reset
  | firmwareImage (image : List Byte)
  | throttle (up : Bool)
  | thermalShutdown
  | portComeUp (port lanes : Nat)
  | walkfault (core : Nat)
  | trailerCompletion (req : Nat) (ok : Bool)
deriving DecidableEq, Repr

end Sys2Proof
end

