-- ==== Sys2Proof/WellFormed.lean ====
section
/-! DEFINITION. Which instructions are well formed: the register kinds each field admits, and the limits that make an
encoding illegal at decode (03 R76 to R80, R87, R88, and the encoding tables of 05 to 11). -/

namespace Sys2Proof

/-- The register a field value names (03 R77). -/
def Reg.ofCode (n : Nat) : Reg :=
  if h : n < 96 then .v ⟨n, h⟩
  else if h : n - 96 < 28 then .s ⟨n - 96, h⟩
  else if n = 124 then .z
  else if n = 125 then .lid
  else if n = 126 then .tix
  else .lit

/-- What a register field may hold, as the encoding tables name it. -/
inductive Kind where
  /-- any register source -/
  | src
  /-- a destination: v0-v95, s0-s27 or z (03 R77) -/
  | dst
  /-- a destination that is also read as a third source: not z (07 R169; 08 R202) -/
  | dstSrc
  /-- a D field read as the data of a store: 0-124 (08 R202) -/
  | data
  /-- v0-v95 only -/
  | vec
  /-- a vector destination -/
  | vecDst
  /-- vector, lid or tix -/
  | lane
  /-- vector, lid, tix or z (REDX B) -/
  | laneZ
  /-- "scalar": s0-s27, lit or z -/
  | sca
  /-- s0-s27 or z, without lit -/
  | scaZ
  /-- a scalar destination or z -/
  | scaDst
  /-- an even scalar whose pair lies within s0-s27 (BSEL) -/
  | pair
  /-- the first scalar of a run of 4 (09 R226) -/
  | blk4
  /-- the first scalar of a run of 8 (09 R226) -/
  | blk8
  /-- lit only (HPSH A) -/
  | litOnly
  /-- vector, scalar, lit or z (RSUM B) -/
  | vecSca
deriving DecidableEq, Repr

/-- The register names a vector register. -/
def Reg.isV : Reg → Bool
  | .v _ => true
  | _ => false

/-- The register names a scalar register. -/
def Reg.isS : Reg → Bool
  | .s _ => true
  | _ => false

/-- The register makes an instruction's form vector (03 R78): a vector register, lid or tix. -/
def Reg.isVector : Reg → Bool
  | .v _ => true
  | .lid => true
  | .tix => true
  | _ => false

/-- The register's field value (03 R77). -/
def Reg.code : Reg → Nat
  | .v n => n.val
  | .s n => 96 + n.val
  | .z => 124
  | .lid => 125
  | .tix => 126
  | .lit => 127

/-- The register may stand in a field of this kind. -/
def Kind.ok : Kind → Reg → Bool
  | .src, _ => true
  | .dst, r => r.isV || r.isS || r == .z
  | .dstSrc, r => r.isV || r.isS
  | .data, r => r.isV || r.isS || r == .z
  | .vec, r => r.isV
  | .vecDst, r => r.isV
  | .lane, r => r.isVector
  | .laneZ, r => r.isVector || r == .z
  | .sca, r => r.isS || r == .lit || r == .z
  | .scaZ, r => r.isS || r == .z
  | .scaDst, r => r.isS || r == .z
  | .pair, r => r.isS && r.code % 2 == 0
  | .blk4, r => r.isS && r.code % 4 == 0 && decide (r.code + 3 < 124)
  | .blk8, r => r.isS && r.code % 4 == 0 && decide (r.code + 7 < 124)
  | .litOnly, r => r == .lit
  | .vecSca, r => r.isV || r.isS || r == .lit || r == .z

/-- A field of this kind is written. -/
def Kind.writes : Kind → Bool
  | .dst | .dstSrc | .vecDst | .scaDst => true
  | _ => false

/-- A field of this kind is read as a register source. -/
def Kind.reads : Kind → Bool
  | .dst | .vecDst | .scaDst => false
  | _ => true

/-- One register field of an instruction: its kind, the register it names, and how many registers it covers (2 for a
64-bit value, 4 for the compare-and-swap of 64 bits). -/
structure Field where
  kind : Kind
  reg  : Reg
  wide : Nat
deriving DecidableEq, Repr

/-- The register fields of an instruction, as its description uses them. -/
structure Shape where
  d   : Option Field
  a   : Option Field
  b   : Option Field
  ind : Bool
deriving DecidableEq, Repr

namespace Shape
/-- An instruction without register fields. -/
def none : Shape := ⟨.none, .none, .none, false⟩
/-- D, A and B. -/
def dab (kd : Kind) (d : Reg) (ka : Kind) (a : Reg) (kb : Kind) (b : Reg) (ind : Bool := false) : Shape :=
  ⟨some ⟨kd, d, 1⟩, some ⟨ka, a, 1⟩, some ⟨kb, b, 1⟩, ind⟩
/-- D and A. -/
def da (kd : Kind) (d : Reg) (ka : Kind) (a : Reg) (ind : Bool := false) : Shape :=
  ⟨some ⟨kd, d, 1⟩, some ⟨ka, a, 1⟩, .none, ind⟩
/-- A and B. -/
def ab (ka : Kind) (a : Reg) (kb : Kind) (b : Reg) (ind : Bool := false) : Shape :=
  ⟨.none, some ⟨ka, a, 1⟩, some ⟨kb, b, 1⟩, ind⟩
/-- A alone. -/
def a1 (ka : Kind) (a : Reg) : Shape := ⟨.none, some ⟨ka, a, 1⟩, .none, false⟩
/-- D alone. -/
def d1 (kd : Kind) (d : Reg) : Shape := ⟨some ⟨kd, d, 1⟩, .none, .none, false⟩
/-- The element form of 07: D, A and B any register. -/
def elem (d a b : Reg) (ind : Bool) : Shape := dab .dst d .src a .src b ind
/-- The element form with D also read (07 R169). -/
def elem3 (d a b : Reg) (ind : Bool) : Shape := dab .dstSrc d .src a .src b ind
end Shape

/-- The number of registers a datum of this size takes in D. -/
def Size.regs : Size → Nat
  | .b64 => 2
  | _ => 1

/-- The register fields of each instruction (the encoding tables of 05 R121, R137; 06 R154; 07 R171, R183, R198;
08 R202; 09 R226; 10 R258; 11 R281, R295). Walker words and steps have none. DEDUCED (log 42): `lid` and `tix` count
as of the vector kind in A of MOV and of BRX, as 03 R78 counts them. DESIGN CHOICE (log 46): `z` may stand as D where the table
says "scalar" (03 R77 discards the result), not where it says "vector", and as A of MAP.wr. -/
def Instr.shape : Instr → Shape
  | .brx a _ _ => .a1 .src a
  | .loop a _ => .a1 .sca a
  | .winb a _ => .a1 .sca a
  | .setx a _ => .a1 .sca a
  | .split d _ => .d1 .scaDst d
  | .fuse d a _ => .da .scaDst d .sca a
  | .bkm a _ => .a1 .sca a
  | .mov d a _ .vv => .da .vecDst d .lane a
  | .mov d a _ .vs => .da .vecDst d .sca a
  | .mov d a b .sv => .dab .scaDst d .lane a .sca (Reg.ofCode b.toNat)
  | .mov d a _ .ss => .da .scaDst d .sca a
  | .mov d _ _ .vsp => .d1 .vecDst d
  | .mov d _ _ .ssp => .d1 .scaDst d
  | .iadd d a b ind _ => .elem d a b ind
  | .isub d a b ind _ => .elem d a b ind
  | .imul d a b ind _ => .elem d a b ind
  | .imad d a b ind => .elem3 d a b ind
  | .imnx d a b ind _ _ => .elem d a b ind
  | .iuna d a ind _ => .da .dst d .src a ind
  | .iset _ a b ind _ => .ab .src a .src b ind
  | .iaddi d a _ => .da .dst d .src a
  | .iand d a b ind => .elem d a b ind
  | .ior d a b ind => .elem d a b ind
  | .ixor d a b ind => .elem d a b ind
  | .iandn d a b ind => .elem d a b ind
  | .shl d a b ind => .elem d a b ind
  | .shr d a b ind _ => .elem d a b ind
  | .bfx d a b ind .ins => .elem3 d a b ind
  | .bfx d a b ind _ => .elem d a b ind
  | .bits d a ind _ => .da .dst d .src a ind
  | .sel d a b ind _ => .elem d a b ind
  | .idiv d a b ind _ _ => .elem d a b ind
  | .addr d a b ind _ => .elem d a b ind
  | .iseti _ _ a _ => .a1 .src a
  | .andi d a _ => .da .dst d .src a
  | .xori d a _ => .da .dst d .src a
  | .shi d a _ _ => .da .dst d .src a
  | .fadd d a b ind _ => .elem d a b ind
  | .fsub d a b ind _ => .elem d a b ind
  | .fmul d a b ind _ => .elem d a b ind
  | .ffma d a b ind _ _ => .elem3 d a b ind
  | .fmnx d a b ind _ => .elem d a b ind
  | .fset _ a b ind _ => .ab .src a .src b ind
  | .fcvt d a _ _ ind _ _ => .da .dst d .src a ind
  | .hadd2 d a b ind _ _ => .elem d a b ind
  | .hfma2 d a b ind _ _ => .elem3 d a b ind
  | .hmul2 d a b ind _ _ => .elem d a b ind
  | .fsfu d a ind _ => .da .dst d .src a ind
  | .funa d a b ind .cps => .elem d a b ind
  | .funa d a _ ind _ => .da .dst d .src a ind
  | .expo d a ind _ => .da .dst d .src a ind
  | .ldexp d a b ind _ => .elem d a b ind
  | .maxe d a b ind => .elem d a b ind
  | .sexp d a b ind => .elem d a b ind
  | .frow d a b ind _ .ctr => .elem d a b ind
  | .frow d a _ ind _ _ => .da .dstSrc d .src a ind
  | .shfx d a b => .dab .vecDst d .vec a .sca b
  | .shfp d a b => .dab .vecDst d .vec a .sca b
  | .shfb d a b _ => .dab .vecDst d .vec a .sca b
  | .shfi d a b => .dab .vecDst d .vec a .src b
  | .shfr d a b _ => .dab .vecDst d .vec a .sca b
  | .mat d a b => ⟨some ⟨.vecDst, d, 1⟩, some ⟨.vec, a, 1⟩, some ⟨.scaZ, b, 2⟩, false⟩
  | .mapRd d a => ⟨some ⟨.scaDst, d, 2⟩, some ⟨.vec, a, 1⟩, .none, false⟩
  | .mapWr d a => ⟨some ⟨.vecDst, d, 1⟩, some ⟨.scaZ, a, 2⟩, .none, false⟩
  | .mapId d a => .da .vecDst d .vec a
  | .vote d _ _ .ballot => .d1 .scaDst (Reg.ofCode d.toNat)
  | .matchk d a _ _ => .da .vecDst d .lane a
  | .pscan d a _ _ _ _ => .da .vecDst d .lane a
  | .qapp d a b => .dab .vecDst d .vec a .vec b
  | .cdet d a _ _ => .da .vecDst d .lane a
  | .redx d a b _ _ => .dab .vecDst d .lane a .laneZ b
  | .segr d a _ _ _ => .da .vecDst d .vec a
  | .rlt d a => .da .vecDst d .vec a
  | .rwalk d a b _ => .dab .vecDst d .vec a .sca b
  | .ld d a b _ sz => ⟨some ⟨.dst, d, sz.regs⟩, some ⟨.src, a, 1⟩, some ⟨.src, b, 1⟩, false⟩
  | .st d a b _ sz => ⟨some ⟨.data, d, sz.regs⟩, some ⟨.src, a, 1⟩, some ⟨.src, b, 1⟩, false⟩
  | .ldi d a _ sz _ => ⟨some ⟨.dst, d, sz.regs⟩, some ⟨.src, a, 1⟩, .none, false⟩
  | .sti d a _ sz _ => ⟨some ⟨.data, d, sz.regs⟩, some ⟨.src, a, 1⟩, .none, false⟩
  | .ldn d a b _ sz => ⟨some ⟨.dst, d, sz.regs⟩, some ⟨.src, a, 1⟩, some ⟨.src, b, 1⟩, false⟩
  | .atomh d a b _ => .elem3 d a b false
  | .atomp d a b _ => .elem3 d a b false
  | .acas d a b _ sz => ⟨some ⟨.dstSrc, d, 2 * sz.regs⟩, some ⟨.src, a, 1⟩, some ⟨.src, b, 1⟩, false⟩
  | .bari a _ _ => .a1 .sca a
  | .bara d _ => .d1 .scaDst d
  | .barw a _ => .a1 .sca a
  | .ldt d a b _ => .elem d a b false
  | .stt d a b _ => .dab .data d .src a .src b
  | .layd _ a b _ => .ab .sca a .sca b
  | .cpy _ a _ _ => .a1 .blk8 a
  | .close d => .d1 .scaDst d
  | .waitb a => .a1 .sca a
  | .rrot _ a _ => .a1 .blk4 a
  | .cpyp _ a _ => .a1 .blk8 a
  | .enq _ a => .a1 .blk8 a
  | .waith d _ => .d1 .scaDst d
  | .hsto _ a b => .ab .sca a .sca b
  | .hlod _ a b => .ab .sca a .sca b
  | .bina _ a b => .ab .lane a .src b
  | .crc d a b _ => .elem d a b false
  | .bhist d a b _ _ => .dab .scaZ d .sca a .lane b
  | .bsel _ a b _ _ => ⟨.none, some ⟨.lane, a, 1⟩, some ⟨.pair, b, 2⟩, false⟩
  | .oclm d a => .da .scaDst d .sca a
  | .orel a => .a1 .sca a
  | .aclm d a => .da .scaDst d .sca a
  | .aclmGrant a b => .ab .sca a .sca b
  | .arel a => .a1 .sca a
  | .arelRevoke a => .a1 .sca a
  | .mma d a b _ _ => .dab .scaZ d .sca a .sca b
  | .mmaa d a b _ => .dab .scaZ d .sca a .sca b
  | .mmsp d a b _ _ => .dab .scaZ d .sca a .sca b
  | .publ d a => .da .scaDst d .sca a
  | .publSeal a => .a1 .sca a
  | .setl a => .a1 .sca a
  | .alin d a b .copy => .dab .scaZ d .sca a .scaZ b
  | .alin d a b .transpose => .dab .scaZ d .sca a .scaZ b
  | .alin d a b _ => .dab .scaZ d .sca a .sca b
  | .adrn d a b => ⟨some ⟨.vecDst, d, 2⟩, some ⟨.sca, a, 1⟩, some ⟨.sca, b, 1⟩, false⟩
  | .afil a b => .ab .sca a .sca b
  | .old d a b => .dab .scaZ d .sca a .sca b
  | .sltg a b => .ab .sca a .sca b
  | .ast d a b _ => .dab .scaZ d .sca a .sca b
  | .ost d a b _ _ => .dab .scaZ d .sca a .sca b
  | .perf d a b _ _ => .dab .dst d .sca a .sca b
  | .hpsh d a b => .dab .scaZ d .litOnly a .sca b
  | .rsum _ b _ => ⟨.none, .none, some ⟨.vecSca, b, 1⟩, false⟩
  | .sysRdsr d _ => .d1 .scaDst d
  | .sysWrsr a _ => .a1 .sca a
  | .sysStamp a => .a1 .sca a
  | .sysProf a => .a1 .sca a
  | .sysTime d => ⟨some ⟨.scaDst, d, 2⟩, .none, .none, false⟩
  | .sysFlags d _ true => .d1 .scaDst d
  | .sysFlags d a false => .da .scaDst d .sca a
  | _ => .none

/-- The field's register is admitted by its kind. -/
def Field.ok (f : Field) : Bool := f.kind.ok f.reg

/-- An absent field breaks nothing. -/
def okField : Option Field → Bool
  | .none => true
  | some f => f.ok

/-- The field names a vector register, lid or tix. -/
def vecField : Option Field → Bool
  | .none => false
  | some f => f.reg.isVector

/-- The instruction executes in vector form (03 R78). -/
def Shape.vector (s : Shape) : Bool := s.ind || vecField s.d || vecField s.a || vecField s.b

/-- A scalar destination in vector form is illegal where the description gives no lane-select form (03 R78). The kind
`scaDst` marks the fields that are scalar in every form. -/
def Shape.scalarDstBad (s : Shape) : Bool :=
  match s.d with
  | some f => (f.kind == .dst || f.kind == .dstSrc) && f.reg.isS && s.vector
  | .none => false

/-- A register-indirect A names v0-v95 (03 R80). -/
def Shape.indOk (s : Shape) : Bool :=
  !s.ind || (match s.a with
    | some f => f.reg.isV
    | .none => false)

/-- The limits on the other fields that the encoding tables give: reserved immediates, selectors and space codes. -/
def Instr.limits : Instr → Bool
  | .loop _ n => decide (3 ≤ n.toNat ∧ n.toNat ≤ 64)
  | .split _ w => w == 8 || w == 16 || w == 32
  | .mov _ _ b .vv => b == 0
  | .mov _ _ b .vs => b == 0
  | .mov _ _ b .ss => b == 0
  | .mov _ a b .vsp => a == .v 0 && decide (b.toNat < 16)
  | .mov _ a b .ssp => a == .v 0 && decide (b.toNat < 16)
  | .funa _ _ b _ .abs => b == .v 0
  | .funa _ _ b _ .neg => b == .v 0
  | .frow _ _ b _ _ .ssq => b == .v 0
  | .frow _ _ b _ _ .sum => b == .v 0
  | .sysFlags _ a true => a == .v 0
  | .fcvt _ _ .f32 .f32 _ _ _ => false
  | .fcvt _ _ .bf16 .bf16 _ _ _ => false
  | .fcvt _ _ .f16 .f16 _ _ _ => false
  | .fcvt _ _ .f8e4 .f8e4 _ _ _ => false
  | .fcvt _ _ .f8e5 .f8e5 _ _ _ => false
  | .fcvt _ _ .p2t8 .p2t8 _ _ _ => false
  | .fcvt _ _ .s32 .s32 _ _ _ => false
  | .fcvt _ _ .s8 .s8 _ _ _ => false
  | .vote d _ _ .ballot => decide (96 ≤ d.toNat ∧ d.toNat ≤ 124)
  | .vote d _ _ _ => decide (d.toNat < 8)
  | .pscan _ _ h seg _ _ => seg || h == 0
  | .ldn _ _ _ w _ => w != .ss
  | .acas _ _ _ w sz => w != .ss && (sz == .b32 || sz == .b64)
  | .ldt _ _ _ w => w != .ss
  | .stt _ _ _ w => w != .ss
  | .layd _ _ _ w => w != .ss
  | .cpy p _ nb _ => nb || p == 0
  | .rrot p _ nb => nb || p == 0
  | .cpyp p _ nb => nb || p == 0
  | .alin _ _ b .copy => b == .z
  | .alin _ _ b .transpose => b == .z
  | .ast _ _ _ w => w != .ss
  | .sysRdsr _ n => decide (n.toNat < 12) || n == 16 || n == 17
  | .sysWrsr _ n => decide (n.toNat < 12) || n == 16 || n == 17
  | .wldw _ _ w _ => decide (w.val < 2)
  | .wldh _ _ w _ => decide (w.val < 2)
  | .wldb _ _ w _ => decide (w.val < 2)
  | .wrun _ _ _ w => decide (w.val < 2)
  | _ => true

/-- The instruction is well formed: what is left of 03 R88 at an instruction position once the word decodes. -/
def Instr.wf (i : Instr) : Bool :=
  let s := i.shape
  okField s.d && okField s.a && okField s.b && s.indOk && !s.scalarDstBad && i.limits

/-- The instruction takes one literal word for A, and one for B, when the field holds lit (03 R79). -/
def litField : Option Field → Bool
  | .none => false
  | some f => f.reg == .lit

/-- How many literal words follow the instruction word (03 R79). -/
def Instr.lits (i : Instr) : Nat :=
  (if litField i.shape.a then 1 else 0) + (if litField i.shape.b then 1 else 0)

/-- The long-latency instructions (03 R83). -/
def Instr.long : Instr → Bool
  | .ld .. | .ldi .. | .ldn .. | .ldt .. | .atomh .. | .atomp .. | .acas .. | .idiv .. | .fsfu .. | .adrn ..
  | .enq .. | .hlod .. | .sysRdsr .. | .sysWrsr .. | .sysStamp .. | .sysProf .. | .sysTime .. | .sysFlags .. => true
  | _ => false

/-- The control instructions (03 R87). -/
def Instr.control : Instr → Bool
  | .bra .. | .brx .. | .call .. | .ret | .exit | .yield | .loop .. => true
  | _ => false

/-- The instructions that advance the CSN (01 R23). -/
def Instr.sequenced : Instr → Bool
  | .cpy .. | .cpyp .. | .rrot .. | .enq .. | .bina .. | .mma .. | .mmaa .. | .mmsp .. | .old .. | .ost .. | .ast ..
  | .publ .. | .publSeal .. | .perf .. => true
  | _ => false

/-- The formats of 03 R75, for the operand-control nibbles of R74: a J or F format word has no nibble, an I format word
no B half. -/
inductive Fmt where | w | i | j | f
deriving DecidableEq, Repr

/-- The format of each opcode (03 R85). -/
def Instr.fmt : Instr → Fmt
  | .bra .. | .call .. => .j
  | .waitf .. => .f
  | .loop .. | .winb .. | .split .. | .fuse .. | .bkm .. | .iaddi .. | .iseti .. | .andi .. | .xori .. | .shi ..
  | .ldi .. | .sti .. | .fence .. => .i
  | _ => .w

/-- The field is a vector-register source, so that keep and last bits may stand on it (03 R74). -/
def markable : Option Field → Bool
  | .none => false
  | some f => f.kind.reads && f.reg.isV

/-- The operand-control nibble is legal for the instruction (03 R74). -/
def Instr.nibbleOk (i : Instr) (nib : Nat) : Bool :=
  match i.fmt with
  | .j => nib == 0
  | .f => nib == 0
  | .i => decide (nib / 4 = 0) && (nib % 4 == 0 || markable i.shape.a)
  | .w => (nib % 4 == 0 || markable i.shape.a) && (nib / 4 == 0 || markable i.shape.b)

end Sys2Proof
end

