-- ==== Sys2Proof/Decode.lean ====
section
/-! DEFINITION. The decoders of Derrov words (03 R75, R76, R85; the encoding tables of 05 to 11) and of walker words
(12 R300, R301), and the encoders written from the same tables. A decoder reads fields and refuses, by name, what the
tables give no meaning; the kinds of register fields are judged by `Instr.wf`. -/

namespace Sys2Proof

/-- Why a word is not an instruction (03 R88). -/
inductive DecodeError where
  /-- fewer than four bytes -/
  | short
  /-- an opcode the map does not give (03 R85) -/
  | opcode
  /-- a reserved code in M, IMM11 or a selector -/
  | reservedCode
  /-- a nonzero field the instruction does not use (03 R76) -/
  | unusedField
deriving DecidableEq, Repr

/-- What decoding one word gives. -/
abbrev Decoded := Except DecodeError Instr

/-- The fields of the W format (03 R75). -/
structure Fields where
  op : Nat
  d  : Nat
  a  : Nat
  b  : Nat
  m  : Nat
deriving DecidableEq, Repr

/-- The fields of a word. -/
def fieldsOf (w : Nat) : Fields := ⟨w / 2 ^ 25, w / 2 ^ 18 % 128, w / 2 ^ 11 % 128, w / 2 ^ 4 % 128, w % 16⟩

/-- The word of the fields: OP, D, A, B, M from the top (03 R75). -/
def Fields.word (f : Fields) : Nat := f.op * 2 ^ 25 + f.d * 2 ^ 18 + f.a * 2 ^ 11 + f.b * 2 ^ 4 + f.m

/-- Every field fits its width. -/
def Fields.ok (f : Fields) : Prop := f.op < 128 ∧ f.d < 128 ∧ f.a < 128 ∧ f.b < 128 ∧ f.m < 16

/-- IMM11 of the I format (03 R75). -/
def Fields.imm (f : Fields) : Nat := f.b * 16 + f.m

/-- The fields of an I format word. -/
def Fields.i (op d a imm : Nat) : Fields := ⟨op, d, a, imm / 16, imm % 16⟩

/-- The fields of a J format word: NEG, predicate, offset (03 R75). -/
def Fields.j (op neg p off : Nat) : Fields :=
  ⟨op, neg * 64 + p * 8 + off / 2 ^ 18, off / 2 ^ 11 % 128, off / 2 ^ 4 % 128, off % 16⟩

/-- The fields of an F format word: the mask of 12 flags (03 R75). -/
def Fields.f (op mask : Nat) : Fields := ⟨op, mask / 32, mask % 32 * 4, 0, 0⟩

/-- Continue when every unused field is zero (03 R76). -/
def need (c : Bool) (r : Decoded) : Decoded := if c then r else .error .unusedField

/-- Continue with the entry of a code table, or refuse a reserved code. -/
def pick (l : List α) (n : Nat) (k : α → Decoded) : Decoded :=
  match l[n]? with
  | some x => k x
  | none => .error .reservedCode

/-- The code of an entry of a code table. -/
def codeIn [DecidableEq α] (l : List α) (x : α) : Nat := l.idxOf x

/-- A bit as a Boolean. -/
def bit (n : Nat) : Bool := n % 2 == 1

/-- IADD, ISUB M[1:0] (07 R171). -/
def SatMode.codes : List SatMode := [.wrap, .sat, .nsat]
/-- IMUL M[1:0] (07 R171). -/
def MulMode.codes : List MulMode := [.low, .hi, .nhi]
/-- SHR M[1:0] (07 R171). -/
def ShrMode.codes : List ShrMode := [.logical, .arith, .rot]
/-- SHI IMM[10:9] (07 R171). -/
def ShiKind.codes : List ShiKind := [.shl, .shr, .sar, .rot]
/-- BFX M[1:0] (07 R171). -/
def BfxMode.codes : List BfxMode := [.n, .s, .ins]
/-- BITS M[1:0] in the order of 07 R177. -/
def BitsFn.codes : List BitsFn := [.popc, .clz, .brev, .ffs]
/-- The IUNA selector (07 R171). -/
def UnaFn.codes : List UnaFn := [.abs, .neg, .sabs, .sneg]
/-- Integer conditions (07 R178). -/
def ICond.codes : List ICond := [.eq, .ne, .lt, .ge, .lo, .hs, .tst, .ntst]
/-- PLOG M[2:0] (07 R179). -/
def PlogOp.codes : List PlogOp := [.and, .or, .xor, .andn, .orn, .xnor, .nand, .nor]
/-- Rounding codes (04 R104). -/
def Rm.codes : List Rm := [.rne, .rtz, .rdn, .rup]
/-- FMNX M[1:0] (07 R183). -/
def MnxFn.codes : List MnxFn := [.min, .max, .minnum, .maxnum]
/-- FSET M[2:0] (07 R186). -/
def FCond.codes : List FCond := [.eq, .ne, .lt, .le, .gt, .ge, .ord, .uno]
/-- FCVT source codes (07 R187). -/
def CvtSrc.codes : List CvtSrc := [.f32, .bf16, .f16, .f8e4, .f8e5, .p2t8, .s32, .s8]
/-- FCVT target codes (07 R187). -/
def CvtTgt.codes : List CvtTgt := [.f32, .bf16, .f16, .f8e4, .f8e5, .p2t8, .s32, .s8, .p1t4, .s4]
/-- FSFU M[2:0] (07 R190). -/
def SfuFn.codes : List SfuFn := [.rcp, .rsq, .ex2, .lg2, .sin, .cos, .tanh, .sqrt]
/-- FUNA M[1:0] (07 R183). -/
def FunaFn.codes : List FunaFn := [.abs, .neg, .cps]
/-- FROW M[1:0] (07 R183). -/
def RowFn.codes : List RowFn := [.ssq, .sum, .ctr]
/-- VOTE M[1:0] (06 R154). -/
def VoteFn.codes : List VoteFn := [.any, .all, .uni, .ballot]
/-- MATCH M[1:0] (06 R154). -/
def MatchFn.codes : List MatchFn := [.lead, .cnt, .rank]
/-- PSCAN M[1:0] (06 R154). -/
def ScanOp.codes : List ScanOp := [.add, .fadd, .max, .min]
/-- REDX M[2:0] (06 R154). -/
def RedOp.codes : List RedOp := [.add, .fadd, .max, .min, .fmax, .fmin, .and, .or]
/-- SEGR M[1:0] (07 R198). -/
def SegOp.codes : List SegOp := [.add, .fadd, .fmax, .fmin]
/-- MOV M[2:0] (05 R137). -/
def MovForm.codes : List MovForm := [.vv, .vs, .sv, .ss, .vsp, .ssp]
/-- Space codes (01 R34); 11 is illegal. -/
def Space.codes : List Space := [.sh, .sp, .ss]
/-- Size codes (03 R81). -/
def Size.codes : List Size := [.b8, .b16, .b32, .b64]
/-- Atomic operations (08 R213). -/
def AtomOp.codes : List AtomOp :=
  [.addS32, .addF32, .addBf16x2, .addF16x2, .minS32, .maxS32, .minN32, .maxN32,
   .minF32, .maxF32, .and, .or, .xor, .exch, .incWrap, .decWrap]
/-- FENCE IMM[4:3] (08 R202). -/
def FenceKind.codes : List FenceKind := [.full, .acq, .rel, .eng]
/-- FENCE IMM[2:0] (15 R322). -/
def Scope.codes : List Scope := [.grp, .team, .clu, .die, .dev, .sys]
/-- Key kinds (09 R226). -/
def KeyKind.codes : List KeyKind := [.s32, .n32, .f32]
/-- CRC M[1:0] (09 R226). -/
def CrcSz.codes : List CrcSz := [.c8, .c16, .c32]
/-- ALIN M[2:0] (10 R275). -/
def AlinOp.codes : List AlinOp := [.add, .sub, .scale, .copy, .transpose]
/-- OST M[2:0] (10 R278). -/
def OstFmt.codes : List OstFmt := [.bf16, .f16, .f8e4, .f8e5, .p2t8, .s8]
/-- RSUM M[1:0] (11 R281). -/
def RsumAct.codes : List RsumAct := [.cont, .retry, .skip, .patch]


/-- The fields a Derrov instruction is encoded in; none for walker words and steps. -/
def Instr.fields : Instr → Option Fields
  | .nop => some ⟨0, 0, 0, 0, 0⟩
  | .bra n p o => some (Fields.j 1 n.toNat p.val o.toNat)
  | .brx a n p => some ⟨2, 0, a.code, 0, n.toNat * 8 + p.val⟩
  | .call n p o => some (Fields.j 3 n.toNat p.val o.toNat)
  | .ret => some ⟨4, 0, 0, 0, 0⟩
  | .exit => some ⟨5, 0, 0, 0, 0⟩
  | .yield => some ⟨6, 0, 0, 0, 0⟩
  | .loop a n => some (Fields.i 7 0 a.code n.toNat)
  | .winb a n => some (Fields.i 8 0 a.code n.toNat)
  | .setx a x => some ⟨9, 0, a.code, 0, x.toNat⟩
  | .split d w => some (Fields.i 10 d.code 0 w.toNat)
  | .fuse d a t => some (Fields.i 11 d.code a.code t.toNat)
  | .isync => some ⟨12, 0, 0, 0, 0⟩
  | .bkm a n => some (Fields.i 13 0 a.code n.toNat)
  | .waitf k => some (Fields.f 14 k.toNat)
  | .mov d a b f => some ⟨15, d.code, a.code, b.toNat, codeIn MovForm.codes f⟩
  | .iadd d a b ind m => some ⟨16, d.code, a.code, b.code, ind.toNat * 8 + codeIn SatMode.codes m⟩
  | .isub d a b ind m => some ⟨17, d.code, a.code, b.code, ind.toNat * 8 + codeIn SatMode.codes m⟩
  | .imul d a b ind m => some ⟨18, d.code, a.code, b.code, ind.toNat * 8 + codeIn MulMode.codes m⟩
  | .imad d a b ind => some ⟨19, d.code, a.code, b.code, ind.toNat * 8⟩
  | .imnx d a b ind n x => some ⟨20, d.code, a.code, b.code, ind.toNat * 8 + n.toNat * 2 + x.toNat⟩
  | .iuna d a ind f => some ⟨21, d.code, a.code, codeIn UnaFn.codes f, ind.toNat * 8⟩
  | .iset p a b ind c => some ⟨22, p.val, a.code, b.code, ind.toNat * 8 + codeIn ICond.codes c⟩
  | .iaddi d a n => some (Fields.i 23 d.code a.code n.toNat)
  | .iand d a b ind => some ⟨24, d.code, a.code, b.code, ind.toNat * 8⟩
  | .ior d a b ind => some ⟨25, d.code, a.code, b.code, ind.toNat * 8⟩
  | .ixor d a b ind => some ⟨26, d.code, a.code, b.code, ind.toNat * 8⟩
  | .iandn d a b ind => some ⟨27, d.code, a.code, b.code, ind.toNat * 8⟩
  | .shl d a b ind => some ⟨28, d.code, a.code, b.code, ind.toNat * 8⟩
  | .shr d a b ind m => some ⟨29, d.code, a.code, b.code, ind.toNat * 8 + codeIn ShrMode.codes m⟩
  | .bfx d a b ind m => some ⟨30, d.code, a.code, b.code, ind.toNat * 8 + codeIn BfxMode.codes m⟩
  | .bits d a ind f => some ⟨31, d.code, a.code, 0, ind.toNat * 8 + codeIn BitsFn.codes f⟩
  | .sel d a b ind p => some ⟨32, d.code, a.code, b.code, ind.toNat * 8 + p.val⟩
  | .plog d a b o => some ⟨33, d.val, a.val, b.val, codeIn PlogOp.codes o⟩
  | .idiv d a b ind n r => some ⟨34, d.code, a.code, b.code, ind.toNat * 8 + n.toNat * 2 + r.toNat⟩
  | .addr d a b ind k => some ⟨35, d.code, a.code, b.code, ind.toNat * 8 + k.val⟩
  | .iseti p c a n => some (Fields.i 36 (codeIn ICond.codes c * 8 + p.val) a.code n.toNat)
  | .andi d a n => some (Fields.i 37 d.code a.code n.toNat)
  | .xori d a n => some (Fields.i 38 d.code a.code n.toNat)
  | .shi d a k n => some (Fields.i 39 d.code a.code (codeIn ShiKind.codes k * 512 + n.val))
  | .fadd d a b ind r => some ⟨40, d.code, a.code, b.code, ind.toNat * 8 + codeIn Rm.codes r⟩
  | .fsub d a b ind r => some ⟨40, d.code, a.code, b.code, ind.toNat * 8 + 4 + codeIn Rm.codes r⟩
  | .fmul d a b ind r => some ⟨41, d.code, a.code, b.code, ind.toNat * 8 + codeIn Rm.codes r⟩
  | .ffma d a b ind n r => some ⟨42, d.code, a.code, b.code, ind.toNat * 8 + n.toNat * 4 + codeIn Rm.codes r⟩
  | .fmnx d a b ind f => some ⟨43, d.code, a.code, b.code, ind.toNat * 8 + codeIn MnxFn.codes f⟩
  | .fset p a b ind c => some ⟨44, p.val, a.code, b.code, ind.toNat * 8 + codeIn FCond.codes c⟩
  | .fcvt d a x y ind t r => some ⟨45, d.code, a.code, codeIn CvtTgt.codes y * 8 + codeIn CvtSrc.codes x, ind.toNat * 8 + t.toNat * 4 + codeIn Rm.codes r⟩
  | .hadd2 d a b ind f r => some ⟨46, d.code, a.code, b.code, ind.toNat * 8 + f.toNat * 4 + codeIn Rm.codes r⟩
  | .hfma2 d a b ind f r => some ⟨47, d.code, a.code, b.code, ind.toNat * 8 + f.toNat * 4 + codeIn Rm.codes r⟩
  | .hmul2 d a b ind f r => some ⟨48, d.code, a.code, b.code, ind.toNat * 8 + f.toNat * 4 + codeIn Rm.codes r⟩
  | .fsfu d a ind f => some ⟨49, d.code, a.code, 0, ind.toNat * 8 + codeIn SfuFn.codes f⟩
  | .funa d a b ind f => some ⟨50, d.code, a.code, b.code, ind.toNat * 8 + codeIn FunaFn.codes f⟩
  | .expo d a ind f => some ⟨51, d.code, a.code, 0, ind.toNat * 8 + f.toNat⟩
  | .ldexp d a b ind r => some ⟨52, d.code, a.code, b.code, ind.toNat * 8 + codeIn Rm.codes r⟩
  | .maxe d a b ind => some ⟨53, d.code, a.code, b.code, ind.toNat * 8⟩
  | .sexp d a b ind => some ⟨54, d.code, a.code, b.code, ind.toNat * 8⟩
  | .frow d a b ind f g => some ⟨55, d.code, a.code, b.code, ind.toNat * 8 + f.toNat * 4 + codeIn RowFn.codes g⟩
  | .shfx d a b => some ⟨56, d.code, a.code, b.code, 0⟩
  | .shfp d a b => some ⟨57, d.code, a.code, b.code, 0⟩
  | .shfb d a b g => some ⟨58, d.code, a.code, b.code, g.val⟩
  | .shfi d a b => some ⟨59, d.code, a.code, b.code, 0⟩
  | .shfr d a b g => some ⟨60, d.code, a.code, b.code, g.val⟩
  | .mat d a b => some ⟨61, d.code, a.code, b.code, 0⟩
  | .mapRd d a => some ⟨62, d.code, a.code, 0, 0⟩
  | .mapWr d a => some ⟨62, d.code, a.code, 0, 1⟩
  | .mapId d a => some ⟨62, d.code, a.code, 0, 2⟩
  | .vote d p n f => some ⟨63, d.toNat, 0, p.val, n.toNat * 4 + codeIn VoteFn.codes f⟩
  | .matchk d a f g => some ⟨64, d.code, a.code, 0, f.toNat * 4 + codeIn MatchFn.codes g⟩
  | .pscan d a h g x o => some ⟨65, d.code, a.code, h.val, g.toNat * 8 + x.toNat * 4 + codeIn ScanOp.codes o⟩
  | .qapp d a b => some ⟨66, d.code, a.code, b.code, 0⟩
  | .cdet d a f n => some ⟨67, d.code, a.code, 0, f.toNat * 4 + n.toNat⟩
  | .redx d a b f o => some ⟨68, d.code, a.code, b.code, f.toNat * 8 + codeIn RedOp.codes o⟩
  | .segr d a h l o => some ⟨69, d.code, a.code, h.val, l.toNat * 4 + codeIn SegOp.codes o⟩
  | .rlt d a => some ⟨70, d.code, a.code, 0, 0⟩
  | .rwalk d a b h => some ⟨71, d.code, a.code, b.code, h.val⟩
  | .ld d a b w z => some ⟨72, d.code, a.code, b.code, codeIn Space.codes w * 4 + codeIn Size.codes z⟩
  | .st d a b w z => some ⟨73, d.code, a.code, b.code, codeIn Space.codes w * 4 + codeIn Size.codes z⟩
  | .ldi d a w z c => some (Fields.i 74 d.code a.code (codeIn Space.codes w * 512 + codeIn Size.codes z * 128 + c.toNat))
  | .sti d a w z c => some (Fields.i 75 d.code a.code (codeIn Space.codes w * 512 + codeIn Size.codes z * 128 + c.toNat))
  | .ldn d a b w z => some ⟨76, d.code, a.code, b.code, codeIn Space.codes w * 4 + codeIn Size.codes z⟩
  | .atomh d a b o => some ⟨77, d.code, a.code, b.code, codeIn AtomOp.codes o⟩
  | .atomp d a b o => some ⟨78, d.code, a.code, b.code, codeIn AtomOp.codes o⟩
  | .acas d a b w z => some ⟨79, d.code, a.code, b.code, codeIn Space.codes w * 4 + codeIn Size.codes z⟩
  | .fence k c => some (Fields.i 80 0 0 (codeIn FenceKind.codes k * 8 + codeIn Scope.codes c))
  | .bar n => some ⟨81, 0, 0, n.val, 0⟩
  | .bari a n f => some ⟨82, 0, a.code, n.val, f.toNat⟩
  | .bara d n => some ⟨83, d.code, 0, n.val, 0⟩
  | .barw a n => some ⟨84, 0, a.code, n.val, 0⟩
  | .ldt d a b w => some ⟨85, d.code, a.code, b.code, codeIn Space.codes w * 4⟩
  | .stt d a b w => some ⟨86, d.code, a.code, b.code, codeIn Space.codes w * 4⟩
  | .layd l a b w => some ⟨88, l.val, a.code, b.code, codeIn Space.codes w * 4⟩
  | .cpy p a n f => some ⟨89, p.val, a.code, 0, n.toNat * 2 + f.toNat⟩
  | .close d => some ⟨90, d.code, 0, 0, 0⟩
  | .waitb a => some ⟨91, 0, a.code, 0, 0⟩
  | .rrot p a n => some ⟨92, p.val, a.code, 0, n.toNat * 2⟩
  | .cpyp p a n => some ⟨93, p.val, a.code, 0, n.toNat * 2⟩
  | .enq h a => some ⟨94, h.val, a.code, 0, 0⟩
  | .waith d h => some ⟨95, d.code, h.val, 0, 0⟩
  | .tsth p h => some ⟨96, p.val, h.val, 0, 0⟩
  | .canh h => some ⟨97, 0, h.val, 0, 0⟩
  | .hsto h a b => some ⟨98, h.val, a.code, b.code, 0⟩
  | .hlod h a b => some ⟨99, h.val, a.code, b.code, 0⟩
  | .bina n a b => some ⟨100, n.val, a.code, b.code, 0⟩
  | .crc d a b z => some ⟨101, d.code, a.code, b.code, codeIn CrcSz.codes z⟩
  | .bhist d a b g k => some ⟨102, d.code, a.code, b.code, g.val * 4 + codeIn KeyKind.codes k⟩
  | .bsel p a b i k => some ⟨103, p.val, a.code, b.code, i.toNat * 4 + codeIn KeyKind.codes k⟩
  | .oclm d a => some ⟨104, d.code, a.code, 0, 0⟩
  | .orel a => some ⟨105, 0, a.code, 0, 0⟩
  | .aclm d a => some ⟨106, d.code, a.code, 0, 0⟩
  | .aclmGrant a b => some ⟨106, 0, a.code, b.code, 1⟩
  | .arel a => some ⟨107, 0, a.code, 0, 0⟩
  | .arelRevoke a => some ⟨107, 0, a.code, 0, 1⟩
  | .mma d a b t o => some ⟨108, d.code, a.code, b.code, t.toNat * 2 + o.toNat⟩
  | .mmaa d a b o => some ⟨108, d.code, a.code, b.code, 4 + o.toNat⟩
  | .mmsp d a b t o => some ⟨109, d.code, a.code, b.code, t.toNat * 2 + o.toNat⟩
  | .publ d a => some ⟨110, d.code, a.code, 0, 0⟩
  | .publSeal a => some ⟨110, 0, a.code, 0, 1⟩
  | .setl a => some ⟨111, 0, a.code, 0, 0⟩
  | .alin d a b o => some ⟨112, d.code, a.code, b.code, codeIn AlinOp.codes o⟩
  | .adrn d a b => some ⟨113, d.code, a.code, b.code, 0⟩
  | .afil a b => some ⟨114, 0, a.code, b.code, 0⟩
  | .old d a b => some ⟨115, d.code, a.code, b.code, 0⟩
  | .sltg a b => some ⟨116, 0, a.code, b.code, 0⟩
  | .ast d a b w => some ⟨117, d.code, a.code, b.code, codeIn Space.codes w * 4⟩
  | .ost d a b t f => some ⟨118, d.code, a.code, b.code, t.toNat * 8 + codeIn OstFmt.codes f⟩
  | .perf d a b n p => some ⟨120, d.code, a.code, b.code, n.toNat * 8 + p.val⟩
  | .hpsh d a b => some ⟨121, d.code, a.code, b.code, 0⟩
  | .hpop => some ⟨122, 0, 0, 0, 0⟩
  | .rsum k b t => some ⟨123, 0, k.val, b.code, codeIn RsumAct.codes t⟩
  | .tokd k => some ⟨124, 0, k.val, 0, 0⟩
  | .tokdAbort k => some ⟨124, 0, k.val, 0, 1⟩
  | .tokdMov j k => some ⟨124, j.val, k.val, 0, 2⟩
  | .sysRdsr d n => some ⟨125, d.code, 0, n.toNat, 0⟩
  | .sysWrsr a n => some ⟨125, 0, a.code, n.toNat, 1⟩
  | .sysStamp a => some ⟨125, 0, a.code, 0, 2⟩
  | .sysProf a => some ⟨125, 0, a.code, 0, 3⟩
  | .sysTime d => some ⟨125, d.code, 0, 0, 4⟩
  | .sysFlags d a r => some ⟨125, d.code, a.code, 0, r.toNat * 8 + 5⟩
  | _ => none

/-- The opcodes of row 0x00 of 03 R85. -/
def decodeRow00 (f : Fields) : Decoded :=
  match f.op % 8 with
  | 0 => need (f.d == 0 && f.a == 0 && f.b == 0 && f.m == 0) <| .ok (.nop)
  | 1 => .ok (.bra (bit (f.d / 64)) (.ofNat 8 (f.d / 8 % 8)) (.ofNat 21 (f.d % 8 * 2 ^ 18 + f.a * 2 ^ 11 + f.b * 2 ^ 4 + f.m)))
  | 2 => need (f.d == 0 && f.b == 0) <| .ok (.brx (Reg.ofCode f.a) (bit (f.m / 8)) (.ofNat 8 (f.m % 8)))
  | 3 => .ok (.call (bit (f.d / 64)) (.ofNat 8 (f.d / 8 % 8)) (.ofNat 21 (f.d % 8 * 2 ^ 18 + f.a * 2 ^ 11 + f.b * 2 ^ 4 + f.m)))
  | 4 => need (f.d == 0 && f.a == 0 && f.b == 0 && f.m == 0) <| .ok (.ret)
  | 5 => need (f.d == 0 && f.a == 0 && f.b == 0 && f.m == 0) <| .ok (.exit)
  | 6 => need (f.d == 0 && f.a == 0 && f.b == 0 && f.m == 0) <| .ok (.yield)
  | 7 => need (f.d == 0) <| .ok (.loop (Reg.ofCode f.a) (.ofNat 11 f.imm))
  | _ => .error .opcode

/-- The opcodes of row 0x08 of 03 R85. -/
def decodeRow08 (f : Fields) : Decoded :=
  match f.op % 8 with
  | 0 => need (f.d == 0) <| .ok (.winb (Reg.ofCode f.a) (.ofNat 11 f.imm))
  | 1 => need (f.d == 0 && f.b == 0 && f.m / 2 == 0) <| .ok (.setx (Reg.ofCode f.a) (bit f.m))
  | 2 => need (f.a == 0) <| .ok (.split (Reg.ofCode f.d) (.ofNat 11 f.imm))
  | 3 => .ok (.fuse (Reg.ofCode f.d) (Reg.ofCode f.a) (.ofNat 11 f.imm))
  | 4 => need (f.d == 0 && f.a == 0 && f.b == 0 && f.m == 0) <| .ok (.isync)
  | 5 => need (f.d == 0) <| .ok (.bkm (Reg.ofCode f.a) (.ofNat 11 f.imm))
  | 6 => need (f.a % 4 == 0 && f.b == 0 && f.m == 0) <| .ok (.waitf (.ofNat 12 (f.d * 32 + f.a / 4)))
  | 7 => need (f.m / 8 == 0) <| pick MovForm.codes (f.m % 8) fun x => .ok (.mov (Reg.ofCode f.d) (Reg.ofCode f.a) (.ofNat 7 f.b) x)
  | _ => .error .opcode

/-- The opcodes of row 0x10 of 03 R85. -/
def decodeRow10 (f : Fields) : Decoded :=
  match f.op % 8 with
  | 0 => pick SatMode.codes (f.m % 8) fun x => .ok (.iadd (Reg.ofCode f.d) (Reg.ofCode f.a) (Reg.ofCode f.b) (bit (f.m / 8)) x)
  | 1 => pick SatMode.codes (f.m % 8) fun x => .ok (.isub (Reg.ofCode f.d) (Reg.ofCode f.a) (Reg.ofCode f.b) (bit (f.m / 8)) x)
  | 2 => pick MulMode.codes (f.m % 8) fun x => .ok (.imul (Reg.ofCode f.d) (Reg.ofCode f.a) (Reg.ofCode f.b) (bit (f.m / 8)) x)
  | 3 => need (f.m % 8 == 0) <| .ok (.imad (Reg.ofCode f.d) (Reg.ofCode f.a) (Reg.ofCode f.b) (bit (f.m / 8)))
  | 4 => need (f.m / 4 % 2 == 0) <| .ok (.imnx (Reg.ofCode f.d) (Reg.ofCode f.a) (Reg.ofCode f.b) (bit (f.m / 8)) (bit (f.m / 2)) (bit f.m))
  | 5 => need (f.m % 8 == 0) <| pick UnaFn.codes f.b fun x => .ok (.iuna (Reg.ofCode f.d) (Reg.ofCode f.a) (bit (f.m / 8)) x)
  | 6 => need (f.d / 8 == 0) <| pick ICond.codes (f.m % 8) fun x => .ok (.iset (.ofNat 8 (f.d)) (Reg.ofCode f.a) (Reg.ofCode f.b) (bit (f.m / 8)) x)
  | 7 => .ok (.iaddi (Reg.ofCode f.d) (Reg.ofCode f.a) (.ofNat 11 f.imm))
  | _ => .error .opcode

/-- The opcodes of row 0x18 of 03 R85. -/
def decodeRow18 (f : Fields) : Decoded :=
  match f.op % 8 with
  | 0 => need (f.m % 8 == 0) <| .ok (.iand (Reg.ofCode f.d) (Reg.ofCode f.a) (Reg.ofCode f.b) (bit (f.m / 8)))
  | 1 => need (f.m % 8 == 0) <| .ok (.ior (Reg.ofCode f.d) (Reg.ofCode f.a) (Reg.ofCode f.b) (bit (f.m / 8)))
  | 2 => need (f.m % 8 == 0) <| .ok (.ixor (Reg.ofCode f.d) (Reg.ofCode f.a) (Reg.ofCode f.b) (bit (f.m / 8)))
  | 3 => need (f.m % 8 == 0) <| .ok (.iandn (Reg.ofCode f.d) (Reg.ofCode f.a) (Reg.ofCode f.b) (bit (f.m / 8)))
  | 4 => need (f.m % 8 == 0) <| .ok (.shl (Reg.ofCode f.d) (Reg.ofCode f.a) (Reg.ofCode f.b) (bit (f.m / 8)))
  | 5 => pick ShrMode.codes (f.m % 8) fun x => .ok (.shr (Reg.ofCode f.d) (Reg.ofCode f.a) (Reg.ofCode f.b) (bit (f.m / 8)) x)
  | 6 => pick BfxMode.codes (f.m % 8) fun x => .ok (.bfx (Reg.ofCode f.d) (Reg.ofCode f.a) (Reg.ofCode f.b) (bit (f.m / 8)) x)
  | 7 => need (f.b == 0) <| pick BitsFn.codes (f.m % 8) fun x => .ok (.bits (Reg.ofCode f.d) (Reg.ofCode f.a) (bit (f.m / 8)) x)
  | _ => .error .opcode

/-- The opcodes of row 0x20 of 03 R85. -/
def decodeRow20 (f : Fields) : Decoded :=
  match f.op % 8 with
  | 0 => .ok (.sel (Reg.ofCode f.d) (Reg.ofCode f.a) (Reg.ofCode f.b) (bit (f.m / 8)) (.ofNat 8 (f.m % 8)))
  | 1 => need (f.d / 8 == 0 && f.a / 8 == 0 && f.b / 8 == 0) <| pick PlogOp.codes f.m fun x => .ok (.plog (.ofNat 8 (f.d)) (.ofNat 8 (f.a)) (.ofNat 8 (f.b)) x)
  | 2 => need (f.m / 4 % 2 == 0) <| .ok (.idiv (Reg.ofCode f.d) (Reg.ofCode f.a) (Reg.ofCode f.b) (bit (f.m / 8)) (bit (f.m / 2)) (bit f.m))
  | 3 => .ok (.addr (Reg.ofCode f.d) (Reg.ofCode f.a) (Reg.ofCode f.b) (bit (f.m / 8)) (.ofNat 8 (f.m % 8)))
  | 4 => need (f.d / 64 == 0) <| pick ICond.codes (f.d / 8) fun x => .ok (.iseti (.ofNat 8 (f.d % 8)) x (Reg.ofCode f.a) (.ofNat 11 f.imm))
  | 5 => .ok (.andi (Reg.ofCode f.d) (Reg.ofCode f.a) (.ofNat 11 f.imm))
  | 6 => .ok (.xori (Reg.ofCode f.d) (Reg.ofCode f.a) (.ofNat 11 f.imm))
  | 7 => need (f.imm / 32 % 16 == 0) <| pick ShiKind.codes (f.imm / 512) fun x => .ok (.shi (Reg.ofCode f.d) (Reg.ofCode f.a) x (.ofNat 32 (f.imm % 32)))
  | _ => .error .opcode

/-- The opcodes of row 0x28 of 03 R85. -/
def decodeRow28 (f : Fields) : Decoded :=
  match f.op % 8 with
  | 0 => pick Rm.codes (f.m % 4) fun r => .ok (if bit (f.m / 4) then .fsub (Reg.ofCode f.d) (Reg.ofCode f.a) (Reg.ofCode f.b) (bit (f.m / 8)) r else .fadd (Reg.ofCode f.d) (Reg.ofCode f.a) (Reg.ofCode f.b) (bit (f.m / 8)) r)
  | 1 => need (f.m / 4 % 2 == 0) <| pick Rm.codes (f.m % 4) fun r => .ok (.fmul (Reg.ofCode f.d) (Reg.ofCode f.a) (Reg.ofCode f.b) (bit (f.m / 8)) r)
  | 2 => pick Rm.codes (f.m % 4) fun r => .ok (.ffma (Reg.ofCode f.d) (Reg.ofCode f.a) (Reg.ofCode f.b) (bit (f.m / 8)) (bit (f.m / 4)) r)
  | 3 => need (f.m / 4 % 2 == 0) <| pick MnxFn.codes (f.m % 4) fun x => .ok (.fmnx (Reg.ofCode f.d) (Reg.ofCode f.a) (Reg.ofCode f.b) (bit (f.m / 8)) x)
  | 4 => need (f.d / 8 == 0) <| pick FCond.codes (f.m % 8) fun x => .ok (.fset (.ofNat 8 (f.d)) (Reg.ofCode f.a) (Reg.ofCode f.b) (bit (f.m / 8)) x)
  | 5 => pick CvtSrc.codes (f.b % 8) fun x => pick CvtTgt.codes (f.b / 8) fun y => pick Rm.codes (f.m % 4) fun r => .ok (.fcvt (Reg.ofCode f.d) (Reg.ofCode f.a) x y (bit (f.m / 8)) (bit (f.m / 4)) r)
  | 6 => pick Rm.codes (f.m % 4) fun r => .ok (.hadd2 (Reg.ofCode f.d) (Reg.ofCode f.a) (Reg.ofCode f.b) (bit (f.m / 8)) (bit (f.m / 4)) r)
  | 7 => pick Rm.codes (f.m % 4) fun r => .ok (.hfma2 (Reg.ofCode f.d) (Reg.ofCode f.a) (Reg.ofCode f.b) (bit (f.m / 8)) (bit (f.m / 4)) r)
  | _ => .error .opcode

/-- The opcodes of row 0x30 of 03 R85. -/
def decodeRow30 (f : Fields) : Decoded :=
  match f.op % 8 with
  | 0 => pick Rm.codes (f.m % 4) fun r => .ok (.hmul2 (Reg.ofCode f.d) (Reg.ofCode f.a) (Reg.ofCode f.b) (bit (f.m / 8)) (bit (f.m / 4)) r)
  | 1 => need (f.b == 0) <| pick SfuFn.codes (f.m % 8) fun x => .ok (.fsfu (Reg.ofCode f.d) (Reg.ofCode f.a) (bit (f.m / 8)) x)
  | 2 => need (f.m / 4 % 2 == 0) <| pick FunaFn.codes (f.m % 4) fun x => .ok (.funa (Reg.ofCode f.d) (Reg.ofCode f.a) (Reg.ofCode f.b) (bit (f.m / 8)) x)
  | 3 => need (f.b == 0 && f.m / 2 % 4 == 0) <| .ok (.expo (Reg.ofCode f.d) (Reg.ofCode f.a) (bit (f.m / 8)) (bit f.m))
  | 4 => need (f.m / 4 % 2 == 0) <| pick Rm.codes (f.m % 4) fun r => .ok (.ldexp (Reg.ofCode f.d) (Reg.ofCode f.a) (Reg.ofCode f.b) (bit (f.m / 8)) r)
  | 5 => need (f.m % 8 == 0) <| .ok (.maxe (Reg.ofCode f.d) (Reg.ofCode f.a) (Reg.ofCode f.b) (bit (f.m / 8)))
  | 6 => need (f.m % 8 == 0) <| .ok (.sexp (Reg.ofCode f.d) (Reg.ofCode f.a) (Reg.ofCode f.b) (bit (f.m / 8)))
  | 7 => pick RowFn.codes (f.m % 4) fun x => .ok (.frow (Reg.ofCode f.d) (Reg.ofCode f.a) (Reg.ofCode f.b) (bit (f.m / 8)) (bit (f.m / 4)) x)
  | _ => .error .opcode

/-- The opcodes of row 0x38 of 03 R85. -/
def decodeRow38 (f : Fields) : Decoded :=
  match f.op % 8 with
  | 0 => need (f.m == 0) <| .ok (.shfx (Reg.ofCode f.d) (Reg.ofCode f.a) (Reg.ofCode f.b))
  | 1 => need (f.m == 0) <| .ok (.shfp (Reg.ofCode f.d) (Reg.ofCode f.a) (Reg.ofCode f.b))
  | 2 => need (f.m / 8 == 0) <| .ok (.shfb (Reg.ofCode f.d) (Reg.ofCode f.a) (Reg.ofCode f.b) (.ofNat 8 (f.m)))
  | 3 => need (f.m == 0) <| .ok (.shfi (Reg.ofCode f.d) (Reg.ofCode f.a) (Reg.ofCode f.b))
  | 4 => need (f.m / 8 == 0) <| .ok (.shfr (Reg.ofCode f.d) (Reg.ofCode f.a) (Reg.ofCode f.b) (.ofNat 8 (f.m)))
  | 5 => need (f.m == 0) <| .ok (.mat (Reg.ofCode f.d) (Reg.ofCode f.a) (Reg.ofCode f.b))
  | 6 => need (f.b == 0) <| match f.m with
    | 0 => .ok (.mapRd (Reg.ofCode f.d) (Reg.ofCode f.a))
    | 1 => .ok (.mapWr (Reg.ofCode f.d) (Reg.ofCode f.a))
    | 2 => .ok (.mapId (Reg.ofCode f.d) (Reg.ofCode f.a))
    | _ => .error .reservedCode
  | 7 => need (f.a == 0 && f.b / 8 == 0 && f.m / 8 == 0) <| pick VoteFn.codes (f.m % 4) fun x => .ok (.vote (.ofNat 7 f.d) (.ofNat 8 (f.b)) (bit (f.m / 4)) x)
  | _ => .error .opcode

/-- The opcodes of row 0x40 of 03 R85. -/
def decodeRow40 (f : Fields) : Decoded :=
  match f.op % 8 with
  | 0 => need (f.b == 0 && f.m / 8 == 0) <| pick MatchFn.codes (f.m % 4) fun x => .ok (.matchk (Reg.ofCode f.d) (Reg.ofCode f.a) (bit (f.m / 4)) x)
  | 1 => need (f.b / 8 == 0) <| pick ScanOp.codes (f.m % 4) fun x => .ok (.pscan (Reg.ofCode f.d) (Reg.ofCode f.a) (.ofNat 8 (f.b)) (bit (f.m / 8)) (bit (f.m / 4)) x)
  | 2 => need (f.m == 0) <| .ok (.qapp (Reg.ofCode f.d) (Reg.ofCode f.a) (Reg.ofCode f.b))
  | 3 => need (f.b == 0 && f.m / 8 == 0 && f.m / 2 % 2 == 0) <| .ok (.cdet (Reg.ofCode f.d) (Reg.ofCode f.a) (bit (f.m / 4)) (bit f.m))
  | 4 => pick RedOp.codes (f.m % 8) fun x => .ok (.redx (Reg.ofCode f.d) (Reg.ofCode f.a) (Reg.ofCode f.b) (bit (f.m / 8)) x)
  | 5 => need (f.b / 8 == 0 && f.m / 8 == 0) <| pick SegOp.codes (f.m % 4) fun x => .ok (.segr (Reg.ofCode f.d) (Reg.ofCode f.a) (.ofNat 8 (f.b)) (bit (f.m / 4)) x)
  | 6 => need (f.b == 0 && f.m == 0) <| .ok (.rlt (Reg.ofCode f.d) (Reg.ofCode f.a))
  | 7 => need (f.m / 8 == 0) <| .ok (.rwalk (Reg.ofCode f.d) (Reg.ofCode f.a) (Reg.ofCode f.b) (.ofNat 8 (f.m)))
  | _ => .error .opcode

/-- The opcodes of row 0x48 of 03 R85. -/
def decodeRow48 (f : Fields) : Decoded :=
  match f.op % 8 with
  | 0 => pick Space.codes (f.m / 4) fun w => pick Size.codes (f.m % 4) fun z => .ok (.ld (Reg.ofCode f.d) (Reg.ofCode f.a) (Reg.ofCode f.b) w z)
  | 1 => pick Space.codes (f.m / 4) fun w => pick Size.codes (f.m % 4) fun z => .ok (.st (Reg.ofCode f.d) (Reg.ofCode f.a) (Reg.ofCode f.b) w z)
  | 2 => pick Space.codes (f.imm / 512) fun w => pick Size.codes (f.imm / 128 % 4) fun z => .ok (.ldi (Reg.ofCode f.d) (Reg.ofCode f.a) w z (.ofNat 7 (f.imm % 128)))
  | 3 => pick Space.codes (f.imm / 512) fun w => pick Size.codes (f.imm / 128 % 4) fun z => .ok (.sti (Reg.ofCode f.d) (Reg.ofCode f.a) w z (.ofNat 7 (f.imm % 128)))
  | 4 => pick Space.codes (f.m / 4) fun w => pick Size.codes (f.m % 4) fun z => .ok (.ldn (Reg.ofCode f.d) (Reg.ofCode f.a) (Reg.ofCode f.b) w z)
  | 5 => pick AtomOp.codes f.m fun x => .ok (.atomh (Reg.ofCode f.d) (Reg.ofCode f.a) (Reg.ofCode f.b) x)
  | 6 => pick AtomOp.codes f.m fun x => .ok (.atomp (Reg.ofCode f.d) (Reg.ofCode f.a) (Reg.ofCode f.b) x)
  | 7 => pick Space.codes (f.m / 4) fun w => pick Size.codes (f.m % 4) fun z => .ok (.acas (Reg.ofCode f.d) (Reg.ofCode f.a) (Reg.ofCode f.b) w z)
  | _ => .error .opcode

/-- The opcodes of row 0x50 of 03 R85. -/
def decodeRow50 (f : Fields) : Decoded :=
  match f.op % 8 with
  | 0 => need (f.d == 0 && f.a == 0 && f.imm / 32 == 0) <| pick FenceKind.codes (f.imm / 8 % 4) fun x => pick Scope.codes (f.imm % 8) fun y => .ok (.fence x y)
  | 1 => need (f.d == 0 && f.a == 0 && f.b / 16 == 0 && f.m == 0) <| .ok (.bar (.ofNat 16 (f.b)))
  | 2 => need (f.d == 0 && f.b / 16 == 0 && f.m / 2 == 0) <| .ok (.bari (Reg.ofCode f.a) (.ofNat 16 (f.b)) (bit f.m))
  | 3 => need (f.a == 0 && f.b / 16 == 0 && f.m == 0) <| .ok (.bara (Reg.ofCode f.d) (.ofNat 16 (f.b)))
  | 4 => need (f.d == 0 && f.b / 16 == 0 && f.m == 0) <| .ok (.barw (Reg.ofCode f.a) (.ofNat 16 (f.b)))
  | 5 => need (f.m % 4 == 0) <| pick Space.codes (f.m / 4) fun w => .ok (.ldt (Reg.ofCode f.d) (Reg.ofCode f.a) (Reg.ofCode f.b) w)
  | 6 => need (f.m % 4 == 0) <| pick Space.codes (f.m / 4) fun w => .ok (.stt (Reg.ofCode f.d) (Reg.ofCode f.a) (Reg.ofCode f.b) w)
  | _ => .error .opcode

/-- The opcodes of row 0x58 of 03 R85. -/
def decodeRow58 (f : Fields) : Decoded :=
  match f.op % 8 with
  | 0 => need (f.d / 16 == 0 && f.m % 4 == 0) <| pick Space.codes (f.m / 4) fun w => .ok (.layd (.ofNat 16 (f.d)) (Reg.ofCode f.a) (Reg.ofCode f.b) w)
  | 1 => need (f.d / 8 == 0 && f.b == 0 && f.m / 4 == 0) <| .ok (.cpy (.ofNat 8 (f.d)) (Reg.ofCode f.a) (bit (f.m / 2)) (bit f.m))
  | 2 => need (f.a == 0 && f.b == 0 && f.m == 0) <| .ok (.close (Reg.ofCode f.d))
  | 3 => need (f.d == 0 && f.b == 0 && f.m == 0) <| .ok (.waitb (Reg.ofCode f.a))
  | 4 => need (f.d / 8 == 0 && f.b == 0 && f.m % 2 == 0 && f.m / 4 == 0) <| .ok (.rrot (.ofNat 8 (f.d)) (Reg.ofCode f.a) (bit (f.m / 2)))
  | 5 => need (f.d / 8 == 0 && f.b == 0 && f.m % 2 == 0 && f.m / 4 == 0) <| .ok (.cpyp (.ofNat 8 (f.d)) (Reg.ofCode f.a) (bit (f.m / 2)))
  | 6 => need (f.d / 16 == 0 && f.b == 0 && f.m == 0) <| .ok (.enq (.ofNat 16 (f.d)) (Reg.ofCode f.a))
  | 7 => need (f.a / 16 == 0 && f.b == 0 && f.m == 0) <| .ok (.waith (Reg.ofCode f.d) (.ofNat 16 (f.a)))
  | _ => .error .opcode

/-- The opcodes of row 0x60 of 03 R85. -/
def decodeRow60 (f : Fields) : Decoded :=
  match f.op % 8 with
  | 0 => need (f.d / 8 == 0 && f.a / 16 == 0 && f.b == 0 && f.m == 0) <| .ok (.tsth (.ofNat 8 (f.d)) (.ofNat 16 (f.a)))
  | 1 => need (f.d == 0 && f.a / 16 == 0 && f.b == 0 && f.m == 0) <| .ok (.canh (.ofNat 16 (f.a)))
  | 2 => need (f.d / 16 == 0 && f.m == 0) <| .ok (.hsto (.ofNat 16 (f.d)) (Reg.ofCode f.a) (Reg.ofCode f.b))
  | 3 => need (f.d / 16 == 0 && f.m == 0) <| .ok (.hlod (.ofNat 16 (f.d)) (Reg.ofCode f.a) (Reg.ofCode f.b))
  | 4 => need (f.d / 16 == 0 && f.m == 0) <| .ok (.bina (.ofNat 16 (f.d)) (Reg.ofCode f.a) (Reg.ofCode f.b))
  | 5 => need (f.m / 4 == 0) <| pick CrcSz.codes (f.m % 4) fun x => .ok (.crc (Reg.ofCode f.d) (Reg.ofCode f.a) (Reg.ofCode f.b) x)
  | 6 => pick KeyKind.codes (f.m % 4) fun x => .ok (.bhist (Reg.ofCode f.d) (Reg.ofCode f.a) (Reg.ofCode f.b) (.ofNat 4 (f.m / 4)) x)
  | 7 => need (f.d / 8 == 0 && f.m / 8 == 0) <| pick KeyKind.codes (f.m % 4) fun x => .ok (.bsel (.ofNat 8 (f.d)) (Reg.ofCode f.a) (Reg.ofCode f.b) (bit (f.m / 4)) x)
  | _ => .error .opcode

/-- The opcodes of row 0x68 of 03 R85. -/
def decodeRow68 (f : Fields) : Decoded :=
  match f.op % 8 with
  | 0 => need (f.b == 0 && f.m == 0) <| .ok (.oclm (Reg.ofCode f.d) (Reg.ofCode f.a))
  | 1 => need (f.d == 0 && f.b == 0 && f.m == 0) <| .ok (.orel (Reg.ofCode f.a))
  | 2 => match f.m with
    | 0 => need (f.b == 0) <| .ok (.aclm (Reg.ofCode f.d) (Reg.ofCode f.a))
    | 1 => need (f.d == 0) <| .ok (.aclmGrant (Reg.ofCode f.a) (Reg.ofCode f.b))
    | _ => .error .reservedCode
  | 3 => need (f.d == 0 && f.b == 0) <| match f.m with
    | 0 => .ok (.arel (Reg.ofCode f.a))
    | 1 => .ok (.arelRevoke (Reg.ofCode f.a))
    | _ => .error .reservedCode
  | 4 => match f.m / 2 with
    | 0 => .ok (.mma (Reg.ofCode f.d) (Reg.ofCode f.a) (Reg.ofCode f.b) false (bit f.m))
    | 1 => .ok (.mma (Reg.ofCode f.d) (Reg.ofCode f.a) (Reg.ofCode f.b) true (bit f.m))
    | 2 => .ok (.mmaa (Reg.ofCode f.d) (Reg.ofCode f.a) (Reg.ofCode f.b) (bit f.m))
    | _ => .error .reservedCode
  | 5 => need (f.m / 4 == 0) <| .ok (.mmsp (Reg.ofCode f.d) (Reg.ofCode f.a) (Reg.ofCode f.b) (bit (f.m / 2)) (bit f.m))
  | 6 => need (f.b == 0) <| match f.m with
    | 0 => .ok (.publ (Reg.ofCode f.d) (Reg.ofCode f.a))
    | 1 => need (f.d == 0) <| .ok (.publSeal (Reg.ofCode f.a))
    | _ => .error .reservedCode
  | 7 => need (f.d == 0 && f.b == 0 && f.m == 0) <| .ok (.setl (Reg.ofCode f.a))
  | _ => .error .opcode

/-- The opcodes of row 0x70 of 03 R85. -/
def decodeRow70 (f : Fields) : Decoded :=
  match f.op % 8 with
  | 0 => need (f.m / 8 == 0) <| pick AlinOp.codes (f.m % 8) fun x => .ok (.alin (Reg.ofCode f.d) (Reg.ofCode f.a) (Reg.ofCode f.b) x)
  | 1 => need (f.m == 0) <| .ok (.adrn (Reg.ofCode f.d) (Reg.ofCode f.a) (Reg.ofCode f.b))
  | 2 => need (f.d == 0 && f.m == 0) <| .ok (.afil (Reg.ofCode f.a) (Reg.ofCode f.b))
  | 3 => need (f.m == 0) <| .ok (.old (Reg.ofCode f.d) (Reg.ofCode f.a) (Reg.ofCode f.b))
  | 4 => need (f.d == 0 && f.m == 0) <| .ok (.sltg (Reg.ofCode f.a) (Reg.ofCode f.b))
  | 5 => need (f.m % 4 == 0) <| pick Space.codes (f.m / 4) fun w => .ok (.ast (Reg.ofCode f.d) (Reg.ofCode f.a) (Reg.ofCode f.b) w)
  | 6 => pick OstFmt.codes (f.m % 8) fun x => .ok (.ost (Reg.ofCode f.d) (Reg.ofCode f.a) (Reg.ofCode f.b) (bit (f.m / 8)) x)
  | _ => .error .opcode

/-- The opcodes of row 0x78 of 03 R85. -/
def decodeRow78 (f : Fields) : Decoded :=
  match f.op % 8 with
  | 0 => .ok (.perf (Reg.ofCode f.d) (Reg.ofCode f.a) (Reg.ofCode f.b) (bit (f.m / 8)) (.ofNat 8 (f.m % 8)))
  | 1 => need (f.m == 0) <| .ok (.hpsh (Reg.ofCode f.d) (Reg.ofCode f.a) (Reg.ofCode f.b))
  | 2 => need (f.d == 0 && f.a == 0 && f.b == 0 && f.m == 0) <| .ok (.hpop)
  | 3 => need (f.d == 0 && f.a / 4 == 0 && f.m / 4 == 0) <| pick RsumAct.codes (f.m % 4) fun x => .ok (.rsum (.ofNat 4 (f.a)) (Reg.ofCode f.b) x)
  | 4 => need (f.a / 4 == 0 && f.b == 0) <| match f.m with
    | 0 => need (f.d == 0) <| .ok (.tokd (.ofNat 4 (f.a)))
    | 1 => need (f.d == 0) <| .ok (.tokdAbort (.ofNat 4 (f.a)))
    | 2 => need (f.d / 4 == 0) <| .ok (.tokdMov (.ofNat 4 (f.d)) (.ofNat 4 (f.a)))
    | _ => .error .reservedCode
  | 5 => match f.m with
    | 0 => need (f.a == 0) <| .ok (.sysRdsr (Reg.ofCode f.d) (.ofNat 7 f.b))
    | 1 => need (f.d == 0) <| .ok (.sysWrsr (Reg.ofCode f.a) (.ofNat 7 f.b))
    | 2 => need (f.d == 0 && f.b == 0) <| .ok (.sysStamp (Reg.ofCode f.a))
    | 3 => need (f.d == 0 && f.b == 0) <| .ok (.sysProf (Reg.ofCode f.a))
    | 4 => need (f.a == 0 && f.b == 0) <| .ok (.sysTime (Reg.ofCode f.d))
    | 5 => need (f.b == 0) <| .ok (.sysFlags (Reg.ofCode f.d) (Reg.ofCode f.a) false)
    | 13 => need (f.b == 0) <| .ok (.sysFlags (Reg.ofCode f.d) (Reg.ofCode f.a) true)
    | _ => .error .reservedCode
  | _ => .error .opcode

/-- The instruction that the fields of a Derrov word give (03 R85). -/
def decodeFields (f : Fields) : Decoded :=
  match f.op / 8 with
  | 0 => decodeRow00 f
  | 1 => decodeRow08 f
  | 2 => decodeRow10 f
  | 3 => decodeRow18 f
  | 4 => decodeRow20 f
  | 5 => decodeRow28 f
  | 6 => decodeRow30 f
  | 7 => decodeRow38 f
  | 8 => decodeRow40 f
  | 9 => decodeRow48 f
  | 10 => decodeRow50 f
  | 11 => decodeRow58 f
  | 12 => decodeRow60 f
  | 13 => decodeRow68 f
  | 14 => decodeRow70 f
  | 15 => decodeRow78 f
  | _ => .error .opcode

/-- The instruction of a Derrov word. -/
def decodeWord (w : Nat) : Decoded := decodeFields (fieldsOf w)

/-- The fields of a walker word: OP, D, A, B, IMM14 from the top (12 R300). -/
structure WFields where
  op  : Nat
  d   : Nat
  a   : Nat
  b   : Nat
  imm : Nat
deriving DecidableEq, Repr

/-- The fields of a walker word. -/
def wFieldsOf (w : Nat) : WFields := ⟨w / 2 ^ 26, w / 2 ^ 22 % 16, w / 2 ^ 18 % 16, w / 2 ^ 14 % 16, w % 2 ^ 14⟩

/-- The walker word of the fields. -/
def WFields.word (f : WFields) : Nat := f.op * 2 ^ 26 + f.d * 2 ^ 22 + f.a * 2 ^ 18 + f.b * 2 ^ 14 + f.imm

/-- The fields a walker instruction is encoded in (12 R301); none for other instructions. -/
def Instr.wFields : Instr → Option WFields
  | .whalt => some ⟨0, 0, 0, 0, 0⟩
  | .wli d n => some ⟨1, d.val, 0, 0, n.toNat⟩
  | .wadd d a b n => some ⟨2, d.val, a.val, b.val, n.toNat⟩
  | .wsub d a b => some ⟨3, d.val, a.val, b.val, 0⟩
  | .wmul d a b => some ⟨4, d.val, a.val, b.val, 0⟩
  | .wshl d a n => some ⟨5, d.val, a.val, 0, n.val⟩
  | .wshr d a n => some ⟨6, d.val, a.val, 0, n.val⟩
  | .wand d a b => some ⟨7, d.val, a.val, b.val, 0⟩
  | .wldw d a w n => some ⟨8, d.val, a.val, w.val, n.toNat⟩
  | .wldh d a w n => some ⟨9, d.val, a.val, w.val, n.toNat⟩
  | .wldb d a w n => some ⟨10, d.val, a.val, w.val, n.toNat⟩
  | .wbeq a b n => some ⟨11, 0, a.val, b.val, n.toNat⟩
  | .wbne a b n => some ⟨12, 0, a.val, b.val, n.toNat⟩
  | .wblo a b n => some ⟨13, 0, a.val, b.val, n.toNat⟩
  | .wbhs a b n => some ⟨14, 0, a.val, b.val, n.toNat⟩
  | .wjmp n => some ⟨15, 0, 0, 0, n.toNat⟩
  | .wtgt a b => some ⟨16, 0, a.val, b.val, 0⟩
  | .wzero => some ⟨17, 0, 0, 0, 0⟩
  | .wemit a b => some ⟨18, 0, a.val, b.val, 0⟩
  | .wrun d a b w => some ⟨19, d.val, a.val, b.val, w.val⟩
  | .warv n => some ⟨20, 0, 0, 0, n.val⟩
  | .wfault n => some ⟨21, 0, 0, 0, n.toNat⟩
  | _ => none

/-- Walker opcodes 0 to 7 (12 R301). -/
def decodeWRow0 (f : WFields) : Decoded :=
  match f.op with
  | 0 => need (f.d == 0 && f.a == 0 && f.b == 0 && f.imm == 0) <| .ok .whalt
  | 1 => need (f.a == 0 && f.b == 0) <| .ok (.wli (.ofNat 16 f.d) (.ofNat 14 f.imm))
  | 2 => .ok (.wadd (.ofNat 16 f.d) (.ofNat 16 f.a) (.ofNat 16 f.b) (.ofNat 14 f.imm))
  | 3 => need (f.imm == 0) <| .ok (.wsub (.ofNat 16 f.d) (.ofNat 16 f.a) (.ofNat 16 f.b))
  | 4 => need (f.imm == 0) <| .ok (.wmul (.ofNat 16 f.d) (.ofNat 16 f.a) (.ofNat 16 f.b))
  | 5 => need (f.b == 0 && f.imm / 32 == 0) <| .ok (.wshl (.ofNat 16 f.d) (.ofNat 16 f.a) (.ofNat 32 f.imm))
  | 6 => need (f.b == 0 && f.imm / 32 == 0) <| .ok (.wshr (.ofNat 16 f.d) (.ofNat 16 f.a) (.ofNat 32 f.imm))
  | 7 => need (f.imm == 0) <| .ok (.wand (.ofNat 16 f.d) (.ofNat 16 f.a) (.ofNat 16 f.b))
  | _ => .error .opcode

/-- Walker opcodes 8 to 15 (12 R301). -/
def decodeWRow1 (f : WFields) : Decoded :=
  match f.op % 8 with
  | 0 => .ok (.wldw (.ofNat 16 f.d) (.ofNat 16 f.a) (.ofNat 16 f.b) (.ofNat 14 f.imm))
  | 1 => .ok (.wldh (.ofNat 16 f.d) (.ofNat 16 f.a) (.ofNat 16 f.b) (.ofNat 14 f.imm))
  | 2 => .ok (.wldb (.ofNat 16 f.d) (.ofNat 16 f.a) (.ofNat 16 f.b) (.ofNat 14 f.imm))
  | 3 => need (f.d == 0) <| .ok (.wbeq (.ofNat 16 f.a) (.ofNat 16 f.b) (.ofNat 14 f.imm))
  | 4 => need (f.d == 0) <| .ok (.wbne (.ofNat 16 f.a) (.ofNat 16 f.b) (.ofNat 14 f.imm))
  | 5 => need (f.d == 0) <| .ok (.wblo (.ofNat 16 f.a) (.ofNat 16 f.b) (.ofNat 14 f.imm))
  | 6 => need (f.d == 0) <| .ok (.wbhs (.ofNat 16 f.a) (.ofNat 16 f.b) (.ofNat 14 f.imm))
  | 7 => need (f.d == 0 && f.a == 0 && f.b == 0) <| .ok (.wjmp (.ofNat 14 f.imm))
  | _ => .error .opcode

/-- Walker opcodes 16 to 21 (12 R301). -/
def decodeWRow2 (f : WFields) : Decoded :=
  match f.op % 8 with
  | 0 => need (f.d == 0 && f.imm == 0) <| .ok (.wtgt (.ofNat 16 f.a) (.ofNat 16 f.b))
  | 1 => need (f.d == 0 && f.a == 0 && f.b == 0 && f.imm == 0) <| .ok .wzero
  | 2 => need (f.d == 0 && f.imm == 0) <| .ok (.wemit (.ofNat 16 f.a) (.ofNat 16 f.b))
  | 3 => need (f.imm / 16 == 0) <| .ok (.wrun (.ofNat 16 f.d) (.ofNat 16 f.a) (.ofNat 16 f.b) (.ofNat 16 f.imm))
  | 4 => need (f.d == 0 && f.a == 0 && f.b == 0 && f.imm / 16 == 0) <| .ok (.warv (.ofNat 16 f.imm))
  | 5 => need (f.d == 0 && f.a == 0 && f.b == 0) <| .ok (.wfault (.ofNat 14 f.imm))
  | _ => .error .opcode

/-- The instruction that the fields of a walker word give (12 R301). -/
def decodeWFields (f : WFields) : Decoded :=
  match f.op / 8 with
  | 0 => decodeWRow0 f
  | 1 => decodeWRow1 f
  | 2 => decodeWRow2 f
  | _ => .error .opcode

/-- The instruction of a walker word. -/
def decodeWalker (w : Nat) : Decoded := decodeWFields (wFieldsOf w)

/-- The value of four little-endian bytes (00 R9). -/
def le4 (b0 b1 b2 b3 : Byte) : Nat := b0.toNat + b1.toNat * 2 ^ 8 + b2.toNat * 2 ^ 16 + b3.toNat * 2 ^ 24

/-- Decode one Derrov word from the front of a byte list, and give the rest of the list. -/
def decodeBytes : List Byte → Except DecodeError (Instr × List Byte)
  | b0 :: b1 :: b2 :: b3 :: rest =>
    match decodeWord (le4 b0 b1 b2 b3) with
    | .ok i => .ok (i, rest)
    | .error e => .error e
  | _ => .error .short

/-- Decode one walker word from the front of a byte list. -/
def decodeWalkerBytes : List Byte → Except DecodeError (Instr × List Byte)
  | b0 :: b1 :: b2 :: b3 :: rest =>
    match decodeWalker (le4 b0 b1 b2 b3) with
    | .ok i => .ok (i, rest)
    | .error e => .error e
  | _ => .error .short

/-- The word an instruction is encoded in; none for the steps, which have no word. -/
def encode (i : Instr) : Option Nat :=
  match i.fields with
  | some f => some f.word
  | none =>
    match i.wFields with
    | some f => some f.word
    | none => none

/-- The instruction read from a word of spec/opcode_table.json. A pattern that is no Derrov word is read by the walker's
decoder: the two word sets share patterns, and the section that holds a word decides who reads it (12 R300). -/
def decodeTableWord (nbits w : Nat) : Option Instr :=
  if nbits = 32 then
    match decodeWord (w % 2 ^ 32) with
    | .ok i => some i
    | .error _ =>
      match decodeWalker (w % 2 ^ 32) with
      | .ok i => some i
      | .error _ => none
  else none

end Sys2Proof
end

