-- ==== Sys2Proof/Machine/Fp.lean ====
section
/-! DEFINITION. Number formats and exact arithmetic (04 R92 to R98, R103 to R116): formats, exact values, rounding,
NaN causes, sticky conditions and conversions. -/

namespace Sys2Proof.Machine

open Sys2Proof

/-- Sticky conditions: FFLAGS[6:0] (01 R22). -/
abbrev Fl := BitVec 7

namespace Fl
/-- Invalid. -/
def inv : Fl := 1#7
/-- Division by zero. -/
def dz : Fl := 2#7
/-- Overflow. -/
def of : Fl := 4#7
/-- Underflow. -/
def uf : Fl := 8#7
/-- Inexact. -/
def nx : Fl := 16#7
/-- A recognised format was widened. -/
def subst : Fl := 32#7
/-- A register was read after its last use. -/
def poison : Fl := 64#7
/-- The flag when the condition holds. -/
def when (c : Bool) (f : Fl) : Fl := if c then f else 0#7
end Fl

/-- The five floating-point formats (04 R92). -/
inductive Flt where | f32 | bf16 | f16 | f8e4 | f8e5
deriving DecidableEq, Repr

namespace Flt
/-- Exponent bits. -/
def eb : Flt → Nat | f32 => 8 | bf16 => 8 | f16 => 5 | f8e4 => 4 | f8e5 => 5
/-- Fraction bits. -/
def fb : Flt → Nat | f32 => 23 | bf16 => 7 | f16 => 10 | f8e4 => 3 | f8e5 => 2
/-- Bias. -/
def bias : Flt → Int | f32 => 127 | bf16 => 127 | f16 => 15 | f8e4 => 7 | f8e5 => 15
/-- The all-ones exponent field. -/
def emax (f : Flt) : Nat := 2 ^ f.eb - 1
/-- The pattern of +∞. -/
def infBits (f : Flt) : Nat := f.emax * 2 ^ f.fb
/-- The sign bit's weight. -/
def signBit (f : Flt) : Nat := 2 ^ (f.eb + f.fb)
/-- The width in bits. -/
def width (f : Flt) : Nat := 1 + f.eb + f.fb
/-- The exponent of the smallest subnormal. -/
def emin (f : Flt) : Int := 1 - f.bias - f.fb
end Flt

/-- NaN causes in the order of 04 R108. -/
inductive Cause where | scale | element | zeroInf | infInf | other
deriving DecidableEq, Repr

/-- The generated NaNs (04 R107). -/
def Flt.nan : Flt → Cause → Nat
  | .f32, .other => 0x7FC00000
  | .f32, .element => 0x7FC00010
  | .f32, .scale => 0x7FC00020
  | .f32, .infInf => 0x7FC00030
  | .f32, .zeroInf => 0x7FC00040
  | .bf16, .other => 0x7FC0
  | .bf16, .element => 0x7FC1
  | .bf16, .scale => 0x7FC2
  | .bf16, .infInf => 0x7FC3
  | .bf16, .zeroInf => 0x7FC4
  | .f16, .other => 0x7E00
  | .f16, .element => 0x7E10
  | .f16, .scale => 0x7E20
  | .f16, .infInf => 0x7E30
  | .f16, .zeroInf => 0x7E40
  | .f8e4, _ => 0x7C
  | .f8e5, _ => 0x7E

/-- An element's value: a NaN with its cause under conversion (04 R115), an infinity, or the exact number
(−1)^neg × mant × 2^exp. -/
inductive Val where
  | nan (sig : Bool) (c : Cause)
  | inf (neg : Bool)
  | fin (neg : Bool) (mant : Nat) (exp : Int)
deriving DecidableEq, Repr

/-- The cause a NaN pattern keeps in a conversion: the generated pattern of FP32, BF16 or FP16 with either sign (04 R115). -/
def Flt.causeOf (f : Flt) (bits : Nat) : Cause :=
  let p := bits % f.signBit
  match f with
  | .f8e4 => .element
  | .f8e5 => .element
  | _ =>
    if p = f.nan .other then .other
    else if p = f.nan .scale then .scale
    else if p = f.nan .infInf then .infInf
    else if p = f.nan .zeroInf then .zeroInf
    else .element

/-- The value of a bit pattern of a floating-point format (04 R92). -/
def Flt.decode (f : Flt) (bits : Nat) : Val :=
  let neg := bits / f.signBit % 2 == 1
  let e := bits / 2 ^ f.fb % 2 ^ f.eb
  let fr := bits % 2 ^ f.fb
  if e = f.emax then
    if fr = 0 then .inf neg
    else .nan (fr / 2 ^ (f.fb - 1) == 0) (f.causeOf bits)
  else if e = 0 then .fin neg fr f.emin
  else .fin neg (2 ^ f.fb + fr) (f.emin + (e : Int) - 1)

/-- The NaN test. -/
def Val.isNan : Val → Bool
  | .nan _ _ => true
  | _ => false
/-- A signalling NaN. -/
def Val.isSig : Val → Bool
  | .nan s _ => s
  | _ => false
/-- A zero of either sign. -/
def Val.isZero : Val → Bool
  | .fin _ m _ => m == 0
  | _ => false
/-- The sign bit. -/
def Val.neg : Val → Bool
  | .nan _ _ => false
  | .inf n => n
  | .fin n _ _ => n
/-- The value with its sign inverted. -/
def Val.negate : Val → Val
  | .nan s c => .nan s c
  | .inf n => .inf (!n)
  | .fin n m e => .fin (!n) m e
/-- The value times 2^k, exact. -/
def Val.scale (v : Val) (k : Int) : Val :=
  match v with
  | .fin n m e => .fin n m (e + k)
  | _ => v

/-- What rounding a magnitude gives: the quotient in units of the last place, and whether anything was lost. -/
structure Rnd where
  n       : Nat
  inexact : Bool
deriving DecidableEq, Repr

/-- Whether the magnitude is rounded up (04 R104): by mode and sign, from the last kept bit, the comparison of the lost part
with one half, and whether anything is lost. -/
def roundUp (rm : Rm) (neg odd : Bool) (half : Ordering) (lost : Bool) : Bool :=
  match rm with
  | .rne => half == .gt || (half == .eq && odd)
  | .rtz => false
  | .rdn => neg && lost
  | .rup => !neg && lost

/-- Round the magnitude m × 2^e (and a little more when `sticky`) to a multiple of 2^q. -/
def roundAt (rm : Rm) (neg : Bool) (m : Nat) (e q : Int) (sticky : Bool) : Rnd :=
  if q ≤ e then ⟨m * 2 ^ (e - q).toNat, sticky⟩
  else
    let k := (q - e).toNat
    let n := m / 2 ^ k
    let r := m % 2 ^ k
    let half := if r * 2 < 2 ^ k then .lt else if r * 2 == 2 ^ k then (if sticky then .gt else .eq) else .gt
    let lost := r != 0 || sticky
    ⟨n + (roundUp rm neg (n % 2 == 1) half lost).toNat, lost⟩

/-- The bits of an overflowing result (04 R104). -/
def Flt.overflowBits (f : Flt) (rm : Rm) (neg sat : Bool) : Nat :=
  let big := match rm with
    | .rne => false
    | .rtz => true
    | .rdn => !neg
    | .rup => neg
  if sat || big then f.infBits - 1 else f.infBits

/-- Deliver the magnitude m × 2^e with a sign in a format (04 R104, R105, R111). -/
def Flt.round (f : Flt) (rm : Rm) (sat neg : Bool) (m : Nat) (e : Int) (sticky : Bool) : Nat × Fl :=
  let s := if neg then f.signBit else 0
  if m = 0 && !sticky then (s, 0#7)
  else
    let top : Int := e + (Nat.log2 m : Int)
    let q := max (top - f.fb) f.emin
    let r := roundAt rm neg m e q sticky
    let bits := r.n + (q - f.emin).toNat * 2 ^ f.fb
    if f.infBits ≤ bits then (s + f.overflowBits rm neg sat, Fl.of ||| Fl.nx)
    else
      let tiny := top < 1 - f.bias
      (s + bits, Fl.when r.inexact Fl.nx ||| Fl.when (tiny && r.inexact) Fl.uf)

/-- Deliver an exact value in a format; NaNs give the generated pattern of their cause (04 R107, R115). -/
def Flt.deliver (f : Flt) (rm : Rm) (sat : Bool) : Val → Nat × Fl
  | .nan _ c => (f.nan c, 0#7)
  | .inf neg => ((if neg then f.signBit else 0) + f.infBits, 0#7)
  | .fin neg m e => f.round rm sat neg m e false

/-- One term of an exact sum: what a product or an addend contributes (04 R106 to R109). `inv` marks a condition of R109
that took place whatever NaN is delivered. -/
inductive Term where
  | nan (c : Cause) (inv : Bool)
  | inf (neg : Bool)
  | fin (neg : Bool) (mant : Nat) (exp : Int)
deriving DecidableEq, Repr

/-- A NaN operand enters arithmetic as the NaN element, whatever its pattern (04 R107); a signalling one is a condition of
R109. -/
def Val.asTerm : Val → Term
  | .nan s _ => .nan .element s
  | .inf n => .inf n
  | .fin n m e => .fin n m e

/-- The more prominent of two causes (04 R108). -/
def Cause.first (a b : Cause) : Cause :=
  if a == .scale || b == .scale then .scale
  else if a == .element || b == .element then .element
  else if a == .zeroInf || b == .zeroInf then .zeroInf
  else if a == .infInf || b == .infInf then .infInf
  else .other

/-- An element under the NaN scale enters arithmetic (04 R102, R107, R109). -/
def Term.badScale : Term := .nan .scale true

/-- The exact product of two terms (04 R106 to R109). -/
def Term.mul (a b : Term) : Term :=
  match a, b with
  | .nan c i, .nan c' i' => .nan (c.first c') (i || i')
  | .nan c i, _ => .nan c i
  | _, .nan c i => .nan c i
  | .inf n, .inf n' => .inf (n != n')
  | .inf n, .fin n' m _ => if m = 0 then .nan .zeroInf true else .inf (n != n')
  | .fin n m _, .inf n' => if m = 0 then .nan .zeroInf true else .inf (n != n')
  | .fin n m e, .fin n' m' e' => .fin (n != n') (m * m') (e + e')

/-- The exact product of two values. -/
def mulTerm (a b : Val) : Term := a.asTerm.mul b.asTerm

/-- A term's signed mantissa at exponent `q`, which is not above its own exponent. -/
def Term.at_ (q : Int) : Term → Int
  | .fin n m e =>
    let v : Int := (m * 2 ^ (e - q).toNat : Nat)
    if n then -v else v
  | _ => 0

/-- The least exponent of the finite terms. -/
def minExp (ts : List Term) : Int :=
  ts.foldl (fun acc t => match t with
    | .fin _ _ e => min acc e
    | _ => acc) 1024

/-- The exact sum of finite terms: signed mantissa and exponent. -/
def exactSum (ts : List Term) : Int × Int :=
  let q := minExp ts
  (ts.foldl (fun acc t => acc + t.at_ q) 0, q)

/-- Every term is a zero of the given sign. -/
def allZero (neg : Bool) (ts : List Term) : Bool :=
  ts.all fun t => match t with
    | .fin n m _ => m == 0 && n == neg
    | _ => false

/-- The NaN causes among the terms, the clash of infinities included (04 R107, R108). -/
def sumCause (ts : List Term) : Option Cause :=
  let clash := ts.any (· == .inf true) && ts.any (· == .inf false)
  ts.foldl (fun acc t => match t, acc with
    | .nan c _, none => some c
    | .nan c _, some d => some (d.first c)
    | _, _ => acc) (if clash then some .infInf else none)

/-- INV conditions among the terms (04 R109). -/
def sumInv (ts : List Term) : Bool :=
  (ts.any (· == .inf true) && ts.any (· == .inf false)) ||
  ts.any fun t => match t with
    | .nan _ i => i
    | _ => false

/-- The terms' sum, exact, as a value: NaN by R108, infinity, or the exact number; a zero sum by 04 R106. -/
def sumVal (rm : Rm) (ts : List Term) : Val :=
  match sumCause ts with
  | some c => .nan false c
  | none =>
    if ts.any (· == .inf true) then .inf true
    else if ts.any (· == .inf false) then .inf false
    else
      let s := exactSum ts
      if s.1 = 0 then .fin (allZero true ts || (rm == .rdn && !allZero false ts)) 0 0
      else .fin (decide (s.1 < 0)) s.1.natAbs s.2

/-- The sum rounded once to a format, with its conditions (04 R104 to R111). -/
def sumRound (f : Flt) (rm : Rm) (ts : List Term) : Nat × Fl :=
  let r := f.deliver rm false (sumVal rm ts)
  (r.1, r.2 ||| Fl.when (sumInv ts) Fl.inv)

/-- round(a + b) (07 R184, R189). -/
def fadd (f : Flt) (rm : Rm) (a b : Nat) : Nat × Fl :=
  sumRound f rm [(f.decode a).asTerm, (f.decode b).asTerm]

/-- round(a − b) (07 R184). -/
def fsub (f : Flt) (rm : Rm) (a b : Nat) : Nat × Fl :=
  sumRound f rm [(f.decode a).asTerm, (f.decode b).negate.asTerm]

/-- round(a × b) (07 R184, R189). -/
def fmul (f : Flt) (rm : Rm) (a b : Nat) : Nat × Fl :=
  sumRound f rm [mulTerm (f.decode a) (f.decode b)]

/-- round(a × b + d), or round(a × b − d) (07 R184, R189). -/
def ffma (f : Flt) (rm : Rm) (a b d : Nat) (nc : Bool) : Nat × Fl :=
  let dv := f.decode d
  sumRound f rm [mulTerm (f.decode a) (f.decode b), (if nc then dv.negate else dv).asTerm]

/-- The element formats of block tags and conversions (04 R92 to R97, R103). -/
inductive Elem where
  | f32 | bf16 | f16 | f8e4 | f8e5 | p2t8 | p1t4 | s32 | s8 | s4 | f6e3 | f4e2 | p3t12
deriving DecidableEq, Repr

namespace Elem

/-- The floating-point format of an element format. -/
def flt : Elem → Option Flt
  | f32 => some .f32
  | bf16 => some .bf16
  | f16 => some .f16
  | f8e4 => some .f8e4
  | f8e5 => some .f8e5
  | _ => none

/-- Bits an element takes (04 R98, R103). -/
def width : Elem → Nat
  | f32 => 32 | bf16 => 16 | f16 => 16 | f8e4 => 8 | f8e5 => 8 | p2t8 => 8 | p1t4 => 4
  | s32 => 32 | s8 => 8 | s4 => 4 | f6e3 => 6 | f4e2 => 4 | p3t12 => 12

/-- A signed term ±2^−shift in units of 2^−6; shift code 7 is absent (04 R94, R95). -/
def powTerm (n : Nat) : Int :=
  let k := n % 8
  if k = 7 then 0
  else
    let v : Int := (2 ^ (6 - k) : Nat)
    if n / 8 % 2 = 1 then -v else v

/-- A signed integer in units of 2^exp as a value; zero is +0. -/
def ofInt (i : Int) (exp : Int) : Val := .fin (decide (i < 0)) i.natAbs exp

/-- A two's-complement reading of the low `w` bits. -/
def signed (w n : Nat) : Int := if n % 2 ^ w < 2 ^ (w - 1) then (n % 2 ^ w : Nat) else (n % 2 ^ w : Nat) - (2 ^ w : Nat)

/-- A small format whose largest exponent is normal (04 R103). -/
def tinyFloat (eb fb : Nat) (bias : Int) (bits : Nat) : Val :=
  let neg := bits / 2 ^ (eb + fb) % 2 == 1
  let e := bits / 2 ^ fb % 2 ^ eb
  let fr := bits % 2 ^ fb
  if e = 0 then .fin neg fr (1 - bias - fb) else .fin neg (2 ^ fb + fr) ((e : Int) - bias - fb)

/-- The exact value of an element's bits (04 R92 to R97, R103). -/
def decode (el : Elem) (bits : Nat) : Val :=
  match el with
  | f32 => Flt.f32.decode bits
  | bf16 => Flt.bf16.decode bits
  | f16 => Flt.f16.decode bits
  | f8e4 => Flt.f8e4.decode bits
  | f8e5 => Flt.f8e5.decode bits
  | p2t8 => ofInt (powTerm (bits / 16) + powTerm bits) (-6)
  | p1t4 => ofInt (powTerm bits) (-6)
  | s32 => ofInt (signed 32 bits) 0
  | s8 => ofInt (signed 8 bits) 0
  | s4 => ofInt (signed 4 bits) 0
  | f6e3 => tinyFloat 3 2 3 bits
  | f4e2 => tinyFloat 2 1 1 bits
  | p3t12 => ofInt (powTerm (bits / 256) + powTerm (bits / 16) + powTerm bits) (-6)

/-- A recognised format, widened when decoded (04 R100, R103). -/
def recognised : Elem → Bool
  | f6e3 | f4e2 | p3t12 => true
  | _ => false

/-- The format a consumer decodes to (04 R100). -/
def widened : Elem → Elem
  | f6e3 => f8e4
  | f4e2 => f8e4
  | p3t12 => bf16
  | x => x

end Elem

/-- Format codes of block tags (04 R100); 0x00 is the consumer's own, 0x0D and above are illegal. -/
def tagElem (c : Nat) : Option Elem :=
  [none, some .f32, some .bf16, some .f16, some .f8e4, some .f8e5, some .p2t8, some .p1t4, some .s8, some .s4,
   some .f6e3, some .f4e2, some Elem.p3t12].getD c none

/-- The number of elements a block holds in a format (04 R100). -/
def blockCount : Elem → Nat
  | .f6e3 => 84
  | .p3t12 => 42
  | e => 512 / e.width

/-- The exact test `m × 2^e` against `k × 2^−6`: the comparison of |x| with k/64. -/
def cmp64 (m : Nat) (e : Int) (k : Nat) : Ordering :=
  let s := e + 6
  if 0 ≤ s then compare (m * 2 ^ s.toNat) k else compare m (k * 2 ^ (-s).toNat)

/-- The magnitudes, in units of 2^−6, that P2T8 holds (04 R94). -/
def p2t8Mags : List Nat :=
  (List.range 129).filter fun n =>
    (List.range 256).any fun b => Elem.powTerm (b / 16) + Elem.powTerm b == (n : Int)

/-- The magnitudes that P1T4 holds (04 R95). -/
def p1t4Mags : List Nat := [0, 1, 2, 4, 8, 16, 32, 64]

/-- Whether |x| = m × 2^e is nearer to `hi` than to `lo`, a tie going to `lo` (04 R116). -/
def nearerHi (m : Nat) (e : Int) (lo hi : Nat) : Bool :=
  let s := e + 7
  if 0 ≤ s then decide (lo + hi < m * 2 ^ s.toNat) else decide ((lo + hi) * 2 ^ (-s).toNat < m)

/-- The nearest of rising magnitudes to |x| = m × 2^e (04 R116). -/
def nearestMag (m : Nat) (e : Int) : List Nat → Nat
  | [] => 0
  | [k] => k
  | k :: k' :: ks => if nearerHi m e k k' then nearestMag m e (k' :: ks) else k

/-- The present terms of a P2T8 byte. -/
def p2t8Terms (b : Nat) : Nat := (if b / 16 % 8 = 7 then 0 else 1) + (if b % 8 = 7 then 0 else 1)

/-- The canonical P2T8 byte of a value in units of 2^−6 (04 R96). -/
def p2t8Canon (i : Int) : Nat :=
  if i = 0 then 0x77
  else
    let s := if i < 0 then 8 else 0
    match (List.range 7).find? fun k => decide (i.natAbs = 2 ^ (6 - k)) with
    | some k => (s + k) * 16 + 7
    | none =>
      let cands := (List.range 256).filter fun b =>
        p2t8Terms b == 2 && decide (Elem.powTerm (b / 16) + Elem.powTerm b = i)
      let same := cands.filter fun b => b / 128 == b / 8 % 2
      let pool := if same.isEmpty then cands else same
      pool.foldl (fun acc b => if b / 16 % 8 < acc / 16 % 8 then b else acc) (pool.headD 0x77)

/-- The P1T4 code of a value in units of 2^−6 (04 R95). -/
def p1t4Code (i : Int) : Nat :=
  match (List.range 7).find? fun k => decide (i.natAbs = 2 ^ (6 - k)) with
  | some k => (if i < 0 then 8 else 0) + k
  | none => 7

/-- Conversion to a weight format with bound `top` in units of 2^−6 (04 R116). -/
def toWeight (mags : List Nat) (top : Nat) (enc : Int → Nat) : Val → Nat × Fl
  | .nan _ _ => (enc 0, Fl.inv)
  | .inf n => (enc (if n then -(top : Int) else top), Fl.inv)
  | .fin n m e =>
    if cmp64 m e top == .gt then (enc (if n then -(top : Int) else top), Fl.of ||| Fl.nx)
    else
      let k := nearestMag m e mags
      let exact := cmp64 m e k == .eq
      (enc (if n then -(k : Int) else k), Fl.when (!exact) Fl.nx ||| Fl.when (!exact && k == 0) Fl.uf)

/-- Conversion to a two's-complement integer of `w` bits (04 R114). -/
def toInt (w : Nat) (rm : Rm) : Val → Nat × Fl
  | .nan _ _ => (0, Fl.inv)
  | .inf n => (if n then 2 ^ (w - 1) else 2 ^ (w - 1) - 1, Fl.inv)
  | .fin n m e =>
    let r := roundAt rm n m e 0 false
    if n then
      if 2 ^ (w - 1) < r.n then (2 ^ (w - 1), Fl.inv)
      else ((2 ^ w - r.n) % 2 ^ w, Fl.when r.inexact Fl.nx)
    else
      if 2 ^ (w - 1) - 1 < r.n then (2 ^ (w - 1) - 1, Fl.inv) else (r.n, Fl.when r.inexact Fl.nx)

/-- Every conversion of 04 R114: an exact value to the bits of a target format. INV for a signalling NaN source. -/
def convert (rm : Rm) (sat : Bool) (tgt : Elem) (v : Val) : Nat × Fl :=
  match tgt with
  | .s32 => toInt 32 rm v
  | .s8 => toInt 8 rm v
  | .s4 => toInt 4 rm v
  | .p2t8 => toWeight p2t8Mags 128 p2t8Canon v
  | .p1t4 => toWeight p1t4Mags 64 p1t4Code v
  | _ =>
    match tgt.flt with
    | some f =>
      let r := f.deliver rm sat v
      (r.1, r.2 ||| Fl.when v.isSig Fl.inv)
    | none => (0, 0#7)

/-- The ordering key of a floating-point pattern with −0 < +0, and NaNs apart (07 R185). -/
def orderKey (f : Flt) (bits : Nat) : Int :=
  let mag : Int := (bits % f.signBit : Nat)
  if bits / f.signBit % 2 = 1 then -mag - 1 else mag

/-- FMNX: the functions of 07 R185, with the INV of a signalling NaN operand. -/
def fmnx (f : Flt) (fn : MnxFn) (a b : Nat) : Nat × Fl :=
  let va := f.decode a
  let vb := f.decode b
  let fl := Fl.when (va.isSig || vb.isSig) Fl.inv
  let less := decide (orderKey f a ≤ orderKey f b)
  let lo := if less then a else b
  let hi := if less then b else a
  let r := match fn with
    | .min => if va.isNan || vb.isNan then f.nan .element else lo
    | .max => if va.isNan || vb.isNan then f.nan .element else hi
    | .minnum =>
      if va.isNan && vb.isNan then f.nan .element else if va.isNan then b else if vb.isNan then a else lo
    | .maxnum =>
      if va.isNan && vb.isNan then f.nan .element else if va.isNan then b else if vb.isNan then a else hi
  (r, fl)

/-- The comparison key with −0 = +0 (07 R186). -/
def valueKey (f : Flt) (bits : Nat) : Int :=
  let mag : Int := (bits % f.signBit : Nat)
  if bits / f.signBit % 2 = 1 then -mag else mag

/-- FSET: the condition and its INV (07 R186). -/
def fset (c : FCond) (a b : Nat) : Bool × Fl :=
  let va := Flt.f32.decode a
  let vb := Flt.f32.decode b
  let ka := valueKey .f32 a
  let kb := valueKey .f32 b
  let un := va.isNan || vb.isNan
  let quiet := Fl.when (va.isSig || vb.isSig) Fl.inv
  let loud := Fl.when un Fl.inv
  match c with
  | .eq => (!un && decide (ka = kb), quiet)
  | .ne => (un || decide (ka ≠ kb), quiet)
  | .lt => (!un && decide (ka < kb), loud)
  | .le => (!un && decide (ka ≤ kb), loud)
  | .gt => (!un && decide (kb < ka), loud)
  | .ge => (!un && decide (kb ≤ ka), loud)
  | .ord => (!un, quiet)
  | .uno => (un, quiet)

/-- The source element format of an FCVT code (07 R187). -/
def srcElem : CvtSrc → Elem
  | .f32 => .f32 | .bf16 => .bf16 | .f16 => .f16 | .f8e4 => .f8e4 | .f8e5 => .f8e5 | .p2t8 => .p2t8
  | .s32 => .s32 | .s8 => .s8

/-- The target element format of an FCVT code (07 R187). -/
def tgtElem : CvtTgt → Elem
  | .f32 => .f32 | .bf16 => .bf16 | .f16 => .f16 | .f8e4 => .f8e4 | .f8e5 => .f8e5 | .p2t8 => .p2t8
  | .s32 => .s32 | .s8 => .s8 | .p1t4 => .p1t4 | .s4 => .s4

/-- FCVT (07 R188): the low bits of a in the source format, converted with scale 0. -/
def fcvt (src : CvtSrc) (tgt : CvtTgt) (rm : Rm) (sat : Bool) (a : Word) : Word × Fl :=
  let el := srcElem src
  let r := convert rm sat (tgtElem tgt) (el.decode (a.toNat % 2 ^ el.width))
  (word r.1, r.2)

/-- The two packed halves of a word (04 R98). -/
def halves (w : Word) : Nat × Nat := (w.toNat % 2 ^ 16, w.toNat / 2 ^ 16)

/-- Two halves packed (04 R98). -/
def pack2 (lo hi : Nat) : Word := word (lo % 2 ^ 16 + hi % 2 ^ 16 * 2 ^ 16)

/-- The half format of the packed instructions (07 R189). -/
def halfFmt (bf : Bool) : Flt := if bf then .bf16 else .f16

/-- The exponent floor(log2 |a|) of EXPO.e (07 R193). -/
def expoE (a : Word) : Word × Fl :=
  match Flt.f32.decode a.toNat with
  | .nan s _ => (0x7FFFFFFF#32, Fl.when s Fl.inv)
  | .inf _ => (0x7FFFFFFF#32, 0#7)
  | .fin _ m e => if m = 0 then (0x80000000#32, 0#7) else (wordOfInt (e + (Nat.log2 m : Int)), 0#7)

/-- The significand in [1, 2) of EXPO.m (07 R193). -/
def expoM (a : Word) : Word × Fl :=
  match Flt.f32.decode a.toNat with
  | .nan s _ => (word (Flt.f32.nan .element), Fl.when s Fl.inv)
  | .inf _ => (a, 0#7)
  | .fin n m _ =>
    if m = 0 then (a, 0#7)
    else (word (Flt.f32.round .rne false n m (-(Nat.log2 m : Int)) false).1, 0#7)

/-- LDEXP (07 R194): a × 2^b, rounded only when tiny or overflowing. -/
def ldexp (rm : Rm) (a b : Word) : Word × Fl :=
  match Flt.f32.decode a.toNat with
  | .nan s _ => (word (Flt.f32.nan .element), Fl.when s Fl.inv)
  | .inf _ => (a, 0#7)
  | .fin n m e =>
    if m = 0 then (a, 0#7)
    else
      let r := Flt.f32.round rm false n m (e + b.toInt) false
      (word r.1, r.2)

/-- The ceiling of (−1)^n × m × 2^e. -/
def ceilVal (n : Bool) (m : Nat) (e : Int) : Int :=
  let r := roundAt .rup n m e 0 false
  if n then -(r.n : Int) else r.n

/-- The floor of (−1)^n × m × 2^e. -/
def floorVal (n : Bool) (m : Nat) (e : Int) : Int :=
  let r := roundAt .rdn n m e 0 false
  if n then -(r.n : Int) else r.n

/-- An integer clamped to the signed 32-bit range. -/
def clampS32 (i : Int) : Int := max (-(2 ^ 31 : Nat)) (min i ((2 ^ 31 : Nat) - 1))

/-- MAXE (07 R195): the running integer maximum. -/
def maxe (a b : Word) : Word × Fl :=
  match Flt.f32.decode a.toNat with
  | .nan s _ => (b, Fl.when s Fl.inv)
  | .inf true => (b, 0#7)
  | .inf false => (wordOfInt (max b.toInt (2 ^ 31 - 1)), 0#7)
  | .fin n m e => (wordOfInt (max b.toInt (clampS32 (ceilVal n m e))), 0#7)

/-- FROW.ssq: round(d + a0² + a1²) (07 R197). -/
def rowSsq (bf : Bool) (a d : Word) : Word × Fl :=
  let f := halfFmt bf
  let x := f.decode (halves a).1
  let y := f.decode (halves a).2
  let r := sumRound .f32 .rne [(Flt.f32.decode d.toNat).asTerm, mulTerm x x, mulTerm y y]
  (word r.1, r.2)

/-- FROW.sum: round(d + a0 + a1) (07 R197). -/
def rowSum (bf : Bool) (a d : Word) : Word × Fl :=
  let f := halfFmt bf
  let r := sumRound .f32 .rne
    [(Flt.f32.decode d.toNat).asTerm, (f.decode (halves a).1).asTerm, (f.decode (halves a).2).asTerm]
  (word r.1, r.2)

/-- FROW.ctr: (round(a0 − m), round(a1 − m)) in the half format, with m = b read as FP32 (07 R197). -/
def rowCtr (bf : Bool) (a b : Word) : Word × Fl :=
  let f := halfFmt bf
  let m := (Flt.f32.decode b.toNat).negate.asTerm
  let r0 := sumRound f .rne [(f.decode (halves a).1).asTerm, m]
  let r1 := sumRound f .rne [(f.decode (halves a).2).asTerm, m]
  (pack2 r0.1 r1.1, r0.2 ||| r1.2)

end Sys2Proof.Machine
end

