-- ==== Sys2Proof/Config.lean ====
section
/-! DEFINITION. What one implementation fixes, and the free values: what the specification leaves open is a constant
here without a body, so that no proof can lean on a value of it (notes/assumptions). -/

namespace Sys2Proof

/-- The bits FSFU delivers for a function and an operand whose result 07 R191 gives by a bound only; they count where they
lie within the bound (notes/assumptions/5.md). -/
opaque Config.sfu : SfuFn → Word → Word

/-- The core E of ex2 and SEXP (07 R191, R196) at f = n × 2^-149; it counts where it lies within 1 ULP of 2^f
(notes/assumptions/5.md). -/
opaque Config.exp2 : Nat → Word

/-- Whether a reader that did not wait for a flag gets the new element (01 R21): by the issue number of the long-latency
instruction, the physical register and the element, and the reader's own tick (notes/assumptions/4.md). -/
opaque Config.landedEarly : Nat → Nat → Nat → Nat → Bool

/-- The thread whose result a shared element of a singular map keeps, where threads of it have different results
(notes/assumptions/6.md). -/
opaque Config.sharedPick : Nat → Nat → Nat

/-- Whether an LDN takes a value from the line the invariant cache holds, by the address of the value (08 R209; 15 R318;
notes/assumptions/7.md). -/
opaque Config.ldnHit : Nat → Nat → Bool

/-- Which of the values that a location has held an LDN returns, by the address of the value; a number beyond them takes none of these
(08 R209; notes/assumptions/7.md). -/
opaque Config.ldnPast : Nat → Nat → Nat

/-- Whether an LDN that does not read a line it finds held has it filled anew (15 R318; notes/assumptions/7.md). -/
opaque Config.ldnRefill : Nat → Nat → Bool

/-- The line that a full invariant cache replaces (15 R318; notes/assumptions/7.md). -/
opaque Config.ldnVictim : Nat → Nat

/-- What a drain of a store queue does next: odd, stores of the group that stand in core order reach their slices, all in order or
the one that the half of the number picks; even, the head of the queue leaves it (15 R325, R333; notes/assumptions/49.md). -/
opaque Config.drainPick : Nat → Nat

/-- How many stores beyond those that must have reached their slices have done so when an engine of their core comes to read there
(15 R325, R328; notes/assumptions/49.md). -/
opaque Config.corePick : Nat → Nat

/-- Whether a load in flight is performed after a write that meets it: by the step, the load and the address (15 R326 to R330;
notes/assumptions/49.md). -/
opaque Config.loadLate : Nat → Nat → Nat → Bool

/-- Whether an overlapped destination element of a copy takes the value read before the copy's own writes (09 R233;
notes/assumptions/4.md). -/
opaque Config.copyOld : Nat → Nat → Bool

/-- Whether an access that is not ordered after a matrix entry or a job reads the new element (10 R280, 09 R247;
notes/assumptions/4.md). -/
opaque Config.raced : Nat → Nat → Bool

/-- The words of the corrections that an S8 MMA onto a published tile yields: 10 R270 names a rounded FP32 slab, which an S8
product has none of (notes/assumptions/13.md). -/
opaque Config.s8Corr : Nat → Nat → Word

/-- The receiving link die that the bytes and the trailer of a sender's tag meet at (21 R394; notes/assumptions/14.md). -/
opaque Config.linkOf : Nat → Nat → Bool

/-- The port of a mask that the granule of an address hashes to (21 R392; notes/assumptions/14.md). -/
opaque Config.portHash : Nat → Nat → Nat

/-- Whether a translation cache still holds an entry after another one has come in: replacement is left open (18 R371;
notes/assumptions/12.md). -/
opaque Config.tlbKeep : Nat → Nat → Bool

/-- Which of the contents a code line may be read with, the old ones or the new, a fetch gets (23 R417;
notes/assumptions/12.md). -/
opaque Config.codePick : Nat → Nat → Nat

/-- A re-tiling candidate of a loop node (23 R413): allotment, operand halves and accumulator banks per team, tile sizes along M and
N. -/
structure Candidate where
  allot  : Nat
  halves : Nat
  banks  : Nat
  tileM  : Nat
  tileN  : Nat
deriving DecidableEq, Repr

/-- A loop node (23 R413): its candidates, in the order the producing tool prefers, and its loop nests as the object holds them. -/
structure LoopNode where
  cands : List Candidate
  nests : List Byte
deriving DecidableEq, Repr

/-- The loop node of an index in a loop-level section, whose encoding is not given (23 R408, R413; notes/assumptions/20.md). -/
opaque Config.loopNode : List Byte → Nat → Option LoopNode

/-- The loop node that a tile node lowers to: the section's bytes and the index (23 R408, R411; notes/assumptions/20.md). -/
opaque Config.tileNode : List Byte → Nat → Option LoopNode

/-- The scalar code that the translator generates from a loop node by a candidate, under a format mask (23 R411, R413, R414;
notes/assumptions/20.md). -/
opaque Config.generated : LoopNode → Candidate → Word → List Byte

/-- The virtual address at which a launch's code image stands mapped (23 R416; notes/assumptions/11.md). -/
opaque Config.imageVa : Nat → Nat

/-- The nanoseconds of device time between two steps (11 R296; notes/assumptions/2.md). -/
opaque Config.elapsed : Nat → Nat

/-- The SM3 digest of a byte string (25 R434, R435; notes/assumptions/8.md). -/
opaque Config.sm3 : List Byte → BitVec 256

/-- Whether an SM2 signature over a byte string verifies under the vendor's key (25 R434; notes/assumptions/8.md). -/
opaque Config.sm2Verify : List Byte → List Byte → Bool

/-- The SM2 signature of an attestation report (25 R435; notes/assumptions/8.md). -/
opaque Config.sm2Sign : List Byte → List Byte

/-- The energy of a meter over an interval, by the counter: the cores', then rails 1 and 2 of the dies and the package rails (24 R426;
notes/assumptions/28.md). -/
opaque Config.metered : Nat → Nat → Nat

/-- What the firmware of an image writes at bring-up, by the number of the setting (25 R437; notes/assumptions/18.md). -/
opaque Config.firmware : List Byte → Nat → Nat

/-- Where in die 0's scratchpad the boot ROM puts the image (25 R434; notes/assumptions/18.md). -/
opaque Config.mailbox : Nat

/-- The certificate of the device's public key (25 R435; notes/assumptions/8.md). -/
opaque Config.certificate : List Byte

/-- The word that names a lost unit in DEVLOSS (25 R437; notes/assumptions/18.md). -/
opaque Config.lossName : LostUnit → Word

/-- The single-bit errors that a pass of the patrol scrubber corrects in HBM4E stacks 0-7 and the scratchpads of dies 0-3, in
that order (18 R380, R382; notes/assumptions/18.md). -/
opaque Config.scrubbed : Nat → Nat → Nat

/-- Which of the walks of a die ends next (18 R372; notes/assumptions/12.md). -/
opaque Config.walkPick : Nat → Nat

/-- The byte that an engine leaves in a buffer or staging area whose contents are its own, by the step's tick and the flat
address (09 R253; 21 R395; notes/assumptions/9.md, 10.md). -/
opaque Config.engineByte : Nat → Nat → Byte

/-- Where the staging area of a member stands for the data of a posting, as a peer address: device, die, and group id, epoch, rank and
sequence of the posting (21 R395; notes/assumptions/9.md). -/
opaque Config.stagingAddr : Nat → Nat → List Nat → Nat

/-- The die whose staging areas an inbound address beyond HBM4E names, if any (21 R395; notes/assumptions/9.md). -/
opaque Config.stagingDie : Nat → Option Nat

end Sys2Proof
end

