-- ==== Sys2Proof/Machine/LaneMap.lean ====
section
/-! DEFINITION. Lane maps: affine functions over GF(2) from threads to physical elements (01 R28, R29; 06 R144 to R147,
R156, R157). -/

namespace Sys2Proof.Machine

open Sys2Proof

/-- A lane map at width 2^(code + 3): the rows of A, and b (01 R28). -/
structure LaneMap where
  code : Nat
  rows : List (BitVec 7)
  b    : BitVec 7
deriving DecidableEq, Repr

/-- The width of a width code (01 R28). -/
def widthOf (code : Nat) : Nat := 2 ^ (code + 3)

namespace LaneMap

/-- The number of index bits at a width code. -/
def bits (code : Nat) : Nat := code + 3

/-- The parity of a row's product with a thread number. -/
def parity (x : BitVec 7) : Bool :=
  (List.range 7).foldl (fun acc j => acc != x.getLsbD j) false

/-- The vector `A·t` for the rows of A. -/
def mulVec (rows : List (BitVec 7)) (t : BitVec 7) : BitVec 7 :=
  (rows.zipIdx).foldl (fun acc ri => if parity (ri.1 &&& t) then acc ||| (1#7 <<< ri.2) else acc) 0#7

/-- The physical element of thread `t`: `A·t ⊕ b` (01 R28). -/
def at_ (m : LaneMap) (t : Nat) : Nat := (mulVec m.rows (BitVec.ofNat 7 t) ^^^ m.b).toNat

/-- The rows of the identity matrix. -/
def idRows (n : Nat) : List (BitVec 7) := (List.range n).map fun i => 1#7 <<< i

/-- The identity map at a width code (06 R145). -/
def ident (code : Nat) : LaneMap := ⟨code, idRows (bits code), 0#7⟩

/-- The map is the identity (01 R29). -/
def isIdent (m : LaneMap) : Bool := m.rows == idRows (bits m.code) && m.b == 0#7

/-- The combination of the rows of `S` that row `r` of A selects. -/
def mulRow (r : BitVec 7) (s : List (BitVec 7)) : BitVec 7 :=
  (s.zipIdx).foldl (fun acc sj => if r.getLsbD sj.2 then acc ^^^ sj.1 else acc) 0#7

/-- The map of a shuffle (S, c) of a source with map (A, b): (A·S, A·c ⊕ b) (06 R145). -/
def compose (m : LaneMap) (s : List (BitVec 7)) (c : BitVec 7) : LaneMap :=
  ⟨m.code, m.rows.map (fun r => mulRow r s), mulVec m.rows c ^^^ m.b⟩

/-- A is nonsingular: no thread but 0 has `A·t = 0` (06 R144). -/
def injective (m : LaneMap) : Bool :=
  (List.range (widthOf m.code)).all fun t => t == 0 || mulVec m.rows (BitVec.ofNat 7 t) != 0#7

/-- The image of the map holds the element (06 R144). -/
def hits (m : LaneMap) (e : Nat) : Bool :=
  (List.range (widthOf m.code)).any fun t => m.at_ t == e

/-- The packed rows of A, 7 bits a row (01 R28). -/
def packRows (rows : List (BitVec 7)) : Nat :=
  (rows.zipIdx).foldl (fun acc ri => acc + ri.1.toNat * 2 ^ (7 * ri.2)) 0

/-- The 64-bit descriptor of a map, the identity bit set exactly where A = I and b = 0 (01 R28, R29). -/
def descriptor (m : LaneMap) : BitVec 64 :=
  BitVec.ofNat 64 ((if m.isIdent then 2 ^ 63 else 0) + m.code * 2 ^ 56 + m.b.toNat * 2 ^ 49 + packRows m.rows)

/-- Row `i` of the A field of a descriptor. -/
def rowOf (d : BitVec 64) (i : Nat) : BitVec 7 := d.extractLsb' (7 * i) 7

/-- The map a descriptor gives, read at a width code. -/
def ofDescriptor (d : BitVec 64) (code : Nat) : LaneMap :=
  ⟨code, (List.range (bits code)).map (rowOf d), d.extractLsb' 49 7⟩

/-- The descriptor is well formed at the width code (01 R29). -/
def wellFormed (d : BitVec 64) (code : Nat) : Bool :=
  let n := bits code
  (d.extractLsb' 56 3).toNat == code && d.extractLsb' 59 4 == 0#4 &&
  ((List.range 7).all fun i => if i < n then (rowOf d i).toNat < 2 ^ n else rowOf d i == 0#7) &&
  (d.extractLsb' 49 7).toNat < 2 ^ n &&
  (!d.getLsbD 63 || (ofDescriptor d code).isIdent)

end LaneMap

/-- Which operands move, and the common map (06 R147). -/
structure Meet where
  moveA : Bool
  moveB : Bool
  map   : LaneMap
deriving DecidableEq, Repr

/-- The disagreement rule of 06 R147 for two vector sources. -/
def meet (ma mb : LaneMap) : Meet :=
  if ma == mb then ⟨false, false, ma⟩
  else if ma.isIdent then ⟨false, true, ma⟩
  else if mb.isIdent then ⟨true, false, mb⟩
  else if ma.injective then ⟨false, true, ma⟩
  else if mb.injective then ⟨true, false, mb⟩
  else ⟨true, true, LaneMap.ident ma.code⟩

/-- The common map of an instruction's vector sources A and B, where present (06 R147). -/
def common (code : Nat) : Option LaneMap → Option LaneMap → Option LaneMap
  | some a, some b => some (meet a b).map
  | some a, none => some a
  | none, some b => some b
  | none, none => none

/-- The affine shuffle of SHFX: S = I (06 R156). -/
def shfxShuffle (code : Nat) (k : Word) : List (BitVec 7) × BitVec 7 :=
  (LaneMap.idRows (LaneMap.bits code), BitVec.ofNat 7 (k.toNat % widthOf code))

/-- Field `j` of a SHFP permutation word: π(j) (06 R156). -/
def permField (w : Word) (j : Nat) : Nat := w.toNat / 2 ^ (3 * j) % 8

/-- The SHFP word is a permutation of 0 to n − 1, zero from bit 3n upward (06 R157). -/
def permOk (code : Nat) (w : Word) : Bool :=
  let n := LaneMap.bits code
  w.toNat < 2 ^ (3 * n) &&
  (List.range n).all fun i => (List.range n).any fun j => permField w j == i

/-- The affine shuffle of SHFP: row j has the single bit π(j) (06 R156). -/
def shfpShuffle (code : Nat) (w : Word) : List (BitVec 7) × BitVec 7 :=
  ((List.range (LaneMap.bits code)).map (fun j => 1#7 <<< permField w j), 0#7)

/-- The segment exponent of a segment code: 0 names the whole group (06 R154). -/
def segExp (code s : Nat) : Nat := if s = 0 then LaneMap.bits code else s

/-- The affine shuffle of SHFB: the diagonal from bit s upward, c = k mod 2^s (06 R156). -/
def shfbShuffle (code s : Nat) (k : Word) : List (BitVec 7) × BitVec 7 :=
  let e := segExp code s
  ((List.range (LaneMap.bits code)).map (fun j => if j < e then 0#7 else 1#7 <<< j), BitVec.ofNat 7 (k.toNat % 2 ^ e))

/-- The affine shuffle of MAT: the descriptor's A and b (06 R156). -/
def matShuffle (code : Nat) (d : BitVec 64) : List (BitVec 7) × BitVec 7 :=
  ((LaneMap.ofDescriptor d code).rows, (LaneMap.ofDescriptor d code).b)

end Sys2Proof.Machine
end

