-- ==== Sys2Proof/Machine/State.lean ====
section
/-! DEFINITION. The state of the whole package (01; 09 R239 to R253; 10 R263 to R274; 11 R282 to R293; 12 R299; 17; 18;
21; 23; 24; 25), the reasons a step can stop, and the state after reset. Plain data throughout. -/

namespace Sys2Proof.Machine

open Sys2Proof

/-- Why the machine stops. -/
inductive Fault where
  /-- Raised by the meaning of a word when no group or walker stands at a word: an agenda or a caller that asks for what no
  issue of the part does. Safe: the part never issues such a word. -/
  | noIssuer
deriving DecidableEq, Repr

/-- Why a step has no meaning. -/
inductive Refusal where
  /-- Raised by the arm of an instruction that is not modelled yet. Safe: nothing is claimed about it. -/
  | notModelled (mnemonic : String)
deriving DecidableEq, Repr

/-- Memory: address and byte, in canonical form (Machine/Mem.lean). -/
abbrev Memory := List Host.Cell

/-! ### Groups -/

/-- A physical vector register (01 R14; 18 R380): elements, poisoned elements, lane map, live bit. -/
structure VReg where
  elems : List Word
  bad   : Mask
  map   : LaneMap
  live  : Bool
deriving DecidableEq, Repr

/-- A clause as decoded at its header (03 R66 to R71): header address, instruction-position words, H1, SETA, SETB, the
yield hint. -/
structure Clause where
  addr  : Nat
  words : List Word
  h1    : Word
  seta  : Nat
  setb  : Nat
  yld   : Bool
deriving DecidableEq, Repr

/-- One element of a BINA (09 R252): thread, index, value. -/
structure BinEl where
  thread : Nat
  idx    : Word
  val    : Word
deriving DecidableEq, Repr

/-- How far a word inside a clause has come: fresh; waiting with the CSN it was assigned (01 R23; 17 R361), or a FUSE that has
passed its first stage (05 R139, R140); a BINA with its CSN and the elements left to append (09 R252). -/
inductive Progress where
  | fresh
  | taken (csn : Word)
  | bin (csn : Word) (els : List BinEl)
deriving DecidableEq, Repr

/-- Where a lane stands (05 R117): at a clause header, or inside a clause at a word. -/
inductive Pos where
  | header (pc : Nat)
  | inside (cl : Clause) (idx : Nat) (p : Progress)
deriving DecidableEq, Repr

/-- The state of a lane (05 R117). -/
inductive LaneSt where
  /-- runnable, unless parked or held by a handler -/
  | run
  /-- waits at RET (05 R125) -/
  | ret
  /-- waits at HPOP for the other lanes of a frame (11 R283) -/
  | hpop (frame : Nat)
  /-- executed BAR or BARA on a barrier register and waits for its group to arrive (08 R218); for BARA the scalar that
  receives the phase, if any; the address of the instruction -/
  | arrive (n : Nat) (wait : Bool) (d : Option Nat) (pc : Nat)
  /-- waits for the phase bit of a barrier register to differ (08 R219); whether its BAR arrived, or BARW waits -/
  | phase (n : Nat) (old : Bool) (pc : Nat) (bar : Bool)
  /-- exited or never launched -/
  | exited
deriving DecidableEq, Repr

/-- A lane (05 R117, R119). -/
structure Lane where
  pos   : Pos
  depth : Nat
  st    : LaneSt
  age   : Nat
deriving DecidableEq, Repr

/-- A token kind (01 R26). -/
inductive TokKind where | once | many | none
deriving DecidableEq, Repr

/-- Where an effect's D stands: nowhere, a physical vector register, a scalar (11 R289). -/
inductive Dst where
  | none
  | vec (phys : Nat)
  | sca (n : Nat)
deriving DecidableEq, Repr

/-- What waits on the handler's action (11 R289, R290, R292). -/
inductive Src where
  /-- nothing: a NONE token -/
  | none
  /-- FPTRAP: continue goes on -/
  | trap
  /-- DIVZERO: continue delivers D -/
  | value (d : Dst)
  /-- PERF: continue delivers D, retry performs again -/
  | soft (d : Dst) (retry : Pos)
  /-- COPYSTALL: retry waits again, skip abandons -/
  | stall (retry : Pos)
  /-- COPYSTALL of ENQ: as `stall`, and abandoning writes 0 to the handle (09 R244) -/
  | stallEnq (h : Nat) (retry : Pos)
  /-- BINRANGE: skip drops the elements, continue redirects them (09 R252) -/
  | bin (csn : Word) (els : List BinEl) (again : Pos)
  /-- a suspended copy of a core or job of a die (09 R241; 18 R378) -/
  | engine (r : EngRef)
deriving DecidableEq, Repr

/-- When an instruction issued, and TRACEON at that time (24 R420). -/
structure IssueMark where
  ns : Nat
  on : Bool
deriving DecidableEq, Repr

/-- An effect to perform (11 R284 to R286): id, token kind, launch site, payload, performing lanes, what waits, and when its source
instruction issued, where it is not performed at its issue. -/
structure Perf where
  eff   : BitVec 11
  kind  : TokKind
  pc    : Word
  csn   : Word
  p0    : Word
  p1    : Word
  p2    : Word
  p3    : Word
  lanes : Mask
  src   : Src
  mark  : Option IssueMark
deriving DecidableEq, Repr

/-- A handler frame (01 R27; 11 R282). `inv` is the innermost invocation that held the lanes at the push, 0 for none (R292). -/
structure Frame where
  uid     : Nat
  handler : Word
  landing : Word
  id      : BitVec 11
  mask    : BitVec 11
  running : Bool
  lanes   : Mask
  callHt  : Nat
  inv     : Nat
deriving DecidableEq, Repr

/-- The state of a hardware loop (05 R129, R131): iterations left, body bounds, the body's words, and the innermost
invocation that held its lanes when it started, 0 for none (R132). -/
structure Loop where
  count : Nat
  start : Nat
  stop  : Nat
  words : List Word
  inv   : Nat
deriving DecidableEq, Repr

/-- What a resumption restores for one lane. -/
structure Snap where
  pos   : Pos
  st    : LaneSt
  depth : Nat
deriving DecidableEq, Repr

/-- An invocation context (11 R285, R293). `left` are the lanes it still holds, `above` the frames that stood above its frame
at its entry (R284), `rest` what is to be performed when it ends, `clause` the clause in progress at its entry with the active
set (05 R118). -/
structure Ctx where
  uid    : Nat
  frame  : Nat
  perf   : Perf
  q      : Mask
  left   : Mask
  snaps  : List Snap
  token  : Bool
  k0     : Word
  callHt : Nat
  above  : List Nat
  ended  : Bool
  loop   : Option Loop
  rest   : List Perf
  clause : Option (Clause × Mask)
deriving DecidableEq, Repr

/-- One result of a long-latency instruction: an element of a physical register, a scalar, a handle. -/
inductive Land where
  | elem (phys e : Nat) (v : Word)
  | sreg (n : Nat) (v : Word)
  | handle (n : Nat) (v : DWord)
deriving DecidableEq, Repr

/-- What a long-latency instruction in flight still waits for. -/
inductive Await where
  /-- its results are fixed -/
  | ready
  /-- the memory side of an atomic stands in the store queue (08 R211) -/
  | queue
  /-- the earlier matrix entries of the group (10 R264): bank, element, D, active threads -/
  | drain (bank e0 phys : Nat) (act : Mask)
  /-- the system action of SYS at its completion (11 R295, R296; 24 R425) -/
  | wrsr (sel : Nat) (v : Word)
  | stamp (v : Word)
deriving DecidableEq, Repr

/-- A value of a load in flight that may still be performed: the result it is, its address and bytes (15 R320, R326). -/
structure OpenRead where
  land : Nat
  addr : Nat
  size : Nat
deriving DecidableEq, Repr

/-- A long-latency instruction in flight (01 R20, R21); `mem` marks those of 08 (R217), `reads` the values of a load that may still
be performed. -/
structure Pend where
  id    : Nat
  mem   : Bool
  flag  : Option Nat
  hold  : Bool
  await : Await
  lands : List Land
  flags : BitVec 7
  pc    : Word
  csn   : Word
  mark  : IssueMark
  seq   : Nat
  reads : List OpenRead
deriving DecidableEq, Repr

/-- One thread's atomic update or compare-and-swap in the queue (08 R211, R215): element, flat address, operands. -/
structure AtomEl where
  elem : Nat
  addr : Nat
  cmp  : DWord
  val  : DWord
deriving DecidableEq, Repr

/-- What a store-queue entry does when it is performed (08 R208). -/
inductive QOp where
  | bytes (l : List (Nat × Byte))
  | tags (l : List (Nat × BitVec 16))
  | atom (op : AtomOp) (l : List AtomEl)
  | cas (wide : Bool) (l : List AtomEl)
  /-- FENCE.rel at a scope beyond the core: what follows it stays in the queue until what came before is performed (08 R217) -/
  | fence
deriving DecidableEq, Repr

/-- An entry of a store queue (08 R208): its number, what it does, the long-latency instruction that waits for it, where old values
land, the space and its first byte, the launch site. -/
structure QEntry where
  id   : Nat
  op   : QOp
  pend : Option Nat
  dst  : Dst
  space : Nat
  base : Nat
  pc   : Word
  csn  : Word
  mark : IssueMark
deriving DecidableEq, Repr

/-- A store or atomic of a group that has left its queue into the core order and has not reached its scratchpad slice (08 R208; 15
R325). `due` marks one that the core's engines see before what they do next (15 R328). -/
structure Flight where
  key : GKey
  e   : QEntry
  due : Bool
deriving DecidableEq, Repr

/-- The per-group items that a fused group hides for its other members (01 R38; 23 R415). -/
structure Items where
  sregs   : List Word
  x       : Word
  winBase : Nat
  handles : List DWord
  tokens  : List Word
  frames  : List Frame
  fflags  : Word
  csn     : Word
  callHt  : Nat
  lastBatch : Word
  traceOn : Bool
  stampOn : Bool
deriving DecidableEq, Repr

/-- The word a group is at: its clause, the position, the active set, how far the word has come. -/
structure Issue where
  cl     : Clause
  idx    : Nat
  active : Mask
  prog   : Progress
deriving DecidableEq, Repr

/-- A code line a group may still fetch as it stood (23 R417). -/
structure Line where
  addr  : Nat
  bytes : List Byte
deriving DecidableEq, Repr

/-- A group (01 R12; 05; 11): the lock-step unit at its current width. `never` are the lanes that were never launched (01 R39),
`bpSkip` the header whose breakpoint is passed over once (24 R427), `yielded` the cycles for which its scheduler passes it over (03
R69; 05 R127), `issued` the words it has issued, `kept` how many late effects at the head of `late` are delivered in their order
(17 R362), `waited` the words its first scheduler has issued since it issued last, and `lastNs` when that was (17 R357). -/
structure Group where
  key     : GKey
  team    : Nat
  wcode   : Nat
  parts   : Nat
  allot   : Nat
  born    : Nat
  regs    : List VReg
  preds   : List Mask
  it      : Items
  hidden  : List Items
  lanes   : List Lane
  never   : Mask
  cur     : Option Issue
  loop    : Option Loop
  pend    : List Pend
  queue   : List QEntry
  late    : List Perf
  ctxs    : List Ctx
  stale   : List Line
  yielded : Nat
  halted  : Bool
  bpSkip  : Option Nat
  issued  : Nat
  kept    : Nat
  waited  : Nat
  lastNs  : Nat
deriving DecidableEq, Repr

/-! ### Teams -/

/-- A barrier register (01 R31; 08 R222): expected, arrived, phase, tracking, and the parts of split slots that have
arrived in this phase. -/
structure Bar where
  expected : BitVec 12
  arrived  : BitVec 12
  phase    : Bool
  track    : Bool
  partsIn  : List (Nat × Nat)
deriving DecidableEq, Repr

/-- A layout record as a copy captures it (09 R228). -/
structure Layout where
  base  : Nat
  space : Nat
  fmt   : Nat
  esize : Nat
  rtags : Bool
  wtags : Bool
  sat   : Bool
  scale : Byte
  ext0  : Nat
  ext1  : Nat
  ext2  : Nat
  fill  : Word
  str1  : Nat
  str2  : Nat
deriving DecidableEq, Repr

/-- An arrival held while its team is pre-empted (08 R222): the barrier and who issued the copy or job. -/
structure HeldArrival where
  n    : Nat
  perf : Option Perf
  who  : GKey
deriving DecidableEq, Repr

/-- A team (01 R31; 17 R346, R353, R355). -/
structure Team where
  uid     : Nat
  corr    : Nat
  num     : Nat
  x       : Nat
  y       : Nat
  z       : Nat
  core    : Nat
  first   : Nat
  slots   : Nat
  threads : Nat
  cluBase : Nat
  cluRank : Nat
  cluRows : Nat
  cluCols : Nat
  bars    : List Bar
  layouts : List (Option Layout)
  shBase  : Nat
  shSize  : Nat
  saved   : Bool
  held    : List HeldArrival
deriving DecidableEq, Repr

/-! ### Cores -/

/-- The owner of a half or bank (10 R260): slot, sub-slot, generation. -/
structure Own where
  slot : Nat
  sub  : Nat
  gen  : Nat
deriving DecidableEq, Repr

/-- An accumulator bank's claims (01 R33; 10 R261). -/
structure Bank where
  owner   : Option Own
  grantee : Option Own
deriving DecidableEq, Repr

/-- A tile: first bank and number of banks (10 R259). -/
structure Tile where
  base : Nat
  n    : Nat
deriving DecidableEq, Repr

/-- The states of a lineage tag (01 R32). -/
inductive TagSt where | free | opened | sealed | settled
deriving DecidableEq, Repr

/-- A lineage tag (01 R32; 10 R270, R271): state, team, publisher, tile, corrections made so far, halves pinned until it settles. -/
structure LTag where
  st   : TagSt
  team : Nat
  pub  : Own
  tile : Tile
  made : Nat
  pins : List Nat
deriving DecidableEq, Repr

/-- The operation of a derivation (10 R272). -/
inductive DerivOp where
  | mmaa (half : Nat) (s0 cnt : Nat) (a : Tile)
  | add (a b : Tile)
  | sub (a b : Tile)
  | scale (a : Tile) (s : Word)
  | copy (a : Tile)
  | transpose (a : Tile)
deriving DecidableEq, Repr

/-- An entry of the derivation table (10 R271). `made` is false until the deriving entry has run. -/
structure Deriv where
  uid  : Nat
  tag  : Nat
  dst  : Tile
  op   : DerivOp
  j0   : Nat
  entry : Nat
  made : Bool
deriving DecidableEq, Repr

/-- The operations of matrix entries (10 R263). -/
inductive MOp where
  | mma (d : Tile) (slot s0 cnt half : Nat) (tb ov : Bool)
  | mmaa (d a : Tile) (s0 cnt half : Nat) (ov : Bool)
  | mmsp (d : Tile) (vals idxs half : Nat) (tb ov : Bool)
  | publ (t : Tile) (tag : Option Nat)
  | seal (t : Tile) (tag : Nat)
  | old (src first cnt : Nat) (tag : Option (BitVec 16))
  | sltg (first cnt : Nat) (tag : BitVec 16)
  | afil (t : Tile) (v : Word)
  | alin (op : DerivOp) (d : Tile)
  | ast (t : Tile) (dst : Nat) (stride : Nat)
  | ost (t : Tile) (fmt : OstFmt) (sat : Bool) (scale : Byte) (dst : Nat)
deriving DecidableEq, Repr

/-- A matrix entry in the queue (10 R263). `landed` is false for a follow-on whose copy has not landed; `done` counts the halves an
OLD has filled (R274), `ready` is when it became ready (24 R425). -/
structure MEntry where
  id     : Nat
  key    : GKey
  own    : Own
  team   : Nat
  op     : MOp
  pc     : Word
  csn    : Word
  mark   : IssueMark
  batch  : Option Word
  landed : Bool
  done   : Nat
  ready  : Option Nat
deriving DecidableEq, Repr

/-- The entry the array works on: what it will write, its flags, the corrections it yields (10 R270), how its start failed
(R267). -/
structure MRun where
  entry  : MEntry
  bytes  : List (Nat × Byte)
  tags   : List (Nat × BitVec 16)
  flags  : BitVec 7
  corrs  : List (Nat × List Word)
  perf   : Option Perf
deriving DecidableEq, Repr

/-- An owed application (10 R272): the derivation, the tag, the correction's number and values, the correcting entry. -/
structure App where
  deriv : Nat
  tag   : Nat
  j     : Nat
  corr  : List Word
  entry : MEntry
deriving DecidableEq, Repr

/-- What a copy does (09 R229, R242, R243); a ring copy with its teams and where the target's memory stood at its issue. -/
inductive CopyKind where
  | plain
  | peer (sig : Option Nat)
  | ring (srcTeam dstTeam dstBase : Nat)
deriving DecidableEq, Repr

/-- How an engine operation is stopped (09 R240; 18 R378; 21 R393). -/
inductive Susp where
  /-- it runs -/
  | none
  /-- it waits for a translation (18 R372): virtual address, and since which step -/
  | walk (va : Nat) (write : Bool) (since : Nat)
  /-- its write is held under write-block (18 R378); whether WRITEBLOCK has been raised for this hold -/
  | held (va : Nat) (told : Bool)
  /-- it waits for the completion of a fabric request (21 R393) -/
  | fabric (req : Nat)
  /-- it waits for a handler's action; the aligned range the failing walk covers (18 R379) -/
  | effect (base len : Nat)
deriving DecidableEq, Repr

/-- A range of virtual addresses a handler told a copy or job to skip (reads give the fill) or counts as delivered (09 R241). -/
structure SkipRange where
  base  : Nat
  len   : Nat
  patch : Bool
deriving DecidableEq, Repr

/-- A region of the footprint rules (09 R246): space 0 or 1, first byte, byte after the last. -/
structure Region where
  space : Nat
  lo    : Nat
  hi    : Nat
deriving DecidableEq, Repr

/-- What copies and jobs share: the issuer with its launch site, flags gathered, how the operation is stopped, ranges skipped,
blocks counted (18 R375), bytes got from a peer and bytes under way to one (21 R391), the peer bytes that a CPYP has had acknowledged
(21 R394). -/
structure Eng where
  key    : GKey
  own    : Own
  team   : Nat
  corr   : Nat
  pc     : Word
  csn    : Word
  mark   : IssueMark
  flags  : BitVec 7
  susp   : Susp
  skips  : List SkipRange
  counted : List Nat
  got    : List (Nat × Byte)
  out    : List (Nat × Byte)
  put    : List Nat
  outVa  : Nat
  acked  : List Nat
deriving DecidableEq, Repr

/-- A box on its way (09 R229, R230): records, their handles, coordinates, the box element reached, those done beyond it and those
to be done before it (18 R379), the element at which the bytes under way begin, source bytes as they stood before the copy's own
writes (09 R233), the tag written, the value outside the source's extents. `nib` marks 4-bit elements counted in bytes. -/
structure Move where
  src    : Layout
  dst    : Layout
  hs     : Nat
  hd     : Nat
  c1     : Int
  c2     : Int
  c3s    : Int
  c3d    : Int
  c4     : Int
  c5     : Int
  nx     : Nat
  ny     : Nat
  at_    : Nat
  ahead  : List Nat
  early  : List Nat
  outAt  : Nat
  snap   : List (Nat × Byte)
  tag    : BitVec 16
  pad    : Word
  nib    : Bool
deriving DecidableEq, Repr

/-- A queued copy, ring copy or peer copy (09 R229 to R243). -/
structure Copy extends Eng, Move where
  id     : Nat
  kind   : CopyKind
  arrive : Option Nat
  batch  : Word
  shared : Bool
  follow : Option Nat
  reads  : List Region
  writes : List Region
deriving DecidableEq, Repr

/-- A walker job in progress (12 R299): registers, PC, target (first half, halves, format, scale), steps, the bytes that a WZERO or
WRUN in progress has written (R309), and the code as it stood when the job started (R298). -/
structure Walker where
  job    : Nat
  w      : List Word
  pc     : Word
  target : Option (Nat × Nat × Nat × Byte)
  steps  : Nat
  part   : Nat
  code   : List Byte
deriving DecidableEq, Repr

/-- A stamp on a bank (24 R424, R425). -/
structure Stamp where
  bank : Nat
  id   : Nat
  pc   : Word
  csn  : Word
  corr : Nat
  t0   : Nat
  tr   : Option Nat
  t1   : Option Nat
  tl   : Option Nat
deriving DecidableEq, Repr

/-- A core (01 R12, R32, R33; 09 R239; 10; 12; 15 R318; 25 R432). `copyWorld` and `walkWorld` say whether its copy engine and its
walker are in the secure world. -/
structure Core where
  gens    : List (BitVec 12)
  tags    : List LTag
  halves  : List (Option Own)
  banks   : List Bank
  derivs  : List Deriv
  mq      : List MEntry
  running : Option MRun
  apps    : List App
  copies  : List Copy
  lastTeam : Nat
  walker  : Option Walker
  inv     : List (Nat × Line)
  flights : List Flight
  icache  : List Line
  stamps  : List Stamp
  copyWorld : Bool
  walkWorld : Bool
deriving DecidableEq, Repr

/-! ### Dies -/

/-- The state of a job (09 R244, R249). -/
inductive JobSt where
  | queued
  | started
  | done (status : Nat)
deriving DecidableEq, Repr

/-- An element in a bin buffer (09 R252, R253): its key (CSN, core, slot, sub-slot, thread), index and value; `live` is false
for the place that an element refused by BINRANGE keeps. -/
structure Bin where
  csn    : Word
  key    : GKey
  thread : Nat
  idx    : Word
  val    : Word
  live   : Bool
deriving DecidableEq, Repr

/-- An entry of the job table (09 R244 to R249). `keep` is true until the issuer retires, or, where `wide` names slots
after a change of width, until they all have; from then on the scheduler may reuse a completed entry (01 R24); `ff` is its FFLAGS as it
retired (01 R22); `seq` its place among the entries of the die; `at_` how far it has come, `mv` the box it moves; `wrote` and `took`
the indices a selection has written and taken in range, `taken` the key at hand once it is read (R247); `back` those four as they
stood before writes under way to a peer; `bins` the elements a replay still has to apply; `num` the number of a collective operation
(21 R397). An implicit replay (R252) is an entry whose index no handle names. -/
structure Job extends Eng where
  idx    : Nat
  gen    : BitVec 16
  seq    : Nat
  kind   : Nat
  st     : JobSt
  card   : List Word
  arrive : Option Nat
  reads  : List Region
  writes : List Region
  desc   : List Byte
  bad    : Bool
  at_    : Nat
  mv     : Option Move
  wrote  : Nat
  took   : Nat
  taken  : Option Word
  back   : List Nat
  bins   : List Bin
  counts : List Word
  num    : Nat
  canh   : Bool
  keep   : Bool
  wide   : List Nat
  ff     : Word
deriving DecidableEq, Repr

/-- An open bin stream (09 R252, R253). -/
structure Stream where
  n       : Nat
  corr    : Nat
  base    : Nat
  space   : Nat
  count   : Nat
  region  : Nat
  op      : AtomOp
  ordered : Bool
  staging : Nat
  buffer  : Nat
  size    : Nat
  els     : List Bin
deriving DecidableEq, Repr

/-- A posting of a collective operation (21 R397): rank, operation, reduction and root, count, data. -/
structure Post where
  rank : Nat
  seq  : Nat
  c2   : Word
  count : Nat
  data : List Word
deriving DecidableEq, Repr

/-- A FORM message (21 R399): group, epoch, sender's rank, member list. -/
structure Formed where
  gid   : BitVec 16
  epoch : Word
  rank  : Nat
  list  : List Word
  ns    : Nat
deriving DecidableEq, Repr

/-- A collective group a die holds (21 R396 to R402). `members` are (device, die) in rank order; `posted` the greatest number this
die has posted; `lost` the ranks known lost; `beat` when each rank was last heard; `decided` the abort status; `proposed` when this
member first proposed one, `told` the statuses it has. -/
structure Coll where
  gid     : BitVec 16
  epoch   : Word
  corr    : Nat
  members : List (Nat × Nat)
  list    : List Word
  rank    : Nat
  formed  : Bool
  posted  : Nat
  posts   : List Post
  lost    : List Nat
  beat    : List Nat
  decided : Option Nat
  ended   : Bool
  proposed : Option Nat
  told    : List Nat
  early   : List (Bool × Nat)
deriving DecidableEq, Repr

/-- The latest epoch of a group for which a launch has entered a FORM on a die, and how many operations of it since (21 R397,
R402). -/
structure Epoch where
  corr  : Nat
  gid   : BitVec 16
  epoch : Word
  ops   : Nat
deriving DecidableEq, Repr

/-- A cached leaf of the translation cache (18 R371): world, page, level, entry, home of the access counter. -/
structure TlbEntry where
  secure : Bool
  va     : Nat
  level  : Nat
  pte    : DWord
  home   : Nat
deriving DecidableEq, Repr

/-- A cached table pointer of the walk cache (18 R371): world, the virtual range it stands for, level of the table it points
to, its entry. -/
structure WalkEntry where
  secure : Bool
  va     : Nat
  level  : Nat
  pte    : DWord
deriving DecidableEq, Repr

/-- Gathered access counts of a leaf (18 R375): world, page, home of the counter, count. -/
structure Gather where
  secure : Bool
  va     : Nat
  home   : Nat
  count  : Nat
deriving DecidableEq, Repr

/-- A ring of records (24 R419, R424): base, log2 of the entries, head, tail, lost count, records lost since the last
written, whether its base has been set since reset. -/
structure Ring where
  base : Nat
  size : Nat
  head : Nat
  tail : Nat
  lost : Word
  flag : Bool
  placed : Bool
deriving DecidableEq, Repr

/-- A table walk in flight (18 R372): the core whose miss it serves, 48 for the die's engines, the world, the range of its leaf. -/
structure WalkRun where
  core   : Nat
  secure : Bool
  page   : Nat × Nat
deriving DecidableEq, Repr

/-- A die (09 R244 to R253; 18; 21; 23 R417; 24; 25 R432). `staging` are the bytes that writes of other packages have put into its
staging areas, by peer address, until their posting comes (21 R395). `secUnits` are the 2 MiB units of its scratchpad in the secure world,
`binWorld`, `taskWorld` and `collWorld` whether its binning engine, task scheduler and collective engine are; `resident` the
launches on it, and `moved` whether that set has changed in the interval of a rail sample (24 R423); `sample` the rails as sampled last
(24 R422; 25 R436). -/
structure Die where
  jobs    : List Job
  jobGens : List (Nat × BitVec 16)
  streams : List Stream
  colls   : List Coll
  forms   : List Formed
  epochs  : List Epoch
  staging : List (Nat × Byte)
  tlb     : List TlbEntry
  walkc   : List WalkEntry
  gather  : List Gather
  walks   : List WalkRun
  lastWalk : Nat
  invAddr : Nat
  invFrom : Nat
  invCtl  : Word
  invDone : Bool
  codeInvLine  : Nat
  codeInvCount : Nat
  codeInvDone  : Bool
  tr      : Ring
  trCtl   : Nat
  st      : Ring
  secUnits : List Nat
  binWorld  : Bool
  taskWorld : Bool
  collWorld : Bool
  resident : List Nat
  moved    : Bool
  sample   : List Rail
deriving DecidableEq, Repr

/-! ### The distributor, the fabric and the platform -/

/-- A launch record's fields (17 R346). -/
structure Launch where
  code    : Nat
  gx      : Nat
  gy      : Nat
  gz      : Nat
  teamSize : Nat
  wcode   : Nat
  allot   : Nat
  shBytes : Nat
  threads : Nat
  prefRows : Nat
  prefCols : Nat
  fallRows : Nat
  fallCols : Nat
  ceiling : Nat
  mapped  : Bool
  traced  : Bool
  secure  : Bool
  serial  : Bool
  window  : Nat
  dies    : Nat
  dataCount : Nat
  mapAddr : Nat
  dataAddr : Nat
  compAddr : Nat
  args    : List Word
deriving DecidableEq, Repr

/-- How a grid ended (17 R350, R351): status, detail, the group and effect record, when (R352). -/
structure Final where
  status : Nat
  detail : Nat
  core   : Nat
  slot   : Nat
  sub    : Nat
  record : List Word
  ns     : Nat
deriving DecidableEq, Repr

/-- The phases of a launch (17 R343, R360 to R366). -/
inductive Phase where
  /-- accepted; clusters are being placed or run -/
  | live
  /-- a pre-emption request has been accepted and the halt goes on -/
  | halting
  /-- halted and saved -/
  | saved
  /-- ends early: groups halted, jobs and copies being stopped -/
  | ending
  /-- completed or rejected -/
  | completed
deriving DecidableEq, Repr

/-- A saved core part of a grid (17 R362): per team its groups and claims, kept by the restore. -/
structure SavedTeam where
  team   : Team
  groups : List Group
  halves : List (Nat × Own)
  banks  : List (Nat × Bank)
  tags   : List (Nat × LTag)
  derivs : List Deriv
  mq     : List MEntry
  apps   : List App
  copies : List Copy
  walker : Option Walker
  stamps : List Stamp
  op     : List (Nat × List Byte × List (BitVec 16))
  acc    : List (Nat × List Byte)
  shared : List Byte
  shTags : List (BitVec 16)
  areas  : List (List Byte)
  areaTags : List (List (BitVec 16))
  gens   : List (BitVec 12)
  poison : List Nat
deriving DecidableEq, Repr

/-- A launch the distributor holds (17; 23 R416): number, record, priority, phase, image and its length, walker code, residency
and demands (23 R411), placement map, data blocks (offset, bytes, die mask), windows (die, base), the next team to place, the
first teams of mapped clusters not yet placed, and when it last placed a cluster (R356); its saved teams, and by core the saved walkers
of jobs whose teams have ended (R362; 01 R40, R41). -/
structure Grid where
  corr    : Nat
  l       : Launch
  prio    : Nat
  phase   : Phase
  image   : Nat
  imgLen  : Nat
  walker  : List Byte
  resid   : Nat
  demandH : Nat
  demandB : Nat
  map     : List Nat
  place   : List (Nat × List Byte × Nat)
  windows : List (Nat × Nat)
  next    : Nat
  todo    : List Nat
  waitFrom : Nat
  teamsDone : Nat
  placedAny : Bool
  fallback : Bool
  start   : Option Nat
  endTime : Nat
  energy  : Nat
  final   : Option Final
  saved   : List SavedTeam
  walkers : List (Nat × Walker)
  bp      : Bool
  haltTime : Nat
deriving DecidableEq, Repr

/-- A reservation (17 R356): die, rectangle, the grid that holds it. -/
structure Reserv where
  die  : Nat
  base : Nat
  rows : Nat
  cols : Nat
  corr : Nat
deriving DecidableEq, Repr

/-- A submission queue (17 R342; 25 R429, R430): base as a flat address, records served since it was enabled, and the records
not yet read that the host has cancelled (R345). -/
structure Queue where
  base    : Nat
  size    : Nat
  prio    : Nat
  secure  : Bool
  enabled : Bool
  head    : Nat
  tail    : Nat
  served  : Nat
  cancelLo : Word
  preemptLo : Word
  cancels : List Nat
deriving DecidableEq, Repr

/-- The notification queue (18 R376), and whether its base has been set since reset. -/
structure NotifyQ where
  base : Nat
  size : Nat
  head : Nat
  tail : Nat
  lost : Word
  flag : Bool
  seq  : Word
  placed : Bool
deriving DecidableEq, Repr

/-- The distributor's registers (17 R440; 24 R426 to R428; 25 R429). -/
structure Dist where
  gridCode : Nat
  bpGrid   : Nat
  bpPc     : List Word
  bpHit    : Word
  bpPcHit  : Word
  dumpAddr : Nat
  enIdle   : Nat
  compLost : Word
  compLostLo : Word
  compLostHi : Word
  compLostSt : Word
deriving DecidableEq, Repr

/-- What a fabric request asks for (21 R391). -/
inductive ReqKind where
  | read (addr len : Nat)
  /-- the bytes of one 64-byte unit, with the sender's tag of a CPYP that signals, else 0 (R394) -/
  | write (tag : Nat) (cells : List (Nat × Byte))
  | atomic (op : AtomOp) (addr : Nat) (v : Word)
  /-- the SIGNAL message: its body, which carries the tag, the signal word, the byte count (R394, R395) -/
  | trailer (body : Msg) (addr : Nat) (count : Nat)
deriving DecidableEq, Repr

/-- An outstanding fabric request (21 R393, R394); `page` is the range of virtual addresses where skip and patch act should it
fail (18 R379), `dest` marks an access of the destination, `secure` the world it was translated in (18 R374). -/
structure Req where
  id     : Nat
  who    : EngRef
  dev    : Nat
  kind   : ReqKind
  port   : Nat
  resent : Bool
  page   : Nat × Nat
  dest   : Bool
  secure : Bool
deriving DecidableEq, Repr

/-- What the device sends across the fabric or to the host: messages, completions (21 R391, R395). -/
inductive Sent where
  | request (id dev port : Nat) (k : ReqKind)
  | message (dev die : Nat) (type : Nat) (m : Msg) (data : List Word)
  /-- ordinary writes into a member's staging area, before the POST with the same body (R395) -/
  | staged (dev die : Nat) (m : Msg) (data : List Word)
  | readDone (src tag : Nat) (ok : Bool) (bytes : List Byte)
  | writeDone (src tag : Nat) (ok : Bool)
  | atomicDone (src tag : Nat) (ok : Bool) (old : Word)
  | trailerDone (src tag : Nat) (ok : Bool)
  | hostRead (ok : Bool) (bytes : List Byte)
deriving DecidableEq, Repr

/-- An open signal tag of the receiving side (21 R394): sender, tag, signal address, bytes named, bytes performed, their addresses,
whether the add is made. -/
structure SigTag where
  src   : Nat
  tag   : Nat
  addr  : Nat
  want  : Option Nat
  got   : Nat
  seen  : List Nat
  added : Bool
deriving DecidableEq, Repr

/-- The platform registers (25 R433 to R437). -/
structure Platform where
  devStat : Nat
  devLoss : Word
  secRef  : Word
  atNonce : List Byte
  atCtl   : Word
  atReport : List Byte
  pwrCap  : Nat
  juncLim : Nat
  clockMHz : Nat
  throtCount : Nat
  rails   : Bool
  fwVer   : Word
  fuseLevel : Word
  fwLevel : Word
  fwHash  : BitVec 256
  stepping : Byte
  fwRuns  : Bool
deriving DecidableEq, Repr

/-- The firmware-set times and limits (09 R239; 12 R306; 18 R373; 21 R393, R400). -/
structure Times where
  stallUs : Nat
  wbHold  : Nat
  cntThr  : Nat
  collTo  : Nat
  fabTo   : Nat
  stepLimit : Nat
deriving DecidableEq, Repr

/-- A memory with a count of correctable errors (18 R380). -/
inductive MemName where
  | stack (n : Nat)
  | scratchpad (die : Nat)
  | shared (core : Nat)
  | operand (core : Nat)
  | accumulator (core : Nat)
  | registers (core : Nat)
  | code (core : Nat)
deriving DecidableEq, Repr

/-- An error that strikes the device from outside (18 R380, R384; notes/assumptions/2.md). -/
inductive Flaw where
  /-- a read has corrected a single-bit error of a memory -/
  | corrected (m : MemName)
  /-- an error beyond correction in the granule of a flat address, or one that the home of host or peer memory reports -/
  | poisoned (a : Nat)
  /-- one in an element of a group's register -/
  | register (g : GKey) (phys elem : Nat)
  /-- the next destination block of a copy or job arrives damaged: its CRC-32C does not match -/
  | damaged (r : EngRef)
deriving DecidableEq, Repr

/-- What a turn of the agenda lets act (notes/assumptions/2.md): a group, a core's walker, an event, or an error that strikes. -/
inductive Turn where
  | group (g : GKey)
  | walker (core : Nat)
  | event (i : Instr)
  | flaw (f : Flaw)
deriving DecidableEq, Repr

/-- Who acts in the step at hand. -/
inductive Actor where
  | group (g : GKey)
  | walker (core : Nat)
deriving DecidableEq, Repr

/-- What a launch has held on a core since energy was last shared (24 R426): group slots by nanoseconds, and nanoseconds with a
team. -/
structure Held where
  core   : Nat
  corr   : Nat
  slotNs : Nat
  coreNs : Nat
deriving DecidableEq, Repr

/-- A value that a word of a launch's window has held since the launch started, and the groups that have stored to the word since
(08 R209). -/
structure Past where
  addr : Nat
  val  : Word
  shut : List GKey
deriving DecidableEq, Repr

/-- The state of the package. -/
structure State where
  mem     : Memory
  past    : List Past
  poison  : List Nat
  lost    : List LostUnit
  groups  : List Group
  teams   : List Team
  cores   : List Core
  dies    : List Die
  grids   : List Grid
  queues  : List Queue
  lastQueue : Nat
  reserv  : List Reserv
  dist    : Dist
  nq      : NotifyQ
  rootN   : Nat
  rootS   : Nat
  times   : Times
  fabId   : List Nat
  routes  : List (Nat × Nat × Nat)
  ports   : List Nat
  reqs    : List Req
  outbox  : List Sent
  sigTags : List SigTag
  plat    : Platform
  corrected : List (MemName × Nat)
  meter   : List Held
  ns      : Nat
  agenda  : List Turn
  cur     : Option Actor
  tick    : Nat
  nextId  : Nat
deriving DecidableEq, Repr

/-! ### Reset -/

/-- A lineage tag at core start (01 R32). -/
def LTag.reset : LTag := ⟨.free, 0, ⟨0, 0, 0⟩, ⟨0, 0⟩, 0, []⟩

/-- A core at reset (01 R12: slots, banks and tags free, the derivation table empty). -/
def Core.reset : Core where
  gens := List.replicate 256 0
  tags := List.replicate 16 LTag.reset
  halves := List.replicate 64 none
  banks := List.replicate 128 ⟨none, none⟩
  derivs := []
  mq := []
  running := none
  apps := []
  copies := []
  lastTeam := 0
  walker := none
  inv := []
  flights := []
  icache := []
  stamps := []
  copyWorld := false
  walkWorld := false

/-- A ring at reset (notes/assumptions/3.md). -/
def Ring.reset : Ring := ⟨0, 8, 0, 0, 0, false, false⟩

/-- A die at reset (18 R373: INVCTL [31] reads 1; 24 R419: TRCTL 0). -/
def Die.reset : Die where
  jobs := []
  jobGens := []
  streams := []
  colls := []
  forms := []
  epochs := []
  staging := []
  tlb := []
  walkc := []
  gather := []
  walks := []
  lastWalk := 0
  invAddr := 0
  invFrom := 0
  invCtl := 0
  invDone := true
  codeInvLine := 0
  codeInvCount := 0
  codeInvDone := true
  tr := Ring.reset
  trCtl := 0
  st := Ring.reset
  secUnits := []
  binWorld := false
  taskWorld := false
  collWorld := false
  resident := []
  moved := false
  sample := []

/-- A queue at reset: not enabled (notes/assumptions/3.md). -/
def Queue.reset : Queue := ⟨0, 16, 0, false, false, 0, 0, 0, 0, 0, []⟩

/-- The machine right after reset (25 R437): DEVSTAT 0, the boot ROM waits for the image. -/
def State.reset : State where
  mem := []
  past := []
  poison := []
  lost := []
  groups := []
  teams := []
  cores := List.replicate 192 Core.reset
  dies := List.replicate 4 Die.reset
  grids := []
  queues := List.replicate 32 Queue.reset
  lastQueue := 31
  reserv := []
  dist := ⟨0, 0, [0, 0, 0, 0], 0, 0, 0, 0, 0, 0, 0, 0⟩
  nq := ⟨0, 4, 0, 0, 0, false, 0, false⟩
  rootN := 0
  rootS := 0
  times := ⟨100, 50, 256, 1000, 1000, 2 ^ 26⟩
  fabId := [0, 0]
  routes := []
  ports := List.replicate 48 0
  reqs := []
  outbox := []
  sigTags := []
  plat := ⟨0, 0, 0, List.replicate 32 0, 0, List.replicate 192 0, 3000, 105, 2700, 0, true, 0, 0, 0, 0, 0, false⟩
  corrected := []
  meter := []
  ns := 0
  agenda := []
  cur := none
  tick := 0
  nextId := 1

end Sys2Proof.Machine
end

