-- ==== Sys2Proof/Machine/Mem.lean ====
section
/-! DEFINITION. Memory: one list of bytes in canonical form over flat addresses, block tags, poisoned granules
(00 R9; 01 R34 to R36; 04 R99; 15 R315; 18 R380, R381). -/

namespace Sys2Proof.Machine

open Sys2Proof

/-! ### The list -/

/-- Addresses strictly rising from `k` on, no byte equal to what an unlisted address reads as. -/
def Memory.above : Nat → Memory → Bool
  | _, [] => true
  | k, (a, b) :: m => decide (k ≤ a) && b != 0 && Memory.above (a + 1) m

/-- The canonical form. -/
def Memory.wf (m : Memory) : Bool := Memory.above 0 m

/-- The byte at an address: an unlisted one reads as 0 (DESIGN CHOICE, notes/assumptions/1.md). -/
def Memory.get : Memory → Nat → Byte
  | [], _ => 0
  | (a, b) :: m, k => if a = k then b else Memory.get m k

/-- Write one byte, keeping the canonical form. -/
def Memory.set : Memory → Nat → Byte → Memory
  | [], k, v => if v = 0 then [] else [(k, v)]
  | (a, b) :: m, k, v =>
    if k < a then (if v = 0 then (a, b) :: m else (k, v) :: (a, b) :: m)
    else if k = a then (if v = 0 then m else (k, v) :: m)
    else (a, b) :: Memory.set m k v

/-- The cells from address `k` on. -/
def Memory.fromAddr : Memory → Nat → Memory
  | [], _ => []
  | (a, b) :: m, k => if a < k then Memory.fromAddr m k else (a, b) :: m

/-- The `n` bytes from address `k` on, read in one pass over cells that begin there. -/
def Memory.pass : Nat → Nat → Memory → List Byte
  | 0, _, _ => []
  | n + 1, _, [] => 0 :: Memory.pass n 0 []
  | n + 1, k, (a, b) :: m => if a = k then b :: Memory.pass n (k + 1) m else 0 :: Memory.pass n (k + 1) ((a, b) :: m)

/-- The `n` bytes from address `k` on. -/
def Memory.stretch (m : Memory) (k n : Nat) : List Byte := Memory.pass n k (m.fromAddr k)

/-- Write bytes one after another. -/
def Memory.sets (m : Memory) (l : List (Nat × Byte)) : Memory := l.foldl (fun m c => m.set c.1 c.2) m

/-- The addresses of some cells rise. -/
def Memory.rising : List (Nat × Byte) → Bool
  | [] => true
  | [_] => true
  | c :: d :: l => decide (c.1 < d.1) && Memory.rising (d :: l)

/-- Write a cell, and what follows behind it. -/
def Memory.mergeCell (c : Nat × Byte) (rest : Memory → Memory) : Memory → Memory
  | [] => if c.2 = 0 then rest [] else c :: rest []
  | (a, b) :: m =>
    if c.1 < a then (if c.2 = 0 then rest ((a, b) :: m) else c :: rest ((a, b) :: m))
    else if c.1 = a then (if c.2 = 0 then rest m else c :: rest m)
    else (a, b) :: Memory.mergeCell c rest m

/-- Write cells with rising addresses in one pass. -/
def Memory.merge : List (Nat × Byte) → Memory → Memory
  | [], m => m
  | c :: l, m => Memory.mergeCell c (Memory.merge l) m

/-- What compiled code runs for `Memory.sets`. -/
def Memory.setsFast (m : Memory) (l : List (Nat × Byte)) : Memory :=
  if Memory.rising l then Memory.merge l m else l.foldl (fun m c => m.set c.1 c.2) m

theorem Memory.rising_lt {c : Nat × Byte} {l : List (Nat × Byte)} (h : Memory.rising (c :: l) = true) :
    Memory.rising l = true ∧ ∀ x ∈ l, c.1 < x.1 := by
  induction l generalizing c with
  | nil => exact ⟨rfl, fun _ h => nomatch h⟩
  | cons d l ih =>
    simp only [Memory.rising, Bool.and_eq_true, decide_eq_true_eq] at h
    refine ⟨h.2, fun x hx => ?_⟩
    cases hx with
    | head => exact h.1
    | tail _ hx => exact Nat.lt_trans h.1 ((ih h.2).2 x hx)

theorem Memory.sets_cons_above {a : Nat} {b : Byte} {l : List (Nat × Byte)} : ∀ {m : Memory}, (∀ x ∈ l, a < x.1) →
    Memory.sets ((a, b) :: m) l = (a, b) :: m.sets l := by
  induction l with
  | nil => intros; rfl
  | cons x l ih =>
    intro m h
    have hx := h x (List.mem_cons_self ..)
    have e : Memory.set ((a, b) :: m) x.1 x.2 = (a, b) :: m.set x.1 x.2 := by
      rw [Memory.set, if_neg (by omega), if_neg (by omega)]
    exact (congrArg (fun m => Memory.sets m l) e).trans (ih fun y hy => h y (List.mem_cons_of_mem x hy))

theorem Memory.merge_eq {l : List (Nat × Byte)} : ∀ {m : Memory}, Memory.rising l = true → Memory.merge l m = m.sets l := by
  induction l with
  | nil => intros; rfl
  | cons c l ih =>
    intro m h
    obtain ⟨hr, hl⟩ := Memory.rising_lt h
    have out : ∀ m : Memory, c :: m.sets l = Memory.sets ((c.1, c.2) :: m) l := fun m => (Memory.sets_cons_above hl).symm
    show Memory.mergeCell c (Memory.merge l) m = (m.set c.1 c.2).sets l
    induction m with
    | nil => simp only [Memory.mergeCell, Memory.set]; split <;> simp [ih hr, out]
    | cons p m im =>
      obtain ⟨a, b⟩ := p
      simp only [Memory.mergeCell, Memory.set]
      split
      · split <;> simp [ih hr, out]
      · split
        · split <;> simp [ih hr, out]
        · rw [im, Memory.sets_cons_above fun x hx => Nat.lt_of_le_of_lt (by omega) (hl x hx)]

/-- Compiled code writes cells in one pass. -/
@[csimp] theorem Memory.sets_eq_setsFast : @Memory.sets = @Memory.setsFast := by
  funext m l
  unfold Memory.setsFast
  split
  · rename_i h; exact (Memory.merge_eq h).symm
  · rfl

/-! ### Little-endian values (00 R9) -/

/-- The value of bytes, the lowest address least significant. -/
def leNat : List Byte → Nat
  | [] => 0
  | b :: bs => b.toNat + 256 * leNat bs

/-- The `n` bytes of a value, the least significant first. -/
def leBytes : Nat → Nat → List Byte
  | 0, _ => []
  | n + 1, v => BitVec.ofNat 8 v :: leBytes n (v / 256)

/-- Bytes placed at consecutive addresses from `a`. -/
def cellsAt (a : Nat) (bs : List Byte) : List (Nat × Byte) := bs.zipIdx.map fun p => (a + p.2, p.1)

/-- The cells of an `n`-byte value at `a`. -/
def valueAt (a n v : Nat) : List (Nat × Byte) := cellsAt a (leBytes n v)

/-! ### Flat addresses (notes/assumptions/1.md) -/

/-- HBM4E by physical address. -/
def hbmAddr (a : Nat) : Nat := a
/-- Host memory by physical address. -/
def hostAddr (a : Nat) : Nat := 2 ^ 60 + a
/-- A die's scratchpad by byte. -/
def spAddr (die a : Nat) : Nat := (2 + die) * 2 ^ 60 + a
/-- A core's team shared memory by byte; a team's allocation stands at its first slot's place in 2^20 steps, so that allocations
never meet and only their sum is limited (17 R353). -/
def shAddr (core a : Nat) : Nat := 8 * 2 ^ 60 + core * 2 ^ 30 + a
/-- A core's operand memory by byte. -/
def opAddr (core a : Nat) : Nat := 9 * 2 ^ 60 + core * 2 ^ 19 + a
/-- A core's accumulator memory by byte. -/
def accAddr (core a : Nat) : Nat := 10 * 2 ^ 60 + core * 2 ^ 20 + a
/-- A peer device's memory by physical address. -/
def peerAddr (dev a : Nat) : Nat := (4096 + dev) * 2 ^ 60 + a
/-- Where the two bytes of a block's tag are kept. -/
def tagAddr (a : Nat) : Nat := 2 ^ 80 + a / 64 * 2

/-- The region of a flat address: 0 HBM4E, 1 host, 2-5 scratchpads, 8 team shared, 9 operand, 10 accumulator, from 4,096
on a peer. -/
def regionOf (a : Nat) : Nat := a / 2 ^ 60

/-- The memory of the address carries no block tags: host, peer and accumulator memory (09 R230). -/
def untagged (a : Nat) : Bool :=
  regionOf a == 1 || regionOf a == 10 || decide (4096 ≤ regionOf a)

/-- The ECC granule of a flat address in bytes; a byte where the home reports (18 R380). -/
def granule (a : Nat) : Nat :=
  let r := regionOf a
  if r = 0 then 64 else if r = 10 then 4 else if 2 ≤ r ∧ r ≤ 9 then 8 else 1

/-- The first byte of the address's granule. -/
def granuleBase (a : Nat) : Nat := a / granule a * granule a

/-- The HBM4E stack of a physical address (15 R315: interleaved across all 8 at 4 KiB). -/
def stackOf (a : Nat) : Nat := a / 4096 % 8

/-- The scratchpad slice of an address (15 R317). -/
def sliceOf (a : Nat) : Nat := a / 4096 % 256

/-- A lost unit holds the address (18 R382). -/
def unitHolds (u : LostUnit) (a : Nat) : Bool :=
  match u with
  | .stack n => regionOf a == 0 && stackOf a == n
  | .slice d n => regionOf a == 2 + d && sliceOf (a % 2 ^ 60) == n

/-- The MEMPOISON space code of a flat address (18 R380). `spill` marks an access to the spill stack. -/
def poisonCode (a : Nat) (spill : Bool) : Nat :=
  let r := regionOf a
  if r = 0 then 6 else if r = 1 then 7 else if r ≤ 5 then (if spill then 2 else 1)
  else if r = 8 then 0 else if r = 9 then 3 else if r = 10 then 4 else 8

/-- A stretch of memory that is read as a whole: its first address and its bytes. -/
structure View where
  base  : Nat
  bytes : Array Byte
deriving DecidableEq, Repr

/-- The little-endian value of `n` bytes of a stretch. -/
def View.load (v : View) (a n : Nat) : Nat := leNat ((List.range n).map fun i => v.bytes.getD (a + i - v.base) 0)

namespace State

/-- The byte at a flat address. -/
def byte (s : State) (a : Nat) : Byte := s.mem.get a

/-- The bytes from a flat address on. -/
def bytes (s : State) (a n : Nat) : List Byte := (List.range n).map fun i => s.byte (a + i)

/-- The little-endian value of `n` bytes. -/
def load (s : State) (a n : Nat) : Nat := leNat (s.bytes a n)

/-- Read a stretch. -/
def view (s : State) (a n : Nat) : View := ⟨a, (s.mem.stretch a n).toArray⟩

/-- The word at a flat address. -/
def word32 (s : State) (a : Nat) : Word := BitVec.ofNat 32 (s.load a 4)

/-- The address lies in a poisoned granule or a lost unit (18 R381, R382). -/
def poisoned (s : State) (a : Nat) : Bool :=
  s.poison.contains (granuleBase a) || s.lost.any (fun u => unitHolds u a)

/-- Some byte of the range is poisoned. -/
def anyPoison (s : State) (a n : Nat) : Bool := (List.range n).any fun i => s.poisoned (a + i)

/-- The address lies in the scratchpad window of a launch (01 R34). -/
def windowed (s : State) (a : Nat) : Bool :=
  s.grids.any fun g => g.windows.any fun w =>
    decide (spAddr w.1 w.2 ≤ a) && decide (a < spAddr w.1 w.2 + g.l.window * 2 ^ 21)

/-- The windows' words that cells write, with what they hold before: LDN may still return it (08 R209). -/
def leaves (s : State) (l : List (Nat × Byte)) : List Past :=
  ((l.filter fun c => s.windowed c.1).foldr (fun c ws => if ws.head? = some (c.1 / 4) then ws else c.1 / 4 :: ws) []).map
    fun w => ⟨4 * w, s.word32 (4 * w), []⟩

/-- Write cells in order. A write that replaces a whole granule clears its poison; a partial write leaves it (18 R381). -/
def store (s : State) (l : List (Nat × Byte)) : State :=
  { s with
    mem := s.mem.sets l
    past := s.leaves l ++ s.past
    poison := s.poison.filter fun g =>
      !((List.range (granule g)).all fun i => l.any fun c => c.1 == g + i) }

/-- The poison of granules that some addresses replace whole (18 R381). -/
def unpoison (s : State) (l : List Nat) : State :=
  { s with poison := s.poison.filter fun g => !((List.range (granule g)).all fun i => l.contains (g + i)) }

/-- Mark the granule of an address as poisoned. -/
def addPoison (s : State) (a : Nat) : State :=
  if s.poison.contains (granuleBase a) then s else { s with poison := granuleBase a :: s.poison }

/-- The block tag of an address: scale byte above format code (04 R99, R100). -/
def tag (s : State) (a : Nat) : BitVec 16 := BitVec.ofNat 16 (s.load (tagAddr a) 2)

/-- Write the tag of the block that holds an address; untagged memories have none (09 R230). -/
def setTag (s : State) (a : Nat) (t : BitVec 16) : State :=
  if untagged a then s else { s with mem := s.mem.sets (valueAt (tagAddr a) 2 t.toNat) }

/-- Write tags in order. -/
def setTags (s : State) (l : List (Nat × BitVec 16)) : State :=
  { s with mem := s.mem.sets (l.flatMap fun p => if untagged p.1 then [] else valueAt (tagAddr p.1) 2 p.2.toNat) }

end State

/-- The first poisoned byte of a range. -/
def firstPoison (s : State) (a n : Nat) : Option Nat := ((List.range n).find? fun i => s.poisoned (a + i)).map (a + ·)

/-! ### The slot areas and other places firmware chooses (notes/assumptions/11.md) -/

/-- The die of a core. -/
def dieOf (core : Nat) : Nat := core / 48

/-- The first scratchpad byte of a slot's 32 KiB area: the reserve of 384 MiB stands at the top of the 4 GiB (01 R35). -/
def slotArea (core slot : Nat) : Nat :=
  spAddr (dieOf core) (2 ^ 32 - 384 * 2 ^ 20 + core % 48 * 2 ^ 23 + slot * 2 ^ 15)

/-- The scratchpad bytes below the slot reserve, which windows are allocated from (17 R349). -/
def windowLimit : Nat := 2 ^ 32 - 384 * 2 ^ 20

/-- The physical base of a grid's code image: 64 MiB from the top of HBM4E downward for each image (23 R416). -/
def imageBase (k : Nat) : Nat := 384 * 2 ^ 30 - (k + 1) * 2 ^ 26

/-- The first byte of the team shared memory of a team, by its first slot. -/
def shBaseOf (slot : Nat) : Nat := slot * 2 ^ 20

/-- The physical base of a grid's save area (17 R362). -/
def saveBase (k : Nat) : Nat := 320 * 2 ^ 30 - (k + 1) * 2 ^ 30

end Sys2Proof.Machine
end

