-- ==== Sys2Proof/Machine/Access.lean ====
section
/-! DEFINITION. Access to the parts of the state: groups, teams, cores, dies, grids, and the lanes of a group (01; 05
R117; 17 R353). -/

namespace Sys2Proof.Machine

open Sys2Proof

/-! ### Masks of lanes -/

/-- Lane `t` is in the set. -/
def has (m : Mask) (t : Nat) : Bool := m.getLsbD t

/-- The set of one lane. -/
def one (t : Nat) : Mask := 1#128 <<< t

/-- The set of the lanes below `n` that satisfy a test. -/
def maskOf (n : Nat) (p : Nat → Bool) : Mask :=
  (List.range n).foldl (fun acc t => if p t then acc ||| one t else acc) 0#128

/-- The lanes of a set below `n`, rising. -/
def lanesOf (n : Nat) (m : Mask) : List Nat := (List.range n).filter (has m)

/-- The lowest lane of a set. -/
def lowest (n : Nat) (m : Mask) : Option Nat := (List.range n).find? (has m)

/-- The set of the first `n` lanes. -/
def ones (n : Nat) : Mask := maskOf n fun _ => true

/-- Replace the element at an index, when there is one. -/
def setAt (l : List α) (i : Nat) (x : α) : List α := l.set i x

/-- Change the element at an index, when there is one. -/
def modAt (l : List α) (i : Nat) (f : α → α) : List α :=
  match l[i]? with
  | some x => l.set i (f x)
  | none => l

/-! ### Groups -/

namespace Group

/-- The width of the group (05 R138). -/
def width (g : Group) : Nat := widthOf g.wcode

/-- Every lane of the group. -/
def full (g : Group) : Mask := ones g.width

/-- Lane `t`; a lane that does not exist counts as exited. -/
def lane (g : Group) (t : Nat) : Lane := g.lanes.getD t ⟨.header 0, 0, .exited, 0⟩

/-- The lanes that have not exited (05 R126). -/
def present (g : Group) : Mask := maskOf g.width fun t => (g.lane t).st != .exited

/-- Every lane has exited. -/
def allExited (g : Group) : Bool := g.present == 0#128

/-- The invocations that run (11 R285). -/
def running (g : Group) : List Ctx := g.ctxs.filter fun c => !c.ended

/-- A handler runs in the group (06 R150; 11 R287). -/
def inHandler (g : Group) : Bool := g.ctxs.any fun c => !c.ended

/-- Lane `t` is blocked while a handler runs for other lanes (11 R285). -/
def held (g : Group) (t : Nat) : Bool := g.ctxs.any fun c => !c.ended && !has c.q t

/-- Lane `t` is runnable (05 R117): not waiting, not parked below a call, not held by a handler. -/
def canRun (g : Group) (t : Nat) : Bool :=
  (g.lane t).st == .run && decide (g.it.callHt ≤ (g.lane t).depth) && !g.held t

/-- The runnable lanes. -/
def runnable (g : Group) : Mask := maskOf g.width g.canRun

/-- The number of member slots of an unsplit or fused group (05 R141). -/
def members (g : Group) : Nat := if g.width ≤ 32 then 1 else g.width / 32

/-- Change the lanes of a set. -/
def modLanes (g : Group) (m : Mask) (f : Lane → Lane) : Group :=
  { g with lanes := g.lanes.mapIdx fun t l => if has m t then f l else l }

/-- Put lanes at a position. -/
def place (g : Group) (m : Mask) (p : Pos) : Group := g.modLanes m fun l => { l with pos := p }

/-- The depth of the handler stack (11 R282). -/
def depth (g : Group) : Nat := g.it.frames.length

/-- The frame of a uid with its depth. -/
def frame? (g : Group) (uid : Nat) : Option (Frame × Nat) :=
  (g.it.frames.zipIdx.find? fun f => f.1.uid == uid).map fun f => (f.1, g.depth - f.2)

/-- A predicate register (01 R18): p7 reads as ones. -/
def pred (g : Group) (p : Nat) : Mask := if p = 7 then g.full else g.preds.getD p 0#128

/-- Write the bits of a predicate register for a set of threads; p7 discards (01 R18). -/
def setPred (g : Group) (p : Nat) (bits m : Mask) : Group :=
  if p = 7 then g
  else { g with preds := modAt g.preds p fun old => (old &&& ~~~m) ||| (bits &&& m) }

/-- A scalar register (01 R16). -/
def sreg (g : Group) (n : Nat) : Word := g.it.sregs.getD n 0

/-- Write a scalar register. -/
def setSreg (g : Group) (n : Nat) (v : Word) : Group :=
  { g with it := { g.it with sregs := setAt g.it.sregs n v } }

/-- A handle register (01 R24). -/
def handle (g : Group) (n : Nat) : DWord := g.it.handles.getD n 0

/-- Write a handle register. -/
def setHandle (g : Group) (n : Nat) (v : DWord) : Group :=
  { g with it := { g.it with handles := setAt g.it.handles n v } }

/-- A token register (01 R26). -/
def token (g : Group) (k : Nat) : Word := g.it.tokens.getD k 0

/-- Write a token register. -/
def setToken (g : Group) (k : Nat) (v : Word) : Group :=
  { g with it := { g.it with tokens := setAt g.it.tokens k v } }

/-- A completion flag is pending (01 R20). -/
def flagPending (g : Group) (f : Nat) : Bool := g.pend.any fun p => p.flag == some f

/-- The part number and the number of parts that R36 divides the slot's area by. -/
def partOf (g : Group) : Nat × Nat := if g.parts ≤ 1 then (0, 1) else (g.key.sub, g.parts)

end Group

/-- The address of a position (05 R117). -/
def Pos.pc : Pos → Nat
  | .header pc => pc
  | .inside cl i _ => cl.addr + 8 + 4 * i

/-- The position is a header. -/
def Pos.isHeader : Pos → Bool
  | .header _ => true
  | _ => false

/-- The virtual address of a launch's code image, on a 64-byte boundary (23 R416; notes/assumptions/11.md). -/
def Grid.codeVa (g : Grid) : Nat := Config.imageVa g.corr % 2 ^ 57 / 64 * 64

namespace State

/-- The group of a name. -/
def group? (s : State) (k : GKey) : Option Group := s.groups.find? fun g => g.key == k

/-- Replace the group of the same name. -/
def setGroup (s : State) (g : Group) : State :=
  { s with groups := s.groups.map fun h => if h.key == g.key then g else h }

/-- Change the group of a name. -/
def modGroup (s : State) (k : GKey) (f : Group → Group) : State :=
  match s.group? k with
  | some g => s.setGroup (f g)
  | none => s

/-- The team of a uid. -/
def team? (s : State) (u : Nat) : Option Team := s.teams.find? fun t => t.uid == u

/-- Replace the team of the same uid. -/
def setTeam (s : State) (t : Team) : State :=
  { s with teams := s.teams.map fun x => if x.uid == t.uid then t else x }

/-- Change the team of a uid. -/
def modTeam (s : State) (u : Nat) (f : Team → Team) : State :=
  match s.team? u with
  | some t => s.setTeam (f t)
  | none => s

/-- A core. -/
def core (s : State) (c : Nat) : Core := s.cores.getD c Core.reset

/-- Replace a core. -/
def setCore (s : State) (c : Nat) (x : Core) : State := { s with cores := s.cores.set c x }

/-- Change a core. -/
def modCore (s : State) (c : Nat) (f : Core → Core) : State := s.setCore c (f (s.core c))

/-- A die. -/
def die (s : State) (d : Nat) : Die := s.dies.getD d Die.reset

/-- Replace a die. -/
def setDie (s : State) (d : Nat) (x : Die) : State := { s with dies := s.dies.set d x }

/-- Change a die. -/
def modDie (s : State) (d : Nat) (f : Die → Die) : State := s.setDie d (f (s.die d))

/-- The launch of a correlation number. -/
def grid? (s : State) (corr : Nat) : Option Grid := s.grids.find? fun g => g.corr == corr

/-- Replace the launch of the same correlation number. -/
def setGrid (s : State) (g : Grid) : State :=
  { s with grids := s.grids.map fun x => if x.corr == g.corr then g else x }

/-- Change the launch of a correlation number. -/
def modGrid (s : State) (corr : Nat) (f : Grid → Grid) : State :=
  match s.grid? corr with
  | some g => s.setGrid (f g)
  | none => s

/-- A fresh number for an entry. -/
def fresh (s : State) : Nat × State := (s.nextId, { s with nextId := s.nextId + 1 })

/-- The launch of a group. -/
def gridOf (s : State) (g : Group) : Option Grid := (s.team? g.team).bind fun t => s.grid? t.corr

/-- The launch runs in the secure world (17 R344; 25 R432). -/
def secureGrid (s : State) (corr : Nat) : Bool :=
  match s.grid? corr with
  | some g => g.l.secure
  | none => false

/-- The launch still lets its groups, copies and jobs go on: it is neither halting, saved nor ending (17 R360, R365). -/
def goesOn (s : State) (corr : Nat) : Bool :=
  match s.grid? corr with
  | some g => g.phase == .live
  | none => false

/-- The generation of a slot (01 R26). -/
def gen (s : State) (core slot : Nat) : BitVec 12 := (s.core core).gens.getD slot 0

/-- The name under which a group owns (10 R260). -/
def ownOf (s : State) (k : GKey) : Own := ⟨k.slot, if ((s.group? k).map (·.parts)).getD 1 ≤ 1 then 0 else k.sub,
  (s.gen k.core k.slot).toNat⟩

/-- The grid's scratchpad window on a die: its base, when allocated, and its size (01 R34; 17 R349). -/
def windowOf (s : State) (corr die : Nat) : Option (Nat × Nat) :=
  (s.grid? corr).bind fun g =>
    (g.windows.find? fun w => w.1 == die).map fun w => (w.2, g.l.window * 2 ^ 21)

/-- Some byte of a scratchpad range lies in a unit that is marked secure (01 R37; 25 R432). -/
def secureRange (s : State) (die a n : Nat) : Bool :=
  (s.die die).secUnits.any fun u => decide (u * 2 ^ 21 < a + n) && decide (a < (u + 1) * 2 ^ 21)

end State

/-- The members of a list that the first argument names, in order of their age: device time at start, slot, sub-slot
(17 R357). -/
def olderThan (a b : Group) : Bool :=
  decide (a.born < b.born) ||
  (a.born == b.born && (decide (a.key.slot < b.key.slot) ||
    (a.key.slot == b.key.slot && decide (a.key.sub < b.key.sub))))

end Sys2Proof.Machine
end

