-- ==== Sys2Proof/Machine/Operands.lean ====
section
/-! DEFINITION. Every operand form: register fields under the window, register-indirect sources, lane maps and live bits,
and the ways a destination is written (01 R13 to R18, R30; 03 R73, R78 to R80; 06 R144 to R152; 07 R168, R169). -/

namespace Sys2Proof.Machine

open Sys2Proof

/-- What a read of a register whose live bit is clear returns (01 R15). -/
def deadWord : Word := 0x7FBADBAD#32

namespace VReg

/-- Thread `t`'s logical value (06 R144); a dead register reads as the dead word (01 R15). -/
def value (r : VReg) (t : Nat) : Word := if r.live then r.elems.getD (r.map.at_ t) 0 else deadWord

/-- The map with which the register takes part: identity when it is dead (01 R15; 06 R146). -/
def asMap (r : VReg) : LaneMap := if r.live then r.map else LaneMap.ident r.map.code

/-- The elements laid out anew under an injective map, thread by thread (06 R150). -/
def layout (w : Nat) (m : LaneMap) (f : Nat → Word) : List Word :=
  (List.range w).map fun e =>
    match (List.range w).find? fun t => m.at_ t == e with
    | some t => f t
    | none => 0

/-- The poisoned elements laid out anew under an injective map. -/
def layoutBad (w : Nat) (m : LaneMap) (r : VReg) : Mask :=
  maskOf w fun e => (List.range w).any fun t => m.at_ t == e && r.live && has r.bad (r.map.at_ t)

/-- What thread `t`'s element holds where a partial write leaves it: in a dead register the dead word (06 R150), but zero for a lane
that was never launched (01 R39). -/
def held (never : Mask) (r : VReg) (t : Nat) : Word := if !r.live && has never t then 0 else r.value t

/-- Realign the register in place to an injective map (06 R150). -/
def realign (w : Nat) (never : Mask) (r : VReg) (m : LaneMap) : VReg :=
  if r.live && r.map == m then r
  else { elems := layout w m (r.held never), bad := layoutBad w m r, map := m, live := true }

/-- A dead register comes to life: its elements hold the dead word, those of never-launched lanes zero (06 R150; 01 R39). -/
def revive (w : Nat) (never : Mask) (r : VReg) : VReg :=
  let on := fun (e : Nat) => (List.range w).filter fun t => r.map.at_ t == e
  let only := fun (e : Nat) => !(on e).isEmpty && (on e).all (has never)
  { r with elems := (List.range w).map fun e => if only e then 0 else deadWord, bad := 0, live := true }

/-- Put one element, which clears its poison (18 R381). -/
def put (r : VReg) (e : Nat) (v : Word) : VReg :=
  { r with elems := setAt r.elems e v, bad := r.bad &&& ~~~(one e) }

end VReg

/-- The threads that write element `e` under a map. -/
def sharers (w : Nat) (m : LaneMap) (t : Mask) (e : Nat) : List Nat :=
  (List.range w).filter fun u => has t u && m.at_ u == e

/-- The thread of a shared element whose result the element keeps: the only candidate when their results agree, else a free
choice (notes/assumptions/6.md). -/
def keeper [DecidableEq α] (tick : Nat) (f : Nat → α) (ts : List Nat) : Nat :=
  match ts with
  | [] => 0
  | t :: us => if us.all (fun u => decide (f u = f t)) then t else (t :: us).getD (Config.sharedPick tick t % (us.length + 1)) t

/-- A register with its physical elements prepared for a write under a map by the threads of `t` (06 R150): the map that is
installed, and the register before the elements are put. `full` marks a full write. -/
def prepare (w : Nat) (never : Mask) (r : VReg) (m : LaneMap) (full : Bool) : VReg :=
  if full then { r with map := m, live := true }
  else r.realign w never (if m.injective then m else LaneMap.ident m.code)

/-- Write thread results into a register (06 R150). -/
def writeReg (tick w : Nat) (never : Mask) (r : VReg) (m : LaneMap) (t : Mask) (full : Bool) (f : Nat → Word) : VReg :=
  let r1 := prepare w never r m full
  if full then
    (List.range w).foldl (fun acc e =>
      match sharers w m t e with
      | [] => acc
      | u :: us => acc.put e (f (keeper tick f (u :: us)))) r1
  else (lanesOf w t).foldl (fun acc u => acc.put (r1.map.at_ u) (f u)) r1

namespace Group

/-- The group writes fully: every thread acts and no handler runs (06 R150). -/
def fullWrite (g : Group) (t : Mask) : Bool := t == g.full && !g.inHandler

/-- Under a singular map that a full write installs, each element of the image is computed once: every thread of it stands for
the one whose result it keeps (06 R150). -/
def once [DecidableEq α] (g : Group) (tick : Nat) (m : LaneMap) (t : Mask) (r : Nat → α) (u : Nat) : α :=
  if g.fullWrite t && !m.injective then r (keeper tick r (sharers g.width m t (m.at_ u))) else r u

/-- A register nothing has been written to, at the group's width (01 R12). -/
def freshReg (g : Group) : VReg := ⟨List.replicate g.width 0, 0, LaneMap.ident g.wcode, true⟩

/-- A physical register. -/
def vreg (g : Group) (p : Nat) : VReg := g.regs.getD p g.freshReg

/-- Replace a physical register. -/
def setVreg (g : Group) (p : Nat) (r : VReg) : Group := { g with regs := setAt g.regs p r }

/-- The physical number of a vector field: window base plus value (01 R13). -/
def phys (g : Group) (n : Nat) : Int := (g.it.winBase + n : Nat)

/-- The physical number of a register-indirect A: window base + A + x (03 R80). -/
def physInd (g : Group) (n : Nat) : Int := (g.it.winBase + n : Nat) + g.it.x.toInt

/-- The rank of a group: position of its lowest member slot among the team's slots (01 R17). -/
def rankIn (g : Group) (first : Nat) : Nat := g.key.slot - first

/-- TIX of lane `t`: 32 × rank + its position in the slot (01 R17). -/
def tixOf (g : Group) (first t : Nat) : Word :=
  word (32 * g.rankIn first + (if g.width < 32 then g.key.sub * g.width else 0) + t)

/-- Write a physical register for a set of threads under a map; no thread, no write (03 R90). -/
def writeVec (g : Group) (tick p : Nat) (m : LaneMap) (t : Mask) (f : Nat → Word) : Group :=
  if t = 0#128 then g
  else g.setVreg p (writeReg tick g.width g.never (g.vreg p) m t (g.fullWrite t) f)

/-- Fix the landing elements of a long-latency result at its issue (06 R151): the register prepared for a write under a map. It is
live from then on (notes/assumptions/46.md). -/
def fixVec (g : Group) (p : Nat) (m : LaneMap) (t : Mask) : Group :=
  if t = 0#128 then g else g.setVreg p (prepare g.width g.never (g.vreg p) m (g.fullWrite t))

/-- The elements in which each thread's result lands, once `fixVec` has prepared the register (06 R150, R151). `g` is the group
before. -/
def landing (g : Group) (tick p : Nat) (m : LaneMap) (t : Mask) (f : Nat → Word) : List Land :=
  if t = 0#128 then []
  else if g.fullWrite t then
    (List.range g.width).filterMap fun e =>
      match sharers g.width m t e with
      | [] => none
      | u :: us => some (.elem p e (f (keeper tick f (u :: us))))
  else
    let r := prepare g.width g.never (g.vreg p) m false
    (lanesOf g.width t).map fun u => .elem p (r.map.at_ u) (f u)

/-- One result lands (01 R20; 06 R151). A register whose live bit is clear holds the dead word elsewhere (06 R150). -/
def land (g : Group) (l : Land) : Group :=
  match l with
  | .elem p e v =>
    let r := g.vreg p
    let r := if r.live then r else r.revive g.width g.never
    g.setVreg p (r.put e v)
  | .sreg n v => g.setSreg n v
  | .handle n v => g.setHandle n v

/-- The pending result is there for a reader who has not waited for the flag: a free choice (01 R21; notes/assumptions/4.md). -/
def early (p : Pend) (tick : Nat) (l : Land) : Bool :=
  p.await == .ready &&
    match l with
    | .elem r e _ => Config.landedEarly p.seq r e tick
    | .sreg n _ => Config.landedEarly p.seq 1000 n tick
    | .handle n _ => Config.landedEarly p.seq 1001 n tick

/-- What a reader sees who has not waited for the flags: each pending result that is fixed has landed or not. One that is not fixed
yet gives the old element (notes/assumptions/46.md). -/
def earlyView (g : Group) (tick : Nat) : Group :=
  g.pend.foldl (fun g p => p.lands.foldl (fun g l => if early p tick l then g.land l else g) g) g

/-- A value that is there for a reader has been read from memory (15 R321). -/
def readEarly (g : Group) (tick : Nat) : Group :=
  { g with pend := g.pend.map fun p =>
      if p.reads.isEmpty then p
      else { p with reads := p.reads.filter fun r => !((p.lands[r.land]?).map (early p tick)).getD false } }

end Group

/-- An operand as an instruction reads it: its map when it is a vector source, and each thread's value. -/
structure Opnd where
  map : Option LaneMap
  val : Nat → Word

/-- The value of a scalar operand. -/
def Opnd.sca (o : Opnd) : Word := o.val 0

/-- The operand that the same value stands in every thread. -/
def Opnd.const (v : Word) : Opnd := ⟨none, fun _ => v⟩

/-- What a field reads in a group (03 R77, R79): `lit` is the field's literal word, `phys` the number of an indirect
source. -/
def readOpnd (g : Group) (first : Nat) (r : Reg) (ind : Option Nat) (lit : Word) : Opnd :=
  match ind with
  | some p => ⟨some (g.vreg p).asMap, (g.vreg p).value⟩
  | none =>
    match r with
    | .v n => let p := (g.phys n.val).toNat; ⟨some (g.vreg p).asMap, (g.vreg p).value⟩
    | .s n => .const (g.sreg n.val)
    | .z => .const 0
    | .lid => ⟨some (LaneMap.ident g.wcode), fun t => word t⟩
    | .tix => ⟨some (LaneMap.ident g.wcode), fun t => g.tixOf first t⟩
    | .lit => .const lit

/-- The physical registers a field names: one number for each register it covers; `ind` for a register-indirect A. -/
def physOf (g : Group) (f : Field) (ind : Bool) : List Int :=
  match f.reg with
  | .v n => (List.range f.wide).map fun (i : Nat) => (if ind then g.physInd n.val else g.phys n.val) + (i : Int)
  | _ => []

/-- The physical number lies below the allotment (01 R13). -/
def inBounds (g : Group) (p : Int) : Bool := decide (0 ≤ p) && decide (p < (g.allot : Int))

/-- The fields of an instruction in reading order A, B, D, with the indirect mark of A. -/
def Shape.parts (s : Shape) : List (Field × Bool) :=
  (match s.a with | some f => [(f, s.ind)] | none => []) ++
  (match s.b with | some f => [(f, false)] | none => []) ++
  (match s.d with | some f => [(f, false)] | none => [])

/-- The first physical register that is out of bounds, in the order A, B, D (01 R13; 03 R91; notes/assumptions/46.md). -/
def firstOut (g : Group) (s : Shape) : Option Int :=
  ((Shape.parts s).flatMap fun f => physOf g f.1 f.2).find? fun p => !inBounds g p

/-- A field for a value of several registers names a register of the wrong alignment (01 R14; 08 R215). -/
def misaligned (f : Field) : Bool :=
  decide (1 < f.wide) &&
  match f.reg with
  | .v n => n.val % f.wide != 0
  | .s n => n.val % f.wide != 0 || decide (28 < n.val + f.wide)
  | _ => false

/-- Some field breaks register alignment (01 R14). -/
def anyMisaligned (s : Shape) : Bool := (Shape.parts s).any fun f => misaligned f.1

/-- The physical vector registers the instruction reads (01 R15; 18 R381), each with the threads whose elements it reads: `ma`
of A, `mb` of B, `md` of D. -/
def readRegs (g : Group) (s : Shape) (ma mb md : Mask) : List (Nat × Mask) :=
  let one := fun (f : Option Field) (ind : Bool) (m : Mask) => match f with
    | some f => if f.kind.reads then ((physOf g f ind).filter (inBounds g)).map fun p => (p.toNat, m) else []
    | none => []
  one s.a s.ind ma ++ one s.b false mb ++ one s.d false md

/-- The first register read with a poisoned element among those read (18 R381). -/
def firstBad (g : Group) (l : List (Nat × Mask)) : Option Nat :=
  (l.find? fun p =>
    let r := g.vreg p.1
    r.live && r.bad != 0#128 && (lanesOf g.width p.2).any fun u => has r.bad (r.map.at_ u)).map (·.1)

/-- Some register read is dead (01 R15). -/
def readsDead (g : Group) (l : List (Nat × Mask)) : Bool := l.any fun p => p.2 != 0#128 && !(g.vreg p.1).live

/-- The registers of the allotment that the last bits of an operand-control nibble end (03 R71, R73). -/
def lastRegs (g : Group) (s : Shape) (nib : Nat) : List Nat :=
  let ends := fun (f : Option Field) (ind : Bool) =>
    (((f.map fun f => physOf g f ind).getD []).filter (inBounds g)).map Int.toNat
  (if nib / 2 % 2 = 1 then ends s.a s.ind else []) ++ (if nib / 8 % 2 = 1 then ends s.b false else [])

/-- Clear live bits (01 R15; 03 R73). -/
def clearLive (g : Group) (ps : List Nat) : Group :=
  ps.foldl (fun g p => g.setVreg p { g.vreg p with live := false }) g

end Sys2Proof.Machine
end

