-- ==== Sys2Proof/Machine/Flags.lean ====
section
/-! DEFINITION. Every flag computation on FFLAGS: the sticky merge, the enables, the write by SYS (01 R22; 04 R111 to
R113). The conditions themselves come from the arithmetic of Fp.lean and Sfu.lean. -/

namespace Sys2Proof.Machine

open Sys2Proof

/-- FFLAGS after a merge of sticky flags: bits are set, none is cleared (01 R22). -/
def mergeBits (ff : Word) (fl : BitVec 7) : Word := ff ||| fl.setWidth 32

/-- The raised conditions whose enable is set: INV, DZ, OF, UF, NX against bits [12:8] (01 R22). -/
def enabledBits (ff : Word) (fl : BitVec 7) : BitVec 5 := fl.setWidth 5 &&& (ff >>> 8).setWidth 5

/-- The bits FFLAGS holds: [12:8] and [6:0]; reserved ones read as zero and ignore writes (01 R22; 00 R10). -/
def fflagsMask : Word := 0x1F7F#32

/-- FFLAGS after SYS FLAGS writes it (11 R295). -/
def writeFflags (v : Word) : Word := v &&& fflagsMask

namespace Group

/-- Merge sticky flags into the group's FFLAGS (01 R22). -/
def merge (g : Group) (fl : BitVec 7) : Group := { g with it := { g.it with fflags := mergeBits g.it.fflags fl } }

/-- The enabled conditions of a merge (01 R22). -/
def trapBits (g : Group) (fl : BitVec 7) : BitVec 5 := enabledBits g.it.fflags fl

end Group

/-- The union of the flags that a list of elements raises (04 R111, R112). -/
def orFlags (l : List (BitVec 7)) : BitVec 7 := l.foldl (· ||| ·) 0#7

end Sys2Proof.Machine
end

