-- ==== Sys2Proof/Machine/Records.lean ====
section
/-! DEFINITION. Records the device writes: trace and stamp rings, effect records, completion-record words (11 R286; 24
R419 to R425). -/

namespace Sys2Proof.Machine

open Sys2Proof

/-- The number of entries of a ring (24 R419). -/
def Ring.entries (r : Ring) : Nat := 2 ^ r.size

/-- The ring is full when advancing the tail would make it equal the head (24 R419). -/
def Ring.full (r : Ring) : Bool := (r.tail + 1) % r.entries == r.head

/-- A ring after a record has been dropped (24 R419). -/
def Ring.drop (r : Ring) : Ring := { r with lost := r.lost + 1, flag := true }

/-- A ring after a record has been written (24 R419). -/
def Ring.advance (r : Ring) : Ring := { r with tail := (r.tail + 1) % r.entries, flag := false }

/-- The bytes of little-endian words. -/
def wordBytes (ws : List Word) : List Byte := ws.flatMap fun w => leBytes 4 w.toNat

/-- The two words of a 64-bit number. -/
def words64 (n : Nat) : List Word := [word n, word (n / 2 ^ 32)]

namespace State

/-- Write a 32-byte record of the trace ring of a die; the first word receives the lost flag (24 R419, R420). -/
def traceWrite (s : State) (d : Nat) (ws : List Word) : State :=
  let r := (s.die d).tr
  if r.full then s.modDie d fun x => { x with tr := r.drop }
  else
    let ws := match ws with
      | w :: rest => (w ||| (if r.flag then 0x80000000#32 else 0#32)) :: rest
      | [] => []
    (s.store (cellsAt (hbmAddr (r.base + 32 * r.tail)) (wordBytes ws))).modDie d fun x => { x with tr := r.advance }

/-- Write a 32-byte record of the stamp ring of a die, which lies in its scratchpad (24 R424). -/
def stampWrite (s : State) (d : Nat) (ws : List Word) : State :=
  let r := (s.die d).st
  if r.full then s.modDie d fun x => { x with st := r.drop }
  else
    let ws := match ws with
      | w :: rest => (w ||| (if r.flag then 0x80000000#32 else 0#32)) :: rest
      | [] => []
    (s.store (cellsAt (spAddr d (r.base + 32 * r.tail)) (wordBytes ws))).modDie d fun x => { x with st := r.advance }

/-- The group's trace records are written (24 R420): launch flag, TRCTL[0] of the die, TRACEON. -/
def traced (s : State) (g : Group) (on : Bool) : Bool :=
  on && (s.die (dieOf g.key.core)).trCtl % 2 == 1 &&
  (match s.gridOf g with
   | some gr => gr.l.traced
   | none => false)

/-- A group trace record of what issued at a time, with TRACEON as it was then (24 R420). -/
def traceAt (s : State) (g : Group) (m : IssueMark) (type : Nat) (pc csn p0 p1 : Word) : State :=
  if s.traced g m.on then
    let corr := ((s.team? g.team).map (·.corr)).getD 0
    s.traceWrite (dieOf g.key.core)
      ([word (type + g.key.core * 2 ^ 8 + g.key.slot * 2 ^ 16 + (if g.parts ≤ 1 then 0 else g.key.sub) * 2 ^ 24),
        pc, csn, word corr] ++ words64 m.ns ++ [p0, p1])
  else s

/-- The mark of an instruction of a group that issues now (24 R420). -/
def markNow (s : State) (g : Group) : IssueMark := ⟨s.ns, g.it.traceOn⟩

/-- A group trace record of the instruction that issues now (24 R420). -/
def traceRecord (s : State) (g : Group) (type : Nat) (pc csn p0 p1 : Word) : State :=
  s.traceAt g (s.markNow g) type pc csn p0 p1

end State

/-- The token-kind code (01 R26). -/
def TokKind.code : TokKind → Nat
  | .once => 1
  | .many => 2
  | .none => 3

/-- Word 0 of an effect record: id and token kind (11 R286). -/
def Perf.word0 (p : Perf) : Word := word (p.eff.toNat + p.kind.code * 2 ^ 11)

/-- The eight words of an effect record for a lane set (11 R286). -/
def Perf.record (p : Perf) (q : Mask) : List Word :=
  [p.word0, p.pc, p.csn, p.p0, p.p1, p.p2, p.p3, q.setWidth 32]

/-- The words of a saturating 32-bit difference of times (24 R425). -/
def satDiff (a b : Nat) : Word := word (min (a - b) (2 ^ 32 - 1))

/-- The stamp record of a bank at its release (24 R424, R425). -/
def Stamp.words (st : Stamp) (core te : Nat) : List Word :=
  let head := [word (st.id + st.bank * 2 ^ 16 + core * 2 ^ 23), word st.corr, st.pc, st.csn]
  match st.tr, st.t1, st.tl with
  | some tr, some t1, some tl => head ++ [satDiff tr st.t0, satDiff t1 tr, satDiff tl t1, satDiff te tl]
  | _, _, _ => head ++ [satDiff te st.t0, 0, 0, 0]

end Sys2Proof.Machine
end

