-- ==== Sys2Proof/Machine/Late.lean ====
section
/-! DEFINITION. Effects that arrive after their instruction: the late list of a group, the charge to the grid, merges of
operations in flight (01 R22, R40; 09 R240; 17 R350, R351, R365). -/

namespace Sys2Proof.Machine

open Sys2Proof

/-- The completion status of an effect that found no frame (17 R351). -/
def statusOf (eff : BitVec 11) : Nat := if eff.toNat < 0x100 then 0x800 + eff.toNat else eff.toNat

/-- The order of ends at one device time: an effect before a cancellation, then the lower core, slot and sub-slot (17 R352,
R367). -/
def Final.rank (f : Final) : Nat := (if f.status = 0x2000 then 2 ^ 24 else 0) + f.core * 2 ^ 16 + f.slot * 2 ^ 8 + f.sub

/-- End a grid early (17 R365): its groups halt; what it wrote stays. The end that is first in device time decides the record
(R352, R367). A saved launch ends without a restore (R364). -/
def endGrid (s : State) (corr : Nat) (f : Final) : State :=
  match s.grid? corr with
  | some g =>
    match g.final with
    | some f0 => if g.phase == .ending && f.ns == f0.ns && decide (f.rank < f0.rank) then s.setGrid { g with final := some f } else s
    | none =>
      if g.phase == .completed then s
      else
        let s := s.setGrid { g with phase := .ending, final := some f, saved := [], walkers := [] }
        { s with groups := s.groups.map fun h =>
            if ((s.team? h.team).map (·.corr)) == some corr then { h with halted := true } else h }
  | none => s

/-- A pre-emption request (17 R360, R364): a running launch starts to halt, its groups issue no more; any other is ignored, and
so is one after the last team has ended. -/
def requestPreempt (s : State) (corr : Nat) : State :=
  match s.grid? corr with
  | some g =>
    if g.phase == .live && s.teams.any fun t => t.corr == corr then
      let s := s.setGrid { g with phase := .halting, haltTime := s.ns }
      { s with groups := s.groups.map fun h =>
          if ((s.team? h.team).map (·.corr)) == some corr then { h with halted := true } else h }
    else s
  | none => s

/-- An effect that no lane is left to perform, or that finds no frame, ends the grid under its launch site
(01 R40; 11 R284). -/
def chargeGrid (s : State) (corr : Nat) (k : GKey) (p : Perf) : State :=
  endGrid s corr ⟨statusOf p.eff, 0, k.core, k.slot, k.sub, p.record p.lanes, s.ns⟩

/-- The saved group is the one that issued an operation: its name, and its slot's generation as saved (17 R362). -/
def SavedTeam.issued (t : SavedTeam) (k : GKey) (own : Own) (g : Group) : Bool :=
  g.key == k && (t.gens.getD (k.slot - t.team.first) 0).toNat == own.gen

/-- The saved group that issued an operation. -/
def savedIssuer (gr : Grid) (k : GKey) (own : Own) : Option Group :=
  gr.saved.findSome? fun t => t.groups.find? fun g => t.issued k own g

/-- Change that group. -/
def modSaved (gr : Grid) (k : GKey) (own : Own) (f : Group → Group) : Grid :=
  { gr with saved := gr.saved.map fun t =>
      { t with groups := t.groups.map fun g => if t.issued k own g then f g else g } }

/-- The launch is saved. -/
def isSaved (s : State) (corr : Nat) : Bool :=
  match s.grid? corr with
  | some g => g.phase == .saved
  | none => false

/-- The group that issued an operation, standing or saved with its launch; `none` when it has retired (01 R22, R40). -/
def issuer (s : State) (k : GKey) (own : Own) (corr : Nat) : Option Group :=
  if isSaved s corr then (s.grid? corr).bind fun gr => savedIssuer gr k own
  else (s.group? k).bind fun g => if s.ownOf k == own then some g else none

/-- Change that group. -/
def modIssuer (s : State) (k : GKey) (own : Own) (corr : Nat) (f : Group → Group) : State :=
  if isSaved s corr then s.modGrid corr fun gr => modSaved gr k own f
  else if (issuer s k own corr).isSome then s.modGroup k f else s

/-- The late effect of the lowest CSN (09 R240). -/
def lowestCsn (l : List Perf) : Option Perf :=
  match l with
  | [] => none
  | p :: ps => some (ps.foldl (fun a q => if q.csn.toNat < a.csn.toNat then q else a) p)

/-- Late effects, lowest CSN first. -/
def byCsn : Nat → List Perf → List Perf
  | 0, l => l
  | n + 1, l => match lowestCsn l with
    | some p => p :: byCsn n (l.erase p)
    | none => []

/-- The late effect that a group performs next: those that arrived over a save in their order, else the lowest CSN (09 R240; 17
R362). -/
def Group.nextLate (g : Group) : Option Perf := if g.kept = 0 then lowestCsn g.late else g.late.head?

/-- The group without a late effect. -/
def Group.dropLate (g : Group) (p : Perf) : Group := { g with late := g.late.erase p, kept := g.kept - 1 }

/-- The group with one more late effect. One that arrives while its launch is saved comes after those that stood before it
(17 R362). -/
def Group.addLate (g : Group) (saved : Bool) (p : Perf) : Group :=
  if saved then
    let l := if g.kept = 0 then byCsn g.late.length g.late else g.late
    { g with late := l ++ [p], kept := l.length + 1 }
  else { g with late := g.late ++ [p] }

/-- A late effect for the issuer of an operation: pending in a group, standing or saved, that has a lane that has not exited, else
charged to the grid (01 R40; 09 R240; 17 R362). -/
def addLate (s : State) (k : GKey) (own : Own) (corr : Nat) (p : Perf) : State :=
  match issuer s k own corr with
  | some g => if g.allExited then chargeGrid s corr k p else modIssuer s k own corr (·.addLate (isSaved s corr) p)
  | none => chargeGrid s corr k p

/-- An effect of hardware with a NONE token (11 R290). -/
def perfNone (eff : Nat) (pc csn p0 p1 p2 : Word) : Perf :=
  ⟨BitVec.ofNat 11 eff, .none, pc, csn, p0, p1, p2, 0, 0, .none, none⟩

/-- FPTRAP for the enabled conditions of a merge (01 R22; 11 R290). -/
def perfTrap (pc csn : Word) (bits : BitVec 5) : Perf :=
  ⟨0x10A#11, .once, pc, csn, bits.setWidth 32, 0, 0, 0, 0, .trap, none⟩

/-- The effect, of an instruction that issued at a mark (24 R420). -/
def Perf.since (p : Perf) (m : IssueMark) : Perf := { p with mark := some m }

/-- MEMPOISON: space code and address (11 R290). -/
def perfPoison (pc csn : Word) (space addr : Nat) : Perf :=
  perfNone 0x106 pc csn (word space) (word addr) (word (addr / 2 ^ 32))

/-- Merge the flags of an operation in flight into its issuer; an enabled condition is delivered late (01 R22). `ff` stands
for the FFLAGS of an issuer that has retired. -/
def mergeLate (s : State) (k : GKey) (own : Own) (corr : Nat) (pc csn : Word) (m : IssueMark) (fl : BitVec 7) (ff : Word) : State :=
  if fl = 0#7 then s
  else
    let g := issuer s k own corr
    let bits := (g.map (·.trapBits fl)).getD (enabledBits ff fl)
    let s := modIssuer s k own corr (·.merge fl)
    if bits = 0#5 then s else addLate s k own corr ((perfTrap pc csn bits).since m)


end Sys2Proof.Machine
end

