-- ==== Sys2Proof/Machine/Queue.lean ====
section
/-! DEFINITION. The store queue of a group: what its entries do at their homes, and what a load of the group reads through
it (08 R206 to R208, R211 to R215, R224; 15 R318, R321, R325). -/

namespace Sys2Proof.Machine

open Sys2Proof

/-- A function of two halves, packed (08 R213). -/
def perHalf (f : Nat → Nat → Nat × Fl) (a b : Word) : Word × Fl :=
  let r0 := f (halves a).1 (halves b).1
  let r1 := f (halves a).2 (halves b).2
  (pack2 r0.1 r1.1, r0.2 ||| r1.2)

/-- The new value and the flags of an atomic operation (08 R213, R214). -/
def atomNew (op : AtomOp) (old v : Word) : Word × Fl :=
  match op with
  | .addS32 => (old + v, 0#7)
  | .addF32 => let r := fadd .f32 .rne old.toNat v.toNat; (word r.1, r.2)
  | .addBf16x2 => perHalf (fadd .bf16 .rne) old v
  | .addF16x2 => perHalf (fadd .f16 .rne) old v
  | .minS32 => (if v.slt old then v else old, 0#7)
  | .maxS32 => (if old.slt v then v else old, 0#7)
  | .minN32 => (if v.ult old then v else old, 0#7)
  | .maxN32 => (if old.ult v then v else old, 0#7)
  | .minF32 => let r := fmnx .f32 .minnum old.toNat v.toNat; (word r.1, r.2)
  | .maxF32 => let r := fmnx .f32 .maxnum old.toNat v.toNat; (word r.1, r.2)
  | .and => (old &&& v, 0#7)
  | .or => (old ||| v, 0#7)
  | .xor => (old ^^^ v, 0#7)
  | .exch => (v, 0#7)
  | .incWrap => (if v.toNat ≤ old.toNat then 0 else old + 1, 0#7)
  | .decWrap => (if old = 0 ∨ v.toNat < old.toNat then v else old - 1, 0#7)

/-- The byte a line holds after writes to it. -/
def lineWrite (l : Line) (cells : List (Nat × Byte)) : Line :=
  { l with bytes := cells.foldl (fun bs c =>
      if l.addr ≤ c.1 then bs.set (c.1 - l.addr) c.2 else bs) l.bytes }

/-- Write cells for a group of a core: the homes, and the lines of the core's invariant cache (15 R318). -/
def storeOf (s : State) (core : Nat) (cells : List (Nat × Byte)) : State :=
  (s.store cells).modCore core fun c => { c with inv := c.inv.map fun p => (p.1, lineWrite p.2 cells) }

/-- What performing an entry gives besides the state: the old values with their elements, the flags, the poisoned
addresses met. -/
structure QOut where
  s    : State
  old  : List (Nat × DWord)
  fl   : BitVec 7
  bad  : List Nat

/-- One thread's atomic update (08 R211, R213; 18 R381). -/
def atomStep (core : Nat) (op : AtomOp) (o : QOut) (el : AtomEl) : QOut :=
  if o.s.anyPoison el.addr 4 then { o with bad := o.bad ++ [el.addr] }
  else
    let old := o.s.word32 el.addr
    let r := atomNew op old (el.val.setWidth 32)
    { o with s := storeOf o.s core (valueAt el.addr 4 r.1.toNat)
             old := o.old ++ [(el.elem, old.setWidth 64)], fl := o.fl ||| r.2 }

/-- One thread's compare-and-swap (08 R215). -/
def casStep (core : Nat) (wide : Bool) (o : QOut) (el : AtomEl) : QOut :=
  let n := if wide then 8 else 4
  if o.s.anyPoison el.addr n then { o with bad := o.bad ++ [el.addr] }
  else
    let old : DWord := BitVec.ofNat 64 (o.s.load el.addr n)
    let o := { o with old := o.old ++ [(el.elem, old)] }
    if old = el.cmp then { o with s := storeOf o.s core (valueAt el.addr n el.val.toNat) } else o

/-- Perform an entry at its homes (08 R208). -/
def performEntry (s : State) (core : Nat) (e : QEntry) : QOut :=
  match e.op with
  | .bytes l => ⟨storeOf s core l, [], 0#7, []⟩
  | .tags l => ⟨s.setTags l, [], 0#7, []⟩
  | .atom op l => l.foldl (atomStep core op) ⟨s, [], 0#7, []⟩
  | .cas wide l => l.foldl (casStep core wide) ⟨s, [], 0#7, []⟩
  | .fence => ⟨s, [], 0#7, []⟩

/-- Where the old values of an entry land: D, and D + 1 for 64 bits (08 R211, R215). -/
def QEntry.lands (e : QEntry) (old : List (Nat × DWord)) : List Land :=
  let wide := match e.op with
    | .cas w _ => w
    | _ => false
  old.flatMap fun p =>
    match e.dst with
    | .none => []
    | .vec r => [Land.elem r p.1 (p.2.setWidth 32)] ++ (if wide then [Land.elem (r + 1) p.1 ((p.2 >>> 32).setWidth 32)] else [])
    | .sca r => [Land.sreg r (p.2.setWidth 32)] ++ (if wide then [Land.sreg (r + 1) ((p.2 >>> 32).setWidth 32)] else [])

/-- Mark the waiting atomic as fixed, with its results. -/
def fillPend (g : Group) (id : Nat) (lands : List Land) (fl : BitVec 7) : Group :=
  { g with pend := g.pend.map fun p =>
      if p.id == id then { p with await := .ready, lands := p.lands ++ lands, flags := p.flags ||| fl } else p }

/-- The bytes an operation of a queue writes, tags included; an atomic's are not known before it is performed. -/
def QOp.cells : QOp → List (Nat × Byte)
  | .bytes l => l
  | .tags l => l.flatMap fun p => if untagged p.1 then [] else valueAt (tagAddr p.1) 2 p.2.toNat
  | _ => []

/-- The 4-byte words an operation reaches. -/
def QOp.words : QOp → List Nat
  | .atom _ l => l.map (·.addr / 4)
  | .cas w l => l.flatMap fun el => if w then [el.addr / 4, el.addr / 4 + 1] else [el.addr / 4]
  | op => (op.cells.map (·.1 / 4)).eraseDups

/-- The group has written words: its LDN sees that, and no value from before (08 R209; 15 R318). -/
def shutPast (s : State) (k : GKey) (ws : List Nat) : State :=
  if s.past.isEmpty then s
  else { s with past := s.past.map fun p => if ws.contains (p.addr / 4) && !p.shut.contains k then { p with shut := k :: p.shut } else p }

/-- An entry of a group is performed: its results are fixed, poison it met is reported (08 R208; 18 R381). -/
def performFor (s : State) (k : GKey) (e : QEntry) : State :=
  let o := performEntry s k.core e
  let o := { o with s := shutPast o.s k e.op.words }
  let s1 := match e.pend with
    | some id => o.s.modGroup k fun g => fillPend g id (e.lands o.old) o.fl
    | none => o.s
  match o.bad with
  | [] => s1
  | a :: _ =>
    let corr := (((s.group? k).bind fun g => s.team? g.team).map (·.corr)).getD 0
    addLate s1 k (s1.ownOf k) corr ((perfPoison e.pc e.csn (poisonCode a (e.space == 2)) (a - e.base)).since e.mark)

/-! ### The core order and the slices (08 R208; 15 R325, R333; notes/assumptions/49.md) -/

/-- The last byte that some operations write at an address. -/
def lastByte (l : List QOp) (a : Nat) : Option Byte :=
  l.foldl (fun acc op => op.cells.foldl (fun acc c => if c.1 == a then some c.2 else acc) acc) none

/-- The byte as the groups of a core see it: their stores in core order, before these reach a slice (15 R325). -/
def coreByte (s : State) (core a : Nat) : Byte := (lastByte ((s.core core).flights.map (·.e.op)) a).getD (s.byte a)

/-- The operation reaches the scratchpad. -/
def QOp.far (op : QOp) : Bool :=
  match op with
  | .tags l => l.any fun p => decide (2 ≤ regionOf p.1) && decide (regionOf p.1 ≤ 5)
  | op => op.words.any fun w => decide (2 ≤ regionOf (4 * w)) && decide (regionOf (4 * w) ≤ 5)

/-- The parts of an operation that reach their slices one by one: the words of a store, an atomic as a whole (15 R320, R333). A
poisoned granule that the store replaces is reached as a whole (18 R381). -/
def QOp.parts (bad : Nat → Bool) : QOp → List QOp
  | .bytes l => (l.splitBy fun c d => c.1 / 4 == d.1 / 4 || c.1 / 8 == d.1 / 8 && bad c.1).map .bytes
  | .tags l => l.map fun p => .tags [p]
  | op => [op]

/-- The value of an open read changes. -/
def Land.now (l : Land) (v : Word) : Land :=
  match l with
  | .elem p e _ => .elem p e v
  | .sreg n _ => .sreg n v
  | .handle n v => .handle n v

/-- A write meets the open reads of a load: each is performed before it, or, where `late` allows, after it and takes the value
that then stands (15 R326). -/
def Pend.meet (late : OpenRead → Bool) (val : OpenRead → Word) (lo hi : Nat) (cells : List (Nat × Byte)) (p : Pend) : Pend :=
  let hit := p.reads.filter fun r => decide (r.addr < hi) && decide (lo < r.addr + r.size) &&
    cells.any fun c => decide (r.addr ≤ c.1) && decide (c.1 < r.addr + r.size)
  if hit.isEmpty then p
  else
    { p with
      lands := p.lands.mapIdx fun i (l : Land) => match hit.find? (fun r => r.land == i && late r) with
        | some r => l.now (val r)
        | none => l
      reads := p.reads.filter fun r => !hit.contains r || late r }

/-- A write meets the loads in flight of groups. `may` says of a load whether it is concerned, and whether it may still be
performed after the write (15 R326 to R330). -/
def meetLoads (s : State) (may : Group → Pend → Option Bool) (cells : List (Nat × Byte)) : State :=
  if !(s.groups.any fun g => g.pend.any fun p => !p.reads.isEmpty) then s
  else
    let lo := cells.foldl (fun m c => min m c.1) (2 ^ 100)
    let hi := cells.foldl (fun m c => max m (c.1 + 1)) 0
    let val := fun (g : Group) (r : OpenRead) =>
      BitVec.ofNat 32 (leNat ((List.range r.size).map fun i => coreByte s g.key.core (r.addr + i)))
    let one := fun (g : Group) (p : Pend) => match may g p with
      | none => p
      | some m => p.meet (fun r => m && Config.loadLate s.tick p.id r.addr) (val g) lo hi cells
    { s with groups := s.groups.map fun g => { g with pend := g.pend.map (one g) } }

/-- The group has issued nothing since the load: other groups of its core may come between its parts (15 R320, R328). -/
def Group.fresh (g : Group) (p : Pend) : Bool := g.issued == p.seq + 1

/-- A store of a group of the core enters the core order: an earlier load of a group of the core stays before it (15 R333).
`known` says that its value is known by then. -/
def meetCore (s : State) (k : GKey) (known : Bool) (cells : List (Nat × Byte)) : State :=
  meetLoads s (fun g p => if g.key.core == k.core then some (known && g.key != k && g.fresh p) else none) cells

/-- A word that reads or writes what an earlier load of the group names: the load has been performed (15 R321). -/
def closeReads (s : State) (k : GKey) (cells : List (Nat × Byte)) : State :=
  meetLoads s (fun g _ => if g.key == k then some false else none) cells

/-- The flights of a core that must reach their homes for some words to have done so: those that reach one of them, and what
these follow at a word (15 R321). -/
def flightsFor : List Flight → List Nat → List Flight × List Nat
  | [], ws => ([], ws)
  | f :: fs, ws =>
    let r := flightsFor fs ws
    if f.e.op.words.any r.2.contains then (f :: r.1, f.e.op.words ++ r.2) else r

/-- The bytes of words, as a write to them meets loads. -/
def wordCells (ws : List Nat) : List (Nat × Byte) := ws.flatMap fun w => (List.range 4).map fun i => (4 * w + i, 0)

/-- What a flight writes, as loads meet it. -/
def Flight.cells (f : Flight) : List (Nat × Byte) :=
  match f.e.op with
  | .atom .. => wordCells f.e.op.words
  | .cas .. => wordCells f.e.op.words
  | op => op.cells

/-- The same store or atomic on its way. -/
def Flight.is (f x : Flight) : Bool := x.key == f.key && x.e == f.e

/-- The flights once one has reached its slice: the engines of the core see those before it in core order first (15 R328). -/
def landed (f : Flight) (l : List Flight) : List Flight :=
  (l.takeWhile fun x => !f.is x).map (fun x => { x with due := true }) ++ (l.dropWhile fun x => !f.is x).drop 1

/-- A flight reaches its slice: loads of other cores come before it or after it. -/
def landFlight (core : Nat) (s : State) (f : Flight) : State :=
  let s := s.modCore core fun c => { c with flights := landed f c.flights }
  meetLoads (performFor s f.key f.e) (fun g _ => if g.key.core == core then none else some true) f.cells

/-- Flights reach the words named, in the order they follow each other there (15 R321). -/
def landWords (s : State) (core : Nat) (ws : List Nat) : State :=
  ((flightsFor (s.core core).flights ws).1).foldl (landFlight core) s

/-- Every flight of a core reaches its slice. -/
def landAll (s : State) (core : Nat) : State := (s.core core).flights.foldl (landFlight core) s

/-- What follows for the agents of a core comes after its stores on their way (15 R323, R328). -/
def dueAll (s : State) (core : Nat) : State :=
  s.modCore core fun c => { c with flights := c.flights.map fun (f : Flight) => { f with due := true } }

/-- An engine of a core comes to scratchpad memory: stores of the core have reached it in core order, those that are due or that a
test names with all before them, and as many more as may be (15 R325, R328, R334). -/
def coreSees (s : State) (core : Nat) (p : Flight → Bool) : State :=
  let l := (s.core core).flights
  if l.isEmpty then s
  else
  let rest := (l.reverse.takeWhile fun f => !f.due && !p f).length
  let n := l.length - rest + Config.corePick s.tick % (rest + 1)
  (l.take n).foldl (landFlight core) s

/-- A write of a copy or of an array entry of a group, which the issue numbers, meets the loads in flight. On its core it takes its
place in core order: a load of another group there, or a later one of the issuer, follows it at most where it is the last its group
has issued (15 R328, R334). -/
def portMeets (core : Nat) (k : GKey) (id : Nat) (g : Group) (p : Pend) : Option Bool :=
  some (g.key.core != core || (g.key != k || decide (id < p.id)) && g.fresh p)

/-- A group has stores on their way to slices. -/
def aloft (s : State) (k : GKey) : Bool := (s.core k.core).flights.any fun f => f.key == k

/-- Flights of a group reach their slices, with those they follow: the one picked, or all of them. -/
def landSome (s : State) (k : GKey) (pick : Nat) : State :=
  let mine := (s.core k.core).flights.filter fun f => f.key == k
  match pick % (mine.length + 1) with
  | 0 => landWords s k.core (mine.flatMap fun f => f.e.op.words)
  | n + 1 => landWords s k.core (((mine[n]?).map fun f => f.e.op.words).getD [])

/-- The head of a group's queue leaves it (08 R208): team shared memory is reached at once, the scratchpad through the core
order; what FENCE.rel holds back follows what came before it (08 R217; 15 R324). -/
def drainHead (s : State) (k : GKey) : State :=
  match s.group? k with
  | none => s
  | some g =>
    match g.queue with
    | [] => s
    | e :: rest =>
      let s := s.setGroup { g with queue := rest }
      if e.op = .fence then
        let s := landAll s k.core
        s.modGroup k fun g => { g with pend := g.pend.map fun p => if p.id < e.id then { p with reads := [] } else p }
      else
        let s := if e.op.far then
            let ops := e.op.parts s.poisoned
            s.modCore k.core fun c => { c with flights := c.flights ++ ops.map fun op => ⟨k, { e with op := op }, false⟩ }
          else dueAll (performFor s k e) k.core
        meetCore s k (!e.op.far || !e.op.cells.isEmpty) (Flight.cells ⟨k, e, false⟩)

/-- Perform the whole queue of a group. -/
def drainAll (s : State) (k : GKey) : State :=
  let n := ((s.group? k).map (·.queue.length)).getD 0
  (List.range n).foldl (fun s _ => drainHead s k) s

/-- What a drain does: the head of the queue leaves it, or one of the group's stores reaches its slice, in any order that
locations allow (08 R208; 15 R333). -/
def drainStep (s : State) (k : GKey) : State :=
  let n := Config.drainPick s.tick
  if aloft s k && (n % 2 == 1 || ((s.group? k).map (·.queue.isEmpty)).getD true) then landSome s k (n / 2) else drainHead s k

/-! ### What a load of the group reads (08 R208; 15 R321, R325) -/

/-- The last byte an entry of the queue writes at an address (08 R208). -/
def queuedByte (q : List QEntry) (a : Nat) : Option Byte := lastByte (q.map (·.op)) a

/-- A queued atomic names the byte: a later load of the group waits for it (15 R321). -/
def atomNames (q : List QEntry) (a : Nat) : Bool :=
  q.any fun e => match e.op with
    | .atom _ l => l.any fun el => decide (el.addr ≤ a) && decide (a < el.addr + 4)
    | .cas w l => l.any fun el => decide (el.addr ≤ a) && decide (a < el.addr + (if w then 8 else 4))
    | _ => false

/-- The atomics a load of a group waits for: its own in the queue, those of its core on their way to a slice (15 R325). -/
def atomAhead (s : State) (g : Group) (a : Nat) : Bool :=
  atomNames g.queue a || atomNames ((s.core g.key.core).flights.map (·.e)) a

/-- The byte a load of the group reads: its own queued stores first, then its core's, then the home (08 R208; 15 R325). -/
def seenByte (s : State) (g : Group) (a : Nat) : Byte := (queuedByte g.queue a).getD (coreByte s g.key.core a)

/-- The value a load of the group reads. -/
def seenLoad (s : State) (g : Group) (a n : Nat) : Nat := leNat ((List.range n).map fun i => seenByte s g (a + i))

/-- A store of the group's core to the byte has not been performed yet. -/
def unperformed (s : State) (g : Group) (a : Nat) : Bool :=
  (queuedByte g.queue a).isSome || (lastByte ((s.core g.key.core).flights.map (·.e.op)) a).isSome

/-- The byte a load reads stands in a poisoned granule and no store on its way replaces it (18 R381). -/
def seenPoison (s : State) (g : Group) (a n : Nat) : Bool :=
  (List.range n).any fun i => s.poisoned (a + i) && !unperformed s g (a + i)

/-- The tag a load reads (08 R224). -/
def seenTag (s : State) (g : Group) (a : Nat) : BitVec 16 := BitVec.ofNat 16 (seenLoad s g (tagAddr a) 2)

end Sys2Proof.Machine
end

