-- ==== Sys2Proof/Machine/Translate.lean ====
section
/-! DEFINITION. Translation of main-memory addresses: the walk, the caches, access counters and notifications (18 R368 to
R376). -/

namespace Sys2Proof.Machine

open Sys2Proof

/-! ### Page-table entries (18 R369) -/

namespace Pte
/-- [0] valid. -/
def valid (e : DWord) : Bool := e.getLsbD 0
/-- [1] writable. -/
def writable (e : DWord) : Bool := e.getLsbD 1
/-- [2] leaf. -/
def leaf (e : DWord) : Bool := e.getLsbD 2
/-- [4:3] target: 0 HBM4E, 1 host, 2 peer, 3 reserved. -/
def target (e : DWord) : Nat := (e.extractLsb' 3 2).toNat
/-- [5] secure. -/
def secure (e : DWord) : Bool := e.getLsbD 5
/-- [6] write-block. -/
def wblock (e : DWord) : Bool := e.getLsbD 6
/-- [7] counted. -/
def counted (e : DWord) : Bool := e.getLsbD 7
/-- [51:8] in place. -/
def addr (e : DWord) : Nat := (e &&& 0x000FFFFFFFFFFF00#64).toNat
/-- [63:52] peer device. -/
def peer (e : DWord) : Nat := (e.extractLsb' 52 12).toNat
end Pte

/-- The lowest virtual-address bit that indexes a level (18 R368). -/
def levelShift (level : Nat) : Nat := [48, 39, 30, 21, 16].getD level 16

/-- The entries of a level's table (18 R368). -/
def levelEntries (level : Nat) : Nat := if level = 4 then 32 else 512

/-- The size of a level's table in bytes (18 R368). -/
def tableSize (level : Nat) : Nat := if level = 4 then 512 else 4096

/-- The index of a virtual address at a level. -/
def levelIndex (level va : Nat) : Nat := va / 2 ^ levelShift level % levelEntries level

/-- The aligned range an entry at a level covers (18 R379). -/
def levelBase (level va : Nat) : Nat := va / 2 ^ levelShift level * 2 ^ levelShift level

/-- Rows 1 and 2 of 18 R370 for an entry at a level: the COPYFAULT cause, if any. -/
def entryFault (level : Nat) (e : DWord) : Option Nat :=
  if !Pte.valid e then some 0
  else if Pte.target e == 3 then some 2
  else if Pte.target e != 2 && Pte.peer e != 0 then some 2
  else if Pte.leaf e then
    if level < 2 || Pte.addr e % 2 ^ levelShift level != 0 then some 2 else none
  else if level == 4 || Pte.target e != 0 || Pte.addr e % tableSize (level + 1) != 0 then some 2
  else none

/-- Where a walk ends: at a leaf, or with a cause, at a level (18 R370). `home` is the address of the leaf's counter, `ptrs`
the table pointers met. -/
structure WalkEnd where
  cause : Option Nat
  level : Nat
  pte   : DWord
  home  : Nat
  ptrs  : List (Nat × DWord)
deriving DecidableEq, Repr

/-- The entry a walk reads: a cached pointer of the walk cache, else HBM4E (18 R371). -/
def readPte (s : State) (d : Nat) (sec : Bool) (level va table : Nat) : DWord :=
  match (s.die d).walkc.find? fun w => w.secure == sec && w.level == level && w.va == levelBase level va with
  | some w => w.pte
  | none => BitVec.ofNat 64 (s.load (hbmAddr (table + 8 * levelIndex level va)) 8)

/-- The entry a walk would read from HBM4E is poisoned: a page-table error (18 R381; notes/assumptions/12.md). -/
def ptePoisoned (s : State) (d : Nat) (sec : Bool) (level va table : Nat) : Bool :=
  !((s.die d).walkc.any fun w => w.secure == sec && w.level == level && w.va == levelBase level va) &&
    s.anyPoison (hbmAddr (table + 8 * levelIndex level va)) 8

/-- The walk of a virtual address, one entry a level (18 R370). -/
def walkFrom (s : State) (d : Nat) (sec : Bool) (va : Nat) : Nat → Nat → Nat → List (Nat × DWord) → WalkEnd
  | 0, level, _, ptrs => ⟨some 2, level, 0, 0, ptrs⟩
  | fuel + 1, level, table, ptrs =>
    let e := readPte s d sec level va table
    match (if ptePoisoned s d sec level va table then some 2 else entryFault level e) with
    | some c => ⟨some c, level, e, 0, ptrs⟩
    | none =>
      if Pte.leaf e then ⟨none, level, e, table + 256 + 2 * levelIndex level va, ptrs⟩
      else walkFrom s d sec va fuel (level + 1) (Pte.addr e) (ptrs ++ [(level, e)])

/-- The root of a world (18 R373). -/
def rootOf (s : State) (sec : Bool) : Nat := if sec then s.rootS else s.rootN

/-- The walk from a world's root (18 R370). -/
def walk (s : State) (d : Nat) (sec : Bool) (va : Nat) : WalkEnd := walkFrom s d sec va 5 0 (rootOf s sec) []

/-- What an access through a leaf gives (18 R370): the flat address, or why not. -/
inductive Trans where
  | ok (flat : Nat)
  | fault (cause base len : Nat)
  | secure (base len : Nat)
  | held (base : Nat)
  | miss
deriving DecidableEq, Repr

/-- The flat address a leaf gives (18 R369). -/
def leafAddr (level : Nat) (e : DWord) (va : Nat) : Nat :=
  let a := Pte.addr e + va % 2 ^ levelShift level
  match Pte.target e with
  | 0 => hbmAddr a
  | 1 => hostAddr a
  | _ => peerAddr (Pte.peer e) a

/-- Rows 3 to 6 of 18 R370 at a leaf, for a grid's world. -/
def throughLeaf (sec write : Bool) (level : Nat) (e : DWord) (va : Nat) : Trans :=
  let base := levelBase level va
  let len := 2 ^ levelShift level
  if Pte.secure e && !sec then .secure base len
  else if write && !Pte.writable e then .fault 1 base len
  else if write && Pte.wblock e then .held base
  else .ok (leafAddr level e va)

/-- The cached leaf of a virtual address (18 R371). -/
def tlbFind (s : State) (d : Nat) (sec : Bool) (va : Nat) : Option TlbEntry :=
  (s.die d).tlb.find? fun t => t.secure == sec && t.va == levelBase t.level va

/-- A translation through the cache; `miss` where no leaf is cached (18 R371). -/
def lookup (s : State) (d : Nat) (sec write : Bool) (va : Nat) : Trans :=
  match tlbFind s d sec va with
  | some t => throughLeaf sec write t.level t.pte va
  | none => .miss

/-- The outcome of a walk as a translation (18 R370). -/
def WalkEnd.trans (w : WalkEnd) (sec write : Bool) (va : Nat) : Trans :=
  match w.cause with
  | some c => .fault c (levelBase w.level va) (2 ^ levelShift w.level)
  | none => throughLeaf sec write w.level w.pte va

/-! ### Access counters and notifications (18 R375, R376) -/

/-- Append a notification, or count it lost (18 R376). Until NQBASE is written there is no ring to write into
(notes/assumptions/19.md). -/
def notify (s : State) (d : Nat) (sec : Bool) (va count : Nat) : State :=
  let q := s.nq
  let n := 2 ^ q.size
  let seq := q.seq + 1
  if !q.placed || (q.tail + 1) % n == q.head then { s with nq := { q with lost := q.lost + 1, flag := true, seq := seq } }
  else
    let ws := words64 va ++ [word (count + d * 2 ^ 16 + q.flag.toNat * 2 ^ 24 + sec.toNat * 2 ^ 25), seq]
    let s := s.store (cellsAt (spAddr 0 (q.base + 16 * q.tail)) (wordBytes ws))
    { s with nq := { q with tail := (q.tail + 1) % n, flag := false, seq := seq } }

/-- Add a gathered amount to a home counter, indivisibly (18 R375). A poisoned counter takes no add (R381;
notes/assumptions/12.md). -/
def homeAdd (s : State) (d : Nat) (g : Gather) : State :=
  if g.count = 0 ∨ s.anyPoison (hbmAddr g.home) 2 then s
  else
    let old := s.load (hbmAddr g.home) 2
    let new := min (old + g.count) 0xFFFF
    let s := s.store (valueAt (hbmAddr g.home) 2 new)
    if old < s.times.cntThr ∧ s.times.cntThr ≤ new then notify s d g.secure g.va new else s

/-- Add the gathered amounts that a test selects to their homes, and drop them (18 R375). -/
def flushGather (s : State) (d : Nat) (p : Gather → Bool) : State :=
  let out := (s.die d).gather.filter p
  let s := s.modDie d fun x => { x with gather := x.gather.filter fun g => !p g }
  out.foldl (fun s g => homeAdd s d g) s

/-- The leaf through which an access is performed: the cached one, or, where another of the access's leaves has replaced it, as the
walk has found it (18 R371; 22 R404). -/
def leafOf (s : State) (d : Nat) (sec : Bool) (va : Nat) : TlbEntry :=
  (tlbFind s d sec va).getD
    (let w := walk s d sec va
     ⟨sec, levelBase w.level va, w.level, w.pte, w.home⟩)

/-- A leaf whose accesses are counted (18 R375). -/
def TlbEntry.counts (t : TlbEntry) : Bool := t.level == 4 && Pte.valid t.pte && Pte.target t.pte == 1 && Pte.counted t.pte

/-- Count one block of a counted host page (18 R375): gathered, and added to the home at 16, or at once where the leaf is no longer
cached. -/
def countBlock (s : State) (d : Nat) (sec : Bool) (va : Nat) : State :=
  let t := leafOf s d sec va
  if t.counts then
    let l := (s.die d).gather
    let l := if l.any (fun g => g.secure == sec && g.va == t.va) then
        l.map fun g => if g.secure == sec && g.va == t.va then { g with count := g.count + 1 } else g
      else l ++ [⟨sec, t.va, t.home, 1⟩]
    let cached := (s.die d).tlb.any fun x => x.secure == sec && x.va == t.va
    flushGather (s.modDie d fun x => { x with gather := l }) d fun g =>
      decide (16 ≤ g.count) || (!cached && g.secure == sec && g.va == t.va)
  else s

/-- Install a leaf and the pointers of its walk. Which other entries leave is open; the counts gathered in a leaf that
leaves are added to their home (18 R371, R375). -/
def install (s : State) (d : Nat) (sec : Bool) (va : Nat) (w : WalkEnd) : State :=
  let t : TlbEntry := ⟨sec, levelBase w.level va, w.level, w.pte, w.home⟩
  let stay := fun (x : TlbEntry) => Config.tlbKeep s.tick x.va
  let keep := ((s.die d).tlb.filter fun x => !(x.secure == sec && x.va == t.va && x.level == t.level)).filter stay
  let ptrs := w.ptrs.map fun p => (⟨sec, levelBase p.1 va, p.1, p.2⟩ : WalkEntry)
  let tlb := (t :: keep).take 8192
  let s := flushGather s d fun g => !(tlb.any fun x => x.secure == g.secure && x.va == g.va)
  s.modDie d fun x => { x with
    tlb := tlb
    walkc := (ptrs ++ x.walkc.filter fun p => !ptrs.any fun q => q.secure == p.secure && q.va == p.va && q.level == p.level).take 1024 }

/-- Translate with a walk made at once where no cached leaf lets the access proceed: a fault and a held write are walked
again each time (18 R371). -/
def translateNow (s : State) (d : Nat) (sec write : Bool) (va : Nat) : State × Trans :=
  match lookup s d sec write va with
  | .ok a => (s, .ok a)
  | _ =>
    let w := walk s d sec va
    match w.trans sec write va with
    | .ok a => (install s d sec va w, .ok a)
    | t => (s, t)

end Sys2Proof.Machine
end

