-- ==== Sys2Proof/Machine/Barrier.lean ====
section
/-! DEFINITION. Arrivals on the barrier registers of a team, by groups, parts of split slots, copies and jobs (01 R31; 08 R218
to R223; 09 R236). -/

namespace Sys2Proof.Machine

open Sys2Proof

/-- The arrival is refused (08 R218): the expected count is 0, or arrived would pass 4,095. -/
def Bar.refuses (b : Bar) (w : Nat) : Bool := b.expected == 0 || decide (4095 < b.arrived.toNat + w)

/-- The phase completes: arrived back to 0, the phase bit inverted (01 R31). -/
def Bar.complete (b : Bar) : Bar := { b with arrived := 0, phase := !b.phase, partsIn := [] }

/-- The register has all the arrivals it expects; one that expects none completes no phase (08 R222). -/
def Bar.met (b : Bar) : Bool := b.expected != 0 && decide (b.expected.toNat ≤ b.arrived.toNat)

/-- An arrival of some weight that is not refused. -/
def Bar.add (b : Bar) (w : Nat) : Bar :=
  let b := { b with arrived := b.arrived + BitVec.ofNat 12 w }
  if b.met then b.complete else b

/-- A tracking register after a slot of some weight has retired (08 R222). -/
def Bar.retire (b : Bar) (w : Nat) : Bar :=
  if b.track then
    let b := { b with expected := b.expected - BitVec.ofNat 12 (min w b.expected.toNat) }
    if b.met then b.complete else b
  else b

/-- A lane is released by a phase bit that differs from the one it waits on (08 R219). -/
def LaneSt.release (n : Nat) (phase : Bool) : LaneSt → LaneSt
  | .phase m old pc bar => if m = n ∧ old ≠ phase then .run else .phase m old pc bar
  | st => st

/-- Release the waiters of a register in a group, those that a handler has taken from the wait included (08 R219; 09 R240). -/
def releaseIn (n : Nat) (phase : Bool) (g : Group) : Group :=
  { g with
    lanes := g.lanes.map fun l => { l with st := l.st.release n phase }
    ctxs := g.ctxs.map fun c => { c with snaps := c.snaps.map fun x => { x with st := x.st.release n phase } } }

namespace State

/-- A barrier register of a team. -/
def bar (s : State) (uid n : Nat) : Bar :=
  ((s.team? uid).bind fun t => t.bars[n]?).getD ⟨0, 0, false, true, []⟩

/-- Put a barrier register, and release its waiters when its phase bit has changed (01 R31). -/
def putBar (s : State) (uid n : Nat) (b : Bar) : State :=
  let old := (s.bar uid n).phase
  let s := s.modTeam uid fun t => { t with bars := setAt t.bars n b }
  if b.phase = old then s
  else { s with groups := s.groups.map fun g => if g.team = uid then releaseIn n b.phase g else g }

end State

/-- The parts of a split slot that still have a non-exited lane (01 R31). -/
def liveParts (s : State) (uid slot : Nat) : List Nat :=
  (s.groups.filter fun g => g.team == uid && g.key.slot == slot && !g.allExited).map (·.key.sub)

/-- The parts of a slot that have arrived on a register in this phase. -/
def Bar.partsOf (b : Bar) (slot : Nat) : List Nat := (b.partsIn.filter fun p => p.1 == slot).map (·.2)

/-- The slot counts: every part with a non-exited lane has arrived, and there is one (01 R31). -/
def slotCounts (s : State) (uid slot : Nat) (b : Bar) : Bool :=
  let live := liveParts s uid slot
  live != [] && live.all fun p => (b.partsOf slot).contains p

/-- Count a split slot whose parts have all arrived; `none` when the arrival is refused. -/
def countSlot (slot : Nat) (b : Bar) : Option Bar :=
  if b.refuses 1 then none else some (({ b with partsIn := b.partsIn.filter fun p => p.1 != slot } : Bar).add 1)

/-- The register after a group's arrival (01 R31; 08 R218): `none` when it is refused. -/
def afterArrival (s : State) (g : Group) (b : Bar) : Option Bar :=
  if g.parts ≤ 1 then (if b.refuses g.members then none else some (b.add g.members))
  else if b.expected = 0 then none
  else
    let b := { b with partsIn := (g.key.slot, g.key.sub) :: b.partsIn }
    if slotCounts s g.team g.key.slot b then countSlot g.key.slot b else some b

/-- The lanes that wait for their group to arrive on a register. -/
def arriving (g : Group) (n : Nat) : Mask :=
  maskOf g.width fun t => match (g.lane t).st with
    | .arrive m _ _ _ => m == n
    | _ => false

/-- Every non-exited lane has executed BAR or BARA on the register (08 R218). -/
def hasArrived (g : Group) (n : Nat) : Bool := arriving g n != 0#128 && arriving g n == g.present

/-- A lane once its group has arrived: BAR waits for the phase, BARA goes on (08 R219). -/
def LaneSt.arrived (n : Nat) (phase : Bool) : LaneSt → LaneSt
  | .arrive m wait d pc => if m = n then (if wait then .phase n phase pc true else .run) else .arrive m wait d pc
  | st => st

/-- The scalars that BARA lanes of an arrival name. -/
def arriveDests (g : Group) (n : Nat) : List Nat :=
  (List.range g.width).filterMap fun t => match (g.lane t).st with
    | .arrive m _ d _ => if m = n then d else none
    | _ => none

/-- The group once it has arrived in a phase: BARA's D receives it (08 R219). -/
def afterArrive (g : Group) (n : Nat) (phase : Bool) : Group :=
  let g1 := (arriveDests g n).foldl (fun g d => g.setSreg d (if phase then 1 else 0)) g
  { g1 with lanes := g1.lanes.map fun l => { l with st := l.st.arrived n phase } }

/-- The instruction word's OP and address of the lowest lane that waits for an arrival. -/
def arriveSite (g : Group) (n : Nat) : Word × Nat :=
  match lowest g.width (arriving g n) with
  | some t => match (g.lane t).st with
    | .arrive _ wait _ pc => (word pc, if wait then 0x51 else 0x53)
    | _ => (0, 0x51)
  | none => (0, 0x51)

/-- RANGE of a refused arrival, performed by the lanes that wait for it (08 R218). p0 is the register's number, as for a copy
(09 R236). DESIGN CHOICE (notes/assumptions/50.md): the record carries the CSN that the group has when the arrival is refused. -/
def refusal (g : Group) (n : Nat) : Perf :=
  let site := arriveSite g n
  { eff := 0x103, kind := .none, pc := site.1, csn := g.it.csn, p0 := word n, p1 := word site.2, p2 := 0, p3 := 0
    lanes := arriving g n, src := .none, mark := none }

/-- The lanes of a group whose BAR has arrived on a register and that wait for its phase. -/
def phasing (g : Group) (n : Nat) : Mask :=
  maskOf g.width fun t => match (g.lane t).st with
    | .phase m _ _ bar => bar && m == n
    | _ => false

/-- RANGE of the BAR lanes of a part whose slot's arrival is refused when another part arrives or exits (08 R218). -/
def partRefusal (g : Group) (n : Nat) : Perf :=
  let pc := match lowest g.width (phasing g n) with
    | some t => match (g.lane t).st with
      | .phase _ _ pc _ => word pc
      | _ => 0
    | none => 0
  { eff := 0x103, kind := .none, pc := pc, csn := g.it.csn, p0 := word n, p1 := 0x51, p2 := 0, p3 := 0
    lanes := phasing g n, src := .none, mark := none }

/-- The lanes of a slot's parts that wait for an arrival on a register go on, and perform RANGE: the slot's arrival is refused (08
R218). The parts that have arrived are forgotten. -/
def refuseParts (s : State) (uid slot n : Nat) : State × List (GKey × Perf) :=
  let b := s.bar uid n
  let s := s.putBar uid n { b with partsIn := b.partsIn.filter fun p => p.1 != slot }
  let hit := s.groups.filter fun g => g.team == uid && g.key.slot == slot && (b.partsOf slot).contains g.key.sub &&
    phasing g n != 0#128
  (hit.foldl (fun s g => s.setGroup (g.modLanes (phasing g n) fun l => { l with st := .run })) s,
   hit.map fun g => (g.key, partRefusal g n))

/-- A group's arrival on a register, with the release of its earlier accesses (08 R218, R220): the state, and what a refused
arrival performs, by the group's own lanes and by the other parts of its slot. -/
def groupArrives (s : State) (k : GKey) (n : Nat) : State × List (GKey × Perf) :=
  let s := dueAll (drainAll s k) k.core
  match s.group? k with
  | none => (s, [])
  | some g =>
    let b := s.bar g.team n
    match afterArrival s g b with
    | some b1 =>
      let s := s.setGroup (afterArrive g n b.phase)
      (s.putBar g.team n b1, [])
    | none =>
      let s := s.setGroup { g with lanes := g.lanes.map fun l =>
        { l with st := match l.st with
          | .arrive m w d pc => if m = n then LaneSt.run else .arrive m w d pc
          | st => st } }
      let r := if g.parts ≤ 1 then (s, []) else refuseParts s g.team k.slot n
      (r.1, (k, refusal g n) :: r.2)

/-- The exit of a part's last lanes lets a slot count whose other parts have arrived (01 R31). A refused arrival adds
nothing, and is performed by the lanes that still wait for it. -/
def partExited (s : State) (uid slot : Nat) : State × List (GKey × Perf) :=
  (List.range 16).foldl (fun sp n =>
    let b := sp.1.bar uid n
    if b.partsOf slot != [] && slotCounts sp.1 uid slot b then
      match countSlot slot b with
      | some b1 => (sp.1.putBar uid n b1, sp.2)
      | none =>
        let r := refuseParts sp.1 uid slot n
        (r.1, sp.2 ++ r.2)
    else sp) (s, [])

/-- The arrival of a copy or job (09 R236, R249): held for a saved team (08 R222), one arrival on a resident one. A refused
arrival is performed late by the issuer. -/
def engineArrives (s : State) (uid n corr : Nat) (k : GKey) (own : Own) (p : Perf) : State :=
  match s.team? uid with
  | some _ =>
    let b := s.bar uid n
    if b.refuses 1 then addLate s k own corr p else s.putBar uid n (b.add 1)
  | none =>
    s.modGrid corr fun gr => { gr with saved := gr.saved.map fun t =>
      if t.team.uid == uid then { t with team := { t.team with held := t.team.held ++ [⟨n, some p, k⟩] } } else t }

/-- A lane of the team waits on the register (08 R221). -/
def barWaits (s : State) (uid n : Nat) : Bool :=
  s.groups.any fun g => g.team == uid && g.lanes.any fun l => match l.st with
    | .arrive m _ _ _ => m == n
    | .phase m _ _ _ => m == n
    | _ => false

end Sys2Proof.Machine
end

