-- ==== Sys2Proof/Machine/Lineage.lean ====
section
/-! DEFINITION. Claims of halves and banks, lineage tags and derivations (01 R32, R33; 10 R260 to R262, R270 to R273; 24
R425). -/

namespace Sys2Proof.Machine

open Sys2Proof

/-- Two tiles share a bank. -/
def Tile.meets (a b : Tile) : Bool := decide (a.base < b.base + b.n) && decide (b.base < a.base + a.n)

/-- The banks of a tile. -/
def Tile.banks (t : Tile) : List Nat := (List.range t.n).map (t.base + ·)

/-- The tag has not settled (01 R32). -/
def LTag.unsettled (t : LTag) : Bool := t.st == .opened || t.st == .sealed

namespace Core

/-- A tag of the core. -/
def tag (c : Core) (i : Nat) : LTag := c.tags.getD i LTag.reset

/-- Change a tag. -/
def modTag (c : Core) (i : Nat) (f : LTag → LTag) : Core := { c with tags := modAt c.tags i f }

/-- The unsettled tags a tile carries: published over one of its banks, or inherited by a derivation into one of them
(10 R271). -/
def carried (c : Core) (t : Tile) : List Nat :=
  (List.range 16).filter fun i =>
    (c.tag i).unsettled &&
    ((c.tag i).tile.meets t || c.derivs.any fun d => d.tag == i && d.dst.meets t)

/-- One of the unsettled tags of the tile is Open and was published by the group (10 R271). -/
def openBy (c : Core) (o : Own) (t : Tile) : Bool :=
  (c.carried t).any fun i => (c.tag i).st == .opened && (c.tag i).pub == o

/-- The half is pinned: by a derivation that is to be made, or by one that was, until its tag settles (10 R271). -/
def pinned (c : Core) (h : Nat) : Bool :=
  (c.derivs.any fun d => match d.op with
    | .mmaa half _ _ _ => half == h
    | _ => false) || c.tags.any fun t => t.unsettled && t.pins.contains h

/-- The tag settles: its derivation entries are freed and their halves unpinned (10 R273). -/
def settleTag (c : Core) (i : Nat) : Core :=
  { (c.modTag i fun t => { t with st := .settled, pins := [] }) with derivs := c.derivs.filter fun d => d.tag != i }

/-- The tag still has applications owed (10 R272). -/
def owes (c : Core) (i : Nat) : Bool := c.apps.any fun a => a.tag == i

/-- A sealed tag with nothing owed settles (01 R32). -/
def settleSealed (c : Core) : Core :=
  (List.range 16).foldl (fun c i => if (c.tag i).st == .sealed && !c.owes i then c.settleTag i else c) c

/-- Seal a tag at its place in matrix order (10 R273). -/
def sealTag (c : Core) (i : Nat) : Core :=
  if (c.tag i).st == .opened then (c.modTag i fun t => { t with st := .sealed }).settleSealed else c

/-- The derivations of a tile end: it is rewritten without a tagged source, or its banks are released (10 R272). -/
def endDerivs (c : Core) (t : Tile) : Core :=
  { c with derivs := c.derivs.filter fun d => !(d.made && d.dst.meets t) }

/-- The owner of a half. -/
def halfOwner (c : Core) (h : Nat) : Option Own := (c.halves[h]?).getD none

/-- The claims of a bank. -/
def bank (c : Core) (b : Nat) : Bank := c.banks.getD b ⟨none, none⟩

/-- An owner is stale when its generation no longer matches its slot (01 R33). -/
def stale (c : Core) (o : Own) : Bool := (c.gens.getD o.slot 0).toNat != o.gen

/-- The group owns the half. -/
def ownsHalf (c : Core) (o : Own) (h : Nat) : Bool := c.halfOwner h == some o

/-- The group owns the bank. -/
def ownsBank (c : Core) (o : Own) (b : Nat) : Bool := (c.bank b).owner == some o

/-- The group owns the bank or holds its grant (10 R262). -/
def readsBank (c : Core) (o : Own) (b : Nat) : Bool := c.ownsBank o b || (c.bank b).grantee == some o

/-- A claim is free, the group's own, or stale (10 R260). -/
def claimable (c : Core) (o : Own) (owner : Option Own) : Bool :=
  match owner with
  | none => true
  | some x => x == o || c.stale x

end Core

/-- The stamp record of a bank at its release, written when STAMPON of the releasing group is 1 (24 R424, R425). -/
def stampOut (s : State) (core : Nat) (on : Bool) (b : Nat) : State :=
  match (s.core core).stamps.find? fun x => x.bank == b with
  | none => s
  | some st =>
    let s := s.modCore core fun c => { c with stamps := c.stamps.filter fun x => x.bank != b }
    if on then s.stampWrite (dieOf core) (st.words core s.ns) else s

/-- Some bank of a tile lies among these. -/
def Tile.among (t : Tile) (bs : List Nat) : Bool := t.banks.any fun b => bs.contains b

/-- Free banks with their grants; a settled tag over one of them becomes Free, derivations into them end (01 R32; 10 R262,
R273). -/
def freeBanks (s : State) (core : Nat) (on : Bool) (bs : List Nat) : State :=
  let s := bs.foldl (fun s b => stampOut s core on b) s
  s.modCore core fun c => { c with
    banks := c.banks.mapIdx fun i b => if bs.contains i then ⟨none, none⟩ else b
    tags := c.tags.map fun (t : LTag) => if t.st == .settled && t.tile.among bs then LTag.reset else t
    derivs := c.derivs.filter fun d => !d.dst.among bs }

/-- Free halves. -/
def freeHalves (s : State) (core : Nat) (hs : List Nat) : State :=
  s.modCore core fun c => { c with halves := c.halves.mapIdx fun i (h : Option Own) => (if hs.contains i then none else h) }

/-- The halves a group owns. -/
def halvesOf (s : State) (core : Nat) (o : Own) : List Nat :=
  (List.range 64).filter fun h => (s.core core).ownsHalf o h

/-- The banks a group owns. -/
def banksOf (s : State) (core : Nat) (o : Own) : List Nat :=
  (List.range 128).filter fun b => (s.core core).ownsBank o b

/-- Drop the grants a group has received (10 R261). -/
def dropGrants (s : State) (core : Nat) (o : Own) : State :=
  s.modCore core fun c => { c with banks := c.banks.map fun (b : Bank) =>
    (if b.grantee = some o then { b with grantee := none } else b) }

/-- The group holds a half, a bank or a grant (10 R262). -/
def holdsClaims (s : State) (core : Nat) (o : Own) : Bool :=
  halvesOf s core o != [] || banksOf s core o != [] || (s.core core).banks.any fun b => b.grantee == some o

end Sys2Proof.Machine
end

