-- ==== Sys2Proof/Machine/Engine.lean ====
section
/-! DEFINITION. Copies and jobs as the groups and the engines share them: lookup, the order of the task scheduler, completion,
abandonment and a handler's answer (09 R233 to R250; 18 R375, R378, R379). -/

namespace Sys2Proof.Machine

open Sys2Proof

namespace State

/-- A copy of a core. -/
def copy? (s : State) (core id : Nat) : Option Copy := (s.core core).copies.find? fun c => c.id == id

/-- Change a copy. -/
def modCopy (s : State) (core id : Nat) (f : Copy → Copy) : State :=
  s.modCore core fun c => { c with copies := c.copies.map fun x => if x.id == id then f x else x }

/-- Take a copy out of the queue. -/
def dropCopy (s : State) (core id : Nat) : State :=
  s.modCore core fun c => { c with copies := c.copies.filter fun x => x.id != id }

/-- A job of a die. -/
def job? (s : State) (die idx : Nat) : Option Job := (s.die die).jobs.find? fun j => j.idx == idx

/-- Change a job. -/
def modJob (s : State) (die idx : Nat) (f : Job → Job) : State :=
  s.modDie die fun d => { d with jobs := d.jobs.map fun x => if x.idx == idx then f x else x }

end State

/-- The job has completed (09 R249). -/
def Job.finished (j : Job) : Bool :=
  match j.st with
  | .done _ => true
  | _ => false

/-- The job has started. -/
def Job.started (j : Job) : Bool := j.st == .started

/-! ### Order among jobs and copies (09 R246) -/

/-- Two regions share a byte of one space. -/
def Region.meets (a b : Region) : Bool := a.space == b.space && decide (a.lo < b.hi) && decide (b.lo < a.hi)

/-- Some region of one list meets some region of the other. -/
def anyMeets (a b : List Region) : Bool := a.any fun x => b.any fun y => x.meets y

/-- An earlier entry holds a later one: RAW, WAW or WAR (09 R246). -/
def edge (reads writes laterReads laterWrites : List Region) : Bool :=
  anyMeets writes (laterReads ++ laterWrites) || anyMeets reads laterWrites

/-- An earlier entry of the grid on the die that has not completed holds this one (09 R246). -/
def edgeHeld (s : State) (die corr seq : Nat) (reads writes : List Region) : Bool :=
  ((s.die die).jobs.any fun j => j.corr == corr && decide (j.seq < seq) && !j.finished &&
    edge j.reads j.writes reads writes) ||
  ((List.range 48).any fun i => (s.core (die * 48 + i)).copies.any fun c =>
    c.corr == corr && decide (c.id < seq) && edge c.reads c.writes reads writes)

/-! ### Completion -/

/-- Add what was gathered for the blocks a copy or job has counted (18 R375). -/
def flushCounted (s : State) (die : Nat) (blocks : List Nat) : State :=
  if blocks.isEmpty then s
  else flushGather s die fun g => blocks.any fun b => decide (b * 64 / 65536 = g.va / 65536)

/-- RANGE of a refused arrival of a copy or job (09 R236). -/
def arrivalRange (n : Nat) (e : Eng) (op : Nat) : Perf :=
  (perfNone 0x103 e.pc e.csn (word n) (word op) 0).since e.mark

/-- The opcode a copy was issued by. -/
def Copy.opcode (c : Copy) : Nat :=
  match c.kind with
  | .plain => 0x59
  | .ring .. => 0x5C
  | .peer _ => 0x5D

/-- The team on whose register a copy arrives: the issuer's, or the target of a ring copy (09 R242). -/
def Copy.arriveTeam (c : Copy) : Nat :=
  match c.kind with
  | .ring _ t _ => t
  | _ => c.team

/-- A copy completes: its flags merge, its adds go home, it arrives, it leaves the queue (09 R233, R236, R239). -/
def completeCopy (s : State) (core id : Nat) : State :=
  match s.copy? core id with
  | none => s
  | some c =>
    let s := s.dropCopy core id
    let s := mergeLate s c.key c.own c.corr c.pc c.csn c.mark c.flags 0
    let s := flushCounted s (dieOf core) c.counted
    match c.arrive with
    | some n => engineArrives s c.arriveTeam n c.corr c.key c.own (arrivalRange n c.toEng c.opcode)
    | none => s

/-- A copy is abandoned: it counts as complete, its follow-on leaves the issuer's matrix order (09 R234, R241). -/
def abandonCopy (s : State) (core id : Nat) : State :=
  match s.copy? core id with
  | none => s
  | some c =>
    let s := match c.follow with
      | some e => s.modCore core fun x =>
          { x with mq := x.mq.filter fun m => m.id != e, derivs := x.derivs.filter fun d => d.entry != e }
      | none => s
    completeCopy s core id

/-- A job completes with a status (09 R249): its flags merge, its adds go home, it arrives. The entry stays until the
scheduler reuses it (01 R24); one of an implicit replay, which no handle names, goes. -/
def completeJob (s : State) (die idx status : Nat) : State :=
  match s.job? die idx with
  | none => s
  | some j =>
    if j.finished then s
    else
      let s := s.modJob die idx fun x => { x with st := .done status, susp := .none }
      let s := mergeLate s j.key j.own j.corr j.pc j.csn j.mark j.flags j.ff
      let s := flushCounted s die j.counted
      let s := match j.arrive with
        | some n => engineArrives s j.team n j.corr j.key j.own (arrivalRange n j.toEng 0x5E)
        | none => s
      if idx < 1024 then s else s.modDie die fun d => { d with jobs := d.jobs.filter fun x => x.idx != idx }

/-- The job leaves the walker of a core: an abort ends its run (12 R308). -/
def dropWalker (s : State) (die idx : Nat) : State :=
  { s with cores := s.cores.mapIdx fun i c =>
      if dieOf i == die && (c.walker.map (·.job)) == some idx then { c with walker := none } else c }

/-! ### A handler's answer (09 R241; 18 R378, R379) -/

/-- What a handler's end asks of an engine. -/
inductive Answer where | retry | skip | patch | abort
deriving DecidableEq, Repr

/-- The engine operation after an answer other than abort to an effect (09 R241; 18 R378): .retry of WRITEBLOCK holds the write
for one more hold time; the others take a failing operation on, past the range that a skip or patch names. -/
def Eng.answer (e : Eng) (eff : BitVec 11) (a : Answer) : Eng :=
  match e.susp with
  | .held va _ => if eff = 0x110#11 then { e with susp := .held va false } else e
  | .effect b n =>
    if eff = 0x110#11 then e
    else { e with susp := .none, skips := match a with
      | .skip => e.skips ++ [⟨b, n, false⟩]
      | .patch => e.skips ++ [⟨b, n, true⟩]
      | _ => e.skips }
  | _ => e

/-- The copy stands at the signal add of a CPYP, all data done (09 R243). -/
def Copy.atSignal (c : Copy) : Bool :=
  match c.kind with
  | .peer (some _) => decide (c.nx * c.ny ≤ c.at_)
  | _ => false

/-- Answer a copy. At the signal add, skip and patch let the copy complete without it (09 R243). -/
def answerCopy (s : State) (core id : Nat) (eff : BitVec 11) (a : Answer) : State :=
  match s.copy? core id with
  | none => s
  | some c =>
    if a = .abort then abandonCopy s core id
    else if (a = .skip ∨ a = .patch) ∧ c.atSignal then completeCopy s core id
    else s.modCopy core id fun x => { x with toEng := x.toEng.answer eff a }

/-- Answer a job (18 R378; 09 R249: status 6 where the handler aborted). -/
def answerJob (s : State) (die idx : Nat) (eff : BitVec 11) (a : Answer) : State :=
  match a with
  | .abort => completeJob (dropWalker s die idx) die idx 6
  | _ => s.modJob die idx fun x => { x with toEng := x.toEng.answer eff a }

/-- Answer an engine. -/
def answerEngine (s : State) (r : EngRef) (eff : BitVec 11) (a : Answer) : State :=
  match r with
  | .copy core id => answerCopy s core id eff a
  | .job die idx => answerJob s die idx eff a

/-! ### One engine operation by its name -/

/-- What a copy or job shares with the others. -/
def State.eng? (s : State) (r : EngRef) : Option Eng :=
  match r with
  | .copy core id => (s.copy? core id).map (·.toEng)
  | .job die idx => (s.job? die idx).map (·.toEng)

/-- Change it. -/
def State.modEng (s : State) (r : EngRef) (f : Eng → Eng) : State :=
  match r with
  | .copy core id => s.modCopy core id fun x => { x with toEng := f x.toEng }
  | .job die idx => s.modJob die idx fun x => { x with toEng := f x.toEng }

/-- The die of an engine operation. -/
def EngRef.die : Sys2Proof.EngRef → Nat
  | .copy core _ => dieOf core
  | .job die _ => die

/-! ### Places in bin buffers (09 R252) -/

/-- Take out of a die's streams of a launch the places that refused elements of a BINA keep, for some threads. -/
def dropPlaces (s : State) (die corr : Nat) (k : GKey) (csn : Word) (m : Mask) : State :=
  s.modDie die fun d => { d with streams := d.streams.map fun (x : Stream) =>
    (if x.corr = corr then { x with els := x.els.filter fun e => e.live || e.key != k || e.csn != csn || !has m e.thread }
     else x) }

/-! ### What a group still has in flight -/

/-- A copy the group issued has not completed. -/
def hasCopies (s : State) (k : GKey) (o : Own) : Bool :=
  (s.core k.core).copies.any fun c => c.key == k && c.own == o

/-- A matrix entry or owed application of the group has not finished. -/
def hasEntries (s : State) (k : GKey) (o : Own) : Bool :=
  let c := s.core k.core
  (c.mq.any fun e => e.own == o) || (c.running.any fun r => r.entry.own == o) || (c.apps.any fun a => a.entry.own == o)

/-- A correction is owed for a tile the group published (01 R40). -/
def owesPublished (s : State) (k : GKey) (o : Own) : Bool :=
  let c := s.core k.core
  c.apps.any fun a => (c.tag a.tag).pub == o

/-- The batch is among those a WAITB of `n` waits for (09 R238). -/
def inBatches (n b : Word) : Bool := decide ((n - b).toNat < 2 ^ 31)

/-- Some batch that a WAITB of `n` waits for is incomplete (09 R237, R238; 10 R279). -/
def batchesOpen (s : State) (k : GKey) (o : Own) (n : Word) : Bool :=
  let c := s.core k.core
  (c.copies.any fun x => x.key == k && x.own == o && inBatches n x.batch) ||
  (c.mq.any fun e => e.own == o && (e.batch.map (inBatches n)).getD false) ||
  (c.running.any fun r => r.entry.own == o && (r.entry.batch.map (inBatches n)).getD false)

/-- The job a handle names; `none` when the handle is stale (01 R24, R25). -/
def jobOf (s : State) (h : DWord) : Option Job :=
  if h.getLsbD 63 && decide ((h.extractLsb' 60 3).toNat ≤ 5) then
    (s.job? (h.extractLsb' 58 2).toNat (h.extractLsb' 48 10).toNat).bind fun j =>
      if j.gen == h.extractLsb' 32 16 then some j else none
  else none

/-- The die a handle names (01 R24). -/
def dieOfHandle (h : DWord) : Nat := (h.extractLsb' 58 2).toNat

end Sys2Proof.Machine
end

