-- ==== Sys2Proof/Machine/Boxes.lean ====
section
/-! DEFINITION. Where the elements of a copy lie: element positions of a layout record, the rows of a box in extent, the
halves and banks it touches (09 R228 to R232, R246). -/

namespace Sys2Proof.Machine

open Sys2Proof

namespace Layout

/-- The element format of a record; code 0x00 has none (09 R228). -/
def elem (l : Layout) : Option Elem := tagElem l.fmt

/-- The bits an element of the record takes (09 R228). -/
def bits (l : Layout) : Nat :=
  match l.elem with
  | some e => e.width
  | none => 8 * 2 ^ l.esize

/-- The first byte of row (y, z) (09 R228). -/
def row (l : Layout) (y z : Nat) : Nat := l.base + y * l.str1 + z * l.str2

/-- The byte that element (x, y, z) starts in (09 R228). -/
def at_ (l : Layout) (x y z : Nat) : Nat := l.row y z + x * l.bits / 8

/-- The bytes that elements x0 to x1 − 1 of a row take. -/
def span (l : Layout) (x0 x1 y z : Nat) : Nat × Nat := (l.at_ x0 y z, l.row y z + (x1 * l.bits + 7) / 8)

/-- The coordinates lie within the extents. -/
def inside (l : Layout) (x y z : Int) : Bool :=
  decide (0 ≤ x) && decide (x < (l.ext0 : Int)) && decide (0 ≤ y) && decide (y < (l.ext1 : Int)) &&
  decide (0 ≤ z) && decide (z < (l.ext2 : Int))

end Layout

namespace Move

/-- Box element (i, j) is written: its destination coordinates lie within the extents (09 R230). -/
def written (c : Move) (i j : Nat) : Bool := c.dst.inside (c.c4 + i) (c.c5 + j) c.c3d

/-- Box element (i, j) is read: it is written, and its source coordinates lie within the extents (09 R230). -/
def isRead (c : Move) (i j : Nat) : Bool := c.written i j && c.src.inside (c.c1 + i) (c.c2 + j) c.c3s

/-- The columns of a box row that are written: from, to (09 R230). -/
def writeCols (c : Move) (j : Nat) : Nat × Nat :=
  if (0 ≤ c.c5 + j ∧ c.c5 + j < c.dst.ext1 ∧ 0 ≤ c.c3d ∧ c.c3d < c.dst.ext2) then
    ((-c.c4).toNat, min c.nx (c.dst.ext0 - c.c4).toNat)
  else (0, 0)

/-- The columns of a box row that are read. -/
def readCols (c : Move) (j : Nat) : Nat × Nat :=
  if (0 ≤ c.c2 + j ∧ c.c2 + j < c.src.ext1 ∧ 0 ≤ c.c3s ∧ c.c3s < c.src.ext2) then
    (max (c.writeCols j).1 (-c.c1).toNat, min (c.writeCols j).2 (c.src.ext0 - c.c1).toNat)
  else (0, 0)

/-- The destination bytes of a box row, if any. -/
def writeSpan (c : Move) (j : Nat) : Option (Nat × Nat) :=
  let r := c.writeCols j
  if r.1 < r.2 then
    some (c.dst.span (c.c4 + r.1).toNat (c.c4 + r.2).toNat (c.c5 + j).toNat c.c3d.toNat)
  else none

/-- The source bytes of a box row, if any. -/
def readSpan (c : Move) (j : Nat) : Option (Nat × Nat) :=
  let r := c.readCols j
  if r.1 < r.2 then
    some (c.src.span (c.c1 + r.1).toNat (c.c1 + r.2).toNat (c.c2 + j).toNat c.c3s.toNat)
  else none

/-- The destination bytes the copy writes, row by row (09 R232). -/
def writeSpans (c : Move) : List (Nat × Nat) := (List.range c.ny).filterMap c.writeSpan

/-- The source bytes the copy reads, row by row (09 R232). -/
def readSpans (c : Move) : List (Nat × Nat) := (List.range c.ny).filterMap c.readSpan

end Move

/-- The 8 KiB units that some spans touch: halves of operand memory, banks of accumulator memory. -/
def unitsOf (l : List (Nat × Nat)) : List Nat :=
  (l.flatMap fun p => (List.range ((p.2 - 1) / 8192 + 1 - p.1 / 8192)).map (p.1 / 8192 + ·)).eraseDups

/-- The operand halves a copy writes (09 R231). -/
def Copy.halves (c : Copy) : List Nat := if c.dst.space = 3 then unitsOf c.toMove.writeSpans else []

/-- The accumulator banks a copy reads (09 R231). -/
def Copy.banks (c : Copy) : List Nat := if c.src.space = 4 then unitsOf c.toMove.readSpans else []

/-- The range from the lowest to the highest byte of some spans, as a region of a space (09 R246). -/
def regionOfSpans (space : Nat) (l : List (Nat × Nat)) : List Region :=
  match l with
  | [] => []
  | p :: ps => [ps.foldl (fun r q => { r with lo := min r.lo q.1, hi := max r.hi q.2 }) ⟨space, p.1, p.2⟩]

end Sys2Proof.Machine
end

