-- ==== Sys2Proof/Machine/Elements.lean ====
section
/-! DEFINITION. The elements a copy moves: reading through block tags, moving or converting, packing (09 R228, R230; 04 R98 to
R103, R114 to R116). -/

namespace Sys2Proof.Machine

open Sys2Proof

/-- A scale byte as an exponent (04 R102). -/
def scaleExp (b : Nat) : Int := if b < 128 then (b : Int) else (b : Int) - 256

/-- A source element as read (09 R230): raw bits; a decoded element with its scale, `quiet` where it contributes no flag; the
+0 of a format beyond the block's count. -/
inductive Got where
  | raw (bits : Nat)
  | elem (el : Elem) (bits sc : Nat) (quiet : Bool)
  | zero (el : Elem)
deriving DecidableEq, Repr

/-- The `w` bits from a bit position on, of bytes given by a function. -/
def bitsAt (f : Nat → Byte) (bit w : Nat) : Nat :=
  let b0 := bit / 8
  leNat ((List.range ((bit % 8 + w + 7) / 8)).map fun i => f (b0 + i)) / 2 ^ (bit % 8) % 2 ^ w

namespace Move

/-- Both records are raw: bytes move undecoded (09 R230). -/
def rawBoth (m : Move) : Bool := m.src.fmt == 0 && m.dst.fmt == 0

/-- The source format; a raw side takes the other's (09 R230). -/
def srcElem (m : Move) : Option Elem := m.src.elem.orElse fun _ => m.dst.elem

/-- The destination format. -/
def dstElem (m : Move) : Option Elem := m.dst.elem.orElse fun _ => m.src.elem

/-- The element's number in its tagged block (09 R230): its byte offset over the record's element size. -/
def number (m : Move) (a sub : Nat) : Nat := (a % 64 * 8 + sub) / m.src.bits

/-- The element at a flat address, `sub` bits into its byte, with its memory's tag (09 R230): `none` for an illegal code. -/
def element (m : Move) (f : Nat → Byte) (tag : Nat) (a sub : Nat) : Option Got :=
  let here := bitsAt f (a * 8 + sub) m.src.bits
  match m.srcElem with
  | none => some (.raw here)
  | some el =>
    let code := tag % 256
    if !m.src.rtags || untagged a || code == 0 then some (.elem el here 0 false)
    else match tagElem code with
      | none => none
      | some t =>
        let k := m.number a sub
        if blockCount t ≤ k then some (.zero t)
        else some (.elem t (bitsAt f (a / 64 * 64 * 8 + k * t.width) t.width) (tag / 256) false)

/-- The value outside the source's extents or in a skipped page, in the source format with scale 0 (09 R230, R241). -/
def filled (m : Move) (w : Word) : Got :=
  let bits := w.toNat % 2 ^ m.src.bits
  match m.srcElem with
  | none => .raw bits
  | some el => .elem el bits 0 true

/-- The destination scale: 0 without write-tags (09 R230). -/
def dstScale (m : Move) : Nat := if m.dst.wtags then m.dst.scale.toNat else 0

/-- The destination bits and the flags of an element (09 R230). -/
def converted (m : Move) (g : Got) : Nat × Fl :=
  match g, m.dstElem with
  | .raw b, _ => (b, 0#7)
  | .zero _, some d => ((convert .rne m.dst.sat d (.fin false 0 0)).1, 0#7)
  | .elem el b sc quiet, some d =>
    if el = d ∧ sc = m.dstScale then (b, 0#7)
    else
      let v := if sc = 128 then Val.nan false .scale else (el.decode b).scale (scaleExp sc - scaleExp m.dstScale)
      let r := convert .rne m.dst.sat d v
      (r.1, if quiet then 0#7 else r.2 ||| Fl.when el.recognised Fl.subst)
  | .zero _, none => (0, 0#7)
  | .elem _ b _ _, none => (b, 0#7)

/-- The cells an element of the destination record takes at a flat address, `sub` bits into its byte. `old` gives the byte
there, of which a 4-bit element keeps the other half (04 R98). -/
def cells (m : Move) (old : Nat → Byte) (a sub v : Nat) : List (Nat × Byte) :=
  if m.dst.bits < 8 then
    let o := (old a).toNat
    [(a, BitVec.ofNat 8 (if sub = 0 then o / 16 * 16 + v % 16 else o % 16 + v % 16 * 16))]
  else valueAt a (m.dst.bits / 8) v

/-- Box column and row of a box element (09 R233: dim 0 fastest). -/
def col (m : Move) (n : Nat) : Nat := n % m.nx

/-- The row. -/
def rowOf (m : Move) (n : Nat) : Nat := n / m.nx

/-- The number of box elements. -/
def size (m : Move) : Nat := m.nx * m.ny

/-- The source coordinates of a box element. -/
def srcAt (m : Move) (n : Nat) : Int × Int × Int := (m.c1 + m.col n, m.c2 + m.rowOf n, m.c3s)

/-- The destination coordinates of a box element. -/
def dstAt (m : Move) (n : Nat) : Int × Int × Int := (m.c4 + m.col n, m.c5 + m.rowOf n, m.c3d)

/-- The byte of its space, and the bit in it, at which the source of a box element starts. -/
def srcByte (m : Move) (n : Nat) : Nat × Nat :=
  let p := m.srcAt n
  (m.src.at_ p.1.toNat p.2.1.toNat p.2.2.toNat, p.1.toNat * m.src.bits % 8)

/-- The byte of its space, and the bit in it, at which the destination of a box element starts. -/
def dstByte (m : Move) (n : Nat) : Nat × Nat :=
  let p := m.dstAt n
  (m.dst.at_ p.1.toNat p.2.1.toNat p.2.2.toNat, p.1.toNat * m.dst.bits % 8)

end Move

end Sys2Proof.Machine
end

