-- ==== Sys2Proof/Machine/Busy.lean ====
section
/-! DEFINITION. What stands in flight on halves and banks (10 R262, R271; 12 R309; 01 R40). -/

namespace Sys2Proof.Machine

open Sys2Proof

/-- The numbers of a range. -/
def numbers (r : Nat × Nat) : List Nat := (List.range r.2).map (r.1 + ·)

/-- The bytes an element of an OST target takes (10 R278). -/
def OstFmt.bytes : Sys2Proof.OstFmt → Nat
  | .bf16 => 2
  | .f16 => 2
  | _ => 1

/-- The operand halves an entry names. -/
def MOp.halves : MOp → List Nat
  | .mma _ slot _ _ half _ _ => [2 * slot, 2 * slot + 1, half]
  | .mmaa _ _ _ _ half _ => [half]
  | .mmsp _ v i half _ _ => [2 * v, 2 * v + 1, 2 * i, 2 * i + 1, half]
  | .old _ f c _ => numbers (f, c)
  | .sltg f c _ => numbers (f, c)
  | .ost t fmt _ _ dst =>
    if regionOf dst = 9 then numbers (dst % 2 ^ 19 / 8192, (t.n * 2048 * OstFmt.bytes fmt + 8191) / 8192) else []
  | _ => []

/-- The tiles a derivation reads (10 R272). -/
def DerivOp.sources : DerivOp → List Tile
  | .mmaa _ _ _ a => [a]
  | .add a b => [a, b]
  | .sub a b => [a, b]
  | .scale a _ => [a]
  | .copy a => [a]
  | .transpose a => [a]

/-- The tile an entry writes or publishes. -/
def MOp.target : MOp → Option Tile
  | .mma d .. => some d
  | .mmaa d .. => some d
  | .mmsp d .. => some d
  | .publ t _ => some t
  | .seal t _ => some t
  | .afil t _ => some t
  | .alin _ d => some d
  | _ => none

/-- The tiles an entry reads besides the one it writes. -/
def MOp.sources : MOp → List Tile
  | .mmaa _ a .. => [a]
  | .alin op _ => op.sources
  | .ast t .. => [t]
  | .ost t .. => [t]
  | _ => []

/-- The entry touches a bank. -/
def MOp.usesBank (o : MOp) (b : Nat) : Bool := (o.target.toList ++ o.sources).any fun t => t.banks.contains b

/-- The entries of a core that have not finished. -/
def Core.entries (c : Core) : List MEntry := c.mq ++ (c.running.map (·.entry)).toList

/-- An operation queued or in flight touches the half (10 R262, R271; 12 R309). -/
def Core.halfBusy (c : Core) (h : Nat) : Bool :=
  (c.entries.any fun e => e.op.halves.contains h) || (c.copies.any fun y => y.halves.contains h) || c.pinned h ||
  ((c.walker.bind (·.target)).map fun t => decide (t.1 ≤ h) && decide (h < t.1 + t.2.1)).getD false

/-- An operation queued or in flight touches the bank (10 R262): entries, copies, applications, drains not yet read. -/
def bankBusy (s : State) (core b : Nat) : Bool :=
  let c := s.core core
  (c.entries.any fun e => e.op.usesBank b) || (c.copies.any fun y => y.banks.contains b) ||
  (c.apps.any fun a => c.derivs.any fun d => d.uid == a.deriv && d.dst.banks.contains b) ||
  s.groups.any fun g => g.key.core == core && g.pend.any fun p => match p.await with
    | .drain bank _ _ _ => bank == b
    | _ => false

/-- The tags of the tiles a group published (01 R40). -/
def publishedTags (c : Core) (o : Own) : List Nat := (List.range 16).filter fun i => (c.tag i).st != .free && (c.tag i).pub == o

/-- A tile the group published may not be released yet: it carries an unsettled tag, or an operation of the core is queued or in
flight on a bank of it (01 R40 step 3; 10 R262, R271). -/
def releaseHeld (s : State) (core : Nat) (o : Own) : Bool :=
  let c := s.core core
  (publishedTags c o).any fun i => c.carried (c.tag i).tile != [] || (c.tag i).tile.banks.any (bankBusy s core)

end Sys2Proof.Machine
end

