-- ==== Sys2Proof/Machine/Ops.lean ====
section
/-! DEFINITION. The shared operations of a group: performing an effect and entering its handler (11 R284 to R286), the return
by RSUM (R289), abort (R291), the end of an invocation (R292); what follows when lanes exit, return, pop or arrive (05 R125,
R126; 08 R218; 11 R283); retirement (01 R40, R41); and the issue of one word (03 R73, R91; 05 R117 to R119, R129). -/

namespace Sys2Proof.Machine

open Sys2Proof

/-! ### The hardware area (01 R35, R36) -/

namespace Group

/-- The size of the group's part of the hardware area. -/
def hwSize (g : Group) : Nat := 8192 / g.partOf.2

/-- Its first byte. -/
def hwBase (g : Group) : Nat := slotArea g.key.core g.key.slot + 0x6000 + g.partOf.1 * g.hwSize

/-- Where the call-stack entry of a height stands (05 R124). -/
def callSlot (g : Group) (h : Nat) : Nat := g.hwBase + 8 * (h - 1)

/-- Where the spilled record of a depth above 16 stands (01 R27, R35). -/
def spillSlot (g : Group) (d : Nat) : Nat := g.hwBase + g.hwSize - 32 * (d - 16)

/-- A call stack and a handler stack of these heights would meet (01 R35, R36). -/
def wouldMeet (g : Group) (calls frames : Nat) : Bool := decide (g.hwSize < 8 * calls + 32 * (frames - 16))

/-- Where the effect record of a depth stands (01 R36; 11 R286). -/
def recordSlot (g : Group) (d : Nat) : Nat :=
  slotArea g.key.core g.key.slot + 0x6000 - 32 * (g.partOf.2 * (d - 1) + g.partOf.1 + 1)

/-- The sub-slot as tokens and records name it (01 R26). -/
def subName (g : Group) : Nat := if g.parts ≤ 1 then 0 else g.key.sub

end Group

/-- The record of a spilled frame (01 R27). -/
def Frame.words (f : Frame) (d : Nat) : List Word :=
  [f.handler, f.landing, word ((if f.running then 2 ^ 31 else 0) + f.mask.toNat * 2 ^ 11 + f.id.toNat), word (d * 2 ^ 24)] ++
  (List.range 4).map fun i => (f.lanes >>> (32 * i)).setWidth 32

/-- Write the records of the spilled frames of a group as they now stand (01 R27). -/
def spill (s : State) (k : GKey) : State :=
  match s.group? k with
  | none => s
  | some g =>
    (g.it.frames.zipIdx.take (g.depth - 16)).foldl (fun s p =>
      s.store (cellsAt (g.spillSlot (g.depth - p.2)) (wordBytes (p.1.words (g.depth - p.2))))) s

/-! ### Resolving and entering (11 R284, R285) -/

/-- The frame matches the effect (01 R27). -/
def Frame.takes (f : Frame) (e : BitVec 11) : Bool := (e &&& f.mask) == (f.id &&& f.mask)

/-- The frame is masked for a lane (11 R284 step 2). -/
def Group.masked (g : Group) (f : Frame) (t : Nat) : Bool :=
  f.running || (g.ctxs.any fun c => !c.ended && c.above.contains f.uid) || !has f.lanes t

/-- The lane's frame for an effect, searched from the top (11 R284). -/
def Group.findFrame (g : Group) (e : BitVec 11) (t : Nat) : Option Frame :=
  g.it.frames.find? fun f => !g.masked f t && f.takes e

/-- The highest frame that some lane of a set finds (11 R284). -/
def Group.topFrame (g : Group) (e : BitVec 11) (m : Mask) : Option Frame :=
  g.it.frames.find? fun f => (lanesOf g.width m).any fun t => g.findFrame e t == some f

/-- The token of an invocation (01 R26). -/
def tokenWord (kind : TokKind) (depth slot sub : Nat) (gen : BitVec 12) : Word :=
  word (kind.code * 2 ^ 30 + depth % 256 * 2 ^ 22 + slot * 2 ^ 14 + sub * 2 ^ 12 + gen.toNat)

/-- The grid of a group. -/
def corrOf (s : State) (g : Group) : Nat := ((s.team? g.team).map (·.corr)).getD 0

/-- Lanes leave the active set of the clause in progress (05 R118). -/
def Group.leave (g : Group) (m : Mask) : Group :=
  match g.cur with
  | none => g
  | some i =>
    let a := i.active &&& ~~~m
    { g with cur := if a = 0#128 then none else some { i with active := a } }

/-- The innermost running invocation that holds lanes of a set (11 R288, R295). -/
def innermost (g : Group) (m : Mask) : Option Ctx :=
  (g.running.filter fun c => c.left &&& m != 0#128).getLast?

/-- Its number, 0 for none: what frames and loops keep of the invocation they were made in (05 R132; 11 R292). -/
def Group.invOf (g : Group) (m : Mask) : Nat := ((innermost g m).map (·.uid)).getD 0

/-- The loop whose rules hold for lanes at an address: one of the invocation that holds them, or of none. Lanes that a handler has
given back stand in the body as before (05 R129, R132). -/
def Group.activeLoop (g : Group) (m : Mask) (addr : Nat) : Option Loop :=
  g.loop.bind fun l => if l.inv = g.invOf m ∧ l.start ≤ addr ∧ addr < l.stop then some l else none

/-- Change a frame of the stack. -/
def Group.modFrame (g : Group) (uid : Nat) (f : Frame → Frame) : Group :=
  { g with it := { g.it with frames := g.it.frames.map fun x => if x.uid == uid then f x else x } }

/-- Enter an invocation of a frame for a lane part, those of the effect (11 R285, R286; 24 R420). `loop0` is the loop state at
the launch site, `rest` what waits for the invocation's end. -/
def enter (s : State) (k : GKey) (loop0 : Option Loop) (f : Frame) (p : Perf) (rest : List Perf) : State :=
  match s.group? k with
  | none => s
  | some g =>
    let q := p.lanes
    let m := p.mark.getD (s.markNow g)
    let d := ((g.frame? f.uid).map (·.2)).getD 0
    let ctx : Ctx :=
      { uid := s.nextId, frame := f.uid, perf := p, q := q, left := q
        snaps := g.lanes.map fun l => ⟨l.pos, l.st, l.depth⟩
        token := true, k0 := g.token 0, callHt := g.it.callHt
        above := (g.it.frames.takeWhile fun x => x.uid != f.uid).map (·.uid)
        ended := false, loop := loop0, rest := rest
        clause := g.cur.map fun i => (i.cl, i.active) }
    let rec_ : QEntry :=
      { id := s.nextId + 1, op := .bytes (cellsAt (g.recordSlot d) (wordBytes (p.record q)))
        pend := none, dst := .none, space := 2, base := 0, pc := p.pc, csn := p.csn, mark := m }
    let g := (g.setToken 0 (tokenWord p.kind d g.key.slot g.subName (s.gen k.core k.slot)))
    let g := { g with ctxs := g.ctxs ++ [ctx], queue := g.queue ++ [rec_], cur := none }
    let g := g.modFrame f.uid fun x => { x with running := true }
    let g := g.modLanes q fun l => { l with pos := .header f.handler.toNat, st := .run, depth := g.it.callHt }
    let s := ({ s with nextId := s.nextId + 2 } : State).setGroup g
    let s := s.traceAt g m 3 p.pc p.csn p.word0 (q.setWidth 32)
    spill s k

/-- The effect, with the mark of the instruction that performs it now (24 R420). -/
def Perf.stamp (p : Perf) (m : IssueMark) : Perf := { p with mark := some (p.mark.getD m) }

/-- The parts of an effect, divided by the frame that the lanes find, the highest frame first (11 R284). -/
def framesOf (g : Group) (p : Perf) : List (Frame × Perf) :=
  g.it.frames.filterMap fun f =>
    let q := maskOf g.width fun t => has p.lanes t && g.findFrame p.eff t == some f
    if q = 0#128 then none else some (f, { p with lanes := q })

/-- Perform effects one after another (08 R204; 11 R284): the first part of the first that has lanes is entered, the other parts
and effects wait for its end and are resolved again then; an effect that some lane finds no frame for, or that would need a
17th context (R293), ends the grid. -/
def perform (s : State) (k : GKey) (loop0 : Option Loop) : List Perf → State
  | [] => s
  | p :: ps =>
    match s.group? k with
    | none => s
    | some g =>
      let p := { p with lanes := p.lanes &&& g.present }
      if p.lanes = 0#128 then perform s k loop0 ps
      else if ((lanesOf g.width p.lanes).any fun t => (g.findFrame p.eff t).isNone) || decide (16 ≤ g.ctxs.length) then
        chargeGrid s (corrOf s g) k p
      else
        match framesOf g p with
        | [] => chargeGrid s (corrOf s g) k p
        | q :: qs =>
          let m := s.markNow g
          enter s k loop0 q.1 (q.2.stamp m) (qs.map (fun x => x.2.stamp m) ++ ps.map (·.stamp m))

/-! ### Retirement (01 R40, R41; 05 R143) -/

/-- Effects still pending when the last lane exits are charged to the grid (01 R40). -/
def chargeLate (s : State) (k : GKey) : State :=
  match s.group? k with
  | none => s
  | some g =>
    match g.nextLate with
    | none => s
    | some p => chargeGrid (s.setGroup { g with late := [] }) (corrOf s g) k p

/-- Nothing that the group issued is in flight any more (01 R40 steps 1 and 2). -/
def Group.idle (s : State) (g : Group) : Bool :=
  let o := s.ownOf g.key
  g.pend.isEmpty && g.queue.isEmpty && !aloft s g.key && !hasCopies s g.key o && !hasEntries s g.key o && !owesPublished s g.key o

/-- A slot of the team retires: tracking registers expect less (08 R222). -/
def slotRetires (s : State) (uid w : Nat) : State :=
  (List.range 16).foldl (fun s n => s.putBar uid n ((s.bar uid n).retire w)) s

/-- The team ends with its last group (01 R41). -/
def teamEnds (s : State) (uid : Nat) : State :=
  if s.groups.any fun g => g.team == uid then s
  else
    match s.team? uid with
    | none => s
    | some t =>
      let s := { s with teams := s.teams.filter fun x => x.uid != uid }
      s.modGrid t.corr fun gr => { gr with teamsDone := gr.teamsDone + 1 }

/-- A job once a group of its team has retired: it keeps its issuer's FFLAGS, and its entry may be reused once no group stands any
more that issued it (01 R22, R24). `held` are the slots of the core that some group still occupies. -/
def Job.orphan (k : GKey) (o : Own) (team : Nat) (ff : Word) (held : List Nat) (j : Job) : Job :=
  if j.team ≠ team then j
  else
    let mine := decide (j.key = k) && decide (j.own = o)
    let gone := if j.wide.isEmpty then mine else !j.wide.any held.contains
    { j with ff := if mine then ff else j.ff, keep := j.keep && !gone }

/-- The slots that a group occupies (05 R138). -/
def Group.slots (g : Group) : List Nat := (List.range g.members).map (g.key.slot + ·)

/-- The slots of a core that groups occupy. -/
def heldSlots (s : State) (core : Nat) : List Nat := (s.groups.filter fun g => g.key.core == core).flatMap Group.slots

/-- The tiles that a group published and left unsealed are sealed (01 R40 step 3). -/
def sealPublished (s : State) (core : Nat) (o : Own) : State :=
  s.modCore core fun c => (List.range 16).foldl (fun c i =>
    if (c.tag i).st == .opened && (c.tag i).pub == o then c.sealTag i else c) c

/-- A group retires (01 R40 steps 3 to 6): tiles and claims released, the slot returned with its last part (05 R143). -/
def retire (s : State) (k : GKey) : State :=
  match s.group? k with
  | none => s
  | some g =>
    let o := s.ownOf k
    let s := freeBanks s k.core g.it.stampOn (banksOf s k.core o)
    let s := freeHalves s k.core (halvesOf s k.core o)
    let s := dropGrants s k.core o
    let s := { s with groups := s.groups.filter fun h => h.key != k }
    let held := heldSlots s k.core
    let s := { s with dies := s.dies.map fun (d : Die) => { d with jobs := d.jobs.map (Job.orphan k o g.team g.it.fflags held) } }
    let s := if s.groups.any fun h => h.team == g.team && h.key.slot == k.slot then s else slotRetires s g.team g.members
    teamEnds s g.team

/-- Retire the group when its last lane has exited, nothing of it is in flight, and the tiles it published may be released
(01 R40). -/
def tryRetire (s : State) (k : GKey) : State :=
  match s.group? k with
  | none => s
  | some g =>
    if g.allExited && !g.halted then
      let s := chargeLate s k
      if g.idle s then
        let o := s.ownOf k
        let s := sealPublished s k.core o
        if releaseHeld s k.core o then s else retire s k
      else s
    else s

/-- Try to retire the groups of a core: what has ended may have stood on tiles that any of them published (01 R40 step 3). -/
def retireCore (s : State) (core : Nat) : State :=
  ((s.groups.filter fun g => g.key.core == core).map (·.key)).foldl tryRetire s

/-! ### The end of an invocation (11 R283, R292) -/

/-- Pop the top frame: the contexts it holds are freed (11 R283). -/
def Group.popFrame (g : Group) : Group :=
  match g.it.frames with
  | [] => g
  | f :: fs =>
    { g with it := { g.it with frames := fs }
             ctxs := g.ctxs.filter fun c => !(c.ended && c.frame == f.uid) }

/-- Pop the frames an invocation pushed and left; the contexts they hold are freed (11 R283, R292). -/
def Group.popPushed (g : Group) (c : Ctx) : Group :=
  let gone := (g.it.frames.filter fun f => f.inv == c.uid).map (·.uid)
  { g with it := { g.it with frames := g.it.frames.filter fun f => f.inv != c.uid }
           ctxs := g.ctxs.filter fun x => !(x.ended && gone.contains x.frame) }

/-- The CSN of the BINA whose elements wait on a handler's action (09 R252). -/
def Src.binCsn : Src → Option Word
  | .bin csn _ _ => some csn
  | .stall (.inside _ _ (.bin csn _)) => some csn
  | _ => Option.none

/-- The elements of a BINA that some threads still had to append are not appended (09 R252). -/
def forgetBins (s : State) (k : GKey) (src : Src) (m : Mask) : State :=
  match src.binCsn, s.group? k with
  | some csn, some g => dropPlaces s (dieOf k.core) (corrOf s g) k csn m
  | _, _ => s

/-- What an end without an answer does to the source of the effect (11 R292): an engine is abandoned, a held ENQ writes an
invalid handle (09 R244), a BINA's elements are not appended. -/
def abandonSource (s : State) (k : GKey) (p : Perf) (q : Mask) : State :=
  match p.src with
  | .engine r => retireCore (answerEngine s r p.eff .abort) k.core
  | .stallEnq h _ => s.modGroup k fun g => g.setHandle h 0
  | src => forgetBins s k src q

/-- The group after an invocation has ended (11 R292): frames popped, running bit clear, k0 and the call-stack height
restored, a loop of its own over, its context freed unless its MANY token lives. -/
def Group.endCtx (g : Group) (c : Ctx) : Group :=
  let g := g.popPushed c
  let g := g.modFrame c.frame fun f => { f with running := false }
  let g := g.setToken 0 c.k0
  let keep := c.perf.kind == .many && c.token && g.it.frames.any fun f => f.uid == c.frame
  { g with
    it := { g.it with callHt := min g.it.callHt c.callHt }
    loop := g.loop.bind fun l => if l.inv = c.uid then none else some l
    ctxs := if keep then g.ctxs.map fun x => if x.uid == c.uid then { x with ended := true, left := 0 } else x
            else g.ctxs.filter fun x => x.uid != c.uid }

/-- The context of a uid. -/
def Group.ctx? (g : Group) (uid : Nat) : Option Ctx := g.ctxs.find? fun c => c.uid == uid

/-- End an invocation; `answered` when RSUM has answered its source. What waited for its end is left to the caller. -/
def closeCtx (s : State) (k : GKey) (uid : Nat) (answered : Bool) : State × List Perf :=
  match (s.group? k).bind fun g => g.ctx? uid with
  | none => (s, [])
  | some c =>
    if c.ended then (s, [])
    else
      let s := s.modGroup k fun g => g.endCtx c
      let s := if answered then s else abandonSource s k c.perf c.q
      (spill s k, c.rest)

/-- The position is a word of the clause. -/
def Pos.within (c : Clause) : Pos → Bool
  | .inside cl _ _ => cl == c
  | .header _ => false

/-- The lowest position among some lanes. -/
def Group.lowestPos (g : Group) (ls : List Nat) : Option Pos :=
  match ls with
  | [] => none
  | t :: ts => some (g.lane (ts.foldl (fun b u => if (g.lane u).pos.pc < (g.lane b).pos.pc then u else b) t)).pos

/-- The runnable lanes that stand at a position. -/
def Group.standing (g : Group) (p : Pos) : Mask := maskOf g.width fun t => g.canRun t && (g.lane t).pos == p

/-- The group goes on inside the clause that an invocation interrupted, with the lanes of it that may run, at their lowest
position (05 R117, R118). -/
def Group.reenter (g : Group) (c : Ctx) : Group :=
  match g.cur, c.clause with
  | none, some (cl, m) =>
    match g.lowestPos ((lanesOf g.width (m &&& g.runnable)).filter fun t => (g.lane t).pos.within cl) with
    | some (.inside cl i p) => { g with cur := some ⟨cl, i, g.standing (.inside cl i p), p⟩ }
    | _ => g
  | _, _ => g

/-- End an invocation and enter what waited for it (11 R284, R292). -/
def endInvocation (s : State) (k : GKey) (uid : Nat) (answered : Bool) : State :=
  match (s.group? k).bind fun g => g.ctx? uid with
  | none => s
  | some c =>
    let r := closeCtx s k uid answered
    perform (r.1.modGroup k fun g => g.reenter c) k c.loop r.2

/-! ### The return from a handler (11 R289) -/

/-- An answer of RSUM for an engine. -/
def answerOf : RsumAct → Answer
  | .skip => .skip
  | .patch => .patch
  | _ => .retry

/-- The actions a source admits (11 R289, R290). -/
def allowedActs (eff : BitVec 11) : List RsumAct :=
  match eff.toNat with
  | 0x104 => [.retry, .skip, .patch]
  | 0x105 => [.retry, .skip]
  | 0x109 => [.cont]
  | 0x10A => [.cont]
  | 0x10D => [.cont, .skip]
  | 0x110 => [.retry]
  | n => if n < 0x100 then [.cont, .retry] else []

/-- D receives thread t's value for each resumed lane; a scalar takes the lowest lane's (11 R289). DESIGN CHOICE
(notes/assumptions/50.md): a vector register takes it through the map it then has. -/
def Group.deliver (g : Group) (tick : Nat) (d : Dst) (lanes : Mask) (v : Nat → Word) : Group :=
  match d with
  | .none => g
  | .vec p => g.writeVec tick p (g.vreg p).asMap lanes v
  | .sca n => g.setSreg n (v ((lowest g.width lanes).getD 0))

/-- A position with the elements that a thread still has to append (09 R252). -/
def Pos.ownBins (t : Nat) : Pos → Pos
  | .inside cl i (.bin csn els) => .inside cl i (.bin csn (els.filter fun e => e.thread == t))
  | p => p

/-- Where a resumed lane goes: the resume point, or under .retry the instruction itself (11 R289; 09 R239); a redirected
BINA returns to its word with the new indices (09 R252). -/
def resumePos (src : Src) (act : RsumAct) (snap : Pos) (t : Nat) (v : Word) : Pos :=
  match src, act with
  | .soft _ p, .retry => p
  | .stall p, .retry => p.ownBins t
  | .stallEnq _ p, .retry => p
  | .bin csn els again, .cont =>
    match again with
    | .inside cl i _ => .inside cl i (.bin csn ((els.filter fun e => e.thread == t).map fun e => { e with idx := v }))
    | p => p
  | _, _ => snap

/-- A lane outside a set whose call depth an invocation found at the top of the call stack: one that is not parked. -/
def Group.othersAt (g : Group) (c : Ctx) (lanes : Mask) : Bool :=
  (lanesOf g.width (g.present &&& ~~~lanes)).any fun t => ((c.snaps[t]?).map fun x => decide (c.callHt ≤ x.depth)).getD false

/-- The loop state after a resumption (05 R129). A word issued over counts once, so that .retry by all lanes that are not parked
takes back what its first issue counted; an abandoned wait counts with its .skip (notes/assumptions/42.md). -/
def resumeLoop (g : Group) (c : Ctx) (act : RsumAct) (lanes : Mask) : Option Loop :=
  match c.perf.src, act with
  | .soft .., .retry => if g.othersAt c lanes then g.loop else c.loop
  | .stall .., .skip => c.loop
  | .stallEnq .., .skip => c.loop
  | _, _ => g.loop

/-- Merge positions of redirected elements: lanes of one word carry their elements together, in thread order. -/
def joinBin (l : List Lane) (m : Mask) : List Lane :=
  let els := (l.zipIdx.filter fun p => has m p.2).flatMap fun p => match p.1.pos with
    | .inside _ _ (.bin _ els) => els
    | _ => []
  l.mapIdx fun t x => if has m t then
      { x with pos := match x.pos with
        | .inside cl i (.bin csn _) => .inside cl i (.bin csn els)
        | p => p }
    else x

/-- The lanes of a resumption whose elements are still to be appended: redirected ones, and those of a wait that goes on
(09 R239, R252). -/
def keepsBins (src : Src) (act : RsumAct) (lanes : Mask) : Mask :=
  match src, act with
  | .bin .., .cont => lanes
  | .stall _, .retry => lanes
  | _, _ => 0#128

/-- A lane after a resumption: a resumed one goes where its source and the action send it. -/
def resumeLane (c : Ctx) (act : RsumAct) (lanes : Mask) (v : Nat → Word) (t : Nat) (l : Lane) : Lane :=
  match c.snaps[t]? with
  | some x =>
    if has lanes t then { l with pos := resumePos c.perf.src act x.pos t (v t), st := x.st, depth := x.depth } else l
  | none => l

/-- A context after a resumption of lanes: they leave it, and a ONCE token dies (11 R288, R289). -/
def Ctx.resumed (x : Ctx) (uid : Nat) (lanes : Mask) : Ctx :=
  if x.uid = uid then { x with left := x.left &&& ~~~lanes, token := x.token && x.perf.kind == .many } else x

/-- Resume lanes of an invocation with an action and each thread's value (11 R289). -/
def resume (s : State) (k : GKey) (uid : Nat) (lanes : Mask) (act : RsumAct) (v : Nat → Word) : State :=
  match s.group? k with
  | none => s
  | some g =>
    match g.ctx? uid with
    | none => s
    | some c =>
      let s := match c.perf.src with
        | .engine r => retireCore (answerEngine s r c.perf.eff (answerOf act)) k.core
        | src => forgetBins s k src (c.q &&& ~~~(keepsBins src act lanes))
      let s := s.modGroup k fun g =>
        let g := match c.perf.src, act with
          | .value d, .cont => g.deliver s.tick d lanes v
          | .soft d _, .cont => g.deliver s.tick d lanes v
          | .stallEnq h _, .skip => g.setHandle h 0
          | _, _ => g
        let g := { g with loop := resumeLoop g c act lanes }
        let g := { g with lanes := joinBin (g.lanes.mapIdx (resumeLane c act lanes v)) lanes
                          ctxs := g.ctxs.map fun (x : Ctx) => x.resumed uid lanes }
        g.leave lanes
      match (s.group? k).bind fun g => g.ctx? uid with
      | some c1 => if !c1.ended && c1.left == 0#128 then endInvocation s k uid true else s
      | none => s

/-! ### Abort (11 R291) -/

/-- The lanes of the aborted invocation itself: all of it, those that a MANY token has resumed too, or, once it has ended, those
that execute the abort (11 R291, R292). -/
def ownLanes (c : Ctx) (active : Mask) : Mask := if c.ended then active else c.q

/-- The running invocations of the frames an abort pops (11 R291). -/
def poppedCtxs (g : Group) (c : Ctx) : List Ctx :=
  let popped := (g.it.frames.takeWhile fun f => f.uid != c.frame).map (·.uid) ++ [c.frame]
  g.ctxs.filter fun x => !x.ended && popped.contains x.frame

/-- The invocations an abort ends: its own, those of popped frames, and those entered later that hold its lanes (11 R288,
R291). -/
def abortHits (g : Group) (c : Ctx) (active : Mask) : List Ctx :=
  let popped := (poppedCtxs g c).map (·.uid)
  g.ctxs.filter fun x => !x.ended &&
    (x.uid == c.uid || popped.contains x.uid || (decide (c.uid < x.uid) && x.left &&& ownLanes c active != 0#128))

/-- The lanes an abort moves (11 R291). -/
def abortLanes (g : Group) (c : Ctx) (active : Mask) : Mask :=
  ((poppedCtxs g c).foldl (fun m x => m ||| x.left) (ownLanes c active)) &&& g.present

/-- Pop a frame and every frame above it. -/
def Group.popTo (g : Group) (uid : Nat) : Group :=
  (List.range ((g.it.frames.takeWhile fun f => f.uid != uid).length + 1)).foldl (fun g _ => g.popFrame) g

/-- An abort to a landing PC outside a loop's body ends the loop, when it was executed in the body or lanes it moves had stood
there (05 R132). -/
def abortLoop (g : Group) (f : Frame) (hits : List Ctx) (active : Mask) (pc : Nat) : Option Loop :=
  g.loop.bind fun l =>
    let inside := fun (p : Nat) => decide (l.start ≤ p) && decide (p < l.stop)
    let from_ := (g.activeLoop active pc).isSome || hits.any fun c => (lanesOf g.width c.q).any fun t =>
        ((c.snaps[t]?).map fun x => inside x.pos.pc).getD false
    if !inside f.landing.toNat && from_ then none else some l

/-- The same loop, whatever its count. -/
def Loop.same (l m : Loop) : Bool := l.start == m.start && l.inv == m.inv

/-- The group with the loop state that an abort leaves; a loop it ends is over for every invocation that would go back to it
(05 R132). -/
def Group.loopAfter (g : Group) (l : Option Loop) : Group :=
  { g with
    loop := l
    ctxs := g.ctxs.map fun (c : Ctx) =>
      { c with loop := c.loop.bind fun m => if l.isNone && (g.loop.map (·.same m)).getD false then none else some m } }

/-- The lanes once an abort has moved some of them to a landing PC: call depths return to the frame's height (11 R291). -/
def Group.toLanding (g : Group) (lanes : Mask) (f : Frame) : Group :=
  { g with
    it := { g.it with callHt := min g.it.callHt f.callHt }
    lanes := g.lanes.mapIdx fun t (l : Lane) =>
      if has lanes t then { l with pos := .header f.landing.toNat, st := .run, depth := f.callHt }
      else { l with depth := min l.depth f.callHt } }

/-- Abort an invocation: its lanes take the landing PC, its frame and those above are popped, call depths return to the
frame's height, the token dies (11 R291). The group's other lanes go on in the clause that the outermost ended invocation
interrupted. -/
def abort (s : State) (k : GKey) (uid : Nat) (active : Mask) (pc : Nat) : State :=
  match s.group? k with
  | none => s
  | some g =>
    match (g.ctx? uid).bind fun c => (g.frame? c.frame).map fun f => (c, f.1) with
    | none => s
    | some (c, f) =>
      let hits := abortHits g c active
      let lanes := abortLanes g c active
      let l := abortLoop g f (if c.ended then hits else c :: hits) active pc
      let s := s.setGroup (g.loopAfter l)
      let s := s.modGroup k fun g =>
        let g := g.popTo c.frame
        { g with ctxs := g.ctxs.map fun (x : Ctx) => if x.uid = uid then { x with token := false } else x }
      let r := hits.reverse.foldl (fun (p : State × List Perf) x =>
        let q := closeCtx p.1 k x.uid false
        (q.1, p.2 ++ q.2)) (s, [])
      let s := r.1.modGroup k fun g =>
        let g := { g with ctxs := g.ctxs.filter fun x => x.uid != uid && g.it.frames.any fun y => y.uid == x.frame }
        let g := (g.toLanding lanes f).leave lanes
        match hits with
        | [] => g
        | x :: _ => g.reenter x
      perform (spill s k) k (if l.isNone && g.loop.isSome then none else c.loop) r.2

/-! ### What follows from lanes that exit, return, pop and arrive -/

/-- Exited lanes leave every invocation (11 R292). -/
def Group.dropExited (g : Group) : Group :=
  { g with ctxs := g.ctxs.map fun (c : Ctx) => { c with left := c.left &&& g.present } }

/-- End, innermost first, the invocations whose lanes have all left (11 R292). -/
def endEmpty (s : State) (k : GKey) : State :=
  let s := s.modGroup k Group.dropExited
  let uids := (((s.group? k).map fun g => (g.running.filter fun c => c.left == 0#128).map (·.uid)).getD []).reverse
  uids.foldl (fun s u => endInvocation s k u false) s

/-- Where the word stands that a COPYSTALL waits at (09 R239). -/
def Src.waitsAt : Src → Option Pos
  | .stall p => some p
  | .stallEnq _ p => some p
  | _ => Option.none

/-- A lane that has not exited stands in a loop's body, or goes back there from a handler (05 R132). -/
def Group.inBody (g : Group) (l : Loop) : Bool :=
  let inside := fun (p : Nat) => decide (l.start ≤ p) && decide (p < l.stop)
  (lanesOf g.width g.present).any fun t => inside (g.lane t).pos.pc ||
    g.running.any fun c => has c.left t &&
      (((c.perf.src.waitsAt).map fun p => inside p.pc).getD false || ((c.snaps[t]?).map fun x => inside x.pos.pc).getD false)

/-- A loop that no lane is left in is over (05 R129). -/
def Group.leaveLoop (g : Group) : Group :=
  { g with loop := g.loop.bind fun l => if g.inBody l then some l else none }

/-- The lanes at the height of the call stack (05 R125). -/
def Group.atHeight (g : Group) : Mask := maskOf g.width fun t =>
  (g.lane t).st != .exited && (g.lane t).depth == g.it.callHt

/-- Every lane of the called depth has executed RET or exited (05 R125, R126). -/
def Group.returned (g : Group) : Bool :=
  decide (0 < g.it.callHt) && (lanesOf g.width g.atHeight).all fun t => (g.lane t).st == .ret

/-- Pop the top entry of the call stack: the lanes at its height take the return address (05 R125). -/
def popCall (s : State) (k : GKey) : State :=
  s.modGroup k fun g =>
    let m := g.atHeight
    let a := s.load (g.callSlot g.it.callHt) 4
    let h := g.it.callHt - 1
    let g := g.modLanes m fun l => { l with pos := .header a, st := .run, depth := h }
    { g with it := { g.it with callHt := h } }

/-- Pop every entry whose lanes have all returned (05 R125). -/
def joinReturns (s : State) (k : GKey) : Nat → State
  | 0 => s
  | n + 1 =>
    match s.group? k with
    | some g => if g.returned then joinReturns (popCall s k) k n else s
    | none => s

/-- Every non-exited lane of the top frame's lane set has executed HPOP, and one has (11 R283). -/
def Group.popReady (g : Group) : Bool :=
  match g.it.frames with
  | [] => false
  | f :: _ =>
    let ls := lanesOf g.width (f.lanes &&& g.present)
    !ls.isEmpty && ls.all fun t => (g.lane t).st == .hpop f.uid

/-- Pop the top frame once its lanes have joined at HPOP (11 R283). -/
def joinPops (s : State) (k : GKey) : State :=
  match s.group? k with
  | some g =>
    match g.popReady, g.it.frames with
    | true, f :: _ => spill (s.setGroup (g.popFrame.modLanes f.lanes fun l =>
        if l.st == .hpop f.uid then { l with st := .run } else l)) k
    | _, _ => s
  | none => s

/-- Perform the effects of several groups, each by its own. -/
def performAll (r : State × List (GKey × Perf)) : State :=
  r.2.foldl (fun s p => perform s p.1 ((s.group? p.1).bind (·.loop)) [p.2]) r.1

/-- The group arrives on the registers where its last lane has executed a barrier instruction (08 R218). -/
def joinArrivals (s : State) (k : GKey) : State :=
  (List.range 16).foldl (fun s n =>
    match s.group? k with
    | some g =>
      if hasArrived g n then
        performAll (groupArrives s k n)
      else s
    | none => s) s

/-! ### The joining of parts, and all that follows (01 R31) -/

/-- After the last lanes of a part have exited, its slot may count on the registers (01 R31). -/
def joinParts (s : State) (k : GKey) : State :=
  match s.group? k with
  | none => s
  | some g =>
    if g.allExited && decide (1 < g.parts) then
      performAll (partExited s g.team k.slot)
    else s

/-- What follows from what the lanes of a group have done. -/
def settle (s : State) (k : GKey) : State :=
  let s := endEmpty s k
  let s := s.modGroup k Group.leaveLoop
  let s := joinReturns s k (((s.group? k).map (·.it.callHt)).getD 0)
  let s := joinPops s k
  let s := joinArrivals s k
  let s := joinParts s k
  tryRetire s k

/-! ### The issue of a word -/

/-- The word at a position of the clause. -/
def Issue.word (i : Issue) (n : Nat) : Word := i.cl.words.getD n 0

/-- The address of the word. -/
def Issue.pc (i : Issue) : Nat := i.cl.addr + 8 + 4 * i.idx

/-- The address after the clause: the next header position (03 R66). -/
def Clause.stop (c : Clause) : Nat := c.addr + 8 + 4 * c.words.length

/-- How many long-latency instructions stand before a position of the clause, in word order (03 R68). -/
def longBefore : Nat → Nat → List Word → Nat
  | 0, _, _ => 0
  | _, _, [] => 0
  | fuel + 1, n, w :: ws =>
    if n = 0 then 0
    else
      match decodeWord w.toNat with
      | .ok i => (if i.long then 1 else 0) + longBefore fuel (n - 1 - i.lits) (ws.drop i.lits)
      | .error _ => longBefore fuel (n - 1) ws

/-- The flag a long-latency instruction takes, and whether it holds the group's issue (03 R68). -/
def Issue.attach (i : Issue) : Option Nat × Bool :=
  let f := fun (n : Nat) => if n < 12 then some n else none
  match longBefore 8 i.idx i.cl.words with
  | 0 => (f i.cl.seta, false)
  | 1 => (f i.cl.setb, false)
  | _ => (none, true)

/-- The operand-control nibble of the word (03 R71). -/
def Issue.nibble (i : Issue) : Nat := i.cl.h1.toNat / 2 ^ (4 * i.idx) % 16

/-- The instruction of the words is control, or its word is the last: the clause ends here (03 R66, R87). -/
def Issue.isLast (i : Issue) (x : Instr) : Bool := x.control || decide (i.cl.words.length ≤ i.idx + 1 + x.lits)

/-- What a meaning works on: the state with the CSN taken and last bits cleared, the group as the instruction reads it (03 R73;
01 R21), the word at hand and its operands. -/
structure Ins where
  s    : State
  g    : Group
  iss  : Issue
  i    : Instr
  csn  : Word
  first : Nat
  a    : Opnd
  b    : Opnd
  d    : Opnd

namespace Ins

/-- The active set. -/
def act (x : Ins) : Mask := x.iss.active
/-- The group's name. -/
def k (x : Ins) : GKey := x.g.key
/-- The address of the word. -/
def pc (x : Ins) : Word := Sys2Proof.word x.iss.pc
/-- The opcode (03 R75). -/
def op (x : Ins) : Nat := (x.iss.word x.iss.idx).toNat / 2 ^ 25
/-- The instruction executes in vector form (03 R78). -/
def vector (x : Ins) : Bool := x.i.shape.vector
/-- The position of the word itself, for a wait or a retry. -/
def here (x : Ins) (p : Progress) : Pos := .inside x.iss.cl x.iss.idx p
/-- The launch of the group. -/
def corr (x : Ins) : Nat := corrOf x.s x.g
/-- The team of the group. -/
def team (x : Ins) : Option Team := x.s.team? x.g.team
/-- The name under which the group owns. -/
def own (x : Ins) : Own := x.s.ownOf x.k
/-- The die of the group. -/
def die (x : Ins) : Nat := dieOf x.g.key.core
/-- The progress a waiting word keeps: its CSN once taken (17 R361); WAITB and WAITH, which take none, keep that they have come to
wait (09 R240). -/
def kept (x : Ins) : Progress :=
  match x.i with
  | .waitb _ => .taken x.csn
  | .waith _ _ => .taken x.csn
  | _ => if x.i.sequenced then .taken x.csn else .fresh
/-- Change the issuing group. -/
def mod (x : Ins) (f : Group → Group) : State := x.s.modGroup x.k f
/-- An effect of this word for some lanes. -/
def perf (x : Ins) (eff : Nat) (kind : TokKind) (p0 p1 p2 : Word) (lanes : Mask) (src : Src) : Perf :=
  ⟨BitVec.ofNat 11 eff, kind, x.pc, x.csn, p0, p1, p2, 0, lanes, src, none⟩
/-- RANGE with an offending value and the opcode, performed by the active set (11 R290). -/
def range (x : Ins) (v : Word) : Perf := x.perf 0x103 .none v (Sys2Proof.word x.op) 0 x.act .none
/-- The mark of this word (24 R420). -/
def mark (x : Ins) : IssueMark := x.s.markNow x.g
/-- Where D stands (11 R289). -/
def dst (x : Ins) : Dst :=
  match x.i.shape.d with
  | some f => match f.reg with
    | .v n => .vec (x.g.phys n.val).toNat
    | .s n => .sca n.val
    | _ => .none
  | none => .none

end Ins

/-- What a word does: it waits at its place, after what it has already done (`park`), or it has its effect. `jumps` are transfers
taken, `after` is done once the word has issued and its lanes stand at their next position. -/
inductive Act where
  | hold (p : Progress)
  | park (f : State → State) (p : Progress)
  | act (s : State) (fl : Fl) (jumps : List (Mask × Pos)) (after : State → State)

namespace Act
/-- The effect made, flags merged, on to the next word. -/
def done (s : State) (fl : Fl := 0#7) : Act := .act s fl [] id
/-- Transfers of lanes. -/
def go (s : State) (jumps : List (Mask × Pos)) : Act := .act s 0#7 jumps id
/-- The effect made, and something that follows once the lanes stand at their next position. -/
def then_ (s : State) (f : State → State) : Act := .act s 0#7 [] f
end Act

/-- The word performs effects (11 R284), besides what it has done to the state. -/
def Ins.raise (x : Ins) (s : State) (ps : List Perf) (fl : Fl := 0#7) : Act :=
  .act s fl [] fun s => perform s x.k x.g.loop ps

/-- The word performs one effect and does nothing else. -/
def Ins.fail (x : Ins) (p : Perf) : Act := x.raise x.s [p]

/-- The position after the word, without a transfer (03 R66; 05 R117). -/
def Ins.nextPos (x : Ins) : Pos :=
  if x.iss.isLast x.i then .header x.iss.cl.stop else .inside x.iss.cl (x.iss.idx + 1 + x.i.lits) .fresh

/-- The loop state and the fall-through position after a word: the body's last word without a taken transfer counts one
iteration (05 R129). -/
def loopStep (g : Group) (iss : Issue) (x : Instr) (fall : Pos) (stay : Bool) : Option Loop × Pos :=
  match g.activeLoop iss.active iss.cl.addr with
  | some l =>
    if iss.isLast x && iss.cl.stop == l.stop && stay then
      if 1 < l.count then (some { l with count := l.count - 1 }, .header l.start) else (none, .header l.stop)
    else (g.loop, fall)
  | none => (g.loop, fall)

/-- The ageing counters after a word (05 R119). -/
def Group.aged (g : Group) (outside act : Mask) : Group :=
  { g with lanes := g.lanes.mapIdx fun t (l : Lane) =>
      if has act t then { l with age := 0 } else if has outside t then { l with age := l.age + 1 } else l }

/-- The group after its word has issued (05 R117 to R119): lanes aged and placed, blocked lanes out of the active set, the
clause ended after its last word. Lanes of the clause that a handler held at the next word go on together with it. -/
def finishGroup (x : Ins) (jumps : List (Mask × Pos)) (g : Group) : Group :=
  let outside := x.g.runnable &&& ~~~x.act
  let go := jumps.foldl (fun m j => m ||| j.1) 0#128
  let alive := x.act &&& g.present
  let ls := loopStep g x.iss x.i x.nextPos (alive &&& ~~~go != 0#128)
  let g := { (g.aged outside x.act) with loop := ls.1, issued := g.issued + 1 }
  let g := g.place (x.act &&& ~~~go) ls.2
  let g := jumps.foldl (fun g j => g.place j.1 j.2) g
  let still := x.act &&& g.runnable
  if x.iss.isLast x.i then { g with cur := none, yielded := x.iss.cl.yld.toNat }
  else if still = 0#128 then { g with cur := none, yielded := 0 }
  else { g with cur := some ⟨x.iss.cl, x.iss.idx + 1 + x.i.lits, still ||| g.standing x.nextPos, .fresh⟩, yielded := 0 }

/-- The long-latency instructions of 08 (R217). -/
def memLong : Instr → Bool
  | .ld .. | .ldi .. | .ldn .. | .ldt .. | .atomh .. | .atomp .. | .acas .. => true
  | _ => false

/-- A long-latency instruction goes into flight (01 R20; 03 R68): its results land and its flags merge at completion. `reads` are
the values of a load that may still be performed. -/
def Ins.flightOf (x : Ins) (s : State) (await : Await) (lands : List Land) (fl : Fl) (reads : List OpenRead) : State :=
  let at_ := x.iss.attach
  let p : Pend := ⟨s.nextId, memLong x.i, at_.1, at_.2, await, lands, fl, x.pc, x.csn, x.mark, x.g.issued, reads⟩
  ({ s with nextId := s.nextId + 1 } : State).modGroup x.k fun g => { g with pend := g.pend ++ [p] }

/-- One that is no load. -/
def Ins.flight (x : Ins) (s : State) (await : Await) (lands : List Land) (fl : Fl) : State := x.flightOf s await lands fl []

/-- Finish a word: place the lanes, merge the flags, perform what follows; an enabled condition is performed by the acting
lanes once the results are written (01 R22). -/
def finish (x : Ins) (s : State) (fl : Fl) (jumps : List (Mask × Pos)) (after : State → State) : State :=
  let bits := ((s.group? x.k).map (·.trapBits fl)).getD 0
  let s := s.modGroup x.k fun g => finishGroup x jumps (g.merge fl)
  let s := after s
  let s := if bits = 0#5 then s
    else perform s x.k x.g.loop [⟨0x10A, .once, x.pc, x.csn, bits.setWidth 32, 0, 0, 0, x.act, .trap, none⟩]
  settle s x.k

/-- The 64-bit value of a scalar pair; z reads 0 (06 R157, R158). -/
def Group.pair (g : Group) (r : Reg) : DWord :=
  match r with
  | .s n => (g.sreg (n.val + 1)).setWidth 64 <<< 32 ||| (g.sreg n.val).setWidth 64
  | _ => 0

/-- The thread that an affine shuffle gives to thread `t` (06 R145). -/
def shuffled (sh : List (BitVec 7) × BitVec 7) (t : Nat) : Nat := (LaneMap.mulVec sh.1 (BitVec.ofNat 7 t) ^^^ sh.2).toNat

/-- The thread whose value SHFI gives (06 R159). -/
def shfiThread (w : Nat) (idx : Word) : Nat := idx.toNat % w

/-- The thread whose value SHFR gives to thread `t`, in segments of 2^e (06 R159). -/
def shfrThread (e : Nat) (k : Word) (t : Nat) : Nat := t - t % 2 ^ e + (t % 2 ^ e + k.toNat) % 2 ^ e

/-- The lanes that BRX's predicate selects (05 R123). -/
def brxLanes (x : Ins) (neg : Bool) (p : Fin 8) : Mask := x.act &&& (if neg then ~~~(x.g.pred p.val) else x.g.pred p.val)

/-- The threads whose elements of A the word reads: its own, those its predicate selects or a shuffle names, none (05 R123;
06 R156, R158, R159; 18 R381). -/
def readA (x : Ins) : Mask :=
  let w := x.g.width
  let image := fun (f : Nat → Nat) => (lanesOf w x.act).foldl (fun m t => m ||| one (f t)) 0#128
  match x.i with
  | .shfx .. => image (shuffled (shfxShuffle x.g.wcode x.b.sca))
  | .shfp .. => image (shuffled (shfpShuffle x.g.wcode x.b.sca))
  | .shfb _ _ _ n => image (shuffled (shfbShuffle x.g.wcode n.val x.b.sca))
  | .mat _ _ b => image (shuffled (matShuffle x.g.wcode (x.g.pair b)))
  | .shfi .. => image fun t => shfiThread w (x.b.val t)
  | .shfr _ _ _ n => image (shfrThread (segExp x.g.wcode n.val) x.b.sca)
  | .mov _ _ _ .sv => one (x.b.sca.toNat % w)
  | .mapRd .. => 0#128
  | .brx _ neg p => brxLanes x neg p
  | .rwalk .. => x.g.full
  | _ => x.act

/-- The threads whose elements of B the word reads (06 R164; 18 R381). -/
def readB (x : Ins) : Mask :=
  match x.i with
  | .qapp .. => (lanesOf x.g.width x.act).foldl (fun m t =>
      if (x.a.val t).toNat < x.g.width then m ||| one (x.a.val t).toNat else m) 0#128
  | _ => x.act

/-- The registers a word reads, with the threads whose elements it reads. -/
def Ins.regs (x : Ins) (g : Group) : List (Nat × Mask) := readRegs g x.i.shape (readA x) (readB x) x.act

/-- The operands of a word, and the state in which it acts. -/
def mkIns (s : State) (g : Group) (iss : Issue) (i : Instr) : Ins :=
  let sh := i.shape
  let csn := if i.sequenced then
      match iss.prog with
      | .fresh => g.it.csn + 1
      | .taken c => c
      | .bin c _ => c
    else g.it.csn
  let csn1 := if i.sequenced && iss.prog == .fresh then csn else g.it.csn
  let first := ((s.team? g.team).map (·.first)).getD 0
  let litA := iss.word (iss.idx + 1)
  let litB := iss.word (iss.idx + 1 + (if litField sh.a then 1 else 0))
  let gv := { (g.earlyView s.tick) with it := { (g.earlyView s.tick).it with csn := csn1 } }
  let rd := fun (f : Option Field) (ind : Bool) (lit : Word) =>
    match f with
    | some f => readOpnd gv first f.reg (if ind then ((physOf g f true).head?).map Int.toNat else none) lit
    | none => Opnd.const 0
  let g0 := { g with it := { g.it with csn := csn1 } }
  { s := s.setGroup ((clearLive g0 (lastRegs g sh iss.nibble)).readEarly s.tick), g := gv, iss := iss, i := i, csn := csn, first := first
    a := rd sh.a sh.ind litA, b := rd sh.b false litB, d := rd sh.d false 0 }

/-- The loads, stores and compare-and-swaps whose odd or misaligned D fails as an access does, thread by thread (08 R225 row 3). -/
def accessAlign : Instr → Bool
  | .ld .. | .ldi .. | .ldn .. | .st .. | .sti .. | .acas .. => true
  | _ => false

/-- A register of the word is misaligned, and the word raises ALIGN for it as a whole (01 R14). -/
def alignFault (i : Instr) : Bool := anyMisaligned i.shape && !accessAlign i

/-- What a word does before its own description counts (03 R91; 01 R14; 18 R381): REGBOUND, then a register ALIGN, then
MEMPOISON of a poisoned element. DESIGN CHOICE (notes/assumptions/50.md): MEMPOISON of a source of an access comes before the ALIGN
that the access itself performs for a misaligned D or address. -/
def registerFault (g : Group) (x : Ins) : Option Perf :=
  let sh := x.i.shape
  match firstOut g sh with
  | some p => some { x.perf 0x101 .none (wordOfInt p) (word g.allot) 0 x.act .none with csn := g.it.csn }
  | none =>
    if alignFault x.i then some { x.perf 0x102 .none x.pc 0 0 x.act .none with csn := g.it.csn }
    else
      match firstBad g (x.regs g) with
      | some r => some (x.perf 0x106 .none 5 (word r) 0 x.act .none)
      | none => none

/-- The flag of a read of a dead register (01 R15; 03 R90). -/
def poisonFlag (g : Group) (x : Ins) : Fl :=
  if readsDead g (x.regs g) then Fl.poison else 0#7

/-- A word that is not well formed raises ILLEGAL and does nothing else (03 R89). -/
def illegalWord (s : State) (g : Group) (iss : Issue) : State :=
  let p : Perf := ⟨0x100, .none, word iss.pc, g.it.csn, iss.word iss.idx, word iss.pc, 0, 0, iss.active, .none, none⟩
  perform (s.setGroup { g with cur := none }) g.key g.loop [p]

/-- Issue one word for the group in whose clause it stands. A word that performs REGBOUND or a register's ALIGN has still read the
registers of its allotment that it names: their last marks act and a dead one sets POISON (notes/assumptions/46.md). -/
def issueAt (s : State) (g : Group) (iss : Issue) (i : Instr) (m : Ins → Act) : State :=
  if !i.wf then illegalWord s g iss
  else
    let x := mkIns s g iss i
    match registerFault g x with
    | some p =>
      let own := (firstOut g i.shape).isSome || alignFault i
      let s := x.s.modGroup x.k fun h => if own then { h with it := { h.it with csn := g.it.csn } } else h
      finish x s (poisonFlag g x) [] fun s => perform s x.k g.loop [p]
    | none =>
      match m x with
      | .hold p => s.setGroup { g with cur := some { iss with prog := p }, it := { g.it with csn := x.g.it.csn } }
      | .park f p => f (s.setGroup { g with cur := some { iss with prog := p }, it := { g.it with csn := x.g.it.csn } })
      | .act s fl jumps after => finish x s (fl ||| poisonFlag g x) jumps after

/-- Issue a word for the acting group; a group whose third long-latency instruction is in flight holds (03 R68). No group at a
word is no issue at all. -/
def issue (i : Instr) (s : State) (m : Ins → Act) : Host.Outcome State Fault Refusal :=
  match s.cur with
  | some (.group k) =>
    match s.group? k with
    | some g =>
      match g.cur with
      | some iss => .next (if g.halted || g.pend.any (·.hold) then s else issueAt s g iss i m)
      | none => .fault .noIssuer
    | none => .fault .noIssuer
  | _ => .fault .noIssuer

end Sys2Proof.Machine
end

