-- ==== Sys2Proof/Machine/Fetch.lean ====
section
/-! DEFINITION. Fetching and decoding a clause (03 R66 to R74, R88, R89; 05 R118, R119, R131; 23 R417), and what a turn of the
agenda lets act (notes/assumptions/2.md). -/

namespace Sys2Proof.Machine

open Sys2Proof

/-! ### Code lines (23 R416, R417) -/

/-- A line as memory holds it. -/
def memLine (s : State) (a : Nat) : Line := ⟨a, s.bytes (hbmAddr a) 64⟩

/-- The contents a fetch of a line may get: as memory holds it, as the core's instruction cache holds it, as the group may
still see it (23 R417). -/
def lineChoices (s : State) (g : Group) (a : Nat) : List Line :=
  memLine s a :: (((s.core g.key.core).icache ++ g.stale).filter fun l => l.addr == a)

/-- The line a fetch gets: open where the contents differ. -/
def fetchLine (s : State) (g : Group) (a : Nat) : Line :=
  let cs := lineChoices s g a
  if cs.all fun l => l == memLine s a then memLine s a
  else cs.getD (Config.codePick s.tick a % cs.length) (memLine s a)

/-- The core's instruction cache after a fetch of a line it did not hold: it takes the line as memory holds it, never what a
group still sees of an older one (23 R417). -/
def cacheLine (s : State) (g : Group) (a : Nat) : State :=
  s.modCore g.key.core fun c =>
    if c.icache.any fun l => l.addr == a then c else { c with icache := memLine s a :: c.icache }

/-- The lines that hold the words from a byte address on. -/
def linesOf (a n : Nat) : List Nat := (List.range (n / 64 + 2)).map (fun i => (a / 64 + i) * 64) |>.filter fun l => decide (l < a + n)

/-- The word at an address, out of fetched lines. -/
def wordIn (ls : List Line) (a : Nat) : Word :=
  match ls.find? fun l => l.addr == a / 64 * 64 with
  | some l => BitVec.ofNat 32 (leNat ((l.bytes.drop (a % 64)).take 4))
  | none => 0

/-- The code section of a group: physical base of its image, and length (23 R416). -/
def codeOf (s : State) (g : Group) : Nat × Nat :=
  match s.gridOf g with
  | some gr => (imageBase gr.image, gr.imgLen)
  | none => (0, 0)

/-- The words at a header position: from the loop's body as it stood at its LOOP, else out of fetched lines (05 R131). Words
outside the code section are not read. -/
def codeWords (s : State) (g : Group) (m : Mask) (pc n : Nat) : List Word :=
  let c := codeOf s g
  let n := min n ((c.2 - pc) / 4)
  match g.activeLoop m pc with
  | some l => (l.words.drop ((pc - l.start) / 4)).take n
  | none =>
    let ls := (linesOf (c.1 + pc) (4 * n)).map (fetchLine s g)
    (List.range n).map fun i => wordIn ls (c.1 + pc + 4 * i)

/-- The state after the words at a header position have been fetched. -/
def afterFetch (s : State) (g : Group) (m : Mask) (pc n : Nat) : State :=
  let c := codeOf s g
  let n := min n ((c.2 - pc) / 4)
  match g.activeLoop m pc with
  | some _ => s
  | none => (linesOf (c.1 + pc) (4 * n)).foldl (fun s a => cacheLine s g a) s

/-- A fetched line is poisoned in memory and no cache holds it (18 R380, R381). -/
def poisonedCode (s : State) (g : Group) (m : Mask) (pc n : Nat) : Bool :=
  let c := codeOf s g
  (g.activeLoop m pc).isNone && (linesOf (c.1 + pc) (4 * min n ((c.2 - pc) / 4))).any fun a =>
    s.anyPoison (hbmAddr a) 64 && !((s.core g.key.core).icache.any fun l => l.addr == a)

/-! ### The clause at a header (03 R66 to R74, R88, R89) -/

/-- Fields of H0 (03 R67). -/
structure H0 where
  wait : Nat
  seta : Nat
  setb : Nat
  n    : Nat
  yld  : Bool
deriving DecidableEq, Repr

/-- H0 read from its word; `none` where it breaks R88. -/
def readH0 (w : Word) : Option H0 :=
  let v := w.toNat
  let a := v / 2 ^ 9 % 16
  let b := v / 2 ^ 5 % 16
  if v / 2 ^ 25 ≠ 0x7F ∨ v % 2 = 1 ∨ (12 ≤ a ∧ a ≤ 14) ∨ (12 ≤ b ∧ b ≤ 14) ∨ (a = b ∧ a < 12) then none
  else some ⟨v / 2 ^ 13 % 4096, a, b, v / 4 % 8 + 1, v / 2 % 2 == 1⟩

/-- What a scan of the instruction positions finds: whether H1 breaks R74, and the first position that is not an instruction
(R88). -/
structure Scan where
  h1bad : Bool
  bad   : Option Nat
deriving DecidableEq, Repr

/-- Nibble `i` of H1 (03 R71). -/
def nibbleAt (h1 : Word) (i : Nat) : Nat := h1.toNat / 2 ^ (4 * i) % 16

/-- The instructions of a word's opcode that keep some of its register fields and set the others, or M, anew. -/
def nearWords (fs : List Fields) : List Instr :=
  fs.flatMap fun f => (List.range 16).filterMap fun m => match decodeFields { f with m := m } with
    | .ok x => some x
    | .error _ => none

/-- Those that have the word's A field, and those that have its B field. -/
def nearA (f : Fields) : List Instr := nearWords [f, { f with d := 0 }, { f with b := 0 }, { f with d := 0, b := 0 }]

/-- Those that have its B field. -/
def nearB (f : Fields) : List Instr := nearWords [f, { f with d := 0 }, { f with a := 0 }, { f with d := 0, a := 0 }]

/-- The literals of a word that decodes to no instruction: a field of 127 that its opcode reads takes one (03 R79;
notes/assumptions/42.md). -/
def looseLits (f : Fields) : Nat :=
  ((nearA f).any fun x => litField x.shape.a).toNat + ((nearB f).any fun x => litField x.shape.b).toNat

/-- The nibble of such a word: a bit stands on a field that its opcode reads as a vector register (03 R74). -/
def looseNibble (f : Fields) (nib : Nat) : Bool :=
  (nib % 4 == 0 || (nearA f).any fun x => markable x.shape.a) && (nib / 4 == 0 || (nearB f).any fun x => markable x.shape.b)

/-- Scan the positions from `i` on (03 R79, R87, R88). Every word is judged with its literals' nibbles, one that does not decode by
what its opcode reads, and the first that is no instruction of the clause is kept. -/
def scanFrom (h1 : Word) : Nat → Nat → List Word → Bool → Scan → Scan
  | 0, _, _, _, r => r
  | _, _, [], _, r => r
  | fuel + 1, i, w :: ws, ctl, r =>
    let go := fun (ok : Bool) (lits : Nat) (bad control : Bool) =>
      let n := min lits ws.length
      scanFrom h1 fuel (i + 1 + n) (ws.drop n) control
        { h1bad := r.h1bad || !ok || (List.range n).any fun j => nibbleAt h1 (i + 1 + j) != 0
          bad := r.bad.or (if bad then some i else none) }
    match decodeWord w.toNat with
    | .error _ => go (looseNibble (fieldsOf w.toNat) (nibbleAt h1 i)) (looseLits (fieldsOf w.toNat)) true false
    | .ok x => go (x.nibbleOk (nibbleAt h1 i)) x.lits (ctl || !x.wf || decide (ws.length < x.lits)) x.control

/-- Why a header position is no clause: the site, p0 and p1 of the ILLEGAL it raises (03 R89). -/
structure Bad where
  site : Nat
  p0   : Word
  p1   : Nat
deriving DecidableEq, Repr

/-- The clause at a header position, with its wait mask, or what it raises (03 R88, R89). `ws` are the words there that lie
in the code section. -/
def readClause (pc : Nat) (ws : List Word) : Except Bad (Clause × Nat) :=
  match ws with
  | [] => .error ⟨pc, 0, pc⟩
  | w0 :: rest =>
    match readH0 w0, rest with
    | some h, h1 :: body =>
      if body.length < h.n then .error ⟨pc, w0, pc⟩
      else
        let body := body.take h.n
        let sc := scanFrom h1 8 0 body false ⟨false, none⟩
        let extra := (List.range 8).any fun i => decide (h.n ≤ i) && nibbleAt h1 i != 0
        if sc.h1bad || extra then .error ⟨pc, h1, pc + 4⟩
        else
          match sc.bad with
          | some i => .error ⟨pc + 8 + 4 * i, body.getD i 0, pc + 8 + 4 * i⟩
          | none => .ok (⟨pc, body, h1, h.seta, h.setb, h.yld⟩, h.wait)
    | _, _ => .error ⟨pc, w0, pc⟩

/-- The words at a header position that its clause takes, as far as its first header word tells (03 R66, R67). -/
def clauseWords (s : State) (g : Group) (m : Mask) (pc : Nat) : Nat :=
  match (codeWords s g m pc 1).head?.bind readH0 with
  | some h => h.n + 2
  | none => 1

/-! ### Selection (05 R118, R119) -/

/-- The lowest PC among the runnable lanes (05 R118). -/
def lowPc (g : Group) : Option Nat :=
  match lanesOf g.width g.runnable with
  | [] => none
  | t :: ts => some (ts.foldl (fun p u => min p (g.lane u).pos.pc) (g.lane t).pos.pc)

/-- The runnable lanes at a PC. -/
def Group.runnableAt (g : Group) (pc : Nat) : Mask := maskOf g.width fun t => g.canRun t && (g.lane t).pos.pc == pc

/-- The lane whose counter overrides the lowest PC: counters from 3,072 on, the highest first, ties to the lower PC; not
inside the body of a loop whose rules hold (05 R119, R132). -/
def ageLane (g : Group) : Option Nat :=
  let ls := (lanesOf g.width g.runnable).filter fun t => decide (3072 ≤ (g.lane t).age)
  let better := fun (t u : Nat) => decide ((g.lane u).age < (g.lane t).age) ||
    ((g.lane t).age == (g.lane u).age && decide ((g.lane t).pos.pc < (g.lane u).pos.pc))
  if ((lowPc g).bind fun p => g.activeLoop (g.runnableAt p) p).isSome then none
  else match ls with
    | [] => none
    | t :: ts => some (ts.foldl (fun b u => if better u b then u else b) t)

/-- The selected PC (05 R118, R119). -/
def selectPc (g : Group) : Option Nat :=
  match ageLane g with
  | some t => some (g.lane t).pos.pc
  | none => lowPc g

/-- The position at a PC: a header before a place inside a clause (notes/assumptions/42.md). -/
def positionAt (g : Group) (pc : Nat) : Option Pos :=
  let ls := (lanesOf g.width g.runnable).filter fun t => (g.lane t).pos.pc == pc
  ((ls.find? fun t => (g.lane t).pos.isHeader).or ls.head?).map fun t => (g.lane t).pos

/-- The selected position and its active set (05 R118). -/
def select (g : Group) : Option (Pos × Mask) :=
  ((selectPc g).bind (positionAt g)).map fun p => (p, g.standing p)

/-! ### What a turn lets act -/

/-- A group may issue: it is not halted, its launch goes on, and no third long-latency instruction holds it (03 R68; 17 R360,
R365). -/
def mayIssue (s : State) (g : Group) : Bool :=
  !g.halted && !(g.pend.any (·.hold)) && s.goesOn (corrOf s g)

/-- The instruction at the word a group stands at. -/
def wordAt (iss : Issue) : Option Instr :=
  match decodeWord (iss.word iss.idx).toNat with
  | .ok i => some i
  | .error _ => none

/-- The walker word at a PC; `none` outside the section, off a multiple of 4, undefined or ill-formed (12 R300, R307, R308). -/
def walkerWord (w : Walker) : Option Instr :=
  let a := w.pc.toNat
  if a % 4 ≠ 0 ∨ w.code.length < a + 4 then none
  else
    match decodeWalker (leNat ((w.code.drop a).take 4)) with
    | .ok i => if i.wf then some i else none
    | .error _ => none

/-- The walker of a core goes on: its launch does, and its job is neither cancelled nor suspended (12 R309; 17 R362). -/
def walkerGoes (s : State) (c : Nat) (w : Walker) : Bool :=
  match s.job? (dieOf c) w.job with
  | some j => s.goesOn j.corr && !j.canh && j.susp == .none
  | none => false

/-- The group has come to wait at a CPY, CPYP, RROT, WAITB or WAITH (09 R240). -/
def heldAtWait (iss : Issue) : Bool :=
  iss.prog != .fresh && match wordAt iss with
    | some (.cpy ..) => true
    | some (.cpyp ..) => true
    | some (.rrot ..) => true
    | some (.waitb ..) => true
    | some (.waith ..) => true
    | _ => false

/-- The lanes blocked at a BAR or BARW (09 R240). -/
def barBlocked (g : Group) : Mask := maskOf g.width fun t => match (g.lane t).st with
  | .arrive _ wait _ _ => wait
  | .phase .. => true
  | _ => false

/-- The lanes that perform a late effect now, if it can be delivered (09 R240): the active set of the next clause header, or the
lanes blocked at their waits when every lane is. -/
def lateLanes (g : Group) : Option Mask :=
  match g.cur with
  | some iss =>
    let m := iss.active ||| barBlocked g
    if heldAtWait iss && m == g.present then some m else none
  | none =>
    match select g with
    | some (.header _, m) => some m
    | some _ => none
    | none => if barBlocked g == g.present && g.present != 0#128 then some g.present else none

/-- What a turn executes, and who acts (notes/assumptions/2.md): a group its next word, a late effect or a header; a walker its
next word, its step limit or its fault; an event itself. A bad PC or word is judged before the limit, since it is no instruction
to execute (12 R306 to R308). -/
def chosen (s : State) (t : Turn) : Option (Instr × Option Actor) :=
  match t with
  | .event i => some (i, none)
  | .flaw _ => none
  | .group k =>
    match s.group? k with
    | none => none
    | some g =>
      if !g.late.isEmpty && (lateLanes g).isSome then some (.lateEffectDelivery k, none)
      else match g.cur with
        | some iss => if mayIssue s g then (wordAt iss).map fun i => (i, some (.group k)) else none
        | none => some (.clauseHeader k, none)
  | .walker c =>
    match (s.core c).walker with
    | none => none
    | some w =>
      if walkerGoes s c w then
        match walkerWord w with
        | none => some (.walkfault c, none)
        | some i => if s.times.stepLimit ≤ w.steps then some (.walkerStepLimit c, none) else some (i, some (.walker c))
      else none

end Sys2Proof.Machine
end

