-- ==== Sys2Proof/Machine/Control.lean ====
section
/-! DEFINITION. Control flow, loops, window, index, markers, waits and moves (05 R117 to R137; 01 R17), the clause header (03 R66
to R70; 24 R427) and the delivery of late effects (09 R240). -/

namespace Sys2Proof.Machine

open Sys2Proof

/-- The lanes a predicate selects among the active set (03 R82). -/
def acting (x : Ins) (p : Fin 8) (neg : Bool) : Mask := brxLanes x neg p

/-- Write a scalar destination; z discards (03 R77). -/
def putScalar (r : Reg) (v : Word) (g : Group) : Group :=
  match r with
  | .s n => g.setSreg n.val v
  | _ => g

/-- The target of a J-format transfer: its clause's header plus 4 times the signed offset (03 R82). -/
def jumpTarget (x : Ins) (off : BitVec 21) : Nat := (word x.iss.cl.addr + wordOfInt (4 * off.toInt)).toNat

/-- The loop whose body holds the instruction (05 R130). -/
def bodyLoop (x : Ins) : Option Loop := x.g.activeLoop x.act x.iss.cl.addr

/-- An instruction that a loop's body forbids raises RANGE there (05 R130). DESIGN CHOICE (notes/assumptions/50.md): p0 is the word's own
address. -/
def notInBody (x : Ins) (a : Act) : Act :=
  match bodyLoop x with
  | some _ => x.fail (x.range x.pc)
  | none => a

/-- NOP (05 R128). -/
def execNop (s : State) : Host.Outcome State Fault Refusal := issue .nop s fun x => .done x.s

/-- BRA (05 R122, R130). -/
def execBra (neg : Bool) (p : Fin 8) (off : BitVec 21) (s : State) : Host.Outcome State Fault Refusal :=
  issue (.bra neg p off) s fun x =>
    let t := jumpTarget x off
    let ok := match bodyLoop x with
      | some l => decide (x.iss.pc < t) && decide (t < l.stop)
      | none => true
    if ok then .go x.s [(acting x p neg, .header t)] else x.fail (x.range (word t))

/-- BRX (05 R123). -/
def execBrx (a : Reg) (neg : Bool) (p : Fin 8) (s : State) : Host.Outcome State Fault Refusal :=
  issue (.brx a neg p) s fun x => notInBody x <|
    .go x.s ((lanesOf x.g.width (acting x p neg)).map fun t => (one t, .header (x.a.val t).toNat))

/-- CALL (05 R124). DESIGN CHOICE (notes/assumptions/50.md): p0 of the RANGE of a push that would meet the spilled frames
is the new height. -/
def execCall (neg : Bool) (p : Fin 8) (off : BitVec 21) (s : State) : Host.Outcome State Fault Refusal :=
  issue (.call neg p off) s fun x => notInBody x <|
    let m := acting x p neg
    let h := x.g.it.callHt + 1
    if m = 0#128 then .done x.s
    else if x.g.wouldMeet h x.g.depth then x.fail (x.range (word h))
    else
      let s := x.s.store (valueAt (x.g.callSlot h) 8 (x.iss.cl.stop + h * 2 ^ 32))
      .go (s.modGroup x.k fun g =>
        let g := g.modLanes m fun l => { l with depth := h }
        { g with it := { g.it with callHt := h } }) [(m, .header (jumpTarget x off))]

/-- RET (05 R125). DESIGN CHOICE (notes/assumptions/50.md): p0 of the RANGE of an empty call stack is 0. -/
def execRet (s : State) : Host.Outcome State Fault Refusal :=
  issue .ret s fun x => notInBody x <|
    if x.g.it.callHt = 0 then x.fail (x.range 0)
    else .done (x.mod fun g => g.modLanes x.act fun l => { l with st := .ret })

/-- EXIT (05 R126). -/
def execExit (s : State) : Host.Outcome State Fault Refusal :=
  issue .exit s fun x => .done (x.mod fun g => g.modLanes x.act fun l => { l with st := .exited })

/-- YIELD (05 R127): the scheduler passes the group over for 16 cycles. -/
def execYield (s : State) : Host.Outcome State Fault Refusal :=
  issue .yield s fun x => notInBody x <| .then_ x.s fun s => s.modGroup x.k fun g => { g with yielded := 16 }

/-- The clauses that start at the first word end exactly where the words end (05 R129). -/
def wholeClauses : Nat → List Word → Bool
  | _, [] => true
  | 0, _ => false
  | fuel + 1, w :: ws =>
    let n := w.toNat / 4 % 8 + 2
    decide (n ≤ ws.length) && wholeClauses fuel (ws.drop n)

/-- LOOP (05 R129 to R131). DESIGN CHOICE (notes/assumptions/50.md): p0 of its RANGE is the trip count, whichever case holds. -/
def execLoop (a : Reg) (n : BitVec 11) (s : State) : Host.Outcome State Fault Refusal :=
  issue (.loop a n) s fun x =>
    let start := x.iss.cl.stop
    let ws := codeWords x.s x.g x.act start n.toNat
    if x.g.loop.isSome || x.g.runnable &&& ~~~x.act != 0#128 || ws.length != n.toNat || !wholeClauses 64 ws then
      x.fail (x.range x.a.sca)
    else
      let s := afterFetch x.s x.g x.act start n.toNat
      if x.a.sca = 0 then .go s [(x.act, .header (start + 4 * n.toNat))]
      else
        let l : Loop := ⟨x.a.sca.toNat, start, start + 4 * n.toNat, ws, x.g.invOf x.act⟩
        .done (s.modGroup x.k fun g => { g with loop := some l })

/-- WINB (05 R133). The sum is not reduced modulo 2^32 (notes/assumptions/46.md). -/
def execWinb (a : Reg) (imm : BitVec 11) (s : State) : Host.Outcome State Fault Refusal :=
  issue (.winb a imm) s fun x =>
    let new := x.a.sca.toNat + imm.toNat
    if new % 8 = 0 ∧ new < x.g.allot then .done (x.mod fun g => { g with it := { g.it with winBase := new } })
    else x.fail (x.range (word new))

/-- SETX (05 R134). -/
def execSetx (a : Reg) (add : Bool) (s : State) : Host.Outcome State Fault Refusal :=
  issue (.setx a add) s fun x =>
    .done (x.mod fun g => { g with it := { g.it with x := if add then g.it.x + x.a.sca else x.a.sca } })

/-- ISYNC (05 R135; 23 R417): from here on the group fetches no contents that an accepted invalidation has replaced. -/
def execIsync (s : State) : Host.Outcome State Fault Refusal :=
  issue .isync s fun x => .done (x.mod fun g => { g with stale := [] })

/-- BKM (05 R136; 24 R420). -/
def execBkm (a : Reg) (id : BitVec 11) (s : State) : Host.Outcome State Fault Refusal :=
  issue (.bkm a id) s fun x => .done (x.s.traceRecord x.g 1 x.pc x.csn (word id.toNat) x.a.sca)

/-- WAITF (05 R136). -/
def execWaitf (mask : BitVec 12) (s : State) : Host.Outcome State Fault Refusal :=
  issue (.waitf mask) s fun x =>
    if (List.range 12).any fun i => mask.getLsbD i && x.g.flagPending i then .hold x.kept else .done x.s

/-! ### MOV (05 R137; 01 R17) -/

/-- The group's value of a special selector (01 R17). -/
def specialOf (x : Ins) (sel : Nat) : Word :=
  let g := x.g
  let t := fun (f : Team → Nat) => word ((x.team.map f).getD 0)
  match sel with
  | 2 => word g.key.slot
  | 3 => word g.subName
  | 4 => word g.width
  | 5 => word (g.rankIn x.first)
  | 6 => t (·.num)
  | 7 => t (·.x)
  | 8 => t (·.y)
  | 9 => t (·.z)
  | 10 => word g.key.core
  | 11 => t (·.cluRank)
  | 12 => t fun t => t.cluRows * 256 + t.cluCols
  | 13 => g.it.csn
  | 14 => word g.it.winBase
  | 15 => word g.allot
  | _ => 0

/-- Thread t's value of a special selector: LANE and TIX by thread, the others broadcast (01 R17). -/
def specialAt (x : Ins) (sel t : Nat) : Word :=
  match sel with
  | 0 => word t
  | 1 => x.g.tixOf x.first t
  | _ => specialOf x sel

/-- Write D, a vector register, for the active threads under a map (05 R137). -/
def putVec (x : Ins) (m : LaneMap) (f : Nat → Word) : State :=
  match x.dst with
  | .vec p => x.mod fun g => g.writeVec x.s.tick p m x.act f
  | _ => x.s

/-- MOV (05 R137). -/
def execMov (d a : Reg) (b : BitVec 7) (form : MovForm) (s : State) : Host.Outcome State Fault Refusal :=
  issue (.mov d a b form) s fun x =>
    let idm := LaneMap.ident x.g.wcode
    match form with
    | .vv => .done (putVec x (x.a.map.getD idm) x.a.val)
    | .vs => .done (putVec x idm fun _ => x.a.sca)
    | .sv => .done (x.mod (putScalar d (x.a.val (x.b.sca.toNat % x.g.width))))
    | .ss => .done (x.mod (putScalar d x.a.sca))
    | .vsp => .done (putVec x idm (specialAt x b.toNat))
    | .ssp =>
      if b.toNat < 2 then
        match lowest x.g.width x.act with
        | some t => .done (x.mod (putScalar d (specialAt x b.toNat t)))
        | none => .done x.s
      else .done (x.mod (putScalar d (specialOf x b.toNat)))

/-! ### The clause header -/

/-- The breakpoint register that an address of the grid's code hits (24 R427). -/
def breakpointAt (s : State) (corr pc : Nat) : Option Nat :=
  if s.dist.bpGrid = corr then
    (List.range 4).find? fun i => (s.dist.bpPc.getD i 0).toNat % 2 == 1 && (s.dist.bpPc.getD i 0).toNat / 4 == pc / 4
  else none

/-- A group meets a breakpoint: it halts before the clause issues, and its launch is asked to halt (24 R427). -/
def hitBreakpoint (s : State) (g : Group) (pc n : Nat) : State :=
  let s := s.traceRecord g 4 (word pc) g.it.csn (word n) 0
  let s := { s with dist := { s.dist with
    bpHit := word (g.key.core + g.key.slot * 2 ^ 8 + g.subName * 2 ^ 16), bpPcHit := word pc } }
  requestPreempt ((s.setGroup { g with bpSkip := some pc }).modGrid (corrOf s g) fun x => { x with bp := true }) (corrOf s g)

/-- An effect of a header position (03 R88, R89): no word of the clause has issued. -/
def headerEffect (s : State) (g : Group) (eff pc : Nat) (p0 p1 : Word) (m : Mask) : State :=
  settle (perform s g.key g.loop [⟨BitVec.ofNat 11 eff, .none, word pc, g.it.csn, p0, p1, 0, 0, m, .none, none⟩]) g.key

/-- A header position with its active set: the clause's words are read and checked, then its flags waited for (03 R68, R88,
R89; 01 R20). -/
def enterClause (s : State) (g : Group) (pc : Nat) (m : Mask) : State :=
  if pc % 4 ≠ 0 then headerEffect s g 0x102 pc (word pc) 0 m
  else if poisonedCode s g m pc (clauseWords s g m pc) then headerEffect s g 0x106 pc 9 (word pc) m
  else
    let n := clauseWords s g m pc
    let s1 := afterFetch s g m pc n
    match readClause pc (codeWords s g m pc n) with
    | .error b => headerEffect s1 g 0x100 b.site b.p0 (word b.p1) m
    | .ok (cl, wait) =>
      let named := fun (f : Nat) => wait / 2 ^ f % 2 == 1 || f == cl.seta || f == cl.setb
      if (List.range 12).any fun f => named f && g.flagPending f then s
      else s1.modGroup g.key fun h => { h with
        cur := some ⟨cl, 0, m, .fresh⟩, bpSkip := if h.bpSkip = some pc then none else h.bpSkip }

/-- CLAUSE_HEADER (05 R117 to R119; 03 R66 to R70): the group selects a position; at a header it enters the clause, inside a
clause it goes on with the next word. -/
def execClauseHeader (k : GKey) (s : State) : Host.Outcome State Fault Refusal :=
  .next <|
    match s.group? k with
    | none => s
    | some g =>
      if !mayIssue s g || g.cur.isSome then s
      else
        match select g with
        | none => s
        | some (.inside cl i p, m) => s.setGroup { g with cur := some ⟨cl, i, m, p⟩ }
        | some (.header pc, m) =>
          if !g.late.isEmpty then s
          else
            match breakpointAt s (corrOf s g) pc with
            | some n => if g.bpSkip = some pc then enterClause s g pc m else hitBreakpoint s g pc n
            | none => enterClause s g pc m

/-- LATE_EFFECT_DELIVERY (09 R240; 17 R362): the effect whose turn it is, is performed by the lanes that R240 names. A word the
group waits at stays its resume point, and its clause the one it goes on in. -/
def execLateEffectDelivery (k : GKey) (s : State) : Host.Outcome State Fault Refusal :=
  .next <|
    match s.group? k with
    | none => s
    | some g =>
      match mayIssue s g, g.nextLate, lateLanes g with
      | true, some p, some m =>
        let g1 := match g.cur with
          | some iss => g.place iss.active (.inside iss.cl iss.idx iss.prog)
          | none => g
        let s := s.setGroup (g1.dropLate p)
        settle (perform s k g.loop [{ p with lanes := m }]) k
      | _, _, _ => s

end Sys2Proof.Machine
end

