-- ==== Sys2Proof/Machine/Element.lean ====
section
/-! DEFINITION. How an element instruction executes (07 R168, R169): operands thread by thread, the common map, the results,
their flags. -/

namespace Sys2Proof.Machine

open Sys2Proof

/-- The common map of an instruction's vector sources, the third source last (06 R147); it stays singular where A alone, or A and B
alike, have a singular map, whatever the third source's (notes/assumptions/46.md). -/
def commonOf (x : Ins) (third : Bool) : LaneMap :=
  match common x.g.wcode x.a.map x.b.map with
  | some m => m
  | none => if third then x.d.map.getD (LaneMap.ident x.g.wcode) else LaneMap.ident x.g.wcode

/-- The flags that the active threads raise (04 R111, R112). -/
def threadFlags (x : Ins) (f : Nat → Fl) : Fl := orFlags ((lanesOf x.g.width x.act).map f)

/-- Write D of an element instruction: each active thread's result under a map, or the one result of scalar form (07 R168). -/
def putElem (x : Ins) (m : LaneMap) (f : Nat → Word) : State :=
  match x.dst with
  | .vec p => x.mod fun g => g.writeVec x.s.tick p m x.act f
  | .sca n => x.mod fun g => g.setSreg n (f 0)
  | .none => x.s

/-- An element instruction: the operation on thread t's values of A, B and D (07 R168, R169). -/
def elem (x : Ins) (third : Bool) (op : Word → Word → Word → Word × Fl) : Act :=
  let m := commonOf x third
  let r := x.g.once x.s.tick m x.act fun t => op (x.a.val t) (x.b.val t) (x.d.val t)
  .done (putElem x m fun t => (r t).1)
    (if x.vector then threadFlags x fun t => (r t).2 else (r 0).2)

/-- An element instruction without flags. -/
def elemInt (x : Ins) (third : Bool) (op : Word → Word → Word → Word) : Act := elem x third fun a b d => (op a b d, 0#7)

/-- A comparison: thread t's bit of pD, or the one result in the bit of every active thread (07 R168). -/
def compare (x : Ins) (p : Fin 8) (op : Word → Word → Bool × Fl) : Act :=
  let r := fun (t : Nat) => op (x.a.val t) (x.b.val t)
  let bits := if x.vector then maskOf x.g.width fun t => (r t).1 else if (r 0).1 then x.g.full else 0#128
  .done (x.mod fun g => g.setPred p.val bits x.act) (if x.vector then threadFlags x fun t => (r t).2 else (r 0).2)

/-- A long-latency element instruction for a set of threads: the elements are fixed now, the results land at completion
(06 R151; 07 R170). -/
def longElem (x : Ins) (m : LaneMap) (t : Mask) (f : Nat → Word) (fl : Fl) : State :=
  match x.dst with
  | .vec p => x.flight (x.mod fun g => g.fixVec p m t) .ready (x.g.landing x.s.tick p m t f) fl
  | .sca n => x.flight x.s .ready [.sreg n (f 0)] fl
  | .none => x.flight x.s .ready [] fl

end Sys2Proof.Machine
end

