-- ==== Sys2Proof/Machine/Memory.lean ====
section
/-! DEFINITION. Loads, stores, atomics, tags and fences (08 R202 to R217, R224, R225; 15 R318, R321), and the steps that drain
the store queue and complete a long-latency instruction (01 R20, R21; 08 R208; 10 R276). -/

namespace Sys2Proof.Machine

open Sys2Proof

/-! ### Addresses and their checks (08 R203 to R205, R225) -/

/-- The bytes of an access size (03 R81). -/
def Size.bytes : Sys2Proof.Size → Nat
  | .b8 => 1
  | .b16 => 2
  | .b32 => 4
  | .b64 => 8

/-- The code of an access size (03 R81). -/
def Size.code : Sys2Proof.Size → Nat
  | .b8 => 0
  | .b16 => 1
  | .b32 => 2
  | .b64 => 3

/-- The code of a space (01 R34). -/
def Space.code : Sys2Proof.Space → Nat
  | .sh => 0
  | .sp => 1
  | .ss => 2

/-- A space as an access sees it: the flat address of offset 0, the window's size, and the die and scratchpad byte of offset 0
where the secure rule applies (01 R34, R35, R37). -/
structure Window where
  flat : Nat
  size : Nat
  sp   : Option (Nat × Nat)

/-- The window of a space for the issuing group (01 R34, R35; 08 R205). -/
def windowAt (x : Ins) (m : Space) : Window :=
  match m with
  | .sh => match x.team with
    | some t => ⟨shAddr x.k.core t.shBase, (t.shSize + 4095) / 4096 * 4096, none⟩
    | none => ⟨0, 0, none⟩
  | .sp => match x.s.windowOf x.corr x.die with
    | some w => ⟨spAddr x.die w.1, w.2, some (x.die, w.1)⟩
    | none => ⟨0, 0, none⟩
  | .ss =>
    let a := slotArea x.k.core x.k.slot
    ⟨a, 0x6000, some (x.die, a % 2 ^ 60)⟩

/-- An access: its space, size in bytes, size code, each thread's offset, the threads whose data breaks a rule of its own
(08 R224). -/
structure Acc where
  sp   : Space
  size : Nat
  code : Nat
  off  : Nat → Nat
  bad  : Nat → Bool

/-- The fate of a thread's access (08 R225 rows 3 to 6). -/
inductive Fate where | ok | align | range | secure
deriving DecidableEq, Repr

/-- The first failure of an access at an offset, or of D (08 R204, R225). -/
def fateAt (x : Ins) (a : Acc) (t : Nat) : Fate :=
  let w := windowAt x a.sp
  let o := a.off t
  if o % a.size ≠ 0 ∨ (accessAlign x.i && anyMisaligned x.i.shape) then .align
  else if w.size < o + a.size ∨ a.bad t then .range
  else match w.sp with
    | some p => if !x.s.secureGrid x.corr && x.s.secureRange p.1 (p.2 + o) a.size then .secure else .ok
    | none => .ok

/-- The threads that act: the active ones, or in scalar form one access for the group (08 R203). -/
def accThreads (x : Ins) : List Nat := if x.vector then lanesOf x.g.width x.act else [0]

/-- The threads whose access has a fate; in scalar form all the active ones share it (08 R203, R204). -/
def fateMask (x : Ins) (a : Acc) (f : Fate) : Mask :=
  if x.vector then maskOf x.g.width fun t => has x.act t && fateAt x a t == f
  else if fateAt x a 0 = f then x.act else 0#128

/-- The threads that pass, rising. -/
def passing (x : Ins) (a : Acc) : List Nat := (accThreads x).filter fun t => fateAt x a t == .ok

/-- The flat address of a thread's access. -/
def accAt (x : Ins) (a : Acc) (t : Nat) : Nat := (windowAt x a.sp).flat + a.off t

/-- The effects of the failing threads, in order (08 R204; 11 R290). -/
def failures (x : Ins) (a : Acc) : List Perf :=
  [Fate.align, .range, .secure].filterMap fun f =>
    let m := fateMask x a f
    if m = 0#128 then none
    else
      let o := word (a.off (if x.vector then (lowest x.g.width m).getD 0 else 0))
      some (match f with
        | .align => x.perf 0x102 .none o (word (Space.code a.sp + a.code * 16)) 0 m .none
        | .secure => x.perf 0x111 .none (word (Space.code a.sp)) o 0 m .none
        | _ => x.perf 0x103 .none o (word x.op) 0 m .none)

/-- An access with register operands (08 R203). -/
def accOf (x : Ins) (m : Space) (sz : Sys2Proof.Size) : Acc :=
  ⟨m, Size.bytes sz, Size.code sz, fun t => (x.a.val t + x.b.val t).toNat, fun _ => false⟩

/-- An access with an immediate count (08 R203). -/
def accImm (x : Ins) (m : Space) (sz : Sys2Proof.Size) (cnt : BitVec 7) : Acc :=
  ⟨m, Size.bytes sz, Size.code sz, fun t => (x.a.val t + wordOfInt (cnt.toInt * (Size.bytes sz : Nat))).toNat, fun _ => false⟩

/-! ### Loads (08 R206, R209, R224) -/

/-- A queued atomic of the group names a byte of the access (15 R321). -/
def awaitsAtomic (x : Ins) (a : Acc) : Bool :=
  (passing x a).any fun t => (List.range a.size).any fun i => atomAhead x.s x.g (accAt x a t + i)

/-- The registers that a result of some bytes takes in D (08 R206). -/
def landsOf (x : Ins) (n : Nat) (m : Mask) (v : Nat → Nat) : State × List Land :=
  let idm := LaneMap.ident x.g.wcode
  let lo := fun (t : Nat) => word (v t)
  let hi := fun (t : Nat) => word (v t / 2 ^ 32)
  match x.dst with
  | .vec p =>
    let s := x.mod fun g => let g := g.fixVec p idm m; if n = 8 then g.fixVec (p + 1) idm m else g
    (s, x.g.landing x.s.tick p idm m lo ++ (if n = 8 then x.g.landing x.s.tick (p + 1) idm m hi else []))
  | .sca r => (x.s, if m = 0#128 then [] else [.sreg r (lo 0)] ++ (if n = 8 then [.sreg (r + 1) (hi 0)] else []))
  | .none => (x.s, [])

/-- MEMPOISON of a load, pending as a late effect (18 R381): the space and the offset of the lowest affected thread. -/
def latePoison (x : Ins) (a : Acc) (ts : List Nat) (s : State) : State :=
  match ts with
  | [] => s
  | t :: _ => s.modGroup x.k fun g => { g with
    late := g.late ++ [(perfPoison x.pc x.csn (Space.code a.sp) (a.off t)).since x.mark] }

/-- The values of a load that may still be performed: those that no store of the group's core gives, in words of 4 bytes
(15 R320, R326). `at_` gives the address of a thread's datum, of `n` bytes. -/
def openReads (x : Ins) (n : Nat) (at_ : Nat → Nat) (lands : List Land) : List OpenRead :=
  (lands.zipIdx.map fun p =>
    let q := match p.1, x.dst with
      | .elem p e _, .vec r => if p = r then (e, 0) else (e, 4)
      | .sreg m _, .sca r => if m = r then (0, 0) else (0, 4)
      | _, _ => (0, 0)
    (⟨p.2, at_ q.1 + q.2, min n 4⟩ : OpenRead)).filter fun r =>
      !(List.range r.size).any fun i => unperformed x.s x.g (r.addr + i)

/-- A load (08 R206): each passing thread reads through the group's own stores (R208); a poisoned one lands nothing. What it reads
may still give way to a later value until it completes (15 R326 to R330; notes/assumptions/49.md). `read` gives a thread's value,
of the `n` bytes at `at_`, `touch` what the reading leaves behind. -/
def load (x : Ins) (a : Acc) (n : Nat) (at_ : Nat → Nat) (read : Nat → Nat) (touch : State → State) : Act :=
  if awaitsAtomic x a then .hold x.kept
  else
    let bad := (passing x a).filter fun t => seenPoison x.s x.g (accAt x a t) a.size
    let m := if x.vector then maskOf x.g.width fun t => (passing x a).contains t && !bad.contains t
      else if fateAt x a 0 = .ok ∧ bad = [] then x.act else 0#128
    let r := landsOf x a.size m read
    let s := closeReads (touch r.1) x.k ((passing x a).flatMap fun t => wordCells [at_ t / 4, (at_ t + n - 1) / 4].eraseDups)
    let s := x.flightOf s .ready r.2 0#7 (openReads x n at_ r.2)
    x.raise (latePoison x a bad s) (failures x a)

/-- A load of the data bytes of an access. -/
def plainLoad (x : Ins) (a : Acc) : Act := load x a a.size (accAt x a) (fun t => seenLoad x.s x.g (accAt x a t) a.size) id

/-- LD (08 R206). -/
def execLd (d a b : Reg) (m : Space) (sz : Size) (s : State) : Host.Outcome State Fault Refusal :=
  issue (.ld d a b m sz) s fun x => plainLoad x (accOf x m sz)

/-- LDI (08 R206). -/
def execLdi (d a : Reg) (m : Space) (sz : Size) (cnt : BitVec 7) (s : State) : Host.Outcome State Fault Refusal :=
  issue (.ldi d a m sz cnt) s fun x => plainLoad x (accImm x m sz cnt)

/-- The line of the invariant cache that holds an address for a grid (15 R318). -/
def invLine (c : Core) (corr a : Nat) : Option Line :=
  (c.inv.find? fun p => p.1 == corr && p.2.addr == a / 64 * 64).map (·.2)

/-- The values that the word of an address has held since the launch started and that the group has not stored over (08 R209). -/
def pastWords (x : Ins) (a : Nat) : List Word :=
  (x.s.past.filter fun p => p.addr / 4 == a / 4 && !p.shut.contains x.k).map (·.val)

/-- A byte of the value at `v` that LDN reads (08 R209; 15 R318): of a value that the word has held since the launch started, or of the
line held, where the value is taken from there, else as a load reads it. The group's own stores come first. A value comes from one of
these as a whole. -/
def ldnByte (x : Ins) (v a : Nat) : Byte :=
  if unperformed x.s x.g a then seenByte x.s x.g a
  else match (pastWords x a)[Config.ldnPast x.s.tick v]?, invLine (x.s.core x.k.core) x.corr a with
    | some w, _ => (w >>> (8 * (a % 4))).setWidth 8
    | none, some l => if Config.ldnHit x.s.tick v then l.bytes.getD (a % 64) 0 else seenByte x.s x.g a
    | none, none => seenByte x.s x.g a

/-- A thread's value of LDN, each half of 64 bits by itself (15 R320). -/
def ldnLoad (x : Ins) (a n : Nat) : Nat :=
  leNat ((List.range n).map fun i => ldnByte x (a + i / 4 * 4) (a + i))

/-- The lines of an invariant cache that remain, of at most 1,024: any may be replaced (15 R318). -/
def evict (tick : Nat) : Nat → List (Nat × Line) → List (Nat × Line)
  | 0, l => l
  | n + 1, l => if l.length ≤ 1024 then l else evict tick n (l.eraseIdx (Config.ldnVictim (tick + n) % l.length))

/-- The lines an LDN of the scratchpad fills: those it does not find held, or has filled anew (15 R318). -/
def ldnFill (x : Ins) (c : Acc) (s : State) : State :=
  let lines := ((passing x c).map fun t => accAt x c t / 64 * 64).eraseDups
  let miss := lines.filter fun a => (invLine (s.core x.k.core) x.corr a).isNone || Config.ldnRefill s.tick a
  s.modCore x.k.core fun k => { k with
    inv := evict s.tick miss.length ((miss.map fun a => (x.corr, (⟨a, s.bytes a 64⟩ : Line))) ++
      k.inv.filter fun p => !(p.1 == x.corr && miss.contains p.2.addr)) }

/-- LDN (08 R209; 15 R318): team shared memory bypasses the cache. -/
def execLdn (d a b : Reg) (m : Space) (sz : Size) (s : State) : Host.Outcome State Fault Refusal :=
  issue (.ldn d a b m sz) s fun x =>
    let c := accOf x m sz
    if m = .sh then plainLoad x c
    else load x c c.size (accAt x c) (fun t => ldnLoad x (accAt x c t) c.size) (ldnFill x c)

/-- LDT (08 R224): the access of a 64-byte block, which reads its tag. -/
def execLdt (d a b : Reg) (m : Space) (s : State) : Host.Outcome State Fault Refusal :=
  issue (.ldt d a b m) s fun x =>
    let c : Acc := ⟨m, 64, 0, fun t => (x.a.val t + x.b.val t).toNat, fun _ => false⟩
    load x c 2 (fun t => tagAddr (accAt x c t)) (fun t => (seenTag x.s x.g (accAt x c t)).toNat) id

/-! ### Stores (08 R207, R208, R224) -/

/-- Append an entry to the group's store queue (08 R208). -/
def enqueue (k : GKey) (e : QEntry) (s : State) : State :=
  ({ s with nextId := s.nextId + 1 } : State).modGroup k fun g => { g with queue := g.queue ++ [{ e with id := s.nextId }] }

/-- The entry of an access (08 R208). -/
def entryOf (x : Ins) (a : Acc) (op : QOp) (pend : Option Nat) : QEntry :=
  ⟨0, op, pend, x.dst, Space.code a.sp, (windowAt x a.sp).flat, x.pc, x.csn, x.mark⟩

/-- The register after D: the higher half of thread t's 64-bit value, and the others of a compare-and-swap (08 R207, R215). -/
def dNext (x : Ins) (i t : Nat) : Word :=
  match x.dst with
  | .vec p => (x.g.vreg (p + i)).value t
  | .sca n => x.g.sreg (n + i)
  | .none => 0

/-- The data of thread t's store (08 R207). -/
def storeData (x : Ins) (a : Acc) (t : Nat) : Nat :=
  (x.d.val t).toNat + (if a.size = 8 then (dNext x 1 t).toNat * 2 ^ 32 else 0)

/-- A store (08 R207): the bytes of the passing threads, in rising thread order, as one entry. -/
def store (x : Ins) (a : Acc) : Act :=
  let cells := (passing x a).flatMap fun t => valueAt (accAt x a t) a.size (storeData x a t)
  x.raise (if cells.isEmpty then x.s else enqueue x.k (entryOf x a (.bytes cells) none) x.s) (failures x a)

/-- ST (08 R207). -/
def execSt (d a b : Reg) (m : Space) (sz : Size) (s : State) : Host.Outcome State Fault Refusal :=
  issue (.st d a b m sz) s fun x => store x (accOf x m sz)

/-- STI (08 R207). -/
def execSti (d a : Reg) (m : Space) (sz : Size) (cnt : BitVec 7) (s : State) : Host.Outcome State Fault Refusal :=
  issue (.sti d a m sz cnt) s fun x => store x (accImm x m sz cnt)

/-- STT (08 R224): an illegal format code fails its thread. -/
def execStt (d a b : Reg) (m : Space) (s : State) : Host.Outcome State Fault Refusal :=
  issue (.stt d a b m) s fun x =>
    let c : Acc := ⟨m, 64, 0, fun t => (x.a.val t + x.b.val t).toNat, fun t => decide (0x0D ≤ (x.d.val t).toNat % 256)⟩
    let tags := (passing x c).map fun t => (accAt x c t, (x.d.val t).setWidth 16)
    x.raise (if tags.isEmpty then x.s else enqueue x.k (entryOf x c (.tags tags) none) x.s) (failures x c)

/-! ### Atomics (08 R211 to R215) -/

/-- An atomic: its destination elements are fixed now, its updates stand in the store queue (08 R208, R211; 06 R151). -/
def atomic (x : Ins) (a : Acc) (mk : List AtomEl → QOp) (el : Nat → AtomEl) : Act :=
  let els := (passing x a).map el
  let m := if x.vector then fateMask x a .ok else 0#128
  let idm := LaneMap.ident x.g.wcode
  let s := match x.dst with
    | .vec p => x.mod fun g => let g := g.fixVec p idm m; if a.size = 8 then g.fixVec (p + 1) idm m else g
    | _ => x.s
  let s := if els.isEmpty then x.flight s .ready [] 0#7
    else enqueue x.k (entryOf x a (mk els) (some s.nextId)) (x.flight s .queue [] 0#7)
  x.raise s (failures x a)

/-- The access of an atomic (08 R211). -/
def atomAcc (x : Ins) (m : Space) : Acc := ⟨m, 4, 2, fun t => (x.a.val t + x.b.val t).toNat, fun _ => false⟩

/-- Thread t's update (08 R211): in vector form its old value lands in element t under the identity. -/
def atomEl (x : Ins) (a : Acc) (t : Nat) : AtomEl := ⟨t, accAt x a t, 0, (x.d.val t).setWidth 64⟩

/-- ATOMH (08 R211 to R214). -/
def execAtomh (d a b : Reg) (op : AtomOp) (s : State) : Host.Outcome State Fault Refusal :=
  issue (.atomh d a b op) s fun x => let c := atomAcc x .sh; atomic x c (.atom op) (atomEl x c)

/-- ATOMP (08 R211 to R214). -/
def execAtomp (d a b : Reg) (op : AtomOp) (s : State) : Host.Outcome State Fault Refusal :=
  issue (.atomp d a b op) s fun x => let c := atomAcc x .sp; atomic x c (.atom op) (atomEl x c)

/-- Two words as a 64-bit value. -/
def joined (lo hi : Word) : DWord := hi.setWidth 64 <<< 32 ||| lo.setWidth 64

/-- Thread t's compare-and-swap (08 R215). -/
def casEl (x : Ins) (a : Acc) (t : Nat) : AtomEl :=
  if a.size = 8 then ⟨t, accAt x a t, joined (x.d.val t) (dNext x 1 t), joined (dNext x 2 t) (dNext x 3 t)⟩
  else ⟨t, accAt x a t, (x.d.val t).setWidth 64, (dNext x 1 t).setWidth 64⟩

/-- ACAS (08 R215). -/
def execAcas (d a b : Reg) (m : Space) (sz : Size) (s : State) : Host.Outcome State Fault Refusal :=
  issue (.acas d a b m sz) s fun x => let c := accOf x m sz; atomic x c (.cas (sz == .b64)) (casEl x c)

/-! ### FENCE (08 R216, R217) -/

/-- The scope reaches beyond the core of the group (15 R322): the cluster's, where it has another core. -/
def wideScope (x : Ins) : Scope → Bool
  | .grp | .team => false
  | .clu => (x.team.map fun t => decide (1 < t.cluRows * t.cluCols)).getD false
  | .die | .dev | .sys => true

/-- FENCE (08 R216, R217). The core sees its stores in core order, so that a fence within it has only the queue to wait for (15
R328); the walker and the copy engine come to them after it. Beyond the core, .full and .eng wait until every store has reached its
home, those of the core that the group may have seen among them (15 R324), and .rel holds back in the queue what comes after it. -/
def execFence (k : FenceKind) (c : Scope) (s : State) : Host.Outcome State Fault Refusal :=
  issue (.fence k c) s fun x =>
    let long := x.g.pend.any (·.mem)
    let stores := !x.g.queue.isEmpty
    let wide := wideScope x c
    let held : Bool := match k with
      | .rel => false
      | .acq => long
      | .full => long || (stores && c != .grp)
      | .eng => long || stores
    if held then .hold x.kept
    else match k with
      | .rel => .done (if wide then enqueue x.k ⟨0, .fence, none, .none, 0, 0, x.pc, x.csn, x.mark⟩ x.s else x.s)
      | .acq => .done x.s
      | _ => .done (if wide then landAll x.s x.k.core else if c = .grp then x.s else dueAll x.s x.k.core)

/-! ### The steps of the queue and of long-latency instructions -/

/-- STORE_QUEUE_DRAIN (08 R208; 15 R325): the head of the group's queue enters the core order, or a store of the group reaches its
slice. -/
def execStoreQueueDrain (g : GKey) (s : State) : Host.Outcome State Fault Refusal :=
  .next (tryRetire (drainStep s g) g)

/-- A matrix entry of the owner is older than a number (10 R264). -/
def olderEntry (s : State) (core : Nat) (o : Own) (id : Nat) : Bool :=
  let c := s.core core
  (c.mq.any fun e => e.own == o && decide (e.id < id)) ||
  (c.running.any fun r => r.entry.own == o && decide (r.entry.id < id))

/-- The word an ADRN reads: element `e` of a bank (10 R276). -/
def drainWord (s : State) (core bank e : Nat) : Word := s.word32 (accAddr core (bank * 8192 + 4 * e))

/-- What a long-latency instruction lands, once it can complete (01 R20; 10 R276; 11 R295, R296; 24 R425). -/
def completes (s : State) (g : Group) (p : Pend) : Option (List Land) :=
  match p.await with
  | .ready => some p.lands
  | .queue => none
  | .drain bank e0 phys act =>
    let o := s.ownOf g.key
    if olderEntry s g.key.core o p.id then none
    else some ((lanesOf g.width act).flatMap fun t =>
      [Land.elem phys t (drainWord s g.key.core bank (e0 + t)),
       Land.elem (phys + 1) t (drainWord s g.key.core bank (e0 + g.width + t))])
  | .wrsr .. => some p.lands
  | .stamp .. => some p.lands

end Sys2Proof.Machine
end

