-- ==== Sys2Proof/Machine/Claims.lean ====
section
/-! DEFINITION. Descriptors of tiles, halves and banks, and their claims, grants and releases (10 R259 to R262, R265). -/

namespace Sys2Proof.Machine

open Sys2Proof

/-! ### Descriptors (10 R259) -/

/-- A tile descriptor: first bank and banks; its slab fields are zero. -/
def tileOf (v : Word) : Option Tile :=
  let k := v.toNat % 128
  let n := v.toNat / 128 % 4 + 1
  if v.toNat < 512 ∧ k + n ≤ 128 then some ⟨k, n⟩ else none

/-- The A tile descriptor of MMAA: tile, first slab, slabs; the range lies within slab 7 (10 R265). -/
def slabTile (v : Word) : Option (Tile × Nat × Nat) :=
  let k := v.toNat % 128
  let n := v.toNat / 128 % 4 + 1
  let s0 := v.toNat / 512 % 8
  let c := v.toNat / 4096 % 8 + 1
  if v.toNat < 2 ^ 15 ∧ k + n ≤ 128 ∧ s0 + c ≤ 8 then some (⟨k, n⟩, s0, c) else none

/-- An operand descriptor: slot, first slab, slabs. -/
def operandOf (v : Word) : Option (Nat × Nat × Nat) :=
  let s0 := v.toNat / 32 % 16
  let c := v.toNat / 512 % 16 + 1
  if v.toNat < 2 ^ 13 ∧ s0 + c ≤ 16 then some (v.toNat % 32, s0, c) else none

/-- A sparse descriptor: value slot and metadata slot, which differ. -/
def sparseOf (v : Word) : Option (Nat × Nat) :=
  if v.toNat < 2 ^ 10 ∧ v.toNat % 32 ≠ v.toNat / 32 then some (v.toNat % 32, v.toNat / 32) else none

/-- A half-slot descriptor. -/
def halfOf (v : Word) : Option Nat := if v.toNat < 64 then some v.toNat else none

/-- A half range: first half and count. -/
def halfRange (v : Word) : Option (Nat × Nat) :=
  let f := v.toNat % 64
  let c := v.toNat / 64 % 128
  if v.toNat < 2 ^ 13 ∧ 1 ≤ c ∧ f + c ≤ 64 then some (f, c) else none

/-- A bank range: first bank and count. -/
def bankRange (v : Word) : Option (Nat × Nat) :=
  let f := v.toNat % 128
  let c := v.toNat / 128 % 256
  if v.toNat < 2 ^ 15 ∧ 1 ≤ c ∧ f + c ≤ 128 then some (f, c) else none

/-- A bank number. -/
def bankOf (v : Word) : Option Nat := if v.toNat < 128 then some v.toNat else none

/-- A descriptor that breaks R259 raises RANGE with its value. -/
def needs (x : Ins) (v : Word) (o : Option α) (f : α → Act) : Act :=
  match o with
  | some a => f a
  | none => x.fail (x.range v)

/-! ### Rights (10 R262, R265) -/

/-- The first right an operation lacks: halves to own (SLOTUNCLAIMED), banks to own, banks to own or hold by grant
(ACCUNALLOC). -/
def lacking (x : Ins) (halves writes reads : List Nat) : Option Perf :=
  let c := x.s.core x.k.core
  match halves.find? fun h => !c.ownsHalf x.own h with
  | some h => some (x.perf 0x108 .none (word h) 0 0 x.act .none)
  | none =>
    match writes.find? fun b => !c.ownsBank x.own b with
    | some b => some (x.perf 0x107 .none (word b) 0 0 x.act .none)
    | none =>
      match reads.find? fun b => !c.readsBank x.own b with
      | some b => some (x.perf 0x107 .none (word b) 0 0 x.act .none)
      | none => none

/-- The operation lacks a right, or goes on. -/
def entitled (x : Ins) (halves writes reads : List Nat) (f : Unit → Act) : Act :=
  match lacking x halves writes reads with
  | some p => x.fail p
  | none => f ()

/-! ### OCLM, OREL, ACLM, AREL -/

/-- Claim halves: all of them, or none (10 R260). -/
def claimHalves (x : Ins) (hs : List Nat) : Option Core :=
  let c := x.s.core x.k.core
  if hs.all fun h => c.claimable x.own (c.halfOwner h) then
    some { c with halves := c.halves.mapIdx fun i (o : Option Own) => if hs.contains i then some x.own else o }
  else none

/-- Claim banks: all of them, or none; a stale owner's grant lapses (10 R260, R261). -/
def claimBanks (x : Ins) (bs : List Nat) : Option Core :=
  let c := x.s.core x.k.core
  if bs.all fun b => c.claimable x.own (c.bank b).owner then
    some { c with banks := c.banks.mapIdx fun i (b : Bank) =>
      if bs.contains i then ⟨some x.own, if b.owner = some x.own then b.grantee else none⟩ else b }
  else none

/-- The status of a claim in D (10 R260). -/
def claimed (x : Ins) (d : Reg) (c : Option Core) : Act :=
  match c with
  | some c => .done ((x.mod (putScalar d 0)).setCore x.k.core c)
  | none => .done (x.mod (putScalar d 1))

/-- OCLM (10 R260). -/
def execOclm (d a : Reg) (s : State) : Host.Outcome State Fault Refusal :=
  issue (.oclm d a) s fun x => needs x x.a.sca (halfRange x.a.sca) fun r => claimed x d (claimHalves x (numbers r))

/-- OREL (10 R262). -/
def execOrel (a : Reg) (s : State) : Host.Outcome State Fault Refusal :=
  issue (.orel a) s fun x => needs x x.a.sca (halfRange x.a.sca) fun r =>
    entitled x (numbers r) [] [] fun _ =>
      if (numbers r).any (x.s.core x.k.core).halfBusy then .hold x.kept
      else .done (freeHalves x.s x.k.core (numbers r))

/-- ACLM (10 R260). -/
def execAclm (d a : Reg) (s : State) : Host.Outcome State Fault Refusal :=
  issue (.aclm d a) s fun x => needs x x.a.sca (bankRange x.a.sca) fun r => claimed x d (claimBanks x (numbers r))

/-- The live group of the issuer's team that a grantee descriptor names (10 R259, R261). -/
def granteeOf (x : Ins) (v : Word) : Option GKey :=
  if v.toNat < 2 ^ 10 then
    (x.s.groups.find? fun g => g.team == x.g.team && !g.allExited && g.subName == v.toNat / 256 &&
      decide (g.key.slot ≤ v.toNat % 256) && decide (v.toNat % 256 < g.key.slot + g.members)).map (·.key)
  else none

/-- A bank with its grant replaced, if it is one of those named (10 R261). -/
def Bank.grant (b : Bank) (named : Bool) (o : Option Own) : Bank := if named then { b with grantee := o } else b

/-- Change the grant of banks. -/
def regrant (x : Ins) (bs : List Nat) (o : Option Own) : State :=
  x.s.modCore x.k.core fun c => { c with banks := c.banks.mapIdx fun i (b : Bank) => b.grant (bs.contains i) o }

/-- ACLM.grant (10 R261; R262: its descriptors before its rights). -/
def execAclmGrant (a b : Reg) (s : State) : Host.Outcome State Fault Refusal :=
  issue (.aclmGrant a b) s fun x => needs x x.a.sca (bankOf x.a.sca) fun k =>
    needs x x.b.sca (granteeOf x x.b.sca) fun g => entitled x [] [k] [] fun _ =>
      .done (regrant x [k] (some (x.s.ownOf g)))

/-! ### Tiles that carry unsettled tags (10 R270, R271, R273) -/

/-- A seal of the tag waits at its place in matrix order. -/
def Core.sealing (c : Core) (i : Nat) : Bool :=
  c.entries.any fun e => match e.op with
    | .seal _ j => i == j
    | _ => false

/-- What the provisional rules say of a write (10 R270, R273). -/
inductive Verdict where | pass | wait | refuse
deriving DecidableEq, Repr

/-- A write to a tile: `accum` for an accumulate MMA or MMSP (10 R270, R273). -/
def Core.verdict (c : Core) (o : Own) (d : Tile) (accum : Bool) : Verdict :=
  let hit := (List.range 16).filter fun i => (c.tag i).unsettled && (c.tag i).tile.meets d
  let shut := fun i => (c.tag i).st == .sealed || c.sealing i
  if (hit.any fun i => !shut i && !((c.tag i).pub == o && (c.tag i).tile == d && accum)) then .refuse
  else if hit.any shut then .wait else .pass

/-- A write to a tile under the provisional rules: RANGE with the tile's descriptor, a wait, or on (10 R270, R273). -/
def writable (x : Ins) (d : Tile) (v : Word) (accum : Bool) (f : Unit → Act) : Act :=
  match (x.s.core x.k.core).verdict x.own d accum with
  | .refuse => x.fail (x.range v)
  | .wait => .hold x.kept
  | .pass => f ()

/-- A non-linear consumer of a tile (10 R271): RANGE, a wait, or on. -/
def nonLinear (x : Ins) (t : Tile) (v : Word) (f : Unit → Act) : Act :=
  let c := x.s.core x.k.core
  if c.openBy x.own t then x.fail (x.range v)
  else if c.carried t ≠ [] then .hold x.kept
  else f ()

/-- AREL (10 R262, R271). -/
def execArel (a : Reg) (s : State) : Host.Outcome State Fault Refusal :=
  issue (.arel a) s fun x => needs x x.a.sca (bankRange x.a.sca) fun r =>
    entitled x [] (numbers r) [] fun _ => nonLinear x ⟨r.1, r.2⟩ x.a.sca fun _ =>
      if (numbers r).any (bankBusy x.s x.k.core) then .hold x.kept
      else .done (freeBanks x.s x.k.core x.g.it.stampOn (numbers r))

/-- AREL.revoke (10 R261, R262): a grantee's bank is not its to revoke. -/
def execArelRevoke (a : Reg) (s : State) : Host.Outcome State Fault Refusal :=
  issue (.arelRevoke a) s fun x => needs x x.a.sca (bankRange x.a.sca) fun r =>
    let c := x.s.core x.k.core
    match (numbers r).find? fun b => !c.ownsBank x.own b && (c.bank b).grantee == some x.own with
    | some b => x.fail (x.perf 0x107 .none (word b) 0 0 x.act .none)
    | none => .done (regrant x ((numbers r).filter (c.ownsBank x.own)) none)

end Sys2Proof.Machine
end

