-- ==== Sys2Proof/Machine/Matrix.lean ====
section
/-! DEFINITION. The matrix instructions at their issue: checks, waits, the place in matrix order (10 R263 to R265, R270 to R279). -/

namespace Sys2Proof.Machine

open Sys2Proof

/-! ### Taking a place in matrix order (10 R263, R271) -/

/-- Entries of the core's matrix queue in use. -/
def Core.queued (c : Core) : Nat := c.entries.length

/-- The matrix queue has a free entry (10 R263). -/
def queueRoom (x : Ins) (f : Unit → Act) : Act :=
  if (x.s.core x.k.core).queued < 32 then f () else .hold x.kept

/-- The unsettled tags that a derivation inherits (10 R271). -/
def Core.inherits (c : Core) (o : DerivOp) : List Nat :=
  (List.range 16).filter fun i => o.sources.any fun t => (c.carried t).contains i

/-- The derivation table has an entry for every tag (10 R271). -/
def tableRoom (x : Ins) (o : Option DerivOp) (f : Unit → Act) : Act :=
  let c := x.s.core x.k.core
  let n := ((o.map c.inherits).getD []).length
  if c.derivs.length + n ≤ 64 then f () else .hold x.kept

/-- The derivation entries of an entry to come. -/
def derivsOf (c : Core) (id uid : Nat) (d : Tile) (o : Option DerivOp) : List Deriv :=
  match o with
  | some op => (c.inherits op).zipIdx.map fun p => ⟨uid + p.2, p.1, d, op, 0, id, false⟩
  | none => []

/-- Put an entry into the core's matrix queue, with its derivation entries (10 R263, R271). What stands in core order by then comes
before it (15 R328). -/
def placeEntry (x : Ins) (s : State) (op : MOp) (joins landed : Bool) (der : Option DerivOp) : State :=
  let e : MEntry :=
    { id := s.nextId, key := x.k, own := x.own, team := x.g.team, op := op, pc := x.pc, csn := x.csn, mark := x.mark
      batch := if joins then some (x.g.it.lastBatch + 1) else none, landed := landed
      done := 0, ready := none }
  let s := { s with nextId := s.nextId + 1 }
  let ds := derivsOf (s.core x.k.core) e.id s.nextId (op.target.getD ⟨0, 0⟩) der
  (dueAll { s with nextId := s.nextId + ds.length } x.k.core).modCore x.k.core fun c =>
    { c with mq := c.mq ++ [e], derivs := c.derivs ++ ds }

/-! ### MMA, MMAA, MMSP (10 R265) -/

/-- What a product asks for at its issue. -/
structure Product where
  op     : MOp
  d      : Tile
  halves : List Nat
  reads  : List Nat
  accum  : Bool
  der    : Option DerivOp

/-- A product's descriptors (10 R259, R265 step 1): the offending value, or what it asks for. -/
def productOf (i : Instr) (dv av bv : Word) : Except Word Product :=
  match tileOf dv, halfOf bv with
  | none, _ => .error dv
  | some _, none => .error bv
  | some d, some h =>
    match i with
    | .mma _ _ _ tb ov =>
      match operandOf av with
      | some (sl, s0, c) => .ok ⟨.mma d sl s0 c h tb ov, d, [2 * sl, 2 * sl + 1, h], [], !ov, none⟩
      | none => .error av
    | .mmaa _ _ _ ov =>
      match slabTile av with
      | some (a, s0, c) =>
        if a.n < d.n ∨ a.meets d then .error av
        else .ok ⟨.mmaa d a s0 c h ov, d, [h], a.banks, false, some (.mmaa h s0 c a)⟩
      | none => .error av
    | .mmsp _ _ _ tb ov =>
      match sparseOf av with
      | some (v, m) => .ok ⟨.mmsp d v m h tb ov, d, [2 * v, 2 * v + 1, 2 * m, 2 * m + 1, h], [], !ov, none⟩
      | none => .error av
    | _ => .error dv

/-- A product at its issue: the checks and waits of R265 and R270 to R272, then on. `dv` is its tile descriptor. -/
def takeProduct (x : Ins) (p : Product) (dv : Word) (f : Unit → Act) : Act :=
  entitled x p.halves p.d.banks p.reads fun _ => writable x p.d dv p.accum fun _ =>
    queueRoom x fun _ => tableRoom x p.der f

/-- MMA, MMAA and MMSP at their issue. -/
def product (x : Ins) : Act :=
  match productOf x.i x.d.sca x.a.sca x.b.sca with
  | .error v => x.fail (x.range v)
  | .ok p => takeProduct x p x.d.sca fun _ => .done (placeEntry x x.s p.op false true p.der)

/-- MMA (10 R263 to R267). -/
def execMma (d a b : Reg) (tb ov : Bool) (s : State) : Host.Outcome State Fault Refusal :=
  issue (.mma d a b tb ov) s product

/-- MMAA (10 R263 to R267, R271). -/
def execMmaa (d a b : Reg) (ov : Bool) (s : State) : Host.Outcome State Fault Refusal :=
  issue (.mmaa d a b ov) s product

/-- MMSP (10 R268, R269). -/
def execMmsp (d a b : Reg) (tb ov : Bool) (s : State) : Host.Outcome State Fault Refusal :=
  issue (.mmsp d a b tb ov) s product

/-! ### Provisional tiles (10 R270, R273, R274) -/

/-- The lowest free tag (10 R270). -/
def Core.freeTag (c : Core) : Option Nat := (List.range 16).find? fun i => (c.tag i).st == .free

/-- PUBL (10 R270). -/
def execPubl (d a : Reg) (s : State) : Host.Outcome State Fault Refusal :=
  issue (.publ d a) s fun x => needs x x.a.sca (tileOf x.a.sca) fun t =>
    entitled x [] t.banks [] fun _ =>
      let c := x.s.core x.k.core
      if c.carried t ≠ [] then x.fail (x.range x.a.sca)
      else queueRoom x fun _ =>
        match c.freeTag with
        | some i =>
          let s := (x.mod (putScalar d (word i))).modCore x.k.core fun c => c.modTag i fun _ =>
            ⟨.opened, x.g.team, x.own, t, 0, []⟩
          .done (placeEntry x s (.publ t (some i)) false true none)
        | none => .done (placeEntry x (x.mod (putScalar d 0xFFFFFFFF)) (.publ t none) false true none)

/-- The Open tag that the group has published over exactly this tile (10 R273). -/
def Core.openTag (c : Core) (o : Own) (t : Tile) : Option Nat :=
  (List.range 16).find? fun i => (c.tag i).st == .opened && (c.tag i).pub == o && (c.tag i).tile == t

/-- PUBL.seal (10 R273). -/
def execPublSeal (a : Reg) (s : State) : Host.Outcome State Fault Refusal :=
  issue (.publSeal a) s fun x => needs x x.a.sca (tileOf x.a.sca) fun t =>
    needs x x.a.sca ((x.s.core x.k.core).openTag x.own t) fun i =>
      queueRoom x fun _ => .done (placeEntry x x.s (.seal t i) false true none)

/-- SETL (10 R274). -/
def execSetl (a : Reg) (s : State) : Host.Outcome State Fault Refusal :=
  issue (.setl a) s fun x =>
    let c := x.s.core x.k.core
    let m := x.a.sca
    let named := (List.range 16).filter fun i => m.getLsbD i
    if m.toNat ≥ 2 ^ 16 ∨ named.any fun i => (c.tag i).st == .opened && (c.tag i).pub == x.own then x.fail (x.range m)
    else if named.all fun i => !(c.tag i).unsettled || (c.tag i).team != x.g.team then .done x.s
    else .hold x.kept

/-! ### Moving tiles (10 R275 to R279) -/

/-- The operation of an ALIN with its sources (10 R275): `none` where B breaks R259. -/
def alinOp (op : AlinOp) (a : Tile) (b : Word) : Option DerivOp :=
  match op with
  | .add => (tileOf b).map (.add a)
  | .sub => (tileOf b).map (.sub a)
  | .scale => some (.scale a b)
  | .copy => some (.copy a)
  | .transpose => some (.transpose a)

/-- The tiles of an ALIN agree (10 R275): equal row counts, no overlap but of D with A or B exactly; transpose takes two
banks and no overlap. -/
def alinFits (d : Tile) (o : DerivOp) : Bool :=
  match o with
  | .transpose a => a.n == 2 && d.n == 2 && !d.meets a
  | _ => o.sources.all fun t => t.n == d.n && (t == d || !d.meets t)

/-- ALIN (10 R275, R271). -/
def execAlin (d a b : Reg) (op : AlinOp) (s : State) : Host.Outcome State Fault Refusal :=
  issue (.alin d a b op) s fun x =>
    needs x x.d.sca (tileOf x.d.sca) fun t => needs x x.a.sca (tileOf x.a.sca) fun u =>
      needs x x.b.sca (alinOp op u x.b.sca) fun o =>
        if !alinFits t o then x.fail (x.range x.d.sca)
        else entitled x [] t.banks (o.sources.flatMap Tile.banks) fun _ => writable x t x.d.sca false fun _ =>
          queueRoom x fun _ => tableRoom x (some o) fun _ => .done (placeEntry x x.s (.alin o t) false true (some o))

/-- AFIL (10 R275). -/
def execAfil (a b : Reg) (s : State) : Host.Outcome State Fault Refusal :=
  issue (.afil a b) s fun x => needs x x.a.sca (tileOf x.a.sca) fun t =>
    entitled x [] t.banks [] fun _ => writable x t x.a.sca false fun _ =>
      queueRoom x fun _ => .done (placeEntry x x.s (.afil t x.b.sca) false true none)

/-- The offset of an element that a drain meets poisoned: MEMPOISON at issue (18 R381). -/
def drainable (x : Ins) (off n : Nat) (f : Unit → Act) : Act :=
  match firstPoison x.s (accAddr x.k.core off) n with
  | some a => x.fail (x.perf 0x106 .none 4 (word (a - accAddr x.k.core 0)) 0 x.act .none)
  | none => f ()

/-- ADRN (10 R276). -/
def execAdrn (d a b : Reg) (s : State) : Host.Outcome State Fault Refusal :=
  issue (.adrn d a b) s fun x => needs x x.a.sca (bankOf x.a.sca) fun k =>
    let w := x.g.width
    let e0 := x.b.sca.toNat
    if e0 % w ≠ 0 ∨ 2048 < e0 + 2 * w then x.fail (x.range x.b.sca)
    else entitled x [] [] [k] fun _ => nonLinear x ⟨k, 1⟩ x.a.sca fun _ =>
      drainable x (k * 8192 + 4 * e0) (8 * w) fun _ =>
        match x.dst with
        | .vec p =>
          let idm := LaneMap.ident x.g.wcode
          let s := x.mod fun g => (g.fixVec p idm x.act).fixVec (p + 1) idm x.act
          .done (x.flight s (.drain k e0 p x.act) [] 0#7)
        | _ => .done x.s

/-- A tag code that no block may receive (10 R277). -/
def badTag (v : Word) : Bool := decide (2 ^ 16 ≤ v.toNat) || decide (0x0D ≤ v.toNat % 256)

/-- ALIGN of an on-chip offset of an engine (11 R290). -/
def Ins.align (x : Ins) (off : Word) (m : Sys2Proof.Space) : Perf := x.perf 0x102 .none off (word (Space.code m)) 0 x.act .none

/-- A write of an entry to halves waits while one of them is pinned (10 R271). -/
def unpinned (x : Ins) (hs : List Nat) (f : Unit → Act) : Act :=
  if hs.any (x.s.core x.k.core).pinned then .hold x.kept else f ()

/-- OLD (10 R277). -/
def execOld (d a b : Reg) (s : State) : Host.Outcome State Fault Refusal :=
  issue (.old d a b) s fun x => needs x x.a.sca (halfRange x.a.sca) fun r =>
    let off := x.d.sca
    let w := windowAt x .sh
    if b ≠ .z ∧ badTag x.b.sca then x.fail (x.range x.b.sca)
    else if off.toNat % 64 ≠ 0 then x.fail (x.align off .sh)
    else if w.size < off.toNat + 8192 * r.2 then x.fail (x.range off)
    else entitled x (numbers r) [] [] fun _ => unpinned x (numbers r) fun _ => queueRoom x fun _ =>
      let tag := if b = .z then none else some (x.b.sca.setWidth 16)
      .done (placeEntry x x.s (.old (w.flat + off.toNat) r.1 r.2 tag) true true none)

/-- SLTG (10 R277). -/
def execSltg (a b : Reg) (s : State) : Host.Outcome State Fault Refusal :=
  issue (.sltg a b) s fun x => needs x x.a.sca (halfRange x.a.sca) fun r =>
    if badTag x.b.sca then x.fail (x.range x.b.sca)
    else entitled x (numbers r) [] [] fun _ => unpinned x (numbers r) fun _ => queueRoom x fun _ =>
      .done (placeEntry x x.s (.sltg r.1 r.2 (x.b.sca.setWidth 16)) false true none)

/-- A row of a store by AST lies in a secure unit (01 R37; 10 R277). -/
def astSecure (x : Ins) (w : Window) (off stride rows : Nat) : Bool :=
  match w.sp with
  | some p => !x.s.secureGrid x.corr && (List.range rows).any fun i =>
      x.s.secureRange p.1 (p.2 + off + i * stride) 256
  | none => false

/-- AST (10 R277). -/
def execAst (d a b : Reg) (m : Space) (s : State) : Host.Outcome State Fault Refusal :=
  issue (.ast d a b m) s fun x => needs x x.a.sca (tileOf x.a.sca) fun t =>
    let off := x.d.sca
    let stride := x.b.sca.toNat
    let w := windowAt x m
    let rows := 32 * t.n
    if stride % 256 ≠ 0 then x.fail (x.range x.b.sca)
    else if off.toNat % 64 ≠ 0 then x.fail (x.align off m)
    else if w.size < off.toNat + (rows - 1) * stride + 256 then x.fail (x.range off)
    else if astSecure x w off.toNat stride rows then x.fail (x.perf 0x111 .none (word (Space.code m)) off 0 x.act .none)
    else entitled x [] [] t.banks fun _ => nonLinear x t x.a.sca fun _ =>
      drainable x (t.base * 8192) (t.n * 8192) fun _ => queueRoom x fun _ =>
        .done (placeEntry x x.s (.ast t (w.flat + off.toNat) stride) true true none)

/-- The scalar of an OST's destination (10 R278): the flat address and the halves written, or the effect. -/
def ostDest (x : Ins) (t : Tile) (fmt : OstFmt) : Except Perf (Nat × List Nat) :=
  let v := x.d.sca
  let n := t.n * 2048 * OstFmt.bytes fmt
  if v.toNat / 2 ^ 20 % 2 ^ 11 ≠ 0 then .error (x.range v)
  else if v.getLsbD 31 then
    let h := v.toNat % 2 ^ 20
    let hs := numbers (h, (n + 8191) / 8192)
    if 64 < h + hs.length then .error (x.range v) else .ok (opAddr x.k.core (h * 8192), hs)
  else
    let off := v.toNat % 2 ^ 20
    let w := windowAt x .sh
    if off % 64 ≠ 0 then .error (x.align (word off) .sh)
    else if w.size < off + n then .error (x.range (word off))
    else .ok (w.flat + off, [])

/-- OST (10 R278). -/
def execOst (d a b : Reg) (sat : Bool) (fmt : OstFmt) (s : State) : Host.Outcome State Fault Refusal :=
  issue (.ost d a b sat fmt) s fun x => needs x x.a.sca (tileOf x.a.sca) fun t =>
    if 2 ^ 8 ≤ x.b.sca.toNat then x.fail (x.range x.b.sca)
    else
      match ostDest x t fmt with
      | .error p => x.fail p
      | .ok (dst, hs) =>
        entitled x hs [] t.banks fun _ => nonLinear x t x.a.sca fun _ =>
          drainable x (t.base * 8192) (t.n * 8192) fun _ => queueRoom x fun _ =>
            .done (placeEntry x x.s (.ost t fmt sat (x.b.sca.setWidth 8) dst) true true none)

end Sys2Proof.Machine
end

