-- ==== Sys2Proof/Machine/Array.lean ====
section
/-! DEFINITION. The matrix array at work: formats, products, moves, the start and the end of an entry, correction applications
(10 R263 to R280; 04 R100 to R102, R110; 18 R381). -/

namespace Sys2Proof.Machine

open Sys2Proof

/-! ### Operands (10 R263, R267) -/

/-- The kinds of operand that pairings are made of (10 R263). -/
inductive OpKind where | half | f8 | p2 | s8
deriving DecidableEq, Repr

/-- An operand's format: kind, element bytes, K (10 R263). -/
structure OpFmt where
  kind : OpKind
  size : Nat
  k    : Nat
deriving DecidableEq, Repr

/-- The format of a tag code; code 0x00 reads as BF16 (10 R263, R267). -/
def opFmt (code : Nat) : Option OpFmt :=
  match code with
  | 0 => some ⟨.half, 2, 64⟩
  | 2 => some ⟨.half, 2, 64⟩
  | 3 => some ⟨.half, 2, 64⟩
  | 4 => some ⟨.f8, 1, 128⟩
  | 5 => some ⟨.f8, 1, 128⟩
  | 6 => some ⟨.p2, 1, 128⟩
  | 8 => some ⟨.s8, 1, 32⟩
  | _ => none

/-- The pairings of MMA and MMSP (10 R263). -/
def pairing (a b : OpKind) : Bool :=
  match a, b with
  | .half, .half => true
  | .f8, .f8 => true
  | .p2, .f8 => true
  | .f8, .p2 => true
  | .s8, .s8 => true
  | _, _ => false

/-- Why an entry fails at its start (10 R267): RANGE, or MEMPOISON at a flat address. -/
inductive EntryBad where
  | range
  | poison (a : Nat)
deriving DecidableEq, Repr

/-- The blocks that some spans of flat addresses meet. -/
def blocksOf (l : List (Nat × Nat)) : List Nat :=
  (l.flatMap fun p => (List.range ((p.2 - 1) / 64 + 1 - p.1 / 64)).map fun i => (p.1 / 64 + i) * 64).eraseDups

/-- The first poisoned byte of some spans. -/
def poisonIn (s : State) (l : List (Nat × Nat)) : Option Nat := l.findSome? fun p => firstPoison s p.1 (p.2 - p.1)

/-- The element sizes and K that a format may have (10 R263). -/
def opShapes : List (Nat × Nat) := [(2, 64), (1, 128), (1, 32)]

/-- The code of an operand (10 R267): one format code on every block that the format makes the operation read. An illegal code
is MEMPOISON (04 R101), any other mixture RANGE. `spans` are the bytes read for an element size and a K. -/
def pickFmt (s : State) (spans : Nat → Nat → List (Nat × Nat)) : Except EntryBad (Nat × OpFmt) :=
  let code := fun a => (s.tag a).toNat % 256
  match opShapes.findSome? fun h =>
      match (blocksOf (spans h.1 h.2)).map code with
      | [] => none
      | c :: cs => match opFmt c with
        | some f => if f.size = h.1 ∧ f.k = h.2 ∧ cs.all (· == c) then some (c, f) else none
        | none => none with
  | some r => .ok r
  | none =>
    match (opShapes.flatMap fun h => blocksOf (spans h.1 h.2)).find? fun a => decide (0x0D ≤ code a) with
    | some a => .error (.poison a)
    | none => .error .range

/-- The bytes an A slot gives for rows and a slab range (10 R266). -/
def aSpans (core slot rows s0 c size k : Nat) : List (Nat × Nat) :=
  let base := opAddr core (slot * 16384)
  let hi := min (s0 + c) (k / 8)
  if hi ≤ s0 then []
  else (List.range rows).map fun i => (base + (i * k + 8 * s0) * size, base + (i * k + 8 * hi) * size)

/-- The bytes a B half gives for a slab range (10 R266). -/
def bSpans (core half : Nat) (tb : Bool) (s0 c size k : Nat) : List (Nat × Nat) :=
  let base := opAddr core (half * 8192)
  let hi := min (s0 + c) (k / 8)
  if hi ≤ s0 then []
  else if tb then (List.range 64).map fun j => (base + (k * j + 8 * s0) * size, base + (k * j + 8 * hi) * size)
  else [(base + 512 * s0 * size, base + 512 * hi * size)]

/-- Operand memory from one address on, read for a product: its bytes and its tags. -/
structure OpView where
  data : View
  tags : View

/-- Read `n` bytes of operand memory, a multiple of 64, with their tags. -/
def opView (s : State) (a n : Nat) : OpView := ⟨s.view a n, s.view (tagAddr a) (n / 64 * 2)⟩

/-- The element at a flat address of operand memory, as it enters a product (04 R100, R102; 10 R267). -/
def opTerm (v : OpView) (code size a : Nat) : Term :=
  let bits := v.data.load a size
  if code = 0 then (Flt.bf16.decode bits).asTerm
  else
    let sc := v.tags.load (tagAddr a) 2 / 256
    if sc = 128 then .badScale
    else match tagElem code with
      | some el => ((el.decode bits).scale (scaleExp sc)).asTerm
      | none => .badScale

/-- A half of operand memory. -/
def halfView (s : State) (core half : Nat) : OpView := opView s (opAddr core (half * 8192)) 8192

/-- A slot of operand memory. -/
def slotView (s : State) (core slot : Nat) : OpView := opView s (opAddr core (slot * 16384)) 16384

/-- B element (k, j) of a half (10 R266). -/
def bTerm (v : OpView) (core half : Nat) (tb : Bool) (c : Nat) (f : OpFmt) (k j : Nat) : Term :=
  opTerm v c f.size (opAddr core (half * 8192) + (if tb then f.k * j + k else 64 * k + j) * f.size)

/-- A block with a NaN scale among those an S8 operand reads (04 R102). -/
def nanScale (s : State) (f : OpFmt) (l : List (Nat × Nat)) : Option Nat :=
  if f.kind = .s8 then (blocksOf l).find? fun a => (s.tag a).toNat / 256 == 128 else none

/-! ### Products (04 R110; 10 R266) -/

/-- A slab's exact sum rounded once to FP32. -/
def slabFloat (ts : List Term) : Nat × Fl := sumRound .f32 .rne ts

/-- A slab's exact sum of S8 products, rounded to an integer, modulo 2^32 (04 R110). -/
def slabInt (ts : List Term) : Nat × Fl :=
  match sumVal .rne ts with
  | .fin n m e =>
    let r := roundAt .rne n m e 0 false
    ((if n then 2 ^ 32 - r.n % 2 ^ 32 else r.n) % 2 ^ 32, Fl.when r.inexact Fl.nx)
  | _ => (0, 0#7)

/-- One more slab onto an accumulator. -/
def addSlab (int : Bool) (acc v : Nat × Fl) : Nat × Fl :=
  if int then ((acc.1 + v.1) % 2 ^ 32, acc.2 ||| v.2)
  else let r := fadd .f32 .rne acc.1 v.1; (r.1, acc.2 ||| v.2 ||| r.2)

/-- An element's slabs onto its old value; the overwrite form starts with its first slab, and is +0 without one
(04 R110; 10 R266, R268). -/
def sumSlabs (int ov : Bool) (old : Nat) (slabs : List (Nat × Fl)) : Nat × Fl :=
  match ov, slabs with
  | true, [] => (0, 0#7)
  | true, v :: vs => vs.foldl (addSlab int) v
  | false, vs => vs.foldl (addSlab int) (old, 0#7)

/-- Products in slabs of eight (04 R110). -/
def inSlabs (ts : List Term) : List (List Term) :=
  (List.range ((ts.length + 7) / 8)).map fun q => (ts.drop (8 * q)).take 8

/-- What an entry makes: bytes and tags it writes, flags, the rounded slabs of each element in tile order. -/
structure Work where
  bytes : List (Nat × Byte)
  tags  : List (Nat × BitVec 16)
  flags : Fl
  slabs : List (List Nat)

/-- A work that writes nothing. -/
def Work.none_ : Work := ⟨[], [], 0#7, []⟩

/-- The flat address of element n of a tile: its banks' rows run in order (10 R259, R266). -/
def tileAt (core : Nat) (t : Tile) (n : Nat) : Nat := accAddr core (t.base * 8192 + 4 * n)

/-- A tile, read as a whole. -/
def tileView (s : State) (core : Nat) (t : Tile) : View := s.view (tileAt core t 0) (8192 * t.n)

/-- Element n of a tile. -/
def tileElem (v : View) (core : Nat) (t : Tile) (n : Nat) : Nat := v.load (tileAt core t n) 4

/-- The bytes of a tile. -/
def Tile.span (core : Nat) (t : Tile) : Nat × Nat := (tileAt core t 0, tileAt core t (2048 * t.n))

/-- Write element values to a tile. -/
def tileWork (core : Nat) (t : Tile) (r : List (Nat × Fl)) : Work :=
  ⟨r.zipIdx.flatMap fun p => valueAt (tileAt core t p.2) 4 p.1.1, [], orFlags (r.map (·.2)), []⟩

/-- A product onto a tile: `prods` gives the products of element (i, j) in order of k. -/
def productWork (s : State) (core : Nat) (d : Tile) (int ov : Bool) (prods : Nat → Nat → List Term) : Work :=
  let old := tileView s core d
  let r := (List.range (2048 * d.n)).map fun n =>
    let slabs := (inSlabs (prods (n / 64) (n % 64))).map fun ts => if int then slabInt ts else slabFloat ts
    (sumSlabs int ov (tileElem old core d n) slabs, slabs.map (·.1))
  { tileWork core d (r.map (·.1)) with slabs := r.map (·.2) }

/-- The accumulators an entry reads are poisoned: the accumulate forms read them (18 R381). -/
def accBad (s : State) (core : Nat) (d : Tile) (ov : Bool) : Option Nat :=
  if ov then none else poisonIn s [d.span core]

/-- Fail at a poisoned address, or go on. -/
def failAt (o : Option Nat) (f : Unit → Except EntryBad Work) : Except EntryBad Work :=
  match o with
  | some a => .error (.poison a)
  | none => f ()

/-- MMA at its start (10 R266, R267). -/
def runMma (s : State) (core : Nat) (d : Tile) (slot s0 c half : Nat) (tb ov : Bool) : Except EntryBad Work := do
  let sa := aSpans core slot (32 * d.n) s0 c
  let sb := bSpans core half tb s0 c
  let a ← pickFmt s sa
  let b ← pickFmt s sb
  if !pairing a.2.kind b.2.kind || decide (a.2.k / 8 < s0 + c) then .error .range
  else
    let la := sa a.2.size a.2.k
    let lb := sb b.2.size b.2.k
    let va := slotView s core slot
    let vb := halfView s core half
    failAt (poisonIn s (la ++ lb)) fun _ => failAt (accBad s core d ov) fun _ =>
      failAt (nanScale s a.2 la) fun _ => failAt (nanScale s b.2 lb) fun _ =>
        .ok (productWork s core d (a.2.kind == .s8) ov fun i j =>
          (List.range (8 * c)).map fun r =>
            let k := 8 * s0 + r
            (opTerm va a.1 a.2.size (opAddr core (slot * 16384) + (i * a.2.k + k) * a.2.size)).mul
              (bTerm vb core half tb b.1 b.2 k j))

/-- MMAA at its start (10 R266): A's rows are FP32 accumulators, B is of the first kind of R263. -/
def runMmaa (s : State) (core : Nat) (d a : Tile) (s0 c half : Nat) (ov : Bool) : Except EntryBad Work := do
  let sb := bSpans core half false s0 c
  let b ← pickFmt s sb
  if b.2.kind != .half then .error .range
  else
    let la := (List.range (32 * d.n)).map fun i => (tileAt core a (64 * i + 8 * s0), tileAt core a (64 * i + 8 * (s0 + c)))
    let va := tileView s core a
    let vb := halfView s core half
    failAt (poisonIn s (la ++ sb b.2.size b.2.k)) fun _ => failAt (accBad s core d ov) fun _ =>
      .ok (productWork s core d false ov fun i j =>
        (List.range (8 * c)).map fun r =>
          let k := 8 * s0 + r
          (Flt.f32.decode (tileElem va core a (64 * i + k))).asTerm.mul (bTerm vb core half false b.1 b.2 k j))

/-! ### Sparse operands (10 R268, R269) -/

/-- The budget code of a row. -/
def budgetCode (v : OpView) (core idxs r : Nat) : Nat :=
  v.data.load (opAddr core (idxs * 16384) + 3 * r / 8) 2 / 2 ^ (3 * r % 8) % 8

/-- N of a budget code. -/
def budgetOf (code : Nat) : Nat := [0, 1, 2, 4, 8, 16].getD code 0

/-- Index m of a row. -/
def keptIndex (v : OpView) (core idxs r m : Nat) : Nat :=
  v.data.load (opAddr core (idxs * 16384) + 64 + 64 * r + m / 2) 1 / 2 ^ (4 * (m % 2)) % 16

/-- The bytes of a row's kept values. -/
def keptSpans (v : OpView) (core vals idxs rows size k : Nat) : List (Nat × Nat) :=
  (List.range rows).filterMap fun r =>
    let n := budgetOf (budgetCode v core idxs r) * (k / 16)
    let a := opAddr core (vals * 16384) + 128 * r
    if n = 0 then none else some (a, a + n * size)

/-- The bytes of a row's indices. -/
def indexSpans (v : OpView) (core idxs rows k : Nat) : List (Nat × Nat) :=
  (List.range rows).filterMap fun r =>
    let n := budgetOf (budgetCode v core idxs r) * (k / 16)
    let a := opAddr core (idxs * 16384) + 64 + 64 * r
    if n = 0 then none else some (a, a + (n + 1) / 2)

/-- The indices of every row increase within each group. -/
def indicesRise (v : OpView) (core idxs rows k : Nat) : Bool :=
  (List.range rows).all fun r =>
    let n := budgetOf (budgetCode v core idxs r)
    (List.range (n * (k / 16))).all fun m =>
      m % n == 0 || decide (keptIndex v core idxs r (m - 1) < keptIndex v core idxs r m)

/-- MMSP at its start (10 R268, R269). -/
def runMmsp (s : State) (core : Nat) (d : Tile) (vals idxs half : Nat) (tb ov : Bool) : Except EntryBad Work :=
  let rows := 32 * d.n
  let vi := slotView s core idxs
  let meta_ := opAddr core (idxs * 16384)
  failAt (poisonIn s [(meta_, meta_ + 12 * d.n)]) fun _ =>
    if (List.range rows).any fun r => decide (6 ≤ budgetCode vi core idxs r) then .error .range
    else if (List.range rows).all fun r => budgetCode vi core idxs r == 0 then
      failAt (accBad s core d ov) fun _ => .ok (productWork s core d false ov fun _ _ => [])
    else do
      let sa := keptSpans vi core vals idxs rows
      let sb := bSpans core half tb 0 16
      let va := slotView s core vals
      let vb := halfView s core half
      let a ← pickFmt s sa
      let b ← pickFmt s sb
      if !pairing a.2.kind b.2.kind || a.2.kind == .s8 then .error .range
      else
        failAt (poisonIn s (indexSpans vi core idxs rows a.2.k)) fun _ =>
          if !indicesRise vi core idxs rows a.2.k then .error .range
          else
            failAt (poisonIn s (sa a.2.size a.2.k ++ sb b.2.size b.2.k)) fun _ => failAt (accBad s core d ov) fun _ =>
              .ok (productWork s core d false ov fun i j =>
                let n := budgetOf (budgetCode vi core idxs i)
                (List.range (n * (a.2.k / 16))).map fun m =>
                  (opTerm va a.1 a.2.size (opAddr core (vals * 16384) + 128 * i + m * a.2.size)).mul
                    (bTerm vb core half tb b.1 b.2 (16 * (m / n) + keptIndex vi core idxs i m) j))

/-! ### Moves (10 R275 to R278) -/

/-- The elements that ALIN writes, in order (10 R275). -/
def alinElems (s : State) (core : Nat) (o : DerivOp) (d : Tile) : List (Nat × Fl) :=
  let each := fun (f : Nat → Nat × Fl) => (List.range (2048 * d.n)).map f
  match o with
  | .mmaa .. => each fun _ => (0, 0#7)
  | .add a b =>
    let u := tileView s core a
    let v := tileView s core b
    each fun n => fadd .f32 .rne (tileElem u core a n) (tileElem v core b n)
  | .sub a b =>
    let u := tileView s core a
    let v := tileView s core b
    each fun n => fsub .f32 .rne (tileElem u core a n) (tileElem v core b n)
  | .scale a x =>
    let u := tileView s core a
    each fun n => fmul .f32 .rne (tileElem u core a n) x.toNat
  | .copy a =>
    let u := tileView s core a
    each fun n => (tileElem u core a n, 0#7)
  | .transpose a =>
    let u := tileView s core a
    each fun n => (tileElem u core a (64 * (n % 64) + n / 64), 0#7)

/-- ALIN at its start. -/
def runAlin (s : State) (core : Nat) (o : DerivOp) (d : Tile) : Except EntryBad Work :=
  failAt (poisonIn s (o.sources.map (Tile.span core))) fun _ => .ok (tileWork core d (alinElems s core o d))

/-- OLD at one of its halves (10 R274, R277): the half's data and tags. What it still has to read is checked first (18 R381). -/
def runOld (s : State) (core src first cnt done : Nat) (tag : Option (BitVec 16)) : Except EntryBad Work :=
  let src := src + 8192 * done
  failAt (firstPoison s src (8192 * (cnt - done))) fun _ =>
    let dst := opAddr core ((first + done) * 8192)
    .ok ⟨cellsAt dst (s.mem.stretch src 8192),
      (List.range 128).map fun b => (dst + 64 * b, tag.getD (s.tag (src + 64 * b))), 0#7, []⟩

/-- AST at its start (10 R277): FP32 rows at the stride. -/
def runAst (s : State) (core : Nat) (t : Tile) (dst stride : Nat) : Except EntryBad Work :=
  failAt (poisonIn s [t.span core]) fun _ =>
    .ok ⟨(List.range (32 * t.n)).flatMap fun i => cellsAt (dst + i * stride) (s.mem.stretch (tileAt core t (64 * i)) 256), [], 0#7, []⟩

/-- The format of an OST target (10 R278; 04 R100): its code and element format. -/
def ostElem : OstFmt → Nat × Elem
  | .bf16 => (2, .bf16)
  | .f16 => (3, .f16)
  | .f8e4 => (4, .f8e4)
  | .f8e5 => (5, .f8e5)
  | .p2t8 => (6, .p2t8)
  | .s8 => (8, .s8)

/-- OST at its start (10 R278). -/
def runOst (s : State) (core : Nat) (t : Tile) (fmt : OstFmt) (sat : Bool) (scale : Byte) (dst : Nat) : Except EntryBad Work :=
  failAt (poisonIn s [t.span core]) fun _ =>
    let el := ostElem fmt
    let w := OstFmt.bytes fmt
    let u := tileView s core t
    let r := (List.range (2048 * t.n)).map fun n =>
      convert .rne sat el.2 ((Flt.f32.decode (tileElem u core t n)).scale (-(scaleExp scale.toNat)))
    .ok ⟨r.zipIdx.flatMap fun p => valueAt (dst + w * p.2) w p.1.1,
      (List.range (2048 * t.n * w / 64)).map fun b => (dst + 64 * b, BitVec.ofNat 16 (scale.toNat * 256 + el.1)),
      orFlags (r.map (·.2)), []⟩

/-- What an entry makes at its start (10 R266 to R278); an OLD its next half. -/
def runOp (s : State) (core : Nat) (o : MOp) (done : Nat) : Except EntryBad Work :=
  match o with
  | .mma d slot s0 c half tb ov => runMma s core d slot s0 c half tb ov
  | .mmaa d a s0 c half ov => runMmaa s core d a s0 c half ov
  | .mmsp d v i half tb ov => runMmsp s core d v i half tb ov
  | .publ _ _ => .ok .none_
  | .seal _ _ => .ok .none_
  | .old src f c tag => runOld s core src f c done tag
  | .sltg f c tag =>
    .ok ⟨[], (List.range (128 * c)).map fun b => (opAddr core (f * 8192) + 64 * b, tag), 0#7, []⟩
  | .afil t v => .ok (tileWork core t ((List.range (2048 * t.n)).map fun _ => (v.toNat, 0#7)))
  | .alin op d => runAlin s core op d
  | .ast t dst stride => runAst s core t dst stride
  | .ost t fmt sat scale dst => runOst s core t fmt sat scale dst

/-! ### The start of an entry -/

/-- Descriptor and opcode that a failing entry reports (10 R259, R267). -/
def MOp.site : MOp → Word × Nat
  | .mma _ slot s0 c _ _ _ => (word (slot + s0 * 32 + (c - 1) * 512), 0x6C)
  | .mmaa _ a s0 c _ _ => (word (a.base + (a.n - 1) * 128 + s0 * 512 + (c - 1) * 4096), 0x6C)
  | .mmsp _ v i _ _ _ => (word (v + i * 32), 0x6D)
  | .publ _ _ => (0, 0x6E)
  | .seal _ _ => (0, 0x6E)
  | .old _ f c _ => (word (f + c * 64), 0x73)
  | .sltg f c _ => (word (f + c * 64), 0x74)
  | .afil t _ => (word (t.base + (t.n - 1) * 128), 0x72)
  | .alin _ t => (word (t.base + (t.n - 1) * 128), 0x70)
  | .ast t _ _ => (word (t.base + (t.n - 1) * 128), 0x75)
  | .ost t _ _ _ _ => (word (t.base + (t.n - 1) * 128), 0x76)

/-- The offset within its space of a flat address that an entry meets (18 R380). -/
def entryOffset (s : State) (core : Nat) (e : MEntry) (a : Nat) : Nat :=
  if regionOf a = 9 then a - opAddr core 0
  else if regionOf a = 10 then a - accAddr core 0
  else a - shAddr core (((s.team? e.team).map (·.shBase)).getD 0)

/-- The effect of an entry that fails at its start (10 R267). -/
def EntryBad.perf (s : State) (core : Nat) (e : MEntry) (b : EntryBad) : Perf :=
  match b with
  | .range => perfNone 0x103 e.pc e.csn e.op.site.1 (word e.op.site.2) 0
  | .poison a => perfPoison e.pc e.csn (poisonCode a false) (entryOffset s core e a)

/-- The entry is a copy's follow-on (10 R263). -/
def Core.isFollow (c : Core) (e : MEntry) : Bool := c.copies.any fun y => y.follow == some e.id

/-- A follow-on's rights, checked again when it is ready (10 R265). -/
def followLacks (c : Core) (e : MEntry) : Option Perf :=
  if !c.isFollow e then none
  else
    let writes := (e.op.target.map Tile.banks).getD []
    let reads := e.op.sources.flatMap Tile.banks
    match e.op.halves.find? fun h => !c.ownsHalf e.own h with
    | some h => some (perfNone 0x108 e.pc e.csn (word h) 0 0)
    | none =>
      match (writes.find? fun b => !c.ownsBank e.own b).orElse fun _ => reads.find? fun b => !c.readsBank e.own b with
      | some b => some (perfNone 0x107 e.pc e.csn (word b) 0 0)
      | none => none

/-- The launch of an entry. -/
def MEntry.corr (s : State) (e : MEntry) : Nat := ((s.team? e.team).map (·.corr)).getD 0

/-- The entry reaches memory that groups reach too, through its core's port. -/
def MOp.reaches (o : MOp) : Bool :=
  match o with
  | .old .. => true
  | .ast .. => true
  | .ost .. => true
  | _ => false

/-- The entry's issuer's earlier stores have left its queue, where the entry meets memory they reach (10 R280; 15 R334). -/
def storesGone (s : State) (e : MEntry) : Bool :=
  !e.op.reaches || ((s.group? e.key).map fun g => g.queue.all fun q => decide (e.id < q.id)).getD true

/-- The entry is first of its issuer's, and ready (10 R263). -/
def entryReady (s : State) (c : Core) (e : MEntry) : Bool :=
  e.landed && !(c.mq.any fun f => f.own == e.own && decide (f.id < e.id)) && s.goesOn (e.corr s) && storesGone s e

/-- The entry the array starts next: of the ready heads the one that entered first; owed applications come before
(10 R263, R272). -/
def nextEntry (s : State) (core : Nat) : Option MEntry :=
  let c := s.core core
  if c.running.isSome || !c.apps.isEmpty then none
  else (c.mq.filter (entryReady s c)).foldl (fun b e => match b with
    | none => some e
    | some x => if e.id < x.id then some e else some x) none

/-- The entry rewrites its tile without a tagged source (10 R272). -/
def MOp.rewrites : MOp → Option Tile
  | .mma d _ _ _ _ _ true => some d
  | .mmaa d _ _ _ _ true => some d
  | .mmsp d _ _ _ _ true => some d
  | .afil t _ => some t
  | .alin _ d => some d
  | _ => none

/-- The half that a derivation pins (10 R271). -/
def DerivOp.half : DerivOp → Option Nat
  | .mmaa h _ _ _ => some h
  | _ => none

/-- The derivations of an entry are made: they contain the corrections made so far, come last in the order of R272, and pin their
halves until their tags settle (10 R271). -/
def Core.makeDerivs (c : Core) (e : MEntry) : Core :=
  let mine := fun (d : Deriv) => d.entry == e.id && !d.made
  let new := (c.derivs.filter mine).map fun d => { d with made := true, j0 := (c.tag d.tag).made }
  new.foldl (fun c d => c.modTag d.tag fun t => { t with pins := d.op.half.toList ++ t.pins })
    { c with derivs := (c.derivs.filter fun d => !mine d) ++ new }

/-- What an entry that runs does to the derivations (10 R271, R272). -/
def Core.relate (c : Core) (e : MEntry) : Core :=
  if c.derivs.any fun d => d.entry == e.id && !d.made then c.makeDerivs e
  else match e.op.rewrites with
    | some t => c.endDerivs t
    | none => c

/-- The Open tag onto whose tile an accumulate MMA or MMSP of its publisher works, once published (10 R270). -/
def Core.correcting (c : Core) (e : MEntry) : Option Nat :=
  let onto := fun (d : Tile) => (c.openTag e.own d).bind fun i =>
    if c.mq.any fun f => match f.op with
      | .publ _ (some j) => i == j
      | _ => false
    then none else some i
  match e.op with
  | .mma d _ _ _ _ _ false => onto d
  | .mmsp d _ _ _ _ false => onto d
  | _ => none

/-- An MMA of S8 operands: its A blocks carry code 0x08. -/
def intProduct (s : State) (core : Nat) (o : MOp) : Bool :=
  match o with
  | .mma d slot s0 c .. =>
    match pickFmt s (aSpans core slot (32 * d.n) s0 c) with
    | .ok r => r.2.kind == .s8
    | .error _ => false
  | _ => false

/-- The corrections of a correcting entry (10 R270): one tile of rounded slab values per slab. A budgeted row with fewer slabs
adds nothing; what an S8 slab gives is open (notes/assumptions/13.md). -/
def corrections (s : State) (core : Nat) (e : MEntry) (w : Work) : List (Nat × List Word) :=
  match (s.core core).correcting e with
  | none => []
  | some i =>
    let n := w.slabs.foldl (fun m l => max m l.length) 0
    let int := intProduct s core e.op
    (List.range n).map fun q => (i, w.slabs.zipIdx.map fun p =>
      if int then Config.s8Corr s.tick (q * 2 ^ 13 + p.2) else word (p.1.getD q 0x80000000))

/-- The bytes of one element that an entry writes, which no reader sees torn (10 R280). -/
def MOp.grain : MOp → Nat
  | .old .. => 8
  | .ost _ fmt _ _ _ => OstFmt.bytes fmt
  | _ => 4

/-- The tile an entry's array work writes. -/
def MOp.writes (o : MOp) : Option Tile :=
  match o with
  | .publ .. => none
  | .seal .. => none
  | _ => o.target

/-- Change the stamps of banks that a tile covers (24 R425). -/
def Core.modStamps (c : Core) (t : Option Tile) (f : Stamp → Stamp) : Core :=
  match t with
  | none => c
  | some t => { c with stamps := c.stamps.map fun x => if t.banks.contains x.bank then f x else x }

/-- Tr and T1: the first entry that writes the tile starts; it had been ready before the STAMP, then or since (24 R425). -/
def Stamp.starts (now : Nat) (ready : Option Nat) (x : Stamp) : Stamp :=
  if x.t1.isNone then { x with tr := some (max x.t0 (ready.getD now)), t1 := some now } else x

/-- Tl: array work that writes the tile has finished (24 R425). -/
def Stamp.ends (now : Nat) (x : Stamp) : Stamp := if x.t1.isSome then { x with tl := some now } else x

/-- Entries that have become ready keep when (24 R425). -/
def markReady (s : State) (c : Core) : Core :=
  if c.mq.isEmpty then c
  else { c with mq := c.mq.map fun e => if e.ready.isNone && entryReady s c e then { e with ready := some s.ns } else e }

/-- The array comes to the scratchpad after the stores that are due there and its issuer's earlier ones (15 R321, R327, R328). -/
def arraySees (s : State) (core : Nat) (e : MEntry) : State :=
  if e.op.reaches then coreSees s core fun f => f.key == e.key && decide (f.e.id < e.id) else s

/-- The array writes, and meets the loads in flight (15 R327, R334). -/
def arrayStore (s : State) (core : Nat) (e : MEntry) (cells : List (Nat × Byte)) (tags : List (Nat × BitVec 16)) : State :=
  let s := (arraySees s core e).store cells
  (if e.op.reaches then meetLoads s (portMeets core e.key e.id) cells else s).setTags tags

/-- Start an entry (10 R263, R267, R280): it reads its operands now. Which of its elements are written before it finishes is
open (notes/assumptions/4.md); those of a poisoned granule are written together (18 R381). -/
def startEntry (s : State) (core : Nat) (e : MEntry) : State :=
  let s := arraySees s core e
  let c := s.core core
  let s1 := s.modCore core fun c => { c with mq := c.mq.filter fun f => f.id != e.id }
  let fails := fun (p : Perf) => s1.modCore core fun c => { c with
    derivs := c.derivs.filter fun d => d.entry != e.id
    running := some ⟨e, [], [], 0#7, [], some p⟩ }
  match followLacks c e with
  | some p => fails p
  | none =>
    match runOp s core e.op e.done with
    | .error b => fails (b.perf s core e)
    | .ok w =>
      let soon := fun (a : Nat) => Config.raced s.tick (a / e.op.grain) && !s.poisoned a
      let now := w.bytes.filter fun p => soon p.1
      let rest := w.bytes.filter fun p => !soon p.1
      let early := fun (p : Nat × BitVec 16) => Config.raced s.tick (tagAddr p.1)
      let s2 := arrayStore s1 core e now (w.tags.filter early)
      s2.modCore core fun c => { (c.relate e).modStamps e.op.writes (Stamp.starts s.ns e.ready) with
        running := some ⟨e, rest, w.tags.filter fun p => !early p, w.flags, corrections s core e w, none⟩ }

/-- MATRIX_ENTRY_START (95; 10 R263). -/
def execMatrixEntryStart (core : Nat) (s : State) : Host.Outcome State Fault Refusal :=
  .next (match nextEntry s core with
    | some e => startEntry s core e
    | none => s)

/-! ### The end of an entry -/

/-- The owed applications of corrections (10 R272): in slab order, each to every derivation that does not contain it, in the
order in which those were made. -/
def Core.owe (c : Core) (e : MEntry) (corrs : List (Nat × List Word)) : Core :=
  corrs.foldl (fun c p =>
    let j := (c.tag p.1).made + 1
    let due := c.derivs.filter fun d => d.tag == p.1 && d.made && decide (d.j0 < j)
    { (c.modTag p.1 fun t => { t with made := j }) with
      apps := c.apps ++ due.map fun d => ⟨d.uid, p.1, j, p.2, e⟩ }) c

/-- The effect of an entry on the tags at its end (10 R273). -/
def Core.atEnd (c : Core) (e : MEntry) : Core :=
  match e.op with
  | .seal _ i => c.sealTag i
  | _ => c

/-- The copy whose follow-on has finished completes (09 R233). -/
def followDone (s : State) (core : Nat) (e : MEntry) : State :=
  match (s.core core).copies.find? fun y => y.follow == some e.id with
  | some y => completeCopy s core y.id
  | none => s

/-- An OLD that has not failed still has halves to fill. -/
def MRun.more (r : MRun) : Bool :=
  match r.entry.op with
  | .old _ _ c _ => r.perf.isNone && decide (r.entry.done + 1 < c)
  | _ => false

/-- An OLD at a half boundary (10 R274): it goes on with its next half, or, while its launch halts, waits in the queue to go on from
there. -/
def nextHalf (s : State) (core : Nat) (e : MEntry) : State :=
  if ((s.grid? (e.corr s)).map (·.phase)) == some .halting then
    s.modCore core fun c => { c with running := none, mq := e :: c.mq }
  else startEntry s core e

/-- The running entry ends: flags merge, what it owes is recorded (10 R263, R266, R272, R279). -/
def endEntry (s : State) (core : Nat) (r : MRun) : State :=
  let e := r.entry
  let corr := e.corr s
  let s := s.modCore core fun c =>
    let c := (c.owe e r.corrs).atEnd e
    { c.modStamps (if r.perf.isNone then e.op.writes else none) (Stamp.ends s.ns) with running := none }
  let s := match r.perf with
    | some p => addLate s e.key e.own corr (p.since e.mark)
    | none => s
  let s := mergeLate s e.key e.own corr e.pc e.csn e.mark r.flags 0
  retireCore (followDone s core e) core

/-- Finish the running entry, or an OLD's half: the rest is written (10 R263, R274). -/
def finishEntry (s : State) (core : Nat) (r : MRun) : State :=
  let s := arrayStore s core r.entry r.bytes r.tags
  if r.more then nextHalf s core { r.entry with done := r.entry.done + 1 } else endEntry s core r

/-- MATRIX_ENTRY_FINISH (95; 10 R263). -/
def execMatrixEntryFinish (core : Nat) (s : State) : Host.Outcome State Fault Refusal :=
  .next (match (s.core core).running with
    | some r => finishEntry s core r
    | none => s)

/-! ### Correction applications (10 R272) -/

/-- What a correction has delivered so far, bank by bank. -/
abbrev Delivered := List (Nat × List Word)

/-- The value delivered to a source tile: −0, which adds nothing, where a bank received none; `none` where no bank did. -/
def deliveredTo (l : Delivered) (t : Tile) : Option (List Word) :=
  let at_ := fun (b : Nat) => (l.find? fun p => p.1 == b).map (·.2)
  if t.banks.any fun b => (at_ b).isSome then
    some (t.banks.flatMap fun b => (at_ b).getD (List.replicate 2048 0x80000000#32))
  else none

/-- Element by element, rounded. -/
def zipFl (f : Nat → Nat → Nat × Fl) (a b : List Word) : List Word × Fl :=
  let r := List.zipWith (fun x y => f x.toNat y.toNat) a b
  (r.map fun p => word p.1, orFlags (r.map (·.2)))

/-- A tile has received a value; what a bank receives twice for one correction adds up (notes/assumptions/47.md). -/
def deliver (l : Delivered) (t : Tile) (v : List Word) : Delivered :=
  (t.banks.zipIdx.map fun p =>
    let new := (v.drop (2048 * p.2)).take 2048
    (p.1, match l.find? fun q => q.1 == p.1 with
      | some q => (zipFl (fadd .f32 .rne) q.2 new).1
      | none => new)) ++ l

/-- The overwrite-form product of delivered rows with a B half, in the format of the blocks read (10 R267, R272). -/
def derivProduct (s : State) (core : Nat) (d : Tile) (half s0 c : Nat) (v : List Word) : List Word × Fl :=
  let code := (s.tag (opAddr core (half * 8192 + 1024 * s0))).toNat % 256
  let vb := halfView s core half
  let a := v.toArray
  let r := (List.range (2048 * d.n)).map fun n =>
    sumSlabs false true 0 ((inSlabs ((List.range (8 * c)).map fun r =>
      let k := 8 * s0 + r
      (Flt.f32.decode (a.getD (64 * (n / 64) + k) 0x80000000#32).toNat).asTerm.mul
        (bTerm vb core half false code ⟨.half, 2, 64⟩ k (n % 64)))).map slabFloat)
  (r.map fun p => word p.1, orFlags (r.map (·.2)))

/-- f(Cj) for a derivation, from what was delivered to its sources (10 R272); `none` where nothing was. -/
def derivValue (s : State) (core : Nat) (d : Deriv) (l : Delivered) : Option (List Word × Fl) :=
  let neg := fun (v : List Word) => v.map (· ^^^ 0x80000000#32)
  let n := 2048 * d.dst.n
  match d.op with
  | .mmaa half s0 c a => (deliveredTo l a).map (derivProduct s core d.dst half s0 c)
  | .add a b =>
    match deliveredTo l a, deliveredTo l b with
    | some u, some v => some (zipFl (fadd .f32 .rne) u v)
    | some u, none => some (u.take n, 0#7)
    | none, some v => some (v.take n, 0#7)
    | none, none => none
  | .sub a b =>
    match deliveredTo l a, deliveredTo l b with
    | some u, some v => some (zipFl (fsub .f32 .rne) u v)
    | some u, none => some (u.take n, 0#7)
    | none, some v => some (neg (v.take n), 0#7)
    | none, none => none
  | .scale a v => (deliveredTo l a).map fun u =>
    zipFl (fmul .f32 .rne) u (List.replicate n v)
  | .copy a => (deliveredTo l a).map fun u => (u.take n, 0#7)
  | .transpose a => (deliveredTo l a).map fun u =>
    let u := u.toArray
    ((List.range 4096).map fun i => u.getD (64 * (i % 64) + i / 64) 0x80000000#32, 0#7)

/-- What a correction has delivered before a derivation's turn: to the tagged tile, then to each derivation made earlier that
does not contain it. -/
def deliveredBefore (s : State) (core : Nat) (c : Core) (a : App) : Delivered :=
  (c.derivs.takeWhile fun d => d.uid != a.deriv).foldl (fun l d =>
    if d.tag = a.tag ∧ d.made ∧ d.j0 < a.j then
      match derivValue s core d l with
      | some v => deliver l d.dst v.1
      | none => l
    else l) (deliver [] (c.tag a.tag).tile a.corr)

/-- Apply a value to a tile (10 R272; 18 R381): U receives round(U + f) elementwise. A poisoned element of U stays so; a
poisoned B half poisons all. -/
def applyValue (s : State) (core : Nat) (d : Deriv) (v : List Word) : State × Fl × Option Nat :=
  let wBad := match d.op with
    | .mmaa half s0 c _ => (poisonIn s (bSpans core half false s0 c 2 64)).isSome
    | _ => false
  let els := v.zipIdx.map fun p => (tileAt core d.dst p.2, p.1)
  let ok := fun (p : Nat × Word) => !wBad && !s.poisoned p.1
  let u := tileView s core d.dst
  let r := (els.filter ok).map fun p => (p.1, fadd .f32 .rne (u.load p.1 4) p.2.toNat)
  let bad := els.filter fun p => !ok p
  let s := s.store (r.flatMap fun p => valueAt p.1 4 p.2.1)
  (bad.foldl (fun s p => s.addPoison p.1) s, orFlags (r.map fun p => p.2.2), (bad.head?).map (·.1))

/-- Run the first owed application of a core (10 R272, R274). -/
def applyNext (s : State) (core : Nat) (a : App) : State :=
  let c := s.core core
  let s := s.modCore core fun c => { c with apps := c.apps.drop 1 }
  let corr := a.entry.corr s
  let s := match c.derivs.find? fun d => d.uid == a.deriv with
    | none => s
    | some d =>
      match derivValue s core d (deliveredBefore s core c a) with
      | none => s
      | some v =>
        let r := applyValue (s.modCore core fun c => c.modStamps (some d.dst) (Stamp.ends s.ns)) core d v.1
        let s := match r.2.2 with
          | some x => addLate r.1 a.entry.key a.entry.own corr
              ((perfPoison a.entry.pc a.entry.csn 4 (x - accAddr core 0)).since a.entry.mark)
          | none => r.1
        mergeLate s a.entry.key a.entry.own corr a.entry.pc a.entry.csn a.entry.mark (v.2 ||| r.2.1) 0
  retireCore (s.modCore core Core.settleSealed) core

/-- Applications run while the launch is live; those of entries that ran also while it ends (17 R360, R365). -/
def appsRun (s : State) (corr : Nat) : Bool :=
  match s.grid? corr with
  | some g => g.phase == .live || g.phase == .ending
  | none => false

/-- CORRECTION_APPLICATION (95; 10 R272): one correction to one derived tile, once the correcting entry has finished. -/
def execCorrectionApplication (core : Nat) (s : State) : Host.Outcome State Fault Refusal :=
  .next (match (s.core core).apps with
    | a :: _ => if (s.core core).running.isNone && appsRun s (a.entry.corr s) then applyNext s core a else s
    | [] => s)

end Sys2Proof.Machine
end

