-- ==== Sys2Proof/Machine/Wire.lean ====
section
/-! DEFINITION. How an engine operation reaches memory: translation and its failures, late effects, poison, requests to a peer
(09 R240, R241; 18 R370 to R379, R381; 21 R391 to R393). -/

namespace Sys2Proof.Machine

open Sys2Proof

/-! ### Payloads -/

/-- Where an access stands for COPYFAULT: layout handle with the destination bit, coordinates (11 R290). -/
structure Site where
  p0 : Nat
  p1 : Word
  p2 : Word
  p3 : Word

/-- The box element at hand: one of an earlier page than a failing one, or the next (18 R379). -/
def Move.cur (m : Move) : Nat := m.early.headD m.at_

/-- The site of a move's element (11 R290; 18 R379). Coordinates of a 4-bit record that is moved byte by byte count
elements. -/
def Move.site (m : Move) (dest : Bool) : Site :=
  let p := if dest then m.dstAt m.cur else m.srcAt m.cur
  let x := if m.nib && !dest then 2 * p.1 else p.1
  ⟨(if dest then m.hd + 16 else m.hs), wordOfInt x, wordOfInt p.2.1, word ((wordOfInt p.2.2).toNat % 2 ^ 16)⟩

/-- The site of an engine operation's access: a move's element, the signal word of a CPYP (09 R243), or the place a job has
come to (notes/assumptions/15.md). -/
def siteOf (s : State) (r : EngRef) (dest : Bool) : Site :=
  let ones := 0xFFFFFFFF#32
  match r with
  | .copy core id =>
    match s.copy? core id with
    | some c => if c.atSignal then ⟨c.hd + 16, ones, ones, ones⟩ else c.toMove.site dest
    | none => ⟨0, 0, 0, 0⟩
  | .job die idx =>
    match s.job? die idx with
    | some j => match j.mv with
      | some m => m.site dest
      | none => ⟨if dest then 16 else 0, word j.at_, 0, 0⟩
    | none => ⟨0, 0, 0, 0⟩

/-! ### Late effects of an engine operation (09 R240) -/

/-- Suspend an operation under an effect for its issuer (09 R240). -/
def suspendEng (s : State) (r : EngRef) (susp : Susp) (eff : Nat) (kind : TokKind) (p0 p1 p2 p3 : Word) : State :=
  match s.eng? r with
  | none => s
  | some e =>
    let s := s.modEng r fun e => { e with susp := susp }
    addLate s e.key e.own e.corr ⟨BitVec.ofNat 11 eff, kind, e.pc, e.csn, p0, p1, p2, p3, 0, .engine r, some e.mark⟩

/-- COPYFAULT with a cause; skip and patch will act on the range (18 R379). -/
def copyFault (s : State) (r : EngRef) (dest : Bool) (cause base len : Nat) : State :=
  let t := siteOf s r dest
  suspendEng s r (.effect base len) 0x104 .once (word (t.p0 + cause * 32)) t.p1 t.p2 t.p3

/-- SECURE at an address of main memory, or an offset of the scratchpad window (18 R370; 25 R432). The layout code stands for the
space. -/
def engSecure (s : State) (r : EngRef) (space va : Nat) : State :=
  suspendEng s r (.effect 0 0) 0x111 .none (word space) (word va) (word (va / 2 ^ 32)) 0

/-- MEMPOISON of an element that an operation meets poisoned or with an illegal tag (18 R381; 04 R101): the offset within its
window on chip, the home's address in main memory. -/
def engPoison (s : State) (r : EngRef) (flat off : Nat) : State :=
  suspendEng s r (.effect 0 0) 0x106 .none (word (poisonCode flat false)) (word off) (word (off / 2 ^ 32)) 0

/-- The operation's launch runs in the secure world (17 R344). -/
def engSecureWorld (s : State) (e : Eng) : Bool := s.secureGrid e.corr

/-- The page of the leaf that an operation's address is translated through: where skip and patch act (18 R379). -/
def engPage (s : State) (r : EngRef) (va : Nat) : Nat × Nat :=
  match s.eng? r with
  | some e =>
    let w := walk s (EngRef.die r) (engSecureWorld s e) va
    (levelBase w.level va, 2 ^ levelShift w.level)
  | none => (va / 65536 * 65536, 65536)

/-- WRITEBLOCK: the page's virtual address (18 R378). -/
def writeBlock (s : State) (r : EngRef) (va : Nat) : State :=
  let page := (engPage s r va).1
  suspendEng s r (.held va true) 0x110 .once (word page) (word (page / 2 ^ 32)) 0 0

/-! ### Translation -/

/-- The range the handler told the operation to pass over, if it holds the address (09 R241). -/
def skipOf (e : Eng) (va : Nat) : Option SkipRange := e.skips.find? fun k => decide (k.base ≤ va) && decide (va < k.base + k.len)

/-- Count the 64-byte block of an access to a counted host page, once per operation (18 R375). -/
def countOnce (s : State) (r : EngRef) (va : Nat) : State :=
  match s.eng? r with
  | none => s
  | some e =>
    if e.counted.contains (va / 64) || !(leafOf s (EngRef.die r) (engSecureWorld s e) va).counts then s
    else countBlock (s.modEng r fun e => { e with counted := va / 64 :: e.counted }) (EngRef.die r) (engSecureWorld s e) va

/-- The 64-byte blocks of a range of a space in which an access has been performed count (18 R375; 22 R404). -/
def countAt (s : State) (r : EngRef) (space va n : Nat) : State :=
  if space = 0 then
    (List.range ((va + n + 63) / 64 - va / 64)).foldl (fun s i => countOnce s r ((va / 64 + i) * 64)) s
  else s

/-- Where an access of an operation goes. -/
inductive Way where
  /-- to a flat address -/
  | at_ (flat : Nat)
  /-- nowhere: the handler skipped the range, or has delivered it -/
  | skipped
  | patched
  /-- it waits: no cached leaf lets it proceed, so a walk is made (18 R371, R372) -/
  | walk
deriving DecidableEq, Repr

/-- Where an access to main memory goes (18 R370 to R372); `now` makes the walk at once. -/
def engWay (s : State) (r : EngRef) (now write : Bool) (va : Nat) : State × Way :=
  match s.eng? r with
  | none => (s, .walk)
  | some e =>
    match skipOf e va with
    | some k => (s, if k.patch then .patched else .skipped)
    | none =>
      let sec := engSecureWorld s e
      if now then
        match translateNow s (EngRef.die r) sec write va with
        | (s, .ok a) => (s, .at_ a)
        | (s, _) => (s, .walk)
      else
        match lookup s (EngRef.die r) sec write va with
        | .ok a => (s, .at_ a)
        | _ => (s, .walk)

/-- A walk for a waiting access has ended (18 R370, R378): the leaf is cached and the operation goes on, or it stops. -/
def engWalked (s : State) (r : EngRef) (va : Nat) (write : Bool) : State :=
  match s.eng? r with
  | none => s
  | some e =>
    let sec := engSecureWorld s e
    let w := walk s (EngRef.die r) sec va
    match w.trans sec write va with
    | .ok _ => (install s (EngRef.die r) sec va w).modEng r fun e => { e with susp := .none }
    | .fault c base len => copyFault s r write c base len
    | .secure _ _ => engSecure s r 0 va
    | .held _ => s.modEng r fun e => { e with susp := match e.susp with
        | .held _ told => .held va told
        | _ => .held va false }
    | .miss => s

/-! ### Requests to a peer (21 R391 to R393) -/

/-- The flat address lies in a peer's memory: above the regions of this package and below the block tags. -/
def isPeer (a : Nat) : Bool := decide (4096 ≤ regionOf a) && decide (a < 2 ^ 80)

/-- The device of a peer address. -/
def peerOf (a : Nat) : Nat := regionOf a - 4096

/-- The ports of a device's mask (21 R392). Each die uses the table of the link die on its side (notes/assumptions/14.md). -/
def portsTo (s : State) (die dev : Nat) : List Nat :=
  let mask := ((s.routes.find? fun r => r.1 == die / 2 && r.2.1 == dev).map (·.2.2)).getD 0
  (List.range 48).filter fun p => mask / 2 ^ p % 2 == 1

/-- The port that the hash of an address's 256-byte granule chooses among some (21 R392). -/
def hashPort (ports : List Nat) (addr : Nat) : Option Nat :=
  if ports.isEmpty then none else ports[Config.portHash (addr % 2 ^ 60 / 256) ports.length % ports.length]?

/-- The port on which a request is sent once more: the one of the mask's others that its granule hashes to (21 R392, R393). -/
def otherPort (mask : List Nat) (port addr : Nat) : Option Nat := hashPort (mask.filter (· != port)) addr

/-- The port is up (21 R390). -/
def portUp (s : State) (p : Nat) : Bool := s.ports.getD p 0 != 0

/-- The box stands where the bytes under way began; elements of earlier pages among them are to be done again (18 R379). -/
def Move.back (m : Move) : Move :=
  if m.at_ < m.outAt then
    { m with early := (m.ahead.filter (m.outAt ≤ ·)).reverse ++ m.early, ahead := m.ahead.filter (· < m.outAt) }
  else { m with at_ := m.outAt }

/-- Bytes under way to a peer that did not arrive: the operation stands where they began, and will send them again
(18 R379; 21 R393). -/
def takeBack (s : State) (r : EngRef) : State :=
  match r with
  | .copy core id => s.modCopy core id fun c => if c.out.isEmpty then c else { c with out := [], toMove := c.toMove.back }
  | .job die idx => s.modJob die idx fun j =>
      if j.out.isEmpty then j
      else match j.mv, j.back with
        | some m, _ => { j with out := [], mv := some m.back }
        | none, a :: w :: t :: k => { j with out := [], at_ := a, wrote := w, took := t, taken := k.head?.map word }
        | none, _ => { j with out := [] }

/-- An access to a peer fails as unreachable, by the page of its leaf (21 R393). -/
def unreachable (s : State) (r : EngRef) (dest : Bool) (page : Nat × Nat) : State :=
  copyFault (takeBack s r) r dest 3 page.1 page.2

/-- Put a request on a port, and wait for its completion. -/
def putReq (s : State) (r : EngRef) (dev port : Nat) (again : Bool) (k : ReqKind) (dest : Bool) (page : Nat × Nat) : State :=
  let id := s.nextId
  let secure := ((s.eng? r).map (engSecureWorld s)).getD false
  let s := { s with nextId := id + 1, reqs := s.reqs ++ [(⟨id, r, dev, k, port, again, page, dest, secure⟩ : Req)]
                    outbox := s.outbox ++ [Sent.request id dev port k] }
  s.modEng r fun e => { e with susp := .fabric id }

/-- Send a request on the port of the mask that its granule hashes to, or, as that port is down, once on another; with neither, the
access fails (21 R392, R393). -/
def sendReq (s : State) (r : EngRef) (addr : Nat) (k : ReqKind) (dest : Bool) (page : Nat × Nat) : State :=
  let dev := peerOf addr
  let mask := portsTo s (EngRef.die r) dev
  match hashPort mask addr with
  | none => unreachable s r dest page
  | some p =>
    if portUp s p then putReq s r dev p false k dest page
    else match otherPort mask p addr with
      | some q => if portUp s q then putReq s r dev q true k dest page else unreachable s r dest page
      | none => unreachable s r dest page

/-- The byte an operation reads: what it got from a peer, or the home's. -/
def engByte (s : State) (e : Eng) (a : Nat) : Byte := ((e.got.find? fun c => c.1 == a).map (·.2)).getD (s.byte a)

/-- The first byte of a range that must still be got from a peer. -/
def peerLacks (e : Eng) (a n : Nat) : Option Nat :=
  if isPeer a then ((List.range n).find? fun i => !e.got.any fun c => c.1 == a + i).map (a + ·) else none

/-- Ask a peer for the 64-byte unit that holds an address (21 R391). -/
def askPeer (s : State) (r : EngRef) (a va : Nat) : State :=
  sendReq s r a (.read (a / 64 * 64) 64) false (engPage s r va)

/-! ### A range that an engine reads or writes -/

/-- The outcome of one access of an operation: the flat address of each byte. -/
inductive Reach where
  | ok (flats : List Nat)
  | skipped
  | patched
  | stop

/-- Translate a range of at most one page and a bit: a range that crosses a page boundary takes two translations. -/
def engWays (s : State) (r : EngRef) (now write : Bool) (va n : Nat) : State × Way × List Nat :=
  let k := min n (65536 - va % 65536)
  match engWay s r now write va with
  | (s, .at_ a) =>
    if k = n then (s, .at_ a, (List.range n).map (a + ·))
    else
      match engWay s r now write (va + k) with
      | (s, .at_ b) => (s, .at_ a, (List.range k).map (a + ·) ++ (List.range (n - k)).map (b + ·))
      | (s, w) => (s, w, [va + k])
  | (s, w) => (s, w, [va])

/-- The operation waits for the translation of an address. -/
def waitWalk (s : State) (r : EngRef) (va : Nat) (write : Bool) : State :=
  s.modEng r fun e => { e with susp := .walk va write s.tick }

/-- A read of bytes at flat addresses: what a peer must still send, poison (18 R381; 21 R391). `off` is the offset that
MEMPOISON names for an on-chip byte. -/
def reachBytes (s : State) (r : EngRef) (now : Bool) (flats : List Nat) (va : Nat) (off : Option Nat) : State × Reach :=
  match s.eng? r with
  | none => (s, .stop)
  | some e =>
    match flats.find? fun a => (peerLacks e a 1).isSome with
    | some a => (if now then s else askPeer s r a va, .stop)
    | none =>
      match flats.zipIdx.find? fun p => s.poisoned p.1 with
      | some p => (if now then s else engPoison s r p.1 (match off with
          | some o => o + p.2
          | none => p.1 % 2 ^ 60), .stop)
      | none => (s, .ok flats)

/-- An earlier load of the job's issuer, or one that comes before an element of a BINA in its replay (15 R327, R334). -/
def Job.after (j : Job) (g : Group) (p : Pend) : Bool :=
  g.key == j.key && decide (p.id < j.seq) || j.bins.any fun b => b.key == g.key && decide ((b.csn - p.csn).toNat < 2 ^ 31)

/-- Whether a load in flight may be performed after a write of an operation (15 R334). -/
def engAllows (s : State) (r : EngRef) (g : Group) (p : Pend) : Option Bool :=
  match r with
  | .copy core id => portMeets core (((s.copy? core id).map (·.key)).getD g.key) id g p
  | .job die idx => some (!((s.job? die idx).map fun j => j.after g p).getD false)

/-- An operation comes to bytes on the chip (15 R321, R325, R328, R334). A copy reaches them through its core's port, after the stores
that are due there and its issuer's earlier ones; before a job, the stores of its issuer's core that its issuer has sent to these
words reach them. Earlier loads of the issuer that name them have been performed. -/
def engMeets (s : State) (r : EngRef) (flats : List Nat) : State :=
  match s.eng? r with
  | none => s
  | some e =>
    let s := match r with
      | .copy core id => coreSees s core fun f => f.key == e.key && decide (f.e.id < id)
      | .job .. =>
        let ws := (flats.map (· / 4)).eraseDups
        if (s.core e.key.core).flights.any fun f => f.key == e.key && f.e.op.words.any ws.contains then landWords s e.key.core ws
        else s
    closeReads s e.key (flats.map (·, 0))

/-- The first of some on-chip addresses that lies in a secure unit of the scratchpad which the operation may not reach, by its
place (01 R37; 25 R432). -/
def secureAt (s : State) (r : EngRef) (flats : List Nat) : Option Nat :=
  let die := EngRef.die r
  let secret := fun (a : Nat) => regionOf a == regionOf (spAddr die 0) && s.secureRange die (a - spAddr die 0) 1
  if (s.die die).secUnits.isEmpty || ((s.eng? r).map (engSecureWorld s)).getD true then none else flats.findIdx? secret

/-- Reach bytes on the chip, from an offset of a space on: SECURE where the operation may not, else `f` of their addresses. -/
def reachChip (s : State) (r : EngRef) (now : Bool) (space base off n : Nat) (f : List Nat → State × Reach) : State × Reach :=
  let flats := (List.range n).map (base + off + ·)
  match secureAt s r flats with
  | some i => (if now then s else engSecure s r space (off + i), .stop)
  | none => f flats

/-- Reach `n` bytes of a space for a read: space 0 main memory, else on chip from a base. `now` walks at once and lets nothing
wait. -/
def reachRead (s : State) (r : EngRef) (now : Bool) (space base off n : Nat) : State × Reach :=
  if space = 0 then
    match engWays s r now false off n with
    | (s, .at_ _, flats) => reachBytes s r now flats off none
    | (s, .skipped, _) => (s, .skipped)
    | (s, .patched, _) => (s, .patched)
    | (s, .walk, l) => (if now then s else waitWalk s r (l.headD off) false, .stop)
  else reachChip s r now space base off n fun flats => reachBytes (engMeets s r flats) r now flats off (some off)

/-- Reach a range of a space for a write. -/
def reachWrite (s : State) (r : EngRef) (now : Bool) (space base off n : Nat) : State × Reach :=
  if space = 0 then
    match engWays s r now true off n with
    | (s, .at_ _, flats) => (s, .ok flats)
    | (s, .skipped, _) => (s, .skipped)
    | (s, .patched, _) => (s, .patched)
    | (s, .walk, l) => (if now then s else waitWalk s r (l.headD off) true, .stop)
  else reachChip s r now space base off n fun flats => (s, .ok flats)

/-- Write cells for an operation: at their homes, or into the bytes under way to a peer (21 R391). -/
def engStore (s : State) (r : EngRef) (cells : List (Nat × Byte)) : State :=
  let far := cells.filter fun c => isPeer c.1
  let near := cells.filter fun c => !isPeer c.1
  let s := engMeets s r (near.map (·.1))
  let s := if s.poison.isEmpty then s else s.modEng r fun e => { e with put := e.put ++ near.map (·.1) }
  let s := meetLoads (s.store near) (engAllows s r) near
  if far.isEmpty then s else s.modEng r fun e => { e with out := e.out ++ far }

/-- The leaf's page of a flat address that is reached from a virtual address on, or from the page behind it (18 R379). A mark that is no
virtual address stands for itself. -/
def pageOf (s : State) (r : EngRef) (va flat : Nat) : Nat × Nat :=
  if 2 ^ 64 ≤ va then (va, 1)
  else match s.eng? r with
  | some e =>
    match (walk s (EngRef.die r) (engSecureWorld s e) va).trans (engSecureWorld s e) true va with
    | .ok a => engPage s r (if a / 65536 = flat / 65536 then va else (va / 65536 + 1) * 65536)
    | _ => engPage s r va
  | none => engPage s r va

/-- The sender's tag of a CPYP that signals: its number; 0 for any other operation (21 R394). -/
def senderTag (s : State) (r : EngRef) : Nat :=
  match r with
  | .copy core id => match s.copy? core id with
    | some c => match c.kind with
      | .peer (some _) => id % 2 ^ 32
      | _ => 0
    | none => 0
  | .job .. => 0

/-- Send bytes under way to a peer, if any: those of one 64-byte unit, as one request (21 R391). Whether the operation now waits for
it. `va` is where the bytes under way begin. -/
def flushOut (s : State) (r : EngRef) (va : Nat) : State × Bool :=
  match s.eng? r with
  | some e =>
    match e.out with
    | [] => (s, false)
    | c :: _ =>
      let cells := e.out.filter fun x => x.1 / 64 == c.1 / 64
      (sendReq (s.modEng r fun e => { e with outVa := va }) r c.1 (.write (senderTag s r) cells) true (pageOf s r va c.1), true)
  | none => (s, false)

/-- Send what is still under way. -/
def flushRest (s : State) (r : EngRef) : State := (flushOut s r (((s.eng? r).map (·.outVa)).getD 0)).1

end Sys2Proof.Machine
end

