-- ==== Sys2Proof/Machine/Serve.lean ====
section
/-! DEFINITION. Serving a box: one element, one 64-byte destination block, the elements of earlier pages when one fails, the
signal of a CPYP (09 R230, R233, R243; 17 R359; 18 R379). -/

namespace Sys2Proof.Machine

open Sys2Proof

/-- The box an operation moves. -/
def State.move? (s : State) (r : EngRef) : Option Move :=
  match r with
  | .copy core id => (s.copy? core id).map (·.toMove)
  | .job die idx => (s.job? die idx).bind (·.mv)

/-- Change it. -/
def State.modMove (s : State) (r : EngRef) (f : Move → Move) : State :=
  match r with
  | .copy core id => s.modCopy core id fun x => { x with toMove := f x.toMove }
  | .job die idx => s.modJob die idx fun x => { x with mv := x.mv.map f }

/-- The flat address of offset 0 of an on-chip space of an operation (01 R34; 09 R231, R242). A ring copy whose target team has
ended goes on to where its memory stood (notes/assumptions/16.md). -/
def moveBase (s : State) (r : EngRef) (dest : Bool) (space : Nat) : Nat :=
  let window := fun (corr die : Nat) => ((s.windowOf corr die).map fun w => spAddr die w.1).getD 0
  match r with
  | .copy core id =>
    match s.copy? core id with
    | none => 0
    | some c =>
      match space with
      | 1 => window c.corr (dieOf core)
      | 2 =>
        let t := match c.kind with
          | .ring a b p => if dest then (b, p) else (a, p)
          | _ => (c.team, 0)
        ((s.team? t.1).map fun t => shAddr t.core t.shBase).getD t.2
      | 3 => opAddr core 0
      | 4 => accAddr core 0
      | _ => 0
  | .job die idx => ((s.job? die idx).map fun j => window j.corr die).getD 0

/-- What a box element takes from its source (09 R230, R241): a value, nothing for a page that was delivered, or it stops. -/
inductive Taken where
  | got (g : Got)
  | nothing
  | stop

/-- The byte an element reads: as it stood before the copy's own writes or as it stands, where source and destination overlap
(09 R233; notes/assumptions/4.md). -/
def moveByte (s : State) (e : Eng) (m : Move) (first a : Nat) : Byte :=
  match m.snap.find? fun c => c.1 == a with
  | some c => if Config.copyOld s.tick first then c.2 else s.byte a
  | none => engByte s e a

/-- Read a box element at the flat addresses of its bytes (09 R230; 04 R101). -/
def takeAt (s : State) (r : EngRef) (now : Bool) (m : Move) (n : Nat) (flats : List Nat) : State × Taken :=
  match s.eng? r with
  | none => (s, .stop)
  | some e =>
    let a := flats.headD 0
    let p := m.srcByte n
    let off := fun (x : Nat) => if m.src.space = 0 then x % 2 ^ 60 else x - a + p.1
    let f := fun (x : Nat) => moveByte s e m a (if a ≤ x ∧ x < a + flats.length then flats.getD (x - a) 0 else x)
    let tagged := m.src.rtags && !m.rawBoth && !untagged a && (s.tag a).toNat % 256 != 0
    let bad := if tagged then firstPoison s (a / 64 * 64) 64 else none
    match bad, m.element f (s.tag a).toNat a p.2 with
    | some b, _ => (if now then s else engPoison s r b (off b), .stop)
    | none, none => (if now then s else engPoison s r a (off a), .stop)
    | none, some g => (s, .got g)

/-- The bytes that an element names from its first on. -/
def spanOf (p : Nat × Nat) (l : Layout) : Nat := (p.2 + l.bits + 7) / 8

/-- The bytes of the block of an address, with its tag (04 R99). -/
def blockCells (a : Nat) : List Nat :=
  if untagged a then [] else (List.range 64).map (a / 64 * 64 + ·) ++ [tagAddr a, tagAddr a + 1]

/-- Take a box element's value (09 R230): outside the source's extents the pad, in a skipped page the fill pattern. -/
def takeElem (s : State) (r : EngRef) (now : Bool) (m : Move) (n : Nat) : State × Taken :=
  if m.isRead (m.col n) (m.rowOf n) then
    let p := m.srcByte n
    match reachRead s r now m.src.space (moveBase s r false m.src.space) p.1 (spanOf p m.src) with
    | (s, .ok flats) => takeAt (if m.src.rtags then engMeets s r (flats.flatMap blockCells) else s) r now m n flats
    | (s, .skipped) => (s, .got (m.filled m.src.fill))
    | (s, .patched) => (s, .nothing)
    | (s, .stop) => (s, .stop)
  else (s, .got (m.filled m.pad))

/-- Put a box element's value at the flat addresses of its bytes, with the block's tag under write-tags (09 R230). -/
def putElemAt (s : State) (r : EngRef) (m : Move) (n : Nat) (g : Got) (flats : List Nat) : State :=
  let p := m.dstByte n
  let a := flats.headD 0
  let v := m.converted g
  let old := fun (x : Nat) => match s.eng? r with
    | some e => ((e.out.reverse.find? fun c => c.1 == x).map (·.2)).getD (engByte s e x)
    | none => s.byte x
  let cells := (m.cells old a p.2 v.1).zipIdx.map fun c => (flats.getD c.2 0, c.1.2)
  let s := s.modMove r fun x => if (((s.eng? r).map (·.out)).getD []).isEmpty then { x with outAt := n } else x
  let tags := if m.dst.wtags then (flats.filter fun a => !untagged a).flatMap fun a => valueAt (tagAddr a) 2 m.tag.toNat else []
  let s := engStore s r (cells ++ tags)
  s.modEng r fun e => { e with flags := e.flags ||| v.2 }

/-- The blocks of main memory that an element is performed in count (18 R375; 22 R404): those it read, where no handler has skipped
them, and those it writes. -/
def countElem (s : State) (r : EngRef) (m : Move) (n : Nat) : State :=
  let p := m.srcByte n
  let q := m.dstByte n
  let reads := m.isRead (m.col n) (m.rowOf n) && (((s.eng? r).bind fun e => skipOf e p.1).isNone)
  let s := if reads then countAt s r m.src.space p.1 (spanOf p m.src) else s
  countAt s r m.dst.space q.1 (spanOf q m.dst)

/-- One box element (09 R230; 18 R379: reads are checked before writes): whether it is done. `now` lets nothing wait, and
leaves an element that would. -/
def moveElement (s : State) (r : EngRef) (now : Bool) (m : Move) (n : Nat) : State × Bool :=
  match takeElem s r now m n with
  | (s, .stop) => (s, false)
  | (s, .nothing) => (s, true)
  | (s, .got g) =>
    let p := m.dstByte n
    match reachWrite s r now m.dst.space (moveBase s r true m.dst.space) p.1 (spanOf p m.dst) with
    | (s, .ok flats) =>
      let lacks := match s.eng? r with
        | some e => decide (m.dst.bits < 8) && (flats.any fun a => (peerLacks e a 1).isSome)
        | none => true
      if now && flats.any isPeer then (s, false)
      else if lacks then (if now then s else askPeer s r (flats.headD 0) p.1, false)
      else (putElemAt (countElem s r m n) r m n g flats, true)
    | (s, .skipped) => (s, true)
    | (s, .patched) => (s, true)
    | (s, .stop) => (s, false)

/-- The box once its element at hand is done. -/
def Move.step (m : Move) : Move :=
  match m.early with
  | n :: l => { m with early := l, ahead := n :: m.ahead }
  | [] => { m with at_ := m.at_ + 1 }

/-- Serve box elements from where the operation has come to, as long as they lie in one 64-byte destination block
(17 R359). -/
def serveFrom (r : EngRef) : Nat → Option Nat → State → State
  | 0, _, s => s
  | fuel + 1, blk, s =>
    match s.move? r with
    | none => s
    | some m =>
      let n := m.cur
      if m.size ≤ n then s
      else if m.early.isEmpty && (!m.written (m.col n) (m.rowOf n) || m.ahead.contains n) then
        serveFrom r fuel blk (s.modMove r fun x => { x with at_ := n + 1, ahead := x.ahead.erase n })
      else
        let b := (m.dstByte n).1 / 64
        if blk = none ∨ blk = some b then
          match moveElement s r false m n with
          | (s, true) => serveFrom r fuel (some b) (s.modMove r Move.step)
          | (s, false) => s
        else s

/-- How an operation is stopped. -/
def suspOf (s : State) (r : EngRef) : Option Susp := (s.eng? r).map fun e => e.susp

/-- The operation runs. -/
def engRuns (s : State) (r : EngRef) : Bool := ((s.eng? r).map fun e => e.susp == .none).getD false

/-- The source bytes that lie among the bytes the box writes (09 R233). -/
def overlapOf (s : State) (r : EngRef) (m : Move) : List Nat :=
  if m.src.space = 0 ∨ m.dst.space = 0 then []
  else
    let abs := fun (b : Nat) (p : Nat × Nat) => (b + p.1, b + p.2)
    let src := m.readSpans.map (abs (moveBase s r false m.src.space))
    let dst := m.writeSpans.map (abs (moveBase s r true m.dst.space))
    src.flatMap fun p => ((List.range (p.2 - p.1)).map (p.1 + ·)).filter fun a =>
      dst.any fun q => decide (q.1 ≤ a) && decide (a < q.2)

/-- Keep the overlap as the operation finds it: after its issuer's earlier stores (09 R233; 15 R334). -/
def keepOverlap (s : State) (r : EngRef) (m : Move) : State :=
  match overlapOf s r m with
  | [] => s
  | l =>
    let s := engMeets s r l
    s.modMove r fun x => { x with snap := l.map fun a => (a, s.byte a) }

/-! ### Elements of earlier pages (18 R379) -/

/-- The main-memory pages of a box element: side and first address. -/
def pagesOf (s : State) (r : EngRef) (m : Move) (n : Nat) : List (Bool × Nat) :=
  let pages := fun (dest : Bool) (p : Nat × Nat) (l : Layout) =>
    [(dest, (engPage s r p.1).1), (dest, (engPage s r (p.1 + spanOf p l - 1)).1)].eraseDups
  (if m.isRead (m.col n) (m.rowOf n) && m.src.space == 0 then pages false (m.srcByte n) m.src else []) ++
  (if m.dst.space = 0 then pages true (m.dstByte n) m.dst else [])

/-- The box elements written, from one number on, below another. -/
def writtenFrom (m : Move) (lo hi : Nat) : List Nat :=
  ((List.range hi).drop lo).filter fun n => m.written (m.col n) (m.rowOf n)

/-- No 64-byte destination block of a box is part old, part new, but for bytes under way (09 R250). -/
def Move.wholeBlocks (m : Move) : Bool :=
  let block := fun n => (m.dstByte n).1 / 64
  let all := writtenFrom m 0 m.size
  let done := fun n => decide (n < m.at_) && !m.early.contains n || m.ahead.contains n
  let open_ := ((all.filter fun n => !done n).map block).eraseDups
  !all.any fun n => done n && open_.contains (block n)

/-- Two box elements write a common bit of the destination. -/
def Move.meets (m : Move) (i n : Nat) : Bool :=
  let a := (m.dstByte i).1 * 8 + (m.dstByte i).2
  let b := (m.dstByte n).1 * 8 + (m.dstByte n).2
  decide (a < b + m.dst.bits) && decide (b < a + m.dst.bits)

/-- The elements of earlier pages that are still to be done when the element at hand meets a page that fails or holds, on the side
`dest`: its own source page comes before its destination page. One that writes where an undone element comes before it in box order
waits for that one (09 R233; 18 R379). -/
def earlierPages (s : State) (r : EngRef) (dest : Bool) (m : Move) : List Nat :=
  let own := (pagesOf s r m m.at_).filter fun p => dest && !p.1
  let before := ((writtenFrom m 0 m.at_).flatMap (pagesOf s r m) ++ own).eraseDups
  let undone := (writtenFrom m m.at_ m.size).filter fun n => !m.ahead.contains n
  (undone.foldl (fun l n =>
    if m.at_ < n ∧ (pagesOf s r m n).all before.contains ∧ !l.2.any (m.meets n) then (l.1 ++ [n], l.2)
    else (l.1, n :: l.2)) ([], [])).1

/-- The address of a page of an element lies in a peer's memory. -/
def pagePeer (s : State) (r : EngRef) (p : Bool × Nat) : Bool :=
  match s.eng? r with
  | some e =>
    match (walk s (EngRef.die r) (engSecureWorld s e) p.2).trans (engSecureWorld s e) p.1 p.2 with
    | .ok a => isPeer a
    | _ => false
  | none => false

/-- The element waits for a peer, and for nothing else. -/
def waitsPeer (s : State) (r : EngRef) (m : Move) (n : Nat) : Bool :=
  let far := (pagesOf s r m n).filter (pagePeer s r)
  !far.isEmpty && ((far.any fun p => !p.1) || match (takeElem s r true m n).2 with
    | .stop => false
    | _ => true)

/-- Where a page fails or holds, the elements of earlier pages complete (18 R379): those that need not wait, and do not come after
one that waits and writes a common byte (09 R233). -/
def settleAhead (s : State) (r : EngRef) (dest : Bool) : State :=
  match s.move? r with
  | none => s
  | some m =>
    ((earlierPages s r dest m).foldl (fun (sl : State × List Nat) n =>
      if sl.2.any (m.meets n) then (sl.1, n :: sl.2)
      else match moveElement sl.1 r true m n with
        | (s, true) => (s.modMove r fun x => { x with ahead := n :: x.ahead }, sl.2)
        | (s, false) => (s, n :: sl.2)) (s, [])).1

/-- The elements of earlier pages that wait for a peer are to be done first (18 R379). -/
def peersFirst (s : State) (r : EngRef) (dest : Bool) : Option State :=
  match s.move? r with
  | none => none
  | some m =>
    match (earlierPages s r dest m).filter (waitsPeer s r m) with
    | [] => none
    | l => some ((s.modMove r fun x => { x with early := l }).modEng r fun e => { e with susp := .none })

/-- An access of the operation has failed: the range where skip and patch act is not empty (18 R379). -/
def engFailed (s : State) (r : EngRef) : Bool :=
  match suspOf s r with
  | some (.effect _ n) => n != 0
  | _ => false

/-- An operation has stopped at a failing or holding page. -/
def engStopped (s : State) (r : EngRef) : Bool :=
  match suspOf s r with
  | some (.effect _ _) => true
  | some (.held _ _) => true
  | _ => false

/-! ### A block of the box (17 R359) -/

/-- Serve one destination block of a box; bytes for a peer leave as one request (21 R391). -/
def serveBlock (s : State) (r : EngRef) : State :=
  match s.move? r with
  | none => s
  | some m =>
    let s := if m.at_ = 0 then keepOverlap s r m else s
    let s := s.modEng r fun e => { e with put := [] }
    let s := serveFrom r (2 * m.size + 1) none s
    let s := if s.poison.isEmpty then s else s.unpoison (((s.eng? r).map (·.put)).getD [])
    let dest := engRuns s r
    let va := match s.move? r with
      | some x => (x.dstByte x.outAt).1
      | none => 0
    let s := if engRuns s r then
        let p := flushOut s r va
        if p.2 then p.1 else p.1.modEng r fun e => { e with got := [] }
      else s
    if engFailed s r then settleAhead s r dest else s

/-- The box is done: every element, and no byte under way. -/
def moveDone (s : State) (r : EngRef) : Bool :=
  match s.move? r, s.eng? r with
  | some m, some e => decide (m.size ≤ m.at_) && e.out.isEmpty && e.susp == .none
  | _, _ => false

/-- A walk ends for a waiting or held access; where the page fails or holds, the elements of earlier pages complete first
(18 R379). -/
def walkEnds (s : State) (r : EngRef) (va : Nat) (write : Bool) : State :=
  if engStopped (engWalked s r va write) r then
    let s := settleAhead s r write
    (peersFirst s r write).getD (engWalked s r va write)
  else engWalked s r va write

/-! ### Copies -/

/-- The bytes that a device has acknowledged to an operation, as the trailer of a CPYP counts them (21 R394). -/
def Eng.sentTo (e : Eng) (dev : Nat) : Nat := (e.acked.filter fun a => peerOf a == dev).length

/-- The body of SIGNAL with a tag (21 R395). -/
def signalBody (tag : Nat) : Msg := ⟨0, 0, 0, 0, BitVec.ofNat 32 tag⟩

/-- The signal add of a CPYP (09 R243): an indivisible add of 1, or the trailer to a peer (21 R394). -/
def serveSignal (s : State) (core : Nat) (c : Copy) (off : Nat) : State :=
  let r : EngRef := .copy core c.id
  let va := c.dst.base + off
  let s := s.modCopy core c.id fun x => { x with skips := [] }
  match reachWrite s r false 0 0 va 4 with
  | (s, .ok flats) =>
    let a := flats.headD 0
    let s := countAt s r 0 va 4
    if isPeer a then sendReq s r a (.trailer (signalBody (senderTag s r)) a (c.sentTo (peerOf a))) true (engPage s r va)
    else if s.anyPoison a 4 then engPoison s r a (a % 2 ^ 60)
    else completeCopy (s.store (valueAt a 4 ((s.load a 4 + 1) % 2 ^ 32))) core c.id
  | (s, _) => s

/-- The last data byte of a copy has landed (09 R233, R234, R243): the signal follows, the follow-on is ready, or the copy
completes. -/
def copyLanded (s : State) (core : Nat) (c : Copy) : State :=
  match c.kind, c.follow with
  | .peer (some _), _ => s
  | _, some e => s.modCore core fun x => { x with mq := x.mq.map fun m => if m.id = e then { m with landed := true } else m }
  | _, none => completeCopy s core c.id

/-- A queue entry of the issuer from before the operation still stands (09 R233; 15 R334). -/
def earlierStores (s : State) (k : GKey) (id : Nat) : Bool :=
  ((s.group? k).map fun g => g.queue.any fun q => decide (q.id < id)).getD false

/-- The copy waits for its follow-on's array work (09 R233). -/
def Copy.awaitsFollow (c : Copy) : Bool := c.follow.isSome && decide (c.nx * c.ny ≤ c.at_)

/-- A destination block of the copy is part old, part new. -/
def Copy.midBlock (c : Copy) : Bool := !c.out.isEmpty || !c.toMove.wholeBlocks

/-- The copy of a launch that halts or ends goes on to the next boundary of its blocks (17 R360, R365). -/
def closesBlock (s : State) (c : Copy) : Bool :=
  ((s.grid? c.corr).map fun g => g.phase == .halting || g.phase == .ending).getD false && c.midBlock

/-- The copy stands where a launch that halts or ends leaves it: at a boundary of its blocks, or stopped for a handler or a held
page (17 R360, R365). -/
def Copy.rests (c : Copy) : Bool :=
  match c.susp with
  | .fabric _ => false
  | .effect _ _ => true
  | .held _ _ => true
  | _ => !c.midBlock

/-- The copy can be served (09 R233, R246; 10 R280; 15 R334; 17 R359, R360). -/
def copyReady (s : State) (core : Nat) (c : Copy) : Bool :=
  c.susp == .none && (s.goesOn c.corr || closesBlock s c) && !c.awaitsFollow &&
  !edgeHeld s (dieOf core) c.corr c.id c.reads c.writes && !earlierStores s c.key c.id &&
  !(c.src.space == 4 && olderEntry s core c.own c.id)

/-- The first of some copies by a measure. -/
def leastCopy (f : Copy → Nat) (l : List Copy) : Option Copy :=
  l.foldl (fun b x => match b with
    | none => some x
    | some y => if f x < f y then some x else some y) none

/-- The copy the engine serves next: the teams in turn, each team's in order of entry (17 R359). -/
def nextCopy (s : State) (core : Nat) : Option Nat :=
  let c := s.core core
  let ready := c.copies.filter (copyReady s core)
  let turn := (leastCopy (fun x => x.team) (ready.filter fun x => decide (c.lastTeam < x.team))).orElse fun _ =>
    leastCopy (fun x => x.team) ready
  turn.bind fun t => (leastCopy (fun x => x.id) (ready.filter fun x => x.team == t.team)).map fun x => x.id

/-- Serve a copy: a destination block, or its signal. -/
def serveCopy (s : State) (core : Nat) (c : Copy) : State :=
  let r : EngRef := .copy core c.id
  let s := s.modCore core fun x => { x with lastTeam := c.team }
  if !c.out.isEmpty then flushRest s r
  else match c.kind, c.atSignal with
  | .peer (some off), true => serveSignal s core c off
  | _, _ =>
    let s := serveBlock s r
    if moveDone s r then copyLanded s core c else s

/-- COPY_BLOCK (17 R359; 09 R230, R233): the engine serves one destination block of the copy whose turn it is. -/
def execCopyBlock (core id : Nat) (s : State) : Host.Outcome State Fault Refusal :=
  .next (match s.copy? core id with
    | some c => if nextCopy s core = some id then retireCore (serveCopy s core c) core else s
    | none => s)

/-! ### Walks and holds -/

/-- The operations of a die: copies of its cores, then jobs. -/
def engsOf (s : State) (die : Nat) : List EngRef :=
  ((List.range 48).flatMap fun i => (s.core (die * 48 + i)).copies.map fun c => EngRef.copy (die * 48 + i) c.id) ++
  (s.die die).jobs.map fun j => EngRef.job die j.idx

/-- The address an operation waits for a walk of. -/
def walking (s : State) (r : EngRef) : Option (Nat × Bool) :=
  match suspOf s r with
  | some (.walk va w _) => some (va, w)
  | _ => none

/-- The range of the leaf that an operation waits for, with its world. -/
def walkOf (s : State) (r : EngRef) : Option (Bool × (Nat × Nat)) :=
  (walking s r).map fun w => (((s.eng? r).map (engSecureWorld s)).getD false, engPage s r w.1)

/-- Who asks the walkers: a core of the die, or its engines as one more (notes/assumptions/12.md). -/
def EngRef.asker : Sys2Proof.EngRef → Nat
  | .copy core _ => core % 48
  | .job _ _ => 48

/-- Since which step an operation waits. -/
def waitsSince (s : State) (r : EngRef) : Nat :=
  match suspOf s r with
  | some (.walk _ _ n) => n
  | _ => 0

/-- The misses of a die that no walk in flight serves. -/
def misses (s : State) (die : Nat) : List EngRef :=
  (engsOf s die).filter fun r => match walkOf s r with
    | some (sec, page) => !(s.die die).walks.any fun w => w.secure == sec && w.page == page
    | none => false

/-- The walks in flight for an asker. -/
def walksOf (s : State) (die core : Nat) : Nat := ((s.die die).walks.filter fun w => w.core == core).length

/-- A walker takes a miss (18 R372): of the askers in rotation the next that may have one more walker, its oldest miss. -/
def takeMiss (s : State) (die : Nat) : Option State :=
  let ms := misses s die
  let may := fun c => ms.any (fun r => EngRef.asker r == c) &&
    (decide (walksOf s die c < 8) || !ms.any fun r => EngRef.asker r != c)
  if 64 ≤ (s.die die).walks.length then none
  else
    match ((List.range 49).map fun i => ((s.die die).lastWalk + 1 + i) % 49).find? may with
    | none => none
    | some c =>
      match (ms.filter fun r => EngRef.asker r == c).foldl (fun b r => match b with
        | none => some r
        | some q => if waitsSince s r < waitsSince s q then some r else some q) none with
      | none => none
      | some r => (walkOf s r).map fun w =>
          s.modDie die fun d => { d with walks := d.walks ++ [⟨c, w.1, w.2⟩], lastWalk := c }

/-- The free walkers take misses. -/
def takeMisses (die : Nat) : Nat → State → State
  | 0, s => s
  | n + 1, s => match takeMiss s die with
    | some s => takeMisses die n s
    | none => s

/-- TRANSLATION_WALK (18 R370 to R372): the free walkers take misses, and one of the walks in flight ends, for every requester that
waits on its leaf. -/
def execTranslationWalk (die : Nat) (s : State) : Host.Outcome State Fault Refusal :=
  let s := takeMisses die 64 s
  let ws := (s.die die).walks
  .next (match ws[Config.walkPick s.tick % ws.length]? with
    | none => s
    | some w =>
      let s := s.modDie die fun d => { d with walks := d.walks.erase w }
      (engsOf s die).foldl (fun s q => match walking s q with
        | some (va, wr) => if walkOf s q = some (w.secure, w.page) then walkEnds s q va wr else s
        | none => s) s)

/-- WRITEBLOCK (18 R378): a write has been held for the hold time. -/
def execWriteblock (r : EngRef) (s : State) : Host.Outcome State Fault Refusal :=
  .next (match suspOf s r with
    | some (.held va false) => writeBlock s r va
    | _ => s)

/-- Walk every held write of a die again (18 R374). -/
def rewalkHeld (s : State) (die : Nat) : State :=
  (engsOf s die).foldl (fun s r => match suspOf s r with
    | some (.held va _) => walkEnds s r va true
    | _ => s) s

/-- HELD_WRITE_REWALK (18 R374, R378). -/
def execHeldWriteRewalk (die : Nat) (s : State) : Host.Outcome State Fault Refusal := .next (rewalkHeld s die)

/-! ### Errors that strike (18 R380, R384) -/

/-- One more correction of a memory. -/
def correct (m : MemName) (n : Nat) (l : List (MemName × Nat)) : List (MemName × Nat) :=
  if n = 0 then l
  else if l.any (fun p => p.1 == m) then l.map fun p => if p.1 == m then (m, p.2 + n) else p
  else l ++ [(m, n)]

/-- The flat address and the offset that the next destination byte of a running operation has. -/
def nextDest (s : State) (r : EngRef) : Option (Nat × Nat) :=
  match s.move? r, s.eng? r with
  | some m, some e =>
    let off := (m.dstByte m.cur).1
    if m.size ≤ m.at_ then none
    else if m.dst.space ≠ 0 then some (moveBase s r true m.dst.space + off, off)
    else match (walk s (EngRef.die r) (engSecureWorld s e) off).trans (engSecureWorld s e) true off with
      | .ok a => some (a, a % 2 ^ 60)
      | _ => none
  | _, _ => none

/-- An error strikes (18 R380, R384). A damaged block is not written, and its operation stops there. -/
def strike (s : State) (f : Flaw) : State :=
  match f with
  | .corrected m => { s with corrected := correct m 1 s.corrected }
  | .poisoned a => s.addPoison a
  | .register k p e => s.modGroup k fun g =>
      if e < g.width then g.setVreg p { g.vreg p with bad := (g.vreg p).bad ||| one e } else g
  | .damaged r =>
    match engRuns s r, nextDest s r with
    | true, some d => engPoison s r d.1 d.2
    | _, _ => s

end Sys2Proof.Machine
end

