-- ==== Sys2Proof/Machine/Copy.lean ====
section
/-! DEFINITION. Layout records, copies, ring and peer copies, batches (09 R227 to R243). -/

namespace Sys2Proof.Machine

open Sys2Proof

/-! ### Layout records (09 R228) -/

/-- The little-endian field of a record. -/
def fieldAt (bs : List Byte) (o n : Nat) : Nat := leNat ((bs.drop o).take n)

/-- A layout record's fields. -/
def layoutFields (bs : List Byte) : Layout where
  base := fieldAt bs 0 8
  space := fieldAt bs 8 1
  fmt := fieldAt bs 9 1
  esize := fieldAt bs 10 1
  rtags := fieldAt bs 11 1 % 2 == 1
  wtags := fieldAt bs 11 1 / 2 % 2 == 1
  sat := fieldAt bs 11 1 / 4 % 2 == 1
  scale := BitVec.ofNat 8 (fieldAt bs 12 1)
  ext0 := fieldAt bs 16 4
  ext1 := fieldAt bs 20 4
  ext2 := fieldAt bs 24 4
  fill := word (fieldAt bs 28 4)
  str1 := fieldAt bs 32 8
  str2 := fieldAt bs 40 8

/-- An extent lies within its limits. -/
def extOk (n : Nat) : Bool := decide (1 ≤ n) && decide (n < 2 ^ 31)

/-- A stride is a multiple of the element size below 2^48. -/
def strideOk (l : Layout) (n : Nat) : Bool := decide (n < 2 ^ 48) && n % max 1 (l.bits / 8) == 0

/-- A record of 64 bytes, when it keeps the table of R228. -/
def layoutOf (bs : List Byte) : Option Layout :=
  let l := layoutFields bs
  let ok := decide (l.space ≤ 4) && decide (l.fmt ≤ 9) && decide (l.esize < 4) && (l.fmt == 0 || l.esize == 0) &&
    decide (fieldAt bs 11 1 < 8) && fieldAt bs 13 3 == 0 && fieldAt bs 48 16 == 0 &&
    decide (l.base < if l.space = 0 then 2 ^ 57 else 2 ^ 32) && extOk l.ext0 && extOk l.ext1 && extOk l.ext2 &&
    (l.bits != 4 || l.ext0 % 2 == 0) && strideOk l l.str1 && strideOk l l.str2
  if ok then some l else none

/-- LAYD (09 R228). -/
def execLayd (l : Fin 16) (a b : Reg) (m : Space) (s : State) : Host.Outcome State Fault Refusal :=
  issue (.layd l a b m) s fun x =>
    let c : Acc := ⟨m, 64, 0, fun _ => (x.a.sca + x.b.sca).toNat, fun _ => false⟩
    let off := word (c.off 0)
    let a := accAt x c 0
    if fateAt x c 0 ≠ .ok then x.raise x.s (failures x c)
    else if awaitsAtomic x c then .hold x.kept
    else if seenPoison x.s x.g a 64 then x.fail (x.perf 0x106 .none (word (Space.code m)) off 0 x.act .none)
    else
      match layoutOf ((List.range 64).map fun i => seenByte x.s x.g (a + i)) with
      | some r => .done (x.s.modTeam x.g.team fun t => { t with layouts := t.layouts.set l.val (some r) })
      | none => x.fail (x.range off)

/-! ### The copy queue (09 R239) -/

/-- A free entry of the copy queue for a team: of the shared pool, else of its reserve. -/
def copyRoom (s : State) (core team : Nat) : Option Bool :=
  let cs := (s.core core).copies
  let teams := (s.teams.filter fun t => t.core == core).length
  if (cs.filter fun c => c.shared).length < 256 - 8 * teams then some true
  else if (cs.filter fun c => c.team == team && !c.shared).length < 8 then some false
  else none

/-- Free entries of a team's reserve (11 R290). -/
def reserveFree (s : State) (core team : Nat) : Nat :=
  8 - ((s.core core).copies.filter fun c => c.team == team && !c.shared).length

/-- The result of the non-blocking form in pD (09 R227, R239). -/
def setQueued (x : Ins) (nb : Bool) (pd : Fin 8) (v : Bool) (s : State) : State :=
  if nb then s.modGroup x.k fun g => g.setPred pd.val (if v then x.g.full else 0#128) x.act else s

/-- The non-blocking form never waits: pD receives 0 (09 R239). -/
def noWait (x : Ins) (nb : Bool) (pd : Fin 8) (a : Act) : Act :=
  match a with
  | .hold p => if nb then .done (setQueued x nb pd false x.s) else .hold p
  | a => a

/-- Put a copy into the queue, in the open batch (09 R237, R239; 15 R335). What stands in core order by then comes before it
(15 R328). -/
def queueCopy (x : Ins) (m : Move) (kind : CopyKind) (arrive : Option Nat) (shared : Bool) (reads writes : List Region)
    (follow : Option Nat) (s : State) : State :=
  let c : Copy :=
    { toMove := m
      toEng := ⟨x.k, x.own, x.g.team, x.corr, x.pc, x.csn, x.mark, 0#7, .none, [], [], [], [], [], 0, []⟩
      id := s.nextId, kind := kind, arrive := arrive, batch := x.g.it.lastBatch + 1, shared := shared, follow := follow
      reads := reads, writes := writes }
  (dueAll { s with nextId := s.nextId + 1 } x.k.core).modCore x.k.core fun k => { k with copies := k.copies ++ [c] }

/-! ### CPY and CPYP (09 R229 to R235, R243) -/

/-- Scalar k of a command block (09 R229). -/
def blockAt (x : Ins) (a : Reg) (k : Nat) : Word :=
  match a with
  | .s n => x.g.sreg (n.val + k)
  | _ => 0

/-- The spaces a copy may join (09 R231). -/
def pairsWith (src dst : Nat) : Bool :=
  if src = 0 then dst == 1 || dst == 2 || dst == 3
  else (src == 1 || src == 2 || src == 4) && decide (dst ≤ 3)

/-- A 16-bit field, signed (09 R229). -/
def half16 (w : Word) (hi : Bool) : Int := ((w >>> (if hi then 16 else 0)).setWidth 16).toInt

/-- A box between two records, from the coordinates of a block (09 R229); `c` gives c1 to c6 as scalars 0 to 5. -/
def boxOf (src dst : Layout) (hs hd : Nat) (c : Nat → Word) : Move where
  src := src
  dst := dst
  hs := hs
  hd := hd
  c1 := (c 0).toInt
  c2 := (c 1).toInt
  c3s := half16 (c 2) false
  c3d := half16 (c 2) true
  c4 := (c 3).toInt
  c5 := (c 4).toInt
  nx := (c 5).toNat % 2 ^ 16
  ny := (c 5).toNat / 2 ^ 16
  at_ := 0
  ahead := []
  early := []
  outAt := 0
  snap := []
  tag := BitVec.ofNat 16 (dst.scale.toNat * 256 + dst.fmt)
  pad := src.fill
  nib := false

/-- The size of a space's window for the issuer (01 R34; 09 R231). -/
def spaceSize (x : Ins) (space : Nat) : Nat :=
  match space with
  | 1 => (windowAt x .sp).size
  | 2 => (windowAt x .sh).size
  | 3 => 2 ^ 19
  | _ => 2 ^ 20

/-- The first byte of some spans that lies outside an on-chip window. -/
def outOf (x : Ins) (space : Nat) (l : List (Nat × Nat)) : Option Nat :=
  if space = 0 then none
  else (l.find? fun p => decide (spaceSize x space < p.2)).map fun p => max p.1 (spaceSize x space)

/-- The first span that a non-secure grid's copy may not reach (01 R37; 09 R232). -/
def secureIn (x : Ins) (space : Nat) (l : List (Nat × Nat)) : Option Nat :=
  match space, (windowAt x .sp).sp with
  | 1, some p =>
    if x.s.secureGrid x.corr then none
    else (l.find? fun q => x.s.secureRange p.1 (p.2 + q.1) (q.2 - q.1)).map (·.1)
  | _, _ => none

/-- A scalar, or z. -/
def scalarReg : Reg → Bool
  | .s _ => true
  | .z => true
  | _ => false

/-- The follow-on that c7 carries (09 R235): an MMA, MMAA or MMSP that would pass decoding, with scalar or z operands. -/
def followOf (w : Word) : Option (Instr × Reg × Reg × Reg) :=
  match decodeWord w.toNat with
  | .ok i =>
    let regs := match i with
      | .mma d a b _ _ => some (d, a, b)
      | .mmaa d a b _ => some (d, a, b)
      | .mmsp d a b _ _ => some (d, a, b)
      | _ => none
    regs.bind fun r => if i.wf && scalarReg r.1 && scalarReg r.2.1 && scalarReg r.2.2 then some (i, r) else none
  | .error _ => none

/-- What the follow-on asks for, from the scalars as the CPY issues (09 R235). -/
def followProduct (x : Ins) (f : Instr × Reg × Reg × Reg) : Except Word (Product × Word) :=
  let v := fun (r : Reg) => blockAt x r 0
  (productOf f.1 (v f.2.1) (v f.2.2.1) (v f.2.2.2)).map fun p => (p, v f.2.1)

/-- The claims that the follow-on needs are held (09 R235). -/
def followHeld (x : Ins) (p : Product) : Bool := (lacking x p.halves p.d.banks p.reads).isNone

/-- The signal of a CPYP that c7 names (09 R243): none, or an offset that gives an aligned address. -/
def signalOf (dst : Layout) (c7 : Word) : Option (Option Nat) :=
  if c7 = 0xFFFFFFFF#32 then some none
  else if (dst.base + c7.toNat) % 4 = 0 then some (some c7.toNat) else none

/-- A planned copy: its box, its kind, the register it arrives on, its follow-on with the follow-on's tile descriptor. -/
structure Plan where
  m      : Move
  kind   : CopyKind
  arrive : Option Nat
  follow : Option (Product × Word)

/-- The offending scalar of R232 step 1, or the plan. -/
def planOf (x : Ins) (peer fo : Bool) (a : Reg) : Except Word Plan :=
  let c := blockAt x a
  let handle := fun (n : Nat) => (x.team.bind fun t => t.layouts[n]?).bind id
  let hs := (c 0).toNat % 16
  let hd := (c 0).toNat / 16 % 16
  if 2 ^ 13 ≤ (c 0).toNat then .error (c 0)
  else
    match handle hs, handle hd with
    | some src, some dst =>
      let m := boxOf src dst hs hd fun i => c (i + 1)
      let arrive := if (c 0).getLsbD 12 then some ((c 0).toNat / 256 % 16) else none
      let sizes := (src.fmt != 0 && dst.fmt != 0) || src.bits == dst.bits
      if m.nx = 0 ∨ m.ny = 0 then .error (c 6)
      else if !pairsWith src.space dst.space then .error (c 0)
      else if peer then
        if dst.space ≠ 0 then .error (c 0)
        else match signalOf dst (c 7) with
          | none => .error (c 7)
          | some sig => if sizes then .ok ⟨m, .peer sig, arrive, none⟩ else .error (c 0)
      else if !fo then
        if c 7 ≠ 0 then .error (c 7) else if sizes then .ok ⟨m, .plain, arrive, none⟩ else .error (c 0)
      else
        match followOf (c 7) with
        | none => .error (c 7)
        | some f =>
          if dst.space ≠ 3 then .error (c 7)
          else match followProduct x f with
            | .error v => .error v
            | .ok p =>
              if !followHeld x p.1 then .error (c 7)
              else if sizes then .ok ⟨m, .plain, arrive, some p⟩ else .error (c 0)
    | _, _ => .error (c 0)

/-- The checks of R232 after the first. -/
def planFault (x : Ins) (m : Move) : Option Perf :=
  let rd := m.readSpans
  let wr := m.writeSpans
  match (outOf x m.src.space rd).orElse fun _ => outOf x m.dst.space wr with
  | some v => some (x.range (word v))
  | none =>
    let halves := if m.dst.space = 3 then unitsOf wr else []
    let banks := if m.src.space = 4 then unitsOf rd else []
    match lacking x halves [] banks with
    | some p => some p
    | none =>
      match (secureIn x m.src.space rd).orElse fun _ => secureIn x m.dst.space wr with
      | some v => some (x.perf 0x111 .none 1 (word v) 0 x.act .none)
      | none => none

/-- A copy that reads banks is a non-linear consumer and a drain (09 R231; 10 R271; 18 R381). -/
def bankSource (x : Ins) (m : Move) (f : Unit → Act) : Act :=
  if m.src.space = 4 then
    let banks := unitsOf m.readSpans
    let c := x.s.core x.k.core
    match banks.find? fun b => c.openBy x.own ⟨b, 1⟩ with
    | some b => x.fail (x.range (word b))
    | none =>
      if banks.any fun b => c.carried ⟨b, 1⟩ != [] then .hold x.kept
      else
        match m.readSpans.findSome? fun p => firstPoison x.s (accAddr x.k.core p.1) (p.2 - p.1) with
        | some a => x.fail (x.perf 0x106 .none 4 (word (a - accAddr x.k.core 0)) 0 x.act .none)
        | none => f ()
  else f ()

/-- The checks and waits of a follow-on that its CPY makes at issue (09 R235). -/
def followRoom (x : Ins) (o : Option (Product × Word)) (f : Unit → Act) : Act :=
  match o with
  | none => f ()
  | some p => writable x p.1.d p.2 p.1.accum fun _ => queueRoom x fun _ => tableRoom x p.1.der f

/-- The regions a copy registers (09 R246). -/
def regionsOf (m : Move) (kind : CopyKind) : List Region × List Region :=
  let on := fun (space : Nat) (l : List (Nat × Nat)) => if space ≤ 1 then regionOfSpans space l else []
  let sig := match kind with
    | .peer (some o) => [(m.dst.base + o, m.dst.base + o + 4)]
    | _ => []
  (on m.src.space m.readSpans, on m.dst.space (m.writeSpans ++ sig))

/-- Queue a planned copy, its follow-on taking its place in matrix order now (09 R234, R237). -/
def commit (x : Ins) (p : Plan) (shared : Bool) (s : State) : State :=
  let r := regionsOf p.m p.kind
  let id := s.nextId
  match p.follow with
  | none => queueCopy x p.m p.kind p.arrive shared r.1 r.2 none s
  | some f =>
    let s := queueCopy x p.m p.kind p.arrive shared r.1 r.2 (some (id + 1)) s
    placeEntry x s f.1.op false false f.1.der

/-- CPY and CPYP (09 R229 to R235, R239, R243). -/
def copyIns (x : Ins) (pd : Fin 8) (a : Reg) (fo nb peer : Bool) : Act :=
  noWait x nb pd <|
    match copyRoom x.s x.k.core x.g.team with
    | none => .hold x.kept
    | some shared =>
      match planOf x peer fo a with
      | .error v => x.fail (x.range v)
      | .ok p =>
        match planFault x p.m with
        | some e => x.fail e
        | none => bankSource x p.m fun _ => unpinned x (if p.m.dst.space = 3 then unitsOf p.m.writeSpans else []) fun _ =>
            followRoom x p.follow fun _ => .done (setQueued x nb pd true (commit x p shared x.s))

/-- CPY (09 R229 to R239). -/
def execCpy (p : Fin 8) (a : Reg) (nb fo : Bool) (s : State) : Host.Outcome State Fault Refusal :=
  issue (.cpy p a nb fo) s fun x => copyIns x p a fo nb false

/-- CPYP (09 R243). -/
def execCpyp (p : Fin 8) (a : Reg) (nb : Bool) (s : State) : Host.Outcome State Fault Refusal :=
  issue (.cpyp p a nb) s fun x => copyIns x p a false nb true

/-! ### RROT (09 R242) -/

/-- A raw record of bytes in team shared memory. -/
def rawBytes (base n : Nat) : Layout :=
  ⟨base, 2, 0, 0, false, false, false, 0, n, 1, 1, 0, 0, 0⟩

/-- A plain run of bytes between two raw records. -/
def byteMove (src dst : Layout) (n : Nat) : Move :=
  ⟨src, dst, 0, 0, 0, 0, 0, 0, 0, 0, n, 1, 0, [], [], 0, [], 0, 0, false⟩

/-- The team of the issuer's cluster at a ring distance (09 R242): a cluster's teams have consecutive numbers (17 R354). -/
def ringTeam (x : Ins) (k : Nat) : Option Team :=
  x.team.bind fun t => x.s.teams.find? fun u =>
    u.corr == t.corr && u.num == t.num - t.cluRank + (t.cluRank + k) % (t.cluRows * t.cluCols)

/-- The offending scalar of a ring block, or the target team with its register (09 R242). -/
def ringOf (x : Ins) (a : Reg) : Except Word (Team × Option Nat) :=
  let c := blockAt x a
  let n := (c 2).toNat
  let k := (c 3).toNat % 16
  let size := (x.team.map fun t => t.cluRows * t.cluCols).getD 1
  if 2 ^ 9 ≤ (c 3).toNat ∨ size ≤ k then .error (c 3)
  else if n < 16 ∨ 2 ^ 20 < n ∨ n % 16 ≠ 0 then .error (c 2)
  else if (c 0).toNat % 16 ≠ 0 ∨ (windowAt x .sh).size < (c 0).toNat + n then .error (c 0)
  else match ringTeam x k with
    | none => .error (c 3)
    | some t =>
      if (c 1).toNat % 16 ≠ 0 ∨ (t.shSize + 4095) / 4096 * 4096 < (c 1).toNat + n then .error (c 1)
      else .ok (t, if (c 3).getLsbD 8 then some ((c 3).toNat / 16 % 16) else none)

/-- RROT (09 R242). -/
def execRrot (p : Fin 8) (a : Reg) (nb : Bool) (s : State) : Host.Outcome State Fault Refusal :=
  issue (.rrot p a nb) s fun x => noWait x nb p <|
    match copyRoom x.s x.k.core x.g.team with
    | none => .hold x.kept
    | some shared =>
      match ringOf x a with
      | .error v => x.fail (x.range v)
      | .ok r =>
        let c := blockAt x a
        let n := (c 2).toNat
        let m := byteMove (rawBytes (c 0).toNat n) (rawBytes (c 1).toNat n) n
        .done (setQueued x nb p true (queueCopy x m (.ring x.g.team r.1.uid (shAddr r.1.core r.1.shBase)) r.2 shared [] [] none x.s))

/-! ### Batches (09 R237, R238) -/

/-- CLOSE (09 R237). -/
def execClose (d : Reg) (s : State) : Host.Outcome State Fault Refusal :=
  issue (.close d) s fun x =>
    let n := x.g.it.lastBatch + 1
    .done (x.mod fun g => putScalar d n { g with it := { g.it with lastBatch := n } })

/-- WAITB (09 R238). -/
def execWaitb (a : Reg) (s : State) : Host.Outcome State Fault Refusal :=
  issue (.waitb a) s fun x =>
    let n := x.a.sca
    if 2 ^ 31 ≤ (x.g.it.lastBatch - n).toNat then x.fail (x.range n)
    else if batchesOpen x.s x.k x.own n then .hold x.kept
    else .done x.s

end Sys2Proof.Machine
end

