-- ==== Sys2Proof/Machine/Jobs.lean ====
section
/-! DEFINITION. Engine jobs: ENQ, the handle instructions, gathers and main-to-main copies (09 R244 to R251). -/

namespace Sys2Proof.Machine

open Sys2Proof

/-! ### Cards and descriptors (09 R244, R245, R248) -/

/-- Bytes of a record are zero. -/
def zeroAt (bs : List Byte) (o n : Nat) : Bool := ((bs.drop o).take n).all (· == 0)

/-- The first scalar that is not zero, of some of a card (09 R244). -/
def firstSet (c : Nat → Word) (l : List Nat) : Option Word := (l.find? fun i => c i != 0).map c

/-- The offending scalar of a job card (09 R244, R248): a reserved kind, a bad descriptor offset, a reserved bit. A collective's
card is judged with its descriptor (21 R396). -/
def cardBad (window : Nat) (c : Nat → Word) : Option Word :=
  let kind := (c 0).toNat % 8
  if 5 < kind then some (c 0)
  else if (c 1).toNat % 256 ≠ 0 ∨ window < (c 1).toNat + 256 then some (c 1)
  else if kind = 4 then none
  else if 2 ^ 8 ≤ (c 0).toNat then some (c 0)
  else match kind with
    | 0 => if c 2 &&& 0xFFFFFF0E#32 ≠ 0 then some (c 2) else firstSet c [3, 4, 5, 6, 7]
    | 2 => firstSet c [3, 4, 5, 6, 7]
    | 3 => if c 2 &&& 0xFFFFFFC2#32 ≠ 0 ∨ (c 2).toNat / 16 % 4 = 3 then some (c 2) else firstSet c [7]
    | _ => none

/-- A region record: unused, a region, or malformed (09 R245). -/
def regionAt (bs : List Byte) (i : Nat) : Option (List Region) :=
  let r := (bs.drop (16 * i)).take 16
  let start := fieldAt r 0 8
  let len := fieldAt r 8 6
  if len = 0 then some []
  else if fieldAt r 14 1 ≠ 0 ∨ 1 < fieldAt r 15 1 then none
  else some [⟨fieldAt r 15 1, start, start + len⟩]

/-- The regions of some records. -/
def regionsAt (bs : List Byte) (l : List Nat) : Option (List Region) :=
  l.foldl (fun acc i => acc.bind fun rs => (regionAt bs i).map fun r => rs ++ r) (some [])

/-- A stream record (09 R253, R439). -/
def streamOf (window n corr : Nat) (bs : List Byte) : Option Stream :=
  let st : Stream :=
    { n := n, corr := corr, base := fieldAt bs 128 8, space := fieldAt bs 136 1, count := fieldAt bs 140 4
      region := fieldAt bs 144 4, op := (AtomOp.codes[fieldAt bs 148 1]?).getD .addS32, ordered := fieldAt bs 149 1 == 1
      staging := fieldAt bs 152 4, buffer := fieldAt bs 156 4, size := fieldAt bs 160 4, els := [] }
  let ok := decide (st.space ≤ 1) && zeroAt bs 137 3 && decide (1 ≤ st.count) && decide (1 ≤ st.region) &&
    st.region % 16 == 0 && decide ((st.count + st.region - 1) / st.region ≤ 4096) &&
    (AtomOp.codes[fieldAt bs 148 1]?).isSome && decide (fieldAt bs 149 1 ≤ 1) && zeroAt bs 150 2 &&
    st.staging % 64 == 0 && decide (st.staging + 4 * st.region ≤ window) && st.buffer % 8 == 0 &&
    decide (1 ≤ st.size) && decide (st.size ≤ 2 ^ 24) && decide (st.buffer + 8 * st.size ≤ window) && zeroAt bs 164 92 &&
    (if st.space = 1 then decide (st.base < 2 ^ 32) && decide (st.base + 4 * st.count ≤ window) else decide (st.base < 2 ^ 57))
  if ok then some st else none

/-- Bytes of a launch's scratchpad window that an engine uses for itself hold what it leaves there (09 R253; 21 R395;
notes/assumptions/9.md, 10.md). -/
def engineOwn (s : State) (die corr off n : Nat) : State :=
  let a := (((s.windowOf corr die).map fun w => spAddr die w.1).getD 0) + off
  s.store (cellsAt a ((List.range n).map fun i => Config.engineByte s.tick (a + i)))

/-- The bytes of a gathered row, and the distance between rows of the output (09 R248). -/
def rowBytes (l : Layout) : Nat := l.ext0 * l.bits / 8

/-- The distance between output rows. -/
def rowPitch (l : Layout) : Nat := (rowBytes l + 63) / 64 * 64

/-- What a gather's descriptor gives (09 R248): source record, index list and its space, destination. -/
structure Gathering where
  src   : Layout
  list  : Nat
  space : Nat
  dst   : Nat

/-- A range lies within the window, or starts at a virtual address. -/
def rangeOk (window space a n : Nat) : Bool :=
  if space = 0 then decide (a < 2 ^ 57) else decide (space = 1) && decide (a + n ≤ window)

/-- A gather's descriptor, when it is well formed. -/
def gatherOf (window count : Nat) (bs : List Byte) : Option Gathering :=
  match layoutOf ((bs.drop 128).take 64) with
  | none => none
  | some l =>
    let g : Gathering := ⟨l, fieldAt bs 192 8, fieldAt bs 200 1, fieldAt bs 204 4⟩
    let ok := decide (l.space ≤ 1) && rangeOk window g.space g.list (4 * count) && zeroAt bs 201 3 &&
      g.dst % 64 == 0 && decide (g.dst + count * rowPitch l ≤ window) && zeroAt bs 208 48 &&
      rangeOk window l.space l.base ((l.ext1 - 1) * l.str1 + rowBytes l)
    if ok then some g else none

/-- What a top-k pass's descriptor gives (09 R248): keys, output, their space. -/
structure Topk where
  keys  : Nat
  space : Nat
  out   : Nat

/-- A top-k pass's descriptor. -/
def topkOf (bs : List Byte) : Topk := ⟨fieldAt bs 128 8, fieldAt bs 136 1, fieldAt bs 144 8⟩

/-- Its ranges lie within the window. A selection writes at most one index a key, and the count. -/
def topkOk (window : Nat) (c : Nat → Word) (bs : List Byte) : Bool :=
  let t := topkOf bs
  rangeOk window t.space t.keys (4 * (c 4).toNat) &&
  rangeOk window t.space t.out (if (c 2).getLsbD 0 then 4 * (c 4).toNat + 4 else 1024)

/-- The box of a main-to-main copy (09 R248). -/
def mainMove (c : Nat → Word) (bs : List Byte) : Option Move :=
  match layoutOf ((bs.drop 128).take 64), layoutOf ((bs.drop 192).take 64) with
  | some src, some dst =>
    let m := boxOf src dst 0 0 fun i => c (i + 2)
    let sizes := (src.fmt != 0 && dst.fmt != 0) || src.bits == dst.bits
    if src.space = 0 ∧ dst.space = 0 ∧ m.nx ≠ 0 ∧ m.ny ≠ 0 ∧ sizes then some m else none
  | _, _ => none

/-- A collective's card and descriptor keep the table of 21 R396, whose rows stand for every operation; what an operation reads and
writes lies in its spaces, and what it asks of the group comes later. -/
def collOk (window : Nat) (c : Nat → Word) (bs : List Byte) : Bool :=
  let op := (c 2).toNat % 16
  let count := (c 4).toNat
  let data := if op < 3 then 0 else 4 * count
  decide ((c 0).toNat < 2 ^ 8) && decide (op ≤ 7) && decide ((c 2).toNat / 16 % 16 ≤ 7) && (c 2).toNat / 256 % 256 == 0 &&
  c 3 != 0 && decide (1 ≤ count) && decide (count ≤ 2 ^ 26) && decide ((c 5).toNat < 2 ^ 16) && c 6 == 0 && c 7 == 0 &&
  decide (fieldAt bs 136 1 ≤ 1) && decide (fieldAt bs 152 1 ≤ 1) && fieldAt bs 160 4 % 4096 == 0 &&
  decide (fieldAt bs 160 4 + 8 * count ≤ window) && rangeOk window (fieldAt bs 136 1) (fieldAt bs 128 8) data &&
  rangeOk window (fieldAt bs 152 1) (fieldAt bs 144 8) (if op = 5 then 0 else data) &&
  (op != 0 || (decide (2 ≤ fieldAt bs 172 2) && decide (fieldAt bs 172 2 ≤ 1024) &&
    decide (fieldAt bs 168 4 + 4 * fieldAt bs 172 2 ≤ window)))

/-- The descriptor of a job is well formed (09 R245, R248, R439; 12 R298; 21 R396). -/
def descOk (window corr : Nat) (c : Nat → Word) (bs : List Byte) : Bool :=
  (regionsAt bs [0, 1, 2, 3, 4, 5, 6, 7]).isSome &&
  match (c 0).toNat % 8 with
  | 0 => (c 2).getLsbD 0 || (streamOf window ((c 2).toNat / 16 % 16) corr bs).isSome
  | 1 => zeroAt bs 168 88
  | 2 => (gatherOf window (c 2).toNat bs).isSome
  | 3 => topkOk window c bs
  | 4 => collOk window c bs
  | _ => (mainMove c bs).isSome

/-! ### ENQ (09 R244 to R247) -/

/-- An entry of a die's job table is free: never used, or of a completed job whose issuer has retired, whose handles stay usable
until the entry is reused (01 R24; 09 R244). -/
def entryFree (s : State) (die i : Nat) : Bool := ((s.job? die i).map fun j => j.finished && !j.keep).getD true

/-- The entry that the next job takes. -/
def jobSlot (s : State) (die : Nat) : Option Nat := (List.range 1024).find? (entryFree s die)

/-- The generation of the next use of an entry (01 R24). -/
def nextGen (d : Die) (i : Nat) : BitVec 16 :=
  match d.jobGens.find? fun p => p.1 == i with
  | some p => p.2 + 1
  | none => 0

/-- The value of a handle (01 R24). -/
def handleWord (kind die idx : Nat) (gen : BitVec 16) (csn : Word) : DWord :=
  BitVec.ofNat 64 (2 ^ 63 + kind * 2 ^ 60 + die * 2 ^ 58 + idx * 2 ^ 48 + gen.toNat * 2 ^ 32 + csn.toNat)

/-- A job as ENQ enters it. -/
def newJob (x : Ins) (idx seq : Nat) (gen : BitVec 16) (c : Nat → Word) (desc : List Byte) (bad : Bool) : Job where
  key := x.k
  own := x.own
  team := x.g.team
  corr := x.corr
  pc := x.pc
  csn := x.csn
  mark := x.mark
  flags := 0
  susp := .none
  skips := []
  counted := []
  got := []
  put := []
  outVa := 0
  acked := []
  out := []
  idx := idx
  gen := gen
  seq := seq
  kind := (c 0).toNat % 8
  st := .queued
  card := (List.range 8).map c
  arrive := if (c 0).getLsbD 7 then some ((c 0).toNat / 8 % 16) else none
  reads := (regionsAt desc [0, 1, 2, 3]).getD []
  writes := (regionsAt desc [4, 5, 6, 7]).getD []
  desc := desc
  bad := bad
  at_ := 0
  mv := none
  wrote := 0
  took := 0
  taken := none
  back := []
  bins := []
  counts := List.replicate 256 0
  num := 0
  canh := false
  keep := true
  wide := []
  ff := 0

/-- Put a job into the table. What its issuer's core has in core order by then comes before the job, for the walker (15 R328). -/
def enterJob (s : State) (die : Nat) (j : Job) : State :=
  (dueAll { s with nextId := s.nextId + 1 } j.key.core).modDie die fun d => { d with
    jobs := d.jobs.filter (fun x => x.idx != j.idx) ++ [j]
    jobGens := (j.idx, j.gen) :: d.jobGens.filter fun p => p.1 != j.idx }

/-! ### Cards of collectives (21 R396) -/

/-- A word of a job card. -/
def Job.c (j : Job) (i : Nat) : Word := j.card.getD i 0

/-- The operation of a collective's card. -/
def Job.collOp (j : Job) : Nat := (j.c 2).toNat % 16

/-- The reduction. -/
def Job.redn (j : Job) : Nat := (j.c 2).toNat / 16 % 16

/-- The group id. -/
def Job.gid (j : Job) : BitVec 16 := BitVec.ofNat 16 ((j.c 2).toNat / 2 ^ 16)

/-- The epoch. -/
def Job.epoch (j : Job) : Word := j.c 3

/-- The element count. -/
def Job.count (j : Job) : Nat := (j.c 4).toNat

/-- The collective jobs of a launch that name one epoch of a group. -/
def Job.sameEpoch (j x : Job) : Bool := x.kind == 4 && x.corr == j.corr && x.gid == j.gid && x.epoch == j.epoch

/-- The latest epoch of a job's group for which its launch has entered a FORM on a die. -/
def State.epochOf (s : State) (die : Nat) (j : Job) : Option Epoch :=
  (s.die die).epochs.find? fun e => e.corr == j.corr && e.gid == j.gid

/-- The launch has entered a FORM of a greater epoch of the job's group: the job's epoch is over (21 R402). -/
def outdated (s : State) (die : Nat) (j : Job) : Bool := ((s.epochOf die j).map fun e => j.epoch.ult e.epoch).getD false

/-- An older epoch of a job's group in its launch. -/
def Job.follows (j : Job) (corr : Nat) (gid : BitVec 16) (epoch : Word) : Bool :=
  gid == j.gid && corr == j.corr && epoch.ult j.epoch

/-- A FORM of a greater epoch has been entered: the older epochs of the group end, and their jobs that have not completed complete with
4, those that still form one included (21 R402). -/
def endOlder (s : State) (die : Nat) (j : Job) : State :=
  let s := s.modDie die fun d => { d with
    colls := (d.colls.filter fun c => c.formed || !j.follows c.corr c.gid c.epoch).map fun c =>
      (if j.follows c.corr c.gid c.epoch then { c with ended := true } else c) }
  let js := (s.die die).jobs.filter fun x => x.kind == 4 && !x.bad && !x.finished && j.follows x.corr x.gid x.epoch
  js.foldl (fun s x => completeJob s die x.idx 4) s

/-- A FORM enters its epoch, and operations are counted from 1 after it (21 R397); not where the epoch is over, or is held and not
finished. -/
def enterEpoch (s : State) (die : Nat) (j : Job) : State :=
  let again := ((s.die die).colls.any fun c => c.corr == j.corr && c.gid == j.gid && c.epoch == j.epoch && !c.ended) ||
    (s.die die).jobs.any fun x => j.sameEpoch x && x.collOp == 0 && !x.bad && !x.finished
  if outdated s die j || again then s
  else (endOlder s die j).modDie die fun d => { d with
    epochs := ⟨j.corr, j.gid, j.epoch, 0⟩ :: d.epochs.filter fun e => e.corr != j.corr || e.gid != j.gid }

/-- A collective job is entered (21 R397, R402): a FORM enters its epoch, another operation takes the next number of it. -/
def enterColl (s : State) (die : Nat) (j : Job) : State × Job :=
  if j.kind ≠ 4 then (s, j)
  else if j.collOp = 0 then (if j.bad then s else enterEpoch s die j, j)
  else match s.epochOf die j with
    | some e =>
      if e.epoch = j.epoch then
        (s.modDie die fun d => { d with epochs := d.epochs.map fun x => if x = e then { x with ops := x.ops + 1 } else x },
          { j with num := e.ops + 1 })
      else (s, j)
    | none => (s, j)

/-- The access to a descriptor (09 R244). -/
def descAcc (off : Nat) : Acc := ⟨.sp, 256, 0, fun _ => off, fun _ => false⟩

/-- ENQ (09 R244 to R247): the job is entered with its descriptor as the issuer sees it, the handle lands at completion. -/
def execEnq (h : Fin 16) (a : Reg) (s : State) : Host.Outcome State Fault Refusal :=
  issue (.enq h a) s fun x =>
    let c := blockAt x a
    let acc := descAcc (c 1).toNat
    match cardBad (windowAt x .sp).size c, jobSlot x.s x.die with
    | some v, _ => x.fail (x.range v)
    | none, none => .hold x.kept
    | none, some i =>
      if fateAt x acc 0 = .secure then x.raise x.s (failures x acc)
      else if awaitsAtomic x acc then .hold x.kept
      else
        let at_ := accAt x acc 0
        let desc := (List.range 256).map fun n => seenByte x.s x.g (at_ + n)
        let gen := nextGen (x.s.die x.die) i
        let j := newJob x i x.s.nextId gen c desc (!descOk (windowAt x .sp).size x.corr c desc)
        let e := enterColl x.s x.die j
        let s := enterJob e.1 x.die e.2
        let s := if seenPoison x.s x.g at_ 256 then engPoison s (.job x.die i) at_ (c 1).toNat else s
        .done (x.flight s .ready [.handle h.val (handleWord j.kind x.die i gen x.csn)] 0#7)

/-! ### Handles (09 R250, R251) -/

/-- STALEHANDLE (11 R290). -/
def staleHandle (x : Ins) (h : Fin 16) : Perf :=
  let v := x.g.handle h.val
  x.perf 0x10B .none (v.setWidth 32) ((v >>> 32).setWidth 32) 0 x.act .none

/-- The status of a job that has completed (09 R249). -/
def Job.status? (j : Job) : Option Nat :=
  match j.st with
  | .done n => some n
  | _ => none

/-- WAITH (09 R250). -/
def execWaith (d : Reg) (h : Fin 16) (s : State) : Host.Outcome State Fault Refusal :=
  issue (.waith d h) s fun x =>
    match jobOf x.s (x.g.handle h.val) with
    | none => x.fail (staleHandle x h)
    | some j =>
      match j.status? with
      | some n => .done (x.mod (putScalar d (word n)))
      | none => .hold x.kept

/-- TSTH (09 R227, R250). -/
def execTsth (p : Fin 8) (h : Fin 16) (s : State) : Host.Outcome State Fault Refusal :=
  issue (.tsth p h) s fun x =>
    match jobOf x.s (x.g.handle h.val) with
    | none => x.fail (staleHandle x h)
    | some j => .done (x.mod fun g => g.setPred p.val (if j.finished then x.g.full else 0#128) x.act)

/-- The access of HSTO and HLOD (09 R251). -/
def handleAcc (x : Ins) : Acc := ⟨.sh, 8, 3, fun _ => (x.a.sca + x.b.sca).toNat, fun _ => false⟩

/-- HSTO (09 R251): the access is checked first, then the handle. -/
def execHsto (h : Fin 16) (a b : Reg) (s : State) : Host.Outcome State Fault Refusal :=
  issue (.hsto h a b) s fun x =>
    let c := handleAcc x
    if fateAt x c 0 ≠ .ok then x.raise x.s (failures x c)
    else match jobOf x.s (x.g.handle h.val) with
      | none => x.fail (staleHandle x h)
      | some _ =>
        .done (enqueue x.k (entryOf x c (.bytes (valueAt (accAt x c 0) 8 (x.g.handle h.val).toNat)) none) x.s)

/-- HLOD (09 R251): a load into a handle register. -/
def execHlod (h : Fin 16) (a b : Reg) (s : State) : Host.Outcome State Fault Refusal :=
  issue (.hlod h a b) s fun x =>
    let c := handleAcc x
    if awaitsAtomic x c then .hold x.kept
    else
      let bad := (passing x c).filter fun t => seenPoison x.s x.g (accAt x c t) 8
      let ok := fateAt x c 0 = .ok ∧ bad = []
      let v : DWord := BitVec.ofNat 64 (seenLoad x.s x.g (accAt x c 0) 8)
      x.raise (latePoison x c bad (x.flight x.s .ready (if ok then [.handle h.val v] else []) 0#7)) (failures x c)

/-! ### Serving jobs (09 R245, R246, R250; 17 R362, R365) -/

/-- A launch whose jobs run on: live, halting or saved (17 R362). -/
def jobsRun (s : State) (corr : Nat) : Bool :=
  match s.grid? corr with
  | some g => g.phase == .live || g.phase == .halting || g.phase == .saved
  | none => false

/-- A queued job can start (09 R246, R247): its issuer's earlier stores have left the queue. Those on their way to slices come before
what the job reads of them, and nothing wider (15 R334). -/
def jobStarts (s : State) (die : Nat) (j : Job) : Bool :=
  j.st == .queued && j.susp == .none && jobsRun s j.corr && !edgeHeld s die j.corr j.seq j.reads j.writes &&
  !earlierStores s j.key j.seq

/-- A histogram pass that writes its counters: none of the counters that have grown lies in the block of one already written, and
still has to be written (09 R250, R256). -/
def Job.wholeCounts (j : Job) : Bool :=
  let block := fun (b : Nat) => ((topkOf j.desc).out + 4 * b) / 64
  let grown := (List.range 256).filter fun b => j.counts.getD b 0 != 0
  let next := j.at_ - (j.c 4).toNat
  !grown.any fun b => decide (b < next) && grown.any fun d => decide (next ≤ d) && block b == block d

/-- A started job stands at a 64-byte block boundary of its destination, where it can be cancelled (09 R250). -/
def Job.atBoundary (j : Job) : Bool :=
  j.out.isEmpty && match j.mv, j.kind with
    | some m, _ => m.wholeBlocks
    | none, 3 => if (j.c 2).getLsbD 0 then j.wrote == 0 || ((topkOf j.desc).out + 4 * j.wrote) % 64 == 0 else j.wholeCounts
    | none, _ => true

/-- The job waits for a handler or a held page, and its launch has ended (17 R365). -/
def unanswered (s : State) (j : Job) : Bool :=
  !jobsRun s j.corr && match j.susp with
    | .effect _ _ => true
    | .held _ _ => true
    | _ => false

/-- Serve a job of a kind: a malformed descriptor gives 7, a cancelled job 5 (09 R245, R250); else it starts where it can, and
its service goes on while it is not stopped. -/
def onJob (s : State) (die idx kind : Nat) (f : Job → State → State) : State :=
  match s.job? die idx with
  | none => s
  | some j =>
    if j.kind ≠ kind ∨ j.finished then s
    else if j.bad then completeJob s die idx 7
    else if j.canh && (j.st == .queued || j.atBoundary || unanswered s j) then completeJob s die idx 5
    else if j.st = .queued then
      if jobStarts s die j then f j (s.modJob die idx fun x => { x with st := .started }) else s
    else if j.susp = .none then (if j.out.isEmpty then f j s else flushRest s (.job die idx))
    else s

/-! ### Gather (09 R248) -/

/-- The box that moves row `k` of a gather: raw elements, the rest of the pitch written as zero. 4-bit rows move as bytes. -/
def rowMove (g : Gathering) (k idx : Nat) : Move :=
  let l := g.src
  let nib := decide (l.bits < 8)
  let es := if nib then 1 else l.bits / 8
  let fill := if nib then word (l.fill.toNat % 16 * 17) else l.fill
  let n := rowPitch l / es
  { src := { l with fmt := 0, esize := Nat.log2 es, rtags := false, ext0 := rowBytes l / es, fill := fill }
    dst := { base := g.dst + k * rowPitch l, space := 1, fmt := 0, esize := Nat.log2 es, rtags := false, wtags := l.wtags
             sat := false, scale := l.scale, ext0 := n, ext1 := 1, ext2 := 1, fill := 0, str1 := 0, str2 := 0 }
    hs := 0, hd := 0, c1 := 0, c2 := idx, c3s := 0, c3d := 0, c4 := 0, c5 := 0, nx := n, ny := 1, at_ := 0, ahead := [], early := []
    outAt := 0, snap := [], tag := BitVec.ofNat 16 (l.scale.toNat * 256 + l.fmt), pad := 0, nib := nib }

/-- Where skip and patch of a row whose index is beyond the extent act: no address of memory. -/
def rowMark (k : Nat) : Nat := 2 ^ 64 + k

/-- The next row. -/
def nextRow (s : State) (die idx : Nat) : State :=
  s.modJob die idx fun x => { x with mv := none, at_ := x.at_ + 1, got := [] }

/-- Fill the output of a skipped row (09 R241, R248). -/
def fillRow (s : State) (r : EngRef) (m : Move) : State :=
  let es := m.src.bits / 8
  let base := moveBase s r true 1 + m.dst.base
  let cells := (List.range m.nx).flatMap fun i =>
    valueAt (base + i * es) es (if i < m.src.ext0 then m.src.fill.toNat % 2 ^ m.src.bits else 0)
  let tags := if m.dst.wtags then (List.range (m.nx * es / 64)).flatMap fun b => valueAt (tagAddr (base + 64 * b)) 2 m.tag.toNat
    else []
  engStore s r (cells ++ tags)

/-- Serve the row at hand: a block of it, or what its index beyond the extent asks for. -/
def serveRow (s : State) (die idx : Nat) (j : Job) (m : Move) : State :=
  let r : EngRef := .job die idx
  if m.src.ext1 ≤ m.c2.toNat then
    match skipOf j.toEng (rowMark j.at_) with
    | none => copyFault s r false 0 (rowMark j.at_) 1
    | some k => nextRow (if k.patch then s else fillRow s r m) die idx
  else
    let s := serveBlock s r
    if moveDone s r then nextRow s die idx else s

/-- Take up row `j.at_`: its index is read once (09 R247). -/
def takeRow (s : State) (die idx : Nat) (j : Job) (g : Gathering) : State :=
  let r : EngRef := .job die idx
  let base := moveBase s r false 1
  let put := fun (s : State) (n : Nat) => s.modJob die idx fun x => { x with mv := some (rowMove g j.at_ n), got := [] }
  match reachRead s r false g.space base (g.list + 4 * j.at_) 4 with
  | (s, .ok flats) =>
    put (countAt s r g.space (g.list + 4 * j.at_) 4) (leNat (flats.map (engByte s ((s.eng? r).getD j.toEng))))
  | (s, .skipped) => put s g.src.fill.toNat
  | (s, .patched) => nextRow s die idx
  | (s, .stop) => s

/-- Serve a gather. -/
def serveGather (s : State) (die idx : Nat) (j : Job) : State :=
  match s.windowOf j.corr die with
  | none => completeJob s die idx 7
  | some w =>
    match gatherOf w.2 (j.c 2).toNat j.desc with
    | none => completeJob s die idx 7
    | some g =>
      match j.mv with
      | some m => serveRow s die idx j m
      | none => if (j.c 2).toNat ≤ j.at_ then completeJob s die idx 0 else takeRow s die idx j g

/-- GATHER (09 R248). -/
def execGather (die job : Nat) (s : State) : Host.Outcome State Fault Refusal :=
  .next (onJob s die job 2 fun j s => serveGather s die job j)

/-! ### Main-to-main copy (09 R248) -/

/-- Serve a main-to-main copy. -/
def serveMain (s : State) (die idx : Nat) (j : Job) : State :=
  let r : EngRef := .job die idx
  let s := if j.mv.isNone then s.modJob die idx fun x => { x with mv := mainMove x.c x.desc } else s
  let s := serveBlock s r
  if moveDone s r then completeJob s die idx 0 else s

/-- MAIN_TO_MAIN_COPY (09 R248). -/
def execMainToMainCopy (die job : Nat) (s : State) : Host.Outcome State Fault Refusal :=
  .next (onJob s die job 5 fun j s => serveMain s die job j)

end Sys2Proof.Machine
end

