-- ==== Sys2Proof/Machine/Walker.lean ====
section
/-! DEFINITION. The Fid walker: its words, its jobs, its faults and limits (12 R298 to R310). -/

namespace Sys2Proof.Machine

open Sys2Proof

/-! ### State (12 R299) -/

/-- A walker register: w0 reads 0. -/
def Walker.reg (w : Walker) (n : Fin 16) : Word := if n = 0 then 0 else w.w.getD n.val 0

/-- Write a walker register: a write to w0 is discarded. -/
def Walker.put (w : Walker) (n : Fin 16) (v : Word) : Walker := if n = 0 then w else { w with w := setAt w.w n.val v }

/-- The instruction has executed: its step counts, the PC goes on to an address (12 R301, R306). -/
def Walker.goto (w : Walker) (pc : Word) : Walker := { w with pc := pc, steps := w.steps + 1, part := 0 }

/-- The next instruction. -/
def Walker.next (w : Walker) : Walker := w.goto (w.pc + 4)

/-- Put the walker of a core. -/
def putWalker (s : State) (c : Nat) (w : Option Walker) : State := s.modCore c fun x => { x with walker := w }

/-- An immediate of a walker word, sign-extended (12 R301). -/
def sext14 (imm : BitVec 14) : Word := imm.signExtend 32

/-! ### Faults (12 R302, R308) -/

/-- The job of a core's walker ends with a status, and the walker is free. -/
def walkerEnds (s : State) (c : Nat) (idx status : Nat) : State := completeJob (putWalker s c none) (dieOf c) idx status

/-- An effect that stops the walker: delivered late to the issuer with the ENQ's launch site, the job completes with 6. -/
def walkerStops (s : State) (c : Nat) (j : Job) (p : Perf) : State :=
  walkerEnds (addLate s j.key j.own j.corr (p.since j.mark)) c j.idx 6

/-- WALKFAULT (12 R308): p0 the walker PC, p1 the cause. -/
def walkFault (s : State) (c : Nat) (w : Walker) (j : Job) (cause : Nat) : State :=
  walkerStops s c j (perfNone 0x10E j.pc j.csn w.pc (word cause) 0)

/-! ### One word -/

/-- Execute a word on the walker that acts; `f` gives the state after it. -/
def walkWord (i : Instr) (s : State) (f : Nat → Walker → Job → State) : Host.Outcome State Fault Refusal :=
  match s.cur with
  | some (.walker c) =>
    match (s.core c).walker with
    | none => .fault .noIssuer
    | some w =>
      match s.job? (dieOf c) w.job with
      | none => .fault .noIssuer
      | some j => .next (if i.wf then f c w j else walkFault s c w j 0)
  | _ => .fault .noIssuer

/-- A word that writes a register (12 R301). -/
def walkSet (i : Instr) (d : Fin 16) (f : Walker → Word) (s : State) : Host.Outcome State Fault Refusal :=
  walkWord i s fun c w _ => putWalker s c (some (w.put d (f w)).next)

/-- A branch (12 R301): from its own address when taken. -/
def walkBranch (i : Instr) (imm : BitVec 14) (p : Walker → Bool) (s : State) : Host.Outcome State Fault Refusal :=
  walkWord i s fun c w _ => putWalker s c (some (if p w then w.goto (w.pc + 4 * sext14 imm) else w.next))

/-- WHALT (12 R307). -/
def execWhalt (s : State) : Host.Outcome State Fault Refusal :=
  walkWord .whalt s fun c _ j => walkerEnds s c j.idx 0

/-- WLI. -/
def execWli (d : Fin 16) (imm : BitVec 14) (s : State) : Host.Outcome State Fault Refusal :=
  walkSet (.wli d imm) d (fun _ => sext14 imm) s

/-- WADD. -/
def execWadd (d a b : Fin 16) (imm : BitVec 14) (s : State) : Host.Outcome State Fault Refusal :=
  walkSet (.wadd d a b imm) d (fun w => w.reg a + w.reg b + sext14 imm) s

/-- WSUB. -/
def execWsub (d a b : Fin 16) (s : State) : Host.Outcome State Fault Refusal :=
  walkSet (.wsub d a b) d (fun w => w.reg a - w.reg b) s

/-- WMUL. -/
def execWmul (d a b : Fin 16) (s : State) : Host.Outcome State Fault Refusal :=
  walkSet (.wmul d a b) d (fun w => w.reg a * w.reg b) s

/-- WSHL. -/
def execWshl (d a : Fin 16) (n : Fin 32) (s : State) : Host.Outcome State Fault Refusal :=
  walkSet (.wshl d a n) d (fun w => w.reg a <<< n.val) s

/-- WSHR. -/
def execWshr (d a : Fin 16) (n : Fin 32) (s : State) : Host.Outcome State Fault Refusal :=
  walkSet (.wshr d a n) d (fun w => w.reg a >>> n.val) s

/-- WAND. -/
def execWand (d a b : Fin 16) (s : State) : Host.Outcome State Fault Refusal :=
  walkSet (.wand d a b) d (fun w => w.reg a &&& w.reg b) s

/-! ### Loads (12 R302) -/

/-- The window of a walker space (12 R301): the die scratchpad window, the issuer's team shared memory. -/
def walkWindow (s : State) (c : Nat) (j : Job) (sp : Fin 16) : Window :=
  if sp = 0 then
    match s.windowOf j.corr (dieOf c) with
    | some w => ⟨spAddr (dieOf c) w.1, w.2, some (dieOf c, w.1)⟩
    | none => ⟨0, 0, none⟩
  else
    match s.team? j.team with
    | some t => ⟨shAddr c t.shBase, (t.shSize + 4095) / 4096 * 4096, none⟩
    | none => ⟨0, 0, none⟩

/-- The bytes lie in a secure region that the launch may not read. -/
def walkSecure (s : State) (j : Job) (v : Window) (off n : Nat) : Bool :=
  match v.sp with
  | some p => !s.secureGrid j.corr && s.secureRange p.1 (p.2 + off) n
  | none => false

/-- The walker comes to the scratchpad through its core's port: after the stores that are due there and its issuer's earlier ones
(15 R322 to R324, R328). -/
def walkSees (s : State) (c : Nat) (j : Job) (sp : Fin 16) : State :=
  if sp = 0 then coreSees s c fun f => f.key == j.key && decide (f.e.id < j.seq) else s

/-- A load of `n` bytes (12 R302). -/
def walkLoad (i : Instr) (n : Nat) (d a sp : Fin 16) (imm : BitVec 14) (s : State) : Host.Outcome State Fault Refusal :=
  walkWord i s fun c w j =>
    let v := walkWindow s c j sp
    let off := (w.reg a + sext14 imm).toNat
    if off % n ≠ 0 ∨ v.size < off + n then walkFault s c w j 2
    else if walkSecure s j v off n then walkFault s c w j 3
    else
      let s := walkSees s c j sp
      if s.anyPoison (v.flat + off) n then walkerStops s c j (perfPoison j.pc j.csn (1 - sp.val) off)
      else putWalker s c (some (w.put d (word (s.load (v.flat + off) n))).next)

/-- WLDW. -/
def execWldw (d a sp : Fin 16) (imm : BitVec 14) (s : State) : Host.Outcome State Fault Refusal :=
  walkLoad (.wldw d a sp imm) 4 d a sp imm s

/-- WLDH. -/
def execWldh (d a sp : Fin 16) (imm : BitVec 14) (s : State) : Host.Outcome State Fault Refusal :=
  walkLoad (.wldh d a sp imm) 2 d a sp imm s

/-- WLDB. -/
def execWldb (d a sp : Fin 16) (imm : BitVec 14) (s : State) : Host.Outcome State Fault Refusal :=
  walkLoad (.wldb d a sp imm) 1 d a sp imm s

/-! ### Branches -/

/-- WBEQ. -/
def execWbeq (a b : Fin 16) (imm : BitVec 14) (s : State) : Host.Outcome State Fault Refusal :=
  walkBranch (.wbeq a b imm) imm (fun w => w.reg a == w.reg b) s

/-- WBNE. -/
def execWbne (a b : Fin 16) (imm : BitVec 14) (s : State) : Host.Outcome State Fault Refusal :=
  walkBranch (.wbne a b imm) imm (fun w => w.reg a != w.reg b) s

/-- WBLO. -/
def execWblo (a b : Fin 16) (imm : BitVec 14) (s : State) : Host.Outcome State Fault Refusal :=
  walkBranch (.wblo a b imm) imm (fun w => decide ((w.reg a).toNat < (w.reg b).toNat)) s

/-- WBHS. -/
def execWbhs (a b : Fin 16) (imm : BitVec 14) (s : State) : Host.Outcome State Fault Refusal :=
  walkBranch (.wbhs a b imm) imm (fun w => decide ((w.reg b).toNat ≤ (w.reg a).toNat)) s

/-- WJMP. -/
def execWjmp (imm : BitVec 14) (s : State) : Host.Outcome State Fault Refusal :=
  walkBranch (.wjmp imm) imm (fun _ => true) s

/-! ### Emission (12 R303, R304) -/

/-- The element size of a format code that a target may have. -/
def targetSize (fmt : Nat) : Option Nat :=
  if fmt = 2 ∨ fmt = 3 then some 2 else if fmt = 4 ∨ fmt = 5 ∨ fmt = 6 ∨ fmt = 8 then some 1 else none

/-- The target that operands of WTGT name: first half, halves, format, scale. -/
def targetOf (r l : Word) : Option (Nat × Nat × Nat × Byte) :=
  (halfRange r).bind fun h =>
    if l.toNat < 2 ^ 16 ∧ (targetSize (l.toNat % 256)).isSome then
      some (h.1, h.2, l.toNat % 256, BitVec.ofNat 8 (l.toNat / 256))
    else none

/-- The issuer owns every half of a target. -/
def targetOwned (s : State) (c : Nat) (j : Job) (t : Nat × Nat × Nat × Byte) : Bool :=
  (numbers (t.1, t.2.1)).all ((s.core c).ownsHalf j.own)

/-- WTGT (12 R303). -/
def execWtgt (a b : Fin 16) (s : State) : Host.Outcome State Fault Refusal :=
  walkWord (.wtgt a b) s fun c w j =>
    match targetOf (w.reg a) (w.reg b) with
    | none => walkFault s c w j 5
    | some t => if targetOwned s c j t then putWalker s c (some { w with target := some t }.next) else walkFault s c w j 5

/-- The bytes of an element of a target. -/
def elemBytes (t : Nat × Nat × Nat × Byte) : Nat := (targetSize t.2.2.1).getD 1

/-- The elements a target holds. -/
def elemCount (t : Nat × Nat × Nat × Byte) : Nat := t.2.1 * 8192 / elemBytes t

/-- Write bytes at an offset of a target, with the tag of every block they touch (12 R304). -/
def emit (s : State) (c : Nat) (t : Nat × Nat × Nat × Byte) (at_ : Nat) (bs : List Byte) : State :=
  let a := opAddr c (t.1 * 8192 + at_)
  let tag := BitVec.ofNat 16 (t.2.2.2.toNat * 256 + t.2.2.1)
  let s := s.store (cellsAt a bs)
  s.setTags ((List.range ((a + bs.length + 63) / 64 - a / 64)).map fun i => ((a / 64 + i) * 64, tag))

/-- Emit bytes, after the check that every half is still the issuer's (12 R304). -/
def emits (s : State) (c : Nat) (w : Walker) (j : Job) (t : Nat × Nat × Nat × Byte) (at_ : Nat) (bs : List Byte) : State :=
  if targetOwned s c j t then putWalker (emit s c t at_ bs) c (some w.next) else walkFault s c w j 5

/-- The bytes of a WZERO or WRUN that a step writes, from where it has come to: up to the next 64-byte boundary of the target
(12 R306, R309). -/
def Walker.piece (w : Walker) (at_ n : Nat) : Nat := min (n - w.part) (64 - (at_ + w.part) % 64)

/-- One step of a WZERO or WRUN of `n` bytes at an offset of the target; `f` gives the bytes from a place on (12 R304, R309). -/
def emitPiece (s : State) (c : Nat) (w : Walker) (j : Job) (t : Nat × Nat × Nat × Byte) (at_ n : Nat)
    (f : Nat → Nat → List Byte) : State :=
  if targetOwned s c j t then
    let k := w.piece at_ n
    let s := emit s c t (at_ + w.part) (f w.part k)
    putWalker s c (some (if n ≤ w.part + k then w.next else { w with part := w.part + k }))
  else walkFault s c w j 5

/-- An emission needs a target (12 R304). -/
def onTarget (i : Instr) (s : State) (f : Nat → Walker → Job → (Nat × Nat × Nat × Byte) → State) :
    Host.Outcome State Fault Refusal :=
  walkWord i s fun c w j =>
    match w.target with
    | none => walkFault s c w j 4
    | some t => f c w j t

/-- WZERO (12 R304): +0 of P2T8 is 0x77; a step writes up to a 64-byte boundary. -/
def execWzero (s : State) : Host.Outcome State Fault Refusal :=
  onTarget .wzero s fun c w j t => 
    emitPiece s c w j t 0 (t.2.1 * 8192) fun _ n => List.replicate n (if t.2.2.1 = 6 then 0x77#8 else 0#8)

/-- WEMIT (12 R304). -/
def execWemit (a b : Fin 16) (s : State) : Host.Outcome State Fault Refusal :=
  onTarget (.wemit a b) s fun c w j t =>
    let i := (w.reg a).toNat
    if elemCount t ≤ i then walkFault s c w j 4
    else emits s c w j t (i * elemBytes t) (leBytes (elemBytes t) (w.reg b).toNat)

/-- WRUN (12 R304): a count of 0 writes nothing; a step writes up to a 64-byte boundary. A secure or poisoned source stops it as it
stops a load (R302). -/
def execWrun (d a b sp : Fin 16) (s : State) : Host.Outcome State Fault Refusal :=
  onTarget (.wrun d a b sp) s fun c w j t =>
    let v := walkWindow s c j sp
    let e := elemBytes t
    let n := (w.reg d).toNat
    let i := (w.reg a).toNat
    let off := (w.reg b).toNat
    let k := w.piece (i * e) (e * n)
    if (n ≠ 0 ∧ elemCount t < i + n) ∨ off % e ≠ 0 ∨ v.size < off + e * n then walkFault s c w j 4
    else if n = 0 then putWalker s c (some w.next)
    else if walkSecure s j v off (e * n) then walkFault s c w j 3
    else
      let s := walkSees s c j sp
      if s.anyPoison (v.flat + off + w.part) k then walkerStops s c j (perfPoison j.pc j.csn (1 - sp.val) (off + w.part))
      else emitPiece s c w j t (i * e) (e * n) fun p m => s.bytes (v.flat + off + p) m

/-! ### WARV and WFAULT (12 R305, R301) -/

/-- WARV (12 R305). -/
def execWarv (n : Fin 16) (s : State) : Host.Outcome State Fault Refusal :=
  walkWord (.warv n) s fun c w j =>
    let b := s.bar j.team n.val
    if b.refuses 1 then walkFault s c w j 7 else putWalker (s.putBar j.team n.val (b.add 1)) c (some w.next)

/-- WFAULT (12 R301). -/
def execWfault (n : BitVec 14) (s : State) : Host.Outcome State Fault Refusal :=
  walkWord (.wfault n) s fun c w j => walkFault s c w j (16 + n.toNat)

/-! ### Jobs (12 R298, R306 to R309) -/

/-- The walker of a core as its job finds it: w1 to w5 from the card, w6 to w15 from the descriptor, the code as it stands. -/
def Walker.start (j : Job) (code : List Byte) : Walker where
  job := j.idx
  w := (0 : Word) :: ((List.range 5).map fun i => j.c (3 + i)) ++ (List.range 10).map fun i => word (fieldAt j.desc (128 + 4 * i) 4)
  pc := j.c 2
  target := none
  steps := 0
  part := 0
  code := code

/-- A kind-1 job of the core that stands before another and can start (12 R298: one at a time, in order). -/
def walkerAhead (s : State) (die : Nat) (j : Job) : Bool :=
  (s.die die).jobs.any fun x => x.kind == 1 && x.key.core == j.key.core && decide (x.seq < j.seq) && s.goesOn x.corr &&
    jobStarts s die x

/-- Start a walker job, or end one that CANH stops at its boundary (12 R298, R309). Only a launch that is neither halting nor saved
starts one, or obeys the CANH of a started one: until then a CANH is kept with the walker's state (12 R299; 17 R362). -/
def serveWalker (s : State) (die idx : Nat) : State :=
  match s.job? die idx with
  | none => s
  | some j =>
    if j.kind ≠ 1 ∨ j.finished then s
    else if j.bad then completeJob s die idx 7
    else if j.canh ∧ (j.st = .queued ∨ s.goesOn j.corr) then completeJob (dropWalker s die idx) die idx 5
    else if j.canh then s
    else if jobStarts s die j ∧ s.goesOn j.corr ∧ (s.core j.key.core).walker = none ∧ walkerAhead s die j = false then
      let code := ((s.grid? j.corr).map (·.walker)).getD []
      putWalker (s.modJob die idx fun x => { x with st := .started }) j.key.core (some (Walker.start j code))
    else s

/-- WALKER_JOB. -/
def execWalkerJob (die job : Nat) (s : State) : Host.Outcome State Fault Refusal := .next (serveWalker s die job)

/-- The walker of a core that goes on, and its job. -/
def onWalker (s : State) (c : Nat) (f : Walker → Job → State) : State :=
  match (s.core c).walker with
  | none => s
  | some w =>
    match s.job? (dieOf c) w.job with
    | none => s
    | some j => if walkerGoes s c w then f w j else s

/-- WALKER_STEP_LIMIT (12 R306). -/
def execWalkerStepLimit (core : Nat) (s : State) : Host.Outcome State Fault Refusal :=
  .next (onWalker s core fun w j => if (walkerWord w).isSome ∧ s.times.stepLimit ≤ w.steps then walkFault s core w j 6 else s)

/-- WALKFAULT (12 R307, R308): the PC is no multiple of 4 or lies outside the code, or no word stands there. -/
def execWalkfault (core : Nat) (s : State) : Host.Outcome State Fault Refusal :=
  .next (onWalker s core fun w j =>
    if (walkerWord w).isSome then s
    else walkFault s core w j (if w.pc.toNat % 4 ≠ 0 ∨ w.code.length < w.pc.toNat + 4 then 1 else 0))

end Sys2Proof.Machine
end

