-- ==== Sys2Proof/Machine/Invalidate.lean ====
section
/-! DEFINITION. Invalidation of translations (18 R373, R374) and of code lines (23 R417). -/

namespace Sys2Proof.Machine

open Sys2Proof

/-! ### Translations -/

/-- What an invalidation names: the world, the whole of it or the bytes of a range, every die or its own (18 R373). -/
structure Inval where
  secure : Bool
  whole  : Bool
  all    : Bool
  lo     : Nat
  hi     : Nat
deriving DecidableEq, Repr

/-- What INVADDR and INVCTL ask for. -/
def invalOf (addr : Nat) (ctl : Word) : Inval :=
  let lo := addr / 2 ^ 16 * 2 ^ 16
  ⟨ctl.getLsbD 6, ctl.getLsbD 8, ctl.getLsbD 7, lo, lo + 2 ^ (ctl.toNat % 64) * 2 ^ 16⟩

/-- The invalidation covers some byte of a range of its world. -/
def Inval.covers (i : Inval) (secure : Bool) (va len : Nat) : Bool :=
  i.secure == secure && (i.whole || (decide (va < i.hi) && decide (i.lo < va + len)))

/-- A die is named by an invalidation written at a die. -/
def Inval.names (i : Inval) (home die : Nat) : Bool := i.all || die == home

/-- INVCTL (18 R373, R374): ignored while an invalidation is in progress, or with a range code beyond 41. -/
def execInvctl (die : Nat) (v : Word) (s : State) : Host.Outcome State Fault Refusal :=
  .next (if (s.die die).invDone ∧ v.toNat % 64 ≤ 41 then
    s.modDie die fun d => { d with invCtl := v &&& 0x1FF#32, invFrom := d.invAddr, invDone := false }
  else s)

/-- Drop what the caches of a die hold of a range; the counts gathered in it go home (18 R374, R375). -/
def dropRange (s : State) (i : Inval) (die : Nat) : State :=
  let s := flushGather s die fun g => i.covers g.secure g.va 65536
  s.modDie die fun d => { d with
    tlb := d.tlb.filter fun t => !i.covers t.secure t.va (2 ^ levelShift t.level)
    walkc := d.walkc.filter fun w => !i.covers w.secure w.va (2 ^ levelShift w.level) }

/-- The virtual address where an operation's bytes under way to a peer begin. -/
def outFrom (s : State) (r : EngRef) : Nat :=
  match s.move? r with
  | some m => (m.dstByte m.outAt).1
  | none => ((s.eng? r).map (·.outVa)).getD 0

/-- A request to a peer that was translated through the range is still outstanding on a die it names, or bytes for a peer are under
way behind one (18 R374). -/
def rangeInFlight (s : State) (i : Inval) (home : Nat) : Bool :=
  (s.reqs.any fun r => i.names home (EngRef.die r.who) && i.covers r.secure r.page.1 r.page.2) ||
  (((List.range 4).filter (i.names home)).flatMap (engsOf s)).any fun r => match s.eng? r with
    | some e => match e.out, e.susp with
      | _ :: _, .fabric _ => i.covers (engSecureWorld s e) (outFrom s r - 64) (65536 + 128)
      | _, _ => false
    | none => false

/-- Bytes for a peer that were translated and have not been sent are translated anew (18 R374). -/
def retranslate (s : State) (die : Nat) : State :=
  (engsOf s die).foldl (fun s r => match s.eng? r with
    | some e => match e.susp with
      | .fabric _ => s
      | _ => takeBack s r
    | none => s) s

/-- INVALIDATION_COMPLETE (18 R374): nothing of the range remains, done reads 1, held writes are walked again. Every other
access of the model is performed in the step that translates it, and a walk in the step that ends it. -/
def execInvalidationComplete (die : Nat) (s : State) : Host.Outcome State Fault Refusal :=
  let d := s.die die
  let i := invalOf d.invFrom d.invCtl
  let dies := (List.range 4).filter (i.names die)
  .next (if d.invDone ∨ rangeInFlight s i die then s
  else
    let s := dies.foldl (fun s e => dropRange (retranslate s e) i e) s
    let s := s.modDie die fun d => { d with invDone := true }
    dies.foldl rewalkHeld s)

/-! ### Code lines (23 R417) -/

/-- CODEINV: first line and line count. A write while one is in progress is ignored (notes/assumptions/16.md). -/
def execCodeinv (die line count : Nat) (s : State) : Host.Outcome State Fault Refusal :=
  .next (if (s.die die).codeInvDone then
    s.modDie die fun d => { d with
      codeInvLine := line % 2 ^ 57 / 64 * 64, codeInvCount := count % 2 ^ 16, codeInvDone := false }
  else s)

/-- A line of a launch's image lies, by its virtual address, in a range of lines (23 R416, R417; notes/assumptions/16.md). -/
def Line.within (l : Line) (g : Grid) (first count : Nat) : Bool :=
  let va := g.codeVa + (l.addr - imageBase g.image)
  decide (imageBase g.image ≤ l.addr) && decide (l.addr < imageBase g.image + g.imgLen) && decide (first ≤ va) &&
  decide (va < first + 64 * count)

/-- CODEINV_ACCEPT: every core of the die has dropped the lines of the range. Until its own ISYNC a group may still see what
its core's cache held. -/
def execCodeinvAccept (die : Nat) (s : State) : Host.Outcome State Fault Refusal :=
  let d := s.die die
  let hit := fun (l : Line) => s.grids.any fun g => l.within g d.codeInvLine d.codeInvCount
  let old := fun (c : Nat) => if dieOf c = die then (s.core c).icache.filter hit else []
  .next (if d.codeInvDone then s
  else
    let s := { s with
      groups := s.groups.map fun (g : Group) => ({ g with stale := g.stale ++ old g.key.core } : Group)
      cores := s.cores.mapIdx fun c (x : Core) => if dieOf c = die then { x with icache := x.icache.filter fun l => !hit l } else x }
    s.modDie die fun d => { d with codeInvDone := true })

end Sys2Proof.Machine
end

