-- ==== Sys2Proof/Machine/Binning.lean ====
section
/-! DEFINITION. Bin streams: BINA, opening and replaying (09 R252, R253, R439). -/

namespace Sys2Proof.Machine

open Sys2Proof

/-! ### Streams -/

/-- The open stream of a launch on a die (09 R252). -/
def State.stream? (s : State) (die corr n : Nat) : Option Stream :=
  (s.die die).streams.find? fun x => x.corr == corr && x.n == n

/-- Change it. -/
def State.modStream (s : State) (die corr n : Nat) (f : Stream → Stream) : State :=
  s.modDie die fun d => { d with streams := d.streams.map fun x => if x.corr == corr && x.n == n then f x else x }

/-- The elements the buffer holds. -/
def Stream.held (st : Stream) : Nat := (st.els.filter fun e => e.live).length

/-- The same place of one BINA (09 R252). -/
def Bin.same (a b : Bin) : Bool := a.csn == b.csn && a.key == b.key && a.thread == b.thread

/-- Put an element at the place it keeps, else at the end. -/
def Stream.put (st : Stream) (b : Bin) : Stream :=
  if st.els.any fun e => !e.live && e.same b then
    { st with els := st.els.map fun e => if !e.live && e.same b then b else e }
  else { st with els := st.els ++ [b] }

/-- A goes before B in ordered mode: CSN, core, slot, sub-slot, thread (09 R253). -/
def Bin.before (a b : Bin) : Bool :=
  let ka := [a.csn.toNat, a.key.core, a.key.slot, a.key.sub, a.thread]
  let kb := [b.csn.toNat, b.key.core, b.key.slot, b.key.sub, b.thread]
  decide (ka < kb)

/-- Insert after every element that does not come later. -/
def Bin.insert (b : Bin) : List Bin → List Bin
  | [] => [b]
  | x :: xs => if b.before x then b :: x :: xs else x :: b.insert xs

/-- Sorted by the key of ordered mode, ties kept stable (09 R253). -/
def sortBins (l : List Bin) : List Bin := l.foldl (fun acc b => b.insert acc) []

/-- The elements a replay takes, in stream order; refused elements keep their places (09 R252, R253). -/
def Stream.take (st : Stream) : Stream × List Bin :=
  let l := st.els.filter fun e => e.live
  ({ st with els := st.els.filter fun e => !e.live }, if st.ordered then sortBins l else l)

/-! ### Replays (09 R253) -/

/-- The stream a binning job names. -/
def Job.stream (j : Job) : Nat := (j.c 2).toNat / 16 % 16

/-- The region of an element. -/
def Bin.region (st : Stream) (b : Bin) : Nat := b.idx.toNat / st.region

/-- The lowest region that elements name. -/
def lowRegion (st : Stream) (b : Bin) (bs : List Bin) : Nat := bs.foldl (fun r x => min r (x.region st)) (b.region st)

/-- A range cut at pages of 64 KiB: start and length of each piece. -/
def pieces : Nat → Nat → Nat → List (Nat × Nat)
  | 0, _, _ => []
  | fuel + 1, a, n =>
    if n = 0 then []
    else
      let k := min n (65536 - a % 65536)
      (a, k) :: pieces fuel (a + k) (n - k)

/-- The pieces of a range. -/
def piecesOf (a n : Nat) : List (Nat × Nat) := pieces (n / 65536 + 2) a n

/-- Reach every piece for a read; `none` where the operation now waits or is stopped. -/
def reachAll (r : EngRef) (space base : Nat) : List (Nat × Nat) → State → State × Option (List (Nat × Reach))
  | [], s => (s, some [])
  | p :: ps, s =>
    match reachRead s r false space base p.1 p.2 with
    | (s, .stop) => (s, none)
    | (s, x) =>
      match reachAll r space base ps s with
      | (s, some xs) => (s, some ((p.2, x) :: xs))
      | (s, none) => (s, none)

/-- The blocks of the pieces that have been read count (18 R375; 22 R404). -/
def countPieces (s : State) (r : EngRef) (space : Nat) (ps : List (Nat × Nat)) (l : List (Nat × Reach)) : State :=
  (ps.zip l).foldl (fun s p => match p.2.2 with
    | .ok _ => countAt s r space p.1.1 p.1.2
    | _ => s) s

/-- The bytes of a reached piece; zero where a handler skipped or delivered it. -/
def reachedBytes (s : State) (e : Eng) (p : Nat × Reach) : List (Byte × Bool) :=
  match p.2 with
  | .ok flats => flats.map fun a => (engByte s e a, true)
  | _ => List.replicate p.1 (0, false)

/-- Apply elements of one region to its words, each update rounded separately (09 R253); a word that a handler skipped or
delivered takes none. -/
def applyBins (op : AtomOp) (lo : Nat) (bs : List Bin) (words : List (Word × Bool)) : List (Word × Bool) × Fl :=
  bs.foldl (fun acc b =>
    match acc.1[b.idx.toNat - lo]? with
    | some (w, true) => let r := atomNew op w b.val; (acc.1.set (b.idx.toNat - lo) (r.1, true), acc.2 ||| r.2)
    | _ => acc) (words, 0#7)

/-- The words of bytes, with whether every byte of each was read. -/
def wordsOf (l : List (Byte × Bool)) : List (Word × Bool) :=
  (List.range (l.length / 4)).map fun i =>
    let w := (l.drop (4 * i)).take 4
    (word (leNat (w.map (·.1))), w.all (·.2))

/-- The flat address of a stream's staging area. -/
def stagingAt (s : State) (die : Nat) (st : Stream) : Nat :=
  (((s.windowOf st.corr die).map fun w => spAddr die w.1).getD 0) + st.staging

/-- The stores of the cores whose groups gave elements, to words of a region on the chip, reach them before it is read (15 R321,
R327). -/
def binsMeet (s : State) (die : Nat) (st : Stream) (reg : Nat) (bs : List Bin) : State :=
  let at_ := (((s.windowOf st.corr die).map fun w => spAddr die w.1).getD 0) + st.base + 4 * (reg * st.region)
  if st.space = 1 then
    ((bs.map fun b => b.key.core).eraseDups).foldl (fun s c =>
      if (s.core c).flights.isEmpty then s
      else landWords s c ((List.range (min st.region (st.count - reg * st.region))).map fun i => at_ / 4 + i)) s
  else s

/-- Load a region into staging and apply its updates (09 R253). -/
def loadRegion (s : State) (die idx : Nat) (st : Stream) (reg : Nat) (bs : List Bin) : State :=
  let r : EngRef := .job die idx
  let lo := reg * st.region
  let n := min st.region (st.count - lo)
  let s := binsMeet s die st reg bs
  match reachAll r st.space (moveBase s r false st.space) (piecesOf (st.base + 4 * lo) (4 * n)) s with
  | (s, none) => s
  | (s, some l) =>
    match s.eng? r with
    | none => s
    | some e =>
      let s := countPieces s r st.space (piecesOf (st.base + 4 * lo) (4 * n)) l
      let o := applyBins st.op lo bs (wordsOf (l.flatMap (reachedBytes s e)))
      let s := s.store (cellsAt (stagingAt s die st) (wordBytes (o.1.map (·.1))))
      s.modJob die idx fun x => { x with at_ := 1, got := [], flags := x.flags ||| o.2 }

/-- Write a piece of a region back from staging (09 R253); bytes for a peer leave as a request. -/
def writePiece (s : State) (die idx : Nat) (st : Stream) (reg : Nat) (p : Nat × Nat) (k : Nat) : State :=
  let r : EngRef := .job die idx
  let next := fun (s : State) => s.modJob die idx fun x => { x with at_ := k + 1, back := [k, 0, 0] }
  match reachWrite s r false st.space (moveBase s r true st.space) p.1 p.2 with
  | (s, .ok flats) =>
    let from_ := stagingAt s die st + (p.1 - (st.base + 4 * reg * st.region))
    (flushOut (next (engStore (countAt s r st.space p.1 p.2) r (flats.zip (s.bytes from_ p.2)))) r p.1).1
  | (s, .stop) => s
  | (s, _) => next s

/-- One step of a replay: load a region and apply its updates, write a piece of it back, or go on to the next region. -/
def replayStep (s : State) (die idx : Nat) (st : Stream) (j : Job) : State :=
  match j.bins with
  | [] => s
  | b :: bs =>
    let reg := lowRegion st b bs
    let lo := reg * st.region
    if j.at_ = 0 then loadRegion s die idx st reg (j.bins.filter fun x => x.region st == reg)
    else
      match (piecesOf (st.base + 4 * lo) (4 * min st.region (st.count - lo)))[j.at_ - 1]? with
      | some p => writePiece s die idx st reg p j.at_
      | none => s.modJob die idx fun x => { x with at_ := 0, bins := x.bins.filter fun y => y.region st != reg }

/-- Another replay of the stream that goes before this one has started and not ended. -/
def replayBusy (s : State) (die : Nat) (j : Job) : Bool :=
  (s.die die).jobs.any fun x => x.kind == 0 && x.corr == j.corr && x.stream == j.stream && x.idx != j.idx && x.started &&
    !x.bins.isEmpty && (j.bins.isEmpty || decide (x.seq < j.seq))

/-- Take the stream's elements into a job. -/
def takeBins (s : State) (die idx : Nat) (st : Stream) : State :=
  let t := st.take
  (s.modStream die st.corr st.n fun _ => t.1).modJob die idx fun x => { x with bins := t.2, at_ := 0 }

/-- Serve a replay: the elements received before it started, region by region; the job ends with 0, or with 7 on a stream that is
not open (09 R253, R439). -/
def serveReplay (s : State) (die idx : Nat) (j : Job) : State :=
  match s.stream? die j.corr j.stream with
  | none => completeJob s die idx 7
  | some st =>
    if j.bins.isEmpty then completeJob s die idx 0
    else if replayBusy s die j then s
    else
      let s := replayStep s die idx st j
      match s.job? die idx with
      | some x => if x.bins.isEmpty && x.out.isEmpty && x.susp == .none then completeJob s die idx 0 else s
      | none => s

/-- BINNING_REPLAY (09 R253, R439). -/
def execBinningReplay (die job : Nat) (s : State) : Host.Outcome State Fault Refusal :=
  .next (match s.job? die job with
    | some j =>
      if !(j.c 2).getLsbD 0 then s
      else if j.st == .queued && !j.bad && j.kind == 0 && jobStarts s die j then
        match s.stream? die j.corr j.stream with
        | none => completeJob s die job 7
        | some st =>
          if replayBusy s die j then s
          else
            let s := takeBins (s.modJob die job fun x => { x with st := .started }) die job st
            match s.job? die job with
            | some j => serveReplay s die job j
            | none => s
      else if j.st == .queued && !j.bad then s
      else onJob s die job 0 fun j s => serveReplay s die job j
    | none => s)

/-- Open a stream under a job's record; a stream that is open is first replayed under its old record (09 R439). -/
def serveOpen (s : State) (die idx : Nat) (j : Job) : State :=
  let new := (s.windowOf j.corr die).bind fun w => streamOf w.2 j.stream j.corr j.desc
  match new, s.stream? die j.corr j.stream with
  | none, _ => completeJob s die idx 7
  | some st, none => completeJob (s.modDie die fun d => { d with streams := d.streams ++ [st] }) die idx 0
  | some st, some old =>
    if replayBusy s die j then s
    else if !j.bins.isEmpty then replayStep s die idx old j
    else if old.held ≠ 0 then takeBins s die idx old
    else completeJob (s.modStream die j.corr j.stream fun _ => { st with els := old.els }) die idx 0

/-- BINNING_OPEN (09 R253, R439). -/
def execBinningOpen (die job : Nat) (s : State) : Host.Outcome State Fault Refusal :=
  .next (match s.job? die job with
    | some j => if (j.c 2).getLsbD 0 then s else onJob s die job 0 fun j s => serveOpen s die job j
    | none => s)

/-! ### BINA (09 R252) -/

/-- The entry of an implicit replay, whose index no handle names. -/
def implicitJob (x : Ins) (n : Nat) (seq : Nat) (bins : List Bin) : Job :=
  let c := fun (i : Nat) => if i = 2 then word (16 * n + 1) else 0
  { newJob x (1024 + seq) seq 0 c [] false with st := .started, keep := false, bins := bins }

/-- Serve an implicit replay as far as it goes (09 R252). -/
def runReplay (die idx : Nat) : Nat → State → State
  | 0, s => s
  | fuel + 1, s =>
    match s.job? die idx with
    | some j => if j.susp = .none then runReplay die idx fuel (serveReplay s die idx j) else s
    | none => s

/-- Replay a full buffer in arrival mode (09 R252): its flags merge into the group of the BINA. What a translation or a peer
holds up goes on as a job does. -/
def implicitReplay (x : Ins) (st : Stream) (s : State) : State :=
  let idx := 1024 + s.nextId
  let t := st.take
  let s := (s.modStream x.die st.corr st.n fun _ => t.1)
  let s := { s with nextId := s.nextId + 1 }
  let s := s.modDie x.die fun d => { d with jobs := d.jobs ++ [implicitJob x st.n (idx - 1024) t.2] }
  runReplay x.die idx (t.2.length * (st.region / 16384 + 4) + 2) s

/-- Where appending has come to: the elements not appended for want of room, and those refused. -/
structure Binned where
  s    : State
  rest : List BinEl
  bad  : List BinEl

/-- Put an element into the buffer: in the model's list, and as bytes that the engine chooses (09 R252, R253;
notes/assumptions/10.md). -/
def putBin (x : Ins) (st : Stream) (b : Bin) (s : State) : State :=
  engineOwn (s.modStream x.die x.corr st.n fun y => y.put b) x.die x.corr (st.buffer + 8 * (st.els.length % st.size)) 8

/-- Append elements in thread order (09 R252). -/
def appendBins (x : Ins) (n : Nat) : List BinEl → State → Binned
  | [], s => ⟨s, [], []⟩
  | e :: es, s =>
    match s.stream? x.die x.corr n with
    | none => ⟨s, e :: es, []⟩
    | some st =>
      let b : Bin := ⟨x.csn, x.k, e.thread, e.idx, e.val, decide (e.idx.toNat < st.count)⟩
      if !b.live then
        let r := appendBins x n es (s.modStream x.die x.corr n fun y => y.put b)
        { r with bad := e :: r.bad }
      else if st.held < st.size then appendBins x n es (putBin x st b s)
      else if st.ordered then ⟨s, e :: es, []⟩
      else appendBins x n es (putBin x st b (implicitReplay x st s))

/-- The elements of a BINA: those left, or one for each active thread (09 R252). -/
def binEls (x : Ins) : List BinEl :=
  match x.iss.prog with
  | .bin _ els => els
  | _ => (lanesOf x.g.width x.act).map fun t => ⟨t, x.a.val t, x.b.val t⟩

/-- BINRANGE of the refused elements (09 R252; 11 R290). -/
def binRange (x : Ins) (n : Nat) (bad : List BinEl) : Perf :=
  let m := maskOf x.g.width fun t => bad.any fun e => e.thread == t
  let i := ((bad.head?).map (·.idx)).getD 0
  x.perf 0x10D .once (word n) i 0 m (.bin x.csn bad (x.here (.bin x.csn bad)))

/-- BINA (09 R252). -/
def execBina (n : Fin 16) (a b : Reg) (s : State) : Host.Outcome State Fault Refusal :=
  issue (.bina n a b) s fun x =>
    match x.s.stream? x.die x.corr n.val with
    | none => x.fail (x.range (word n.val))
    | some _ =>
      if !x.g.queue.isEmpty then .hold (match x.iss.prog with
        | .bin c l => .bin c l
        | _ => x.kept)
      else
      let r := appendBins x n.val (binEls x) x.s
      if r.rest.isEmpty then (if r.bad.isEmpty then .done r.s else x.raise r.s [binRange x n.val r.bad])
      else .park (fun s => (appendBins x n.val (binEls x) s).s) (.bin x.csn (r.bad ++ r.rest))

end Sys2Proof.Machine
end

