-- ==== Sys2Proof/Machine/Select.lean ====
section
/-! DEFINITION. CRC-32C and selection: CRC, BHIST, BSEL and the top-k pass jobs (09 R248, R254 to R257). -/

namespace Sys2Proof.Machine

open Sys2Proof

/-! ### CRC (09 R254) -/

/-- One bit of the reflected CRC-32C step. -/
def crcBit (c : Word) : Word := if c.getLsbD 0 then (c >>> 1) ^^^ 0x82F63B78#32 else c >>> 1

/-- Eight bits, after a byte has been folded in. -/
def crcByte (c : Word) (b : Byte) : Word := (List.range 8).foldl (fun c _ => crcBit c) (c ^^^ b.setWidth 32)

/-- The bytes an operand width takes (09 R226). -/
def CrcSz.bytes : Sys2Proof.CrcSz → Nat
  | .c8 => 1
  | .c16 => 2
  | .c32 => 4

/-- CRC on words (09 R254). -/
def crcOp (sz : CrcSz) (a b : Word) : Word :=
  (List.range (CrcSz.bytes sz)).foldl (fun c i => crcByte c ((b >>> (8 * i)).setWidth 8)) a

/-- CRC (09 R254). -/
def execCrc (d a b : Reg) (sz : CrcSz) (s : State) : Host.Outcome State Fault Refusal :=
  issue (.crc d a b sz) s fun x => elemInt x false fun a b _ => crcOp sz a b

/-! ### Keys (09 R255) -/

/-- The order-preserving transform T (09 R255). -/
def keyOf (k : KeyKind) (w : Word) : Word :=
  match k with
  | .s32 => w ^^^ 0x80000000#32
  | .n32 => w
  | .f32 =>
    if w &&& 0x7F800000#32 = 0x7F800000#32 ∧ w &&& 0x007FFFFF#32 ≠ 0 then 0
    else if w &&& 0x7FFFFFFF#32 = 0 then 0x80000000#32
    else if w.getLsbD 31 then ~~~w else w ^^^ 0x80000000#32

/-- A key counts for a digit and a prefix (09 R256). -/
def keyCounts (dig : Nat) (pre t : Word) : Bool := dig == 3 || t >>> (8 * dig + 8) == pre >>> (8 * dig + 8)

/-- The bucket of a key (09 R256). -/
def bucketOf (dig : Nat) (t : Word) : Nat := t.toNat / 2 ^ (8 * dig) % 256

/-- BHIST (09 R256): the increments stand in the store queue as ATOMH.add.s32. -/
def execBhist (d a b : Reg) (dig : Fin 4) (k : KeyKind) (s : State) : Host.Outcome State Fault Refusal :=
  issue (.bhist d a b dig k) s fun x =>
    let base := x.a.sca.toNat
    let c : Acc := ⟨.sh, 64, 0, fun _ => base, fun _ => decide ((windowAt x .sh).size < base + 1024)⟩
    let t := fun (u : Nat) => keyOf k (x.b.val u)
    let els := ((passing x c).filter fun u => keyCounts dig.val x.d.sca (t u)).map fun u =>
      (⟨u, accAt x c u + 4 * bucketOf dig.val (t u), 0, 1⟩ : AtomEl)
    let e := { entryOf x c (.atom .addS32 els) none with dst := .none }
    x.raise (if els.isEmpty then x.s else enqueue x.k e x.s) (failures x c)

/-- BSEL (09 R257). -/
def execBsel (p : Fin 8) (a b : Reg) (within : Bool) (k : KeyKind) (s : State) : Host.Outcome State Fault Refusal :=
  issue (.bsel p a b within k) s fun x =>
    let lo := ((x.g.pair b).setWidth 32 : Word)
    let hi := ((x.g.pair b >>> 32).setWidth 32 : Word)
    compare x p fun key _ =>
      let t := keyOf k key
      (if within then lo.ule t && t.ule hi else hi.ult t, 0#7)

/-! ### Top-k passes (09 R248) -/

/-- The key kind of a card. -/
def Job.keyKind (j : Job) : KeyKind :=
  match (j.c 2).toNat / 16 % 4 with
  | 0 => .s32
  | 1 => .n32
  | _ => .f32

/-- The digit of a card. -/
def Job.digit (j : Job) : Nat := (j.c 2).toNat / 4 % 4

/-- The next key; `back` keeps where the pass stood. -/
def nextKey (s : State) (die idx : Nat) (put take : Bool) : State :=
  s.modJob die idx fun x => { x with
    at_ := x.at_ + 1, wrote := x.wrote + put.toNat, took := x.took + take.toNat, taken := none, got := []
    back := [x.at_, x.wrote, x.took] ++ (x.taken.map (·.toNat)).toList }

/-- Key `j.at_`, which is read once (09 R247): its transform, nothing for a key that a handler skipped or delivered, or the pass
stops. -/
def readKey (s : State) (die idx : Nat) (j : Job) (t : Topk) : State × Option (Option Word) :=
  let r : EngRef := .job die idx
  match j.taken with
  | some k => (s, some (some k))
  | none =>
    match reachRead s r false t.space (moveBase s r false 1) (t.keys + 4 * j.at_) 4 with
    | (s, .ok flats) =>
      let k := keyOf j.keyKind (word (leNat (flats.map (engByte s ((s.eng? r).getD j.toEng)))))
      ((countAt s r t.space (t.keys + 4 * j.at_) 4).modJob die idx fun x => { x with taken := some k }, some (some k))
    | (s, .stop) => (s, none)
    | (s, _) => (s, some none)

/-- Write a word of the output and go on (18 R379; 21 R391); a write that a handler skipped or delivered is dropped. Its page is
translated as a destination's. An `add` reads the word first. -/
def putOut (s : State) (die idx : Nat) (t : Topk) (off : Nat) (add : Bool) (w : Word) (next : State → State) : State :=
  let r : EngRef := .job die idx
  let put := fun (s : State) (flats : List Nat) (w : Word) =>
    (flushOut (next (engStore (countAt s r t.space (t.out + off) 4) r (flats.zip (leBytes 4 w.toNat)))) r (t.out + off)).1
  match reachWrite s r false t.space (moveBase s r true 1) (t.out + off) 4 with
  | (s, .ok flats) =>
    if add then
      let s := if t.space = 0 then s else engMeets s r flats
      match reachBytes s r false flats (t.out + off) (if t.space = 0 then none else some (t.out + off)), s.eng? r with
      | (s, .ok rd), some e => put s flats (word (leNat (rd.map (engByte s e))) + w)
      | (s, _), _ => s
    else put s flats w
  | (s, .stop) => s
  | (s, _) => next s

/-- Serve a key of a histogram pass, or once all are counted the next counter that has grown, as BHIST's (09 R248, R256). -/
def serveHistogram (s : State) (die idx : Nat) (j : Job) : State :=
  let t := topkOf j.desc
  let n := (j.c 4).toNat
  if n ≤ j.at_ then
    match (List.range 256).find? fun b => decide (j.at_ - n ≤ b) && j.counts.getD b 0 != 0 with
    | none => completeJob s die idx 0
    | some b =>
      let s := s.modJob die idx fun x => { x with at_ := n + b }
      putOut s die idx t (4 * b) true (j.counts.getD b 0) fun s => nextKey s die idx false false
  else match readKey s die idx j t with
    | (s, none) => s
    | (s, some none) => nextKey s die idx false false
    | (s, some (some k)) =>
      let s := if keyCounts j.digit (j.c 3) k then s.modJob die idx fun x =>
          { x with counts := x.counts.modify (bucketOf j.digit k) (· + 1) }
        else s
      nextKey s die idx false false

/-- TOPK_HISTOGRAM (09 R248). -/
def execTopkHistogram (die job : Nat) (s : State) : Host.Outcome State Fault Refusal :=
  .next (match s.job? die job with
    | some j => if (j.c 2).getLsbD 0 then s else onJob s die job 3 fun j s => serveHistogram s die job j
    | none => s)

/-- Serve a key of a selection pass, then the count (09 R248). -/
def serveSelect (s : State) (die idx : Nat) (j : Job) : State :=
  let t := topkOf j.desc
  let n := (j.c 4).toNat
  if n < j.at_ then completeJob s die idx 0
  else if n = j.at_ then
    let s := putOut s die idx t (4 * j.wrote) false (word j.wrote) fun s => nextKey s die idx false false
    match s.job? die idx with
    | some x => if n < x.at_ && x.out.isEmpty && x.susp == .none then completeJob s die idx 0 else s
    | none => s
  else match readKey s die idx j t with
    | (s, none) => s
    | (s, some none) => nextKey s die idx false false
    | (s, some (some k)) =>
      let above := (j.c 6).ult k
      let within := (j.c 5).ule k && k.ule (j.c 6) && decide (j.took < (j.c 3).toNat)
      if above || within then
        putOut s die idx t (4 * j.wrote) false (word j.at_) fun s => nextKey s die idx true within
      else nextKey s die idx false false

/-- TOPK_SELECT (09 R248). -/
def execTopkSelect (die job : Nat) (s : State) : Host.Outcome State Fault Refusal :=
  .next (match s.job? die job with
    | some j => if (j.c 2).getLsbD 0 then onJob s die job 3 fun j s => serveSelect s die job j else s
    | none => s)

/-! ### COPYSTALL (09 R239; 11 R290) -/

/-- The free elements of a stream's buffer. -/
def streamRoom (s : State) (die corr n : Nat) : Nat :=
  match s.stream? die corr n with
  | some st => st.size - st.held
  | none => 0

/-- The entries of a die's job table that are free. -/
def jobsFree (s : State) (die : Nat) : Nat := ((List.range 1024).filter (entryFree s die)).length

/-- What a word waits for under the stall rule: resource, free units, what waits on the handler (09 R239, R244, R252). -/
def stallOf (s : State) (g : Group) (iss : Issue) (i : Instr) : Option (Nat × Nat × Src) :=
  let x := mkIns s g iss i
  let here := x.here iss.prog
  let copies := if (copyRoom s g.key.core g.team).isNone then some (0, reserveFree s g.key.core g.team, Src.stall here) else none
  match i, iss.prog with
  | .cpy _ _ false _, .taken _ => copies
  | .cpyp _ _ false, .taken _ => copies
  | .rrot _ _ false, .taken _ => copies
  | .enq h _, .taken _ =>
    if (jobSlot s x.die).isNone then some (1, jobsFree s x.die, .stallEnq h.val here) else none
  | .bina n _ _, .bin _ _ =>
    let room := streamRoom s x.die x.corr n.val
    if room = 0 then some (2, room, .stall here) else none
  | _, _ => none

/-- The wait of a group that may issue, with the word it waits at. -/
def stalled (s : State) (k : GKey) : Option (Ins × Nat × Nat × Src) :=
  match s.group? k with
  | none => none
  | some g =>
    match g.cur with
    | none => none
    | some iss =>
      if mayIssue s g then
        (wordAt iss).bind fun i => (stallOf s g iss i).map fun w => (mkIns s g iss i, w)
      else none

/-- The active set of a waiting word performs COPYSTALL. The word has not issued: the loop stands as before, and what its issue would
make of it follows with .skip (05 R129). -/
def performStall (x : Ins) (res free : Nat) (src : Src) (s : State) : State :=
  let p := x.perf 0x105 .once (word free) (word s.times.stallUs) (word res) x.act src
  (perform s x.k ((s.group? x.k).bind (·.loop)) [p]).modGroup x.k fun g => { g with loop := x.g.loop }

/-- COPYSTALL (09 R239): a wait has passed the stall time; the active set performs the effect, and leaves its wait unless the
handler retries. -/
def execCopystall (k : GKey) (s : State) : Host.Outcome State Fault Refusal :=
  .next (match stalled s k with
    | some (x, res, free, src) => finish x s 0#7 [] (performStall x res free src)
    | none => s)

end Sys2Proof.Machine
end

