-- ==== Sys2Proof/Machine/Collective.lean ====
section
/-! DEFINITION. Collective groups: their jobs, messages, timeouts and aborts (21 R395 to R402). -/

namespace Sys2Proof.Machine

open Sys2Proof

/-! ### Groups -/

/-- A group that a die holds, by id and epoch. -/
def State.coll? (s : State) (die : Nat) (gid : BitVec 16) (epoch : Word) : Option Coll :=
  (s.die die).colls.find? fun c => c.gid == gid && c.epoch == epoch

/-- Change it. -/
def State.modColl (s : State) (die : Nat) (gid : BitVec 16) (epoch : Word) (f : Coll → Coll) : State :=
  s.modDie die fun d => { d with colls := d.colls.map fun c => if c.gid == gid && c.epoch == epoch then f c else c }

/-- The unfinished epochs of a group id that a die has formed: one for each launch that uses it. -/
def State.formed (s : State) (die : Nat) (gid : BitVec 16) : List Coll :=
  (s.die die).colls.filter fun c => c.gid == gid && c.formed && !c.ended

/-- The device id of a die's package (21 R392). -/
def ownDev (s : State) (die : Nat) : Nat := s.fabId.getD (die / 2) 0

/-- The members besides this one, with their ranks. -/
def Coll.others (c : Coll) : List (Nat × Nat × Nat) :=
  (c.members.zipIdx.filter fun m => m.2 != c.rank).map fun m => (m.2, m.1)

/-- The decider: the lowest rank not known to be lost (21 R400). -/
def Coll.decider (c : Coll) : Nat := ((List.range c.members.length).find? fun r => !c.lost.contains r).getD c.rank

/-- This member decides. -/
def Coll.decides (c : Coll) : Bool := c.decider == c.rank

/-- The group can still be aborted or decided. -/
def Coll.open_ (c : Coll) : Bool := c.formed && !c.ended && c.decided.isNone

/-- A message of the group from this member (21 R395). -/
def Coll.msg (c : Coll) (status seq : Nat) : Msg :=
  ⟨BitVec.ofNat 8 status, c.gid, c.epoch, BitVec.ofNat 16 c.rank, BitVec.ofNat 32 seq⟩

/-- Send a message to the other members that a test selects by rank (21 R395). -/
def sendMsg (s : State) (c : Coll) (dest : Nat → Bool) (type : Nat) (m : Msg) (data : List Word) : State :=
  { s with outbox := s.outbox ++ (c.others.filter fun o => dest o.1).map fun o => Sent.message o.2.1 o.2.2 type m data }

/-- Write into the staging areas of the other members on this package what a posting stands for: the operation and its count, and the
data (21 R395; notes/assumptions/9.md). -/
def stage (s : State) (die : Nat) (c : Coll) (m : Msg) (data : List Word) : State :=
  { s with outbox := s.outbox ++
      (c.others.filter fun o => o.2.1 == ownDev s die).map fun o => Sent.staged o.2.1 o.2.2 m data }

/-! ### Decisions and proposals (21 R400, R401) -/

/-- The member takes the decided status: its jobs in flight complete with it (21 R401). -/
def collEnds (s : State) (die : Nat) (c : Coll) (status : Nat) : State :=
  let s := s.modColl die c.gid c.epoch fun x => { x with decided := some status }
  let js := (s.die die).jobs.filter fun j =>
    j.kind == 4 && j.corr == c.corr && j.gid == c.gid && j.epoch == c.epoch && j.started && j.collOp != 0
  js.foldl (fun s j => completeJob s die j.idx status) s

/-- The decider decides: 2 when it knows of a lost member (21 R401). -/
def collDecide (s : State) (die : Nat) (c : Coll) (status : Nat) : State :=
  let status := if c.lost.isEmpty then status else 2
  collEnds (sendMsg s c (fun r => !c.lost.contains r) 0x14 (c.msg status 0) []) die c status

/-- The member proposes an abort to the decider and every other member (21 R400). -/
def propose (s : State) (die : Nat) (gid : BitVec 16) (epoch : Word) (status : Nat) : State :=
  match s.coll? die gid epoch with
  | none => s
  | some c =>
    if c.open_ then
      let s := s.modColl die gid epoch fun x => { x with
        proposed := x.proposed.orElse fun _ => some s.ns, told := status :: x.told }
      let s := sendMsg s c (fun _ => true) 0x13 (c.msg status 0) []
      if c.decides then collDecide s die c status else s
    else s

/-! ### FORM (21 R396, R399, R402) -/

/-- The members of a list, when it keeps its rules. -/
def membersOf (dev die : Nat) (l : List Word) : Option (List (Nat × Nat)) :=
  let ms := l.map fun w => (w.toNat % 4096, w.toNat / 4096 % 4)
  if l.all (fun w => decide (w.toNat < 2 ^ 14)) && decide ms.Nodup && ms.contains (dev, die) then some ms else none

/-- The groups of a die that have not ended (21 R399). -/
def collsHeld (s : State) (die : Nat) : Nat := ((s.die die).colls.filter fun c => !c.ended).length

/-- Every member has sent FORM with the same list, none so long ago that its own FORM has timed out (21 R399). -/
def allFormed (s : State) (die : Nat) (c : Coll) : Bool :=
  c.others.all fun o => (s.die die).forms.any fun f =>
    f.gid == c.gid && f.epoch == c.epoch && f.rank == o.1 && f.list == c.list && decide (s.ns ≤ f.ns + s.times.collTo * 1000000)

/-- Forget the FORM messages of an epoch and the older ones of its group. -/
def dropForms (s : State) (die : Nat) (gid : BitVec 16) (epoch : Word) : State :=
  s.modDie die fun d => { d with forms := d.forms.filter fun f => f.gid != gid || epoch.ult f.epoch }

/-- What members have proposed or decided before this one had its group counts once it is formed (21 R401). -/
def catchUp (s : State) (die : Nat) (gid : BitVec 16) (epoch : Word) : State :=
  match s.coll? die gid epoch with
  | none => s
  | some c =>
    match c.early.find? (·.1), c.early with
    | some d, _ => collEnds s die c d.2
    | none, p :: _ => if c.decides then collDecide s die c p.2 else s
    | none, [] => s

/-- A FORM job has sent its message: it completes once every member's has come. -/
def tryForm (s : State) (die : Nat) (j : Job) : State :=
  match s.coll? die j.gid j.epoch with
  | none => s
  | some c =>
    if allFormed s die c then
      let s := s.modColl die j.gid j.epoch fun x =>
        { x with formed := true, beat := List.replicate x.members.length s.ns }
      catchUp (completeJob (dropForms s die j.gid j.epoch) die j.idx 0) die j.gid j.epoch
    else s

/-- A FORM job ends without its group, and with it what the other members have sent. -/
def dropForm (s : State) (die : Nat) (j : Job) (status : Nat) : State :=
  let s := s.modDie die fun d => { d with
    colls := d.colls.filter fun c => c.gid != j.gid || c.epoch != j.epoch || c.formed
    forms := d.forms.filter fun f => f.gid != j.gid || f.epoch != j.epoch }
  completeJob s die j.idx status

/-- The member list of a FORM's descriptor: flat address, offset in the window, bytes. -/
def formList (s : State) (die : Nat) (j : Job) : Nat × Nat × Nat :=
  let off := fieldAt j.desc 168 4
  (((s.windowOf j.corr die).map fun w => spAddr die w.1).getD 0 + off, off, 4 * fieldAt j.desc 172 2)

/-- The words of the list. -/
def formWords (s : State) (die : Nat) (j : Job) : List Word :=
  let l := formList s die j
  (List.range (l.2.2 / 4)).map fun i => s.word32 (l.1 + 4 * i)

/-- A FORM starts (21 R396, R399): 7 for a list that breaks its rules, 4 for an epoch that is held and not finished, or that this
launch has ended (R397, R402), 1 when the die holds 64 groups. -/
def startForm (s : State) (die : Nat) (j : Job) : State :=
  let l := formList s die j
  if s.anyPoison l.1 l.2.2 then engPoison s (.job die j.idx) l.1 l.2.1
  else match membersOf (ownDev s die) die (formWords s die j) with
    | none => completeJob s die j.idx 7
    | some ms =>
      let held := (s.die die).colls.any fun c => c.gid == j.gid &&
        ((c.epoch == j.epoch && !c.ended) || (c.corr == j.corr && j.epoch.ule c.epoch))
      if held then completeJob s die j.idx 4
      else if 64 ≤ collsHeld s die then completeJob s die j.idx 1
      else
        let c : Coll :=
          { gid := j.gid, epoch := j.epoch, corr := j.corr, members := ms, list := formWords s die j
            rank := ms.idxOf (ownDev s die, die), formed := false
            posted := 0, posts := [], lost := [], beat := [], decided := none, ended := false, proposed := none, told := [], early := [] }
        let s := s.modDie die fun d => { d with colls := (d.colls.filter fun x => x.gid != j.gid || x.epoch != j.epoch) ++ [c] }
        let s := s.modJob die j.idx fun x => { x with st := .started }
        tryForm (sendMsg s c (fun _ => true) 0x10 (c.msg 0 0) c.list) die j

/-- Serve a FORM. -/
def serveForm (s : State) (die : Nat) (j : Job) : State :=
  if j.bad then completeJob s die j.idx 7
  else if j.canh then dropForm s die j 5
  else if j.st = .queued then
    if outdated s die j then completeJob s die j.idx 4 else if jobStarts s die j then startForm s die j else s
  else if j.susp = .none then tryForm s die j
  else s

/-! ### The other operations (21 R397 to R399) -/

/-- The reductions (21 R396). -/
def rednOp (n : Nat) : AtomOp :=
  match n with
  | 0 => .addS32
  | 1 => .addF32
  | 2 => .addBf16x2
  | 3 => .addF16x2
  | 4 => .minS32
  | 5 => .maxS32
  | 6 => .minF32
  | _ => .maxF32

/-- The neutral values (21 R398). -/
def neutralOf (n : Nat) : Word :=
  match n with
  | 4 => 0x7FFFFFFF
  | 5 => 0x80000000
  | 6 => 0x7F800000
  | 7 => 0xFF800000
  | _ => 0

/-- A reduction applied left to right (21 R399). -/
def redRanks (n : Nat) (l : List Word) : Word × Fl :=
  match l with
  | [] => (neutralOf n, 0#7)
  | x :: xs => xs.foldl (fun acc v => let r := atomNew (rednOp n) acc.1 v; (r.1, acc.2 ||| r.2)) (x, 0#7)

/-- What an operation gives a rank, from the data of all ranks in order (21 R397). -/
def collResult (op redn rank root count : Nat) (data : List (List Word)) : List (Word × Fl) :=
  let at_ := fun (i : Nat) => data.map fun d => d.getD i 0
  match op with
  | 3 => (List.range count).map fun i => (((data.getD root []).getD i 0), 0#7)
  | 4 => (List.range count).map fun i => redRanks redn (at_ i)
  | 5 =>
    let n := count / data.length
    (List.range n).map fun i => redRanks redn (at_ (rank * n + i))
  | 6 => data.flatMap fun d => (List.range count).map fun i => (d.getD i 0, 0#7)
  | _ => (List.range count).map fun i => redRanks redn ((at_ i).take rank)

/-- The card fits the group: the slices of a reduce-scatter, the root of a broadcast, the output of a gather (21 R396, R397). -/
def collFits (s : State) (die : Nat) (j : Job) (c : Coll) : Bool :=
  let m := c.members.length
  let window := ((s.windowOf j.corr die).map (·.2)).getD 0
  match j.collOp with
  | 3 => decide ((j.c 5).toNat < m)
  | 5 => j.count % m == 0 && rangeOk window (fieldAt j.desc 152 1) (fieldAt j.desc 144 8) (4 * (j.count / m))
  | 6 => rangeOk window (fieldAt j.desc 152 1) (fieldAt j.desc 144 8) (4 * m * j.count)
  | _ => true

/-- The member contributes data to the operation. -/
def Job.gives (j : Job) (c : Coll) : Bool := decide (4 ≤ j.collOp) || (j.collOp == 3 && (j.c 5).toNat == c.rank)

/-- The member has posted the operation (21 R397). -/
def Coll.hasPosted (c : Coll) (j : Job) : Bool := c.posts.any fun p => p.rank == c.rank && p.seq == j.num

/-- An operation of a lower number has not been posted yet, and is still to be (21 R397). -/
def earlierOp (s : State) (die : Nat) (c : Coll) (j : Job) : Bool :=
  (s.die die).jobs.any fun x => j.sameEpoch x && x.num != 0 && decide (x.num < j.num) && !x.finished && !c.hasPosted x

/-- The FORM of a job's epoch has not completed. -/
def forming (s : State) (die : Nat) (j : Job) : Bool :=
  (s.die die).jobs.any fun x => j.sameEpoch x && x.collOp == 0 && !x.bad && !x.finished && decide (x.seq < j.seq)

/-- The words an operation compares between members (21 R397): operation and reduction. -/
def Job.what (j : Job) : Word := j.c 2 &&& 0xFF#32

/-- Two postings of one number differ (21 R397). -/
def Post.differs (p q : Post) : Bool := p.seq == q.seq && (p.c2 != q.c2 || p.count != q.count)

/-- Where skip and patch of a member's staging area act: no address of memory. -/
def stageMark (rank : Nat) : Nat := 2 ^ 64 + rank

/-- The bytes of a posting for a member of another package, at the peer addresses of its staging area (21 R395). -/
def stagingCells (dev die : Nat) (c : Coll) (p : Post) : List (Nat × Byte) :=
  cellsAt (peerAddr dev (Config.stagingAddr dev die [c.gid.toNat, c.epoch.toNat, p.rank, p.seq]))
    (wordBytes (p.c2 :: word p.count :: p.data))

/-- A posting goes on: the data travels to the members of other packages one after another, as ordinary writes; then every other member
is told (21 R393, R395, R397). -/
def collSend (s : State) (die idx : Nat) (c : Coll) : State :=
  let r : EngRef := .job die idx
  match s.job? die idx with
  | none => s
  | some j =>
    let far := c.others.filter fun o => o.2.1 != ownDev s die
    match c.posts.find? fun p => p.rank == c.rank && p.seq == j.num with
    | none => s
    | some p =>
      if j.finished then s
      else if !j.out.isEmpty then flushRest s r
      else match far[j.wrote]? with
        | none => (sendMsg s c (fun _ => true) 0x12 (c.msg 0 j.num) []).modJob die idx fun x => { x with took := 1 }
        | some o =>
          let next := fun (s : State) => s.modJob die idx fun x => { x with
            wrote := x.wrote + 1, back := [x.at_, x.wrote, x.took] }
          if (skipOf j.toEng (stageMark o.1)).isSome then next s
          else (flushOut (engStore (next s) r (stagingCells o.2.1 o.2.2 c p)) r (stageMark o.1)).1

/-- The member posts its next operation, and finds whether the other members' differ (21 R397, R400). -/
def collPost (s : State) (die : Nat) (j : Job) (c : Coll) (data : List Word) : State :=
  let p : Post := ⟨c.rank, j.num, j.what, j.count, data⟩
  let s := s.modJob die j.idx fun x => { x with got := [] }
  let s := s.modColl die c.gid c.epoch fun x => { x with posted := max x.posted j.num, posts := x.posts ++ [p] }
  let s := stage s die c (c.msg 0 j.num) (j.what :: j.c 4 :: data)
  let s := if c.posts.any p.differs then propose s die c.gid c.epoch 3 else s
  collSend s die j.idx { c with posts := c.posts ++ [p] }

/-- Read the member's source, then post (09 R247; 21 R397). -/
def collRead (s : State) (die : Nat) (j : Job) (c : Coll) : State :=
  let r : EngRef := .job die j.idx
  if j.gives c then
    let ps := piecesOf (fieldAt j.desc 128 8) (4 * j.count)
    match reachAll r (fieldAt j.desc 136 1) (moveBase s r false 1) ps s with
    | (s, none) => s
    | (s, some l) => match s.eng? r with
      | some e => collPost (countPieces s r (fieldAt j.desc 136 1) ps l) die j c ((wordsOf (l.flatMap (reachedBytes s e))).map (·.1))
      | none => s
  else collPost s die j c []

/-- The postings of every member for a number, in rank order, when all have come and agree. -/
def allPosted (c : Coll) (n : Nat) : Option (List Post) :=
  let ps := (List.range c.members.length).filterMap fun r => c.posts.find? fun p => p.rank == r && p.seq == n
  if ps.length = c.members.length ∧ ps.all (fun p => ps.all fun q => !p.differs q) then some ps else none

/-- The operation is done: its postings go, the job completes with 0. -/
def collDone (s : State) (die : Nat) (j : Job) (c : Coll) : State :=
  completeJob (s.modColl die c.gid c.epoch fun x => { x with posts := x.posts.filter fun p => p.seq != j.num }) die j.idx 0

/-- Write 64 bytes of the result; a write that a handler skipped or delivered is dropped (18 R379; 21 R397). The staging bytes of
those elements are the engine's (R395; notes/assumptions/9.md). -/
def collWrite (s : State) (die : Nat) (j : Job) (res : List (Word × Fl)) : State :=
  let r : EngRef := .job die j.idx
  let ws := (res.drop (16 * j.at_)).take 16
  let a := fieldAt j.desc 144 8 + 64 * j.at_
  let left := 8 * j.count - 128 * j.at_
  let n := if res.length ≤ 16 * (j.at_ + 1) then left else min 128 left
  let own := fun (s : State) => engineOwn s die j.corr (fieldAt j.desc 160 4 + 128 * j.at_) n
  let next := fun (s : State) => (own s).modJob die j.idx fun x => { x with
    at_ := x.at_ + 1, back := [x.at_, x.wrote, x.took], flags := ws.foldl (fun f w => f ||| w.2) x.flags }
  match reachWrite s r false (fieldAt j.desc 152 1) (moveBase s r true 1) a (4 * ws.length) with
  | (s, .ok flats) =>
    let s := countAt s r (fieldAt j.desc 152 1) a (4 * ws.length)
    (flushOut (next (engStore s r (flats.zip (wordBytes (ws.map (·.1)))))) r a).1
  | (s, .stop) => s
  | (s, _) => next s

/-- An operation of a lower number has not completed. -/
def lowerOp (s : State) (die : Nat) (j : Job) : Bool :=
  (s.die die).jobs.any fun x => j.sameEpoch x && x.num != 0 && decide (x.num < j.num) && !x.finished

/-- Go on with an operation that every member has posted (21 R397). DISBAND ends the epoch after the operations before it. -/
def collGo (s : State) (die : Nat) (j : Job) (c : Coll) (ps : List Post) : State :=
  if !j.out.isEmpty then flushRest s (.job die j.idx)
  else match j.collOp with
  | 1 => if lowerOp s die j then s else (collDone s die j c).modColl die c.gid c.epoch fun x => { x with ended := true }
  | 2 => collDone s die j c
  | op =>
    let res := collResult op j.redn c.rank (j.c 5).toNat j.count (ps.map (·.data))
    let s := if 16 * j.at_ < res.length then collWrite s die j res else s
    match s.job? die j.idx with
    | some x => if res.length ≤ 16 * x.at_ && x.out.isEmpty && x.susp == .none then collDone s die x c else s
    | none => s

/-- Serve an operation in a group this member has formed. -/
def serveFormed (s : State) (die : Nat) (j : Job) (c : Coll) : State :=
  match c.decided with
  | some n => completeJob s die j.idx n
  | none =>
    if j.bad || !collFits s die j c then completeJob s die j.idx 7
    else if c.hasPosted j then
      if j.susp ≠ .none then s
      else if j.took = 0 then collSend s die j.idx c
      else match allPosted c j.num with
        | some ps => collGo s die j c ps
        | none => s
    else if earlierOp s die c j then s
    else if j.st = .queued then
      if jobStarts s die j then collRead (s.modJob die j.idx fun x => { x with st := .started }) die j c else s
    else if j.susp = .none then collRead s die j c
    else s

/-- Serve an operation (21 R397, R401, R402): 4 in an epoch that is not this member's, or no more. A job that has no number was entered
before the FORM of its epoch. -/
def serveOp (s : State) (die : Nat) (j : Job) : State :=
  let status := if j.bad then 7 else 4
  if outdated s die j ∨ j.num = 0 then completeJob s die j.idx status
  else match s.coll? die j.gid j.epoch with
    | some c =>
      if c.corr ≠ j.corr ∨ c.ended then completeJob s die j.idx status
      else if c.formed then serveFormed s die j c
      else s
    | none => if forming s die j then s else completeJob s die j.idx status

/-- Serve a collective job of one operation. A reserved code is malformed, and completes as a FORM's would. -/
def serveColl (s : State) (die idx op : Nat) : State :=
  match s.job? die idx with
  | none => s
  | some j =>
    if j.kind ≠ 4 ∨ j.finished then s
    else if op = 0 ∧ 8 ≤ j.collOp then completeJob s die idx 7
    else if j.collOp ≠ op then s
    else if op = 0 then serveForm s die j
    else serveOp s die j

/-- COLL_FORM (21 R399). -/
def execCollForm (die job : Nat) (s : State) : Host.Outcome State Fault Refusal := .next (serveColl s die job 0)

/-- COLL_DISBAND (21 R397). -/
def execCollDisband (die job : Nat) (s : State) : Host.Outcome State Fault Refusal := .next (serveColl s die job 1)

/-- COLL_BARRIER (21 R397). -/
def execCollBarrier (die job : Nat) (s : State) : Host.Outcome State Fault Refusal := .next (serveColl s die job 2)

/-- COLL_BCAST (21 R397). -/
def execCollBcast (die job : Nat) (s : State) : Host.Outcome State Fault Refusal := .next (serveColl s die job 3)

/-- COLL_ALLRED (21 R397). -/
def execCollAllred (die job : Nat) (s : State) : Host.Outcome State Fault Refusal := .next (serveColl s die job 4)

/-- COLL_REDSCAT (21 R397). -/
def execCollRedscat (die job : Nat) (s : State) : Host.Outcome State Fault Refusal := .next (serveColl s die job 5)

/-- COLL_GATHER (21 R397). -/
def execCollGather (die job : Nat) (s : State) : Host.Outcome State Fault Refusal := .next (serveColl s die job 6)

/-- COLL_XSCAN (21 R397). -/
def execCollXscan (die job : Nat) (s : State) : Host.Outcome State Fault Refusal := .next (serveColl s die job 7)

/-! ### CANH (09 R250) -/

/-- Cancel a job that is in the table. A collective that has not started completes with 5, and its group is told (21 R400); a
FORM that has started is given up. -/
def cancelJob (s : State) (die : Nat) (j : Job) : State :=
  if j.finished then s
  else if j.kind = 4 ∧ j.collOp ≠ 0 then
    let s := if j.st = .queued then completeJob s die j.idx 5 else s
    if ((s.coll? die j.gid j.epoch).map (·.corr)) = some j.corr then propose s die j.gid j.epoch 3 else s
  else if j.st = .queued then completeJob s die j.idx 5
  else if j.kind = 4 then dropForm s die j 5
  else if j.kind = 0 then s
  else s.modJob die j.idx fun x => { x with canh := true }

/-- CANH (09 R250). -/
def execCanh (h : Fin 16) (s : State) : Host.Outcome State Fault Refusal :=
  issue (.canh h) s fun x =>
    match jobOf x.s (x.g.handle h.val) with
    | none => x.fail (staleHandle x h)
    | some j => .done (cancelJob x.s (dieOfHandle (x.g.handle h.val)) j)

/-! ### Messages (21 R395, R399 to R401) -/

/-- The event that a message brings its receiver. -/
def messageEvent (die type : Nat) (m : Msg) (data : List Word) : Option Instr :=
  match type with
  | 0x10 => some (.formMsg die m data)
  | 0x11 => some (.beatMsg die m)
  | 0x12 => some (.postMsg die m (data.getD 0 0) (data.getD 1 0) (data.drop 2))
  | 0x13 => some (.abortMsg die m)
  | 0x14 => some (.decideMsg die m)
  | _ => none

/-- What stands in the staging area of a die of this package for a posting. -/
def stagedFor (s : State) (die : Nat) (m : Msg) : List Word :=
  (s.outbox.findSome? fun
    | .staged dev d n data => if dev = ownDev s die ∧ d = die ∧ n = m then some data else none
    | _ => none).getD []

/-- The messages that this package sends to a die of its own, as events there. -/
def ownMessages (s : State) : List Instr :=
  s.outbox.filterMap fun
    | .message dev die type m data =>
      if dev = ownDev s die then messageEvent die type m (if type = 0x12 then stagedFor s die m else data) else none
    | _ => none

/-- Take a message of this package to its own die off the wire, if the event stands for one. -/
def receive (s : State) (die type : Nat) (m : Msg) (data : List Word) : State :=
  { s with outbox := s.outbox.erase (.message (ownDev s die) die type m data) }

/-- FORM (21 R399): kept until this member's own FORM has its group. -/
def execFormMsg (die : Nat) (m : Msg) (members : List Word) (s : State) : Host.Outcome State Fault Refusal :=
  let s := receive s die 0x10 m members
  let f : Formed := ⟨m.gid, m.epoch, m.rank.toNat, members, s.ns⟩
  let known := (s.die die).colls.any fun c => c.gid == m.gid && c.epoch == m.epoch && (c.formed || c.ended)
  .next (if known then s
    else s.modDie die fun d => { d with
      forms := (d.forms.filter fun x => x.gid != f.gid || x.epoch != f.epoch || x.rank != f.rank) ++ [f] })

/-- BEAT (21 R401). -/
def execBeatMsg (die : Nat) (m : Msg) (s : State) : Host.Outcome State Fault Refusal :=
  let s := receive s die 0x11 m []
  .next (s.modColl die m.gid m.epoch fun c => { c with beat := setAt c.beat m.rank.toNat s.ns })

/-- Where a posting's data stands among the staging bytes of a die. -/
def stagedAt (s : State) (die : Nat) (m : Msg) : Nat :=
  Config.stagingAddr (ownDev s die) die [m.gid.toNat, m.epoch.toNat, m.rank.toNat, m.seq.toNat]

/-- A word of the staging bytes that has come whole. -/
def Die.staged (d : Die) (a : Nat) : Option Word :=
  let bs := (List.range 4).filterMap fun i => (d.staging.find? fun c => c.1 == a + i).map (·.2)
  if bs.length = 4 then some (word (leNat bs)) else none

/-- The words of a posting as its POST finds them: those that writes have put into the staging area, else those that come with the event,
which stand for the writes that the event takes along (21 R395; notes/assumptions/9.md). -/
def postWords (s : State) (die : Nat) (m : Msg) (l : List Word) : List Word :=
  let at_ := fun (i : Nat) => (s.die die).staged (stagedAt s die m + 4 * i)
  let n := ((List.range ((s.die die).staging.length / 4)).takeWhile fun i => (at_ i).isSome).length
  (List.range (max n l.length)).map fun i => (at_ i).getD (l.getD i 0)

/-- Take a posting's bytes out of the staging area. -/
def unstage (s : State) (die : Nat) (m : Msg) (n : Nat) : State :=
  let a := stagedAt s die m
  s.modDie die fun d => { d with staging := d.staging.filter fun c => decide (c.1 < a) || decide (a + 4 * n ≤ c.1) }

/-- POST (21 R397), with what its sender's writes have put into the staging area before it (R395): each member's posting of a
number counts once; one that differs from this member's own is proposed for an abort (R400). -/
def execPostMsg (die : Nat) (m : Msg) (c2 count : Word) (data : List Word) (s : State) : Host.Outcome State Fault Refusal :=
  let s := receive s die 0x12 m []
  let s := { s with outbox := s.outbox.erase (.staged (ownDev s die) die m (c2 :: count :: data)) }
  let ws := postWords s die m (c2 :: count :: data)
  let s := unstage s die m ws.length
  .next (match s.coll? die m.gid m.epoch with
    | none => s
    | some c =>
      let p : Post := ⟨m.rank.toNat, m.seq.toNat, ws.getD 0 0, (ws.getD 1 0).toNat, ws.drop 2⟩
      if c.ended || decide (c.members.length ≤ p.rank) || p.rank == c.rank || (c.posts.any fun q => q.rank == p.rank && q.seq == p.seq)
      then s
      else
        let s := s.modColl die m.gid m.epoch fun x => { x with posts := x.posts ++ [p] }
        if c.posts.any (fun q => q.rank == c.rank && p.differs q) then propose s die m.gid m.epoch 3 else s)

/-- ABORT (21 R401): the decider takes the first proposal that reaches it. -/
def execAbortMsg (die : Nat) (m : Msg) (s : State) : Host.Outcome State Fault Refusal :=
  let s := receive s die 0x13 m []
  .next (match s.coll? die m.gid m.epoch with
    | some c =>
      if c.open_ && c.decides then collDecide s die c m.status.toNat
      else if !c.formed && !c.ended then s.modColl die m.gid m.epoch fun x => { x with early := x.early ++ [(false, m.status.toNat)] }
      else s
    | none => s)

/-- DECIDE (21 R401). -/
def execDecideMsg (die : Nat) (m : Msg) (s : State) : Host.Outcome State Fault Refusal :=
  let s := receive s die 0x14 m []
  .next (match s.coll? die m.gid m.epoch with
    | some c =>
      if c.open_ then collEnds s die c m.status.toNat
      else if !c.formed && !c.ended then s.modColl die m.gid m.epoch fun x => { x with early := x.early ++ [(true, m.status.toNat)] }
      else s
    | none => s)

/-! ### Heartbeats and timeouts (21 R399 to R401) -/

/-- HEARTBEAT: the member sends BEAT to the group. -/
def execHeartbeat (die : Nat) (gid : BitVec 16) (s : State) : Host.Outcome State Fault Refusal :=
  .next ((s.formed die gid).foldl (fun s c => sendMsg s c (fun _ => true) 0x11 (c.msg 0 0) []) s)

/-- MEMBER_LOST: no BEAT from a member for the collective timeout; the member proposes 2, or decides when the decider is the one
that is lost and it comes next (21 R400, R401). -/
def execMemberLost (die : Nat) (gid : BitVec 16) (rank : Nat) (s : State) : Host.Outcome State Fault Refusal :=
  .next ((s.formed die gid).foldl (fun s c =>
    if c.open_ && decide (rank < c.members.length) && rank != c.rank && !c.lost.contains rank &&
        decide (c.beat.getD rank 0 + s.times.collTo * 1000000 ≤ s.ns) then
      propose (s.modColl die gid c.epoch fun x => { x with lost := x.lost ++ [rank] }) die gid c.epoch 2
    else s) s)

/-- An operation this member has posted waits for the POST of a member that still beats (21 R400). -/
def Coll.waits (c : Coll) : Bool :=
  c.posts.any fun p => p.rank == c.rank &&
    (List.range c.members.length).any fun r => !c.lost.contains r && !c.posts.any fun q => q.rank == r && q.seq == p.seq

/-- COLLECTIVE_TIMEOUT. -/
def execCollectiveTimeout (die : Nat) (gid : BitVec 16) (s : State) : Host.Outcome State Fault Refusal :=
  .next ((s.formed die gid).foldl (fun s c => if c.open_ && c.waits then propose s die gid c.epoch 1 else s) s)

/-- FORM_TIMEOUT. -/
def execFormTimeout (die job : Nat) (s : State) : Host.Outcome State Fault Refusal :=
  .next (match s.job? die job with
    | some j => if j.kind = 4 ∧ j.collOp = 0 ∧ j.started then dropForm s die j 1 else s
    | none => s)

/-- No decision has answered a member's proposal for the collective timeout, though it does not decide itself: no decider is
within its reach (21 R401; notes/assumptions/9.md). -/
def Coll.cutOff (c : Coll) (s : State) : Bool :=
  c.open_ && !c.decides && match c.proposed with
    | some n => decide (n + s.times.collTo * 1000000 ≤ s.ns)
    | none => false

/-- DECIDER_UNREACHABLE: a member that has proposed and reaches no decider for the timeout counts itself lost (21 R401). -/
def execDeciderUnreachable (die : Nat) (gid : BitVec 16) (s : State) : Host.Outcome State Fault Refusal :=
  .next ((s.formed die gid).foldl (fun s c => if c.cutOff s then collEnds s die c 2 else s) s)

end Sys2Proof.Machine
end

