-- ==== Sys2Proof/Machine/Fabric.lean ====
section
/-! DEFINITION. The fabric: inbound requests, completions, time-outs, signal trailers, ports (21 R390 to R394). -/

namespace Sys2Proof.Machine

open Sys2Proof

/-! ### Inbound requests (21 R391) -/

/-- The bytes lie in the package's HBM4E (25 R429: 384 GiB). -/
def inHbm (addr n : Nat) : Bool := decide (addr + n ≤ 384 * 2 ^ 30)

/-- Send something across the fabric or to the host. -/
def send (s : State) (x : Sent) : State := { s with outbox := s.outbox ++ [x] }

/-- READ_REQUEST: 64, 128 or 256 bytes, aligned to the size; any other one, and a poisoned one, receives an error completion. -/
def execReadRequest (src tag addr len : Nat) (s : State) : Host.Outcome State Fault Refusal :=
  let ok := (len == 64 || len == 128 || len == 256) && addr % len == 0 && inHbm addr len && !s.anyPoison (hbmAddr addr) len
  .next (send s (.readDone src tag ok (if ok then s.bytes (hbmAddr addr) len else [])))

/-- The bytes a write request enables, at their homes. -/
def enabled (addr : Nat) (bytes : List Byte) (enable : List Bool) : List (Nat × Byte) :=
  ((cellsAt (hbmAddr addr) bytes).zip enable).filterMap fun p => if p.2 then some p.1 else none

/-- A tag whose bytes and trailer have all come: the signal add is made once, and the trailer acknowledged; an error completion
where the word is not one of this memory's or is poisoned (21 R394). -/
def trySignal (s : State) (src tag : Nat) : State :=
  match s.sigTags.find? fun t => t.src == src && t.tag == tag with
  | none => s
  | some t =>
    match t.want with
    | none => s
    | some n =>
      if t.added || decide (t.got < n) then s
      else
        let a := hbmAddr t.addr
        if t.addr % 4 = 0 ∧ inHbm t.addr 4 = true ∧ s.anyPoison a 4 = false then
          let s := s.store (valueAt a 4 ((s.load a 4 + 1) % 2 ^ 32))
          send { s with sigTags := s.sigTags.map fun x => if x.src == src && x.tag == tag then { x with added := true } else x }
            (.trailerDone src tag true)
        else send { s with sigTags := s.sigTags.erase t } (.trailerDone src tag false)

/-- Find or open a signal tag; each link die holds at most 1,024 open ones (21 R394). -/
def openTag (s : State) (src tag : Nat) : State :=
  let full := fun (l : List SigTag) => decide (1024 ≤ l.length)
  if s.sigTags.any fun t => t.src == src && t.tag == tag then s
  else if full (s.sigTags.filter fun t => !t.added) &&
      full (s.sigTags.filter fun t => !t.added && Config.linkOf t.src t.tag == Config.linkOf src tag) then s
  else { s with sigTags := s.sigTags ++ [⟨src, tag, 0, none, 0, [], false⟩] }

/-- Change a signal tag. -/
def modTag (s : State) (src tag : Nat) (f : SigTag → SigTag) : State :=
  { s with sigTags := s.sigTags.map fun t => if t.src == src && t.tag == tag then f t else t }

/-- A write of the tag has been performed at some addresses. A byte that is written again, as when a write is sent twice, counts no
second time, here as at the sender (21 R393, R394; notes/assumptions/14.md). -/
def SigTag.count (l : List Nat) (t : SigTag) : SigTag :=
  let new := l.eraseDups.filter fun a => !t.seen.contains a
  { t with got := t.got + new.length, seen := new ++ t.seen }

/-- Bytes for a staging area of a die, which stand there until their posting comes (21 R395). -/
def stageBytes (s : State) (die : Nat) (cells : List (Nat × Byte)) : State :=
  s.modDie die fun d => { d with staging := cells ++ d.staging.filter fun c => !cells.any fun n => n.1 == c.1 }

/-- WRITE_REQUEST: 64 to 256 bytes in steps of 64, aligned, with byte enables, to HBM4E or a staging area. The bytes performed count for
the sender's tag; tag 0 is none (notes/assumptions/14.md). -/
def execWriteRequest (src tag addr : Nat) (bytes : List Byte) (enable : List Bool) (s : State) :
    Host.Outcome State Fault Refusal :=
  let n := bytes.length
  let ok := n % 64 == 0 && decide (64 ≤ n) && decide (n ≤ 256) && enable.length == n && addr % 64 == 0
  .next (match ok, inHbm addr n, Config.stagingDie addr with
    | true, true, _ =>
      let cells := enabled addr bytes enable
      let s := send (s.store cells) (.writeDone src tag true)
      if tag = 0 then s
      else trySignal (modTag (openTag s src tag) src tag (·.count (cells.map (·.1)))) src tag
    | true, false, some die =>
      let cells := ((cellsAt addr bytes).zip enable).filterMap fun p => if p.2 then some p.1 else none
      send (stageBytes s (die % 4) cells) (.writeDone src tag true)
    | _, _, _ => send s (.writeDone src tag false))

/-- The new value of an inbound atomic (21 R391). -/
def fabNew (op : FabAtom) (old v cmp : Word) : Word :=
  match op with
  | .add => (atomNew .addS32 old v).1
  | .minS => (atomNew .minS32 old v).1
  | .maxS => (atomNew .maxS32 old v).1
  | .minN => (atomNew .minN32 old v).1
  | .maxN => (atomNew .maxN32 old v).1
  | .and => (atomNew .and old v).1
  | .or => (atomNew .or old v).1
  | .xor => (atomNew .xor old v).1
  | .exch => (atomNew .exch old v).1
  | .cas => if old = cmp then v else old
  | .addF32 => (atomNew .addF32 old v).1
  | .other => old

/-- ATOMIC_REQUEST: an operation that is not listed receives an error completion (21 R391). One word, read and written
indivisibly; a poisoned word is not updated (18 R381). -/
def execAtomicRequest (src tag addr : Nat) (op : FabAtom) (v cmp : Word) (s : State) : Host.Outcome State Fault Refusal :=
  let a := hbmAddr addr
  let ok := op != .other && addr % 4 == 0 && inHbm addr 4 && !s.anyPoison a 4
  .next (if ok then
    let old := s.word32 a
    send (s.store (valueAt a 4 (fabNew op old v cmp).toNat)) (.atomicDone src tag true old)
  else send s (.atomicDone src tag false 0))

/-! ### Signals (21 R394) -/

/-- SIGNAL: the trailer of a CPYP; one whose tag has added is acknowledged without a second add, and one that finds no room
receives an error completion. -/
def execSignal (src tag count addr : Nat) (s : State) : Host.Outcome State Fault Refusal :=
  let s := openTag s src tag
  .next (match s.sigTags.find? fun t => t.src == src && t.tag == tag with
    | none => send s (.trailerDone src tag false)
    | some t =>
      if t.added then send s (.trailerDone src tag true)
      else trySignal (modTag s src tag fun t => { t with addr := addr, want := some count }) src tag)

/-- SIGNAL_TAG_TIMEOUT: a tag whose trailer waits is dropped with an error completion; no add is performed. -/
def execSignalTagTimeout (src tag : Nat) (s : State) : Host.Outcome State Fault Refusal :=
  .next (match s.sigTags.find? fun t => t.src == src && t.tag == tag with
    | some t =>
      if t.want.isSome && !t.added then send { s with sigTags := s.sigTags.erase t } (.trailerDone src tag false) else s
    | none => s)

/-! ### Completions (21 R391, R393) -/

/-- An outstanding request. -/
def State.req? (s : State) (id : Nat) : Option Req := s.reqs.find? fun q => q.id == id

/-- Take a request off the list. -/
def dropReq (s : State) (id : Nat) : State := { s with reqs := s.reqs.filter fun q => q.id != id }

/-- The operation waits for this request. A copy or job that has been abandoned waits for none. -/
def awaits (s : State) (q : Req) : Bool := suspOf s q.who == some (.fabric q.id)

/-- A request has failed for good (21 R393). -/
def reqFails (s : State) (q : Req) : State :=
  let s := dropReq s q.id
  if awaits s q then
    let s := unreachable s q.who q.dest q.page
    if engFailed s q.who then settleAhead s q.who q.dest else s
  else s

/-- A completion for a request: on success the operation takes it and goes on, on an error it fails; a late one is discarded
(21 R393). -/
def reqCompletes (s : State) (id : Nat) (fits : ReqKind → Bool) (ok : Bool) (f : ReqKind → Eng → Eng) : State :=
  match s.req? id with
  | none => s
  | some q =>
    if !fits q.kind then s
    else if !ok then reqFails s q
    else
      let s := dropReq s id
      if awaits s q then s.modEng q.who fun e => { f q.kind e with susp := .none } else s

/-- READ_COMPLETION: the bytes go to the operation that asked for them. -/
def execReadCompletion (req : Nat) (ok : Bool) (bytes : List Byte) (s : State) : Host.Outcome State Fault Refusal :=
  .next (reqCompletes s req
    (fun k => match k with
      | .read _ n => bytes.length == n || !ok
      | _ => false) ok
    fun k e => match k with
      | .read a _ => { e with got := e.got ++ cellsAt a bytes }
      | _ => e)

/-- WRITE_COMPLETION: the bytes of the request have arrived; a CPYP that signals keeps which (21 R394). -/
def execWriteCompletion (req : Nat) (ok : Bool) (s : State) : Host.Outcome State Fault Refusal :=
  .next (reqCompletes s req
    (fun k => match k with
      | .write .. => true
      | _ => false) ok
    fun k e => match k with
      | .write tag l =>
        let out := e.out.filter fun c => !l.contains c
        let new := if tag = 0 then [] else (l.map (·.1)).eraseDups.filter fun a => !e.acked.contains a
        { e with out := out, got := if out.isEmpty then [] else e.got, acked := new ++ e.acked }
      | _ => e)

/-- ATOMIC_COMPLETION: the old word goes to the operation that asked. -/
def execAtomicCompletion (req : Nat) (ok : Bool) (old : Word) (s : State) : Host.Outcome State Fault Refusal :=
  .next (reqCompletes s req
    (fun k => match k with
      | .atomic .. => true
      | _ => false) ok
    fun k e => match k with
      | .atomic _ a _ => { e with got := e.got ++ cellsAt a (leBytes 4 old.toNat) }
      | _ => e)

/-- TRAILER_COMPLETION (21 R394): the CPYP completes, or fails at its signal. -/
def execTrailerCompletion (req : Nat) (ok : Bool) (s : State) : Host.Outcome State Fault Refusal :=
  .next (match s.req? req with
    | none => s
    | some q =>
      match q.kind, q.who with
      | .trailer .., .copy core id =>
        if !ok then reqFails s q
        else if awaits s q then
          retireCore (completeCopy (dropReq s req) core id) core
        else dropReq s req
      | _, _ => s)

/-! ### Time-outs and ports (21 R390, R392, R393) -/

/-- The peer address a request is hashed by. -/
def ReqKind.addr : ReqKind → Nat
  | .read a _ => a
  | .write _ l => (l.head?.map (·.1)).getD 0
  | .atomic _ a _ => a
  | .trailer _ a _ => a

/-- A request that time or its port has failed: sent once more on another port of the mask, or it fails (21 R393). -/
def resendOrFail (s : State) (q : Req) : State :=
  if q.resent then reqFails s q
  else
    match otherPort (portsTo s (EngRef.die q.who) q.dev) q.port q.kind.addr with
    | none => reqFails s q
    | some p =>
      if portUp s p then
        send { s with reqs := s.reqs.map fun x => if x.id == q.id then { x with port := p, resent := true } else x }
          (.request q.id q.dev p q.kind)
      else reqFails s q

/-- FABRIC_REQUEST_TIMEOUT. -/
def execFabricRequestTimeout (req : Nat) (s : State) : Host.Outcome State Fault Refusal :=
  .next (match s.req? req with
    | some q => resendOrFail s q
    | none => s)

/-- PORT_LANE_FAILURE (21 R390): the port retrains at two lanes or one and loses nothing, or goes down with its requests. -/
def execPortLaneFailure (port lanes : Nat) (s : State) : Host.Outcome State Fault Refusal :=
  .next (if port < 48 ∧ lanes < s.ports.getD port 0 ∧ lanes ≤ 2 then
    let s := { s with ports := setAt s.ports port lanes }
    if lanes = 0 then (s.reqs.filter fun q => q.port == port).foldl resendOrFail s else s
  else s)

/-- PORT_COME_UP (21 R390, R392). -/
def execPortComeUp (port lanes : Nat) (s : State) : Host.Outcome State Fault Refusal :=
  .next (if port < 48 ∧ s.ports.getD port 0 < lanes ∧ (lanes = 1 ∨ lanes = 2 ∨ lanes = 4) then
    { s with ports := setAt s.ports port lanes }
  else s)

end Sys2Proof.Machine
end

