-- ==== Sys2Proof/Machine/Ending.lean ====
section
/-! DEFINITION. The distributor's accesses to main memory, completion records, and the end of a launch (17 R350 to R352, R365 to
R367, R438, R440). -/

namespace Sys2Proof.Machine

open Sys2Proof

/-! ### The distributor's accesses (17 R438) -/

/-- The outcome of an access of the distributor: the flat address of each byte, a write held under write-block, a failure. -/
inductive Dist_ where
  | ok (flats : List Nat)
  | held
  | failed
deriving DecidableEq, Repr

/-- Translate pieces of a range in the launch's world, through die 0's cache. -/
def distReach (sec write : Bool) : List (Nat × Nat) → State → State × Dist_
  | [], s => (s, .ok [])
  | p :: ps, s =>
    match translateNow s 0 sec write p.1 with
    | (s, .ok a) =>
      match distReach sec write ps s with
      | (s, .ok l) => (s, .ok ((List.range p.2).map (a + ·) ++ l))
      | r => r
    | (s, .held _) => (s, .held)
    | (s, _) => (s, .failed)

/-- Read bytes of main memory; `none` where a translation fails or a byte is poisoned. -/
def distRead (s : State) (sec : Bool) (va n : Nat) : State × Option (List Byte) :=
  match distReach sec false (piecesOf va n) s with
  | (s, .ok l) => (s, if l.any s.poisoned then none else some (l.map s.byte))
  | (s, _) => (s, none)

/-- The byte lies in a unit that is lost (18 R382). -/
def inLost (s : State) (a : Nat) : Bool := s.lost.any fun u => unitHolds u a

/-- Write bytes of main memory, if the access does not fail. -/
def distWrite (s : State) (sec : Bool) (va : Nat) (bs : List Byte) : State × Dist_ :=
  match distReach sec true (piecesOf va bs.length) s with
  | (s, .ok l) => if l.any (inLost s) then (s, .failed) else (s.store (l.zip bs), .ok l)
  | r => r

/-! ### The completion record (17 R350, R440) -/

/-- A completion that cannot be written is counted and named (17 R440). -/
def lostCompletion (s : State) (corr status : Nat) : State :=
  { s with dist := { s.dist with
      compLost := if s.dist.compLost = 0xFFFFFFFF#32 then s.dist.compLost else s.dist.compLost + 1
      compLostLo := word corr, compLostHi := word (corr / 2 ^ 32), compLostSt := word (status % 2 ^ 16) } }

/-- How a grid ended: completed, where nothing ended it early. -/
def Grid.outcome (g : Grid) : Final := g.final.getD ⟨0, 0, 0, 0, 0, [], 0⟩

/-- The 32 words of a completion record. -/
def Grid.record (g : Grid) : List Word :=
  let f := g.outcome
  [word (f.status % 2 ^ 16 + 2 ^ 31), word f.detail] ++ words64 g.corr ++ words64 (g.start.getD 0) ++ words64 g.endTime ++
  words64 g.energy ++ [word (f.core + f.slot * 2 ^ 8 + f.sub * 2 ^ 16), 0] ++
  (f.record ++ List.replicate (8 - f.record.length) 0) ++ List.replicate 12 0

/-- A launch leaves the distributor: its image, reservations, collective groups and invariant-cache lines go with it
(15 R318; 23 R416). -/
def dropGrid (s : State) (corr : Nat) : State :=
  { s with
    grids := s.grids.filter fun g => g.corr != corr
    reserv := s.reserv.filter fun r => r.corr != corr
    cores := s.cores.map fun (c : Core) => { c with inv := c.inv.filter fun l => l.1 != corr }
    dies := s.dies.map fun (d : Die) => { d with
      colls := d.colls.filter fun c => c.corr != corr
      epochs := d.epochs.filter fun e => e.corr != corr
      streams := d.streams.filter fun x => x.corr != corr } }

/-- The launch's windows are freed, and then the completion record is written, the last action of the launch (17 R349, R366), once the
energy of every interval in which it ran has been shared (24 R426). One that write-block holds is tried again until it has been held
for WBHOLD (17 R438). -/
def completeGrid (s : State) (corr : Nat) : State :=
  match s.grid? corr with
  | none => s
  | some g =>
    let g := if g.endTime = 0 then { g with endTime := s.ns, windows := [] } else g
    let s := s.setGrid g
    if s.meter.any fun h => h.corr == corr then s
    else match distWrite s g.l.secure g.l.compAddr (wordBytes g.record) with
    | (s, .ok _) => dropGrid s corr
    | (s, .held) =>
      if g.endTime + s.times.wbHold * 1000 ≤ s.ns then dropGrid (lostCompletion s corr g.outcome.status) corr else s
    | (s, .failed) => dropGrid (lostCompletion s corr g.outcome.status) corr

/-! ### Stopping a grid that ends early (17 R365) -/

/-- The uids of a launch's teams. -/
def teamsOf (s : State) (corr : Nat) : List Nat := (s.teams.filter fun t => t.corr == corr).map (·.uid)

/-- Cancel a job of a grid that ends (09 R250; 12 R309; 21 R400). A started replay runs to its end; one that waits for a handler
that the ended grid no longer has is cancelled (17 R365). -/
def stopJob (s : State) (die : Nat) (j : Job) : State :=
  if j.finished then s
  else if j.kind = 4 ∧ j.collOp ≠ 0 then
    match s.coll? die j.gid j.epoch with
    | some _ => s
    | none => completeJob s die j.idx 5
  else if j.st = .queued then completeJob s die j.idx 5
  else if j.kind = 4 then dropForm s die j 5
  else if j.kind = 1 then completeJob (dropWalker s die j.idx) die j.idx 5
  else if j.kind = 0 then (match j.susp with
    | .effect _ _ => completeJob s die j.idx 5
    | .held _ true => completeJob s die j.idx 5
    | _ => s)
  else s.modJob die j.idx fun x => { x with canh := true }

/-- Cancel the jobs of a grid, and tell its collective groups that it ends. -/
def stopJobs (s : State) (corr : Nat) : State :=
  (List.range 4).foldl (fun s d =>
    let s := ((s.die d).colls.filter fun c => c.corr == corr && !c.told.contains 5).foldl (fun s c => propose s d c.gid c.epoch 5) s
    ((s.die d).jobs.filter fun j => j.corr == corr).foldl (fun s j => stopJob s d j) s) s

/-- Abandon the copies of a grid at boundaries of their blocks, and discard its queued array entries (17 R365). -/
def stopEngines (s : State) (corr : Nat) : State :=
  let ts := teamsOf s corr
  (List.range 192).foldl (fun s c =>
    let s := s.modCore c fun x =>
      let gone := (x.mq.filter fun e => ts.contains e.team).map (·.id)
      { x with mq := x.mq.filter fun e => !ts.contains e.team, derivs := x.derivs.filter fun d => !gone.contains d.entry }
    ((s.core c).copies.filter fun y => y.corr == corr && y.rests).foldl (fun s y =>
      (flushCounted s (dieOf c) y.counted).dropCopy c y.id) s) s

/-- What the grid's groups had issued has finished: long-latency instructions, stores, the array entry in flight and the
applications it owes, the blocks of its copies. -/
def stopped (s : State) (corr : Nat) : Bool :=
  let ts := teamsOf s corr
  (s.groups.all fun g => !ts.contains g.team || (g.pend.isEmpty && g.queue.isEmpty && !aloft s g.key)) &&
  s.cores.all fun c => (c.running.all fun r => !ts.contains r.entry.team) && (c.apps.all fun a => !ts.contains a.entry.team) &&
    c.copies.all fun y => y.corr != corr

/-- The cores and slots of a list of teams are an owner's (01 R33). -/
def ownedBy (ts : List Team) (core : Nat) (o : Own) : Bool :=
  ts.any fun t => t.core == core && decide (t.first ≤ o.slot) && decide (o.slot < t.first + t.slots)

/-- A half, a bank or a tag of a core once a grid's groups are gone (17 R365: freed without settlement stalls). -/
def freeCore (ts : List Team) (i : Nat) (c : Core) : Core :=
  let uids := ts.map (·.uid)
  let mine := ownedBy ts i
  let gone := (List.range 16).filter fun k => (c.tag k).st != .free && uids.contains (c.tag k).team
  { c with
    halves := c.halves.map fun (h : Option Own) => (if (h.map mine).getD false then none else h)
    banks := c.banks.map fun (b : Bank) => (if (b.owner.map mine).getD false then ⟨none, none⟩ else b)
    stamps := c.stamps.filter fun st => !((c.bank st.bank).owner.map mine).getD false
    tags := c.tags.mapIdx fun k (t : LTag) => (if gone.contains k then LTag.reset else t)
    derivs := c.derivs.filter fun d => !gone.contains d.tag }

/-- Free everything the teams of a grid hold. -/
def freeTeams (s : State) (corr : Nat) : State :=
  let ts := s.teams.filter fun t => t.corr == corr
  let uids := ts.map (·.uid)
  { s with
    cores := s.cores.mapIdx (freeCore ts)
    groups := s.groups.filter fun g => !uids.contains g.team
    teams := s.teams.filter fun t => t.corr != corr }

/-- The jobs of a launch have finished, and leave the tables with it. -/
def jobsDone (s : State) (corr : Nat) : Bool := s.dies.all fun d => d.jobs.all fun j => j.corr != corr || j.finished

/-- Take the jobs of a launch out of the tables. -/
def dropJobs (s : State) (corr : Nat) : State :=
  { s with dies := s.dies.map fun (d : Die) => { d with jobs := d.jobs.filter fun j => j.corr != corr } }

/-- Every team of the launch has been placed (17 R343). -/
def Grid.allPlaced (g : Grid) : Bool :=
  if g.l.mapped then g.todo.isEmpty else decide (g.l.gx * g.l.gy * g.l.gz ≤ g.next)

/-- A grid that ends early stops step by step, and completes once nothing of it is in flight (17 R365, R366). -/
def serveEnding (s : State) (corr : Nat) : State :=
  let s := stopEngines (stopJobs s corr) corr
  if stopped s corr then
    let s := freeTeams s corr
    if jobsDone s corr then completeGrid (dropJobs s corr) corr else s
  else s

/-- GRID_COMPLETION (17 R350, R365, R366). -/
def execGridCompletion (corr : Nat) (s : State) : Host.Outcome State Fault Refusal :=
  .next (match s.grid? corr with
    | none => s
    | some g =>
      match g.phase with
      | .live =>
        if g.allPlaced && !(s.teams.any fun t => t.corr == corr) && jobsDone s corr then completeGrid (dropJobs s corr) corr else s
      | .ending => serveEnding s corr
      | _ => s)

/-! ### CANCEL (17 R345, R367; 25 R430) -/

/-- The status of a cancelled launch. -/
def cancelled (s : State) : Final := ⟨0x2000, 0, 0, 0, 0, [], s.ns⟩

/-- Cancel a launch the distributor holds: one that has not started runs nothing, a running one ends, a saved one ends without a
restore (17 R345, R364, R367). -/
def cancelGrid (s : State) (corr : Nat) : State := endGrid s corr (cancelled s)

/-- The record of a number modulo 2^56 has not been read from the queue yet (17 R342; 25 R430). -/
def Queue.waiting (q : Queue) (n : Nat) : Bool :=
  decide ((n + 2 ^ 56 - q.served % 2 ^ 56) % 2 ^ 56 < (q.tail + q.size - q.head) % q.size)

/-- CANCEL: the high word completes the number with the low word last written; one that names no launch of the queue is ignored
(25 R430). -/
def execCancel (q : Nat) (hi : Word) (s : State) : Host.Outcome State Fault Refusal :=
  .next (match s.queues[q]? with
    | none => s
    | some x =>
      let corr := hi.toNat * 2 ^ 32 + x.cancelLo.toNat
      if corr / 2 ^ 56 ≠ q then s
      else if (s.grid? corr).isSome then cancelGrid s corr
      else if x.waiting (corr % 2 ^ 56) then
        { s with queues := s.queues.set q { x with cancels := corr % 2 ^ 56 :: x.cancels } }
      else s)

end Sys2Proof.Machine
end

