-- ==== Sys2Proof/Machine/Start.lean ====
section
/-! DEFINITION. Teams and groups as they start (01 R12, R16, R31, R38, R39; 23 R415), and what stands ready for a test of one
word (State.withFetchWord). -/

namespace Sys2Proof.Machine

open Sys2Proof

/-- The per-group items at start: s0 to s3 hold the launch's argument words (01 R12, R16). -/
def Items.start (args : List Word) : Items where
  sregs := (List.range 28).map fun i => if i < 4 then args.getD i 0 else 0
  x := 0
  winBase := 0
  handles := List.replicate 16 0
  tokens := List.replicate 4 0
  frames := []
  fflags := 0
  csn := 0
  callHt := 0
  lastBatch := 0
  traceOn := true
  stampOn := true

/-- A physical register at start: zero, live, identity (01 R12). -/
def VReg.start (code : Nat) : VReg := ⟨List.replicate (widthOf code) 0, 0, LaneMap.ident code, true⟩

/-- A group at start (01 R12, R39; 23 R415). `threads` are the launched lanes; the others are exited from the start. -/
def Group.start (key : GKey) (team wcode parts allot born : Nat) (args : List Word) (threads : Mask) : Group where
  key := key
  team := team
  wcode := wcode
  parts := parts
  allot := allot
  born := born
  regs := List.replicate allot (VReg.start wcode)
  preds := List.replicate 7 0
  it := Items.start args
  hidden := List.replicate (widthOf wcode / 32 - 1) (Items.start args)
  lanes := (List.range (widthOf wcode)).map fun t => ⟨.header 0, 0, if has threads t then .run else .exited, 0⟩
  never := maskOf (widthOf wcode) fun t => !has threads t
  cur := none
  loop := none
  pend := []
  queue := []
  late := []
  ctxs := []
  stale := []
  yielded := 0
  halted := false
  bpSkip := none
  issued := 0
  kept := 0
  waited := 0
  lastNs := born

/-- The barrier registers of a team of some slots at start (01 R31; 08 R222). -/
def Bar.start (slots : Nat) : Bar := ⟨BitVec.ofNat 12 slots, 0, false, true, []⟩

/-- A launch with every field at zero but the width of one thread. -/
def Launch.plain : Launch where
  code := 0
  gx := 1
  gy := 1
  gz := 1
  teamSize := 1
  wcode := 2
  allot := 32
  shBytes := 4096
  threads := 32
  prefRows := 1
  prefCols := 1
  fallRows := 1
  fallCols := 1
  ceiling := 0
  mapped := false
  traced := false
  secure := false
  serial := false
  window := 1
  dies := 1
  dataCount := 0
  mapAddr := 0
  dataAddr := 0
  compAddr := 0
  args := [0, 0, 0, 0]

/-- A launch that is running, with its window at the bottom of die 0's scratchpad. -/
def Grid.plain (corr : Nat) : Grid where
  corr := corr
  l := Launch.plain
  prio := 0
  phase := .live
  image := 0
  imgLen := 0
  walker := []
  resid := 1
  demandH := 0
  demandB := 0
  map := []
  place := []
  windows := [(0, 0)]
  next := 1
  todo := []
  waitFrom := 0
  teamsDone := 0
  placedAny := true
  fallback := false
  start := none
  endTime := 0
  energy := 0
  final := none
  saved := []
  bp := false
  walkers := []
  haltTime := 0

/-- A team of one slot on core 0. -/
def Team.plain (uid corr : Nat) : Team where
  uid := uid
  corr := corr
  num := 0
  x := 0
  y := 0
  z := 0
  core := 0
  first := 0
  slots := 1
  threads := 32
  cluBase := 0
  cluRank := 0
  cluRows := 1
  cluCols := 1
  bars := List.replicate 16 (Bar.start 1)
  layouts := List.replicate 16 none
  shBase := 0
  shSize := 4096
  saved := false
  held := []

/-- The name of the group that a fetch word is given to: core 0, slot 0. -/
def probeKey : GKey := ⟨0, 0, 0⟩

/-- A clause of one word, with zero words after it for its operand words. -/
def probeClause (w : Nat) : Clause := ⟨0, [BitVec.ofNat 32 w, 0, 0], 0, 15, 15, false⟩

/-- A group that stands at a word. -/
def probeGroup (w : Nat) : Group :=
  { Group.start probeKey 0 2 1 32 0 [0, 0, 0, 0] (ones 32) with
    cur := some ⟨probeClause w, 0, ones 32, .fresh⟩ }

/-- A walker job that stands at a word. -/
def probeWalker (w : Nat) : Walker := ⟨0, List.replicate 16 0, 0, none, 0, 0, leBytes 4 w⟩

/-- The job of that walker, as its ENQ entered it. -/
def probeJob : Job where
  idx := 0
  gen := 0
  seq := 0
  kind := 1
  st := .started
  key := probeKey
  own := ⟨0, 0, 0⟩
  team := 0
  corr := 0
  pc := 0
  csn := 0
  mark := ⟨0, true⟩
  card := List.replicate 8 0
  arrive := none
  reads := []
  writes := []
  desc := []
  bad := false
  at_ := 0
  mv := none
  wrote := 0
  took := 0
  taken := none
  back := []
  bins := []
  counts := []
  num := 0
  canh := false
  keep := true
  wide := []
  ff := 0
  flags := 0
  susp := .none
  skips := []
  counted := []
  got := []
  put := []
  outVa := 0
  acked := []
  out := []

/-- The state in which the next step runs one instruction word (notes/assumptions/2.md): a launch, a team and a group that
stands at the word, or a walker job for a word that only the walker's decoder reads. Numbers of the model's own entries start
at 1, so that 0 names these. -/
def withWord (s : State) (w : Nat) : State :=
  let s := { s with grids := Grid.plain 0 :: s.grids, teams := Team.plain 0 0 :: s.teams }
  match decodeWord w with
  | .ok _ => { s with groups := probeGroup w :: s.groups.filter (fun g => g.key != probeKey), agenda := [.group probeKey] }
  | .error _ =>
    let s := s.modDie 0 fun d => { d with jobs := probeJob :: d.jobs.filter fun j => j.idx != 0 }
    { (s.modCore 0 fun c => { c with walker := some (probeWalker w) }) with agenda := [.walker 0] }

end Sys2Proof.Machine
end

