-- ==== Sys2Proof/Machine/Loader.lean ====
section
/-! DEFINITION. Submission queues, launch records and the loader (17 R342 to R348, R349, R351, R353, R354, R438; 23 R407 to
R414, R416). -/

namespace Sys2Proof.Machine

open Sys2Proof

/-! ### Launch records (17 R346) -/

/-- The fields of a launch record. -/
def launchOf (b : List Byte) : Launch where
  code := fieldAt b 0 8
  gx := fieldAt b 8 4
  gy := fieldAt b 12 4
  gz := fieldAt b 16 4
  teamSize := fieldAt b 20 2
  wcode := fieldAt b 22 1
  allot := 32 * fieldAt b 23 1
  shBytes := fieldAt b 24 4
  threads := fieldAt b 28 4
  prefRows := fieldAt b 32 1 / 16
  prefCols := fieldAt b 32 1 % 16
  fallRows := fieldAt b 33 1 / 16
  fallCols := fieldAt b 33 1 % 16
  ceiling := fieldAt b 34 1 % 8
  mapped := fieldAt b 35 1 % 2 == 1
  traced := fieldAt b 35 1 / 2 % 2 == 1
  secure := fieldAt b 35 1 / 4 % 2 == 1
  serial := fieldAt b 35 1 / 8 % 2 == 1
  window := fieldAt b 36 4
  dies := if fieldAt b 40 4 = 0 then 15 else fieldAt b 40 4
  dataCount := fieldAt b 44 2
  mapAddr := fieldAt b 48 8
  dataAddr := fieldAt b 56 8
  compAddr := fieldAt b 64 8
  args := (List.range 4).map fun i => word (fieldAt b (80 + 4 * i) 4)

/-- The teams of a grid. -/
def Launch.teams (l : Launch) : Nat := l.gx * l.gy * l.gz

/-- The lanes of a group as launched. -/
def Launch.width (l : Launch) : Nat := widthOf (min l.wcode 4)

/-- The slots of a team (17 R353). -/
def Launch.slots (l : Launch) : Nat := (l.teamSize * l.width + 31) / 32

/-- The limits of a launch record, by offset of the field (17 R346). The cluster shapes have a status of their own. -/
def recordBreaks (b : List Byte) : List (Nat × Bool) :=
  let l := launchOf b
  [(0, decide (2 ^ 57 ≤ l.code)),
   (8, l.gx == 0 || decide (2 ^ 24 < l.teams)),
   (12, l.gy == 0), (16, l.gz == 0),
   (20, l.teamSize == 0 || decide (256 < l.slots)),
   (22, decide (4 < l.wcode)),
   (23, l.allot == 0 || decide (512 < l.allot)),
   (24, decide (2 ^ 20 < l.shBytes)),
   (28, l.threads == 0 || decide (l.teamSize * l.width < l.threads)),
   (34, decide (8 ≤ fieldAt b 34 1)), (35, decide (16 ≤ fieldAt b 35 1)),
   (36, l.window == 0 || decide (1856 < l.window)),
   (40, decide (16 ≤ fieldAt b 40 4)),
   (44, decide (64 < l.dataCount)), (46, !zeroAt b 46 2),
   (64, l.compAddr % 64 != 0), (72, !zeroAt b 72 8), (96, !zeroAt b 96 32)]

/-- A cluster shape keeps its limits. -/
def shapeOk (rows cols : Nat) : Bool := decide (1 ≤ rows ∧ rows ≤ 6 ∧ 1 ≤ cols ∧ cols ≤ 8 ∧ rows * cols ≤ 12)

/-- The detail of illegal cluster shapes: the field at fault; a team count that is no multiple names the grid's extent
(17 R346, R350, R351). -/
def shapeBreak (l : Launch) : Option Nat :=
  if !shapeOk l.prefRows l.prefCols then some 32
  else if !shapeOk l.fallRows l.fallCols || l.prefRows * l.prefCols % (l.fallRows * l.fallCols) != 0 then some 33
  else if l.teams % (l.prefRows * l.prefCols) != 0 then some 8
  else none

/-! ### Code objects (23 R407 to R410) -/

/-- What the loader takes from a code object: the kernel's entry, its scalar code if it has one of this generation, its walker
code, the data blocks, the cross-reference section, the loop-level and tile-level sections, and where its scalar code starts. -/
structure Object where
  entry  : List Byte
  code   : Option (List Byte)
  walker : List Byte
  blocks : List (List Byte)
  xref   : List Byte
  loops  : List Byte
  tiles  : List Byte
  codeAt : Nat

/-- The detail word of an object that is refused: 0x8000_0000 plus the offset at fault (23 R411). -/
def objectAt (o : Nat) : Nat := 2 ^ 31 + o

/-- The offset of the first byte at or after `o` that differs from those expected. -/
def firstDiff : Nat → List Byte → List Byte → Option Nat
  | o, b :: bs, e :: es => if b = e then firstDiff (o + 1) bs es else some o
  | _, _, _ => none

/-- The first offending byte of a header (23 R407). -/
def headerBreak (h : List Byte) : Option Nat :=
  let n := fieldAt h 8 4
  (firstDiff 0 h (leBytes 4 0x4F504D55)).orElse fun _ =>
  (firstDiff 4 (h.drop 4) (leBytes 2 1)).orElse fun _ =>
  if n = 0 ∨ 32 < n then some 8
  else if fieldAt h 16 8 < 64 + 16 * n ∨ 2 ^ 32 ≤ fieldAt h 16 8 then some 16
  else firstDiff 24 (h.drop 24) (List.replicate 40 0)

/-- A section (23 R408). -/
structure Section where
  kind : Nat
  off  : Nat
  size : Nat

/-- The first offending field of a section entry, given the sections before it (23 R408): the walker code is at most 64 KiB, the
kernel table holds whole entries. -/
def sectionBreak (total n i : Nat) (e : List Byte) (seen : List Section) : Option Nat :=
  let o := 64 + 16 * i
  let kind := fieldAt e 0 1
  let off := fieldAt e 4 4
  let size := fieldAt e 8 4
  if kind = 0 ∨ 8 < kind ∨ seen.any (fun x => x.kind == kind) then some o
  else if fieldAt e 1 1 ≠ (if 2 ≤ kind ∧ kind ≤ 4 then 1 else 0) then some (o + 1)
  else if !zeroAt e 2 2 then some (o + 2)
  else if off % 64 ≠ 0 ∨ off < 64 + 16 * n ∨ total < off + size ∨
      seen.any (fun x => decide (off < x.off + x.size) && decide (x.off < off + size)) then some (o + 4)
  else if (kind = 7 ∧ 2 ^ 16 < size) ∨ (kind = 1 ∧ size % 64 ≠ 0) then some (o + 8)
  else if !zeroAt e 12 4 then some (o + 12)
  else none

/-- The sections of an object, or the offset at fault. -/
def sectionsOf (obj : List Byte) (total n : Nat) : Except Nat (List Section) :=
  (List.range n).foldl (fun acc i =>
    match acc with
    | .error o => .error o
    | .ok l =>
      let e := (obj.drop (64 + 16 * i)).take 16
      match sectionBreak total n i e l with
      | some o => .error o
      | none => .ok (l ++ [⟨fieldAt e 0 1, fieldAt e 4 4, fieldAt e 8 4⟩])) (.ok [])

/-- The section of a kind. -/
def sectionOf (l : List Section) (k : Nat) : Option Section := l.find? fun x => x.kind == k

/-- The bytes of the section of a kind. -/
def sectionBytes (obj : List Byte) (l : List Section) (k : Nat) : List Byte :=
  match sectionOf l k with
  | some x => (obj.drop x.off).take x.size
  | none => []

/-- The first offending byte within the cross-reference section (23 R408): its entries of 8 bytes are whole, in increasing clause
offset. -/
def crossBreak (obj : List Byte) (n : Nat) (l : List Section) : Option Nat :=
  (sectionOf l 5).bind fun x =>
    let d := (obj.drop x.off).take x.size
    if x.size % 8 ≠ 0 then ((List.range n).find? fun i => fieldAt obj (64 + 16 * i) 1 == 5).map (64 + 16 * · + 8)
    else (((List.range (x.size / 8)).drop 1).find? fun i => decide (fieldAt d (8 * i) 4 ≤ fieldAt d (8 * i - 8) 4)).map (x.off + 8 * ·)

/-- The data blocks of an object, or the offset at fault (23 R408). -/
def dataBlocks (obj : List Byte) (total : Nat) (l : List Section) : Except Nat (List (List Byte)) :=
  match sectionOf l 6 with
  | none => .ok []
  | some x =>
    let d := (obj.drop x.off).take x.size
    if x.size < 4 then .error x.off
    else (List.range (min (fieldAt d 0 4) (x.size + 1))).foldl (fun acc k =>
      match acc with
      | .error o => .error o
      | .ok bs =>
        let o := fieldAt d (4 + 8 * k) 4
        let n := fieldAt d (8 + 8 * k) 4
        if x.size < 12 + 8 * k ∨ total < o + n then .error (x.off + 4 + 8 * k) else .ok (bs ++ [(obj.drop o).take n])) (.ok [])

/-- CRC-32C of bytes, from all ones and inverted at the end (23 R407; 09 R254). -/
def crc32c (bs : List Byte) : Word := ~~~(bs.foldl crcByte 0xFFFFFFFF#32)

/-- What a kernel of an object gives, or the offset of the first offending byte (23 R407 to R411). `later` is the offset at which the
header breaks beyond the checksum, if it does. -/
def objectOf (obj : List Byte) (idx : Nat) (later : Option Nat) : Except Nat Object :=
  let total := fieldAt obj 16 8
  let n := fieldAt obj 8 4
  if (crc32c (obj.drop 64)).toNat ≠ fieldAt obj 12 4 then .error 12
  else
    match later, sectionsOf obj total n with
    | some o, _ => .error o
    | _, .error o => .error o
    | _, .ok l =>
      match sectionOf l 1, crossBreak obj n l, dataBlocks obj total l with
      | none, _, _ => .error 64
      | _, some o, .error p => .error (min o p)
      | _, some o, .ok _ => .error o
      | _, none, .error o => .error o
      | some k, none, .ok bs =>
        if k.size < 64 * idx + 64 then .error (k.off + k.size)
        else
          let e := (obj.drop (k.off + 64 * idx)).take 64
          let sc := sectionBytes obj l 2
          let off := fieldAt e 4 4
          let size := fieldAt e 8 4
          let scalar := off ≠ 2 ^ 32 - 1 ∧ (sectionOf l 2).isSome = true
          if scalar ∧ (sc.length < off + size ∨ size % 4 ≠ 0) then .error (k.off + 64 * idx + 4)
          else .ok ⟨e, if scalar ∧ fieldAt obj 6 2 = 3 then some ((sc.drop off).take size) else none,
                    sectionBytes obj l 7, bs, sectionBytes obj l 5, sectionBytes obj l 3, sectionBytes obj l 4, off⟩

/-- The first field of a launch record that differs from the kernel's entry (23 R410). -/
def entryBreak (l : Launch) (e : List Byte) : Option Nat :=
  if l.teamSize ≠ fieldAt e 22 2 then some 20
  else if l.wcode ≠ fieldAt e 20 1 then some 22
  else if l.allot ≠ 32 * fieldAt e 21 1 then some 23
  else if l.shBytes ≠ fieldAt e 24 4 then some 24
  else none

/-! ### What fits on a core (17 R353; 23 R411, R412) -/

/-- A size rounded up to 4 KiB. -/
def round4k (n : Nat) : Nat := (n + 4095) / 4096 * 4096

/-- The operand-half and bank demands of a kernel's entry (23 R409). -/
def demands (e : List Byte) : Nat × Nat := (fieldAt e 28 1, fieldAt e 29 1)

/-- Why no team of a shape fits an idle core, in the numbering of 23 R412: an allotment, halves and banks for a launch. -/
def unfit (l : Launch) (allot halves banks : Nat) : List Nat :=
  (if 2 ^ 21 < l.slots * 128 * allot ∨ 256 < l.slots then [1] else []) ++
  (if 64 < halves then [2] else []) ++ (if 128 < banks then [3] else []) ++
  (if 2 ^ 20 < round4k l.shBytes then [4] else [])

/-- How often a demand goes into a limit, at most 16. -/
def timesIn (limit n : Nat) : Nat := if n = 0 then 16 else limit / n

/-- The teams of a launch that fit one idle core (17 R353). -/
def coreFit (l : Launch) : Nat :=
  [timesIn 256 ((l.slots + 3) / 4 * 4), timesIn (2 ^ 21) (l.slots * 128 * l.allot), timesIn (2 ^ 20) (round4k l.shBytes)].foldl
    min 16

/-- The teams of a launch that fit one core under its half and bank demands too (23 R411). -/
def teamsFit (l : Launch) (halves banks : Nat) : Nat := min (coreFit l) (min (timesIn 64 halves) (timesIn 128 banks))

/-- The most teams of a launch that stand on one core: its residency, and what fits under its demands (23 R411). A map is obeyed
exactly, under 17 R353 alone (17 R354). -/
def Grid.residency (g : Grid) : Nat := if g.l.mapped then 16 else min g.resid (teamsFit g.l g.demandH g.demandB)

/-- What the loader settles on (23 R411): the scalar code with the allotment and the demands it is run with, and whether the
translator made it. -/
structure Chosen where
  code   : List Byte
  allot  : Nat
  halves : Nat
  banks  : Nat
  made   : Bool
deriving DecidableEq, Repr

/-- A node of a section: none without the section, or without an index (23 R408, R409). -/
def nodeAt (f : List Byte → Nat → Option LoopNode) (bytes : List Byte) (i : Nat) : Option LoopNode :=
  if i = 2 ^ 32 - 1 ∨ bytes = [] then none else f bytes i

/-- The loop node of a kernel: what its tile node lowers to, where one is present, else its own (23 R411 steps 2 and 3). -/
def Object.node (o : Object) : Option LoopNode :=
  (nodeAt Config.tileNode o.tiles (fieldAt o.entry 16 4)).orElse fun _ => nodeAt Config.loopNode o.loops (fieldAt o.entry 12 4)

/-- The re-tiling candidates of a loop node: at most 8, each with an allotment that a launch may have (23 R413). -/
def candidatesOf (n : LoopNode) : List Candidate :=
  (n.cands.take 8).filter fun c => c.allot % 32 == 0 && decide (32 ≤ c.allot) && decide (c.allot ≤ 512)

/-- The level of a kernel (23 R411): its scalar code where one team fits, else code generated from the first candidate whose team
fits, else the cause of R412, the lowest of those that apply. A format mask that names a code of 0x0D or above refuses every level
(notes/assumptions/24.md). -/
def levelOf (l : Launch) (o : Object) : Except Nat Chosen :=
  let mask := fieldAt o.entry 32 4
  let wide := decide (2 ^ 13 ≤ mask)
  let d := demands o.entry
  let own := unfit l l.allot d.1 d.2
  match own, o.code, wide with
  | [], some c, false => .ok ⟨c, l.allot, d.1, d.2, false⟩
  | _, c, _ =>
    let why := if c.isSome || o.node.isNone then own else []
    match o.node with
    | none => .error ((why ++ (if c.isNone then [5] else []) ++ (if wide then [6] else [])).foldl min 6)
    | some n =>
      let tried := (candidatesOf n).map fun k => (k, unfit l k.allot k.halves k.banks)
      match wide, tried.find? fun k => k.2.isEmpty with
      | false, some k => .ok ⟨Config.generated n k.1 (word mask), k.1.allot, k.1.halves, k.1.banks, true⟩
      | true, some _ => .error (why.foldl min 6)
      | _, none =>
        let more : List Nat := tried.foldr (fun k l => k.2 ++ l) [5]
        .error ((why ++ more).foldl min 6)

/-! ### Data placement and the map (17 R348, R354) -/

/-- A data placement entry: offset, block, die mask; `none` where it breaks its rules. -/
def placementOf (window : Nat) (blocks : List (List Byte)) (e : List Byte) : Option (Nat × List Byte × Nat) :=
  let off := fieldAt e 4 4
  match blocks[fieldAt e 0 2]? with
  | some b =>
    if zeroAt e 2 2 ∧ zeroAt e 9 7 ∧ fieldAt e 8 1 < 16 ∧ off % 64 = 0 ∧ off + b.length ≤ window then
      some (off, b, fieldAt e 8 1)
    else none
  | none => none

/-- The data placements of a launch. -/
def placements (window : Nat) (blocks : List (List Byte)) (bs : List Byte) (n : Nat) : Option (List (Nat × List Byte × Nat)) :=
  (List.range n).foldl (fun acc i => acc.bind fun l =>
    (placementOf window blocks ((bs.drop (16 * i)).take 16)).map fun p => l ++ [p]) (some [])

/-- A die of the launch's mask. -/
def Launch.mayUse (l : Launch) (die : Nat) : Bool := l.dies / 2 ^ die % 2 == 1

/-- The core at a place of a rectangle, in row-major order; a die has six rows of eight cores (17 R355). -/
def rectCore (base cols p : Nat) : Nat := base + p / cols * 8 + p % cols

/-- The rectangle with its top-left core lies within one die. -/
def rectFits (base rows cols : Nat) : Bool := decide (base < 192 ∧ base % 48 / 8 + rows ≤ 6 ∧ base % 8 + cols ≤ 8)

/-- The first team at which a placement map is illegal (17 R354). -/
def mapBreak (l : Launch) (fit : Nat) (m : List Nat) : Option Nat :=
  let size := l.prefRows * l.prefCols
  (List.range l.teams).find? fun i =>
    let c := m.getD i 0
    let base := m.getD (i / size * size) 0
    !(decide (c < 192) && l.mayUse (dieOf c) && rectFits base l.prefRows l.prefCols && c == rectCore base l.prefCols (i % size) &&
      decide (((m.take (i + 1)).filter fun x => x == c).length ≤ fit))

/-! ### Taking a record (17 R342 to R345) -/

/-- The flat address of a queue's head record. -/
def Queue.headAt (q : Queue) : Nat := q.base + 128 * q.head

/-- The effective priority of a queue's head launch (17 R343, R346). -/
def headPrio (s : State) (q : Queue) : Nat := min ((s.byte (q.headAt + 34)).toNat % 8) q.prio

/-- The launches of a queue that the distributor holds. -/
def queueGrids (s : State) (i : Nat) : List Grid := s.grids.filter fun g => g.corr / 2 ^ 56 == i

/-- The head launch of a queue can start: the rails are on (25 R436), every earlier launch of the queue is fully placed, and has
completed for a serial record (17 R343). -/
def headStarts (s : State) (i : Nat) : Bool :=
  match s.queues[i]? with
  | none => false
  | some q =>
    let serial := (s.byte (q.headAt + 35)).toNat / 8 % 2 == 1
    s.plat.rails && q.enabled && q.head != q.tail &&
    (queueGrids s i).all fun g => !serial && (g.allPlaced || g.phase == .ending)

/-- The queue served next: the highest effective priority, then the first after the queue served last (17 R343). -/
def nextQueue (s : State) : Option Nat :=
  let l := ((List.range 32).map fun i => (s.lastQueue + 1 + i) % 32).filter (headStarts s)
  let prio := fun (i : Nat) => ((s.queues[i]?).map (headPrio s)).getD 0
  l.foldl (fun b i => match b with
    | none => some i
    | some j => if prio j < prio i then some i else some j) none

/-- A launch as the distributor first holds it. -/
def Grid.taken (corr prio now : Nat) (l : Launch) : Grid :=
  { Grid.plain corr with
    l := l, prio := prio, windows := [], next := 0, placedAny := false, waitFrom := now
    todo := if l.mapped then (List.range (l.teams / max 1 (l.prefRows * l.prefCols))).map (· * (l.prefRows * l.prefCols)) else [] }

/-- The bases of some size in a die's scratchpad that overlap no range of a list, in steps of 2 MiB. -/
def freeBase (l : List (Nat × Nat)) (n : Nat) : Option Nat :=
  ((List.range 1857).map (· * 2 ^ 21)).find? fun b =>
    decide (b + n ≤ windowLimit) && l.all fun w => decide (b + n ≤ w.1) || decide (w.1 + w.2 ≤ b)

/-- The rings in a die's scratchpad: the notification queue on die 0, the stamp ring (18 R376; 24 R424). One whose base nothing has
set takes no room (notes/assumptions/3.md). -/
def ringsOn (s : State) (die : Nat) : List (Nat × Nat) :=
  let st := (s.die die).st
  (if die = 0 ∧ s.nq.placed = true then [(s.nq.base, 16 * 2 ^ s.nq.size)] else []) ++
  if st.placed then [(st.base, 32 * 2 ^ st.size)] else []

/-- The launch's window fits an idle die that it uses: every die of its map, or some die it may use (17 R349). -/
def windowFits (s : State) (g : Grid) : Bool :=
  let ok := fun (d : Nat) => (freeBase (ringsOn s d) (g.l.window * 2 ^ 21)).isSome
  if g.l.mapped then ((g.map.map dieOf).eraseDups).all ok else (List.range 4).any fun d => g.l.mayUse d && ok d

/-- Reject a launch: its completion record is written, or it is one that waits to be (17 R350, R351). -/
def reject (s : State) (g : Grid) (status detail : Nat) : State :=
  completeGrid { s with grids := s.grids ++ [{ g with phase := .ending, final := some ⟨status, detail, 0, 0, 0, [], s.ns⟩ }] } g.corr

/-- The images of 64 MiB steps that code of some length takes with its cross-reference section, which is no longer than the code. -/
def imageUnits (n : Nat) : Nat := (2 * n + 128) / 2 ^ 26 + 1

/-- The cross-reference section of an image (23 R416): for every clause its offset and the nodes a function gives for it. -/
def crossOf (node : Nat → Nat) : Nat → Nat → List Byte → List Byte
  | 0, _, _ => []
  | fuel + 1, pc, bs =>
    if bs.length < 8 then []
    else match readH0 (word (fieldAt bs 0 4)) with
      | some h => leBytes 4 pc ++ leBytes 4 (node pc) ++ crossOf node fuel (pc + 8 + 4 * h.n) (bs.drop (8 + 4 * h.n))
      | none => []

/-- The nodes of a clause of copied scalar code, as the object's cross-reference section gives them (23 R408 kind 5); none
without an entry. -/
def nodeIn (xref : List Byte) (off : Nat) : Nat :=
  match (List.range (xref.length / 8)).find? fun i => fieldAt xref (8 * i) 4 == off with
  | some i => fieldAt xref (8 * i + 4) 4
  | none => 2 ^ 32 - 1

/-- The nodes of a clause of an image: of generated code those of the kernel's entry. -/
def nodeOf (o : Object) (made : Bool) (pc : Nat) : Nat :=
  if made then fieldAt o.entry 12 4 % 2 ^ 16 + fieldAt o.entry 16 4 % 2 ^ 16 * 2 ^ 16 else nodeIn o.xref (o.codeAt + pc)

/-- The first place for an image: the steps it takes hold no other launch's (notes/assumptions/11.md). -/
def imageSlot (s : State) (n : Nat) : Nat :=
  let taken := s.grids.flatMap fun g => (List.range (imageUnits g.imgLen)).map fun i => g.image - i
  let m := imageUnits n
  ((List.range (s.grids.length * 64 + m + 64)).find? fun k =>
    decide (m ≤ k + 1) && (List.range m).all fun i => !taken.contains (k - i)).getD 0

/-- The lines of a place for an image leave the instruction caches: an image is its grid's alone (23 R416). -/
def freshImage (s : State) (k n : Nat) : State :=
  { s with cores := s.cores.map fun (c : Core) => { c with
      icache := c.icache.filter fun l => decide (l.addr < imageBase k) || decide (imageBase k + 2 ^ 26 * imageUnits n ≤ l.addr) } }

/-- Write the image, with its cross-reference section beside it; GRIDCODE receives the image's virtual address (23 R416). -/
def putImage (s : State) (g : Grid) (code xref : List Byte) : State × Grid :=
  let k := imageSlot s code.length
  let s := freshImage s k code.length
  let s := s.store (cellsAt (hbmAddr (imageBase k)) code)
  let s := s.store (cellsAt (hbmAddr (imageBase k + (code.length + 63) / 64 * 64)) xref)
  ({ s with dist := { s.dist with gridCode := g.codeVa } }, { g with image := k, imgLen := code.length })

/-- The translations of the addresses a record names come before the checks of its object (17 R438): the first that fails. -/
def addressBreak (s : State) (l : Launch) : State × Option Nat :=
  match distRead s l.secure (l.code / 4096 * 4096) 64 with
  | (s, none) => (s, some 0)
  | (s, some _) =>
    match (if l.mapped then distRead s l.secure l.mapAddr (2 * l.teams) else (s, some [])) with
    | (s, none) => (s, some 48)
    | (s, some _) =>
      match (if l.dataCount = 0 then (s, some []) else distRead s l.secure l.dataAddr (16 * l.dataCount)) with
      | (s, none) => (s, some 56)
      | (s, some _) => (s, none)

/-- The bytes of an object, or why it is refused, by its first offending byte (23 R411): the checksum, which needs the object's size, comes
after magic, version, section count and size, and before the reserved bytes. -/
def readObject (s : State) (l : Launch) : State × Except Nat Object :=
  let base := l.code / 4096 * 4096
  match distRead s l.secure base 64 with
  | (s, none) => (s, .error 0)
  | (s, some h) =>
    let bad := headerBreak h
    if (bad.map fun o => decide (o < 24)).getD false then (s, .error (objectAt (bad.getD 0)))
    else match distRead s l.secure base (fieldAt h 16 8) with
      | (s, none) => (s, .error 0)
      | (s, some obj) => (s, match objectOf obj (l.code % 4096) bad with
          | .error o => .error (objectAt o)
          | .ok x => .ok x)

/-- The launch is accepted with its code: data placements, map and window are checked, then the image is written (17 R348, R349,
R354; 23 R411, R416). -/
def acceptLaunch (s : State) (g : Grid) (o : Object) (c : Chosen) : State :=
  let l := { g.l with allot := c.allot }
  match distRead s l.secure l.dataAddr (16 * l.dataCount) with
  | (s, none) => reject s g 0x4001 56
  | (s, some bs) =>
    match placements (l.window * 2 ^ 21) o.blocks bs l.dataCount with
    | none => reject s g 0x4001 56
    | some ps =>
      match (if l.mapped then distRead s l.secure l.mapAddr (2 * l.teams) else (s, some [])) with
      | (s, none) => reject s g 0x4001 48
      | (s, some mb) =>
        let m := (List.range (mb.length / 2)).map fun i => fieldAt mb (2 * i) 2
        match (if l.mapped then mapBreak l (coreFit l) m else none) with
        | some t => reject s g 0x4002 t
        | none =>
          let g := { g with
            l := l, walker := o.walker, resid := max 1 (fieldAt o.entry 30 1), demandH := c.halves, demandB := c.banks
            map := m, place := ps }
          if windowFits s g then
            let r := putImage s g c.code (crossOf (nodeOf o c.made) (c.code.length / 8 + 1) 0 c.code)
            { r.1 with grids := r.1.grids ++ [r.2] }
          else reject s g 0x4004 0

/-- Check a record and load its object (17 R344, R346, R438; 23 R410 to R412). -/
def loadLaunch (s : State) (q : Queue) (g : Grid) (b : List Byte) : State :=
  let l := g.l
  match (recordBreaks b).find? (·.2) with
  | some p => reject s g 0x4001 p.1
  | none =>
    if (launchOf b).secure && !q.secure then reject s g 0x4006 35
    else match addressBreak s l with
      | (s, some o) => reject s g 0x4001 o
      | (s, none) =>
        match readObject s l with
        | (s, .error o) => reject s g 0x4001 o
        | (s, .ok obj) =>
          match entryBreak l obj.entry, shapeBreak l with
          | some o, _ => reject s g 0x4001 o
          | none, some o => reject s g 0x4003 o
          | none, none =>
            match levelOf l obj with
            | .ok c => acceptLaunch s g obj c
            | .error d => reject s g 0x4005 d

/-- The completion record's address can be written, or waits under write-block (17 R438). -/
def compOk (s : State) (sec : Bool) (va : Nat) : State × Bool :=
  match distReach sec true (piecesOf va 128) s with
  | (s, .failed) => (s, false)
  | (s, _) => (s, true)

/-- Take the head record of a queue. -/
def takeRecord (s : State) (i : Nat) (q : Queue) : State :=
  let n := q.served % 2 ^ 56
  let corr := i * 2 ^ 56 + n
  let a := q.headAt
  let bad := s.anyPoison a 128
  let b := s.bytes a 128
  let s := { s with lastQueue := i, queues := s.queues.set i { q with
    head := (q.head + 1) % q.size, served := q.served + 1, cancels := q.cancels.filter fun k => k != n } }
  if bad then lostCompletion s corr 0x4001
  else
    let l := launchOf b
    let g := Grid.taken corr (min l.ceiling q.prio) s.ns { l with secure := l.secure && q.secure }
    match compOk s g.l.secure l.compAddr with
    | (s, false) => lostCompletion s corr (if q.cancels.contains n then 0x2000 else 0x4001)
    | (s, true) =>
      if q.cancels.contains n then reject s g 0x2000 0
      else loadLaunch s q g b

/-- LAUNCH_RECORD (17 R342 to R348, R351, R438; 23 R407 to R412). -/
def execLaunchRecord (s : State) : Host.Outcome State Fault Refusal :=
  .next (match nextQueue s with
    | none => s
    | some i =>
      match s.queues[i]? with
      | none => s
      | some q => takeRecord s i q)

/-- DOORBELL (17 R342; 25 R431, R437): the new tail index, kept whole until firmware sets the queue's size. -/
def execDoorbell (q tail : Nat) (s : State) : Host.Outcome State Fault Refusal :=
  .next (match s.queues[q]? with
    | some x => { s with queues := s.queues.set q { x with tail := if x.enabled then tail % x.size else tail } }
    | none => s)

/-! ### The groups of a team as it starts (17 R347; 23 R415) -/

/-- The groups of a team: name, first thread's number. -/
def groupPlan (l : Launch) (core b : Nat) : List (GKey × Nat) :=
  (List.range l.teamSize).map fun i =>
    if 32 ≤ l.width then (⟨core, b + i * (l.width / 32), 0⟩, i * l.width)
    else (⟨core, b + i * l.width / 32, i % (32 / l.width)⟩, i * l.width)

/-- The places in the team's block of the slots that no group starts in (17 R347). -/
def Launch.idle (l : Launch) : List Nat :=
  let gs := (groupPlan l 0 0).filter fun p => decide (p.2 < l.threads)
  (List.range l.slots).filter fun i => !gs.any fun p => decide (p.1.slot ≤ i) && decide (i < p.1.slot + max 1 (l.width / 32))

/-- The slots of a resident team that still hold registers: those of its groups, and those that no group started in; a slot that
has retired has returned them (01 R40; 05 R143; 17 R347). -/
def slotsHeld (s : State) (t : Team) : Nat :=
  let idle := ((s.grid? t.corr).map (·.l.idle)).getD []
  ((List.range t.slots).filter fun i => idle.contains i || s.groups.any fun g => g.team == t.uid && g.slots.contains (t.first + i)).length

end Sys2Proof.Machine
end

