-- ==== Sys2Proof/Machine/Agenda.lean ====
section
/-! DEFINITION. The default order of turns (notes/assumptions/2.md): what groups have in flight, walkers, groups oldest first
(17 R357), and the events that some entry of the state waits for. -/

namespace Sys2Proof.Machine

open Sys2Proof

/-! ### What time measures (24 R423, R426) -/

/-- Slots that a launch has held on a core for some nanoseconds (24 R426). -/
def addHeld (core corr slots ns : Nat) : List Held → List Held
  | [] => [⟨core, corr, slots * ns, ns⟩]
  | h :: hs =>
    if h.core = core ∧ h.corr = corr then { h with slotNs := h.slotNs + slots * ns, coreNs := h.coreNs + ns } :: hs
    else h :: addHeld core corr slots ns hs

/-- What the launches have held once some nanoseconds have passed. A saved launch has no team on a core (24 R426). -/
def meterAfter (s : State) (ns : Nat) : List Held :=
  ((s.teams.map fun t => (t.core, t.corr)).eraseDups).foldl (fun l p =>
    addHeld p.1 p.2 ((s.teams.filter fun t => t.core == p.1 && t.corr == p.2).foldl (fun n t => n + slotsHeld s t) 0) ns l) s.meter

/-- Numbers in rising order without repeats. -/
def insertNat (n : Nat) : List Nat → List Nat
  | [] => [n]
  | m :: ms => if n < m then n :: m :: ms else if n = m then m :: ms else m :: insertNat n ms

/-- The launches resident on a die, by number (24 R423). -/
def residents (s : State) (die : Nat) : List Nat :=
  (s.teams.filter fun t => dieOf t.core == die).foldl (fun l t => insertNat t.corr l) []

/-- A die takes note of the launches on it; a change counts while rails are sampled (24 R423). -/
def noteResidents (s : State) (die : Nat) (d : Die) : Die :=
  let l := residents s die
  { d with resident := l, moved := d.moved || (d.trCtl / 2 % 2 == 1 && d.resident != l) }

/-- A step begins: the free values' counter advances, device time passes (11 R296) and is measured (24 R423, R426), entries become
ready (24 R425). -/
def begin_ (s : State) : State :=
  let ns := Config.elapsed s.tick
  let s := { s with tick := s.tick + 1, ns := s.ns + ns, meter := meterAfter s ns }
  { s with cores := s.cores.map (markReady s), dies := s.dies.mapIdx (noteResidents s) }

/-- Insert a group by age (17 R357). -/
def insertOld (g : Group) : List Group → List Group
  | [] => [g]
  | h :: hs => if olderThan g h then g :: h :: hs else h :: insertOld g hs

/-- The groups, oldest first. -/
def byAge (l : List Group) : List Group := l.foldr insertOld []

/-- The events of a group's queue and long-latency instructions. -/
def groupEvents (s : State) (g : Group) : List Instr :=
  (if g.late.isEmpty then [] else [.lateEffectDelivery g.key]) ++
  (if g.queue.isEmpty && !aloft s g.key then [] else [.storeQueueDrain g.key]) ++
  g.pend.map fun p => .longLatencyCompletion g.key p.id

/-- The events of a core's engines. -/
def coreEvents (c : Nat) (x : Core) : List Instr :=
  (x.copies.map fun y => .copyBlock c y.id) ++
  (if x.apps.isEmpty then [] else [.correctionApplication c]) ++
  (match x.running with
   | some _ => [.matrixEntryFinish c]
   | none => if x.mq.isEmpty then [] else [.matrixEntryStart c])

/-- The event that serves a job (09 R248; 21 R398). -/
def jobEvent (d : Nat) (j : Job) : List Instr :=
  let c := (j.card.getD 2 0).toNat
  if j.finished then []
  else match j.kind with
    | 0 => if c % 2 = 0 then [.binningOpen d j.idx] else [.binningReplay d j.idx]
    | 1 => [.walkerJob d j.idx]
    | 2 => [.gather d j.idx]
    | 3 => if c % 2 = 0 then [.topkHistogram d j.idx] else [.topkSelect d j.idx]
    | 4 => [.collForm d j.idx, .collDisband d j.idx, .collBarrier d j.idx, .collBcast d j.idx, .collAllred d j.idx,
            .collRedscat d j.idx, .collGather d j.idx, .collXscan d j.idx]
    | _ => [.mainToMainCopy d j.idx]

/-- The events of a die. -/
def dieEvents (d : Nat) (x : Die) : List Instr :=
  x.jobs.flatMap (jobEvent d) ++
  (if x.invDone then [] else [.invalidationComplete d]) ++
  (if x.codeInvDone then [] else [.codeinvAccept d])

/-- The events of a launch. -/
def gridEvents (g : Grid) : List Instr :=
  match g.phase with
  | .live => [.clusterPlacement g.corr, .fallbackMode g.corr, .priority7Preemption g.corr, .gridCompletion g.corr]
  | .halting => [.preemptHaltComplete g.corr]
  | .saved => [.gridRestore g.corr]
  | .ending => [.gridCompletion g.corr]
  | .completed => []

/-- The events of engines and of the distributor, which take longer than words do. -/
def slowEvents (s : State) : List Instr :=
  (s.cores.zipIdx.flatMap fun p => coreEvents p.2 p.1) ++ (s.dies.zipIdx.flatMap fun p => dieEvents p.2 p.1) ++
  ((List.range 4).flatMap fun d =>
    if (engsOf s d).isEmpty then [] else [Instr.translationWalk d]) ++
  ownMessages s ++ [Instr.launchRecord] ++ s.grids.flatMap gridEvents ++
  (if s.grids.any fun g => decide (g.endTime ≠ 0) && s.meter.any fun h => h.corr == g.corr then
    [Instr.energyShare ((List.range 192).map (Config.metered s.tick)) (Config.metered s.tick 192) (Config.metered s.tick 193)]
  else []) ++
  (if s.plat.atCtl == 1 then [Instr.attestationReport] else []) ++
  ((List.range 4).flatMap fun d => if (engsOf s d).isEmpty then [] else [Instr.heldWriteRewalk d])

/-- Walkers, then groups oldest first (17 R357). -/
def actors (s : State) : List Turn :=
  ((List.range 192).filter fun c => ((s.core c).walker).isSome).map Turn.walker ++
  (byAge s.groups).map fun g => Turn.group g.key

/-- Whether the engines go before the groups: one part in 32 of the steps, in stretches that no round of turns steps over. -/
def slowFirst (s : State) (round : Nat) : Bool := decide (s.tick % (32 * (round + 1)) ≤ round)

/-- The turns of a step with an empty agenda, in order: what groups have in flight, then groups and walkers, then the engines;
now and then the engines before the groups, so that a group that polls does not hold them up. -/
def defaultTurns (s : State) : List Turn :=
  let slow := (slowEvents s).map Turn.event
  let act := actors s
  (s.groups.flatMap (groupEvents s)).map Turn.event ++ (if slowFirst s act.length then slow ++ act else act ++ slow)

end Sys2Proof.Machine
end

