-- ==== Sys2Proof/Machine/CrossLane.lean ====
section
/-! DEFINITION. Cross-lane instructions (06 R154 to R167) and ragged tiles (07 R198 to R201). -/

namespace Sys2Proof.Machine

open Sys2Proof

/-! ### Map-editing shuffles (06 R156, R157) -/

/-- Write D with the values of an affine shuffle of A, under the composed map (06 R156). -/
def editMap (x : Ins) (sh : List (BitVec 7) × BitVec 7) : State :=
  putVec x ((x.a.map.getD (LaneMap.ident x.g.wcode)).compose sh.1 sh.2) fun t => x.a.val (shuffled sh t)

/-- SHFX (06 R156). -/
def execShfx (d a b : Reg) (s : State) : Host.Outcome State Fault Refusal :=
  issue (.shfx d a b) s fun x => .done (editMap x (shfxShuffle x.g.wcode x.b.sca))

/-- SHFP (06 R156, R157). -/
def execShfp (d a b : Reg) (s : State) : Host.Outcome State Fault Refusal :=
  issue (.shfp d a b) s fun x =>
    if permOk x.g.wcode x.b.sca then .done (editMap x (shfpShuffle x.g.wcode x.b.sca)) else x.fail (x.range x.b.sca)

/-- The segment exponent lies within the width (06 R157). -/
def segOk (x : Ins) (seg : Fin 8) : Bool := decide (segExp x.g.wcode seg.val ≤ LaneMap.bits x.g.wcode)

/-- SHFB (06 R156, R157). -/
def execShfb (d a b : Reg) (seg : Fin 8) (s : State) : Host.Outcome State Fault Refusal :=
  issue (.shfb d a b seg) s fun x =>
    if segOk x seg then .done (editMap x (shfbShuffle x.g.wcode seg.val x.b.sca)) else x.fail (x.range (word seg.val))

/-- MAT (06 R156, R157). DESIGN CHOICE (notes/assumptions/50.md): p0 of the RANGE of an ill-formed descriptor is its low word. -/
def execMat (d a b : Reg) (s : State) : Host.Outcome State Fault Refusal :=
  issue (.mat d a b) s fun x =>
    let v := x.g.pair b
    if LaneMap.wellFormed v x.g.wcode then .done (editMap x (matShuffle x.g.wcode v)) else x.fail (x.range (v.setWidth 32))

/-! ### MAP (06 R158) -/

/-- Write a scalar pair; z discards (06 R158). -/
def putPair (r : Reg) (v : DWord) (g : Group) : Group :=
  match r with
  | .s n => (g.setSreg n.val (v.setWidth 32)).setSreg (n.val + 1) ((v >>> 32).setWidth 32)
  | _ => g

/-- MAP.rd (06 R158): the descriptor as the register holds it. -/
def execMapRd (d a : Reg) (s : State) : Host.Outcome State Fault Refusal :=
  issue (.mapRd d a) s fun x =>
    match a with
    | .v n => .done (x.mod (putPair d (x.g.vreg (x.g.phys n.val).toNat).map.descriptor))
    | _ => .done x.s

/-- MAP.wr (06 R158): the map is installed, no element moves. DESIGN CHOICE (notes/assumptions/50.md): p0 of the RANGE of an ill-formed
descriptor is its low word. -/
def execMapWr (d a : Reg) (s : State) : Host.Outcome State Fault Refusal :=
  issue (.mapWr d a) s fun x =>
    let v := x.g.pair a
    if LaneMap.wellFormed v x.g.wcode then
      match x.dst with
      | .vec p => .done (x.mod fun g => g.setVreg p { g.vreg p with map := LaneMap.ofDescriptor v x.g.wcode })
      | _ => .done x.s
    else x.fail (x.range (v.setWidth 32))

/-- MAP.id (06 R158). -/
def execMapId (d a : Reg) (s : State) : Host.Outcome State Fault Refusal :=
  issue (.mapId d a) s fun x => .done (putVec x (LaneMap.ident x.g.wcode) x.a.val)

/-! ### Moving shuffles (06 R159) -/

/-- Write D at the identity (06 R155). -/
def putIdent (x : Ins) (f : Nat → Word) : State := putVec x (LaneMap.ident x.g.wcode) f

/-- SHFI (06 R159). -/
def execShfi (d a b : Reg) (s : State) : Host.Outcome State Fault Refusal :=
  issue (.shfi d a b) s fun x => .done (putIdent x fun t => x.a.val (shfiThread x.g.width (x.b.val t)))

/-- SHFR (06 R157, R159). -/
def execShfr (d a b : Reg) (seg : Fin 8) (s : State) : Host.Outcome State Fault Refusal :=
  issue (.shfr d a b seg) s fun x =>
    if segOk x seg then .done (putIdent x fun t => x.a.val (shfrThread (segExp x.g.wcode seg.val) x.b.sca t))
    else x.fail (x.range (word seg.val))

/-! ### Votes (06 R160) -/

/-- The result of VOTE over the active threads that hold a bit. -/
def voteOf (fn : VoteFn) (on act : Mask) : Bool :=
  match fn with
  | .any => on != 0#128
  | .all => on == act
  | _ => on == 0#128 || on == act

/-- Write the words of a ballot to consecutive scalars (06 R160). -/
def putBallot (n first : Nat) (on : Mask) (g : Group) : Group :=
  (List.range n).foldl (fun g i => g.setSreg (first + i) ((on >>> (32 * i)).setWidth 32)) g

/-- VOTE (06 R160). DESIGN CHOICE (notes/assumptions/50.md): p0 of the RANGE of a ballot that would pass s27 is the field code of D. -/
def execVote (d : BitVec 7) (p : Fin 8) (neg : Bool) (fn : VoteFn) (s : State) : Host.Outcome State Fault Refusal :=
  issue (.vote d p neg fn) s fun x =>
    let on := acting x p neg
    match fn with
    | .ballot =>
      let n := max 1 (x.g.width / 32)
      let first := d.toNat - 96
      if d.toNat = 124 then .done x.s
      else if 28 < first + n then x.fail (x.range (word d.toNat))
      else .done (x.mod (putBallot n first on))
    | _ => .done (x.mod fun g => g.setPred d.toNat (if voteOf fn on x.act then x.g.full else 0#128) x.act)

/-! ### Keyed instructions (06 R161 to R164) -/

/-- Keys are equal as bits, or with .f as FP32 values with every NaN equal to every NaN (06 R161). -/
def keyEq (f : Bool) (a b : Word) : Bool :=
  if !f then a == b
  else
    let va := Flt.f32.decode a.toNat
    let vb := Flt.f32.decode b.toNat
    if va.isNan || vb.isNan then va.isNan && vb.isNan
    else if va.isZero && vb.isZero then true
    else a == b

/-- The active threads, rising, whose key equals another's (06 R161). -/
def sameKey (x : Ins) (f : Bool) (key : Nat → Word) (t : Nat) : List Nat :=
  (lanesOf x.g.width x.act).filter fun u => keyEq f (key u) (key t)

/-- MATCH (06 R162). -/
def execMatchk (d a : Reg) (f : Bool) (fn : MatchFn) (s : State) : Host.Outcome State Fault Refusal :=
  issue (.matchk d a f fn) s fun x => .done (putIdent x fun t =>
    let same := sameKey x f x.a.val t
    match fn with
    | .lead => word (same.head?.getD t)
    | .cnt => word same.length
    | .rank => word (same.filter fun u => decide (u < t)).length)

/-- CDET (06 R163). -/
def execCdet (d a : Reg) (f next : Bool) (s : State) : Host.Outcome State Fault Refusal :=
  issue (.cdet d a f next) s fun x => .done (putIdent x fun t =>
    let same := sameKey x f x.a.val t
    let found := if next then (same.filter fun u => decide (t < u)).head?
      else (same.filter fun u => decide (u < t)).getLast?
    (found.map word).getD 0xFFFFFFFF)

/-- QAPP (06 R164). -/
def execQapp (d a b : Reg) (s : State) : Host.Outcome State Fault Refusal :=
  issue (.qapp d a b) s fun x => .done (putIdent x fun t =>
    let k := (x.a.val t).toNat
    if k < x.g.width then
      x.b.val k + word ((sameKey x false x.a.val t).filter fun u => decide (u < t)).length
    else 0xFFFFFFFF)

/-! ### Scans and reductions (06 R165 to R167; 07 R201) -/

/-- The combining operations of scans, reductions and segments. -/
def combine (op : RedOp) (a b : Word) : Word × Fl :=
  match op with
  | .add => (a + b, 0#7)
  | .fadd => let r := fadd .f32 .rne a.toNat b.toNat; (word r.1, r.2)
  | .max => (if a.slt b then b else a, 0#7)
  | .min => (if b.slt a then b else a, 0#7)
  | .fmax => let r := fmnx .f32 .max a.toNat b.toNat; (word r.1, r.2)
  | .fmin => let r := fmnx .f32 .min a.toNat b.toNat; (word r.1, r.2)
  | .and => (a &&& b, 0#7)
  | .or => (a ||| b, 0#7)

/-- The operation looks at a single element: under fmax and fmin a NaN becomes 0x7FC0_0010 (06 R166; 07 R201). -/
def single (op : RedOp) (a : Word) : Word × Fl :=
  match op with
  | .fmax => if (Flt.f32.decode a.toNat).isNan then combine .fmax a a else (a, 0#7)
  | .fmin => if (Flt.f32.decode a.toNat).isNan then combine .fmin a a else (a, 0#7)
  | _ => (a, 0#7)

/-- The combination of elements, left to right, with its flags (06 R166). -/
def reduce (op : RedOp) (l : List Word) : Word × Fl :=
  match l with
  | [] => (0, 0#7)
  | [a] => single op a
  | a :: rest => rest.foldl (fun acc v => let r := combine op acc.1 v; (r.1, acc.2 ||| r.2)) (a, 0#7)

/-- The first thread of a thread's segment (06 R165; 07 R201): the highest head not above it, or thread 0. -/
def segStart (heads : Mask) (t : Nat) : Nat := (((List.range (t + 1)).filter (has heads)).getLast?).getD 0

/-- The active threads of a thread's segment. -/
def segment (x : Ins) (heads : Mask) (t : Nat) : List Nat :=
  (lanesOf x.g.width x.act).filter fun u => segStart heads u == segStart heads t

/-- The operation of a scan as a combining operation. -/
def scanRed : ScanOp → RedOp
  | .add => .add
  | .fadd => .fadd
  | .max => .max
  | .min => .min

/-- What the first thread of a segment gets under .ex (06 R165). -/
def neutral : ScanOp → Word
  | .add => 0
  | .fadd => 0
  | .max => 0x80000000
  | .min => 0x7FFFFFFF

/-- Thread t's result of a scan, with the flags of its own combination (06 R165). -/
def scanAt (x : Ins) (heads : Mask) (ex : Bool) (op : ScanOp) (t : Nat) : Word :=
  let before := (segment x heads t).filter fun u => decide (u < t)
  if ex then (if before.isEmpty then neutral op else (reduce (scanRed op) (before.map x.a.val)).1)
  else (reduce (scanRed op) ((before ++ [t]).map x.a.val)).1

/-- PSCAN (06 R165, R167): the flags are those of each combination made, exclusive or not. -/
def execPscan (d a : Reg) (h : Fin 8) (seg ex : Bool) (op : ScanOp) (s : State) : Host.Outcome State Fault Refusal :=
  issue (.pscan d a h seg ex op) s fun x =>
    let heads := if seg then x.g.pred h.val else 0#128
    .done (putIdent x (scanAt x heads ex op)) (threadFlags x fun t =>
      (reduce (scanRed op) (((segment x heads t).filter fun u => decide (u ≤ t)).map x.a.val)).2)

/-- The active threads of a thread's set under REDX (06 R166). -/
def redSet (x : Ins) (b : Reg) (f : Bool) (t : Nat) : List Nat :=
  if b = .z then lanesOf x.g.width x.act else sameKey x f x.b.val t

/-- REDX (06 R166, R167). -/
def execRedx (d a b : Reg) (f : Bool) (op : RedOp) (s : State) : Host.Outcome State Fault Refusal :=
  issue (.redx d a b f op) s fun x =>
    let r := fun (t : Nat) => reduce op ((redSet x b f t).map x.a.val)
    .done (putIdent x fun t => (r t).1) (threadFlags x fun t => (r t).2)

/-! ### Ragged tiles (07 R198 to R201) -/

/-- The operation of a segment as a combining operation. -/
def segRed : SegOp → RedOp
  | .add => .add
  | .fadd => .fadd
  | .fmax => .fmax
  | .fmin => .fmin

/-- SEGR (07 R201): every active thread of a segment, or with .last its highest one, receives the segment's result. -/
def execSegr (d a : Reg) (h : Fin 8) (last : Bool) (op : SegOp) (s : State) : Host.Outcome State Fault Refusal :=
  issue (.segr d a h last op) s fun x =>
    let heads := x.g.pred h.val
    let r := fun (t : Nat) => reduce (segRed op) ((segment x heads t).map x.a.val)
    let m := if last then maskOf x.g.width fun t => has x.act t && (segment x heads t).getLast? == some t else x.act
    match x.dst with
    | .vec p => .done (x.mod fun g => g.writeVec x.s.tick p (LaneMap.ident x.g.wcode) m fun t => (r t).1)
        (threadFlags x fun t => (r t).2)
    | _ => .done x.s

/-- RLT (07 R199). DESIGN CHOICE (notes/assumptions/50.md): p0 of its RANGE is the first active length above 65,535, else the total. -/
def execRlt (d a : Reg) (s : State) : Host.Outcome State Fault Refusal :=
  issue (.rlt d a) s fun x =>
    let ls := lanesOf x.g.width x.act
    let total := ls.foldl (fun n t => n + (x.a.val t).toNat) 0
    match ls.find? fun t => decide (65535 < (x.a.val t).toNat) with
    | some t => x.fail (x.range (x.a.val t))
    | none =>
      if 65535 < total then x.fail (x.range (word total))
      else .done (putIdent x fun r =>
        let start := (ls.filter fun u => decide (u < r)).foldl (fun n u => n + (x.a.val u).toNat) 0
        word ((x.a.val r).toNat * 2 ^ 16 + start))

/-- The row that holds a packed position, with its start (07 R200). -/
def rowAt (x : Ins) (q : Nat) : Option (Nat × Nat) :=
  ((List.range x.g.width).map fun r => (r, (x.a.val r).toNat % 2 ^ 16, (x.a.val r).toNat / 2 ^ 16)).findSome? fun e =>
    if e.2.1 ≤ q ∧ q < e.2.1 + e.2.2 then some (e.1, e.2.1) else none

/-- RWALK (07 R200). -/
def execRwalk (d a b : Reg) (h : Fin 8) (s : State) : Host.Outcome State Fault Refusal :=
  issue (.rwalk d a b h) s fun x =>
    let q := fun (t : Nat) => x.b.sca.toNat * x.g.width + t
    let heads := maskOf x.g.width fun t => match rowAt x (q t) with
      | some e => q t == e.2 || t == 0
      | none => false
    let s := putIdent x fun t => match rowAt x (q t) with
      | some e => word ((q t - e.2) * 2 ^ 16 + e.1)
      | none => 0xFFFFFFFF
    .done (s.modGroup x.k fun g => g.setPred h.val heads x.act)

end Sys2Proof.Machine
end

