-- ==== Sys2Proof/Machine/Effects.lean ====
section
/-! DEFINITION. Effects raised by a program, frames and tokens (11 R282, R283, R288 to R294). -/

namespace Sys2Proof.Machine

open Sys2Proof

/-! ### PERF (11 R294) -/

/-- The token kind of a code (01 R26). -/
def kindOf (n : Nat) : Option TokKind :=
  match n with
  | 1 => some .once
  | 2 => some .many
  | 3 => some .none
  | _ => none

/-- PERF (11 R294): .retry performs it again with a new CSN (R289). -/
def execPerf (d a b : Reg) (neg : Bool) (p : Fin 8) (s : State) : Host.Outcome State Fault Refusal :=
  issue (.perf d a b neg p) s fun x =>
    let v := x.a.sca.toNat
    match kindOf (v / 2 ^ 11) with
    | some kind =>
      if 0xFF < v % 2 ^ 11 then x.fail (x.range x.a.sca)
      else
        let m := acting x p neg
        if m = 0#128 then .done x.s
        else x.fail (x.perf (v % 2 ^ 11) kind x.b.sca 0 0 m (.soft x.dst (x.here .fresh)))
    | none => x.fail (x.range x.a.sca)

/-! ### Frames (11 R282, R283) -/

/-- The frames a group may have (11 R282; 01 R36). -/
def Group.maxFrames (g : Group) : Nat := if g.parts ≤ 1 then 255 else 256 / g.parts

/-- HPSH (11 R282). With no active lane it pushes nothing. -/
def execHpsh (d a b : Reg) (s : State) : Host.Outcome State Fault Refusal :=
  issue (.hpsh d a b) s fun x =>
    let v := x.d.sca
    let h := x.g.depth + 1
    if x.act = 0#128 then .done x.s
    else if 2 ^ 22 ≤ v.toNat then x.fail (x.range v)
    else if x.g.maxFrames < h ∨ x.g.wouldMeet x.g.it.callHt h then x.fail (x.range (word h))
    else
      let f : Frame := ⟨x.s.nextId, x.a.sca, x.b.sca, v.setWidth 11, (v >>> 11).setWidth 11, false, x.act, x.g.it.callHt,
        x.g.invOf x.act⟩
      let s := ({ x.s with nextId := x.s.nextId + 1 } : State).modGroup x.k fun g =>
        { g with it := { g.it with frames := f :: g.it.frames } }
      .done (spill s x.k)

/-- HPOP (11 R283): the lanes join at it. -/
def execHpop (s : State) : Host.Outcome State Fault Refusal :=
  issue .hpop s fun x =>
    match x.g.it.frames with
    | [] => x.fail (x.range 0)
    | f :: _ =>
      if f.running ∨ x.act &&& ~~~f.lanes ≠ 0#128 then x.fail (x.range (word x.g.depth))
      else .done (x.mod fun g => g.modLanes x.act fun l => { l with st := .hpop f.uid })

/-! ### Tokens (11 R288 to R291; 01 R26) -/

/-- The invocation that a live token names in the group (01 R26; 11 R288): the latest of its frame and kind. -/
def liveToken (s : State) (g : Group) (t : Word) : Option Ctx :=
  g.ctxs.reverse.find? fun c => c.token && (g.frame? c.frame).any fun f =>
    tokenWord c.perf.kind f.2 g.key.slot g.subName (s.gen g.key.core g.key.slot) == t

/-- The token is used from an invocation entered after its own (11 R288). -/
def usedDeeper (g : Group) (c : Ctx) (m : Mask) : Bool :=
  match innermost g m with
  | some i => decide (c.uid < i.uid)
  | none => false

/-- A token register's invocation; an empty one raises RANGE, a token that names nothing STALETOKEN (11 R288). -/
def withToken (x : Ins) (k : Fin 4) (f : Ctx → Act) : Act :=
  let t := x.g.token k.val
  if t.toNat / 2 ^ 30 = 0 then x.fail (x.range t)
  else match liveToken x.s x.g t with
    | some c => f c
    | none => x.fail (x.perf 0x10C .none t 0 0 x.act .none)

/-- RSUM (11 R288, R289). -/
def execRsum (k : Fin 4) (b : Reg) (act : RsumAct) (s : State) : Host.Outcome State Fault Refusal :=
  issue (.rsum k b act) s fun x => withToken x k fun c =>
    let lanes := if c.perf.kind = .once then c.left &&& x.g.present else x.act
    if usedDeeper x.g c x.act ∨ c.perf.kind = .none ∨ (allowedActs c.perf.eff).contains act = false ∨
        lanes &&& ~~~c.q ≠ 0#128 then
      x.fail (x.range (x.g.token k.val))
    else .then_ x.s fun s => resume s x.k c.uid lanes act x.b.val

/-- TOKD, the discard (11 R291). -/
def execTokd (k : Fin 4) (s : State) : Host.Outcome State Fault Refusal :=
  issue (.tokd k) s fun x =>
    if (x.g.token k.val).toNat / 2 ^ 30 = 0 then .done x.s
    else withToken x k fun c =>
      if c.ended ∧ c.perf.kind = .many then
        .done (x.mod fun g => ({ g with ctxs := g.ctxs.filter fun y => y.uid != c.uid } : Group).setToken k.val 0)
      else x.fail (x.range (x.g.token k.val))

/-- TOKD.abort (11 R291). -/
def execTokdAbort (k : Fin 4) (s : State) : Host.Outcome State Fault Refusal :=
  issue (.tokdAbort k) s fun x => withToken x k fun c =>
    if c.ended ∧ x.act &&& ~~~c.q ≠ 0#128 then x.fail (x.range (x.g.token k.val))
    else .then_ x.s fun s => abort s x.k c.uid x.act x.iss.pc

/-- TOKD.mov (11 R291). -/
def execTokdMov (j k : Fin 4) (s : State) : Host.Outcome State Fault Refusal :=
  issue (.tokdMov j k) s fun x => withToken x k fun _ =>
    .done (x.mod fun g => (g.setToken j.val (g.token k.val)).setToken k.val 0)

end Sys2Proof.Machine
end

