-- ==== Sys2Proof/Machine/Sfu.lean ====
section
/-! DEFINITION. The special functions of FSFU and the exponential core of SEXP (07 R190, R191, R196). rcp and sqrt are
correctly rounded. The others are free within their bounds: the result is the one `Config` names where it lies within the
bound, and the nearest value otherwise (notes/assumptions/5.md). -/

namespace Sys2Proof.Machine

open Sys2Proof

/-- The bits of floor(sqrt n), from bit `k` downward, above `acc`. -/
def sqrtBits (n : Nat) : Nat → Nat → Nat
  | 0, acc => acc
  | k + 1, acc =>
    let t := acc + 2 ^ k
    sqrtBits n k (if t * t ≤ n then t else acc)

/-- floor(sqrt n). -/
def isqrt (n : Nat) : Nat := sqrtBits n (Nat.log2 n / 2 + 1) 0

/-- An approximation T × 2^exp of a real number. -/
structure Approx where
  t   : Int
  exp : Int
deriving DecidableEq, Repr

/-- |a − b| ≤ c for dyadic numbers. The approximations below are so close that no FP32 value lies between the true bound and
this one (notes/assumptions/5.md). -/
def within (a : Int) (ea : Int) (b : Int) (eb : Int) (c : Nat) (ec : Int) : Bool :=
  let q := min (min ea eb) ec
  let d := a * 2 ^ (ea - q).toNat - b * 2 ^ (eb - q).toNat
  decide (d.natAbs ≤ c * 2 ^ (ec - q).toNat)

/-- The FP32 pattern is finite and lies within c × 2^ec of the approximation. -/
def nearTo (z : Word) (r : Approx) (c : Nat) (ec : Int) : Bool :=
  match Flt.f32.decode z.toNat with
  | .fin n m e => within (if n then -(m : Int) else m) e r.t r.exp c ec
  | _ => false

/-- The exponent of the unit in the last place of an approximation in FP32 (04 R92). -/
def ulpExp (r : Approx) : Int := max (r.exp + (Nat.log2 r.t.natAbs : Int) - 23) (-149)

/-- The FP32 value nearest to an approximation. -/
def nearest (r : Approx) : Word := word (Flt.f32.round .rne false (decide (r.t < 0)) r.t.natAbs r.exp true).1

/-- The offered result where it lies within the bound, the nearest value otherwise. -/
def offered (z : Word) (r : Approx) (c : Nat) (ec : Int) : Word := if nearTo z r c ec then z else nearest r

/-- Σ 2^p / (k 2^k): ln 2 in units of 2^-p. -/
def ln2At (p : Nat) : Nat := (List.range p).foldl (fun acc k => acc + 2 ^ p / ((k + 1) * 2 ^ (k + 1))) 0

/-- The partial sums of exp(y), y = n / 2^p, from term `k` on with the current term. -/
def expTerms (n p : Nat) : Nat → Nat → Nat → Nat → Nat
  | 0, _, _, acc => acc
  | fuel + 1, k, term, acc =>
    let t := term * n / 2 ^ p / (k + 1)
    expTerms n p fuel (k + 1) t (acc + t)

/-- exp(n / 2^p) in units of 2^-p. -/
def expAt (n p : Nat) : Nat := expTerms n p 200 0 (2 ^ p) (2 ^ p)

/-- arctan(1 / d) in units of 2^-p. -/
def atanInv (d p : Nat) : Int :=
  (List.range (p / 4 + 2)).foldl (fun acc k =>
    let t : Int := (2 ^ p / (d ^ (2 * k + 1) * (2 * k + 1)) : Nat)
    if k % 2 = 0 then acc + t else acc - t) 0

/-- π in units of 2^-p, by Machin's formula. -/
def piAt (p : Nat) : Int := 16 * atanInv 5 p - 4 * atanInv 239 p

/-- The alternating Taylor terms of sine (from x) or cosine (from 1). -/
def trigTerms (r2 p : Int) : Nat → Nat → Int → Int → Int
  | 0, _, _, acc => acc
  | fuel + 1, k, term, acc =>
    let t := -(term * r2 / p / ((k + 1) * (k + 2) : Nat))
    trigTerms r2 p fuel (k + 2) t (acc + t)

/-- x = ±m × 2^e reduced modulo 2π, in units of 2^-320 (07 R191: range reduction is exact). -/
def reduceTrig (n : Bool) (m : Nat) (e : Int) : Int :=
  let x : Int := (m * 2 ^ (e + 320).toNat : Nat)
  let v := if n then -x else x
  let p2 := 2 * piAt 320
  let r := v % p2
  if piAt 320 < r then r - p2 else r

/-- sin(x) in units of 2^-320. -/
def sinAt (n : Bool) (m : Nat) (e : Int) : Approx :=
  let r := reduceTrig n m e
  let one : Int := (2 ^ 320 : Nat)
  ⟨trigTerms (r * r / one) one 60 1 r r, -320⟩

/-- cos(x) in units of 2^-320. -/
def cosAt (n : Bool) (m : Nat) (e : Int) : Approx :=
  let r := reduceTrig n m e
  let one : Int := (2 ^ 320 : Nat)
  ⟨trigTerms (r * r / one) one 60 0 one one, -320⟩

/-- One step of the binary logarithm: square, and halve when the square reaches 2. -/
def log2Bits : Nat → Nat → Nat → Nat
  | 0, _, acc => acc
  | fuel + 1, y, acc =>
    let s := y * y / 2 ^ 240
    if 2 ^ 241 ≤ s then log2Bits fuel (s / 2) (acc * 2 + 1) else log2Bits fuel s (acc * 2)

/-- log2 of m × 2^e, m > 0, in units of 2^-100. -/
def log2At (m : Nat) (e : Int) : Approx :=
  let k := Nat.log2 m
  let y := m * 2 ^ 240 / 2 ^ k
  ⟨(e + (k : Int)) * (2 ^ 100 : Nat) + (log2Bits 100 y 0 : Nat), -100⟩

/-- tanh of m × 2^e, 0 < m × 2^e: below its argument where that is small, below 1 where it is large. -/
def tanhAt (m : Nat) (e : Int) : Approx :=
  if 5 ≤ e + (Nat.log2 m : Int) then ⟨(2 ^ 60 - 1 : Nat), -60⟩
  else if e + (Nat.log2 m : Int) < -20 then
    let cut : Nat := if 0 ≤ 80 + 2 * e then m * m * m * 2 ^ (80 + 2 * e).toNat / 3
      else m * m * m / (3 * 2 ^ (-(80 + 2 * e)).toNat)
    ⟨(m * 2 ^ 80 : Nat) - (max 1 cut : Nat), e - 80⟩
  else
    let y := m * 2 ^ (e + 161).toNat
    let ex := expAt y 160
    ⟨((ex - 2 ^ 160) * 2 ^ 160 / (ex + 2 ^ 160) : Nat), -160⟩

/-- E(f) for f = n × 2^-149, 0 ≤ f < 1: 1 at 0, and within 1 ULP of 2^f (07 R191). -/
def exp2Core (n : Nat) : Word :=
  if n = 0 then 0x3F800000#32
  else
    let y := n * ln2At 200 / 2 ^ 149
    offered (Config.exp2 n) ⟨(expAt y 200 : Nat), -200⟩ 1 (-23)

/-- 2^(i + f − b) from the core at f = n × 2^-149, with the exponent s = i − b formed exactly (07 R191, R196). DESIGN CHOICE
(notes/assumptions/50.md): OF is judged on y × 2^(i−b), UF on that product or on 2^(a−b). -/
def exp2Result (n : Nat) (s : Int) : Word × Fl :=
  match Flt.f32.decode (exp2Core n).toNat with
  | .fin _ m e =>
    let r := Flt.f32.round .rne false false m (e + s) false
    (word r.1, r.2 ||| Fl.when (n != 0) Fl.nx ||| Fl.when (n != 0 && decide (s < -126)) Fl.uf)
  | _ => (0#32, 0#7)

/-- SEXP: 2^(a − b) (07 R196). -/
def sexp (a b : Word) : Word × Fl :=
  match Flt.f32.decode a.toNat with
  | .nan s _ => (word (Flt.f32.nan .element), Fl.when s Fl.inv)
  | .inf true => (0#32, 0#7)
  | .inf false => (word Flt.f32.infBits, 0#7)
  | .fin n m e =>
    let i := floorVal n m e
    let x : Int := (m * 2 ^ (e + 149).toNat : Nat)
    let v := if n then -x else x
    exp2Result (v - i * (2 ^ 149 : Nat)).toNat (i - b.toInt)

/-- The correctly rounded reciprocal (07 R191). -/
def rcpFin (n : Bool) (m : Nat) (e : Int) : Word × Fl :=
  let k : Nat := 64
  let r := Flt.f32.round .rne false n (2 ^ k / m) (-e - (k : Int)) (2 ^ k % m != 0)
  (word r.1, r.2)

/-- The correctly rounded square root (07 R191). -/
def sqrtFin (m : Nat) (e : Int) : Word × Fl :=
  let odd := e % 2 != 0
  let m' := (if odd then 2 * m else m) * 2 ^ 60
  let e' := (if odd then e - 1 else e) - 60
  let s := isqrt m'
  let r := Flt.f32.round .rne false false s (e' / 2) (s * s != m')
  (word r.1, r.2)

/-- The reciprocal square root within 1 ULP (07 R191). -/
def rsqFin (a : Word) (m : Nat) (e : Int) : Word × Fl :=
  let odd := e % 2 != 0
  let m' := if odd then 2 * m else m
  let e' := if odd then e - 1 else e
  let s := isqrt (2 ^ 180 / m')
  let r : Approx := ⟨s, -90 - e' / 2⟩
  let z := offered (Config.sfu .rsq a) r 1 (ulpExp r)
  let exact := decide (s * s * m' = 2 ^ 180) &&
    (match Flt.f32.decode z.toNat with
     | .fin false zm ze => within zm ze r.t r.exp 0 0
     | _ => false)
  (z, Fl.when (!exact) Fl.nx)

/-- Whether |a| is at most 2^-126, so that the exact sine or hyperbolic tangent is tiny (04 R105). -/
def tinyArg (a : Word) : Bool := decide (a.toNat % 2 ^ 31 ≤ 0x00800000)

/-- The NaN of an invalid operand (04 R107). -/
def sfuInvalid : Word × Fl := (word (Flt.f32.nan .other), Fl.inv)

/-- FSFU (07 R190, R191). -/
def fsfu (fn : SfuFn) (a : Word) : Word × Fl :=
  match fn, Flt.f32.decode a.toNat with
  | _, .nan s _ => (word (Flt.f32.nan .element), Fl.when s Fl.inv)
  | .rcp, .inf n => (if n then 0x80000000#32 else 0#32, 0#7)
  | .rcp, .fin n m e =>
    if m = 0 then (if n then 0xFF800000#32 else 0x7F800000#32, Fl.dz) else rcpFin n m e
  | .rsq, .inf n => if n then sfuInvalid else (0#32, 0#7)
  | .rsq, .fin n m e =>
    if m = 0 then (if n then 0xFF800000#32 else 0x7F800000#32, Fl.dz)
    else if n then sfuInvalid else rsqFin a m e
  | .ex2, .inf n => (if n then 0#32 else 0x7F800000#32, 0#7)
  | .ex2, .fin _ _ _ => sexp a 0#32
  | .lg2, .inf n => if n then sfuInvalid else (0x7F800000#32, 0#7)
  | .lg2, .fin n m e =>
    if m = 0 then (0xFF800000#32, Fl.dz)
    else if n then sfuInvalid
    else if m = 2 ^ Nat.log2 m then
      let k := e + (Nat.log2 m : Int)
      (word (Flt.f32.round .rne false (decide (k < 0)) k.natAbs 0 false).1, 0#7)
    else
      let r := log2At m e
      let near1 := decide (0x3F000000 ≤ a.toNat ∧ a.toNat ≤ 0x40000000)
      let z := Config.sfu .lg2 a
      let ok := nearTo z r 2 (ulpExp r) || (near1 && nearTo z r 1 (-22))
      (if ok then z else nearest r, Fl.nx)
  | .sin, .inf _ => sfuInvalid
  | .sin, .fin n m e =>
    if m = 0 then (a, 0#7)
    else (offered (Config.sfu .sin a) (sinAt n m e) 1 (-22), Fl.nx ||| Fl.when (tinyArg a) Fl.uf)
  | .cos, .inf _ => sfuInvalid
  | .cos, .fin n m e =>
    if m = 0 then (0x3F800000#32, 0#7)
    else (offered (Config.sfu .cos a) (cosAt n m e) 1 (-22), Fl.nx)
  | .tanh, .inf n => (if n then 0xBF800000#32 else 0x3F800000#32, 0#7)
  | .tanh, .fin n m e =>
    if m = 0 then (a, 0#7)
    else if 0x41200000 ≤ a.toNat % 2 ^ 31 then (if n then 0xBF800000#32 else 0x3F800000#32, Fl.nx)
    else
      let r := tanhAt m e
      let s : Approx := if n then ⟨-r.t, r.exp⟩ else r
      (offered (Config.sfu .tanh a) s 2 (ulpExp s), Fl.nx ||| Fl.when (tinyArg a) Fl.uf)
  | .sqrt, .inf n => if n then sfuInvalid else (0x7F800000#32, 0#7)
  | .sqrt, .fin n m e =>
    if m = 0 then (a, 0#7) else if n then sfuInvalid else sqrtFin m e

end Sys2Proof.Machine
end

