-- ==== Sys2Proof/Machine/Float.lean ====
section
/-! DEFINITION. Floating-point and row instructions (07 R183 to R197). -/

namespace Sys2Proof.Machine

open Sys2Proof

/-- An FP32 result as a word. -/
def asWord (r : Nat × Fl) : Word × Fl := (word r.1, r.2)

/-- A function of two packed halves (07 R189). -/
def onHalves (f : Nat → Nat → Nat → Nat × Fl) (a b d : Word) : Word × Fl :=
  let lo := f (halves a).1 (halves b).1 (halves d).1
  let hi := f (halves a).2 (halves b).2 (halves d).2
  (pack2 lo.1 hi.1, lo.2 ||| hi.2)

/-- FUNA (07 R192): sign operations. -/
def funaOp (fn : FunaFn) (a b : Word) : Word :=
  match fn with
  | .abs => a &&& 0x7FFFFFFF#32
  | .neg => a ^^^ 0x80000000#32
  | .cps => (a &&& 0x7FFFFFFF#32) ||| (b &&& 0x80000000#32)

/-- FADD (07 R184). -/
def execFadd (d a b : Reg) (ind : Bool) (rm : Rm) (s : State) : Host.Outcome State Fault Refusal :=
  issue (.fadd d a b ind rm) s fun x => elem x false fun a b _ => asWord (fadd .f32 rm a.toNat b.toNat)

/-- FSUB (07 R184). -/
def execFsub (d a b : Reg) (ind : Bool) (rm : Rm) (s : State) : Host.Outcome State Fault Refusal :=
  issue (.fsub d a b ind rm) s fun x => elem x false fun a b _ => asWord (fsub .f32 rm a.toNat b.toNat)

/-- FMUL (07 R184). -/
def execFmul (d a b : Reg) (ind : Bool) (rm : Rm) (s : State) : Host.Outcome State Fault Refusal :=
  issue (.fmul d a b ind rm) s fun x => elem x false fun a b _ => asWord (fmul .f32 rm a.toNat b.toNat)

/-- FFMA (07 R184). -/
def execFfma (d a b : Reg) (ind nc : Bool) (rm : Rm) (s : State) : Host.Outcome State Fault Refusal :=
  issue (.ffma d a b ind nc rm) s fun x => elem x true fun a b d => asWord (ffma .f32 rm a.toNat b.toNat d.toNat nc)

/-- FMNX (07 R185). -/
def execFmnx (d a b : Reg) (ind : Bool) (fn : MnxFn) (s : State) : Host.Outcome State Fault Refusal :=
  issue (.fmnx d a b ind fn) s fun x => elem x false fun a b _ => asWord (fmnx .f32 fn a.toNat b.toNat)

/-- FSET (07 R186). -/
def execFset (p : Fin 8) (a b : Reg) (ind : Bool) (c : FCond) (s : State) : Host.Outcome State Fault Refusal :=
  issue (.fset p a b ind c) s fun x => compare x p fun a b => fset c a.toNat b.toNat

/-- FCVT (07 R187, R188). -/
def execFcvt (d a : Reg) (src : CvtSrc) (tgt : CvtTgt) (ind sat : Bool) (rm : Rm) (s : State) :
    Host.Outcome State Fault Refusal :=
  issue (.fcvt d a src tgt ind sat rm) s fun x => elem x false fun a _ _ => fcvt src tgt rm sat a

/-- HADD2 (07 R189). -/
def execHadd2 (d a b : Reg) (ind bf : Bool) (rm : Rm) (s : State) : Host.Outcome State Fault Refusal :=
  issue (.hadd2 d a b ind bf rm) s fun x =>
    elem x false fun a b _ => onHalves (fun a b _ => fadd (halfFmt bf) rm a b) a b 0

/-- HFMA2 (07 R189). -/
def execHfma2 (d a b : Reg) (ind bf : Bool) (rm : Rm) (s : State) : Host.Outcome State Fault Refusal :=
  issue (.hfma2 d a b ind bf rm) s fun x =>
    elem x true fun a b d => onHalves (fun a b d => ffma (halfFmt bf) rm a b d false) a b d

/-- HMUL2 (07 R189). -/
def execHmul2 (d a b : Reg) (ind bf : Bool) (rm : Rm) (s : State) : Host.Outcome State Fault Refusal :=
  issue (.hmul2 d a b ind bf rm) s fun x =>
    elem x false fun a b _ => onHalves (fun a b _ => fmul (halfFmt bf) rm a b) a b 0

/-- FSFU (07 R190, R191): long-latency. -/
def execFsfu (d a : Reg) (ind : Bool) (fn : SfuFn) (s : State) : Host.Outcome State Fault Refusal :=
  issue (.fsfu d a ind fn) s fun x =>
    let r := fun (t : Nat) => fsfu fn (x.a.val t)
    .done (longElem x (commonOf x false) x.act (fun t => (r t).1)
      (if x.vector then threadFlags x fun t => (r t).2 else (r 0).2))

/-- FUNA (07 R192). -/
def execFuna (d a b : Reg) (ind : Bool) (fn : FunaFn) (s : State) : Host.Outcome State Fault Refusal :=
  issue (.funa d a b ind fn) s fun x => elemInt x false fun a b _ => funaOp fn a b

/-- EXPO (07 R193). -/
def execExpo (d a : Reg) (ind mant : Bool) (s : State) : Host.Outcome State Fault Refusal :=
  issue (.expo d a ind mant) s fun x => elem x false fun a _ _ => if mant then expoM a else expoE a

/-- LDEXP (07 R194). -/
def execLdexp (d a b : Reg) (ind : Bool) (rm : Rm) (s : State) : Host.Outcome State Fault Refusal :=
  issue (.ldexp d a b ind rm) s fun x => elem x false fun a b _ => ldexp rm a b

/-- MAXE (07 R195). -/
def execMaxe (d a b : Reg) (ind : Bool) (s : State) : Host.Outcome State Fault Refusal :=
  issue (.maxe d a b ind) s fun x => elem x false fun a b _ => maxe a b

/-- SEXP (07 R196). -/
def execSexp (d a b : Reg) (ind : Bool) (s : State) : Host.Outcome State Fault Refusal :=
  issue (.sexp d a b ind) s fun x => elem x false fun a b _ => sexp a b

/-- FROW (07 R197). -/
def execFrow (d a b : Reg) (ind bf : Bool) (fn : RowFn) (s : State) : Host.Outcome State Fault Refusal :=
  issue (.frow d a b ind bf fn) s fun x =>
    match fn with
    | .ssq => elem x true fun a _ d => rowSsq bf a d
    | .sum => elem x true fun a _ d => rowSum bf a d
    | .ctr => elem x false fun a b _ => rowCtr bf a b

end Sys2Proof.Machine
end

