-- ==== Sys2Proof/Machine/Integer.lean ====
section
/-! DEFINITION. Integer, logic and address instructions (07 R171 to R182). -/

namespace Sys2Proof.Machine

open Sys2Proof

/-- An exact value clamped to a range (07 R172). -/
def clampTo (lo hi i : Int) : Int := max lo (min i hi)

/-- A sum or difference delivered under a suffix (07 R172); the exact value is given signed and unsigned. -/
def saturate (m : SatMode) (s u : Int) : Word :=
  match m with
  | .wrap => wordOfInt u
  | .sat => wordOfInt (clampTo (-(2 ^ 31)) (2 ^ 31 - 1) s)
  | .nsat => wordOfInt (clampTo 0 (2 ^ 32 - 1) u)

/-- IADD on words (07 R172). -/
def addOp (m : SatMode) (a b : Word) : Word := saturate m (a.toInt + b.toInt) (a.toNat + b.toNat : Nat)

/-- ISUB on words (07 R172). -/
def subOp (m : SatMode) (a b : Word) : Word := saturate m (a.toInt - b.toInt) ((a.toNat : Int) - b.toNat)

/-- IMUL on words (07 R173). -/
def mulOp (m : MulMode) (a b : Word) : Word :=
  match m with
  | .low => a * b
  | .hi => wordOfInt (a.toInt * b.toInt / 2 ^ 32)
  | .nhi => word (a.toNat * b.toNat / 2 ^ 32)

/-- IMNX on words (07 R174). -/
def minMaxOp (uns max : Bool) (a b : Word) : Word :=
  let less := if uns then a.ult b else a.slt b
  if max then (if less then b else a) else (if less then a else b)

/-- IUNA on words (07 R174). -/
def unaOp (fn : UnaFn) (a : Word) : Word :=
  match fn with
  | .abs => if a.toInt < 0 then -a else a
  | .neg => -a
  | .sabs => wordOfInt (clampTo (-(2 ^ 31)) (2 ^ 31 - 1) a.toInt.natAbs)
  | .sneg => wordOfInt (clampTo (-(2 ^ 31)) (2 ^ 31 - 1) (-a.toInt))

/-- An integer condition (07 R178). -/
def condOp (c : ICond) (a b : Word) : Bool :=
  match c with
  | .eq => a == b
  | .ne => a != b
  | .lt => a.slt b
  | .ge => !a.slt b
  | .lo => a.ult b
  | .hs => !a.ult b
  | .tst => a &&& b != 0
  | .ntst => a &&& b == 0

/-- SHL on words (07 R175). -/
def shlOp (a c : Word) : Word := if c.toNat < 32 then a <<< c.toNat else 0

/-- SHR on words (07 R175). -/
def shrOp (m : ShrMode) (a c : Word) : Word :=
  match m with
  | .logical => if c.toNat < 32 then a >>> c.toNat else 0
  | .arith => a.sshiftRight (min c.toNat 31)
  | .rot => a.rotateRight (c.toNat % 32)

/-- The field of BFX: its position and cut length (07 R176). -/
def bfxField (b : Word) : Nat × Nat :=
  let p := b.toNat % 32
  let n := min (b.toNat / 2 ^ 8 % 64) 32
  (p, min (p + n) 32 - p)

/-- BFX on words (07 R176). -/
def bfxOp (m : BfxMode) (a b d : Word) : Word :=
  let f := bfxField b
  let low : Word := word (2 ^ f.2 - 1)
  match m with
  | .n => (a >>> f.1) &&& low
  | .s =>
    let v := (a >>> f.1) &&& low
    if f.2 ≠ 0 ∧ v.getLsbD (f.2 - 1) then v ||| ~~~low else v
  | .ins => (d &&& ~~~(low <<< f.1)) ||| ((a &&& low) <<< f.1)

/-- BITS on words (07 R177). -/
def bitsOp (fn : BitsFn) (a : Word) : Word :=
  match fn with
  | .popc => word (((List.range 32).filter fun i => a.getLsbD i).length)
  | .clz => word (((List.range 32).takeWhile fun i => !a.getLsbD (31 - i)).length)
  | .brev => a.reverse
  | .ffs => match (List.range 32).find? fun i => a.getLsbD i with
    | some i => word i
    | none => 0xFFFFFFFF

/-- PLOG on bits (07 R179). -/
def plogOp (op : PlogOp) (a b : Mask) : Mask :=
  match op with
  | .and => a &&& b
  | .or => a ||| b
  | .xor => a ^^^ b
  | .andn => a &&& ~~~b
  | .orn => a ||| ~~~b
  | .xnor => ~~~(a ^^^ b)
  | .nand => ~~~(a &&& b)
  | .nor => ~~~(a ||| b)

/-- IDIV on words for a divisor that is not 0 (07 R181). -/
def divOp (uns rem : Bool) (a b : Word) : Word :=
  if uns then (if rem then word (a.toNat % b.toNat) else word (a.toNat / b.toNat))
  else if rem then wordOfInt (a.toInt.tmod b.toInt) else wordOfInt (a.toInt.tdiv b.toInt)

/-- ADDR on words (07 R182). -/
def addrOp (k : Nat) (a b : Word) : Word := a + (b <<< k)

/-- SHI on words (07 R175). -/
def shiOp (k : ShiKind) (n : Nat) (a : Word) : Word :=
  match k with
  | .shl => a <<< n
  | .shr => a >>> n
  | .sar => a.sshiftRight n
  | .rot => a.rotateRight n

/-- A sign-extended immediate (07 R171). -/
def simm (i : BitVec 11) : Word := i.signExtend 32

/-- The immediate of ISETI: zero-extended for .lo and .hs (07 R171). -/
def setImm (c : ICond) (i : BitVec 11) : Word :=
  match c with
  | .lo => i.setWidth 32
  | .hs => i.setWidth 32
  | _ => i.signExtend 32

/-- IADD (07 R172). -/
def execIadd (d a b : Reg) (ind : Bool) (m : SatMode) (s : State) : Host.Outcome State Fault Refusal :=
  issue (.iadd d a b ind m) s fun x => elemInt x false fun a b _ => addOp m a b

/-- ISUB (07 R172). -/
def execIsub (d a b : Reg) (ind : Bool) (m : SatMode) (s : State) : Host.Outcome State Fault Refusal :=
  issue (.isub d a b ind m) s fun x => elemInt x false fun a b _ => subOp m a b

/-- IMUL (07 R173). -/
def execImul (d a b : Reg) (ind : Bool) (m : MulMode) (s : State) : Host.Outcome State Fault Refusal :=
  issue (.imul d a b ind m) s fun x => elemInt x false fun a b _ => mulOp m a b

/-- IMAD (07 R173). -/
def execImad (d a b : Reg) (ind : Bool) (s : State) : Host.Outcome State Fault Refusal :=
  issue (.imad d a b ind) s fun x => elemInt x true fun a b d => a * b + d

/-- IMNX (07 R174). -/
def execImnx (d a b : Reg) (ind uns max : Bool) (s : State) : Host.Outcome State Fault Refusal :=
  issue (.imnx d a b ind uns max) s fun x => elemInt x false fun a b _ => minMaxOp uns max a b

/-- IUNA (07 R174). -/
def execIuna (d a : Reg) (ind : Bool) (fn : UnaFn) (s : State) : Host.Outcome State Fault Refusal :=
  issue (.iuna d a ind fn) s fun x => elemInt x false fun a _ _ => unaOp fn a

/-- ISET (07 R178). -/
def execIset (p : Fin 8) (a b : Reg) (ind : Bool) (c : ICond) (s : State) : Host.Outcome State Fault Refusal :=
  issue (.iset p a b ind c) s fun x => compare x p fun a b => (condOp c a b, 0#7)

/-- IADDI (07 R172). -/
def execIaddi (d a : Reg) (imm : BitVec 11) (s : State) : Host.Outcome State Fault Refusal :=
  issue (.iaddi d a imm) s fun x => elemInt x false fun a _ _ => a + simm imm

/-- AND (07 R175). -/
def execIand (d a b : Reg) (ind : Bool) (s : State) : Host.Outcome State Fault Refusal :=
  issue (.iand d a b ind) s fun x => elemInt x false fun a b _ => a &&& b

/-- OR (07 R175). -/
def execIor (d a b : Reg) (ind : Bool) (s : State) : Host.Outcome State Fault Refusal :=
  issue (.ior d a b ind) s fun x => elemInt x false fun a b _ => a ||| b

/-- XOR (07 R175). -/
def execIxor (d a b : Reg) (ind : Bool) (s : State) : Host.Outcome State Fault Refusal :=
  issue (.ixor d a b ind) s fun x => elemInt x false fun a b _ => a ^^^ b

/-- ANDN (07 R175). -/
def execIandn (d a b : Reg) (ind : Bool) (s : State) : Host.Outcome State Fault Refusal :=
  issue (.iandn d a b ind) s fun x => elemInt x false fun a b _ => a &&& ~~~b

/-- SHL (07 R175). -/
def execShl (d a b : Reg) (ind : Bool) (s : State) : Host.Outcome State Fault Refusal :=
  issue (.shl d a b ind) s fun x => elemInt x false fun a b _ => shlOp a b

/-- SHR (07 R175). -/
def execShr (d a b : Reg) (ind : Bool) (m : ShrMode) (s : State) : Host.Outcome State Fault Refusal :=
  issue (.shr d a b ind m) s fun x => elemInt x false fun a b _ => shrOp m a b

/-- BFX (07 R176). -/
def execBfx (d a b : Reg) (ind : Bool) (m : BfxMode) (s : State) : Host.Outcome State Fault Refusal :=
  issue (.bfx d a b ind m) s fun x => elemInt x (m == .ins) fun a b d => bfxOp m a b d

/-- BITS (07 R177). -/
def execBits (d a : Reg) (ind : Bool) (fn : BitsFn) (s : State) : Host.Outcome State Fault Refusal :=
  issue (.bits d a ind fn) s fun x => elemInt x false fun a _ _ => bitsOp fn a

/-- SEL (07 R180): by thread, or in scalar form by the lowest active lane; with none D is unchanged (03 R90). -/
def execSel (d a b : Reg) (ind : Bool) (p : Fin 8) (s : State) : Host.Outcome State Fault Refusal :=
  issue (.sel d a b ind p) s fun x =>
    let pick := fun (t u : Nat) => if has (x.g.pred p.val) t then x.a.val u else x.b.val u
    if x.vector then .done (putElem x (commonOf x false) fun t => pick t t)
    else
      match lowest x.g.width x.act with
      | some t => .done (putElem x (commonOf x false) fun u => pick t u)
      | none => .done x.s

/-- PLOG (07 R179). -/
def execPlog (d a b : Fin 8) (op : PlogOp) (s : State) : Host.Outcome State Fault Refusal :=
  issue (.plog d a b op) s fun x =>
    .done (x.mod fun g => g.setPred d.val (plogOp op (x.g.pred a.val) (x.g.pred b.val)) x.act)

/-- The active threads whose divisor is 0, every active one in scalar form (07 R181). -/
def zeroDivisors (x : Ins) : Mask :=
  if x.vector then maskOf x.g.width fun t => has x.act t && x.b.val t == 0
  else if x.b.sca = 0 then x.act else 0#128

/-- IDIV (07 R181): the other threads' quotients go into flight; threads with divisor 0 perform DIVZERO.
DESIGN CHOICE (notes/assumptions/50.md): these are not of the threads that R150 counts, so D keeps its map where all divisors are 0. -/
def execIdiv (d a b : Reg) (ind uns rem : Bool) (s : State) : Host.Outcome State Fault Refusal :=
  issue (.idiv d a b ind uns rem) s fun x =>
    let z := zeroDivisors x
    let q := fun (t : Nat) => divOp uns rem (x.a.val t) (x.b.val t)
    let s := if !x.vector && z != 0#128 then x.flight x.s .ready [] 0#7
      else longElem x (commonOf x false) (x.act &&& ~~~z) q 0#7
    if z = 0#128 then .done s
    else x.raise s [x.perf 0x109 .once (z.setWidth 32) 0 0 z (.value x.dst)]

/-- ADDR (07 R182). -/
def execAddr (d a b : Reg) (ind : Bool) (k : Fin 8) (s : State) : Host.Outcome State Fault Refusal :=
  issue (.addr d a b ind k) s fun x => elemInt x false fun a b _ => addrOp k.val a b

/-- ISETI (07 R178). -/
def execIseti (p : Fin 8) (c : ICond) (a : Reg) (imm : BitVec 11) (s : State) : Host.Outcome State Fault Refusal :=
  issue (.iseti p c a imm) s fun x => compare x p fun a _ => (condOp c a (setImm c imm), 0#7)

/-- ANDI (07 R175). -/
def execAndi (d a : Reg) (imm : BitVec 11) (s : State) : Host.Outcome State Fault Refusal :=
  issue (.andi d a imm) s fun x => elemInt x false fun a _ _ => a &&& simm imm

/-- XORI (07 R175). -/
def execXori (d a : Reg) (imm : BitVec 11) (s : State) : Host.Outcome State Fault Refusal :=
  issue (.xori d a imm) s fun x => elemInt x false fun a _ _ => a ^^^ simm imm

/-- SHI (07 R175). -/
def execShi (d a : Reg) (k : ShiKind) (n : Fin 32) (s : State) : Host.Outcome State Fault Refusal :=
  issue (.shi d a k n) s fun x => elemInt x false fun a _ _ => shiOp k n.val a

end Sys2Proof.Machine
end

