-- ==== Sys2Proof/Machine/Width.lean ====
section
/-! DEFINITION. SPLIT, FUSE and the rendezvous time-out (05 R138 to R143; 01 R26, R36, R38). -/

namespace Sys2Proof.Machine

open Sys2Proof

/-! ### The group after a change of width -/

/-- Where a lane of a new group comes from: a group before the change, and the thread there. -/
structure From where
  g : Group
  t : Nat

/-- A register of the new group (05 R141, R142): materialised at the identity, live when it was live somewhere; lanes of a
group where it was not live hold the dead word, those never launched zero (01 R39). -/
def joinReg (srcs : List From) (wcode p : Nat) : VReg where
  elems := srcs.map fun f => (f.g.vreg p).held f.g.never f.t
  bad := maskOf srcs.length fun i => match srcs[i]? with
    | some f => (f.g.vreg p).live && has (f.g.vreg p).bad ((f.g.vreg p).map.at_ f.t)
    | none => false
  map := LaneMap.ident wcode
  live := srcs.any fun f => (f.g.vreg p).live

/-- A group made of lanes of earlier groups (05 R141, R142). Exited lanes stay exited, the others stand at one position. -/
def regroup (srcs : List From) (lead : Group) (key : GKey) (wcode parts born : Nat) (it : Items) (hidden : List Items)
    (late : List Perf) (after : Option Loop × Pos) : Group where
  key := key
  team := lead.team
  wcode := wcode
  parts := parts
  allot := lead.allot
  born := born
  regs := (List.range lead.allot).map (joinReg srcs wcode)
  preds := (List.range 7).map fun k => maskOf srcs.length fun i => match srcs[i]? with
    | some f => has (f.g.preds.getD k 0) f.t
    | none => false
  it := it
  hidden := hidden
  lanes := srcs.map fun f => ⟨after.2, it.callHt, if (f.g.lane f.t).st = .exited then .exited else .run, 0⟩
  never := maskOf srcs.length fun i => ((srcs[i]?).map fun f => has f.g.never f.t).getD false
  cur := none
  loop := after.1
  pend := []
  queue := []
  late := late
  ctxs := []
  stale := (srcs.flatMap fun f => f.g.stale).eraseDups
  yielded := 0
  halted := lead.halted
  bpSkip := none
  issued := lead.issued
  kept := lead.kept
  waited := 0
  lastNs := born

/-- Where the lanes stand after the clause of a width change, and the loop they are in (05 R129, R141, R142). The words of the
clause behind the change do not issue; the last clause of a body counts an iteration all the same (notes/assumptions/46.md). -/
def afterWidth (g : Group) (cl : Clause) : Option Loop × Pos :=
  match g.activeLoop g.present cl.addr with
  | some l =>
    if cl.stop = l.stop then
      (if 1 < l.count then (some { l with count := l.count - 1 }, .header l.start) else (none, .header l.stop))
    else (g.loop, .header cl.stop)
  | none => (g.loop, .header cl.stop)

/-- The generations of slots advance (01 R26). -/
def advanceGens (s : State) (core : Nat) (slots : List Nat) : State :=
  s.modCore core fun c => { c with gens := slots.foldl (fun l k => modAt l k (· + 1)) c.gens }

/-- A group before a change of width, and the name under which it owned. -/
structure Former where
  g   : Group
  own : Own

/-- A job whose issuer is among the old groups, under a new name; its handle stays usable while some slot of its issuer is
occupied (01 R24). -/
def Job.under (old : List Former) (k : GKey) (o : Own) (j : Job) : Job :=
  match old.find? fun f => f.g.key == j.key && f.own == j.own with
  | some f => { j with key := k, own := o, wide := if j.wide.isEmpty then f.g.slots else j.wide }
  | none => j

/-- A store on its way to a slice after a change of width. -/
def Flight.under (old : List Former) (k : GKey) (f : Flight) : Flight :=
  if old.any (fun o => o.g.key == f.key) then { f with key := k } else f

/-- The jobs of the old groups are those of a new one, and so are their stores on the way to slices (05 R139;
notes/assumptions/46.md). -/
def reown (s : State) (old : List Former) (k : GKey) : State :=
  let s := { s with dies := s.dies.map fun (d : Die) => { d with jobs := d.jobs.map (Job.under old k (s.ownOf k)) } }
  s.modCore k.core fun c => { c with flights := c.flights.map (Flight.under old k) }

/-- Arrivals of the parts of a slot that joins again are forgotten (01 R31). -/
def forgetParts (s : State) (uid slot : Nat) : State :=
  s.modTeam uid fun t => { t with bars := t.bars.map fun (b : Bar) => { b with partsIn := b.partsIn.filter fun p => p.1 != slot } }

/-- Groups replace groups on a core: generations advance, jobs follow the first new group (notes/assumptions/46.md). -/
def replaceGroups (s : State) (core : Nat) (old new : List Group) (slots : List Nat) : State :=
  let names := old.map fun g => (⟨g, s.ownOf g.key⟩ : Former)
  let gone := old.map (·.key)
  let s := advanceGens { s with groups := s.groups.filter (fun h => !gone.contains h.key) ++ new } core slots
  match new with
  | g :: _ => reown s names g.key
  | [] => s

/-! ### The conditions of stage 1 (05 R139) -/

/-- A completion flag is pending or the store queue is not empty. -/
def unsettledGroup (g : Group) : Bool := !g.pend.isEmpty || !g.queue.isEmpty

/-- Something the group issued or holds stands against a change of width (05 R139 stage 1, code 4). -/
def widthBusy (s : State) (g : Group) : Bool :=
  let o := s.ownOf g.key
  hasCopies s g.key o || hasEntries s g.key o || holdsClaims s g.key.core o ||
  g.it.handles.any fun h => match jobOf s h with
    | some j => !j.finished
    | none => false

/-- The first condition of stage 1 that holds, if any (05 R139). `okWidth`: R138 allows the change; `cap`: the call-stack
entries that a part's sub-area takes. -/
def stageOne (x : Ins) (okWidth : Bool) (cap : Nat) : Option Nat :=
  if !okWidth then some 6
  else if x.g.present &&& ~~~x.act != 0#128 then some 7
  else if !x.g.it.frames.isEmpty || x.g.it.tokens.any (fun k => k >>> 30 != 0) || decide (cap < x.g.it.callHt) then some 3
  else if widthBusy x.s x.g then some 4
  else none

/-- A width change ends with a status for the group, which goes on at its old width (05 R139). -/
def widthStatus (x : Ins) (d : Reg) (code : Nat) : Act := .done (x.mod (putScalar d (word code)))

/-- The items with D at 0 (05 R141, R142). -/
def zeroD (d : Reg) (it : Items) : Items :=
  match d with
  | .s n => { it with sregs := setAt it.sregs n.val 0 }
  | _ => it

/-- The width code of a width. -/
def codeOfWidth (w : Nat) : Nat := Nat.log2 w - 3

/-! ### SPLIT -/

/-- Copy the parent's call-stack entries into each part's sub-area (01 R36). -/
def copyCalls (s : State) (g : Group) (parts : Nat) : State :=
  let n := 8 * g.it.callHt
  let bs := s.bytes g.hwBase n
  (List.range parts).foldl (fun s i => s.store (cellsAt (g.hwBase + i * (8192 / parts)) bs)) s

/-- SPLIT 16 and SPLIT 8 have effect (05 R142). -/
def splitParts (d : Reg) (pos : Option Loop × Pos) (w : Nat) (k : GKey) (s : State) : State :=
  match s.group? k with
  | none => s
  | some g =>
    let n := 32 / w
    let it := zeroD d g.it
    let part := fun (i : Nat) => regroup ((List.range w).map fun t => ⟨g, w * i + t⟩) g ⟨k.core, k.slot, i⟩ (codeOfWidth w) n
      s.ns it [] (if i = 0 then g.late else []) pos
    replaceGroups (copyCalls s g n) k.core [g] ((List.range n).map part) [k.slot]

/-- SPLIT 32 has effect: the members return with their hidden items (05 R142; 01 R38). -/
def splitMembers (d : Reg) (pos : Option Loop × Pos) (k : GKey) (s : State) : State :=
  match s.group? k with
  | none => s
  | some g =>
    let n := g.members
    let member := fun (j : Nat) => regroup ((List.range 32).map fun t => ⟨g, 32 * j + t⟩) g ⟨k.core, k.slot + j, 0⟩ 2 1
      s.ns (zeroD d (if j = 0 then g.it else g.hidden.getD (j - 1) g.it)) [] (if j = 0 then g.late else []) pos
    replaceGroups s k.core [g] ((List.range n).map member) ((List.range n).map (k.slot + ·))

/-- SPLIT (05 R138, R139, R142). -/
def execSplit (d : Reg) (w : BitVec 11) (s : State) : Host.Outcome State Fault Refusal :=
  issue (.split d w) s fun x =>
    let n := w.toNat
    let ok := if n = 32 then decide (32 < x.g.width) else x.g.width == 32
    if unsettledGroup x.g then .hold x.kept
    else
      match stageOne x ok (if n < 32 then 1024 * n / 32 else 1024) with
      | some code => widthStatus x d code
      | none => 
        let pos := afterWidth x.g x.iss.cl
        .then_ x.s (if n < 32 then splitParts d pos n x.k else splitMembers d pos x.k)

/-! ### FUSE -/

/-- The names of the groups that a FUSE joins, in order (05 R138). -/
def fuseNames (g : Group) (w : Nat) : List GKey :=
  if w = 32 then (List.range (32 / g.width)).map fun i => ⟨g.key.core, g.key.slot, i⟩
  else
    let n := w / 32
    (List.range n).map fun i => ⟨g.key.core, g.key.slot / n * n + i, 0⟩

/-- A partner is empty, exited or of another team (05 R139 code 1). For a partner slot, every group whose lanes stand there
counts. -/
def partnerGone (s : State) (g : Group) (w : Nat) (k : GKey) : Bool :=
  !(s.groups.any fun h => h.key.core == k.core && h.team == g.team && !h.allExited &&
    (if w = 32 then h.key == k else decide (h.key.slot ≤ k.slot) && decide (k.slot < h.key.slot + h.members)))

/-- A group that waits at a FUSE: its word with operands, the tag and D (05 R140). -/
structure Waiting where
  x   : Ins
  tag : BitVec 11
  d   : Reg

/-- The FUSE that a group waits at after its first stage (05 R140). -/
def waitingFuse (s : State) (k : GKey) : Option Waiting :=
  (s.group? k).bind fun g => g.cur.bind fun iss =>
    if iss.prog = .fresh then none
    else match wordAt iss with
      | some (.fuse d a tag) => some ⟨mkIns s g iss (.fuse d a tag), tag, d⟩
      | _ => none

/-- The partners' waits that match a FUSE, in order; the group's own place is left out (05 R140). -/
def arrivedPartners (s : State) (x : Ins) (tag : BitVec 11) (w : Nat) : List Waiting :=
  (fuseNames x.g w).filterMap fun k =>
    if k == x.k then none
    else (waitingFuse s k).bind fun p => if p.tag == tag && p.x.a.sca == word w then some p else none

/-- End the wait of a group at its FUSE with a status (05 R139, R140). -/
def endWait (s : State) (k : GKey) (code : Nat) : State :=
  match waitingFuse s k with
  | some p => finish p.x (p.x.mod (putScalar p.d (word code))) 0#7 [] id
  | none => s

/-- The FUSE completes (05 R141, R142): `dests` are the members' D fields. -/
def fuseGroups (names : List GKey) (dests : List Reg) (pos : Option Loop × Pos) (w : Nat) (s : State) : State :=
  let gs := names.filterMap s.group?
  match gs with
  | [] => s
  | lead :: rest =>
    let its := (gs.zip dests).map fun p => zeroD p.2 p.1.it
    let it := its.headD lead.it
    let srcs := gs.flatMap fun g => (List.range g.width).map fun t => (⟨g, t⟩ : From)
    let slots := if w = 32 then [lead.key.slot] else gs.map (·.key.slot)
    let new := regroup srcs lead ⟨lead.key.core, lead.key.slot, 0⟩ (codeOfWidth w) 1 s.ns it
      (if w = 32 then [] else its.drop 1) (gs.flatMap (·.late)) pos
    let s := if w = 32 then forgetParts s lead.team lead.key.slot else s
    replaceGroups s lead.key.core (lead :: rest) [new] slots

/-- Every partner has arrived: stage 3 and completion (05 R139, R141). -/
def rendezvous (x : Ins) (d : Reg) (w : Nat) (ps : List Waiting) : Act :=
  let differs := ps.any fun p => p.x.g.allot != x.g.allot || p.x.g.it.winBase != x.g.it.winBase
  if differs then
    .act (x.mod (putScalar d 5)) 0#7 [] fun s => ps.foldl (fun s p => endWait s p.x.k 5) s
  else
    let names := fuseNames x.g w
    let dOf := fun (k : GKey) => if k == x.k then d else ((ps.find? fun p => p.x.k == k).map (·.d)).getD .z
    let lead := names.headD x.k
    let first := ((ps.find? fun p => p.x.k == lead).map (·.x)).getD x
    .then_ x.s (fuseGroups names (names.map dOf) (afterWidth first.g first.iss.cl) w)

/-- FUSE (05 R138 to R141). A group that has passed stage 1 keeps its place, marked, until its partners come. -/
def execFuse (d a : Reg) (tag : BitVec 11) (s : State) : Host.Outcome State Fault Refusal :=
  issue (.fuse d a tag) s fun x =>
    let w := x.a.sca.toNat
    let ok := if w = 32 then decide (x.g.width < 32) else (w == 64 || w == 128) && x.g.width == 32
    let stage := if x.iss.prog = .fresh then stageOne x ok 1024 else none
    if x.iss.prog = .fresh ∧ unsettledGroup x.g then .hold x.kept
    else
      match stage with
      | some code => widthStatus x d code
      | none =>
        let others := (fuseNames x.g w).filter (· != x.k)
        if others.any (partnerGone x.s x.g w) then widthStatus x d 1
        else
          let ps := arrivedPartners x.s x tag w
          if ps.length < others.length then .hold (.taken x.csn) else rendezvous x d w ps

/-- FUSE_RENDEZVOUS_TIMEOUT (05 R139, R140): a group that waits at a FUSE ends with status 2, or with 1 when a partner is
gone. -/
def execFuseRendezvousTimeout (k : GKey) (s : State) : Host.Outcome State Fault Refusal :=
  .next <|
    match waitingFuse s k, s.group? k with
    | some p, some g =>
      if !mayIssue s g then s
      else
        let w := p.x.a.sca.toNat
        let gone := ((fuseNames g w).filter (· != k)).any (partnerGone s g w)
        endWait s k (if gone then 1 else 2)
    | _, _ => s

end Sys2Proof.Machine
end

