-- ==== Sys2Proof/Machine/Place.lean ====
section
/-! DEFINITION. Placement: room on a core, windows, rectangles, reservations, and the start of teams (17 R347 to R349, R353 to
R356; 23 R415). -/

namespace Sys2Proof.Machine

open Sys2Proof

/-! ### Room on a core (17 R353; 23 R411) -/

/-- What a team asks of a core: slots, bytes of registers, shared bytes. -/
structure Need where
  slots : Nat
  regs : Nat
  shared : Nat
deriving DecidableEq, Repr

/-- The bytes of registers that some slots take (17 R353). -/
def slotRegs (slots allot : Nat) : Nat := slots * 128 * allot

/-- What a team of a launch needs. -/
def Grid.need (g : Grid) : Need := ⟨g.l.slots, slotRegs g.l.slots g.l.allot, g.l.shBytes⟩

/-- The teams resident on a core. -/
def teamsOn (s : State) (core : Nat) : List Team := s.teams.filter fun t => t.core == core

/-- What a resident team holds of its core. -/
def teamNeed (s : State) (t : Team) : Need :=
  ⟨t.slots, slotRegs (slotsHeld s t) (((s.grid? t.corr).map (·.l.allot)).getD 0), t.shSize⟩

/-- The sum of a measure. -/
def total (f : Need → Nat) (l : List Need) : Nat := l.foldl (fun n x => n + f x) 0

/-- The first block of free slots, at a multiple of 4. -/
def freeSlots (ts : List Team) (n : Nat) : Option Nat :=
  ((List.range 64).map (· * 4)).find? fun b =>
    decide (b + n ≤ 256) && ts.all fun t => decide (b + n ≤ t.first) || decide (t.first + t.slots ≤ b)

/-- The first slot at which a team fits on a core (17 R353). `resid` limits the teams of its own launch. -/
def roomAt (s : State) (core corr resid : Nat) (x : Need) : Option Nat :=
  let ts := teamsOn s core
  let ns := x :: ts.map (teamNeed s)
  if 16 < ns.length ∨ resid ≤ (ts.filter fun t => t.corr == corr).length ∨ 2 ^ 21 < total (·.regs) ns ∨
      2 ^ 20 < total (fun y => round4k y.shared) ns then none
  else freeSlots ts x.slots

/-! ### Windows (17 R348, R349) -/

/-- The windows that launches hold on a die: base and size. -/
def windowsOn (s : State) (die : Nat) : List (Nat × Nat) :=
  s.grids.flatMap fun g => (g.windows.filter fun w => w.1 == die).map fun w => (w.2, g.l.window * 2 ^ 21)

/-- The first free range of a die's scratchpad for a window of some units of 2 MiB: outside the slot reserve, the other windows and
the rings (17 R349; 18 R376; 24 R424). -/
def freeWindow (s : State) (die units : Nat) : Option Nat := freeBase (ringsOn s die ++ windowsOn s die) (units * 2 ^ 21)

/-- The launch holds a window on the die, or one is free. -/
def windowReady (s : State) (g : Grid) (die : Nat) : Bool :=
  (g.windows.any fun w => w.1 == die) || (freeWindow s die g.l.window).isSome

/-- Copy the launch's data blocks into a window, with the tag 0x0000 (17 R348). -/
def placeData (s : State) (g : Grid) (die base : Nat) : State :=
  (g.place.filter fun p => p.2.2 == 0 || p.2.2 / 2 ^ die % 2 == 1).foldl (fun s p =>
    let a := spAddr die (base + p.1)
    (s.store (cellsAt a p.2.1)).setTags ((List.range ((p.2.1.length + 63) / 64)).map fun i => (a + 64 * i, 0#16))) s

/-- Allocate the launch's window on a die, if it has none (17 R349). -/
def openWindow (s : State) (corr die : Nat) : State :=
  match s.grid? corr with
  | none => s
  | some g =>
    if g.windows.any fun w => w.1 == die then s
    else match freeWindow s die g.l.window with
      | none => s
      | some b =>
        let s := placeData (s.setGrid { g with windows := g.windows ++ [(die, b)] }) g die b
        let size := g.l.window * 2 ^ 21
        { s with past := s.past.filter fun p => decide (p.addr < spAddr die b) || decide (spAddr die b + size ≤ p.addr) }

/-! ### Rectangles (17 R355, R356) -/

/-- The cores of a rectangle in row-major order. -/
def rectCores (base rows cols : Nat) : List Nat := (List.range (rows * cols)).map (rectCore base cols)

/-- The rectangles of a shape on the dies a launch may use, lowest first. -/
def rectangles (p : Nat → Bool) (rows cols : Nat) : List Nat :=
  (List.range 192).filter fun b => p (dieOf b) && rectFits b rows cols

/-- A reservation keeps a launch off a core: another launch of equal or higher priority holds it (17 R356). -/
def keptOff (s : State) (g : Grid) (core : Nat) : Bool :=
  s.reserv.any fun r => r.corr != g.corr && (rectCores r.base r.rows r.cols).contains core &&
    ((s.grid? r.corr).map fun h => decide (g.prio ≤ h.prio)).getD false

/-- Where the teams of a cluster stand on a rectangle, if every core has room: core and first slot. -/
def sitesAt (s : State) (g : Grid) (cores : List Nat) : Option (List (Nat × Nat)) :=
  if windowReady s g (dieOf (cores.headD 0)) && cores.all (fun c => !keptOff s g c) then
    let l := cores.filterMap fun c => (roomAt s c g.corr g.residency g.need).map fun r => (c, r)
    if l.length = cores.length then some l else none
  else none

/-- The lowest rectangle of a shape on which every core has room: its base and sites. -/
def findRect (s : State) (g : Grid) (rows cols : Nat) : Option (Nat × List (Nat × Nat)) :=
  (rectangles g.l.mayUse rows cols).findSome? fun b => (sitesAt s g (rectCores b rows cols)).map fun l => (b, l)

/-! ### The start of a team (17 R347; 23 R415; 01 R12, R26, R31) -/

/-- The launched lanes of a group whose first thread is numbered `first` in its team (17 R347). -/
def launched (l : Launch) (first : Nat) : Mask := ones (min l.width (l.threads - first))

/-- The groups that start: those with a launched lane. -/
def startGroups (l : Launch) (core b uid now : Nat) : List Group :=
  ((groupPlan l core b).filter fun p => decide (p.2 < l.threads)).map fun p =>
    Group.start p.1 uid l.wcode (if l.width < 32 then 32 / l.width else 1) l.allot now l.args (launched l p.2)

/-- A team as it starts. The slots that no group starts in count as retired from the start (17 R347; 08 R222). -/
def newTeam (g : Grid) (uid num core b : Nat) (rect : Nat × Nat × Nat) (rank : Nat) : Team where
  uid := uid
  corr := g.corr
  num := num
  x := num % g.l.gx
  y := num / g.l.gx % g.l.gy
  z := num / (g.l.gx * g.l.gy)
  core := core
  first := b
  slots := g.l.slots
  threads := g.l.threads
  cluBase := rect.1
  cluRank := rank
  cluRows := rect.2.1
  cluCols := rect.2.2
  bars := List.replicate 16 ((Bar.start g.l.slots).retire g.l.idle.length)
  layouts := List.replicate 16 none
  shBase := shBaseOf b
  shSize := g.l.shBytes
  saved := false
  held := []

/-- Start one team on a core. -/
def startTeam (s : State) (g : Grid) (num core b : Nat) (rect : Nat × Nat × Nat) (rank : Nat) : State :=
  let uid := s.nextId
  let gs := startGroups g.l core b uid s.ns
  let s := { s with nextId := uid + 1 }
  let s := advanceGens s core ((List.range g.l.slots).map (b + ·))
  { s with teams := s.teams ++ [newTeam g uid num core b rect rank], groups := s.groups ++ gs }

/-- Start a cluster: its windows first, then its teams together (17 R348, R349, R355). -/
def startCluster (s : State) (g : Grid) (first base rows cols : Nat) (sites : List (Nat × Nat)) : State :=
  let s := openWindow s g.corr (dieOf base)
  let s := sites.zipIdx.foldl (fun s p => startTeam s g (first + p.2) p.1.1 p.1.2 (base, rows, cols) p.2) s
  s.modGrid g.corr fun x => { x with
    start := some (x.start.getD s.ns), placedAny := true, waitFrom := s.ns
    next := if x.l.mapped then x.next else first + sites.length, todo := x.todo.filter fun k => k != first }

/-! ### Reservations (17 R356) -/

/-- A launch outranks another for a reservation: a higher priority, or an equal one and a longer wait. -/
def outranks (g h : Grid) : Bool := decide (h.prio < g.prio) || (g.prio == h.prio && decide (g.waitFrom < h.waitFrom))

/-- The launch may take a die's one reservation. -/
def mayReserve (s : State) (g : Grid) (die : Nat) : Bool :=
  match s.reserv.find? fun r => r.die == die with
  | none => true
  | some r => r.corr != g.corr && ((s.grid? r.corr).map (outranks g)).getD true

/-- The occupied slots of a rectangle, of every launch: a slot that has retired is free. -/
def occupied (s : State) (cores : List Nat) : Nat :=
  cores.foldl (fun n c => (teamsOn s c).foldl (fun n t => n + slotsHeld s t) n) 0

/-- Reserve a rectangle. -/
def setReserv (s : State) (g : Grid) (base rows cols : Nat) : State :=
  { s with reserv := ⟨dieOf base, base, rows, cols, g.corr⟩ :: s.reserv.filter fun r => r.die != dieOf base }

/-- Reserve the rectangle with the fewest occupied slots, ties to the lowest, for a launch that holds none. -/
def reserveRect (s : State) (g : Grid) (p : Nat → Bool) (rows cols : Nat) : State :=
  if s.reserv.any fun r => r.corr == g.corr then s
  else
    let l := rectangles (fun d => p d && mayReserve s g d) rows cols
    let n := fun (b : Nat) => occupied s (rectCores b rows cols)
    match l.foldl (fun o b => match o with
        | none => some b
        | some c => if n b < n c then some b else some c) none with
    | some b => setReserv s g b rows cols
    | none => s

/-- The reservations of a launch end with the cluster they were for. -/
def endReserv (s : State) (corr : Nat) (p : Reserv → Bool) : State :=
  { s with reserv := s.reserv.filter fun r => r.corr != corr || !p r }

/-! ### Clusters (17 R354 to R356) -/

/-- The base of the rectangle that a mapped cluster stands on. -/
def Grid.mapBase (g : Grid) (first : Nat) : Nat := g.map.getD first 0

/-- The clusters of a mapped launch that wait hold reservations, each from the moment it starts to wait (17 R354, R356). -/
def reserveMapped (s : State) (g : Grid) : State :=
  let l := g.l
  g.todo.foldl (fun s k =>
    if (sitesAt s g (rectCores (g.mapBase k) l.prefRows l.prefCols)).isNone && mayReserve s g (dieOf (g.mapBase k)) then
      setReserv s g (g.mapBase k) l.prefRows l.prefCols
    else s) s

/-- Place a cluster of a mapped launch: the first that fits. -/
def placeMapped (s : State) (g : Grid) : State :=
  let l := g.l
  let s := reserveMapped s g
  match g.todo.findSome? fun k => (sitesAt s g (rectCores (g.mapBase k) l.prefRows l.prefCols)).map fun x => (k, x) with
  | some p => endReserv (startCluster s g p.1 (g.mapBase p.1) l.prefRows l.prefCols p.2) g.corr fun r => r.base == g.mapBase p.1
  | none => s

/-- The shapes a launch without a map tries: in fallback mode the fallback shape after the preferred one; a shape takes no more
teams than are left. -/
def Grid.shapes (g : Grid) : List (Nat × Nat) :=
  ((g.l.prefRows, g.l.prefCols) :: (if g.fallback then [(g.l.fallRows, g.l.fallCols)] else [])).filter fun p =>
    decide (g.next + p.1 * p.2 ≤ g.l.teams)

/-- The rectangle a launch without a map may take for its next cluster: the one it has reserved, which stands until it has room,
else any (17 R356). -/
def nextRect (s : State) (g : Grid) : Option ((Nat × Nat) × Nat × List (Nat × Nat)) :=
  match s.reserv.find? fun r => r.corr == g.corr with
  | some r => (sitesAt s g (rectCores r.base r.rows r.cols)).map fun l => ((r.rows, r.cols), r.base, l)
  | none => g.shapes.findSome? fun p => (findRect s g p.1 p.2).map fun x => (p, x)

/-- Place the next cluster of a launch without a map, or reserve a rectangle for it. -/
def placeNext (s : State) (g : Grid) : State :=
  match nextRect s g with
  | some (p, x) => endReserv (startCluster s g g.next x.1 p.1 p.2 x.2) g.corr fun _ => true
  | none => if g.fallback then reserveRect s g g.l.mayUse g.l.fallRows g.l.fallCols else s

/-- A launch that still waits to place a cluster. -/
def waitingGrid (s : State) (corr : Nat) : Option Grid :=
  match s.grid? corr with
  | some g => if g.phase == .live && !g.allPlaced then some g else none
  | none => none

/-- CLUSTER_PLACEMENT (17 R348, R349, R353 to R356; 23 R415). -/
def execClusterPlacement (corr : Nat) (s : State) : Host.Outcome State Fault Refusal :=
  .next (match waitingGrid s corr with
    | some g => if g.l.mapped then placeMapped s g else placeNext s g
    | none => s)

/-- A launch has waited 64 µs without placing a cluster (17 R356). -/
def waited64 (s : State) (g : Grid) : Bool := decide (g.waitFrom + 64000 ≤ s.ns)

/-- FALLBACK_MODE (17 R356): the launch tries the fallback shape at once, and reserves a rectangle where it fits neither. -/
def execFallbackMode (corr : Nat) (s : State) : Host.Outcome State Fault Refusal :=
  .next (match waitingGrid s corr with
    | some g =>
      if !g.l.mapped && !g.fallback && waited64 s g then placeNext (s.setGrid { g with fallback := true }) { g with fallback := true }
      else s
    | none => s)

/-- PRIORITY7_PREEMPTION (17 R356): the launches of priority 0 to 5 on the cores of its reserved rectangles are pre-empted. -/
def execPriority7Preemption (corr : Nat) (s : State) : Host.Outcome State Fault Refusal :=
  .next (match waitingGrid s corr with
    | some g =>
      if g.prio == 7 && waited64 s g then
        let cores := (s.reserv.filter fun r => r.corr == corr).flatMap fun r => rectCores r.base r.rows r.cols
        let hit := (s.teams.filter fun t => cores.contains t.core).map (·.corr)
        (s.grids.filter fun h => hit.contains h.corr && decide (h.prio ≤ 5)).foldl (fun s h => requestPreempt s h.corr) s
      else s
    | none => s)

end Sys2Proof.Machine
end

