-- ==== Sys2Proof/Machine/Dump.lean ====
section
/-! DEFINITION. The bytes of a dump: the context of a saved team, item by item (01 R12; 05 R117; 17 R362; 24 R428). The specification
gives the contents and their order; offsets within an item are the model's (notes/assumptions/17.md). -/

namespace Sys2Proof.Machine

open Sys2Proof

/-! ### Words of plain items -/

/-- A barrier register as a word (01 R31). -/
def Bar.word (b : Bar) : Word := Sys2Proof.word (b.arrived.toNat + b.expected.toNat * 2 ^ 16 + b.phase.toNat * 2 ^ 31)

/-- The words of a mask. -/
def maskWords (m : Mask) : List Word := (List.range 4).map fun i => m.extractLsb' (32 * i) 32

/-- The two words of a 64-bit value. -/
def dwordWords (d : DWord) : List Word := [d.setWidth 32, (d >>> 32).setWidth 32]

/-- A word with a bit for each of some conditions. -/
def bitsWord (l : List Bool) : Word := word (l.zipIdx.foldl (fun n b => n + if b.1 then 2 ^ b.2 else 0) 0)

/-- The code of a lane's state in a dump (05 R117; notes/assumptions/17.md). -/
def LaneSt.code : LaneSt → Nat
  | .run => 0
  | .ret => 1
  | .hpop _ => 2
  | .arrive .. => 3
  | .phase .. => 4
  | .exited => 5

/-- The stacks of a group in a dump: the handler stack from the top, by the records of 01 R27, and the entries of the call stack. -/
def stackDump (s : State) (g : Group) : List Word × List Word :=
  (word g.depth :: g.it.frames.zipIdx.flatMap (fun p => p.1.words (g.depth - p.2)),
   word g.it.callHt :: (List.range g.it.callHt).flatMap fun i => [s.word32 (g.callSlot (i + 1)), s.word32 (g.callSlot (i + 1) + 4)])

/-- A list: its length, then its items. -/
def listDump {α : Type} (f : α → List Word) (l : List α) : List Word := word l.length :: l.flatMap f

/-- An item that may be absent. -/
def optDump {α : Type} (f : α → List Word) (o : Option α) : List Word :=
  match o with
  | none => [0]
  | some x => 1 :: f x

/-- One number. -/
def natDump (n : Nat) : List Word := [word n]

/-- A group's name. -/
def keyDump (k : GKey) : List Word := [word (k.core + k.slot * 2 ^ 8 + k.sub * 2 ^ 16)]

/-- An owner. -/
def Own.dump (o : Own) : List Word := [word (o.slot + o.sub * 2 ^ 8 + o.gen * 2 ^ 16)]

/-- The mark of an issue. -/
def IssueMark.dump (m : IssueMark) : List Word := words64 m.ns ++ [bitsWord [m.on]]

/-! ### Groups: clause in progress, loop, contexts, pending results (03 R70; 05 R131; 11 R293; 01 R20) -/

/-- A clause. -/
def Clause.dump (c : Clause) : List Word :=
  [word c.addr, c.h1, word c.seta, word c.setb, bitsWord [c.yld]] ++ listDump (fun w => [w]) c.words

/-- The elements of a BINA. -/
def BinEl.dump (e : BinEl) : List Word := [word e.thread, e.idx, e.val]

/-- How far a word has come. -/
def Progress.dump (p : Progress) : List Word :=
  match p with
  | .fresh => [0]
  | .taken csn => [1, csn]
  | .bin csn els => [2, csn] ++ listDump BinEl.dump els

/-- Where a lane stands. -/
def Pos.dump (p : Pos) : List Word :=
  match p with
  | .header pc => [0, word pc]
  | .inside cl idx p => [1, word idx] ++ cl.dump ++ p.dump

/-- The state of a lane; frames by their depth. -/
def LaneSt.dump (g : Group) (l : LaneSt) : List Word :=
  word l.code :: match l with
  | .hpop f => [word (((g.frame? f).map (·.2)).getD 0)]
  | .arrive n wait d pc => [word n, bitsWord [wait]] ++ optDump natDump d ++ [word pc]
  | .phase n old pc bar => [word n, bitsWord [old, bar], word pc]
  | _ => []

/-- A lane (05 R117). -/
def Lane.dump (g : Group) (l : Lane) : List Word := l.pos.dump ++ l.st.dump g ++ [word l.depth, word l.age]

/-- A destination. -/
def Dst.dump (d : Dst) : List Word :=
  match d with
  | .none => [0]
  | .vec r => [1, word r]
  | .sca n => [2, word n]

/-- A copy or job that waits. -/
def refDump (r : EngRef) : List Word :=
  match r with
  | .copy core id => [0, word core, word id]
  | .job die idx => [1, word die, word idx]

/-- What waits for a handler's action. -/
def Src.dump (x : Src) : List Word :=
  match x with
  | .none => [0]
  | .trap => [1]
  | .value d => 2 :: d.dump
  | .soft d p => 3 :: d.dump ++ p.dump
  | .stall p => 4 :: p.dump
  | .stallEnq h p => [5, word h] ++ p.dump
  | .bin csn els p => [6, csn] ++ listDump BinEl.dump els ++ p.dump
  | .engine r => 7 :: refDump r

/-- An effect: its record, its lanes, what waits, when its source issued. -/
def Perf.dump (p : Perf) : List Word := p.record p.lanes ++ maskWords p.lanes ++ p.src.dump ++ optDump IssueMark.dump p.mark

/-- The place of an invocation among the contexts, from 1; 0 for none. -/
def ctxPlace (g : Group) (inv : Nat) : Nat := ((g.ctxs.findIdx? fun c => c.uid == inv).map (· + 1)).getD 0

/-- A loop (05 R131). -/
def Loop.dump (g : Group) (l : Loop) : List Word :=
  [word l.count, word l.start, word l.stop, word (ctxPlace g l.inv)] ++ listDump (fun w => [w]) l.words

/-- What a lane's resumption restores. -/
def Snap.dump (g : Group) (x : Snap) : List Word := x.pos.dump ++ x.st.dump g ++ [word x.depth]

/-- A handler context (11 R293); frames by their depth. -/
def Ctx.dump (g : Group) (c : Ctx) : List Word :=
  let depth := fun (f : Nat) => word (((g.frame? f).map (·.2)).getD 0)
  depth c.frame :: c.perf.dump ++ maskWords c.q ++ maskWords c.left ++ c.snaps.flatMap (Snap.dump g) ++
  [bitsWord [c.token, c.ended], c.k0, word c.callHt] ++ listDump (fun f => [depth f]) c.above ++ optDump (Loop.dump g) c.loop ++
  listDump Perf.dump c.rest ++ optDump (fun x => x.1.dump ++ maskWords x.2) c.clause

/-- A result. -/
def Land.dump (l : Land) : List Word :=
  match l with
  | .elem r e v => [0, word r, word e, v]
  | .sreg n v => [1, word n, v]
  | .handle n v => [2, word n] ++ dwordWords v

/-- What an instruction in flight waits for. -/
def Await.dump (a : Await) : List Word :=
  match a with
  | .ready => [0]
  | .queue => [1]
  | .drain bank e0 r act => [2, word bank, word e0, word r] ++ maskWords act
  | .wrsr sel v => [3, word sel, v]
  | .stamp v => [4, v]

/-- A pending result (01 R20, R21). -/
def Pend.dump (p : Pend) : List Word :=
  optDump natDump p.flag ++ [bitsWord [p.mem, p.hold]] ++ p.await.dump ++ listDump Land.dump p.lands ++
  [p.flags.setWidth 32, p.pc, p.csn] ++ p.mark.dump

/-- The copies of per-group items that a member hides (01 R38). -/
def Items.dump (i : Items) : List Word :=
  [word i.winBase] ++ i.sregs ++ [i.x] ++ i.handles.flatMap dwordWords ++ i.tokens ++
  listDump (fun p => p.1.words (i.frames.length - p.2)) i.frames.zipIdx ++
  [i.fflags, i.csn, word i.callHt, i.lastBatch, bitsWord [i.traceOn, i.stampOn]]

/-- A group in a dump: its registers by physical number, then the items of 01 R12 in table order, then what 17 R362 adds: the lanes of
05 R117, the batch and switches of SYS, the width, the loop, the clause in progress, the handler contexts, pending results, late
effects, hidden items. -/
def groupDump (s : State) (g : Group) : List Word :=
  let st := stackDump s g
  g.regs.flatMap (·.elems) ++
  [word g.it.winBase] ++ g.it.sregs ++ (g.preds ++ [g.full]).flatMap maskWords ++
  [g.it.x, bitsWord ((List.range 12).map g.flagPending)] ++ g.it.handles.flatMap dwordWords ++ g.it.tokens ++ st.1 ++
  [g.it.fflags, g.it.csn, word ((s.core g.key.core).gens.getD g.key.slot 0).toNat] ++
  g.regs.flatMap (fun r => dwordWords r.map.descriptor ++ [bitsWord [r.live]]) ++ st.2 ++
  g.lanes.flatMap (Lane.dump g) ++
  [g.it.lastBatch, bitsWord [g.it.traceOn, g.it.stampOn], word g.wcode, word g.parts] ++ optDump (Loop.dump g) g.loop ++
  optDump (fun i => i.cl.dump ++ [word i.idx] ++ maskWords i.active ++ i.prog.dump) g.cur ++ listDump (Ctx.dump g) g.ctxs ++
  listDump Pend.dump g.pend ++ listDump Perf.dump g.late ++ listDump Items.dump g.hidden

/-! ### Core items (01 R32, R33; 10 R263, R270 to R274; 09 R239; 12 R299; 24 R424) -/

/-- A tile. -/
def Tile.dump (t : Tile) : List Word := [word (t.base + t.n * 2 ^ 8)]

/-- The operation of a derivation. -/
def DerivOp.dump (o : DerivOp) : List Word :=
  match o with
  | .mmaa half s0 cnt a => [0, word half, word s0, word cnt] ++ a.dump
  | .add a b => 1 :: a.dump ++ b.dump
  | .sub a b => 2 :: a.dump ++ b.dump
  | .scale a k => 3 :: a.dump ++ [k]
  | .copy a => 4 :: a.dump
  | .transpose a => 5 :: a.dump

/-- An array operation. -/
def MOp.dump (o : MOp) : List Word :=
  match o with
  | .mma d slot s0 cnt half tb ov => 0 :: d.dump ++ [word slot, word s0, word cnt, word half, bitsWord [tb, ov]]
  | .mmaa d a s0 cnt half ov => 1 :: d.dump ++ a.dump ++ [word s0, word cnt, word half, bitsWord [ov]]
  | .mmsp d vals idxs half tb ov => 2 :: d.dump ++ [word vals, word idxs, word half, bitsWord [tb, ov]]
  | .publ t tag => 3 :: t.dump ++ optDump natDump tag
  | .seal t tag => 4 :: t.dump ++ [word tag]
  | .old src first cnt tag => 5 :: words64 src ++ [word first, word cnt] ++ optDump (fun v => [v.setWidth 32]) tag
  | .sltg first cnt tag => [6, word first, word cnt, tag.setWidth 32]
  | .afil t v => 7 :: t.dump ++ [v]
  | .alin op d => 8 :: op.dump ++ d.dump
  | .ast t dst stride => 9 :: t.dump ++ words64 dst ++ [word stride]
  | .ost t fmt sat scale dst => 10 :: t.dump ++ [word (OstFmt.codes.idxOf fmt), bitsWord [sat], scale.setWidth 32] ++ words64 dst

/-- An entry of the matrix queue, with how far an OLD has come (10 R263, R274). -/
def MEntry.dump (e : MEntry) : List Word :=
  keyDump e.key ++ e.own.dump ++ e.op.dump ++ [word e.id, e.pc, e.csn] ++ e.mark.dump ++ optDump (fun w => [w]) e.batch ++
  [bitsWord [e.landed], word e.done] ++ optDump words64 e.ready

/-- A lineage tag with its pins (01 R32; 10 R271). -/
def LTag.dump (t : LTag) : List Word :=
  let st := match t.st with
    | .free => 0
    | .opened => 1
    | .sealed => 2
    | .settled => 3
  [word st] ++ t.pub.dump ++ t.tile.dump ++ [word t.made] ++ listDump natDump t.pins

/-- A derivation (10 R271). -/
def Deriv.dump (d : Deriv) : List Word :=
  [word d.uid, word d.tag] ++ d.dst.dump ++ d.op.dump ++ [word d.j0, word d.entry, bitsWord [d.made]]

/-- An owed application (10 R272). -/
def App.dump (a : App) : List Word := [word a.deriv, word a.tag, word a.j] ++ listDump (fun w => [w]) a.corr ++ a.entry.dump

/-- A layout handle in a dump. -/
def layoutDump (l : Option Layout) : List Word :=
  match l with
  | none => List.replicate 15 0
  | some l => words64 l.base ++ [word l.space, word l.fmt, word l.esize, word l.ext0, word l.ext1, word l.ext2, l.fill] ++
      words64 l.str1 ++ words64 l.str2 ++ [l.scale.setWidth 32, bitsWord [l.rtags, l.wtags, l.sat]]

/-- A byte of memory as it stood. -/
def cellDump (c : Nat × Byte) : List Word := words64 c.1 ++ [c.2.setWidth 32]

/-- How an engine operation is stopped. -/
def Susp.dump (x : Susp) : List Word :=
  match x with
  | .none => [0]
  | .walk va write since => 1 :: words64 va ++ [bitsWord [write], word since]
  | .held va told => 2 :: words64 va ++ [bitsWord [told]]
  | .fabric req => [3, word req]
  | .effect base len => 4 :: words64 base ++ words64 len

/-- The issuer and stop of a copy. -/
def Eng.dump (e : Eng) : List Word :=
  keyDump e.key ++ e.own.dump ++ [e.pc, e.csn, e.flags.setWidth 32] ++ e.mark.dump ++ e.susp.dump ++
  listDump (fun x => words64 x.base ++ words64 x.len ++ [bitsWord [x.patch]]) e.skips ++ listDump words64 e.counted ++
  listDump cellDump e.got ++ listDump cellDump e.out ++ listDump natDump e.put ++ words64 e.outVa ++ listDump words64 e.acked

/-- The box of a copy and how far it has come. -/
def Move.dump (m : Move) : List Word :=
  layoutDump (some m.src) ++ layoutDump (some m.dst) ++ [word m.hs, word m.hd] ++
  ([m.c1, m.c2, m.c3s, m.c3d, m.c4, m.c5].map fun i => BitVec.ofInt 32 i) ++ [word m.nx, word m.ny, word m.at_, word m.outAt] ++
  listDump natDump m.ahead ++ listDump natDump m.early ++ listDump cellDump m.snap ++ [m.tag.setWidth 32, m.pad, bitsWord [m.nib]]

/-- What a copy does. -/
def CopyKind.dump (k : CopyKind) : List Word :=
  match k with
  | .plain => [0]
  | .peer sig => 1 :: optDump words64 sig
  | .ring src dst base => [2, word src, word dst, word base]

/-- A region of a footprint. -/
def Region.dump (r : Region) : List Word := word r.space :: words64 r.lo ++ words64 r.hi

/-- A suspended copy with its progress. -/
def Copy.dump (y : Copy) : List Word :=
  y.toEng.dump ++ y.toMove.dump ++ [word y.id] ++ y.kind.dump ++ optDump natDump y.arrive ++ [y.batch, bitsWord [y.shared]] ++
  optDump natDump y.follow ++ listDump Region.dump y.reads ++ listDump Region.dump y.writes

/-- A walker with its registers, position and target. -/
def Walker.dump (w : Walker) : List Word :=
  listDump (fun x => [x]) w.w ++ [word w.job, w.pc] ++
  optDump (fun t => [word t.1, word t.2.1, word t.2.2.1, t.2.2.2.setWidth 32]) w.target ++ [word w.steps, word w.part]

/-- The core items of a team: halves with their bytes, tags and claims, banks with their bytes, claims and grants, lineage tags,
derivations, queue entries, owed applications, copies, the walker, stamps. -/
def coreDump (x : SavedTeam) : List Byte :=
  let bytesOf := fun (l : List (Nat × List Byte)) (i : Nat) => ((l.find? fun u => u.1 == i).map (·.2)).getD []
  let half := fun (h : Nat × Own) =>
    let u := x.op.find? fun u => u.1 == h.1
    wordBytes (word h.1 :: h.2.dump) ++ bytesOf (x.op.map fun u => (u.1, u.2.1)) h.1 ++
      ((u.map (·.2.2)).getD []).flatMap fun t => leBytes 2 t.toNat
  let bank := fun (b : Nat × Bank) =>
    wordBytes (word b.1 :: optDump Own.dump b.2.owner ++ optDump Own.dump b.2.grantee) ++ bytesOf x.acc b.1
  wordBytes (natDump x.halves.length) ++ x.halves.flatMap half ++ wordBytes (natDump x.banks.length) ++ x.banks.flatMap bank ++
  wordBytes (listDump (fun p => word p.1 :: p.2.dump) x.tags ++ listDump Deriv.dump x.derivs ++ listDump MEntry.dump x.mq ++
    listDump App.dump x.apps ++ listDump Copy.dump x.copies ++ optDump Walker.dump x.walker ++
    listDump (fun (t : Stamp) => [word t.bank, word t.id, t.pc, t.csn] ++ words64 t.t0 ++ optDump words64 t.tr ++
      optDump words64 t.t1 ++ optDump words64 t.tl) x.stamps)

/-! ### The team context -/

/-- A group comes before another by slot, then by sub-slot: in rank order (01 R17). -/
def insertRank (g : Group) : List Group → List Group
  | [] => [g]
  | h :: hs =>
    if decide (g.key.slot < h.key.slot) || (g.key.slot == h.key.slot && decide (g.key.sub < h.key.sub)) then g :: h :: hs
    else h :: insertRank g hs

/-- A team context in a dump: the team items of 17 R362, those of its core, then its groups in rank order. -/
def teamDump (s : State) (x : SavedTeam) : List Byte :=
  x.shared ++ wordBytes (x.team.bars.map Bar.word ++ [bitsWord (x.team.bars.map (·.track))] ++ x.team.layouts.flatMap layoutDump) ++
    coreDump x ++ wordBytes ((x.groups.foldr insertRank []).flatMap (groupDump s))

/-- The bytes of a team context, a multiple of 64. -/
def dumpSize (s : State) (l : List SavedTeam) : Nat := l.foldl (fun n x => max n (((teamDump s x).length + 63) / 64 * 64)) 0

end Sys2Proof.Machine
end

