-- ==== Sys2Proof/Machine/Preempt.lean ====
section
/-! DEFINITION. Pre-emption: the request, the halt and save, the restore, the dump (01 R42; 17 R360 to R364; 24 R428). -/

namespace Sys2Proof.Machine

open Sys2Proof

/-- PREEMPT (17 R360, R364; 25 R430): the high word completes the number with the low word last written. -/
def execPreempt (q : Nat) (hi : Word) (s : State) : Host.Outcome State Fault Refusal :=
  .next (match s.queues[q]? with
    | none => s
    | some x =>
      let corr := hi.toNat * 2 ^ 32 + x.preemptLo.toNat
      if corr / 2 ^ 56 = q then requestPreempt s corr else s)

/-! ### The halt (17 R360) -/

/-- What a group had issued has completed. A drain behind array entries that have not started stays pending and is saved with
the group. -/
def groupHalted (s : State) (g : Group) : Bool :=
  g.queue.isEmpty && !aloft s g.key && g.pend.all fun p => match p.await with
    | .drain .. => olderEntry s g.key.core (s.ownOf g.key) p.id
    | _ => false

/-- Every core that runs the grid has halted it; its copies have closed their blocks (17 R360). -/
def halted (s : State) (corr : Nat) : Bool :=
  let ts := teamsOf s corr
  (s.groups.all fun g => !ts.contains g.team || groupHalted s g) &&
  s.cores.all fun c => (c.running.all fun r => !ts.contains r.entry.team) &&
    c.copies.all fun y => y.corr != corr || y.rests

/-! ### The save (17 R362) -/

/-- The bytes of some units of 8 KiB. -/
def unitBytes (s : State) (a : Nat) (l : List Nat) : List (Nat × List Byte) := l.map fun i => (i, s.bytes (a + i * 8192) 8192)

/-- The tags of a half. -/
def halfTags (s : State) (core h : Nat) : List (BitVec 16) := (List.range 128).map fun i => s.tag (opAddr core (h * 8192 + 64 * i))

/-- The poisoned granules within some ranges. -/
def poisonWithin (s : State) (l : List (Nat × Nat)) : List Nat :=
  s.poison.filter fun a => l.any fun r => decide (r.1 ≤ a) && decide (a < r.1 + r.2)

/-- The context of a team as it is saved. -/
def saveTeam (s : State) (t : Team) : SavedTeam :=
  let c := s.core t.core
  let mine := ownedBy [t] t.core
  let hs := (List.range 64).filter fun h => ((c.halfOwner h).map mine).getD false
  let bs := (List.range 128).filter fun b => ((c.bank b).owner.map mine).getD false
  let ks := (List.range 16).filter fun i => (c.tag i).st != .free && (c.tag i).team == t.uid
  let walker := c.walker.bind fun w => match s.job? (dieOf t.core) w.job with
    | some j => if j.team = t.uid then some w else none
    | none => none
  let areas := (List.range t.slots).map fun i => (slotArea t.core (t.first + i), 2 ^ 15)
  let tagsOf := fun (a n : Nat) => (List.range (n / 64)).map fun i => s.tag (a + 64 * i)
  { team := { t with saved := true }
    groups := s.groups.filter fun g => g.team == t.uid
    halves := hs.filterMap fun h => (c.halfOwner h).map fun o => (h, o)
    banks := bs.map fun b => (b, c.bank b)
    tags := ks.map fun i => (i, c.tag i)
    derivs := c.derivs.filter fun d => ks.contains d.tag
    mq := c.mq.filter fun e => e.team == t.uid
    apps := c.apps.filter fun a => a.entry.team == t.uid
    copies := c.copies.filter fun y => y.team == t.uid
    walker := walker
    stamps := c.stamps.filter fun x => bs.contains x.bank
    op := (unitBytes s (opAddr t.core 0) hs).map fun u => (u.1, u.2, halfTags s t.core u.1)
    acc := unitBytes s (accAddr t.core 0) bs
    shared := s.bytes (shAddr t.core t.shBase) (round4k t.shSize)
    shTags := tagsOf (shAddr t.core t.shBase) (round4k t.shSize)
    areas := areas.map fun a => s.bytes a.1 a.2
    areaTags := areas.map fun a => tagsOf a.1 a.2
    gens := (List.range t.slots).map fun i => c.gens.getD (t.first + i) 0
    poison := poisonWithin s (areas ++ [(shAddr t.core t.shBase, round4k t.shSize)] ++
      hs.map (fun h => (opAddr t.core (h * 8192), 8192)) ++ bs.map fun b => (accAddr t.core (b * 8192), 8192)) }

/-- The walkers of a launch's jobs whose teams have ended, by core (01 R40, R41; 17 R362). -/
def orphanWalkers (s : State) (corr : Nat) : List (Nat × Walker) :=
  (List.range 192).filterMap fun i => (s.core i).walker.bind fun w =>
    match s.job? (dieOf i) w.job with
    | some j => if j.corr = corr ∧ (s.team? j.team).isNone then some (i, w) else none
    | none => none

/-- The core once a saved team has left it. -/
def leaveCore (s : State) (x : SavedTeam) : State :=
  let t := x.team
  let s := s.modCore t.core fun c => { c with
    mq := c.mq.filter fun e => e.team != t.uid
    apps := c.apps.filter fun a => a.entry.team != t.uid
    copies := c.copies.filter fun y => y.team != t.uid
    walker := if x.walker.isSome then none else c.walker }
  { s with
    cores := s.cores.mapIdx fun i c => if i = t.core then freeCore [t] i c else c
    groups := s.groups.filter fun g => g.team != t.uid
    teams := s.teams.filter fun y => y.uid != t.uid }

/-! ### The dump (24 R428) -/

/-- Write the dump of a grid at its save area. -/
def writeDump (s : State) (g : Grid) (l : List SavedTeam) : State :=
  let a := hbmAddr (saveBase g.image)
  let size := dumpSize s l
  let head := words64 g.corr ++ [word l.length, word size] ++ words64 s.ns ++ [if g.bp then s.dist.bpHit else 0] ++
    List.replicate 9 0
  let teams := l.map (teamDump s)
  let s := s.store (cellsAt a (wordBytes head))
  let s := teams.zipIdx.foldl (fun s p => s.store (cellsAt (a + 64 + p.2 * size) p.1)) s
  { s with dist := { s.dist with dumpAddr := saveBase g.image } }

/-- The grid's teams by number (24 R428). -/
def teamOrder (l : List Team) : List Team :=
  l.foldl (fun acc t => (acc.takeWhile fun x => decide (x.num ≤ t.num)) ++ [t] ++ acc.dropWhile fun x => decide (x.num ≤ t.num)) []

/-- Save a halted grid (17 R362; 24 R428). -/
def saveGrid (s : State) (g : Grid) : State :=
  let l := (teamOrder (s.teams.filter fun t => t.corr == g.corr)).map (saveTeam s)
  let ws := orphanWalkers s g.corr
  let s := writeDump s g l
  let s := l.foldl leaveCore s
  let s := ws.foldl (fun s p => s.modCore p.1 fun c => { c with walker := none }) s
  let s := endReserv s g.corr fun _ => true
  s.setGrid { g with phase := .saved, saved := l, walkers := ws, haltTime := s.ns }

/-- PREEMPT_HALT_COMPLETE (17 R360 to R362). -/
def execPreemptHaltComplete (corr : Nat) (s : State) : Host.Outcome State Fault Refusal :=
  .next (match s.grid? corr with
    | some g => if g.phase == .halting && halted s corr then saveGrid s g else s
    | none => s)

/-! ### The restore (17 R363) -/

/-- Where a saved team goes: core and first slot. -/
structure Home where
  core : Nat
  slot : Nat
deriving DecidableEq, Repr

/-- The base of the team's shared memory there. -/
def Home.sh (h : Home) : Nat := shBaseOf h.slot

/-- A group's name at its new home. -/
def moveKey (t : Team) (h : Home) (k : GKey) : GKey := ⟨h.core, k.slot - t.first + h.slot, k.sub⟩

/-- An owner at its new home: its generation goes with it (01 R42). -/
def moveOwn (t : Team) (h : Home) (o : Own) : Own := { o with slot := o.slot - t.first + h.slot }

/-- A flat address at the new home: the team's shared memory, operand and accumulator memory move. -/
def moveAddr (t : Team) (h : Home) (a : Nat) : Nat :=
  let r := regionOf a
  let areas := slotArea t.core t.first
  if r = 8 then a - shAddr t.core t.shBase + shAddr h.core h.sh
  else if r = 9 then a - opAddr t.core 0 + opAddr h.core 0
  else if r = 10 then a - accAddr t.core 0 + accAddr h.core 0
  else if areas ≤ a ∧ a < areas + t.slots * 2 ^ 15 then a - areas + slotArea h.core h.slot
  else a

/-- A copy's name at the new home. -/
def moveRef (t : Team) (h : Home) (r : EngRef) : EngRef :=
  match r with
  | .copy core id => if core = t.core then .copy h.core id else r
  | .job _ _ => r

/-- An effect that waits for a copy of the team. -/
def Perf.move (t : Team) (h : Home) (p : Perf) : Perf :=
  match p.src with
  | .engine r => { p with src := .engine (moveRef t h r) }
  | _ => p

/-- A token of the team's groups names the slot they now stand in (01 R26, R42). -/
def moveToken (t : Team) (h : Home) (w : Word) : Word :=
  let slot := w.toNat / 2 ^ 14 % 256
  if w = 0 ∨ slot < t.first ∨ t.first + t.slots ≤ slot then w
  else word (w.toNat - slot * 2 ^ 14 + (slot - t.first + h.slot) * 2 ^ 14)

/-- The items of a group at the new home. -/
def Items.move (t : Team) (h : Home) (i : Items) : Items := { i with tokens := i.tokens.map (moveToken t h) }

/-- A group at the new home. -/
def Group.move (t : Team) (h : Home) (g : Group) : Group :=
  { g with
    key := moveKey t h g.key
    it := g.it.move t h
    hidden := g.hidden.map (Items.move t h)
    late := g.late.map (Perf.move t h)
    ctxs := g.ctxs.map fun c => { c with k0 := moveToken t h c.k0, perf := c.perf.move t h, rest := c.rest.map (Perf.move t h) }
    halted := false }

/-- An array operation at the new home. -/
def MOp.move (t : Team) (h : Home) (o : MOp) : MOp :=
  match o with
  | .old src first cnt tag => .old (moveAddr t h src) first cnt tag
  | .ast x dst stride => .ast x (moveAddr t h dst) stride
  | .ost x fmt sat scale dst => .ost x fmt sat scale (moveAddr t h dst)
  | o => o

/-- An entry at the new home. -/
def MEntry.move (t : Team) (h : Home) (e : MEntry) : MEntry :=
  { e with key := moveKey t h e.key, own := moveOwn t h e.own, op := e.op.move t h }

/-- A copy at the new home. -/
def Copy.move (t : Team) (h : Home) (y : Copy) : Copy :=
  { y with key := moveKey t h y.key, own := moveOwn t h y.own, snap := y.snap.map fun c => (moveAddr t h c.1, c.2) }

/-- A bank's claims at the new home. -/
def Bank.move (t : Team) (h : Home) (b : Bank) : Bank := ⟨b.owner.map (moveOwn t h), b.grantee.map (moveOwn t h)⟩

/-- The core with a saved team's claims, tags, entries and copies (17 R363). -/
def joinCore (x : SavedTeam) (h : Home) (c : Core) : Core :=
  let t := x.team
  { c with
    gens := x.gens.zipIdx.foldl (fun l g => l.set (h.slot + g.2) g.1) c.gens
    halves := x.halves.foldl (fun l p => l.set p.1 (some (moveOwn t h p.2))) c.halves
    banks := x.banks.foldl (fun l p => l.set p.1 (p.2.move t h)) c.banks
    tags := x.tags.foldl (fun l p => l.set p.1 { p.2 with pub := moveOwn t h p.2.pub }) c.tags
    derivs := c.derivs ++ x.derivs
    mq := c.mq ++ x.mq.map (MEntry.move t h)
    apps := c.apps ++ x.apps.map fun a => { a with entry := a.entry.move t h }
    copies := c.copies ++ x.copies.map (Copy.move t h)
    walker := if x.walker.isSome then x.walker else c.walker
    stamps := c.stamps ++ x.stamps }

/-- The memory of a saved team, written back (17 R363). -/
def putMemory (s : State) (x : SavedTeam) (h : Home) : State :=
  let t := x.team
  let s := x.op.foldl (fun s u =>
    let a := opAddr h.core (u.1 * 8192)
    (s.store (cellsAt a u.2.1)).setTags (u.2.2.zipIdx.map fun g => (a + 64 * g.2, g.1))) s
  let s := x.acc.foldl (fun s u => s.store (cellsAt (accAddr h.core (u.1 * 8192)) u.2)) s
  let put := fun (s : State) (a : Nat) (bs : List Byte) (ts : List (BitVec 16)) =>
    (s.store (cellsAt a bs)).setTags (ts.zipIdx.map fun g => (a + 64 * g.2, g.1))
  let s := put s (shAddr h.core h.sh) x.shared x.shTags
  let s := (x.areas.zip x.areaTags).zipIdx.foldl (fun s a => put s (slotArea h.core (h.slot + a.2)) a.1.1 a.1.2) s
  x.poison.foldl (fun s a => s.addPoison (moveAddr t h a)) s

/-- A job of the team at its new home. -/
def Job.move (t : Team) (h : Home) (j : Job) : Job :=
  if j.team = t.uid then
    { j with key := moveKey t h j.key, own := moveOwn t h j.own, wide := j.wide.map fun i => i - t.first + h.slot }
  else j

/-- The places that refused elements of a waiting BINA keep follow their group (09 R252). -/
def Bin.move (t : Team) (h : Home) (b : Bin) : Bin :=
  if !b.live ∧ b.key.core = t.core ∧ t.first ≤ b.key.slot ∧ b.key.slot < t.first + t.slots then { b with key := moveKey t h b.key }
  else b

/-- The team's die with its jobs and places. -/
def Die.move (t : Team) (h : Home) (d : Die) : Die :=
  { d with
    jobs := d.jobs.map (Job.move t h)
    streams := d.streams.map fun (x : Stream) => (if x.corr = t.corr then { x with els := x.els.map (Bin.move t h) } else x) }

/-- The arrivals held for a team are applied in arrival order (08 R222). -/
def applyHeld (s : State) (t : Team) (h : Home) (l : List HeldArrival) : State :=
  l.foldl (fun s a => match a.perf with
    | some p => engineArrives s t.uid a.n t.corr (moveKey t h a.who) (s.ownOf (moveKey t h a.who)) p
    | none => s) s

/-- A loop of a restored group: its body as it stands in memory at the restore (05 R131). -/
def rereadLoop (s : State) (corr : Nat) (l : Loop) : Loop :=
  match s.grid? corr with
  | some gr =>
    let n := (min l.stop gr.imgLen - l.start) / 4
    { l with words := (List.range n).map fun i => s.word32 (hbmAddr (imageBase gr.image + l.start + 4 * i)) }
  | none => l

/-- Put a saved team back on a core. -/
def putTeam (s : State) (x : SavedTeam) (base : Nat) (h : Home) : State :=
  let t := x.team
  let s := putMemory (s.modCore h.core (joinCore x h)) x h
  let s := s.modDie (dieOf h.core) (Die.move t h)
  let s := { s with
    teams := s.teams ++ [{ t with core := h.core, first := h.slot, shBase := h.sh, cluBase := base, saved := false, held := [] }]
    groups := s.groups ++ x.groups.map fun g =>
      let g := g.move t h
      let again := fun (l : Option Loop) => l.map (rereadLoop s t.corr)
      { g with loop := again g.loop, ctxs := g.ctxs.map fun (c : Ctx) => { c with loop := again c.loop } } }
  applyHeld s t h t.held

/-- The claims, tags and walker of a saved team are free on a core. -/
def claimsFree (c : Core) (x : SavedTeam) : Bool :=
  (x.halves.all fun p => (c.halfOwner p.1).isNone) && (x.banks.all fun p => (c.bank p.1).owner.isNone) &&
  (x.tags.all fun p => (c.tag p.1).st == .free) && (x.walker.isNone || c.walker.isNone)

/-- The home of a saved team on a rectangle, at its rank. -/
def homeAt (s : State) (g : Grid) (base : Nat) (x : SavedTeam) : Option Home :=
  let t := x.team
  let core := rectCore base t.cluCols t.cluRank
  let held := ((List.range t.slots).filter fun i => g.l.idle.contains i || x.groups.any fun y => y.slots.contains (t.first + i)).length
  if keptOff s g core || !claimsFree (s.core core) x then none
  else (roomAt s core g.corr 17 ⟨t.slots, slotRegs held g.l.allot, t.shSize⟩).map fun r => ⟨core, r⟩

/-- The homes of a cluster's teams on a rectangle. -/
def homesAt (s : State) (g : Grid) (base : Nat) : List SavedTeam → Option (List (SavedTeam × Home))
  | [] => some []
  | x :: xs =>
    match homeAt s g base x, homesAt s g base xs with
    | some h, some hs => some ((x, h) :: hs)
    | _, _ => none

/-- The first team of a saved team's cluster. -/
def SavedTeam.cluster (x : SavedTeam) : Nat := x.team.num - x.team.cluRank

/-- The saved teams by cluster, in order. -/
def clustersOf (l : List SavedTeam) : List (List SavedTeam) :=
  ((l.map SavedTeam.cluster).eraseDups).map fun k => l.filter fun x => x.cluster == k

/-- Restore the clusters one after another; the state and cluster that cannot be placed otherwise. -/
def restoreAll (g : Grid) : List (List SavedTeam) → State → State × Option (List SavedTeam)
  | [], s => (s, none)
  | c :: cs, s =>
    match c with
    | [] => restoreAll g cs s
    | x :: _ =>
      let t := x.team
      match (rectangles (fun d => d == dieOf t.core) t.cluRows t.cluCols).findSome? fun b => (homesAt s g b c).map fun l => (b, l) with
      | some (b, l) => restoreAll g cs (l.foldl (fun s p => putTeam s p.1 b p.2) s)
      | none => (s, some c)

/-- The saved walkers of jobs whose teams have ended, back on their cores; they keep these to themselves as they did (17 R362). -/
def putWalkers (g : Grid) (s : State) : State :=
  g.walkers.foldl (fun s p => s.modCore p.1 fun c => { c with walker := some p.2 }) s

/-- Restore a saved grid once every cluster fits and the cores of its other walkers are free of one; else a rectangle is reserved
for the cluster that does not fit (17 R356, R363). A group whose lanes had all exited before the halt can retire now. -/
def restoreGrid (s : State) (g : Grid) : State :=
  if g.walkers.any fun p => (s.core p.1).walker.isSome then s
  else match restoreAll g (clustersOf g.saved) (putWalkers g s) with
    | (r, none) =>
      let live := fun (x : Grid) => { x with phase := .live, saved := [], walkers := [], bp := false, waitFrom := r.ns }
      let s := endReserv (r.modGrid g.corr live) g.corr fun _ => true
      (s.groups.filter fun x => (teamsOf s g.corr).contains x.team).foldl (fun s x => tryRetire s x.key) s
    | (_, some (x :: _)) => reserveRect s g (fun d => d == dieOf x.team.core) x.team.cluRows x.team.cluCols
    | (_, some []) => s

/-- GRID_RESTORE (17 R363). -/
def execGridRestore (corr : Nat) (s : State) : Host.Outcome State Fault Refusal :=
  .next (match s.grid? corr with
    | some g => if g.phase == .saved then restoreGrid s g else s
    | none => s)

end Sys2Proof.Machine
end

