-- ==== Sys2Proof/Machine/Registers.lean ====
section
/-! DEFINITION. The register aperture: which register stands at an offset, and what a host write does to it (17 R342; 18 R373,
R376; 21 R392; 23 R417; 24 R419, R424, R427; 25 R429, R430, R433, R435, R436). The offsets inside a block follow the order in
which the specification lists its registers (notes/assumptions/19.md). -/

namespace Sys2Proof.Machine

open Sys2Proof

/-- A register of the register aperture that a host write may change or that a world rule protects. -/
inductive HostReg where
  | bpGridLo | bpGridHi
  | bpPc (i : Nat)
  | tail (q : Nat) | head (q : Nat) | cancelLo (q : Nat) | cancelHi (q : Nat) | preemptLo (q : Nat) | preemptHi (q : Nat)
  | rootLo (secure : Bool) | rootHi (secure : Bool)
  | invAddrLo (d : Nat) | invAddrHi (d : Nat) | invCtl (d : Nat)
  | cntThr | wbHold
  | nqBase | nqSize | nqHead
  | codeLo (d : Nat) | codeHi (d : Nat) | codeCount (d : Nat)
  | trBaseLo (d : Nat) | trBaseHi (d : Nat) | trSize (d : Nat) | trHead (d : Nat) | trCtl (d : Nat)
  | stBase (d : Nat) | stSize (d : Nat) | stHead (d : Nat)
  | fabId (l : Nat) | routeLo (l dev : Nat) | routeHi (l dev : Nat)
  | nonce (i : Nat) | atCtl | pwrCap | juncLim
  /-- 32 world settings (R432) -/
  | world (i : Nat)
  /-- read only, reserved, or firmware's own -/
  | none
deriving DecidableEq, Repr

/-- The distributor's block: GRIDCODE, BPGRID, BPPC0 to BPPC3, then registers that software only reads. -/
def distReg (o : Nat) : HostReg :=
  match o with
  | 0x08 => .bpGridLo
  | 0x0C => .bpGridHi
  | 0x10 => .bpPc 0
  | 0x14 => .bpPc 1
  | 0x18 => .bpPc 2
  | 0x1C => .bpPc 3
  | _ => .none

/-- A queue's block (25 R429). -/
def queueReg (q o : Nat) : HostReg :=
  match o with
  | 0 => .tail q
  | 4 => .head q
  | 8 => .cancelLo q
  | 12 => .cancelHi q
  | 16 => .preemptLo q
  | 20 => .preemptHi q
  | _ => .none

/-- A die's block: the registers of 18 R373, 23 R417, 24 R419 and R424. -/
def dieReg (d o : Nat) : HostReg :=
  match o with
  | 0x00 => .rootLo false
  | 0x04 => .rootHi false
  | 0x08 => .rootLo true
  | 0x0C => .rootHi true
  | 0x10 => .invAddrLo d
  | 0x14 => .invAddrHi d
  | 0x18 => .invCtl d
  | 0x1C => .cntThr
  | 0x20 => .wbHold
  | 0x24 => if d = 0 then .nqBase else .none
  | 0x28 => if d = 0 then .nqSize else .none
  | 0x2C => if d = 0 then .nqHead else .none
  | 0x38 => .codeLo d
  | 0x3C => .codeHi d
  | 0x40 => .codeCount d
  | 0x44 => .trBaseLo d
  | 0x48 => .trBaseHi d
  | 0x4C => .trSize d
  | 0x50 => .trHead d
  | 0x5C => .trCtl d
  | 0x60 => .stBase d
  | 0x64 => .stSize d
  | 0x68 => .stHead d
  | _ => .none

/-- A link die's block: FABID, then the routing table, two words an entry. -/
def linkReg (l o : Nat) : HostReg :=
  if o = 0 then .fabId l
  else if 8 ≤ o ∧ o < 8 + 8 * 4096 then (if o % 8 = 0 then .routeLo l (o / 8 - 1) else .routeHi l (o / 8 - 1))
  else .none

/-- The number of words of world settings. -/
def worldWords : Nat := 270

/-- The platform's block: DEVSTAT, DEVLOSS, SECREF, ATNONCE, ATCTL, ATREPORT, PWRCAP, the junction limit, THROT, the certificate,
the world settings. -/
def platReg (o : Nat) : HostReg :=
  if 0x0C ≤ o ∧ o < 0x2C then .nonce ((o - 0x0C) / 4)
  else if o = 0x2C then .atCtl
  else if o = 0xF0 then .pwrCap
  else if o = 0xF4 then .juncLim
  else if 0x800 ≤ o ∧ o < 0x800 + 4 * worldWords then .world ((o - 0x800) / 4)
  else .none

/-- The register at an offset of the aperture (25 R429). -/
def regAt (off : Nat) : HostReg :=
  if off % 4 ≠ 0 then .none
  else if off < 0x1000 then distReg off
  else if off < 0x1000 + 64 * 32 then queueReg ((off - 0x1000) / 64) (off % 64)
  else if 0x1000000 ≤ off ∧ off < 0x1400000 then dieReg ((off - 0x1000000) / 0x100000) (off % 0x100000)
  else if 0x2000000 ≤ off ∧ off < 0x2200000 then linkReg ((off - 0x2000000) / 0x100000) (off % 0x100000)
  else if 0x3000000 ≤ off ∧ off < 0x3001000 then platReg (off - 0x3000000)
  else .none

/-! ### World settings (25 R432) -/

/-- A world setting by its place among them: the units of each die's scratchpad, the queues, the copy engines and walkers of the
cores, the binning engine, task scheduler and collective engine of each die (notes/assumptions/19.md). -/
def worldBit (s : State) (n : Nat) : Bool :=
  let die := fun (d : Nat) => s.die d
  if n < 8192 then (die (n / 2048)).secUnits.contains (n % 2048)
  else if n < 8224 then ((s.queues[n - 8192]?).map (·.secure)).getD false
  else if n < 8416 then (s.core (n - 8224)).copyWorld
  else if n < 8608 then (s.core (n - 8416)).walkWorld
  else if n < 8620 then
    let d := die ((n - 8608) / 3)
    match (n - 8608) % 3 with
    | 0 => d.binWorld
    | 1 => d.taskWorld
    | _ => d.collWorld
  else false

/-- 32 world settings. -/
def worldWord (s : State) (i : Nat) : Word :=
  word ((List.range 32).foldl (fun n b => n + if worldBit s (32 * i + b) then 2 ^ b else 0) 0)

/-- The settings with 32 of them written. -/
def setWorld (s : State) (i : Nat) (v : Word) : State :=
  let bit := fun (n : Nat) (old : Bool) => if n / 32 = i then v.getLsbD (n % 32) else old
  { s with
    dies := s.dies.mapIdx fun d (x : Die) => { x with
      secUnits := (List.range 2048).filter fun u => bit (2048 * d + u) (x.secUnits.contains u)
      binWorld := bit (8608 + 3 * d) x.binWorld
      taskWorld := bit (8609 + 3 * d) x.taskWorld
      collWorld := bit (8610 + 3 * d) x.collWorld }
    queues := s.queues.mapIdx fun q (x : Queue) => { x with secure := bit (8192 + q) x.secure }
    cores := s.cores.mapIdx fun c (x : Core) => { x with
      copyWorld := bit (8224 + c) x.copyWorld, walkWorld := bit (8416 + c) x.walkWorld } }

/-! ### Writes -/

/-- Replace the low or high word of a number. -/
def setLo (n : Nat) (v : Word) : Nat := n / 2 ^ 32 * 2 ^ 32 + v.toNat
/-- Replace the high word. -/
def setHi (n : Nat) (v : Word) : Nat := n % 2 ^ 32 + v.toNat * 2 ^ 32

/-- Change a queue. -/
def modQueue (s : State) (q : Nat) (f : Queue → Queue) : State := { s with queues := modAt s.queues q f }

/-- Change the platform's registers. -/
def modPlat (s : State) (f : Platform → Platform) : State := { s with plat := f s.plat }

/-- The port mask of a device on a link die (21 R392). -/
def routeOf (s : State) (l dev : Nat) : Nat := ((s.routes.find? fun r => r.1 == l && r.2.1 == dev).map (·.2.2)).getD 0

/-- Write a port mask. -/
def setRoute (s : State) (l dev mask : Nat) : State :=
  { s with routes := (l, dev, mask % 2 ^ 48) :: s.routes.filter fun r => !(r.1 == l && r.2.1 == dev) }

/-- Change the ring of trace records of a die. -/
def modTr (s : State) (d : Nat) (f : Ring → Ring) : State := s.modDie d fun x => { x with tr := f x.tr }

/-- Change the ring of stamp records of a die. -/
def modSt (s : State) (d : Nat) (f : Ring → Ring) : State := s.modDie d fun x => { x with st := f x.st }

/-- A ring's size: a value outside the field's limits is ignored (18 R373; 24 R419). -/
def Ring.setSize (r : Ring) (v : Word) : Ring := if 8 ≤ v.toNat % 32 ∧ v.toNat % 32 ≤ 24 then { r with size := v.toNat % 32 } else r

/-- A ring's head, modulo its entries. -/
def Ring.setHead (r : Ring) (v : Word) : Ring := { r with head := v.toNat % r.entries }

/-- A table root: bits [51:12] (18 R373). -/
def setRoot (s : State) (secure : Bool) (f : Nat → Nat) : State :=
  if secure then { s with rootS := f s.rootS } else { s with rootN := f s.rootN }

/-- A write to a register that only holds a value. The roots, the worlds and the power limits are firmware's, the host's
secure firmware included (18 R373; 25 R432, R436). -/
def writePlain (s : State) (secure : Bool) (r : HostReg) (v : Word) : State :=
  match r with
  | .bpGridLo => { s with dist := { s.dist with bpGrid := setLo s.dist.bpGrid v } }
  | .bpGridHi => { s with dist := { s.dist with bpGrid := setHi s.dist.bpGrid v } }
  | .bpPc i => { s with dist := { s.dist with bpPc := setAt s.dist.bpPc i (v &&& 0xFFFFFFFD#32) } }
  | .cancelLo q => modQueue s q fun x => { x with cancelLo := v }
  | .preemptLo q => modQueue s q fun x => { x with preemptLo := v }
  | .rootLo w => if secure then setRoot s w fun n => setLo n (v &&& 0xFFFFF000#32) else s
  | .rootHi w => if secure then setRoot s w fun n => setHi n (v &&& 0x000FFFFF#32) else s
  | .world i => if secure then setWorld s i v else s
  | .invAddrLo d => s.modDie d fun x => { x with invAddr := setLo x.invAddr (v &&& 0xFFFF0000#32) }
  | .invAddrHi d => s.modDie d fun x => { x with invAddr := setHi x.invAddr (v &&& 0x01FFFFFF#32) }
  | .cntThr => if v.toNat % 2 ^ 16 = 0 then s else { s with times := { s.times with cntThr := v.toNat % 2 ^ 16 } }
  | .wbHold =>
    let n := v.toNat % 2 ^ 30
    if n = 0 ∨ 1000000 < n then s else { s with times := { s.times with wbHold := n } }
  | .nqBase => if v.toNat % 4096 = 0 then { s with nq := { s.nq with base := v.toNat, placed := true } } else s
  | .nqSize => if 4 ≤ v.toNat ∧ v.toNat ≤ 16 then { s with nq := { s.nq with size := v.toNat } } else s
  | .nqHead => if v.toNat % 2 ^ 16 < 2 ^ s.nq.size then { s with nq := { s.nq with head := v.toNat % 2 ^ 16 } } else s
  | .codeLo d => s.modDie d fun x => if x.codeInvDone then { x with codeInvLine := setLo x.codeInvLine (v &&& 0xFFFFFFC0#32) } else x
  | .codeHi d => s.modDie d fun x => if x.codeInvDone then { x with codeInvLine := setHi x.codeInvLine (v &&& 0x01FFFFFF#32) } else x
  | .trBaseLo d => modTr s d fun r => { r with base := setLo r.base (v &&& 0xFFFFF000#32) }
  | .trBaseHi d => modTr s d fun r => { r with base := setHi r.base (v &&& 0x000FFFFF#32) }
  | .trSize d => modTr s d fun r => r.setSize v
  | .trHead d => modTr s d fun r => r.setHead v
  | .trCtl d => s.modDie d fun x => { x with trCtl := v.toNat % 4, moved := x.moved && v.toNat / 2 % 2 == 1 }
  | .stBase d => modSt s d fun r => { r with base := v.toNat / 4096 * 4096, placed := true }
  | .stSize d => modSt s d fun r => r.setSize v
  | .stHead d => modSt s d fun r => r.setHead v
  | .fabId l => { s with fabId := setAt s.fabId l (v.toNat % 4096) }
  | .routeLo l dev => setRoute s l dev (setLo (routeOf s l dev) v)
  | .routeHi l dev => setRoute s l dev (setHi (routeOf s l dev) v)
  | .nonce i => modPlat s fun p => { p with atNonce := p.atNonce.take (4 * i) ++ leBytes 4 v.toNat ++ p.atNonce.drop (4 * i + 4) }
  | .pwrCap => if secure ∧ 1500 ≤ v.toNat ∧ v.toNat ≤ 3000 then modPlat s fun p => { p with pwrCap := v.toNat } else s
  | .juncLim => if secure ∧ 85 ≤ v.toNat ∧ v.toNat ≤ 105 then modPlat s fun p => { p with juncLim := v.toNat } else s
  | _ => s

/-- The register is one that firmware has marked secure: ROOTS, the world settings, or a secure queue's (25 R433). -/
def HostReg.guarded (s : State) (r : HostReg) : Bool :=
  let sec := fun (q : Nat) => ((s.queues[q]?).map (·.secure)).getD false
  match r with
  | .rootLo w => w
  | .rootHi w => w
  | .world _ => true
  | .tail q => sec q
  | .head q => sec q
  | .cancelLo q => sec q
  | .cancelHi q => sec q
  | .preemptLo q => sec q
  | .preemptHi q => sec q
  | _ => false

/-- A refused access of the host is counted (25 R433). -/
def refuseHost (s : State) : State := modPlat s fun p => { p with secRef := p.secRef + 1 }

/-- ATCTL (25 R435): 1 starts a report; a write while one is being built is ignored. -/
def execAtctl (v : Word) (s : State) : Host.Outcome State Fault Refusal :=
  .next (if v = 1 ∧ s.plat.atCtl ≠ 1 then modPlat s fun p => { p with atCtl := 1 } else s)

/-! ### Reads (25 R429) -/

/-- The low and the high word of a number. -/
def wordPart (n : Nat) (high : Bool) : Word := if high then word (n / 2 ^ 32) else word n

/-- A register of the distributor's block. -/
def readDist (x : Dist) (o : Nat) : Word :=
  match o with
  | 0x00 => wordPart x.gridCode false
  | 0x04 => wordPart x.gridCode true
  | 0x08 => wordPart x.bpGrid false
  | 0x0C => wordPart x.bpGrid true
  | 0x10 => x.bpPc.getD 0 0
  | 0x14 => x.bpPc.getD 1 0
  | 0x18 => x.bpPc.getD 2 0
  | 0x1C => x.bpPc.getD 3 0
  | 0x20 => x.bpHit
  | 0x24 => x.bpPcHit
  | 0x28 => wordPart x.dumpAddr false
  | 0x2C => wordPart x.dumpAddr true
  | 0x30 => wordPart x.enIdle false
  | 0x34 => wordPart x.enIdle true
  | 0x38 => x.compLost
  | 0x3C => x.compLostLo
  | 0x40 => x.compLostHi
  | 0x44 => x.compLostSt
  | _ => 0

/-- A register of a queue's block; the high words of CANCEL and PREEMPT start an action and hold nothing
(notes/assumptions/19.md). -/
def readQueue (x : Queue) (o : Nat) : Word :=
  match o with
  | 0 => word x.tail
  | 4 => word x.head
  | 8 => x.cancelLo
  | 16 => x.preemptLo
  | _ => 0

/-- A ring's registers from its size on: size, head, tail, lost. -/
def readRing (r : Ring) (i : Nat) : Word :=
  match i with
  | 0 => word r.size
  | 1 => word r.head
  | 2 => word r.tail
  | _ => r.lost

/-- Bit [31]. -/
def doneBit (b : Bool) : Word := if b then 0x80000000#32 else 0

/-- A register of a die's block. -/
def readDie (s : State) (d o : Nat) : Word :=
  let x := s.die d
  let nq := fun (w : Word) => if d = 0 then w else 0
  match o with
  | 0x00 => wordPart s.rootN false
  | 0x04 => wordPart s.rootN true
  | 0x08 => wordPart s.rootS false
  | 0x0C => wordPart s.rootS true
  | 0x10 => wordPart x.invAddr false
  | 0x14 => wordPart x.invAddr true
  | 0x18 => x.invCtl ||| doneBit x.invDone
  | 0x1C => word s.times.cntThr
  | 0x20 => word s.times.wbHold
  | 0x24 => nq (word s.nq.base)
  | 0x28 => nq (word s.nq.size)
  | 0x2C => nq (word s.nq.head)
  | 0x30 => nq (word s.nq.tail)
  | 0x34 => nq s.nq.lost
  | 0x38 => wordPart x.codeInvLine false
  | 0x3C => wordPart x.codeInvLine true
  | 0x40 => word x.codeInvCount ||| doneBit x.codeInvDone
  | 0x44 => wordPart x.tr.base false
  | 0x48 => wordPart x.tr.base true
  | 0x5C => word x.trCtl
  | 0x60 => word x.st.base
  | _ =>
    if 0x4C ≤ o ∧ o < 0x5C then readRing x.tr ((o - 0x4C) / 4)
    else if 0x64 ≤ o ∧ o < 0x74 then readRing x.st ((o - 0x64) / 4)
    else 0

/-- A register of a link die's block. -/
def readLink (s : State) (l o : Nat) : Word :=
  if o = 0 then word (s.fabId.getD l 0)
  else if 8 ≤ o ∧ o < 8 + 8 * 4096 then wordPart (routeOf s l (o / 8 - 1)) (o % 8 != 0)
  else 0

/-- A word of some bytes, zero beyond them. -/
def wordOfBytes (l : List Byte) (i : Nat) : Word := word (leNat ((l.drop (4 * i)).take 4))

/-- A register of the platform's block; THROT holds the clock in [15:0] and the events above (notes/assumptions/19.md). -/
def readPlat (s : State) (o : Nat) : Word :=
  let p := s.plat
  if o = 0 then word p.devStat
  else if o = 4 then p.devLoss
  else if o = 8 then p.secRef
  else if o < 0x2C then wordOfBytes p.atNonce ((o - 0x0C) / 4)
  else if o = 0x2C then p.atCtl
  else if o < 0xF0 then wordOfBytes p.atReport ((o - 0x30) / 4)
  else if o = 0xF0 then word p.pwrCap
  else if o = 0xF4 then word p.juncLim
  else if o = 0xF8 then word (p.clockMHz + p.throtCount % 2 ^ 16 * 2 ^ 16)
  else if 0x100 ≤ o ∧ o < 0x800 then wordOfBytes Config.certificate ((o - 0x100) / 4)
  else if 0x800 ≤ o ∧ o < 0x800 + 4 * worldWords then worldWord s ((o - 0x800) / 4)
  else 0

/-- The register at an aligned offset of the aperture; a reserved offset reads as zero (25 R429; 00 R10). -/
def readReg (s : State) (off : Nat) : Word :=
  if off < 0x1000 then readDist s.dist off
  else if off < 0x1000 + 64 * 32 then ((s.queues[(off - 0x1000) / 64]?).map fun q => readQueue q (off % 64)).getD 0
  else if 0x1000000 ≤ off ∧ off < 0x1400000 then readDie s ((off - 0x1000000) / 0x100000) (off % 0x100000)
  else if 0x2000000 ≤ off ∧ off < 0x2200000 then readLink s ((off - 0x2000000) / 0x100000) (off % 0x100000)
  else if 0x3000000 ≤ off ∧ off < 0x3001000 then readPlat s (off - 0x3000000)
  else 0

/-! ### The step of a write -/

/-- REGISTER_WRITE (25 R429, R433): an access that is not aligned is dropped, a refused one counted; a register whose write is a
step of its own takes that step. -/
def execRegisterWrite (secure : Bool) (off : Nat) (v : Word) (s : State) : Host.Outcome State Fault Refusal :=
  let r := regAt off
  if !secure && r.guarded s then .next (refuseHost s)
  else match r with
    | .tail q => Sys2Proof.Machine.execDoorbell q v.toNat s
    | .cancelHi q => Sys2Proof.Machine.execCancel q v s
    | .preemptHi q => Sys2Proof.Machine.execPreempt q v s
    | .invCtl d => Sys2Proof.Machine.execInvctl d v s
    | .codeCount d => Sys2Proof.Machine.execCodeinv d (s.die d).codeInvLine v.toNat s
    | .atCtl => Sys2Proof.Machine.execAtctl v s
    | r => .next (writePlain s secure r v)

end Sys2Proof.Machine
end

