-- ==== Sys2Proof/Machine/Platform.lean ====
section
/-! DEFINITION. The platform: rails and energy, errors, the host's memory accesses, attestation, power, reset and bring-up (18
R380, R382; 24 R422, R423, R426; 25 R431 to R437). -/

namespace Sys2Proof.Machine

open Sys2Proof

/-! ### Rails and energy (24 R422, R423, R426) -/

/-- The rails a die reports. -/
def railsOf (die : Nat) : List Nat := [0, 1, 2] ++ (if die = 0 then (List.range 10).map (16 + ·) else [])

/-- A rail record. -/
def railWords (s : State) (die : Nat) (r : Rail) : List Word :=
  [word (0x10 + die * 2 ^ 8 + r.rail.toNat * 2 ^ 16), word (r.mV.toNat + r.temp.toNat * 2 ^ 16), r.mA, r.nJ] ++ words64 s.ns ++
  [0, 0]

/-- A residency record for two launches of a set. -/
def residentWords (s : State) (die n : Nat) (l : List Nat) : List Word :=
  [word (0x11 + die * 2 ^ 8 + 0xFF * 2 ^ 16), word n] ++ words64 s.ns ++ words64 (l.getD 0 0) ++ words64 (l.getD 1 0)

/-- The residency records of an interval in which the set has changed (24 R423). -/
def writeResidents (s : State) (die : Nat) : State :=
  let l := (s.die die).resident
  if !(s.die die).moved then s
  else
    let s := s.modDie die fun d => { d with moved := false }
    (List.range (max 1 ((l.length + 1) / 2))).foldl (fun s i =>
      s.traceWrite die (residentWords s die l.length ((l.drop (2 * i)).take 2))) s

/-- RAIL_SAMPLE (24 R422, R423; 25 R436): firmware sees what was sampled; with TRCTL[1] one record for each rail of the die, then the
residency records. -/
def execRailSample (die : Nat) (rails : List Rail) (s : State) : Host.Outcome State Fault Refusal :=
  .next (if rails.map (·.rail.toNat) = railsOf die then
    let s := s.modDie die fun d => { d with sample := rails }
    if (s.die die).trCtl / 2 % 2 = 1 then writeResidents (rails.foldl (fun s r => s.traceWrite die (railWords s die r)) s) die
    else s
  else s)

/-- Charge energy to a launch. -/
def charge (s : State) (corr e : Nat) : State := s.modGrid corr fun g => { g with energy := g.energy + e }

/-- The launch of the lowest number among sharers. -/
def lowestShare (l : List (Nat × Nat)) : Option Nat :=
  match l with
  | [] => none
  | x :: xs => some (xs.foldl (fun m y => min m y.1) x.1)

/-- Share energy by weight: floor(E × w / Σw) each, the remainder to the lowest number (24 R426). -/
def shareOut (s : State) (e : Nat) (l : List (Nat × Nat)) : State :=
  let sum := l.foldl (fun n x => n + x.2) 0
  let part := fun (x : Nat × Nat) => e * x.2 / sum
  let s := l.foldl (fun s x => charge s x.1 (part x)) s
  match lowestShare l with
  | some c => charge s c (e - l.foldl (fun n x => n + part x) 0)
  | none => s

/-- The launches that held slots on a core in the interval, by slot-nanoseconds (24 R426). -/
def coreSharers (l : List Held) (core : Nat) : List (Nat × Nat) :=
  (l.filter fun h => h.core == core && h.slotNs != 0).map fun h => (h.corr, h.slotNs)

/-- The launches that ran in the interval, by core-nanoseconds (24 R426). -/
def poolSharers (l : List Held) : List (Nat × Nat) :=
  let ran := l.filter fun h => h.coreNs != 0
  ((ran.map (·.corr)).eraseDups).map fun c => (c, (ran.filter fun h => h.corr == c).foldl (fun n h => n + h.coreNs) 0)

/-- ENERGY_SHARE (24 R426): the energy that each core has metered by slot time, that of idle cores, of rails 1 and 2 of the dies
and of the package rails by core time, or to ENIDLE when nothing ran. The interval ends with it. -/
def execEnergyShare (cores : List Nat) (dieRails packageRails : Nat) (s : State) : Host.Outcome State Fault Refusal :=
  let l := s.meter
  let m := cores.zipIdx
  let s1 := m.foldl (fun s c => shareOut s c.1 (coreSharers l c.2)) { s with meter := [] }
  let rest := m.foldl (fun n c => if (coreSharers l c.2).isEmpty then n + c.1 else n) (dieRails + packageRails)
  .next (if (poolSharers l).isEmpty then { s1 with dist := { s1.dist with enIdle := s1.dist.enIdle + rest } }
    else shareOut s1 rest (poolSharers l))

/-! ### Errors (18 R380, R382; 25 R437) -/

/-- PATROL_SCRUB: no value changes; the corrections it makes are counted. -/
def execPatrolScrub (s : State) : Host.Outcome State Fault Refusal :=
  let mems := (List.range 8).map MemName.stack ++ (List.range 4).map MemName.scratchpad
  .next { s with corrected := mems.zipIdx.foldl (fun l m => correct m.1 (Config.scrubbed s.tick m.2) l) s.corrected }

/-- The unit exists. -/
def unitExists (u : LostUnit) : Bool :=
  match u with
  | .stack n => decide (n < 8)
  | .slice d n => decide (d < 4) && decide (n < 256)

/-- UNIT_LOSS: every access to the unit returns poison; DEVSTAT reads 5 and DEVLOSS names it. -/
def execUnitLoss (u : LostUnit) (s : State) : Host.Outcome State Fault Refusal :=
  .next (if unitExists u then
    modPlat { s with lost := if s.lost.contains u then s.lost else s.lost ++ [u] } fun p =>
      { p with devStat := 5, devLoss := Config.lossName u }
  else s)

/-! ### The host's memory accesses (25 R429, R431, R433) -/

/-- The entries of a table that are not zero: their numbers. -/
def usedEntries (s : State) (table size : Nat) : List Nat :=
  ((s.mem.filter fun c => decide (hbmAddr table ≤ c.1) && decide (c.1 < hbmAddr table + size)).map fun c =>
    (c.1 - hbmAddr table) / 8).eraseDups

/-- A secure leaf at or below a table maps some byte of a range of HBM4E (18 R369; 25 R432). -/
def secureBelow (s : State) : Nat → Nat → Nat → Nat → Nat → Bool
  | 0, _, _, _, _ => false
  | fuel + 1, level, table, a, n =>
    (usedEntries s table (8 * levelEntries level)).any fun i =>
      let e : DWord := BitVec.ofNat 64 (s.load (hbmAddr (table + 8 * i)) 8)
      if (entryFault level e).isSome then false
      else if Pte.leaf e then
        Pte.secure e && Pte.target e == 0 && decide (Pte.addr e < a + n) && decide (a < Pte.addr e + 2 ^ levelShift level)
      else secureBelow s fuel (level + 1) (Pte.addr e) a n

/-- Some byte of a range of HBM4E lies in a secure page, by the leaves of either world. -/
def secureHbm (s : State) (a n : Nat) : Bool := secureBelow s 5 0 s.rootN a n || secureBelow s 5 0 s.rootS a n

/-- The host's accesses: an offset of the memory aperture, or from 2^60 on host memory itself (notes/assumptions/19.md). -/
def hostFlat (addr : Nat) : Nat := if 2 ^ 60 ≤ addr then hostAddr (addr - 2 ^ 60) else hbmAddr addr

/-- The access names bytes of host memory or of HBM4E. -/
def hostReach (addr n : Nat) : Bool := decide (2 ^ 60 ≤ addr ∧ addr + n ≤ 2 ^ 61) || inHbm addr n

/-- An access to the register aperture (25 R429, R433): 32 bits, aligned; any other is dropped, or reads as ones. A refused read is
ones too, and counted. -/
def hostRegister (secure write : Bool) (off len : Nat) (bytes : List Byte) (s : State) : Host.Outcome State Fault Refusal :=
  if write then (if bytes.length = 4 then execRegisterWrite secure off (word (leNat bytes)) s else .next s)
  else if len ≠ 4 ∨ off % 4 ≠ 0 then .next (send s (.hostRead false (List.replicate len 0xFF#8)))
  else if !secure && (regAt off).guarded s then .next (send (refuseHost s) (.hostRead false (List.replicate 4 0xFF#8)))
  else .next (send s (.hostRead true (leBytes 4 (readReg s off).toNat)))

/-- HOST_MEMORY_ACCESS (25 R429, R431, R433): the memory aperture and host memory; from 2^61 on the register aperture. -/
def execHostMemoryAccess (secure write : Bool) (addr len : Nat) (bytes : List Byte) (s : State) :
    Host.Outcome State Fault Refusal :=
  let n := if write then bytes.length else len
  let a := hostFlat addr
  if 2 ^ 61 ≤ addr ∧ addr + n ≤ 2 ^ 61 + 2 ^ 26 then hostRegister secure write (addr - 2 ^ 61) len bytes s
  else .next (if !hostReach addr n then (if write then s else send s (.hostRead false []))
  else if !secure && decide (addr < 2 ^ 60) && secureHbm s addr n then
    (if write then refuseHost s else send (refuseHost s) (.hostRead false (List.replicate n 0xFF#8)))
  else if write then s.store (cellsAt a bytes)
  else if s.anyPoison a n then send s (.hostRead false [])
  else send s (.hostRead true (s.bytes a n)))

/-! ### Attestation (25 R435) -/

/-- The bytes of a digest, the most significant first. -/
def digestBytes (d : BitVec 256) : List Byte := (leBytes 32 d.toNat).reverse

/-- The world settings and ROOTS, as they are hashed: every setting has its own bit (notes/assumptions/8.md). -/
def worldBytes (s : State) : List Byte := ((List.range worldWords).flatMap fun i => leBytes 4 (worldWord s i).toNat) ++ leBytes 8 s.rootS

/-- Bytes 0 to 127 of a report. -/
def reportBytes (s : State) : List Byte :=
  s.plat.atNonce ++ digestBytes s.plat.fwHash ++ leBytes 4 s.plat.fwVer.toNat ++ leBytes 4 s.plat.fwLevel.toNat ++
  digestBytes (Config.sm3 (worldBytes s)) ++ List.replicate 24 0

/-- A report with its signature. -/
def report (s : State) : List Byte :=
  let b := reportBytes s
  b ++ (Config.sm2Sign b ++ List.replicate 64 0).take 64

/-- ATTESTATION_REPORT. -/
def execAttestationReport (s : State) : Host.Outcome State Fault Refusal :=
  .next (if s.plat.atCtl = 1 then modPlat s fun p => { p with atReport := report s, atCtl := 2 } else s)

/-! ### Power (25 R436) -/

/-- The rails' mean power over their last interval of 1 µs exceeds the cap, or a junction exceeds its limit: 1 nJ in 1 µs is 1 mW. -/
def overLimit (s : State) : Bool :=
  let l := s.dies.flatMap (·.sample)
  decide (s.plat.pwrCap * 1000 < l.foldl (fun n r => n + r.nJ.toNat) 0) || l.any fun r => decide ((s.plat.juncLim : Int) < r.temp.toInt)

/-- THROTTLE: a step of 0.135 GHz down to 1.35 GHz while a limit is exceeded, or up to 2.7 GHz once none is; each step down is a
throttle event. -/
def execThrottle (up : Bool) (s : State) : Host.Outcome State Fault Refusal :=
  .next (modPlat s fun p =>
    if up then (if !overLimit s && decide (p.clockMHz < 2700) then { p with clockMHz := p.clockMHz + 135 } else p)
    else if overLimit s && decide (1350 < p.clockMHz) then
      { p with clockMHz := p.clockMHz - 135, throtCount := p.throtCount + 1 }
    else p)

/-- THERMAL_SHUTDOWN: every grid ends with 0x2000 and the rails are turned off. -/
def execThermalShutdown (s : State) : Host.Outcome State Fault Refusal :=
  .next (modPlat ((s.grids.map (·.corr)).foldl cancelGrid s) fun p => { p with rails := false })

/-! ### Reset and bring-up (25 R434, R437) -/

/-- Memory that is not the device's own: the host's and peers' (18 R380). -/
def foreign (a : Nat) : Bool := decide (a < 2 ^ 80) && (regionOf a == 1 || decide (4096 ≤ regionOf a))

/-- RESET (25 R437): the state after reset, device time 0. Host and peer memory, lost units with DEVLOSS and the fuses are not the
package's to reset. -/
def execReset (s : State) : Host.Outcome State Fault Refusal :=
  .next { State.reset with
    mem := s.mem.filter fun c => foreign c.1
    poison := s.poison.filter foreign
    lost := s.lost
    plat := { State.reset.plat with devLoss := s.plat.devLoss, fuseLevel := s.plat.fuseLevel, stepping := s.plat.stepping }
    corrected := s.corrected
    agenda := s.agenda
    tick := s.tick
    nextId := s.nextId }

/-- The payload of an image. -/
def payload (image : List Byte) : List Byte := (image.drop 256).take (fieldAt image 12 4)

/-- The image keeps every check of its header (25 R434). -/
def imageOk (fuse : Word) (image : List Byte) : Bool :=
  fieldAt image 0 4 == 0x57465644 && decide (fuse.toNat ≤ fieldAt image 8 4) &&
  decide (65536 ≤ fieldAt image 12 4) && decide (fieldAt image 12 4 ≤ 2 ^ 26) && decide (256 + fieldAt image 12 4 ≤ image.length) &&
  digestBytes (Config.sm3 (payload image)) == (image.drop 16).take 32 &&
  Config.sm2Verify (image.take 48) ((image.drop 48).take 64) && zeroAt image 112 144

/-- A setting of firmware that has limits: the value where it lies within them, else the default. -/
def legalOr (lo hi dflt v : Nat) : Nat := if lo ≤ v ∧ v ≤ hi then v else dflt

/-- A queue as firmware sets it (17 R342). -/
def fwQueue (f : Nat → Nat) (q : Nat) (old : Queue) : Queue :=
  { old with
    base := f (8 * q) * 128
    size := 2 ^ (4 + f (8 * q + 1) % 13)
    prio := f (8 * q + 2) % 8
    secure := f (8 * q + 3) % 2 == 1
    enabled := f (8 * q + 4) % 2 == 1
    head := 0
    tail := old.tail % 2 ^ (4 + f (8 * q + 1) % 13)
    served := 0
    cancels := [] }

/-- The times and limits as firmware sets them (09 R239; 12 R306; 18 R373; 21 R393, R400). -/
def fwTimes (f : Nat → Nat) (t : Times) : Times where
  stallUs := legalOr 1 1000000 t.stallUs (f 300)
  wbHold := legalOr 1 1000000 t.wbHold (f 301)
  cntThr := legalOr 1 65535 t.cntThr (f 302)
  collTo := legalOr 1 10000 t.collTo (f 303)
  fabTo := legalOr 10 100000 t.fabTo (f 304)
  stepLimit := legalOr 1 (2 ^ 32 - 1) t.stepLimit (f 305)

/-- The device as firmware brings it up: power limits, roots and worlds, times, ports and routes, queues (25 R437;
notes/assumptions/18.md). -/
def bringUp (s : State) (f : Nat → Nat) : State :=
  { s with
    plat := { s.plat with pwrCap := legalOr 1500 3000 s.plat.pwrCap (f 306), juncLim := legalOr 85 105 s.plat.juncLim (f 307) }
    rootN := f 256 % 2 ^ 40 * 4096
    rootS := f 257 % 2 ^ 40 * 4096
    times := fwTimes f s.times
    fabId := [f 258 % 4096, f 258 % 4096]
    ports := (List.range 48).map fun p => ([0, 1, 2, 4] : List Nat).getD (f (400 + p) % 4) 0
    routes := (List.range 2).flatMap fun l => (List.range 4096).map fun d => (l, d, f (16384 + 4096 * l + d) % 2 ^ 48)
    dies := s.dies.mapIdx fun i (d : Die) => { d with
      secUnits := (List.range 2048).filter fun u => f (4096 + 2048 * i + u) % 2 == 1
      binWorld := f (500 + 3 * i) % 2 == 1
      taskWorld := f (501 + 3 * i) % 2 == 1
      collWorld := f (502 + 3 * i) % 2 == 1 }
    cores := s.cores.mapIdx fun i (c : Core) => { c with
      copyWorld := f (600 + 2 * i) % 2 == 1, walkWorld := f (601 + 2 * i) % 2 == 1 }
    queues := s.queues.mapIdx fun q x => fwQueue f q x }

/-- The image as the boot ROM reads it into die 0's scratchpad, before it checks it (25 R434). The longest has 64 MiB of payload. -/
def readImage (s : State) (image : List Byte) : State :=
  s.store (cellsAt (spAddr 0 (Config.mailbox % 2 ^ 26)) (image.take (256 + 2 ^ 26)))

/-- The image has run to ready (25 R434, R437): versions, tags zero everywhere, ECC initialised, the fuses raised. -/
def runImage (s : State) (image : List Byte) : State :=
  let s := { s with mem := s.mem.filter fun c => decide (c.1 < 2 ^ 80), poison := s.poison.filter foreign }
  let s := modPlat s fun p => { p with
    devStat := if s.lost.isEmpty then 4 else 5
    fwVer := word (fieldAt image 4 4)
    fwLevel := word (fieldAt image 8 4)
    fwHash := Config.sm3 (payload image)
    fuseLevel := word (max p.fuseLevel.toNat (fieldAt image 8 4))
    fwRuns := true }
  bringUp s (Config.firmware image)

/-- FIRMWARE_IMAGE: checked and run to ready, or refused, in one step; accepted while no firmware runs. -/
def execFirmwareImage (image : List Byte) (s : State) : Host.Outcome State Fault Refusal :=
  .next (if s.plat.fwRuns = false then
    let s := readImage s image
    if imageOk s.plat.fuseLevel image then runImage s image else modPlat s fun p => { p with devStat := 3 }
  else s)

end Sys2Proof.Machine
end

