-- ==== Sys2Proof/Machine/Sync.lean ====
section
/-! DEFINITION. The barrier instructions (08 R218 to R223). -/

namespace Sys2Proof.Machine

open Sys2Proof

/-- A lane of the active set is held by an invocation: the word executes inside a handler (08 R223). -/
def inInvocation (x : Ins) : Bool := x.g.running.any fun c => c.left &&& x.act != 0#128

/-- A synchronising barrier instruction raises HANDLERSYNC inside a handler (08 R223). -/
def outsideHandler (x : Ins) (a : Act) : Act :=
  if inInvocation x then x.fail (x.perf 0x10F .none (word x.op) 0 0 x.act .none) else a

/-- The lanes have executed BAR or BARA on a register, and wait until their group arrives (08 R218). -/
def arriveAt (x : Ins) (n : Nat) (wait : Bool) (d : Option Nat) : Act :=
  outsideHandler x <| .done (x.mod fun g => g.modLanes x.act fun l => { l with st := .arrive n wait d x.iss.pc })

/-- BAR (08 R218, R219). -/
def execBar (n : Fin 16) (s : State) : Host.Outcome State Fault Refusal :=
  issue (.bar n) s fun x => arriveAt x n.val true none

/-- BARA (08 R218, R219). -/
def execBara (d : Reg) (n : Fin 16) (s : State) : Host.Outcome State Fault Refusal :=
  issue (.bara d n) s fun x => arriveAt x n.val false (match d with
    | .s k => some k.val
    | _ => none)

/-- BARW (08 R219). -/
def execBarw (a : Reg) (n : Fin 16) (s : State) : Host.Outcome State Fault Refusal :=
  issue (.barw a n) s fun x => outsideHandler x <|
    let old := x.a.sca.getLsbD 0
    if (x.s.bar x.g.team n.val).phase = old then
      .done (x.mod fun g => g.modLanes x.act fun l => { l with st := .phase n.val old x.iss.pc false })
    else .done x.s

/-- BARI (08 R221). -/
def execBari (a : Reg) (n : Fin 16) (fixed : Bool) (s : State) : Host.Outcome State Fault Refusal :=
  issue (.bari a n fixed) s fun x =>
    let v := x.a.sca
    let b := x.s.bar x.g.team n.val
    if 1 ≤ v.toNat ∧ v.toNat ≤ 4095 ∧ b.arrived = 0 ∧ barWaits x.s x.g.team n.val = false then
      .done (x.s.putBar x.g.team n.val { b with expected := v.setWidth 12, track := !fixed })
    else x.fail (x.range v)

end Sys2Proof.Machine
end

