-- ==== Sys2Proof/Machine/System.lean ====
section
/-! DEFINITION. SYS (11 R295, R296; 24 R420, R424, R425) and the completion of long-latency instructions (01 R20 to R22; 10
R276). -/

namespace Sys2Proof.Machine

open Sys2Proof

/-- What lands in a scalar destination; z receives nothing. -/
def scalarLand (r : Reg) (v : Word) : List Land :=
  match r with
  | .s n => [.sreg n.val v]
  | _ => []

/-- The value of a system register (11 R295). -/
def systemReg (x : Ins) (sel : Nat) : Word :=
  let g := x.g
  match sel with
  | 0 => word g.depth
  | 1 => match innermost g x.act with
    | some c => word (2 ^ 31 + ((g.frame? c.frame).map (·.2)).getD 0 % 256 * 2 ^ 11 + c.perf.eff.toNat)
    | none => 0
  | 2 => word (16 - g.ctxs.length)
  | 3 => word g.it.callHt
  | 4 => word x.s.times.stallUs
  | 5 => word x.s.times.wbHold
  | 6 => word x.s.times.collTo
  | 7 => if x.s.secureGrid x.corr then 1 else 0
  | 8 => word x.corr
  | 9 => word (x.corr / 2 ^ 32)
  | 10 => x.s.plat.fwVer
  | 11 => word (0xD9C00000 + x.s.plat.stepping.toNat)
  | 16 => if g.it.traceOn then 1 else 0
  | 17 => if g.it.stampOn then 1 else 0
  | _ => 0

/-- SYS RDSR (11 R295): the register is read at issue, D lands at completion. -/
def execSysRdsr (d : Reg) (sel : BitVec 7) (s : State) : Host.Outcome State Fault Refusal :=
  issue (.sysRdsr d sel) s fun x => .done (x.flight x.s .ready (scalarLand d (systemReg x sel.toNat)) 0#7)

/-- SYS WRSR (11 R295): the register is written at completion. -/
def execSysWrsr (a : Reg) (sel : BitVec 7) (s : State) : Host.Outcome State Fault Refusal :=
  issue (.sysWrsr a sel) s fun x =>
    if sel.toNat < 16 then x.fail (x.range (word sel.toNat))
    else .done (x.flight x.s (.wrsr sel.toNat x.a.sca) [] 0#7)

/-- SYS STAMP (11 R296; 24 R424). -/
def execSysStamp (a : Reg) (s : State) : Host.Outcome State Fault Refusal :=
  issue (.sysStamp a) s fun x =>
    if 2 ^ 23 ≤ x.a.sca.toNat then x.fail (x.range x.a.sca)
    else entitled x [] [] [x.a.sca.toNat / 2 ^ 16] fun _ =>
      .done (x.flight x.s (.stamp x.a.sca) [] 0#7)

/-- SYS PROF (11 R296; 24 R420). -/
def execSysProf (a : Reg) (s : State) : Host.Outcome State Fault Refusal :=
  issue (.sysProf a) s fun x => .done (x.flight (x.s.traceRecord x.g 2 x.pc x.csn x.a.sca 0) .ready [] 0#7)

/-- SYS TIME (11 R296). -/
def execSysTime (d : Reg) (s : State) : Host.Outcome State Fault Refusal :=
  issue (.sysTime d) s fun x =>
    let lands := match d with
      | .s n => [Land.sreg n.val (word x.s.ns), .sreg (n.val + 1) (word (x.s.ns / 2 ^ 32))]
      | _ => []
    .done (x.flight x.s .ready lands 0#7)

/-- SYS FLAGS (11 R295; 01 R22): FFLAGS is read and written at issue, D lands at completion. -/
def execSysFlags (d a : Reg) (rd : Bool) (s : State) : Host.Outcome State Fault Refusal :=
  issue (.sysFlags d a rd) s fun x =>
    let s := if rd then x.s
      else x.mod fun g => { g with it := { g.it with fflags := writeFflags x.a.sca } }
    .done (x.flight s .ready (scalarLand d x.g.it.fflags) 0#7)

/-! ### LONG_LATENCY_COMPLETION -/

/-- The system action of a completion (11 R295, R296; 24 R425). -/
def systemAct (s : State) (k : GKey) (p : Pend) : State :=
  match p.await with
  | .wrsr sel v => s.modGroup k fun g =>
    if sel = 16 then { g with it := { g.it with traceOn := v.getLsbD 0 } }
    else { g with it := { g.it with stampOn := v.getLsbD 0 } }
  | .stamp v =>
    let corr := ((s.group? k).map (corrOf s)).getD 0
    let st : Stamp := ⟨v.toNat / 2 ^ 16, v.toNat % 2 ^ 16, p.pc, p.csn, corr, s.ns, none, none, none⟩
    s.modCore k.core fun c => { c with stamps := st :: c.stamps.filter fun y => y.bank != st.bank }
  | _ => s

/-- A poisoned byte that a drain meets (10 R276; 18 R381). -/
def drainPoison (s : State) (g : Group) (p : Pend) : Option Nat :=
  match p.await with
  | .drain bank e0 _ _ => (firstPoison s (accAddr g.key.core (bank * 8192 + 4 * e0)) (8 * g.width)).map (· - accAddr g.key.core 0)
  | _ => none

/-- A long-latency instruction completes: its results land, its flag clears, its flags merge (01 R20 to R22). -/
def complete (s : State) (k : GKey) (p : Pend) (lands : List Land) : State :=
  match s.group? k with
  | none => s
  | some g =>
    let bad := drainPoison s g p
    let g := if bad.isSome then g else lands.foldl Group.land g
    let corr := corrOf s g
    let s := s.setGroup { g with pend := g.pend.filter fun q => q.id != p.id }
    let s := systemAct s k p
    let s := mergeLate s k (s.ownOf k) corr p.pc p.csn p.mark p.flags 0
    match bad with
    | some off => addLate s k (s.ownOf k) corr ((perfPoison p.pc p.csn 4 off).since p.mark)
    | none => s

/-- LONG_LATENCY_COMPLETION (95; 01 R20). -/
def execLongLatencyCompletion (g : GKey) (id : Nat) (s : State) : Host.Outcome State Fault Refusal :=
  .next (match s.group? g with
    | none => s
    | some h =>
      match h.pend.find? fun p => p.id == id with
      | none => s
      | some p =>
        match completes s h p with
        | some lands => retireCore (complete s g p lands) g.core
        | none => s)

end Sys2Proof.Machine
end

