-- ==== Sys2Proof/Machine/Dispatch.lean ====
section
/-! DEFINITION. One arm for every row of spec/opcode_table.json, in its order. -/

namespace Sys2Proof.Machine

open Sys2Proof

def exec (i : Instr) (s : State) : Host.Outcome State Fault Refusal :=
  match i with
  | .nop => Sys2Proof.Machine.execNop s
  | .bra neg p off => Sys2Proof.Machine.execBra neg p off s
  | .brx a neg p => Sys2Proof.Machine.execBrx a neg p s
  | .call neg p off => Sys2Proof.Machine.execCall neg p off s
  | .ret => Sys2Proof.Machine.execRet s
  | .exit => Sys2Proof.Machine.execExit s
  | .yield => Sys2Proof.Machine.execYield s
  | .loop a n => Sys2Proof.Machine.execLoop a n s
  | .winb a imm => Sys2Proof.Machine.execWinb a imm s
  | .setx a add => Sys2Proof.Machine.execSetx a add s
  | .split d w => Sys2Proof.Machine.execSplit d w s
  | .fuse d a tag => Sys2Proof.Machine.execFuse d a tag s
  | .isync => Sys2Proof.Machine.execIsync s
  | .bkm a id => Sys2Proof.Machine.execBkm a id s
  | .waitf mask => Sys2Proof.Machine.execWaitf mask s
  | .mov d a b form => Sys2Proof.Machine.execMov d a b form s
  | .iadd d a b ind m => Sys2Proof.Machine.execIadd d a b ind m s
  | .isub d a b ind m => Sys2Proof.Machine.execIsub d a b ind m s
  | .imul d a b ind m => Sys2Proof.Machine.execImul d a b ind m s
  | .imad d a b ind => Sys2Proof.Machine.execImad d a b ind s
  | .imnx d a b ind uns max => Sys2Proof.Machine.execImnx d a b ind uns max s
  | .iuna d a ind fn => Sys2Proof.Machine.execIuna d a ind fn s
  | .iset p a b ind c => Sys2Proof.Machine.execIset p a b ind c s
  | .iaddi d a imm => Sys2Proof.Machine.execIaddi d a imm s
  | .iand d a b ind => Sys2Proof.Machine.execIand d a b ind s
  | .ior d a b ind => Sys2Proof.Machine.execIor d a b ind s
  | .ixor d a b ind => Sys2Proof.Machine.execIxor d a b ind s
  | .iandn d a b ind => Sys2Proof.Machine.execIandn d a b ind s
  | .shl d a b ind => Sys2Proof.Machine.execShl d a b ind s
  | .shr d a b ind m => Sys2Proof.Machine.execShr d a b ind m s
  | .bfx d a b ind m => Sys2Proof.Machine.execBfx d a b ind m s
  | .bits d a ind fn => Sys2Proof.Machine.execBits d a ind fn s
  | .sel d a b ind p => Sys2Proof.Machine.execSel d a b ind p s
  | .plog d a b op => Sys2Proof.Machine.execPlog d a b op s
  | .idiv d a b ind uns rem => Sys2Proof.Machine.execIdiv d a b ind uns rem s
  | .addr d a b ind k => Sys2Proof.Machine.execAddr d a b ind k s
  | .iseti p c a imm => Sys2Proof.Machine.execIseti p c a imm s
  | .andi d a imm => Sys2Proof.Machine.execAndi d a imm s
  | .xori d a imm => Sys2Proof.Machine.execXori d a imm s
  | .shi d a k n => Sys2Proof.Machine.execShi d a k n s
  | .fadd d a b ind rm => Sys2Proof.Machine.execFadd d a b ind rm s
  | .fsub d a b ind rm => Sys2Proof.Machine.execFsub d a b ind rm s
  | .fmul d a b ind rm => Sys2Proof.Machine.execFmul d a b ind rm s
  | .ffma d a b ind nc rm => Sys2Proof.Machine.execFfma d a b ind nc rm s
  | .fmnx d a b ind fn => Sys2Proof.Machine.execFmnx d a b ind fn s
  | .fset p a b ind c => Sys2Proof.Machine.execFset p a b ind c s
  | .fcvt d a src tgt ind sat rm => Sys2Proof.Machine.execFcvt d a src tgt ind sat rm s
  | .hadd2 d a b ind bf rm => Sys2Proof.Machine.execHadd2 d a b ind bf rm s
  | .hfma2 d a b ind bf rm => Sys2Proof.Machine.execHfma2 d a b ind bf rm s
  | .hmul2 d a b ind bf rm => Sys2Proof.Machine.execHmul2 d a b ind bf rm s
  | .fsfu d a ind fn => Sys2Proof.Machine.execFsfu d a ind fn s
  | .funa d a b ind fn => Sys2Proof.Machine.execFuna d a b ind fn s
  | .expo d a ind mant => Sys2Proof.Machine.execExpo d a ind mant s
  | .ldexp d a b ind rm => Sys2Proof.Machine.execLdexp d a b ind rm s
  | .maxe d a b ind => Sys2Proof.Machine.execMaxe d a b ind s
  | .sexp d a b ind => Sys2Proof.Machine.execSexp d a b ind s
  | .frow d a b ind bf fn => Sys2Proof.Machine.execFrow d a b ind bf fn s
  | .shfx d a b => Sys2Proof.Machine.execShfx d a b s
  | .shfp d a b => Sys2Proof.Machine.execShfp d a b s
  | .shfb d a b seg => Sys2Proof.Machine.execShfb d a b seg s
  | .shfi d a b => Sys2Proof.Machine.execShfi d a b s
  | .shfr d a b seg => Sys2Proof.Machine.execShfr d a b seg s
  | .mat d a b => Sys2Proof.Machine.execMat d a b s
  | .mapRd d a => Sys2Proof.Machine.execMapRd d a s
  | .mapWr d a => Sys2Proof.Machine.execMapWr d a s
  | .mapId d a => Sys2Proof.Machine.execMapId d a s
  | .vote d p neg fn => Sys2Proof.Machine.execVote d p neg fn s
  | .matchk d a f fn => Sys2Proof.Machine.execMatchk d a f fn s
  | .pscan d a h seg ex op => Sys2Proof.Machine.execPscan d a h seg ex op s
  | .qapp d a b => Sys2Proof.Machine.execQapp d a b s
  | .cdet d a f next => Sys2Proof.Machine.execCdet d a f next s
  | .redx d a b f op => Sys2Proof.Machine.execRedx d a b f op s
  | .segr d a h last op => Sys2Proof.Machine.execSegr d a h last op s
  | .rlt d a => Sys2Proof.Machine.execRlt d a s
  | .rwalk d a b h => Sys2Proof.Machine.execRwalk d a b h s
  | .ld d a b w sz => Sys2Proof.Machine.execLd d a b w sz s
  | .st d a b w sz => Sys2Proof.Machine.execSt d a b w sz s
  | .ldi d a w sz cnt => Sys2Proof.Machine.execLdi d a w sz cnt s
  | .sti d a w sz cnt => Sys2Proof.Machine.execSti d a w sz cnt s
  | .ldn d a b w sz => Sys2Proof.Machine.execLdn d a b w sz s
  | .atomh d a b op => Sys2Proof.Machine.execAtomh d a b op s
  | .atomp d a b op => Sys2Proof.Machine.execAtomp d a b op s
  | .acas d a b w sz => Sys2Proof.Machine.execAcas d a b w sz s
  | .fence k s1 => Sys2Proof.Machine.execFence k s1 s
  | .bar n => Sys2Proof.Machine.execBar n s
  | .bari a n fixed => Sys2Proof.Machine.execBari a n fixed s
  | .bara d n => Sys2Proof.Machine.execBara d n s
  | .barw a n => Sys2Proof.Machine.execBarw a n s
  | .ldt d a b w => Sys2Proof.Machine.execLdt d a b w s
  | .stt d a b w => Sys2Proof.Machine.execStt d a b w s
  | .layd l a b w => Sys2Proof.Machine.execLayd l a b w s
  | .cpy p a nb fo => Sys2Proof.Machine.execCpy p a nb fo s
  | .close d => Sys2Proof.Machine.execClose d s
  | .waitb a => Sys2Proof.Machine.execWaitb a s
  | .rrot p a nb => Sys2Proof.Machine.execRrot p a nb s
  | .cpyp p a nb => Sys2Proof.Machine.execCpyp p a nb s
  | .enq h a => Sys2Proof.Machine.execEnq h a s
  | .waith d h => Sys2Proof.Machine.execWaith d h s
  | .tsth p h => Sys2Proof.Machine.execTsth p h s
  | .canh h => Sys2Proof.Machine.execCanh h s
  | .hsto h a b => Sys2Proof.Machine.execHsto h a b s
  | .hlod h a b => Sys2Proof.Machine.execHlod h a b s
  | .bina n a b => Sys2Proof.Machine.execBina n a b s
  | .crc d a b sz => Sys2Proof.Machine.execCrc d a b sz s
  | .bhist d a b dig k => Sys2Proof.Machine.execBhist d a b dig k s
  | .bsel p a b within k => Sys2Proof.Machine.execBsel p a b within k s
  | .oclm d a => Sys2Proof.Machine.execOclm d a s
  | .orel a => Sys2Proof.Machine.execOrel a s
  | .aclm d a => Sys2Proof.Machine.execAclm d a s
  | .aclmGrant a b => Sys2Proof.Machine.execAclmGrant a b s
  | .arel a => Sys2Proof.Machine.execArel a s
  | .arelRevoke a => Sys2Proof.Machine.execArelRevoke a s
  | .mma d a b tb ov => Sys2Proof.Machine.execMma d a b tb ov s
  | .mmaa d a b ov => Sys2Proof.Machine.execMmaa d a b ov s
  | .mmsp d a b tb ov => Sys2Proof.Machine.execMmsp d a b tb ov s
  | .publ d a => Sys2Proof.Machine.execPubl d a s
  | .publSeal a => Sys2Proof.Machine.execPublSeal a s
  | .setl a => Sys2Proof.Machine.execSetl a s
  | .alin d a b op => Sys2Proof.Machine.execAlin d a b op s
  | .adrn d a b => Sys2Proof.Machine.execAdrn d a b s
  | .afil a b => Sys2Proof.Machine.execAfil a b s
  | .old d a b => Sys2Proof.Machine.execOld d a b s
  | .sltg a b => Sys2Proof.Machine.execSltg a b s
  | .ast d a b w => Sys2Proof.Machine.execAst d a b w s
  | .ost d a b sat fmt => Sys2Proof.Machine.execOst d a b sat fmt s
  | .perf d a b neg p => Sys2Proof.Machine.execPerf d a b neg p s
  | .hpsh d a b => Sys2Proof.Machine.execHpsh d a b s
  | .hpop => Sys2Proof.Machine.execHpop s
  | .rsum k b act => Sys2Proof.Machine.execRsum k b act s
  | .tokd k => Sys2Proof.Machine.execTokd k s
  | .tokdAbort k => Sys2Proof.Machine.execTokdAbort k s
  | .tokdMov j k => Sys2Proof.Machine.execTokdMov j k s
  | .sysRdsr d sel => Sys2Proof.Machine.execSysRdsr d sel s
  | .sysWrsr a sel => Sys2Proof.Machine.execSysWrsr a sel s
  | .sysStamp a => Sys2Proof.Machine.execSysStamp a s
  | .sysProf a => Sys2Proof.Machine.execSysProf a s
  | .sysTime d => Sys2Proof.Machine.execSysTime d s
  | .sysFlags d a rd => Sys2Proof.Machine.execSysFlags d a rd s
  | .whalt => Sys2Proof.Machine.execWhalt s
  | .wli d imm => Sys2Proof.Machine.execWli d imm s
  | .wadd d a b imm => Sys2Proof.Machine.execWadd d a b imm s
  | .wsub d a b => Sys2Proof.Machine.execWsub d a b s
  | .wmul d a b => Sys2Proof.Machine.execWmul d a b s
  | .wshl d a n => Sys2Proof.Machine.execWshl d a n s
  | .wshr d a n => Sys2Proof.Machine.execWshr d a n s
  | .wand d a b => Sys2Proof.Machine.execWand d a b s
  | .wldw d a w imm => Sys2Proof.Machine.execWldw d a w imm s
  | .wldh d a w imm => Sys2Proof.Machine.execWldh d a w imm s
  | .wldb d a w imm => Sys2Proof.Machine.execWldb d a w imm s
  | .wbeq a b imm => Sys2Proof.Machine.execWbeq a b imm s
  | .wbne a b imm => Sys2Proof.Machine.execWbne a b imm s
  | .wblo a b imm => Sys2Proof.Machine.execWblo a b imm s
  | .wbhs a b imm => Sys2Proof.Machine.execWbhs a b imm s
  | .wjmp imm => Sys2Proof.Machine.execWjmp imm s
  | .wtgt a b => Sys2Proof.Machine.execWtgt a b s
  | .wzero => Sys2Proof.Machine.execWzero s
  | .wemit a b => Sys2Proof.Machine.execWemit a b s
  | .wrun d a b w => Sys2Proof.Machine.execWrun d a b w s
  | .warv n => Sys2Proof.Machine.execWarv n s
  | .wfault n => Sys2Proof.Machine.execWfault n s
  | .clauseHeader g => Sys2Proof.Machine.execClauseHeader g s
  | .storeQueueDrain g => Sys2Proof.Machine.execStoreQueueDrain g s
  | .longLatencyCompletion g id => Sys2Proof.Machine.execLongLatencyCompletion g id s
  | .lateEffectDelivery g => Sys2Proof.Machine.execLateEffectDelivery g s
  | .copyBlock core id => Sys2Proof.Machine.execCopyBlock core id s
  | .translationWalk die => Sys2Proof.Machine.execTranslationWalk die s
  | .matrixEntryStart core => Sys2Proof.Machine.execMatrixEntryStart core s
  | .matrixEntryFinish core => Sys2Proof.Machine.execMatrixEntryFinish core s
  | .correctionApplication core => Sys2Proof.Machine.execCorrectionApplication core s
  | .binningOpen die job => Sys2Proof.Machine.execBinningOpen die job s
  | .binningReplay die job => Sys2Proof.Machine.execBinningReplay die job s
  | .walkerJob die job => Sys2Proof.Machine.execWalkerJob die job s
  | .gather die job => Sys2Proof.Machine.execGather die job s
  | .topkHistogram die job => Sys2Proof.Machine.execTopkHistogram die job s
  | .topkSelect die job => Sys2Proof.Machine.execTopkSelect die job s
  | .mainToMainCopy die job => Sys2Proof.Machine.execMainToMainCopy die job s
  | .walkerStepLimit core => Sys2Proof.Machine.execWalkerStepLimit core s
  | .collForm die job => Sys2Proof.Machine.execCollForm die job s
  | .collDisband die job => Sys2Proof.Machine.execCollDisband die job s
  | .collBarrier die job => Sys2Proof.Machine.execCollBarrier die job s
  | .collBcast die job => Sys2Proof.Machine.execCollBcast die job s
  | .collAllred die job => Sys2Proof.Machine.execCollAllred die job s
  | .collRedscat die job => Sys2Proof.Machine.execCollRedscat die job s
  | .collGather die job => Sys2Proof.Machine.execCollGather die job s
  | .collXscan die job => Sys2Proof.Machine.execCollXscan die job s
  | .signal src tag count addr => Sys2Proof.Machine.execSignal src tag count addr s
  | .formMsg die m members => Sys2Proof.Machine.execFormMsg die m members s
  | .beatMsg die m => Sys2Proof.Machine.execBeatMsg die m s
  | .postMsg die m c2 count data => Sys2Proof.Machine.execPostMsg die m c2 count data s
  | .abortMsg die m => Sys2Proof.Machine.execAbortMsg die m s
  | .decideMsg die m => Sys2Proof.Machine.execDecideMsg die m s
  | .readRequest src tag addr len => Sys2Proof.Machine.execReadRequest src tag addr len s
  | .writeRequest src tag addr bytes enable => Sys2Proof.Machine.execWriteRequest src tag addr bytes enable s
  | .atomicRequest src tag addr op v cmp => Sys2Proof.Machine.execAtomicRequest src tag addr op v cmp s
  | .readCompletion req ok bytes => Sys2Proof.Machine.execReadCompletion req ok bytes s
  | .writeCompletion req ok => Sys2Proof.Machine.execWriteCompletion req ok s
  | .atomicCompletion req ok old => Sys2Proof.Machine.execAtomicCompletion req ok old s
  | .fabricRequestTimeout req => Sys2Proof.Machine.execFabricRequestTimeout req s
  | .signalTagTimeout src tag => Sys2Proof.Machine.execSignalTagTimeout src tag s
  | .heartbeat die gid => Sys2Proof.Machine.execHeartbeat die gid s
  | .memberLost die gid rank => Sys2Proof.Machine.execMemberLost die gid rank s
  | .collectiveTimeout die gid => Sys2Proof.Machine.execCollectiveTimeout die gid s
  | .formTimeout die job => Sys2Proof.Machine.execFormTimeout die job s
  | .deciderUnreachable die gid => Sys2Proof.Machine.execDeciderUnreachable die gid s
  | .portLaneFailure port lanes => Sys2Proof.Machine.execPortLaneFailure port lanes s
  | .copystall g => Sys2Proof.Machine.execCopystall g s
  | .fuseRendezvousTimeout g => Sys2Proof.Machine.execFuseRendezvousTimeout g s
  | .writeblock r => Sys2Proof.Machine.execWriteblock r s
  | .heldWriteRewalk die => Sys2Proof.Machine.execHeldWriteRewalk die s
  | .invctl die v => Sys2Proof.Machine.execInvctl die v s
  | .invalidationComplete die => Sys2Proof.Machine.execInvalidationComplete die s
  | .codeinv die line count => Sys2Proof.Machine.execCodeinv die line count s
  | .codeinvAccept die => Sys2Proof.Machine.execCodeinvAccept die s
  | .doorbell q tail => Sys2Proof.Machine.execDoorbell q tail s
  | .launchRecord => Sys2Proof.Machine.execLaunchRecord s
  | .clusterPlacement corr => Sys2Proof.Machine.execClusterPlacement corr s
  | .fallbackMode corr => Sys2Proof.Machine.execFallbackMode corr s
  | .priority7Preemption corr => Sys2Proof.Machine.execPriority7Preemption corr s
  | .cancel q hi => Sys2Proof.Machine.execCancel q hi s
  | .preempt q hi => Sys2Proof.Machine.execPreempt q hi s
  | .preemptHaltComplete corr => Sys2Proof.Machine.execPreemptHaltComplete corr s
  | .gridRestore corr => Sys2Proof.Machine.execGridRestore corr s
  | .gridCompletion corr => Sys2Proof.Machine.execGridCompletion corr s
  | .railSample die rails => Sys2Proof.Machine.execRailSample die rails s
  | .energyShare cores dieRails packageRails => Sys2Proof.Machine.execEnergyShare cores dieRails packageRails s
  | .patrolScrub => Sys2Proof.Machine.execPatrolScrub s
  | .unitLoss u => Sys2Proof.Machine.execUnitLoss u s
  | .atctl v => Sys2Proof.Machine.execAtctl v s
  | .attestationReport => Sys2Proof.Machine.execAttestationReport s
  | .registerWrite secure off v => Sys2Proof.Machine.execRegisterWrite secure off v s
  | .hostMemoryAccess secure write addr len bytes => Sys2Proof.Machine.execHostMemoryAccess secure write addr len bytes s
  | .reset => Sys2Proof.Machine.execReset s
  | .firmwareImage image => Sys2Proof.Machine.execFirmwareImage image s
  | .throttle up => Sys2Proof.Machine.execThrottle up s
  | .thermalShutdown => Sys2Proof.Machine.execThermalShutdown s
  | .portComeUp port lanes => Sys2Proof.Machine.execPortComeUp port lanes s
  | .walkfault core => Sys2Proof.Machine.execWalkfault core s
  | .trailerCompletion req ok => Sys2Proof.Machine.execTrailerCompletion req ok s

end Sys2Proof.Machine
end

