-- ==== Sys2Proof/Machine/Schedule.lean ====
section
/-! DEFINITION. The warp schedulers of a core: which group each of them would issue for (00 R1; 17 R357, R358; 03 R69; 05 R127), and
the turn of a step under them (notes/assumptions/2.md). -/

namespace Sys2Proof.Machine

open Sys2Proof

/-- The warp schedulers a group belongs to: slot g belongs to scheduler g mod 4 (00 R1), a fused group to every member's (17
R358). -/
def Group.schedulers (g : Group) : List Nat := g.slots.map (· % 4)

/-- Two groups compete in a scheduler of one core. -/
def Group.competes (g h : Group) : Bool := g.key.core == h.key.core && g.schedulers.any h.schedulers.contains

/-- Cycles since the group issued last (17 R357): those that the device time shows, and at least one for every word its first
scheduler has issued since (notes/assumptions/48.md). -/
def cyclesWaited (s : State) (g : Group) : Nat := max g.waited ((s.ns - g.lastNs) * s.plat.clockMHz / 1000)

/-- The group counts as the oldest of its schedulers (17 R357). -/
def starving (s : State) (g : Group) : Bool := decide (4096 ≤ cyclesWaited s g)

/-- A yield hint or a YIELD still defers the group (03 R69; 05 R127). -/
def deferred (s : State) (g : Group) : Bool := decide (cyclesWaited s g < g.yielded)

/-- A scheduler prefers one ready group to another: one that starves, then one that is not deferred, then the older (17 R357). -/
def preferred (s : State) (a b : Group) : Bool :=
  if starving s a != starving s b then starving s a
  else if deferred s a != deferred s b then deferred s b
  else olderThan a b

/-- The group has gone on from where it stood: a word has issued, or it has entered a clause. -/
def wentOn (g : Group) (t : State) : Bool :=
  match t.group? g.key with
  | some h => h.issued != g.issued || (g.cur.isNone && h.cur.isSome)
  | none => true

/-- The group is ready (17 R357): its next word, or the header it stands at, can issue. -/
def ready (s : State) (g : Group) : Bool :=
  match chosen s (.group g.key) with
  | some (i, a) =>
    match exec i { s with cur := a } with
    | .next t => wentOn g t
    | _ => false
  | none => false

/-- Every scheduler of the group would choose it: no ready group that one of them prefers competes with it (17 R357, R358). -/
def mayTurn (s : State) (g : Group) : Bool :=
  s.groups.all fun h => h.key == g.key || !h.competes g || !preferred s h g || !ready s h

/-- What a turn executes, and who acts: a group issues when its schedulers choose it; a late effect needs no issue. -/
def turnOf (s : State) (t : Turn) : Option (Instr × Option Actor) :=
  match chosen s t with
  | none => none
  | some (i, a) =>
    match t, i with
    | .group _, .lateEffectDelivery _ => some (i, a)
    | .group k, _ => ((s.group? k).bind fun g => if mayTurn s g then some (i, a) else none)
    | _, _ => some (i, a)

/-- A group after a turn of another that issued a word: one more word of its first scheduler, or its own. -/
def Group.noteIssue (now : Nat) (by_ g : Group) : Group :=
  if g.key = by_.key then { g with waited := 0, lastNs := now }
  else if g.key.core == by_.key.core && by_.schedulers.contains (g.key.slot % 4) then { g with waited := g.waited + 1 }
  else g

/-- The state after a turn, with the issue of a word counted (17 R357). -/
def counted (s : State) (t : Turn) (s' : State) : State :=
  match t with
  | .group k =>
    match s.group? k, s'.group? k with
    | some g, some h => if h.issued = g.issued then s' else { s' with groups := s'.groups.map (Group.noteIssue s'.ns g) }
    | _, _ => s'
  | _ => s'

end Sys2Proof.Machine
end

