-- ==== Sys2Proof/Machine/Step.lean ====
section
/-! DEFINITION. One step of the package: the turn at the head of the agenda, else the first turn of the default order that
changes anything; after a group or walker those behind it have their turns too (notes/assumptions/2.md). -/

namespace Sys2Proof.Machine

open Sys2Proof

/-- One turn: the instruction it executes, by whom, and the issue counted (Machine/Schedule.lean). A turn that lets nothing act
changes nothing. -/
def runTurn (s : State) (t : Turn) : Host.Outcome State Fault Refusal :=
  match t with
  | .flaw f => .next (strike s f)
  | t => match turnOf s t with
  | some (i, a) =>
    match exec i { s with cur := a } with
    | .next s' => .next (counted s t s')
    | o => o
  | none => .next s

/-- The turns that follow a turn of the default order: after a group or walker those behind it, so that each of them acts in
its round; after an event none. -/
def roundAfter (t : Turn) (ts : List Turn) : List Turn :=
  match t with
  | .event _ => []
  | .flaw _ => []
  | _ => ts.filter fun u => match u with
    | .event _ => false
    | _ => true

/-- The first turn that changes the state, or idling. -/
def firstTurn (s : State) : List Turn → Host.Outcome State Fault Refusal
  | [] => .next s
  | t :: ts =>
    match runTurn s t with
    | .next s' => if s' = { s with cur := s'.cur } then firstTurn s ts else .next { s' with agenda := roundAfter t ts }
    | o => o

/-- One step. -/
def step (s : State) : Host.Outcome State Fault Refusal :=
  match s.agenda with
  | t :: ts => runTurn { begin_ s with agenda := ts } t
  | [] => firstTurn (begin_ s) (defaultTurns s)

/-- The state with an instruction stored where `step` fetches its next one. Words of 32 bits only; another width is none of
this hardware's and changes nothing. -/
def State.withFetchWord (s : State) (nbits w : Nat) : State :=
  if nbits = 32 then withWord s (w % 2 ^ 32) else s

end Sys2Proof.Machine
end

