-- ==== Sys2Proof/Laws/Decode.lean ====
section
/-! SUPPORT. The codes of the encoding tables, and the fields of a word: what a decoder needs to read back what the encoder
wrote. -/

namespace Sys2Proof

theorem Reg.code_lt (r : Reg) : r.code < 128 := by
  cases r <;> simp only [Reg.code] <;> omega

/-- A register code reads back. -/
@[simp] theorem Reg.ofCode_code (r : Reg) : Reg.ofCode r.code = r := by
  cases r with
  | v n => simp [Reg.code, Reg.ofCode]
  | s n => simp [Reg.code, Reg.ofCode]
  | z => rfl
  | lid => rfl
  | tix => rfl
  | lit => rfl

/-- The fields of a word read back (03 R75). -/
theorem fieldsOf_word {f : Fields} (h : f.ok) : fieldsOf f.word = f := by
  obtain ⟨h1, h2, h3, h4, h5⟩ := h
  cases f
  simp only [fieldsOf, Fields.word] at *
  simp only [Fields.mk.injEq]
  omega

/-- The fields of a walker word read back (12 R300). -/
theorem wFieldsOf_word {f : WFields} (h2 : f.d < 16) (h3 : f.a < 16) (h4 : f.b < 16)
    (h5 : f.imm < 2 ^ 14) : wFieldsOf f.word = f := by
  cases f
  simp only [wFieldsOf, WFields.word] at *
  simp only [WFields.mk.injEq]
  omega

/-! ### Code tables -/

@[simp] theorem SatMode.code_wrap : codeIn SatMode.codes .wrap = 0 := rfl
@[simp] theorem SatMode.pick_wrap (k : SatMode → Decoded) : pick SatMode.codes 0 k = k .wrap := rfl
@[simp] theorem SatMode.code_sat : codeIn SatMode.codes .sat = 1 := rfl
@[simp] theorem SatMode.pick_sat (k : SatMode → Decoded) : pick SatMode.codes 1 k = k .sat := rfl
@[simp] theorem SatMode.code_nsat : codeIn SatMode.codes .nsat = 2 := rfl
@[simp] theorem SatMode.pick_nsat (k : SatMode → Decoded) : pick SatMode.codes 2 k = k .nsat := rfl
@[simp] theorem MulMode.code_low : codeIn MulMode.codes .low = 0 := rfl
@[simp] theorem MulMode.pick_low (k : MulMode → Decoded) : pick MulMode.codes 0 k = k .low := rfl
@[simp] theorem MulMode.code_hi : codeIn MulMode.codes .hi = 1 := rfl
@[simp] theorem MulMode.pick_hi (k : MulMode → Decoded) : pick MulMode.codes 1 k = k .hi := rfl
@[simp] theorem MulMode.code_nhi : codeIn MulMode.codes .nhi = 2 := rfl
@[simp] theorem MulMode.pick_nhi (k : MulMode → Decoded) : pick MulMode.codes 2 k = k .nhi := rfl
@[simp] theorem ShrMode.code_logical : codeIn ShrMode.codes .logical = 0 := rfl
@[simp] theorem ShrMode.pick_logical (k : ShrMode → Decoded) : pick ShrMode.codes 0 k = k .logical := rfl
@[simp] theorem ShrMode.code_arith : codeIn ShrMode.codes .arith = 1 := rfl
@[simp] theorem ShrMode.pick_arith (k : ShrMode → Decoded) : pick ShrMode.codes 1 k = k .arith := rfl
@[simp] theorem ShrMode.code_rot : codeIn ShrMode.codes .rot = 2 := rfl
@[simp] theorem ShrMode.pick_rot (k : ShrMode → Decoded) : pick ShrMode.codes 2 k = k .rot := rfl
@[simp] theorem ShiKind.code_shl : codeIn ShiKind.codes .shl = 0 := rfl
@[simp] theorem ShiKind.pick_shl (k : ShiKind → Decoded) : pick ShiKind.codes 0 k = k .shl := rfl
@[simp] theorem ShiKind.code_shr : codeIn ShiKind.codes .shr = 1 := rfl
@[simp] theorem ShiKind.pick_shr (k : ShiKind → Decoded) : pick ShiKind.codes 1 k = k .shr := rfl
@[simp] theorem ShiKind.code_sar : codeIn ShiKind.codes .sar = 2 := rfl
@[simp] theorem ShiKind.pick_sar (k : ShiKind → Decoded) : pick ShiKind.codes 2 k = k .sar := rfl
@[simp] theorem ShiKind.code_rot : codeIn ShiKind.codes .rot = 3 := rfl
@[simp] theorem ShiKind.pick_rot (k : ShiKind → Decoded) : pick ShiKind.codes 3 k = k .rot := rfl
@[simp] theorem BfxMode.code_n : codeIn BfxMode.codes .n = 0 := rfl
@[simp] theorem BfxMode.pick_n (k : BfxMode → Decoded) : pick BfxMode.codes 0 k = k .n := rfl
@[simp] theorem BfxMode.code_s : codeIn BfxMode.codes .s = 1 := rfl
@[simp] theorem BfxMode.pick_s (k : BfxMode → Decoded) : pick BfxMode.codes 1 k = k .s := rfl
@[simp] theorem BfxMode.code_ins : codeIn BfxMode.codes .ins = 2 := rfl
@[simp] theorem BfxMode.pick_ins (k : BfxMode → Decoded) : pick BfxMode.codes 2 k = k .ins := rfl
@[simp] theorem BitsFn.code_popc : codeIn BitsFn.codes .popc = 0 := rfl
@[simp] theorem BitsFn.pick_popc (k : BitsFn → Decoded) : pick BitsFn.codes 0 k = k .popc := rfl
@[simp] theorem BitsFn.code_clz : codeIn BitsFn.codes .clz = 1 := rfl
@[simp] theorem BitsFn.pick_clz (k : BitsFn → Decoded) : pick BitsFn.codes 1 k = k .clz := rfl
@[simp] theorem BitsFn.code_brev : codeIn BitsFn.codes .brev = 2 := rfl
@[simp] theorem BitsFn.pick_brev (k : BitsFn → Decoded) : pick BitsFn.codes 2 k = k .brev := rfl
@[simp] theorem BitsFn.code_ffs : codeIn BitsFn.codes .ffs = 3 := rfl
@[simp] theorem BitsFn.pick_ffs (k : BitsFn → Decoded) : pick BitsFn.codes 3 k = k .ffs := rfl
@[simp] theorem UnaFn.code_abs : codeIn UnaFn.codes .abs = 0 := rfl
@[simp] theorem UnaFn.pick_abs (k : UnaFn → Decoded) : pick UnaFn.codes 0 k = k .abs := rfl
@[simp] theorem UnaFn.code_neg : codeIn UnaFn.codes .neg = 1 := rfl
@[simp] theorem UnaFn.pick_neg (k : UnaFn → Decoded) : pick UnaFn.codes 1 k = k .neg := rfl
@[simp] theorem UnaFn.code_sabs : codeIn UnaFn.codes .sabs = 2 := rfl
@[simp] theorem UnaFn.pick_sabs (k : UnaFn → Decoded) : pick UnaFn.codes 2 k = k .sabs := rfl
@[simp] theorem UnaFn.code_sneg : codeIn UnaFn.codes .sneg = 3 := rfl
@[simp] theorem UnaFn.pick_sneg (k : UnaFn → Decoded) : pick UnaFn.codes 3 k = k .sneg := rfl
@[simp] theorem ICond.code_eq : codeIn ICond.codes .eq = 0 := rfl
@[simp] theorem ICond.pick_eq (k : ICond → Decoded) : pick ICond.codes 0 k = k .eq := rfl
@[simp] theorem ICond.code_ne : codeIn ICond.codes .ne = 1 := rfl
@[simp] theorem ICond.pick_ne (k : ICond → Decoded) : pick ICond.codes 1 k = k .ne := rfl
@[simp] theorem ICond.code_lt : codeIn ICond.codes .lt = 2 := rfl
@[simp] theorem ICond.pick_lt (k : ICond → Decoded) : pick ICond.codes 2 k = k .lt := rfl
@[simp] theorem ICond.code_ge : codeIn ICond.codes .ge = 3 := rfl
@[simp] theorem ICond.pick_ge (k : ICond → Decoded) : pick ICond.codes 3 k = k .ge := rfl
@[simp] theorem ICond.code_lo : codeIn ICond.codes .lo = 4 := rfl
@[simp] theorem ICond.pick_lo (k : ICond → Decoded) : pick ICond.codes 4 k = k .lo := rfl
@[simp] theorem ICond.code_hs : codeIn ICond.codes .hs = 5 := rfl
@[simp] theorem ICond.pick_hs (k : ICond → Decoded) : pick ICond.codes 5 k = k .hs := rfl
@[simp] theorem ICond.code_tst : codeIn ICond.codes .tst = 6 := rfl
@[simp] theorem ICond.pick_tst (k : ICond → Decoded) : pick ICond.codes 6 k = k .tst := rfl
@[simp] theorem ICond.code_ntst : codeIn ICond.codes .ntst = 7 := rfl
@[simp] theorem ICond.pick_ntst (k : ICond → Decoded) : pick ICond.codes 7 k = k .ntst := rfl
@[simp] theorem PlogOp.code_and : codeIn PlogOp.codes .and = 0 := rfl
@[simp] theorem PlogOp.pick_and (k : PlogOp → Decoded) : pick PlogOp.codes 0 k = k .and := rfl
@[simp] theorem PlogOp.code_or : codeIn PlogOp.codes .or = 1 := rfl
@[simp] theorem PlogOp.pick_or (k : PlogOp → Decoded) : pick PlogOp.codes 1 k = k .or := rfl
@[simp] theorem PlogOp.code_xor : codeIn PlogOp.codes .xor = 2 := rfl
@[simp] theorem PlogOp.pick_xor (k : PlogOp → Decoded) : pick PlogOp.codes 2 k = k .xor := rfl
@[simp] theorem PlogOp.code_andn : codeIn PlogOp.codes .andn = 3 := rfl
@[simp] theorem PlogOp.pick_andn (k : PlogOp → Decoded) : pick PlogOp.codes 3 k = k .andn := rfl
@[simp] theorem PlogOp.code_orn : codeIn PlogOp.codes .orn = 4 := rfl
@[simp] theorem PlogOp.pick_orn (k : PlogOp → Decoded) : pick PlogOp.codes 4 k = k .orn := rfl
@[simp] theorem PlogOp.code_xnor : codeIn PlogOp.codes .xnor = 5 := rfl
@[simp] theorem PlogOp.pick_xnor (k : PlogOp → Decoded) : pick PlogOp.codes 5 k = k .xnor := rfl
@[simp] theorem PlogOp.code_nand : codeIn PlogOp.codes .nand = 6 := rfl
@[simp] theorem PlogOp.pick_nand (k : PlogOp → Decoded) : pick PlogOp.codes 6 k = k .nand := rfl
@[simp] theorem PlogOp.code_nor : codeIn PlogOp.codes .nor = 7 := rfl
@[simp] theorem PlogOp.pick_nor (k : PlogOp → Decoded) : pick PlogOp.codes 7 k = k .nor := rfl
@[simp] theorem Rm.code_rne : codeIn Rm.codes .rne = 0 := rfl
@[simp] theorem Rm.pick_rne (k : Rm → Decoded) : pick Rm.codes 0 k = k .rne := rfl
@[simp] theorem Rm.code_rtz : codeIn Rm.codes .rtz = 1 := rfl
@[simp] theorem Rm.pick_rtz (k : Rm → Decoded) : pick Rm.codes 1 k = k .rtz := rfl
@[simp] theorem Rm.code_rdn : codeIn Rm.codes .rdn = 2 := rfl
@[simp] theorem Rm.pick_rdn (k : Rm → Decoded) : pick Rm.codes 2 k = k .rdn := rfl
@[simp] theorem Rm.code_rup : codeIn Rm.codes .rup = 3 := rfl
@[simp] theorem Rm.pick_rup (k : Rm → Decoded) : pick Rm.codes 3 k = k .rup := rfl
@[simp] theorem MnxFn.code_min : codeIn MnxFn.codes .min = 0 := rfl
@[simp] theorem MnxFn.pick_min (k : MnxFn → Decoded) : pick MnxFn.codes 0 k = k .min := rfl
@[simp] theorem MnxFn.code_max : codeIn MnxFn.codes .max = 1 := rfl
@[simp] theorem MnxFn.pick_max (k : MnxFn → Decoded) : pick MnxFn.codes 1 k = k .max := rfl
@[simp] theorem MnxFn.code_minnum : codeIn MnxFn.codes .minnum = 2 := rfl
@[simp] theorem MnxFn.pick_minnum (k : MnxFn → Decoded) : pick MnxFn.codes 2 k = k .minnum := rfl
@[simp] theorem MnxFn.code_maxnum : codeIn MnxFn.codes .maxnum = 3 := rfl
@[simp] theorem MnxFn.pick_maxnum (k : MnxFn → Decoded) : pick MnxFn.codes 3 k = k .maxnum := rfl
@[simp] theorem FCond.code_eq : codeIn FCond.codes .eq = 0 := rfl
@[simp] theorem FCond.pick_eq (k : FCond → Decoded) : pick FCond.codes 0 k = k .eq := rfl
@[simp] theorem FCond.code_ne : codeIn FCond.codes .ne = 1 := rfl
@[simp] theorem FCond.pick_ne (k : FCond → Decoded) : pick FCond.codes 1 k = k .ne := rfl
@[simp] theorem FCond.code_lt : codeIn FCond.codes .lt = 2 := rfl
@[simp] theorem FCond.pick_lt (k : FCond → Decoded) : pick FCond.codes 2 k = k .lt := rfl
@[simp] theorem FCond.code_le : codeIn FCond.codes .le = 3 := rfl
@[simp] theorem FCond.pick_le (k : FCond → Decoded) : pick FCond.codes 3 k = k .le := rfl
@[simp] theorem FCond.code_gt : codeIn FCond.codes .gt = 4 := rfl
@[simp] theorem FCond.pick_gt (k : FCond → Decoded) : pick FCond.codes 4 k = k .gt := rfl
@[simp] theorem FCond.code_ge : codeIn FCond.codes .ge = 5 := rfl
@[simp] theorem FCond.pick_ge (k : FCond → Decoded) : pick FCond.codes 5 k = k .ge := rfl
@[simp] theorem FCond.code_ord : codeIn FCond.codes .ord = 6 := rfl
@[simp] theorem FCond.pick_ord (k : FCond → Decoded) : pick FCond.codes 6 k = k .ord := rfl
@[simp] theorem FCond.code_uno : codeIn FCond.codes .uno = 7 := rfl
@[simp] theorem FCond.pick_uno (k : FCond → Decoded) : pick FCond.codes 7 k = k .uno := rfl
@[simp] theorem CvtSrc.code_f32 : codeIn CvtSrc.codes .f32 = 0 := rfl
@[simp] theorem CvtSrc.pick_f32 (k : CvtSrc → Decoded) : pick CvtSrc.codes 0 k = k .f32 := rfl
@[simp] theorem CvtSrc.code_bf16 : codeIn CvtSrc.codes .bf16 = 1 := rfl
@[simp] theorem CvtSrc.pick_bf16 (k : CvtSrc → Decoded) : pick CvtSrc.codes 1 k = k .bf16 := rfl
@[simp] theorem CvtSrc.code_f16 : codeIn CvtSrc.codes .f16 = 2 := rfl
@[simp] theorem CvtSrc.pick_f16 (k : CvtSrc → Decoded) : pick CvtSrc.codes 2 k = k .f16 := rfl
@[simp] theorem CvtSrc.code_f8e4 : codeIn CvtSrc.codes .f8e4 = 3 := rfl
@[simp] theorem CvtSrc.pick_f8e4 (k : CvtSrc → Decoded) : pick CvtSrc.codes 3 k = k .f8e4 := rfl
@[simp] theorem CvtSrc.code_f8e5 : codeIn CvtSrc.codes .f8e5 = 4 := rfl
@[simp] theorem CvtSrc.pick_f8e5 (k : CvtSrc → Decoded) : pick CvtSrc.codes 4 k = k .f8e5 := rfl
@[simp] theorem CvtSrc.code_p2t8 : codeIn CvtSrc.codes .p2t8 = 5 := rfl
@[simp] theorem CvtSrc.pick_p2t8 (k : CvtSrc → Decoded) : pick CvtSrc.codes 5 k = k .p2t8 := rfl
@[simp] theorem CvtSrc.code_s32 : codeIn CvtSrc.codes .s32 = 6 := rfl
@[simp] theorem CvtSrc.pick_s32 (k : CvtSrc → Decoded) : pick CvtSrc.codes 6 k = k .s32 := rfl
@[simp] theorem CvtSrc.code_s8 : codeIn CvtSrc.codes .s8 = 7 := rfl
@[simp] theorem CvtSrc.pick_s8 (k : CvtSrc → Decoded) : pick CvtSrc.codes 7 k = k .s8 := rfl
@[simp] theorem CvtTgt.code_f32 : codeIn CvtTgt.codes .f32 = 0 := rfl
@[simp] theorem CvtTgt.pick_f32 (k : CvtTgt → Decoded) : pick CvtTgt.codes 0 k = k .f32 := rfl
@[simp] theorem CvtTgt.code_bf16 : codeIn CvtTgt.codes .bf16 = 1 := rfl
@[simp] theorem CvtTgt.pick_bf16 (k : CvtTgt → Decoded) : pick CvtTgt.codes 1 k = k .bf16 := rfl
@[simp] theorem CvtTgt.code_f16 : codeIn CvtTgt.codes .f16 = 2 := rfl
@[simp] theorem CvtTgt.pick_f16 (k : CvtTgt → Decoded) : pick CvtTgt.codes 2 k = k .f16 := rfl
@[simp] theorem CvtTgt.code_f8e4 : codeIn CvtTgt.codes .f8e4 = 3 := rfl
@[simp] theorem CvtTgt.pick_f8e4 (k : CvtTgt → Decoded) : pick CvtTgt.codes 3 k = k .f8e4 := rfl
@[simp] theorem CvtTgt.code_f8e5 : codeIn CvtTgt.codes .f8e5 = 4 := rfl
@[simp] theorem CvtTgt.pick_f8e5 (k : CvtTgt → Decoded) : pick CvtTgt.codes 4 k = k .f8e5 := rfl
@[simp] theorem CvtTgt.code_p2t8 : codeIn CvtTgt.codes .p2t8 = 5 := rfl
@[simp] theorem CvtTgt.pick_p2t8 (k : CvtTgt → Decoded) : pick CvtTgt.codes 5 k = k .p2t8 := rfl
@[simp] theorem CvtTgt.code_s32 : codeIn CvtTgt.codes .s32 = 6 := rfl
@[simp] theorem CvtTgt.pick_s32 (k : CvtTgt → Decoded) : pick CvtTgt.codes 6 k = k .s32 := rfl
@[simp] theorem CvtTgt.code_s8 : codeIn CvtTgt.codes .s8 = 7 := rfl
@[simp] theorem CvtTgt.pick_s8 (k : CvtTgt → Decoded) : pick CvtTgt.codes 7 k = k .s8 := rfl
@[simp] theorem CvtTgt.code_p1t4 : codeIn CvtTgt.codes .p1t4 = 8 := rfl
@[simp] theorem CvtTgt.pick_p1t4 (k : CvtTgt → Decoded) : pick CvtTgt.codes 8 k = k .p1t4 := rfl
@[simp] theorem CvtTgt.code_s4 : codeIn CvtTgt.codes .s4 = 9 := rfl
@[simp] theorem CvtTgt.pick_s4 (k : CvtTgt → Decoded) : pick CvtTgt.codes 9 k = k .s4 := rfl
@[simp] theorem SfuFn.code_rcp : codeIn SfuFn.codes .rcp = 0 := rfl
@[simp] theorem SfuFn.pick_rcp (k : SfuFn → Decoded) : pick SfuFn.codes 0 k = k .rcp := rfl
@[simp] theorem SfuFn.code_rsq : codeIn SfuFn.codes .rsq = 1 := rfl
@[simp] theorem SfuFn.pick_rsq (k : SfuFn → Decoded) : pick SfuFn.codes 1 k = k .rsq := rfl
@[simp] theorem SfuFn.code_ex2 : codeIn SfuFn.codes .ex2 = 2 := rfl
@[simp] theorem SfuFn.pick_ex2 (k : SfuFn → Decoded) : pick SfuFn.codes 2 k = k .ex2 := rfl
@[simp] theorem SfuFn.code_lg2 : codeIn SfuFn.codes .lg2 = 3 := rfl
@[simp] theorem SfuFn.pick_lg2 (k : SfuFn → Decoded) : pick SfuFn.codes 3 k = k .lg2 := rfl
@[simp] theorem SfuFn.code_sin : codeIn SfuFn.codes .sin = 4 := rfl
@[simp] theorem SfuFn.pick_sin (k : SfuFn → Decoded) : pick SfuFn.codes 4 k = k .sin := rfl
@[simp] theorem SfuFn.code_cos : codeIn SfuFn.codes .cos = 5 := rfl
@[simp] theorem SfuFn.pick_cos (k : SfuFn → Decoded) : pick SfuFn.codes 5 k = k .cos := rfl
@[simp] theorem SfuFn.code_tanh : codeIn SfuFn.codes .tanh = 6 := rfl
@[simp] theorem SfuFn.pick_tanh (k : SfuFn → Decoded) : pick SfuFn.codes 6 k = k .tanh := rfl
@[simp] theorem SfuFn.code_sqrt : codeIn SfuFn.codes .sqrt = 7 := rfl
@[simp] theorem SfuFn.pick_sqrt (k : SfuFn → Decoded) : pick SfuFn.codes 7 k = k .sqrt := rfl
@[simp] theorem FunaFn.code_abs : codeIn FunaFn.codes .abs = 0 := rfl
@[simp] theorem FunaFn.pick_abs (k : FunaFn → Decoded) : pick FunaFn.codes 0 k = k .abs := rfl
@[simp] theorem FunaFn.code_neg : codeIn FunaFn.codes .neg = 1 := rfl
@[simp] theorem FunaFn.pick_neg (k : FunaFn → Decoded) : pick FunaFn.codes 1 k = k .neg := rfl
@[simp] theorem FunaFn.code_cps : codeIn FunaFn.codes .cps = 2 := rfl
@[simp] theorem FunaFn.pick_cps (k : FunaFn → Decoded) : pick FunaFn.codes 2 k = k .cps := rfl
@[simp] theorem RowFn.code_ssq : codeIn RowFn.codes .ssq = 0 := rfl
@[simp] theorem RowFn.pick_ssq (k : RowFn → Decoded) : pick RowFn.codes 0 k = k .ssq := rfl
@[simp] theorem RowFn.code_sum : codeIn RowFn.codes .sum = 1 := rfl
@[simp] theorem RowFn.pick_sum (k : RowFn → Decoded) : pick RowFn.codes 1 k = k .sum := rfl
@[simp] theorem RowFn.code_ctr : codeIn RowFn.codes .ctr = 2 := rfl
@[simp] theorem RowFn.pick_ctr (k : RowFn → Decoded) : pick RowFn.codes 2 k = k .ctr := rfl
@[simp] theorem VoteFn.code_any : codeIn VoteFn.codes .any = 0 := rfl
@[simp] theorem VoteFn.pick_any (k : VoteFn → Decoded) : pick VoteFn.codes 0 k = k .any := rfl
@[simp] theorem VoteFn.code_all : codeIn VoteFn.codes .all = 1 := rfl
@[simp] theorem VoteFn.pick_all (k : VoteFn → Decoded) : pick VoteFn.codes 1 k = k .all := rfl
@[simp] theorem VoteFn.code_uni : codeIn VoteFn.codes .uni = 2 := rfl
@[simp] theorem VoteFn.pick_uni (k : VoteFn → Decoded) : pick VoteFn.codes 2 k = k .uni := rfl
@[simp] theorem VoteFn.code_ballot : codeIn VoteFn.codes .ballot = 3 := rfl
@[simp] theorem VoteFn.pick_ballot (k : VoteFn → Decoded) : pick VoteFn.codes 3 k = k .ballot := rfl
@[simp] theorem MatchFn.code_lead : codeIn MatchFn.codes .lead = 0 := rfl
@[simp] theorem MatchFn.pick_lead (k : MatchFn → Decoded) : pick MatchFn.codes 0 k = k .lead := rfl
@[simp] theorem MatchFn.code_cnt : codeIn MatchFn.codes .cnt = 1 := rfl
@[simp] theorem MatchFn.pick_cnt (k : MatchFn → Decoded) : pick MatchFn.codes 1 k = k .cnt := rfl
@[simp] theorem MatchFn.code_rank : codeIn MatchFn.codes .rank = 2 := rfl
@[simp] theorem MatchFn.pick_rank (k : MatchFn → Decoded) : pick MatchFn.codes 2 k = k .rank := rfl
@[simp] theorem ScanOp.code_add : codeIn ScanOp.codes .add = 0 := rfl
@[simp] theorem ScanOp.pick_add (k : ScanOp → Decoded) : pick ScanOp.codes 0 k = k .add := rfl
@[simp] theorem ScanOp.code_fadd : codeIn ScanOp.codes .fadd = 1 := rfl
@[simp] theorem ScanOp.pick_fadd (k : ScanOp → Decoded) : pick ScanOp.codes 1 k = k .fadd := rfl
@[simp] theorem ScanOp.code_max : codeIn ScanOp.codes .max = 2 := rfl
@[simp] theorem ScanOp.pick_max (k : ScanOp → Decoded) : pick ScanOp.codes 2 k = k .max := rfl
@[simp] theorem ScanOp.code_min : codeIn ScanOp.codes .min = 3 := rfl
@[simp] theorem ScanOp.pick_min (k : ScanOp → Decoded) : pick ScanOp.codes 3 k = k .min := rfl
@[simp] theorem RedOp.code_add : codeIn RedOp.codes .add = 0 := rfl
@[simp] theorem RedOp.pick_add (k : RedOp → Decoded) : pick RedOp.codes 0 k = k .add := rfl
@[simp] theorem RedOp.code_fadd : codeIn RedOp.codes .fadd = 1 := rfl
@[simp] theorem RedOp.pick_fadd (k : RedOp → Decoded) : pick RedOp.codes 1 k = k .fadd := rfl
@[simp] theorem RedOp.code_max : codeIn RedOp.codes .max = 2 := rfl
@[simp] theorem RedOp.pick_max (k : RedOp → Decoded) : pick RedOp.codes 2 k = k .max := rfl
@[simp] theorem RedOp.code_min : codeIn RedOp.codes .min = 3 := rfl
@[simp] theorem RedOp.pick_min (k : RedOp → Decoded) : pick RedOp.codes 3 k = k .min := rfl
@[simp] theorem RedOp.code_fmax : codeIn RedOp.codes .fmax = 4 := rfl
@[simp] theorem RedOp.pick_fmax (k : RedOp → Decoded) : pick RedOp.codes 4 k = k .fmax := rfl
@[simp] theorem RedOp.code_fmin : codeIn RedOp.codes .fmin = 5 := rfl
@[simp] theorem RedOp.pick_fmin (k : RedOp → Decoded) : pick RedOp.codes 5 k = k .fmin := rfl
@[simp] theorem RedOp.code_and : codeIn RedOp.codes .and = 6 := rfl
@[simp] theorem RedOp.pick_and (k : RedOp → Decoded) : pick RedOp.codes 6 k = k .and := rfl
@[simp] theorem RedOp.code_or : codeIn RedOp.codes .or = 7 := rfl
@[simp] theorem RedOp.pick_or (k : RedOp → Decoded) : pick RedOp.codes 7 k = k .or := rfl
@[simp] theorem SegOp.code_add : codeIn SegOp.codes .add = 0 := rfl
@[simp] theorem SegOp.pick_add (k : SegOp → Decoded) : pick SegOp.codes 0 k = k .add := rfl
@[simp] theorem SegOp.code_fadd : codeIn SegOp.codes .fadd = 1 := rfl
@[simp] theorem SegOp.pick_fadd (k : SegOp → Decoded) : pick SegOp.codes 1 k = k .fadd := rfl
@[simp] theorem SegOp.code_fmax : codeIn SegOp.codes .fmax = 2 := rfl
@[simp] theorem SegOp.pick_fmax (k : SegOp → Decoded) : pick SegOp.codes 2 k = k .fmax := rfl
@[simp] theorem SegOp.code_fmin : codeIn SegOp.codes .fmin = 3 := rfl
@[simp] theorem SegOp.pick_fmin (k : SegOp → Decoded) : pick SegOp.codes 3 k = k .fmin := rfl
@[simp] theorem MovForm.code_vv : codeIn MovForm.codes .vv = 0 := rfl
@[simp] theorem MovForm.pick_vv (k : MovForm → Decoded) : pick MovForm.codes 0 k = k .vv := rfl
@[simp] theorem MovForm.code_vs : codeIn MovForm.codes .vs = 1 := rfl
@[simp] theorem MovForm.pick_vs (k : MovForm → Decoded) : pick MovForm.codes 1 k = k .vs := rfl
@[simp] theorem MovForm.code_sv : codeIn MovForm.codes .sv = 2 := rfl
@[simp] theorem MovForm.pick_sv (k : MovForm → Decoded) : pick MovForm.codes 2 k = k .sv := rfl
@[simp] theorem MovForm.code_ss : codeIn MovForm.codes .ss = 3 := rfl
@[simp] theorem MovForm.pick_ss (k : MovForm → Decoded) : pick MovForm.codes 3 k = k .ss := rfl
@[simp] theorem MovForm.code_vsp : codeIn MovForm.codes .vsp = 4 := rfl
@[simp] theorem MovForm.pick_vsp (k : MovForm → Decoded) : pick MovForm.codes 4 k = k .vsp := rfl
@[simp] theorem MovForm.code_ssp : codeIn MovForm.codes .ssp = 5 := rfl
@[simp] theorem MovForm.pick_ssp (k : MovForm → Decoded) : pick MovForm.codes 5 k = k .ssp := rfl
@[simp] theorem Space.code_sh : codeIn Space.codes .sh = 0 := rfl
@[simp] theorem Space.pick_sh (k : Space → Decoded) : pick Space.codes 0 k = k .sh := rfl
@[simp] theorem Space.code_sp : codeIn Space.codes .sp = 1 := rfl
@[simp] theorem Space.pick_sp (k : Space → Decoded) : pick Space.codes 1 k = k .sp := rfl
@[simp] theorem Space.code_ss : codeIn Space.codes .ss = 2 := rfl
@[simp] theorem Space.pick_ss (k : Space → Decoded) : pick Space.codes 2 k = k .ss := rfl
@[simp] theorem Size.code_b8 : codeIn Size.codes .b8 = 0 := rfl
@[simp] theorem Size.pick_b8 (k : Size → Decoded) : pick Size.codes 0 k = k .b8 := rfl
@[simp] theorem Size.code_b16 : codeIn Size.codes .b16 = 1 := rfl
@[simp] theorem Size.pick_b16 (k : Size → Decoded) : pick Size.codes 1 k = k .b16 := rfl
@[simp] theorem Size.code_b32 : codeIn Size.codes .b32 = 2 := rfl
@[simp] theorem Size.pick_b32 (k : Size → Decoded) : pick Size.codes 2 k = k .b32 := rfl
@[simp] theorem Size.code_b64 : codeIn Size.codes .b64 = 3 := rfl
@[simp] theorem Size.pick_b64 (k : Size → Decoded) : pick Size.codes 3 k = k .b64 := rfl
@[simp] theorem AtomOp.code_addS32 : codeIn AtomOp.codes .addS32 = 0 := rfl
@[simp] theorem AtomOp.pick_addS32 (k : AtomOp → Decoded) : pick AtomOp.codes 0 k = k .addS32 := rfl
@[simp] theorem AtomOp.code_addF32 : codeIn AtomOp.codes .addF32 = 1 := rfl
@[simp] theorem AtomOp.pick_addF32 (k : AtomOp → Decoded) : pick AtomOp.codes 1 k = k .addF32 := rfl
@[simp] theorem AtomOp.code_addBf16x2 : codeIn AtomOp.codes .addBf16x2 = 2 := rfl
@[simp] theorem AtomOp.pick_addBf16x2 (k : AtomOp → Decoded) : pick AtomOp.codes 2 k = k .addBf16x2 := rfl
@[simp] theorem AtomOp.code_addF16x2 : codeIn AtomOp.codes .addF16x2 = 3 := rfl
@[simp] theorem AtomOp.pick_addF16x2 (k : AtomOp → Decoded) : pick AtomOp.codes 3 k = k .addF16x2 := rfl
@[simp] theorem AtomOp.code_minS32 : codeIn AtomOp.codes .minS32 = 4 := rfl
@[simp] theorem AtomOp.pick_minS32 (k : AtomOp → Decoded) : pick AtomOp.codes 4 k = k .minS32 := rfl
@[simp] theorem AtomOp.code_maxS32 : codeIn AtomOp.codes .maxS32 = 5 := rfl
@[simp] theorem AtomOp.pick_maxS32 (k : AtomOp → Decoded) : pick AtomOp.codes 5 k = k .maxS32 := rfl
@[simp] theorem AtomOp.code_minN32 : codeIn AtomOp.codes .minN32 = 6 := rfl
@[simp] theorem AtomOp.pick_minN32 (k : AtomOp → Decoded) : pick AtomOp.codes 6 k = k .minN32 := rfl
@[simp] theorem AtomOp.code_maxN32 : codeIn AtomOp.codes .maxN32 = 7 := rfl
@[simp] theorem AtomOp.pick_maxN32 (k : AtomOp → Decoded) : pick AtomOp.codes 7 k = k .maxN32 := rfl
@[simp] theorem AtomOp.code_minF32 : codeIn AtomOp.codes .minF32 = 8 := rfl
@[simp] theorem AtomOp.pick_minF32 (k : AtomOp → Decoded) : pick AtomOp.codes 8 k = k .minF32 := rfl
@[simp] theorem AtomOp.code_maxF32 : codeIn AtomOp.codes .maxF32 = 9 := rfl
@[simp] theorem AtomOp.pick_maxF32 (k : AtomOp → Decoded) : pick AtomOp.codes 9 k = k .maxF32 := rfl
@[simp] theorem AtomOp.code_and : codeIn AtomOp.codes .and = 10 := rfl
@[simp] theorem AtomOp.pick_and (k : AtomOp → Decoded) : pick AtomOp.codes 10 k = k .and := rfl
@[simp] theorem AtomOp.code_or : codeIn AtomOp.codes .or = 11 := rfl
@[simp] theorem AtomOp.pick_or (k : AtomOp → Decoded) : pick AtomOp.codes 11 k = k .or := rfl
@[simp] theorem AtomOp.code_xor : codeIn AtomOp.codes .xor = 12 := rfl
@[simp] theorem AtomOp.pick_xor (k : AtomOp → Decoded) : pick AtomOp.codes 12 k = k .xor := rfl
@[simp] theorem AtomOp.code_exch : codeIn AtomOp.codes .exch = 13 := rfl
@[simp] theorem AtomOp.pick_exch (k : AtomOp → Decoded) : pick AtomOp.codes 13 k = k .exch := rfl
@[simp] theorem AtomOp.code_incWrap : codeIn AtomOp.codes .incWrap = 14 := rfl
@[simp] theorem AtomOp.pick_incWrap (k : AtomOp → Decoded) : pick AtomOp.codes 14 k = k .incWrap := rfl
@[simp] theorem AtomOp.code_decWrap : codeIn AtomOp.codes .decWrap = 15 := rfl
@[simp] theorem AtomOp.pick_decWrap (k : AtomOp → Decoded) : pick AtomOp.codes 15 k = k .decWrap := rfl
@[simp] theorem FenceKind.code_full : codeIn FenceKind.codes .full = 0 := rfl
@[simp] theorem FenceKind.pick_full (k : FenceKind → Decoded) : pick FenceKind.codes 0 k = k .full := rfl
@[simp] theorem FenceKind.code_acq : codeIn FenceKind.codes .acq = 1 := rfl
@[simp] theorem FenceKind.pick_acq (k : FenceKind → Decoded) : pick FenceKind.codes 1 k = k .acq := rfl
@[simp] theorem FenceKind.code_rel : codeIn FenceKind.codes .rel = 2 := rfl
@[simp] theorem FenceKind.pick_rel (k : FenceKind → Decoded) : pick FenceKind.codes 2 k = k .rel := rfl
@[simp] theorem FenceKind.code_eng : codeIn FenceKind.codes .eng = 3 := rfl
@[simp] theorem FenceKind.pick_eng (k : FenceKind → Decoded) : pick FenceKind.codes 3 k = k .eng := rfl
@[simp] theorem Scope.code_grp : codeIn Scope.codes .grp = 0 := rfl
@[simp] theorem Scope.pick_grp (k : Scope → Decoded) : pick Scope.codes 0 k = k .grp := rfl
@[simp] theorem Scope.code_team : codeIn Scope.codes .team = 1 := rfl
@[simp] theorem Scope.pick_team (k : Scope → Decoded) : pick Scope.codes 1 k = k .team := rfl
@[simp] theorem Scope.code_clu : codeIn Scope.codes .clu = 2 := rfl
@[simp] theorem Scope.pick_clu (k : Scope → Decoded) : pick Scope.codes 2 k = k .clu := rfl
@[simp] theorem Scope.code_die : codeIn Scope.codes .die = 3 := rfl
@[simp] theorem Scope.pick_die (k : Scope → Decoded) : pick Scope.codes 3 k = k .die := rfl
@[simp] theorem Scope.code_dev : codeIn Scope.codes .dev = 4 := rfl
@[simp] theorem Scope.pick_dev (k : Scope → Decoded) : pick Scope.codes 4 k = k .dev := rfl
@[simp] theorem Scope.code_sys : codeIn Scope.codes .sys = 5 := rfl
@[simp] theorem Scope.pick_sys (k : Scope → Decoded) : pick Scope.codes 5 k = k .sys := rfl
@[simp] theorem KeyKind.code_s32 : codeIn KeyKind.codes .s32 = 0 := rfl
@[simp] theorem KeyKind.pick_s32 (k : KeyKind → Decoded) : pick KeyKind.codes 0 k = k .s32 := rfl
@[simp] theorem KeyKind.code_n32 : codeIn KeyKind.codes .n32 = 1 := rfl
@[simp] theorem KeyKind.pick_n32 (k : KeyKind → Decoded) : pick KeyKind.codes 1 k = k .n32 := rfl
@[simp] theorem KeyKind.code_f32 : codeIn KeyKind.codes .f32 = 2 := rfl
@[simp] theorem KeyKind.pick_f32 (k : KeyKind → Decoded) : pick KeyKind.codes 2 k = k .f32 := rfl
@[simp] theorem CrcSz.code_c8 : codeIn CrcSz.codes .c8 = 0 := rfl
@[simp] theorem CrcSz.pick_c8 (k : CrcSz → Decoded) : pick CrcSz.codes 0 k = k .c8 := rfl
@[simp] theorem CrcSz.code_c16 : codeIn CrcSz.codes .c16 = 1 := rfl
@[simp] theorem CrcSz.pick_c16 (k : CrcSz → Decoded) : pick CrcSz.codes 1 k = k .c16 := rfl
@[simp] theorem CrcSz.code_c32 : codeIn CrcSz.codes .c32 = 2 := rfl
@[simp] theorem CrcSz.pick_c32 (k : CrcSz → Decoded) : pick CrcSz.codes 2 k = k .c32 := rfl
@[simp] theorem AlinOp.code_add : codeIn AlinOp.codes .add = 0 := rfl
@[simp] theorem AlinOp.pick_add (k : AlinOp → Decoded) : pick AlinOp.codes 0 k = k .add := rfl
@[simp] theorem AlinOp.code_sub : codeIn AlinOp.codes .sub = 1 := rfl
@[simp] theorem AlinOp.pick_sub (k : AlinOp → Decoded) : pick AlinOp.codes 1 k = k .sub := rfl
@[simp] theorem AlinOp.code_scale : codeIn AlinOp.codes .scale = 2 := rfl
@[simp] theorem AlinOp.pick_scale (k : AlinOp → Decoded) : pick AlinOp.codes 2 k = k .scale := rfl
@[simp] theorem AlinOp.code_copy : codeIn AlinOp.codes .copy = 3 := rfl
@[simp] theorem AlinOp.pick_copy (k : AlinOp → Decoded) : pick AlinOp.codes 3 k = k .copy := rfl
@[simp] theorem AlinOp.code_transpose : codeIn AlinOp.codes .transpose = 4 := rfl
@[simp] theorem AlinOp.pick_transpose (k : AlinOp → Decoded) : pick AlinOp.codes 4 k = k .transpose := rfl
@[simp] theorem OstFmt.code_bf16 : codeIn OstFmt.codes .bf16 = 0 := rfl
@[simp] theorem OstFmt.pick_bf16 (k : OstFmt → Decoded) : pick OstFmt.codes 0 k = k .bf16 := rfl
@[simp] theorem OstFmt.code_f16 : codeIn OstFmt.codes .f16 = 1 := rfl
@[simp] theorem OstFmt.pick_f16 (k : OstFmt → Decoded) : pick OstFmt.codes 1 k = k .f16 := rfl
@[simp] theorem OstFmt.code_f8e4 : codeIn OstFmt.codes .f8e4 = 2 := rfl
@[simp] theorem OstFmt.pick_f8e4 (k : OstFmt → Decoded) : pick OstFmt.codes 2 k = k .f8e4 := rfl
@[simp] theorem OstFmt.code_f8e5 : codeIn OstFmt.codes .f8e5 = 3 := rfl
@[simp] theorem OstFmt.pick_f8e5 (k : OstFmt → Decoded) : pick OstFmt.codes 3 k = k .f8e5 := rfl
@[simp] theorem OstFmt.code_p2t8 : codeIn OstFmt.codes .p2t8 = 4 := rfl
@[simp] theorem OstFmt.pick_p2t8 (k : OstFmt → Decoded) : pick OstFmt.codes 4 k = k .p2t8 := rfl
@[simp] theorem OstFmt.code_s8 : codeIn OstFmt.codes .s8 = 5 := rfl
@[simp] theorem OstFmt.pick_s8 (k : OstFmt → Decoded) : pick OstFmt.codes 5 k = k .s8 := rfl
@[simp] theorem RsumAct.code_cont : codeIn RsumAct.codes .cont = 0 := rfl
@[simp] theorem RsumAct.pick_cont (k : RsumAct → Decoded) : pick RsumAct.codes 0 k = k .cont := rfl
@[simp] theorem RsumAct.code_retry : codeIn RsumAct.codes .retry = 1 := rfl
@[simp] theorem RsumAct.pick_retry (k : RsumAct → Decoded) : pick RsumAct.codes 1 k = k .retry := rfl
@[simp] theorem RsumAct.code_skip : codeIn RsumAct.codes .skip = 2 := rfl
@[simp] theorem RsumAct.pick_skip (k : RsumAct → Decoded) : pick RsumAct.codes 2 k = k .skip := rfl
@[simp] theorem RsumAct.code_patch : codeIn RsumAct.codes .patch = 3 := rfl
@[simp] theorem RsumAct.pick_patch (k : RsumAct → Decoded) : pick RsumAct.codes 3 k = k .patch := rfl
theorem ICond.pick_code (c : ICond) (k : ICond → Decoded) : pick ICond.codes (codeIn ICond.codes c) k = k c := by cases c <;> rfl
theorem ShiKind.pick_code (c : ShiKind) (k : ShiKind → Decoded) : pick ShiKind.codes (codeIn ShiKind.codes c) k = k c := by cases c <;> rfl
theorem CvtSrc.pick_code (c : CvtSrc) (k : CvtSrc → Decoded) : pick CvtSrc.codes (codeIn CvtSrc.codes c) k = k c := by cases c <;> rfl
theorem CvtTgt.pick_code (c : CvtTgt) (k : CvtTgt → Decoded) : pick CvtTgt.codes (codeIn CvtTgt.codes c) k = k c := by cases c <;> rfl
theorem Rm.pick_code (c : Rm) (k : Rm → Decoded) : pick Rm.codes (codeIn Rm.codes c) k = k c := by cases c <;> rfl
theorem Space.pick_code (c : Space) (k : Space → Decoded) : pick Space.codes (codeIn Space.codes c) k = k c := by cases c <;> rfl
theorem Size.pick_code (c : Size) (k : Size → Decoded) : pick Size.codes (codeIn Size.codes c) k = k c := by cases c <;> rfl

end Sys2Proof
end

