-- ==== Sys2Proof/Laws/PerInstr.lean ====
section
/-! SUPPORT. Statements made for every instruction, one lemma per constructor. RoundTrip: the fields an instruction is encoded
in fit their widths, and the decoder reads the instruction back from them. -/

namespace Sys2Proof.Laws.RoundTrip

open Sys2Proof

/-- The round trip through the fields of a word. -/
def Statement (i : Instr) : Prop :=
  match i.fields, i.wFields with
  | some f, _ => f.ok ∧ decodeFields f = .ok i
  | none, some f => (f.op < 64 ∧ f.d < 16 ∧ f.a < 16 ∧ f.b < 16 ∧ f.imm < 2 ^ 14) ∧ decodeWFields f = .ok i
  | none, none => True

theorem nop  : Statement .nop := by
  show Fields.ok (⟨0, 0, 0, 0, 0⟩ : Fields) ∧ decodeFields (⟨0, 0, 0, 0, 0⟩ : Fields) = .ok .nop
  refine ⟨?_, (show decodeFields (⟨0, 0, 0, 0, 0⟩ : Fields) = .ok .nop by with_unfolding_all rfl)⟩
  (simp [Fields.ok]; try omega)
theorem bra (neg : Bool) (p : Fin 8) (off : BitVec 21) : Statement (.bra neg p off) := by
  show Fields.ok (Fields.j 1 neg.toNat p.val off.toNat : Fields) ∧ decodeFields (Fields.j 1 neg.toNat p.val off.toNat : Fields) = .ok (.bra neg p off)
  have hp := p.isLt
  have hoff := off.isLt
  cases neg
  all_goals
    refine ⟨?_, ?_⟩
    · simp [Fields.ok, Fields.j]; try omega
    · simp [decodeFields, decodeRow00, bit, Fields.j, Fin.ext_iff, BitVec.toNat_eq]; try omega
theorem brx (a : Reg) (neg : Bool) (p : Fin 8) : Statement (.brx a neg p) := by
  show Fields.ok (⟨2, 0, a.code, 0, neg.toNat * 8 + p.val⟩ : Fields) ∧ decodeFields (⟨2, 0, a.code, 0, neg.toNat * 8 + p.val⟩ : Fields) = .ok (.brx a neg p)
  have ha := a.code_lt
  have hp := p.isLt
  cases neg
  all_goals
    refine ⟨?_, ?_⟩
    · simp [Fields.ok]; try omega
    · simp [decodeFields, decodeRow00, need, bit, Fin.ext_iff]; try omega
theorem call (neg : Bool) (p : Fin 8) (off : BitVec 21) : Statement (.call neg p off) := by
  show Fields.ok (Fields.j 3 neg.toNat p.val off.toNat : Fields) ∧ decodeFields (Fields.j 3 neg.toNat p.val off.toNat : Fields) = .ok (.call neg p off)
  have hp := p.isLt
  have hoff := off.isLt
  cases neg
  all_goals
    refine ⟨?_, ?_⟩
    · simp [Fields.ok, Fields.j]; try omega
    · simp [decodeFields, decodeRow00, bit, Fields.j, Fin.ext_iff, BitVec.toNat_eq]; try omega
theorem ret  : Statement .ret := by
  show Fields.ok (⟨4, 0, 0, 0, 0⟩ : Fields) ∧ decodeFields (⟨4, 0, 0, 0, 0⟩ : Fields) = .ok .ret
  refine ⟨?_, (show decodeFields (⟨4, 0, 0, 0, 0⟩ : Fields) = .ok .ret by with_unfolding_all rfl)⟩
  (simp [Fields.ok]; try omega)
theorem exit  : Statement .exit := by
  show Fields.ok (⟨5, 0, 0, 0, 0⟩ : Fields) ∧ decodeFields (⟨5, 0, 0, 0, 0⟩ : Fields) = .ok .exit
  refine ⟨?_, (show decodeFields (⟨5, 0, 0, 0, 0⟩ : Fields) = .ok .exit by with_unfolding_all rfl)⟩
  (simp [Fields.ok]; try omega)
theorem yield  : Statement .yield := by
  show Fields.ok (⟨6, 0, 0, 0, 0⟩ : Fields) ∧ decodeFields (⟨6, 0, 0, 0, 0⟩ : Fields) = .ok .yield
  refine ⟨?_, (show decodeFields (⟨6, 0, 0, 0, 0⟩ : Fields) = .ok .yield by with_unfolding_all rfl)⟩
  (simp [Fields.ok]; try omega)
theorem loop (a : Reg) (n : BitVec 11) : Statement (.loop a n) := by
  show Fields.ok (Fields.i 7 0 a.code n.toNat : Fields) ∧ decodeFields (Fields.i 7 0 a.code n.toNat : Fields) = .ok (.loop a n)
  have ha := a.code_lt
  have hn := n.isLt
  refine ⟨?_, ?_⟩
  · simp [Fields.ok, Fields.i]; try omega
  · simp [decodeFields, decodeRow00, need, Fields.i, Fields.imm, BitVec.toNat_eq]; try omega
theorem winb (a : Reg) (imm : BitVec 11) : Statement (.winb a imm) := by
  show Fields.ok (Fields.i 8 0 a.code imm.toNat : Fields) ∧ decodeFields (Fields.i 8 0 a.code imm.toNat : Fields) = .ok (.winb a imm)
  have ha := a.code_lt
  have himm := imm.isLt
  refine ⟨?_, ?_⟩
  · simp [Fields.ok, Fields.i]; try omega
  · simp [decodeFields, decodeRow08, need, Fields.i, Fields.imm, BitVec.toNat_eq]; try omega
theorem setx (a : Reg) (add : Bool) : Statement (.setx a add) := by
  show Fields.ok (⟨9, 0, a.code, 0, add.toNat⟩ : Fields) ∧ decodeFields (⟨9, 0, a.code, 0, add.toNat⟩ : Fields) = .ok (.setx a add)
  have ha := a.code_lt
  refine ⟨?_, (show decodeFields (⟨9, 0, a.code, 0, add.toNat⟩ : Fields) = .ok (.setx (Reg.ofCode a.code) add) by cases add <;> with_unfolding_all rfl).trans (by simp only [Reg.ofCode_code])⟩
  cases add <;> (simp [Fields.ok]; try omega)
theorem split (d : Reg) (w : BitVec 11) : Statement (.split d w) := by
  show Fields.ok (Fields.i 10 d.code 0 w.toNat : Fields) ∧ decodeFields (Fields.i 10 d.code 0 w.toNat : Fields) = .ok (.split d w)
  have hd := d.code_lt
  have hw := w.isLt
  refine ⟨?_, ?_⟩
  · simp [Fields.ok, Fields.i]; try omega
  · simp [decodeFields, decodeRow08, need, Fields.i, Fields.imm, BitVec.toNat_eq]; try omega
theorem fuse (d : Reg) (a : Reg) (tag : BitVec 11) : Statement (.fuse d a tag) := by
  show Fields.ok (Fields.i 11 d.code a.code tag.toNat : Fields) ∧ decodeFields (Fields.i 11 d.code a.code tag.toNat : Fields) = .ok (.fuse d a tag)
  have hd := d.code_lt
  have ha := a.code_lt
  have htag := tag.isLt
  refine ⟨?_, ?_⟩
  · simp [Fields.ok, Fields.i]; try omega
  · simp [decodeFields, decodeRow08, Fields.i, Fields.imm, BitVec.toNat_eq]; try omega
theorem isync  : Statement .isync := by
  show Fields.ok (⟨12, 0, 0, 0, 0⟩ : Fields) ∧ decodeFields (⟨12, 0, 0, 0, 0⟩ : Fields) = .ok .isync
  refine ⟨?_, (show decodeFields (⟨12, 0, 0, 0, 0⟩ : Fields) = .ok .isync by with_unfolding_all rfl)⟩
  (simp [Fields.ok]; try omega)
theorem bkm (a : Reg) (id : BitVec 11) : Statement (.bkm a id) := by
  show Fields.ok (Fields.i 13 0 a.code id.toNat : Fields) ∧ decodeFields (Fields.i 13 0 a.code id.toNat : Fields) = .ok (.bkm a id)
  have ha := a.code_lt
  have hid := id.isLt
  refine ⟨?_, ?_⟩
  · simp [Fields.ok, Fields.i]; try omega
  · simp [decodeFields, decodeRow08, need, Fields.i, Fields.imm, BitVec.toNat_eq]; try omega
theorem waitf (mask : BitVec 12) : Statement (.waitf mask) := by
  show Fields.ok (Fields.f 14 mask.toNat : Fields) ∧ decodeFields (Fields.f 14 mask.toNat : Fields) = .ok (.waitf mask)
  have hmask := mask.isLt
  refine ⟨?_, ?_⟩
  · simp [Fields.ok, Fields.f]; try omega
  · simp [decodeFields, decodeRow08, need, Fields.f, BitVec.toNat_eq]; try omega
theorem mov (d : Reg) (a : Reg) (b : BitVec 7) (form : MovForm) : Statement (.mov d a b form) := by
  show Fields.ok (⟨15, d.code, a.code, b.toNat, codeIn MovForm.codes form⟩ : Fields) ∧ decodeFields (⟨15, d.code, a.code, b.toNat, codeIn MovForm.codes form⟩ : Fields) = .ok (.mov d a b form)
  have hd := d.code_lt
  have ha := a.code_lt
  have hb := b.isLt
  cases form
  all_goals
    refine ⟨?_, ?_⟩
    · simp [Fields.ok]; try omega
    · simp [decodeFields, decodeRow08, need, BitVec.toNat_eq]; try omega
theorem iadd (d : Reg) (a : Reg) (b : Reg) (ind : Bool) (m : SatMode) : Statement (.iadd d a b ind m) := by
  show Fields.ok (⟨16, d.code, a.code, b.code, ind.toNat * 8 + codeIn SatMode.codes m⟩ : Fields) ∧ decodeFields (⟨16, d.code, a.code, b.code, ind.toNat * 8 + codeIn SatMode.codes m⟩ : Fields) = .ok (.iadd d a b ind m)
  have hd := d.code_lt
  have ha := a.code_lt
  have hb := b.code_lt
  refine ⟨?_, (show decodeFields (⟨16, d.code, a.code, b.code, ind.toNat * 8 + codeIn SatMode.codes m⟩ : Fields) = .ok (.iadd (Reg.ofCode d.code) (Reg.ofCode a.code) (Reg.ofCode b.code) ind m) by cases ind <;> cases m <;> with_unfolding_all rfl).trans (by simp only [Reg.ofCode_code])⟩
  cases ind <;> cases m <;> (simp [Fields.ok]; try omega)
theorem isub (d : Reg) (a : Reg) (b : Reg) (ind : Bool) (m : SatMode) : Statement (.isub d a b ind m) := by
  show Fields.ok (⟨17, d.code, a.code, b.code, ind.toNat * 8 + codeIn SatMode.codes m⟩ : Fields) ∧ decodeFields (⟨17, d.code, a.code, b.code, ind.toNat * 8 + codeIn SatMode.codes m⟩ : Fields) = .ok (.isub d a b ind m)
  have hd := d.code_lt
  have ha := a.code_lt
  have hb := b.code_lt
  refine ⟨?_, (show decodeFields (⟨17, d.code, a.code, b.code, ind.toNat * 8 + codeIn SatMode.codes m⟩ : Fields) = .ok (.isub (Reg.ofCode d.code) (Reg.ofCode a.code) (Reg.ofCode b.code) ind m) by cases ind <;> cases m <;> with_unfolding_all rfl).trans (by simp only [Reg.ofCode_code])⟩
  cases ind <;> cases m <;> (simp [Fields.ok]; try omega)
theorem imul (d : Reg) (a : Reg) (b : Reg) (ind : Bool) (m : MulMode) : Statement (.imul d a b ind m) := by
  show Fields.ok (⟨18, d.code, a.code, b.code, ind.toNat * 8 + codeIn MulMode.codes m⟩ : Fields) ∧ decodeFields (⟨18, d.code, a.code, b.code, ind.toNat * 8 + codeIn MulMode.codes m⟩ : Fields) = .ok (.imul d a b ind m)
  have hd := d.code_lt
  have ha := a.code_lt
  have hb := b.code_lt
  refine ⟨?_, (show decodeFields (⟨18, d.code, a.code, b.code, ind.toNat * 8 + codeIn MulMode.codes m⟩ : Fields) = .ok (.imul (Reg.ofCode d.code) (Reg.ofCode a.code) (Reg.ofCode b.code) ind m) by cases ind <;> cases m <;> with_unfolding_all rfl).trans (by simp only [Reg.ofCode_code])⟩
  cases ind <;> cases m <;> (simp [Fields.ok]; try omega)
theorem imad (d : Reg) (a : Reg) (b : Reg) (ind : Bool) : Statement (.imad d a b ind) := by
  show Fields.ok (⟨19, d.code, a.code, b.code, ind.toNat * 8⟩ : Fields) ∧ decodeFields (⟨19, d.code, a.code, b.code, ind.toNat * 8⟩ : Fields) = .ok (.imad d a b ind)
  have hd := d.code_lt
  have ha := a.code_lt
  have hb := b.code_lt
  refine ⟨?_, (show decodeFields (⟨19, d.code, a.code, b.code, ind.toNat * 8⟩ : Fields) = .ok (.imad (Reg.ofCode d.code) (Reg.ofCode a.code) (Reg.ofCode b.code) ind) by cases ind <;> with_unfolding_all rfl).trans (by simp only [Reg.ofCode_code])⟩
  cases ind <;> (simp [Fields.ok]; try omega)
theorem imnx (d : Reg) (a : Reg) (b : Reg) (ind : Bool) (uns : Bool) (max : Bool) : Statement (.imnx d a b ind uns max) := by
  show Fields.ok (⟨20, d.code, a.code, b.code, ind.toNat * 8 + uns.toNat * 2 + max.toNat⟩ : Fields) ∧ decodeFields (⟨20, d.code, a.code, b.code, ind.toNat * 8 + uns.toNat * 2 + max.toNat⟩ : Fields) = .ok (.imnx d a b ind uns max)
  have hd := d.code_lt
  have ha := a.code_lt
  have hb := b.code_lt
  refine ⟨?_, (show decodeFields (⟨20, d.code, a.code, b.code, ind.toNat * 8 + uns.toNat * 2 + max.toNat⟩ : Fields) = .ok (.imnx (Reg.ofCode d.code) (Reg.ofCode a.code) (Reg.ofCode b.code) ind uns max) by cases ind <;> cases uns <;> cases max <;> with_unfolding_all rfl).trans (by simp only [Reg.ofCode_code])⟩
  cases ind <;> cases uns <;> cases max <;> (simp [Fields.ok]; try omega)
theorem iuna (d : Reg) (a : Reg) (ind : Bool) (fn : UnaFn) : Statement (.iuna d a ind fn) := by
  show Fields.ok (⟨21, d.code, a.code, codeIn UnaFn.codes fn, ind.toNat * 8⟩ : Fields) ∧ decodeFields (⟨21, d.code, a.code, codeIn UnaFn.codes fn, ind.toNat * 8⟩ : Fields) = .ok (.iuna d a ind fn)
  have hd := d.code_lt
  have ha := a.code_lt
  refine ⟨?_, (show decodeFields (⟨21, d.code, a.code, codeIn UnaFn.codes fn, ind.toNat * 8⟩ : Fields) = .ok (.iuna (Reg.ofCode d.code) (Reg.ofCode a.code) ind fn) by cases ind <;> cases fn <;> with_unfolding_all rfl).trans (by simp only [Reg.ofCode_code])⟩
  cases ind <;> cases fn <;> (simp [Fields.ok]; try omega)
theorem iset (p : Fin 8) (a : Reg) (b : Reg) (ind : Bool) (c : ICond) : Statement (.iset p a b ind c) := by
  show Fields.ok (⟨22, p.val, a.code, b.code, ind.toNat * 8 + codeIn ICond.codes c⟩ : Fields) ∧ decodeFields (⟨22, p.val, a.code, b.code, ind.toNat * 8 + codeIn ICond.codes c⟩ : Fields) = .ok (.iset p a b ind c)
  have hp := p.isLt
  have ha := a.code_lt
  have hb := b.code_lt
  cases ind <;> cases c
  all_goals
    refine ⟨?_, ?_⟩
    · simp [Fields.ok]; try omega
    · simp [decodeFields, decodeRow10, need, bit, Fin.ext_iff]; try omega
theorem iaddi (d : Reg) (a : Reg) (imm : BitVec 11) : Statement (.iaddi d a imm) := by
  show Fields.ok (Fields.i 23 d.code a.code imm.toNat : Fields) ∧ decodeFields (Fields.i 23 d.code a.code imm.toNat : Fields) = .ok (.iaddi d a imm)
  have hd := d.code_lt
  have ha := a.code_lt
  have himm := imm.isLt
  refine ⟨?_, ?_⟩
  · simp [Fields.ok, Fields.i]; try omega
  · simp [decodeFields, decodeRow10, Fields.i, Fields.imm, BitVec.toNat_eq]; try omega
theorem iand (d : Reg) (a : Reg) (b : Reg) (ind : Bool) : Statement (.iand d a b ind) := by
  show Fields.ok (⟨24, d.code, a.code, b.code, ind.toNat * 8⟩ : Fields) ∧ decodeFields (⟨24, d.code, a.code, b.code, ind.toNat * 8⟩ : Fields) = .ok (.iand d a b ind)
  have hd := d.code_lt
  have ha := a.code_lt
  have hb := b.code_lt
  refine ⟨?_, (show decodeFields (⟨24, d.code, a.code, b.code, ind.toNat * 8⟩ : Fields) = .ok (.iand (Reg.ofCode d.code) (Reg.ofCode a.code) (Reg.ofCode b.code) ind) by cases ind <;> with_unfolding_all rfl).trans (by simp only [Reg.ofCode_code])⟩
  cases ind <;> (simp [Fields.ok]; try omega)
theorem ior (d : Reg) (a : Reg) (b : Reg) (ind : Bool) : Statement (.ior d a b ind) := by
  show Fields.ok (⟨25, d.code, a.code, b.code, ind.toNat * 8⟩ : Fields) ∧ decodeFields (⟨25, d.code, a.code, b.code, ind.toNat * 8⟩ : Fields) = .ok (.ior d a b ind)
  have hd := d.code_lt
  have ha := a.code_lt
  have hb := b.code_lt
  refine ⟨?_, (show decodeFields (⟨25, d.code, a.code, b.code, ind.toNat * 8⟩ : Fields) = .ok (.ior (Reg.ofCode d.code) (Reg.ofCode a.code) (Reg.ofCode b.code) ind) by cases ind <;> with_unfolding_all rfl).trans (by simp only [Reg.ofCode_code])⟩
  cases ind <;> (simp [Fields.ok]; try omega)
theorem ixor (d : Reg) (a : Reg) (b : Reg) (ind : Bool) : Statement (.ixor d a b ind) := by
  show Fields.ok (⟨26, d.code, a.code, b.code, ind.toNat * 8⟩ : Fields) ∧ decodeFields (⟨26, d.code, a.code, b.code, ind.toNat * 8⟩ : Fields) = .ok (.ixor d a b ind)
  have hd := d.code_lt
  have ha := a.code_lt
  have hb := b.code_lt
  refine ⟨?_, (show decodeFields (⟨26, d.code, a.code, b.code, ind.toNat * 8⟩ : Fields) = .ok (.ixor (Reg.ofCode d.code) (Reg.ofCode a.code) (Reg.ofCode b.code) ind) by cases ind <;> with_unfolding_all rfl).trans (by simp only [Reg.ofCode_code])⟩
  cases ind <;> (simp [Fields.ok]; try omega)
theorem iandn (d : Reg) (a : Reg) (b : Reg) (ind : Bool) : Statement (.iandn d a b ind) := by
  show Fields.ok (⟨27, d.code, a.code, b.code, ind.toNat * 8⟩ : Fields) ∧ decodeFields (⟨27, d.code, a.code, b.code, ind.toNat * 8⟩ : Fields) = .ok (.iandn d a b ind)
  have hd := d.code_lt
  have ha := a.code_lt
  have hb := b.code_lt
  refine ⟨?_, (show decodeFields (⟨27, d.code, a.code, b.code, ind.toNat * 8⟩ : Fields) = .ok (.iandn (Reg.ofCode d.code) (Reg.ofCode a.code) (Reg.ofCode b.code) ind) by cases ind <;> with_unfolding_all rfl).trans (by simp only [Reg.ofCode_code])⟩
  cases ind <;> (simp [Fields.ok]; try omega)
theorem shl (d : Reg) (a : Reg) (b : Reg) (ind : Bool) : Statement (.shl d a b ind) := by
  show Fields.ok (⟨28, d.code, a.code, b.code, ind.toNat * 8⟩ : Fields) ∧ decodeFields (⟨28, d.code, a.code, b.code, ind.toNat * 8⟩ : Fields) = .ok (.shl d a b ind)
  have hd := d.code_lt
  have ha := a.code_lt
  have hb := b.code_lt
  refine ⟨?_, (show decodeFields (⟨28, d.code, a.code, b.code, ind.toNat * 8⟩ : Fields) = .ok (.shl (Reg.ofCode d.code) (Reg.ofCode a.code) (Reg.ofCode b.code) ind) by cases ind <;> with_unfolding_all rfl).trans (by simp only [Reg.ofCode_code])⟩
  cases ind <;> (simp [Fields.ok]; try omega)
theorem shr (d : Reg) (a : Reg) (b : Reg) (ind : Bool) (m : ShrMode) : Statement (.shr d a b ind m) := by
  show Fields.ok (⟨29, d.code, a.code, b.code, ind.toNat * 8 + codeIn ShrMode.codes m⟩ : Fields) ∧ decodeFields (⟨29, d.code, a.code, b.code, ind.toNat * 8 + codeIn ShrMode.codes m⟩ : Fields) = .ok (.shr d a b ind m)
  have hd := d.code_lt
  have ha := a.code_lt
  have hb := b.code_lt
  refine ⟨?_, (show decodeFields (⟨29, d.code, a.code, b.code, ind.toNat * 8 + codeIn ShrMode.codes m⟩ : Fields) = .ok (.shr (Reg.ofCode d.code) (Reg.ofCode a.code) (Reg.ofCode b.code) ind m) by cases ind <;> cases m <;> with_unfolding_all rfl).trans (by simp only [Reg.ofCode_code])⟩
  cases ind <;> cases m <;> (simp [Fields.ok]; try omega)
theorem bfx (d : Reg) (a : Reg) (b : Reg) (ind : Bool) (m : BfxMode) : Statement (.bfx d a b ind m) := by
  show Fields.ok (⟨30, d.code, a.code, b.code, ind.toNat * 8 + codeIn BfxMode.codes m⟩ : Fields) ∧ decodeFields (⟨30, d.code, a.code, b.code, ind.toNat * 8 + codeIn BfxMode.codes m⟩ : Fields) = .ok (.bfx d a b ind m)
  have hd := d.code_lt
  have ha := a.code_lt
  have hb := b.code_lt
  refine ⟨?_, (show decodeFields (⟨30, d.code, a.code, b.code, ind.toNat * 8 + codeIn BfxMode.codes m⟩ : Fields) = .ok (.bfx (Reg.ofCode d.code) (Reg.ofCode a.code) (Reg.ofCode b.code) ind m) by cases ind <;> cases m <;> with_unfolding_all rfl).trans (by simp only [Reg.ofCode_code])⟩
  cases ind <;> cases m <;> (simp [Fields.ok]; try omega)
theorem bits (d : Reg) (a : Reg) (ind : Bool) (fn : BitsFn) : Statement (.bits d a ind fn) := by
  show Fields.ok (⟨31, d.code, a.code, 0, ind.toNat * 8 + codeIn BitsFn.codes fn⟩ : Fields) ∧ decodeFields (⟨31, d.code, a.code, 0, ind.toNat * 8 + codeIn BitsFn.codes fn⟩ : Fields) = .ok (.bits d a ind fn)
  have hd := d.code_lt
  have ha := a.code_lt
  refine ⟨?_, (show decodeFields (⟨31, d.code, a.code, 0, ind.toNat * 8 + codeIn BitsFn.codes fn⟩ : Fields) = .ok (.bits (Reg.ofCode d.code) (Reg.ofCode a.code) ind fn) by cases ind <;> cases fn <;> with_unfolding_all rfl).trans (by simp only [Reg.ofCode_code])⟩
  cases ind <;> cases fn <;> (simp [Fields.ok]; try omega)
theorem sel (d : Reg) (a : Reg) (b : Reg) (ind : Bool) (p : Fin 8) : Statement (.sel d a b ind p) := by
  show Fields.ok (⟨32, d.code, a.code, b.code, ind.toNat * 8 + p.val⟩ : Fields) ∧ decodeFields (⟨32, d.code, a.code, b.code, ind.toNat * 8 + p.val⟩ : Fields) = .ok (.sel d a b ind p)
  have hd := d.code_lt
  have ha := a.code_lt
  have hb := b.code_lt
  have hp := p.isLt
  cases ind
  all_goals
    refine ⟨?_, ?_⟩
    · simp [Fields.ok]; try omega
    · simp [decodeFields, decodeRow20, bit, Fin.ext_iff]; try omega
theorem plog (d : Fin 8) (a : Fin 8) (b : Fin 8) (op : PlogOp) : Statement (.plog d a b op) := by
  show Fields.ok (⟨33, d.val, a.val, b.val, codeIn PlogOp.codes op⟩ : Fields) ∧ decodeFields (⟨33, d.val, a.val, b.val, codeIn PlogOp.codes op⟩ : Fields) = .ok (.plog d a b op)
  have hd := d.isLt
  have ha := a.isLt
  have hb := b.isLt
  cases op
  all_goals
    refine ⟨?_, ?_⟩
    · simp [Fields.ok]; try omega
    · simp [decodeFields, decodeRow20, need, Fin.ext_iff]; try omega
theorem idiv (d : Reg) (a : Reg) (b : Reg) (ind : Bool) (uns : Bool) (rem : Bool) : Statement (.idiv d a b ind uns rem) := by
  show Fields.ok (⟨34, d.code, a.code, b.code, ind.toNat * 8 + uns.toNat * 2 + rem.toNat⟩ : Fields) ∧ decodeFields (⟨34, d.code, a.code, b.code, ind.toNat * 8 + uns.toNat * 2 + rem.toNat⟩ : Fields) = .ok (.idiv d a b ind uns rem)
  have hd := d.code_lt
  have ha := a.code_lt
  have hb := b.code_lt
  refine ⟨?_, (show decodeFields (⟨34, d.code, a.code, b.code, ind.toNat * 8 + uns.toNat * 2 + rem.toNat⟩ : Fields) = .ok (.idiv (Reg.ofCode d.code) (Reg.ofCode a.code) (Reg.ofCode b.code) ind uns rem) by cases ind <;> cases uns <;> cases rem <;> with_unfolding_all rfl).trans (by simp only [Reg.ofCode_code])⟩
  cases ind <;> cases uns <;> cases rem <;> (simp [Fields.ok]; try omega)
theorem addr (d : Reg) (a : Reg) (b : Reg) (ind : Bool) (k : Fin 8) : Statement (.addr d a b ind k) := by
  show Fields.ok (⟨35, d.code, a.code, b.code, ind.toNat * 8 + k.val⟩ : Fields) ∧ decodeFields (⟨35, d.code, a.code, b.code, ind.toNat * 8 + k.val⟩ : Fields) = .ok (.addr d a b ind k)
  have hd := d.code_lt
  have ha := a.code_lt
  have hb := b.code_lt
  have hk := k.isLt
  cases ind
  all_goals
    refine ⟨?_, ?_⟩
    · simp [Fields.ok]; try omega
    · simp [decodeFields, decodeRow20, bit, Fin.ext_iff]; try omega
theorem iseti (p : Fin 8) (c : ICond) (a : Reg) (imm : BitVec 11) :
    Statement (.iseti p c a imm) := by
  show Fields.ok (Fields.i 36 (codeIn ICond.codes c * 8 + p.val) a.code imm.toNat) ∧
      decodeFields (Fields.i 36 (codeIn ICond.codes c * 8 + p.val) a.code imm.toNat) = .ok (.iseti p c a imm)
  have hp := p.isLt
  have ha := a.code_lt
  have hi := imm.isLt
  have hc : codeIn ICond.codes c < 8 := by cases c <;> decide
  have e1 : (codeIn ICond.codes c * 8 + p.val) / 8 = codeIn ICond.codes c := by omega
  have e2 : codeIn ICond.codes c * 8 + p.val < 64 := by omega
  have e3 : imm.toNat / 16 * 16 + imm.toNat % 16 = imm.toNat := by omega
  refine ⟨?_, ?_⟩
  · simp only [Fields.ok, Fields.i]; omega
  · simp [decodeFields, decodeRow20, need, Fields.i, Fields.imm, e1, e2, e3, ICond.pick_code, Fin.ext_iff]
theorem andi (d : Reg) (a : Reg) (imm : BitVec 11) : Statement (.andi d a imm) := by
  show Fields.ok (Fields.i 37 d.code a.code imm.toNat : Fields) ∧ decodeFields (Fields.i 37 d.code a.code imm.toNat : Fields) = .ok (.andi d a imm)
  have hd := d.code_lt
  have ha := a.code_lt
  have himm := imm.isLt
  refine ⟨?_, ?_⟩
  · simp [Fields.ok, Fields.i]; try omega
  · simp [decodeFields, decodeRow20, Fields.i, Fields.imm, BitVec.toNat_eq]; try omega
theorem xori (d : Reg) (a : Reg) (imm : BitVec 11) : Statement (.xori d a imm) := by
  show Fields.ok (Fields.i 38 d.code a.code imm.toNat : Fields) ∧ decodeFields (Fields.i 38 d.code a.code imm.toNat : Fields) = .ok (.xori d a imm)
  have hd := d.code_lt
  have ha := a.code_lt
  have himm := imm.isLt
  refine ⟨?_, ?_⟩
  · simp [Fields.ok, Fields.i]; try omega
  · simp [decodeFields, decodeRow20, Fields.i, Fields.imm, BitVec.toNat_eq]; try omega
theorem shi (d a : Reg) (k : ShiKind) (n : Fin 32) :
    Statement (.shi d a k n) := by
  show Fields.ok (Fields.i 39 d.code a.code (codeIn ShiKind.codes k * 512 + n.val)) ∧
      decodeFields (Fields.i 39 d.code a.code (codeIn ShiKind.codes k * 512 + n.val)) = .ok (.shi d a k n)
  have hd := d.code_lt
  have ha := a.code_lt
  have hn := n.isLt
  have hk : codeIn ShiKind.codes k < 4 := by cases k <;> decide
  have e1 : (codeIn ShiKind.codes k * 512 + n.val) / 16 * 16 + (codeIn ShiKind.codes k * 512 + n.val) % 16 =
    codeIn ShiKind.codes k * 512 + n.val := by omega
  have e2 : (codeIn ShiKind.codes k * 512 + n.val) / 512 = codeIn ShiKind.codes k := by omega
  have e4 : (codeIn ShiKind.codes k * 512 + n.val) / 32 % 16 = 0 := by omega
  have e5 : (codeIn ShiKind.codes k * 512 + n.val) % 32 = n.val := by omega
  refine ⟨?_, ?_⟩
  · simp only [Fields.ok, Fields.i]; omega
  · simp [decodeFields, decodeRow20, need, Fields.i, Fields.imm, e1, e2, e4, e5, ShiKind.pick_code]
theorem fadd (d : Reg) (a : Reg) (b : Reg) (ind : Bool) (rm : Rm) : Statement (.fadd d a b ind rm) := by
  show Fields.ok (⟨40, d.code, a.code, b.code, ind.toNat * 8 + codeIn Rm.codes rm⟩ : Fields) ∧ decodeFields (⟨40, d.code, a.code, b.code, ind.toNat * 8 + codeIn Rm.codes rm⟩ : Fields) = .ok (.fadd d a b ind rm)
  have hd := d.code_lt
  have ha := a.code_lt
  have hb := b.code_lt
  refine ⟨?_, (show decodeFields (⟨40, d.code, a.code, b.code, ind.toNat * 8 + codeIn Rm.codes rm⟩ : Fields) = .ok (.fadd (Reg.ofCode d.code) (Reg.ofCode a.code) (Reg.ofCode b.code) ind rm) by cases ind <;> cases rm <;> with_unfolding_all rfl).trans (by simp only [Reg.ofCode_code])⟩
  cases ind <;> cases rm <;> (simp [Fields.ok]; try omega)
theorem fsub (d : Reg) (a : Reg) (b : Reg) (ind : Bool) (rm : Rm) : Statement (.fsub d a b ind rm) := by
  show Fields.ok (⟨40, d.code, a.code, b.code, ind.toNat * 8 + 4 + codeIn Rm.codes rm⟩ : Fields) ∧ decodeFields (⟨40, d.code, a.code, b.code, ind.toNat * 8 + 4 + codeIn Rm.codes rm⟩ : Fields) = .ok (.fsub d a b ind rm)
  have hd := d.code_lt
  have ha := a.code_lt
  have hb := b.code_lt
  refine ⟨?_, (show decodeFields (⟨40, d.code, a.code, b.code, ind.toNat * 8 + 4 + codeIn Rm.codes rm⟩ : Fields) = .ok (.fsub (Reg.ofCode d.code) (Reg.ofCode a.code) (Reg.ofCode b.code) ind rm) by cases ind <;> cases rm <;> with_unfolding_all rfl).trans (by simp only [Reg.ofCode_code])⟩
  cases ind <;> cases rm <;> (simp [Fields.ok]; try omega)
theorem fmul (d : Reg) (a : Reg) (b : Reg) (ind : Bool) (rm : Rm) : Statement (.fmul d a b ind rm) := by
  show Fields.ok (⟨41, d.code, a.code, b.code, ind.toNat * 8 + codeIn Rm.codes rm⟩ : Fields) ∧ decodeFields (⟨41, d.code, a.code, b.code, ind.toNat * 8 + codeIn Rm.codes rm⟩ : Fields) = .ok (.fmul d a b ind rm)
  have hd := d.code_lt
  have ha := a.code_lt
  have hb := b.code_lt
  refine ⟨?_, (show decodeFields (⟨41, d.code, a.code, b.code, ind.toNat * 8 + codeIn Rm.codes rm⟩ : Fields) = .ok (.fmul (Reg.ofCode d.code) (Reg.ofCode a.code) (Reg.ofCode b.code) ind rm) by cases ind <;> cases rm <;> with_unfolding_all rfl).trans (by simp only [Reg.ofCode_code])⟩
  cases ind <;> cases rm <;> (simp [Fields.ok]; try omega)
theorem ffma (d : Reg) (a : Reg) (b : Reg) (ind : Bool) (nc : Bool) (rm : Rm) : Statement (.ffma d a b ind nc rm) := by
  show Fields.ok (⟨42, d.code, a.code, b.code, ind.toNat * 8 + nc.toNat * 4 + codeIn Rm.codes rm⟩ : Fields) ∧ decodeFields (⟨42, d.code, a.code, b.code, ind.toNat * 8 + nc.toNat * 4 + codeIn Rm.codes rm⟩ : Fields) = .ok (.ffma d a b ind nc rm)
  have hd := d.code_lt
  have ha := a.code_lt
  have hb := b.code_lt
  refine ⟨?_, (show decodeFields (⟨42, d.code, a.code, b.code, ind.toNat * 8 + nc.toNat * 4 + codeIn Rm.codes rm⟩ : Fields) = .ok (.ffma (Reg.ofCode d.code) (Reg.ofCode a.code) (Reg.ofCode b.code) ind nc rm) by cases ind <;> cases nc <;> cases rm <;> with_unfolding_all rfl).trans (by simp only [Reg.ofCode_code])⟩
  cases ind <;> cases nc <;> cases rm <;> (simp [Fields.ok]; try omega)
theorem fmnx (d : Reg) (a : Reg) (b : Reg) (ind : Bool) (fn : MnxFn) : Statement (.fmnx d a b ind fn) := by
  show Fields.ok (⟨43, d.code, a.code, b.code, ind.toNat * 8 + codeIn MnxFn.codes fn⟩ : Fields) ∧ decodeFields (⟨43, d.code, a.code, b.code, ind.toNat * 8 + codeIn MnxFn.codes fn⟩ : Fields) = .ok (.fmnx d a b ind fn)
  have hd := d.code_lt
  have ha := a.code_lt
  have hb := b.code_lt
  refine ⟨?_, (show decodeFields (⟨43, d.code, a.code, b.code, ind.toNat * 8 + codeIn MnxFn.codes fn⟩ : Fields) = .ok (.fmnx (Reg.ofCode d.code) (Reg.ofCode a.code) (Reg.ofCode b.code) ind fn) by cases ind <;> cases fn <;> with_unfolding_all rfl).trans (by simp only [Reg.ofCode_code])⟩
  cases ind <;> cases fn <;> (simp [Fields.ok]; try omega)
theorem fset (p : Fin 8) (a : Reg) (b : Reg) (ind : Bool) (c : FCond) : Statement (.fset p a b ind c) := by
  show Fields.ok (⟨44, p.val, a.code, b.code, ind.toNat * 8 + codeIn FCond.codes c⟩ : Fields) ∧ decodeFields (⟨44, p.val, a.code, b.code, ind.toNat * 8 + codeIn FCond.codes c⟩ : Fields) = .ok (.fset p a b ind c)
  have hp := p.isLt
  have ha := a.code_lt
  have hb := b.code_lt
  cases ind <;> cases c
  all_goals
    refine ⟨?_, ?_⟩
    · simp [Fields.ok]; try omega
    · simp [decodeFields, decodeRow28, need, bit, Fin.ext_iff]; try omega
theorem fcvt (d a : Reg) (src : CvtSrc) (tgt : CvtTgt) (ind sat : Bool) (rm : Rm) :
    Statement (.fcvt d a src tgt ind sat rm) := by
  show Fields.ok ⟨45, d.code, a.code, codeIn CvtTgt.codes tgt * 8 + codeIn CvtSrc.codes src, ind.toNat * 8 + sat.toNat * 4 + codeIn Rm.codes rm⟩ ∧
      decodeFields ⟨45, d.code, a.code, codeIn CvtTgt.codes tgt * 8 + codeIn CvtSrc.codes src, ind.toNat * 8 + sat.toNat * 4 + codeIn Rm.codes rm⟩ =
        .ok (.fcvt d a src tgt ind sat rm)
  have hd := d.code_lt
  have ha := a.code_lt
  have hs : codeIn CvtSrc.codes src < 8 := by cases src <;> decide
  have ht : codeIn CvtTgt.codes tgt < 10 := by cases tgt <;> decide
  have hr : codeIn Rm.codes rm < 4 := by cases rm <;> decide
  have e1 : (codeIn CvtTgt.codes tgt * 8 + codeIn CvtSrc.codes src) % 8 = codeIn CvtSrc.codes src := by omega
  have e2 : (codeIn CvtTgt.codes tgt * 8 + codeIn CvtSrc.codes src) / 8 = codeIn CvtTgt.codes tgt := by omega
  have e3 : (ind.toNat * 8 + sat.toNat * 4 + codeIn Rm.codes rm) % 4 = codeIn Rm.codes rm := by omega
  have e4 : bit ((ind.toNat * 8 + sat.toNat * 4 + codeIn Rm.codes rm) / 8) = ind := by
    cases ind <;> cases sat <;> cases rm <;> rfl
  have e5 : bit ((ind.toNat * 8 + sat.toNat * 4 + codeIn Rm.codes rm) / 4) = sat := by
    cases ind <;> cases sat <;> cases rm <;> rfl
  have hi : ind.toNat < 2 := by cases ind <;> decide
  have ha : sat.toNat < 2 := by cases sat <;> decide
  refine ⟨?_, ?_⟩
  · simp only [Fields.ok]; omega
  · simp [decodeFields, decodeRow28, e1, e2, e3, e4, e5, CvtSrc.pick_code, CvtTgt.pick_code, Rm.pick_code]
theorem hadd2 (d : Reg) (a : Reg) (b : Reg) (ind : Bool) (bf : Bool) (rm : Rm) : Statement (.hadd2 d a b ind bf rm) := by
  show Fields.ok (⟨46, d.code, a.code, b.code, ind.toNat * 8 + bf.toNat * 4 + codeIn Rm.codes rm⟩ : Fields) ∧ decodeFields (⟨46, d.code, a.code, b.code, ind.toNat * 8 + bf.toNat * 4 + codeIn Rm.codes rm⟩ : Fields) = .ok (.hadd2 d a b ind bf rm)
  have hd := d.code_lt
  have ha := a.code_lt
  have hb := b.code_lt
  refine ⟨?_, (show decodeFields (⟨46, d.code, a.code, b.code, ind.toNat * 8 + bf.toNat * 4 + codeIn Rm.codes rm⟩ : Fields) = .ok (.hadd2 (Reg.ofCode d.code) (Reg.ofCode a.code) (Reg.ofCode b.code) ind bf rm) by cases ind <;> cases bf <;> cases rm <;> with_unfolding_all rfl).trans (by simp only [Reg.ofCode_code])⟩
  cases ind <;> cases bf <;> cases rm <;> (simp [Fields.ok]; try omega)
theorem hfma2 (d : Reg) (a : Reg) (b : Reg) (ind : Bool) (bf : Bool) (rm : Rm) : Statement (.hfma2 d a b ind bf rm) := by
  show Fields.ok (⟨47, d.code, a.code, b.code, ind.toNat * 8 + bf.toNat * 4 + codeIn Rm.codes rm⟩ : Fields) ∧ decodeFields (⟨47, d.code, a.code, b.code, ind.toNat * 8 + bf.toNat * 4 + codeIn Rm.codes rm⟩ : Fields) = .ok (.hfma2 d a b ind bf rm)
  have hd := d.code_lt
  have ha := a.code_lt
  have hb := b.code_lt
  refine ⟨?_, (show decodeFields (⟨47, d.code, a.code, b.code, ind.toNat * 8 + bf.toNat * 4 + codeIn Rm.codes rm⟩ : Fields) = .ok (.hfma2 (Reg.ofCode d.code) (Reg.ofCode a.code) (Reg.ofCode b.code) ind bf rm) by cases ind <;> cases bf <;> cases rm <;> with_unfolding_all rfl).trans (by simp only [Reg.ofCode_code])⟩
  cases ind <;> cases bf <;> cases rm <;> (simp [Fields.ok]; try omega)
theorem hmul2 (d : Reg) (a : Reg) (b : Reg) (ind : Bool) (bf : Bool) (rm : Rm) : Statement (.hmul2 d a b ind bf rm) := by
  show Fields.ok (⟨48, d.code, a.code, b.code, ind.toNat * 8 + bf.toNat * 4 + codeIn Rm.codes rm⟩ : Fields) ∧ decodeFields (⟨48, d.code, a.code, b.code, ind.toNat * 8 + bf.toNat * 4 + codeIn Rm.codes rm⟩ : Fields) = .ok (.hmul2 d a b ind bf rm)
  have hd := d.code_lt
  have ha := a.code_lt
  have hb := b.code_lt
  refine ⟨?_, (show decodeFields (⟨48, d.code, a.code, b.code, ind.toNat * 8 + bf.toNat * 4 + codeIn Rm.codes rm⟩ : Fields) = .ok (.hmul2 (Reg.ofCode d.code) (Reg.ofCode a.code) (Reg.ofCode b.code) ind bf rm) by cases ind <;> cases bf <;> cases rm <;> with_unfolding_all rfl).trans (by simp only [Reg.ofCode_code])⟩
  cases ind <;> cases bf <;> cases rm <;> (simp [Fields.ok]; try omega)
theorem fsfu (d : Reg) (a : Reg) (ind : Bool) (fn : SfuFn) : Statement (.fsfu d a ind fn) := by
  show Fields.ok (⟨49, d.code, a.code, 0, ind.toNat * 8 + codeIn SfuFn.codes fn⟩ : Fields) ∧ decodeFields (⟨49, d.code, a.code, 0, ind.toNat * 8 + codeIn SfuFn.codes fn⟩ : Fields) = .ok (.fsfu d a ind fn)
  have hd := d.code_lt
  have ha := a.code_lt
  refine ⟨?_, (show decodeFields (⟨49, d.code, a.code, 0, ind.toNat * 8 + codeIn SfuFn.codes fn⟩ : Fields) = .ok (.fsfu (Reg.ofCode d.code) (Reg.ofCode a.code) ind fn) by cases ind <;> cases fn <;> with_unfolding_all rfl).trans (by simp only [Reg.ofCode_code])⟩
  cases ind <;> cases fn <;> (simp [Fields.ok]; try omega)
theorem funa (d : Reg) (a : Reg) (b : Reg) (ind : Bool) (fn : FunaFn) : Statement (.funa d a b ind fn) := by
  show Fields.ok (⟨50, d.code, a.code, b.code, ind.toNat * 8 + codeIn FunaFn.codes fn⟩ : Fields) ∧ decodeFields (⟨50, d.code, a.code, b.code, ind.toNat * 8 + codeIn FunaFn.codes fn⟩ : Fields) = .ok (.funa d a b ind fn)
  have hd := d.code_lt
  have ha := a.code_lt
  have hb := b.code_lt
  refine ⟨?_, (show decodeFields (⟨50, d.code, a.code, b.code, ind.toNat * 8 + codeIn FunaFn.codes fn⟩ : Fields) = .ok (.funa (Reg.ofCode d.code) (Reg.ofCode a.code) (Reg.ofCode b.code) ind fn) by cases ind <;> cases fn <;> with_unfolding_all rfl).trans (by simp only [Reg.ofCode_code])⟩
  cases ind <;> cases fn <;> (simp [Fields.ok]; try omega)
theorem expo (d : Reg) (a : Reg) (ind : Bool) (mant : Bool) : Statement (.expo d a ind mant) := by
  show Fields.ok (⟨51, d.code, a.code, 0, ind.toNat * 8 + mant.toNat⟩ : Fields) ∧ decodeFields (⟨51, d.code, a.code, 0, ind.toNat * 8 + mant.toNat⟩ : Fields) = .ok (.expo d a ind mant)
  have hd := d.code_lt
  have ha := a.code_lt
  refine ⟨?_, (show decodeFields (⟨51, d.code, a.code, 0, ind.toNat * 8 + mant.toNat⟩ : Fields) = .ok (.expo (Reg.ofCode d.code) (Reg.ofCode a.code) ind mant) by cases ind <;> cases mant <;> with_unfolding_all rfl).trans (by simp only [Reg.ofCode_code])⟩
  cases ind <;> cases mant <;> (simp [Fields.ok]; try omega)
theorem ldexp (d : Reg) (a : Reg) (b : Reg) (ind : Bool) (rm : Rm) : Statement (.ldexp d a b ind rm) := by
  show Fields.ok (⟨52, d.code, a.code, b.code, ind.toNat * 8 + codeIn Rm.codes rm⟩ : Fields) ∧ decodeFields (⟨52, d.code, a.code, b.code, ind.toNat * 8 + codeIn Rm.codes rm⟩ : Fields) = .ok (.ldexp d a b ind rm)
  have hd := d.code_lt
  have ha := a.code_lt
  have hb := b.code_lt
  refine ⟨?_, (show decodeFields (⟨52, d.code, a.code, b.code, ind.toNat * 8 + codeIn Rm.codes rm⟩ : Fields) = .ok (.ldexp (Reg.ofCode d.code) (Reg.ofCode a.code) (Reg.ofCode b.code) ind rm) by cases ind <;> cases rm <;> with_unfolding_all rfl).trans (by simp only [Reg.ofCode_code])⟩
  cases ind <;> cases rm <;> (simp [Fields.ok]; try omega)
theorem maxe (d : Reg) (a : Reg) (b : Reg) (ind : Bool) : Statement (.maxe d a b ind) := by
  show Fields.ok (⟨53, d.code, a.code, b.code, ind.toNat * 8⟩ : Fields) ∧ decodeFields (⟨53, d.code, a.code, b.code, ind.toNat * 8⟩ : Fields) = .ok (.maxe d a b ind)
  have hd := d.code_lt
  have ha := a.code_lt
  have hb := b.code_lt
  refine ⟨?_, (show decodeFields (⟨53, d.code, a.code, b.code, ind.toNat * 8⟩ : Fields) = .ok (.maxe (Reg.ofCode d.code) (Reg.ofCode a.code) (Reg.ofCode b.code) ind) by cases ind <;> with_unfolding_all rfl).trans (by simp only [Reg.ofCode_code])⟩
  cases ind <;> (simp [Fields.ok]; try omega)
theorem sexp (d : Reg) (a : Reg) (b : Reg) (ind : Bool) : Statement (.sexp d a b ind) := by
  show Fields.ok (⟨54, d.code, a.code, b.code, ind.toNat * 8⟩ : Fields) ∧ decodeFields (⟨54, d.code, a.code, b.code, ind.toNat * 8⟩ : Fields) = .ok (.sexp d a b ind)
  have hd := d.code_lt
  have ha := a.code_lt
  have hb := b.code_lt
  refine ⟨?_, (show decodeFields (⟨54, d.code, a.code, b.code, ind.toNat * 8⟩ : Fields) = .ok (.sexp (Reg.ofCode d.code) (Reg.ofCode a.code) (Reg.ofCode b.code) ind) by cases ind <;> with_unfolding_all rfl).trans (by simp only [Reg.ofCode_code])⟩
  cases ind <;> (simp [Fields.ok]; try omega)
theorem frow (d : Reg) (a : Reg) (b : Reg) (ind : Bool) (bf : Bool) (fn : RowFn) : Statement (.frow d a b ind bf fn) := by
  show Fields.ok (⟨55, d.code, a.code, b.code, ind.toNat * 8 + bf.toNat * 4 + codeIn RowFn.codes fn⟩ : Fields) ∧ decodeFields (⟨55, d.code, a.code, b.code, ind.toNat * 8 + bf.toNat * 4 + codeIn RowFn.codes fn⟩ : Fields) = .ok (.frow d a b ind bf fn)
  have hd := d.code_lt
  have ha := a.code_lt
  have hb := b.code_lt
  refine ⟨?_, (show decodeFields (⟨55, d.code, a.code, b.code, ind.toNat * 8 + bf.toNat * 4 + codeIn RowFn.codes fn⟩ : Fields) = .ok (.frow (Reg.ofCode d.code) (Reg.ofCode a.code) (Reg.ofCode b.code) ind bf fn) by cases ind <;> cases bf <;> cases fn <;> with_unfolding_all rfl).trans (by simp only [Reg.ofCode_code])⟩
  cases ind <;> cases bf <;> cases fn <;> (simp [Fields.ok]; try omega)
theorem shfx (d : Reg) (a : Reg) (b : Reg) : Statement (.shfx d a b) := by
  show Fields.ok (⟨56, d.code, a.code, b.code, 0⟩ : Fields) ∧ decodeFields (⟨56, d.code, a.code, b.code, 0⟩ : Fields) = .ok (.shfx d a b)
  have hd := d.code_lt
  have ha := a.code_lt
  have hb := b.code_lt
  refine ⟨?_, (show decodeFields (⟨56, d.code, a.code, b.code, 0⟩ : Fields) = .ok (.shfx (Reg.ofCode d.code) (Reg.ofCode a.code) (Reg.ofCode b.code)) by with_unfolding_all rfl).trans (by simp only [Reg.ofCode_code])⟩
  (simp [Fields.ok]; try omega)
theorem shfp (d : Reg) (a : Reg) (b : Reg) : Statement (.shfp d a b) := by
  show Fields.ok (⟨57, d.code, a.code, b.code, 0⟩ : Fields) ∧ decodeFields (⟨57, d.code, a.code, b.code, 0⟩ : Fields) = .ok (.shfp d a b)
  have hd := d.code_lt
  have ha := a.code_lt
  have hb := b.code_lt
  refine ⟨?_, (show decodeFields (⟨57, d.code, a.code, b.code, 0⟩ : Fields) = .ok (.shfp (Reg.ofCode d.code) (Reg.ofCode a.code) (Reg.ofCode b.code)) by with_unfolding_all rfl).trans (by simp only [Reg.ofCode_code])⟩
  (simp [Fields.ok]; try omega)
theorem shfb (d : Reg) (a : Reg) (b : Reg) (seg : Fin 8) : Statement (.shfb d a b seg) := by
  show Fields.ok (⟨58, d.code, a.code, b.code, seg.val⟩ : Fields) ∧ decodeFields (⟨58, d.code, a.code, b.code, seg.val⟩ : Fields) = .ok (.shfb d a b seg)
  have hd := d.code_lt
  have ha := a.code_lt
  have hb := b.code_lt
  have hseg := seg.isLt
  refine ⟨?_, ?_⟩
  · simp [Fields.ok]; try omega
  · simp [decodeFields, decodeRow38, need, Fin.ext_iff]; try omega
theorem shfi (d : Reg) (a : Reg) (b : Reg) : Statement (.shfi d a b) := by
  show Fields.ok (⟨59, d.code, a.code, b.code, 0⟩ : Fields) ∧ decodeFields (⟨59, d.code, a.code, b.code, 0⟩ : Fields) = .ok (.shfi d a b)
  have hd := d.code_lt
  have ha := a.code_lt
  have hb := b.code_lt
  refine ⟨?_, (show decodeFields (⟨59, d.code, a.code, b.code, 0⟩ : Fields) = .ok (.shfi (Reg.ofCode d.code) (Reg.ofCode a.code) (Reg.ofCode b.code)) by with_unfolding_all rfl).trans (by simp only [Reg.ofCode_code])⟩
  (simp [Fields.ok]; try omega)
theorem shfr (d : Reg) (a : Reg) (b : Reg) (seg : Fin 8) : Statement (.shfr d a b seg) := by
  show Fields.ok (⟨60, d.code, a.code, b.code, seg.val⟩ : Fields) ∧ decodeFields (⟨60, d.code, a.code, b.code, seg.val⟩ : Fields) = .ok (.shfr d a b seg)
  have hd := d.code_lt
  have ha := a.code_lt
  have hb := b.code_lt
  have hseg := seg.isLt
  refine ⟨?_, ?_⟩
  · simp [Fields.ok]; try omega
  · simp [decodeFields, decodeRow38, need, Fin.ext_iff]; try omega
theorem mat (d : Reg) (a : Reg) (b : Reg) : Statement (.mat d a b) := by
  show Fields.ok (⟨61, d.code, a.code, b.code, 0⟩ : Fields) ∧ decodeFields (⟨61, d.code, a.code, b.code, 0⟩ : Fields) = .ok (.mat d a b)
  have hd := d.code_lt
  have ha := a.code_lt
  have hb := b.code_lt
  refine ⟨?_, (show decodeFields (⟨61, d.code, a.code, b.code, 0⟩ : Fields) = .ok (.mat (Reg.ofCode d.code) (Reg.ofCode a.code) (Reg.ofCode b.code)) by with_unfolding_all rfl).trans (by simp only [Reg.ofCode_code])⟩
  (simp [Fields.ok]; try omega)
theorem mapRd (d : Reg) (a : Reg) : Statement (.mapRd d a) := by
  show Fields.ok (⟨62, d.code, a.code, 0, 0⟩ : Fields) ∧ decodeFields (⟨62, d.code, a.code, 0, 0⟩ : Fields) = .ok (.mapRd d a)
  have hd := d.code_lt
  have ha := a.code_lt
  refine ⟨?_, (show decodeFields (⟨62, d.code, a.code, 0, 0⟩ : Fields) = .ok (.mapRd (Reg.ofCode d.code) (Reg.ofCode a.code)) by with_unfolding_all rfl).trans (by simp only [Reg.ofCode_code])⟩
  (simp [Fields.ok]; try omega)
theorem mapWr (d : Reg) (a : Reg) : Statement (.mapWr d a) := by
  show Fields.ok (⟨62, d.code, a.code, 0, 1⟩ : Fields) ∧ decodeFields (⟨62, d.code, a.code, 0, 1⟩ : Fields) = .ok (.mapWr d a)
  have hd := d.code_lt
  have ha := a.code_lt
  refine ⟨?_, (show decodeFields (⟨62, d.code, a.code, 0, 1⟩ : Fields) = .ok (.mapWr (Reg.ofCode d.code) (Reg.ofCode a.code)) by with_unfolding_all rfl).trans (by simp only [Reg.ofCode_code])⟩
  (simp [Fields.ok]; try omega)
theorem mapId (d : Reg) (a : Reg) : Statement (.mapId d a) := by
  show Fields.ok (⟨62, d.code, a.code, 0, 2⟩ : Fields) ∧ decodeFields (⟨62, d.code, a.code, 0, 2⟩ : Fields) = .ok (.mapId d a)
  have hd := d.code_lt
  have ha := a.code_lt
  refine ⟨?_, (show decodeFields (⟨62, d.code, a.code, 0, 2⟩ : Fields) = .ok (.mapId (Reg.ofCode d.code) (Reg.ofCode a.code)) by with_unfolding_all rfl).trans (by simp only [Reg.ofCode_code])⟩
  (simp [Fields.ok]; try omega)
theorem vote (d : BitVec 7) (p : Fin 8) (neg : Bool) (fn : VoteFn) : Statement (.vote d p neg fn) := by
  show Fields.ok (⟨63, d.toNat, 0, p.val, neg.toNat * 4 + codeIn VoteFn.codes fn⟩ : Fields) ∧ decodeFields (⟨63, d.toNat, 0, p.val, neg.toNat * 4 + codeIn VoteFn.codes fn⟩ : Fields) = .ok (.vote d p neg fn)
  have hd := d.isLt
  have hp := p.isLt
  cases neg <;> cases fn
  all_goals
    refine ⟨?_, ?_⟩
    · simp [Fields.ok]; try omega
    · simp [decodeFields, decodeRow38, need, bit, Fin.ext_iff, BitVec.toNat_eq]; try omega
theorem matchk (d : Reg) (a : Reg) (f : Bool) (fn : MatchFn) : Statement (.matchk d a f fn) := by
  show Fields.ok (⟨64, d.code, a.code, 0, f.toNat * 4 + codeIn MatchFn.codes fn⟩ : Fields) ∧ decodeFields (⟨64, d.code, a.code, 0, f.toNat * 4 + codeIn MatchFn.codes fn⟩ : Fields) = .ok (.matchk d a f fn)
  have hd := d.code_lt
  have ha := a.code_lt
  refine ⟨?_, (show decodeFields (⟨64, d.code, a.code, 0, f.toNat * 4 + codeIn MatchFn.codes fn⟩ : Fields) = .ok (.matchk (Reg.ofCode d.code) (Reg.ofCode a.code) f fn) by cases f <;> cases fn <;> with_unfolding_all rfl).trans (by simp only [Reg.ofCode_code])⟩
  cases f <;> cases fn <;> (simp [Fields.ok]; try omega)
theorem pscan (d : Reg) (a : Reg) (h : Fin 8) (seg : Bool) (ex : Bool) (op : ScanOp) : Statement (.pscan d a h seg ex op) := by
  show Fields.ok (⟨65, d.code, a.code, h.val, seg.toNat * 8 + ex.toNat * 4 + codeIn ScanOp.codes op⟩ : Fields) ∧ decodeFields (⟨65, d.code, a.code, h.val, seg.toNat * 8 + ex.toNat * 4 + codeIn ScanOp.codes op⟩ : Fields) = .ok (.pscan d a h seg ex op)
  have hd := d.code_lt
  have ha := a.code_lt
  have hh := h.isLt
  cases seg <;> cases ex <;> cases op
  all_goals
    refine ⟨?_, ?_⟩
    · simp [Fields.ok]; try omega
    · simp [decodeFields, decodeRow40, need, bit, Fin.ext_iff]; try omega
theorem qapp (d : Reg) (a : Reg) (b : Reg) : Statement (.qapp d a b) := by
  show Fields.ok (⟨66, d.code, a.code, b.code, 0⟩ : Fields) ∧ decodeFields (⟨66, d.code, a.code, b.code, 0⟩ : Fields) = .ok (.qapp d a b)
  have hd := d.code_lt
  have ha := a.code_lt
  have hb := b.code_lt
  refine ⟨?_, (show decodeFields (⟨66, d.code, a.code, b.code, 0⟩ : Fields) = .ok (.qapp (Reg.ofCode d.code) (Reg.ofCode a.code) (Reg.ofCode b.code)) by with_unfolding_all rfl).trans (by simp only [Reg.ofCode_code])⟩
  (simp [Fields.ok]; try omega)
theorem cdet (d : Reg) (a : Reg) (f : Bool) (next : Bool) : Statement (.cdet d a f next) := by
  show Fields.ok (⟨67, d.code, a.code, 0, f.toNat * 4 + next.toNat⟩ : Fields) ∧ decodeFields (⟨67, d.code, a.code, 0, f.toNat * 4 + next.toNat⟩ : Fields) = .ok (.cdet d a f next)
  have hd := d.code_lt
  have ha := a.code_lt
  refine ⟨?_, (show decodeFields (⟨67, d.code, a.code, 0, f.toNat * 4 + next.toNat⟩ : Fields) = .ok (.cdet (Reg.ofCode d.code) (Reg.ofCode a.code) f next) by cases f <;> cases next <;> with_unfolding_all rfl).trans (by simp only [Reg.ofCode_code])⟩
  cases f <;> cases next <;> (simp [Fields.ok]; try omega)
theorem redx (d : Reg) (a : Reg) (b : Reg) (f : Bool) (op : RedOp) : Statement (.redx d a b f op) := by
  show Fields.ok (⟨68, d.code, a.code, b.code, f.toNat * 8 + codeIn RedOp.codes op⟩ : Fields) ∧ decodeFields (⟨68, d.code, a.code, b.code, f.toNat * 8 + codeIn RedOp.codes op⟩ : Fields) = .ok (.redx d a b f op)
  have hd := d.code_lt
  have ha := a.code_lt
  have hb := b.code_lt
  refine ⟨?_, (show decodeFields (⟨68, d.code, a.code, b.code, f.toNat * 8 + codeIn RedOp.codes op⟩ : Fields) = .ok (.redx (Reg.ofCode d.code) (Reg.ofCode a.code) (Reg.ofCode b.code) f op) by cases f <;> cases op <;> with_unfolding_all rfl).trans (by simp only [Reg.ofCode_code])⟩
  cases f <;> cases op <;> (simp [Fields.ok]; try omega)
theorem segr (d : Reg) (a : Reg) (h : Fin 8) (last : Bool) (op : SegOp) : Statement (.segr d a h last op) := by
  show Fields.ok (⟨69, d.code, a.code, h.val, last.toNat * 4 + codeIn SegOp.codes op⟩ : Fields) ∧ decodeFields (⟨69, d.code, a.code, h.val, last.toNat * 4 + codeIn SegOp.codes op⟩ : Fields) = .ok (.segr d a h last op)
  have hd := d.code_lt
  have ha := a.code_lt
  have hh := h.isLt
  cases last <;> cases op
  all_goals
    refine ⟨?_, ?_⟩
    · simp [Fields.ok]; try omega
    · simp [decodeFields, decodeRow40, need, bit, Fin.ext_iff]; try omega
theorem rlt (d : Reg) (a : Reg) : Statement (.rlt d a) := by
  show Fields.ok (⟨70, d.code, a.code, 0, 0⟩ : Fields) ∧ decodeFields (⟨70, d.code, a.code, 0, 0⟩ : Fields) = .ok (.rlt d a)
  have hd := d.code_lt
  have ha := a.code_lt
  refine ⟨?_, (show decodeFields (⟨70, d.code, a.code, 0, 0⟩ : Fields) = .ok (.rlt (Reg.ofCode d.code) (Reg.ofCode a.code)) by with_unfolding_all rfl).trans (by simp only [Reg.ofCode_code])⟩
  (simp [Fields.ok]; try omega)
theorem rwalk (d : Reg) (a : Reg) (b : Reg) (h : Fin 8) : Statement (.rwalk d a b h) := by
  show Fields.ok (⟨71, d.code, a.code, b.code, h.val⟩ : Fields) ∧ decodeFields (⟨71, d.code, a.code, b.code, h.val⟩ : Fields) = .ok (.rwalk d a b h)
  have hd := d.code_lt
  have ha := a.code_lt
  have hb := b.code_lt
  have hh := h.isLt
  refine ⟨?_, ?_⟩
  · simp [Fields.ok]; try omega
  · simp [decodeFields, decodeRow40, need, Fin.ext_iff]; try omega
theorem ld (d : Reg) (a : Reg) (b : Reg) (sp : Space) (sz : Size) : Statement (.ld d a b sp sz) := by
  show Fields.ok (⟨72, d.code, a.code, b.code, codeIn Space.codes sp * 4 + codeIn Size.codes sz⟩ : Fields) ∧ decodeFields (⟨72, d.code, a.code, b.code, codeIn Space.codes sp * 4 + codeIn Size.codes sz⟩ : Fields) = .ok (.ld d a b sp sz)
  have hd := d.code_lt
  have ha := a.code_lt
  have hb := b.code_lt
  refine ⟨?_, (show decodeFields (⟨72, d.code, a.code, b.code, codeIn Space.codes sp * 4 + codeIn Size.codes sz⟩ : Fields) = .ok (.ld (Reg.ofCode d.code) (Reg.ofCode a.code) (Reg.ofCode b.code) sp sz) by cases sp <;> cases sz <;> with_unfolding_all rfl).trans (by simp only [Reg.ofCode_code])⟩
  cases sp <;> cases sz <;> (simp [Fields.ok]; try omega)
theorem st (d : Reg) (a : Reg) (b : Reg) (sp : Space) (sz : Size) : Statement (.st d a b sp sz) := by
  show Fields.ok (⟨73, d.code, a.code, b.code, codeIn Space.codes sp * 4 + codeIn Size.codes sz⟩ : Fields) ∧ decodeFields (⟨73, d.code, a.code, b.code, codeIn Space.codes sp * 4 + codeIn Size.codes sz⟩ : Fields) = .ok (.st d a b sp sz)
  have hd := d.code_lt
  have ha := a.code_lt
  have hb := b.code_lt
  refine ⟨?_, (show decodeFields (⟨73, d.code, a.code, b.code, codeIn Space.codes sp * 4 + codeIn Size.codes sz⟩ : Fields) = .ok (.st (Reg.ofCode d.code) (Reg.ofCode a.code) (Reg.ofCode b.code) sp sz) by cases sp <;> cases sz <;> with_unfolding_all rfl).trans (by simp only [Reg.ofCode_code])⟩
  cases sp <;> cases sz <;> (simp [Fields.ok]; try omega)
theorem ldi (d a : Reg) (sp : Space) (sz : Size) (cnt : BitVec 7) :
    Statement (.ldi d a sp sz cnt) := by
  show Fields.ok (Fields.i 74 d.code a.code (codeIn Space.codes sp * 512 + codeIn Size.codes sz * 128 + cnt.toNat)) ∧
      decodeFields (Fields.i 74 d.code a.code (codeIn Space.codes sp * 512 + codeIn Size.codes sz * 128 + cnt.toNat)) =
        .ok (.ldi d a sp sz cnt)
  have hd := d.code_lt
  have ha := a.code_lt
  have hn := cnt.isLt
  have hs : codeIn Space.codes sp < 3 := by cases sp <;> decide
  have hz : codeIn Size.codes sz < 4 := by cases sz <;> decide
  have e1 : (codeIn Space.codes sp * 512 + codeIn Size.codes sz * 128 + cnt.toNat) / 16 * 16 +
    (codeIn Space.codes sp * 512 + codeIn Size.codes sz * 128 + cnt.toNat) % 16 =
    codeIn Space.codes sp * 512 + codeIn Size.codes sz * 128 + cnt.toNat := by omega
  have e2 : (codeIn Space.codes sp * 512 + codeIn Size.codes sz * 128 + cnt.toNat) / 512 = codeIn Space.codes sp := by omega
  have e3 : (codeIn Space.codes sp * 512 + codeIn Size.codes sz * 128 + cnt.toNat) / 128 % 4 = codeIn Size.codes sz := by omega
  have e4 : (codeIn Space.codes sp * 512 + codeIn Size.codes sz * 128 + cnt.toNat) % 128 = cnt.toNat := by omega
  refine ⟨?_, ?_⟩
  · simp only [Fields.ok, Fields.i]; omega
  · simp [decodeFields, decodeRow48, Fields.i, Fields.imm, e1, e2, e3, e4, Space.pick_code, Size.pick_code]
theorem sti (d a : Reg) (sp : Space) (sz : Size) (cnt : BitVec 7) :
    Statement (.sti d a sp sz cnt) := by
  show Fields.ok (Fields.i 75 d.code a.code (codeIn Space.codes sp * 512 + codeIn Size.codes sz * 128 + cnt.toNat)) ∧
      decodeFields (Fields.i 75 d.code a.code (codeIn Space.codes sp * 512 + codeIn Size.codes sz * 128 + cnt.toNat)) =
        .ok (.sti d a sp sz cnt)
  have hd := d.code_lt
  have ha := a.code_lt
  have hn := cnt.isLt
  have hs : codeIn Space.codes sp < 3 := by cases sp <;> decide
  have hz : codeIn Size.codes sz < 4 := by cases sz <;> decide
  have e1 : (codeIn Space.codes sp * 512 + codeIn Size.codes sz * 128 + cnt.toNat) / 16 * 16 +
    (codeIn Space.codes sp * 512 + codeIn Size.codes sz * 128 + cnt.toNat) % 16 =
    codeIn Space.codes sp * 512 + codeIn Size.codes sz * 128 + cnt.toNat := by omega
  have e2 : (codeIn Space.codes sp * 512 + codeIn Size.codes sz * 128 + cnt.toNat) / 512 = codeIn Space.codes sp := by omega
  have e3 : (codeIn Space.codes sp * 512 + codeIn Size.codes sz * 128 + cnt.toNat) / 128 % 4 = codeIn Size.codes sz := by omega
  have e4 : (codeIn Space.codes sp * 512 + codeIn Size.codes sz * 128 + cnt.toNat) % 128 = cnt.toNat := by omega
  refine ⟨?_, ?_⟩
  · simp only [Fields.ok, Fields.i]; omega
  · simp [decodeFields, decodeRow48, Fields.i, Fields.imm, e1, e2, e3, e4, Space.pick_code, Size.pick_code]
theorem ldn (d : Reg) (a : Reg) (b : Reg) (sp : Space) (sz : Size) : Statement (.ldn d a b sp sz) := by
  show Fields.ok (⟨76, d.code, a.code, b.code, codeIn Space.codes sp * 4 + codeIn Size.codes sz⟩ : Fields) ∧ decodeFields (⟨76, d.code, a.code, b.code, codeIn Space.codes sp * 4 + codeIn Size.codes sz⟩ : Fields) = .ok (.ldn d a b sp sz)
  have hd := d.code_lt
  have ha := a.code_lt
  have hb := b.code_lt
  refine ⟨?_, (show decodeFields (⟨76, d.code, a.code, b.code, codeIn Space.codes sp * 4 + codeIn Size.codes sz⟩ : Fields) = .ok (.ldn (Reg.ofCode d.code) (Reg.ofCode a.code) (Reg.ofCode b.code) sp sz) by cases sp <;> cases sz <;> with_unfolding_all rfl).trans (by simp only [Reg.ofCode_code])⟩
  cases sp <;> cases sz <;> (simp [Fields.ok]; try omega)
theorem atomh (d : Reg) (a : Reg) (b : Reg) (op : AtomOp) : Statement (.atomh d a b op) := by
  show Fields.ok (⟨77, d.code, a.code, b.code, codeIn AtomOp.codes op⟩ : Fields) ∧ decodeFields (⟨77, d.code, a.code, b.code, codeIn AtomOp.codes op⟩ : Fields) = .ok (.atomh d a b op)
  have hd := d.code_lt
  have ha := a.code_lt
  have hb := b.code_lt
  refine ⟨?_, (show decodeFields (⟨77, d.code, a.code, b.code, codeIn AtomOp.codes op⟩ : Fields) = .ok (.atomh (Reg.ofCode d.code) (Reg.ofCode a.code) (Reg.ofCode b.code) op) by cases op <;> with_unfolding_all rfl).trans (by simp only [Reg.ofCode_code])⟩
  cases op <;> (simp [Fields.ok]; try omega)
theorem atomp (d : Reg) (a : Reg) (b : Reg) (op : AtomOp) : Statement (.atomp d a b op) := by
  show Fields.ok (⟨78, d.code, a.code, b.code, codeIn AtomOp.codes op⟩ : Fields) ∧ decodeFields (⟨78, d.code, a.code, b.code, codeIn AtomOp.codes op⟩ : Fields) = .ok (.atomp d a b op)
  have hd := d.code_lt
  have ha := a.code_lt
  have hb := b.code_lt
  refine ⟨?_, (show decodeFields (⟨78, d.code, a.code, b.code, codeIn AtomOp.codes op⟩ : Fields) = .ok (.atomp (Reg.ofCode d.code) (Reg.ofCode a.code) (Reg.ofCode b.code) op) by cases op <;> with_unfolding_all rfl).trans (by simp only [Reg.ofCode_code])⟩
  cases op <;> (simp [Fields.ok]; try omega)
theorem acas (d : Reg) (a : Reg) (b : Reg) (sp : Space) (sz : Size) : Statement (.acas d a b sp sz) := by
  show Fields.ok (⟨79, d.code, a.code, b.code, codeIn Space.codes sp * 4 + codeIn Size.codes sz⟩ : Fields) ∧ decodeFields (⟨79, d.code, a.code, b.code, codeIn Space.codes sp * 4 + codeIn Size.codes sz⟩ : Fields) = .ok (.acas d a b sp sz)
  have hd := d.code_lt
  have ha := a.code_lt
  have hb := b.code_lt
  refine ⟨?_, (show decodeFields (⟨79, d.code, a.code, b.code, codeIn Space.codes sp * 4 + codeIn Size.codes sz⟩ : Fields) = .ok (.acas (Reg.ofCode d.code) (Reg.ofCode a.code) (Reg.ofCode b.code) sp sz) by cases sp <;> cases sz <;> with_unfolding_all rfl).trans (by simp only [Reg.ofCode_code])⟩
  cases sp <;> cases sz <;> (simp [Fields.ok]; try omega)
theorem fence (k : FenceKind) (s : Scope) : Statement (.fence k s) := by
  show Fields.ok (Fields.i 80 0 0 (codeIn FenceKind.codes k * 8 + codeIn Scope.codes s) : Fields) ∧ decodeFields (Fields.i 80 0 0 (codeIn FenceKind.codes k * 8 + codeIn Scope.codes s) : Fields) = .ok (.fence k s)
  refine ⟨?_, (show decodeFields (Fields.i 80 0 0 (codeIn FenceKind.codes k * 8 + codeIn Scope.codes s) : Fields) = .ok (.fence k s) by cases k <;> cases s <;> with_unfolding_all rfl)⟩
  cases k <;> cases s <;> (simp [Fields.ok, Fields.i]; try omega)
theorem bar (n : Fin 16) : Statement (.bar n) := by
  show Fields.ok (⟨81, 0, 0, n.val, 0⟩ : Fields) ∧ decodeFields (⟨81, 0, 0, n.val, 0⟩ : Fields) = .ok (.bar n)
  have hn := n.isLt
  refine ⟨?_, ?_⟩
  · simp [Fields.ok]; try omega
  · simp [decodeFields, decodeRow50, need, Fin.ext_iff]; try omega
theorem bari (a : Reg) (n : Fin 16) (fixed : Bool) : Statement (.bari a n fixed) := by
  show Fields.ok (⟨82, 0, a.code, n.val, fixed.toNat⟩ : Fields) ∧ decodeFields (⟨82, 0, a.code, n.val, fixed.toNat⟩ : Fields) = .ok (.bari a n fixed)
  have ha := a.code_lt
  have hn := n.isLt
  cases fixed
  all_goals
    refine ⟨?_, ?_⟩
    · simp [Fields.ok]; try omega
    · simp [decodeFields, decodeRow50, need, bit, Fin.ext_iff]; try omega
theorem bara (d : Reg) (n : Fin 16) : Statement (.bara d n) := by
  show Fields.ok (⟨83, d.code, 0, n.val, 0⟩ : Fields) ∧ decodeFields (⟨83, d.code, 0, n.val, 0⟩ : Fields) = .ok (.bara d n)
  have hd := d.code_lt
  have hn := n.isLt
  refine ⟨?_, ?_⟩
  · simp [Fields.ok]; try omega
  · simp [decodeFields, decodeRow50, need, Fin.ext_iff]; try omega
theorem barw (a : Reg) (n : Fin 16) : Statement (.barw a n) := by
  show Fields.ok (⟨84, 0, a.code, n.val, 0⟩ : Fields) ∧ decodeFields (⟨84, 0, a.code, n.val, 0⟩ : Fields) = .ok (.barw a n)
  have ha := a.code_lt
  have hn := n.isLt
  refine ⟨?_, ?_⟩
  · simp [Fields.ok]; try omega
  · simp [decodeFields, decodeRow50, need, Fin.ext_iff]; try omega
theorem ldt (d : Reg) (a : Reg) (b : Reg) (sp : Space) : Statement (.ldt d a b sp) := by
  show Fields.ok (⟨85, d.code, a.code, b.code, codeIn Space.codes sp * 4⟩ : Fields) ∧ decodeFields (⟨85, d.code, a.code, b.code, codeIn Space.codes sp * 4⟩ : Fields) = .ok (.ldt d a b sp)
  have hd := d.code_lt
  have ha := a.code_lt
  have hb := b.code_lt
  refine ⟨?_, (show decodeFields (⟨85, d.code, a.code, b.code, codeIn Space.codes sp * 4⟩ : Fields) = .ok (.ldt (Reg.ofCode d.code) (Reg.ofCode a.code) (Reg.ofCode b.code) sp) by cases sp <;> with_unfolding_all rfl).trans (by simp only [Reg.ofCode_code])⟩
  cases sp <;> (simp [Fields.ok]; try omega)
theorem stt (d : Reg) (a : Reg) (b : Reg) (sp : Space) : Statement (.stt d a b sp) := by
  show Fields.ok (⟨86, d.code, a.code, b.code, codeIn Space.codes sp * 4⟩ : Fields) ∧ decodeFields (⟨86, d.code, a.code, b.code, codeIn Space.codes sp * 4⟩ : Fields) = .ok (.stt d a b sp)
  have hd := d.code_lt
  have ha := a.code_lt
  have hb := b.code_lt
  refine ⟨?_, (show decodeFields (⟨86, d.code, a.code, b.code, codeIn Space.codes sp * 4⟩ : Fields) = .ok (.stt (Reg.ofCode d.code) (Reg.ofCode a.code) (Reg.ofCode b.code) sp) by cases sp <;> with_unfolding_all rfl).trans (by simp only [Reg.ofCode_code])⟩
  cases sp <;> (simp [Fields.ok]; try omega)
theorem layd (l : Fin 16) (a : Reg) (b : Reg) (sp : Space) : Statement (.layd l a b sp) := by
  show Fields.ok (⟨88, l.val, a.code, b.code, codeIn Space.codes sp * 4⟩ : Fields) ∧ decodeFields (⟨88, l.val, a.code, b.code, codeIn Space.codes sp * 4⟩ : Fields) = .ok (.layd l a b sp)
  have hl := l.isLt
  have ha := a.code_lt
  have hb := b.code_lt
  cases sp
  all_goals
    refine ⟨?_, ?_⟩
    · simp [Fields.ok]; try omega
    · simp [decodeFields, decodeRow58, need, Fin.ext_iff]; try omega
theorem cpy (p : Fin 8) (a : Reg) (nb : Bool) (fo : Bool) : Statement (.cpy p a nb fo) := by
  show Fields.ok (⟨89, p.val, a.code, 0, nb.toNat * 2 + fo.toNat⟩ : Fields) ∧ decodeFields (⟨89, p.val, a.code, 0, nb.toNat * 2 + fo.toNat⟩ : Fields) = .ok (.cpy p a nb fo)
  have hp := p.isLt
  have ha := a.code_lt
  cases nb <;> cases fo
  all_goals
    refine ⟨?_, ?_⟩
    · simp [Fields.ok]; try omega
    · simp [decodeFields, decodeRow58, need, bit, Fin.ext_iff]; try omega
theorem close (d : Reg) : Statement (.close d) := by
  show Fields.ok (⟨90, d.code, 0, 0, 0⟩ : Fields) ∧ decodeFields (⟨90, d.code, 0, 0, 0⟩ : Fields) = .ok (.close d)
  have hd := d.code_lt
  refine ⟨?_, (show decodeFields (⟨90, d.code, 0, 0, 0⟩ : Fields) = .ok (.close (Reg.ofCode d.code)) by with_unfolding_all rfl).trans (by simp only [Reg.ofCode_code])⟩
  (simp [Fields.ok]; try omega)
theorem waitb (a : Reg) : Statement (.waitb a) := by
  show Fields.ok (⟨91, 0, a.code, 0, 0⟩ : Fields) ∧ decodeFields (⟨91, 0, a.code, 0, 0⟩ : Fields) = .ok (.waitb a)
  have ha := a.code_lt
  refine ⟨?_, (show decodeFields (⟨91, 0, a.code, 0, 0⟩ : Fields) = .ok (.waitb (Reg.ofCode a.code)) by with_unfolding_all rfl).trans (by simp only [Reg.ofCode_code])⟩
  (simp [Fields.ok]; try omega)
theorem rrot (p : Fin 8) (a : Reg) (nb : Bool) : Statement (.rrot p a nb) := by
  show Fields.ok (⟨92, p.val, a.code, 0, nb.toNat * 2⟩ : Fields) ∧ decodeFields (⟨92, p.val, a.code, 0, nb.toNat * 2⟩ : Fields) = .ok (.rrot p a nb)
  have hp := p.isLt
  have ha := a.code_lt
  cases nb
  all_goals
    refine ⟨?_, ?_⟩
    · simp [Fields.ok]; try omega
    · simp [decodeFields, decodeRow58, need, bit, Fin.ext_iff]; try omega
theorem cpyp (p : Fin 8) (a : Reg) (nb : Bool) : Statement (.cpyp p a nb) := by
  show Fields.ok (⟨93, p.val, a.code, 0, nb.toNat * 2⟩ : Fields) ∧ decodeFields (⟨93, p.val, a.code, 0, nb.toNat * 2⟩ : Fields) = .ok (.cpyp p a nb)
  have hp := p.isLt
  have ha := a.code_lt
  cases nb
  all_goals
    refine ⟨?_, ?_⟩
    · simp [Fields.ok]; try omega
    · simp [decodeFields, decodeRow58, need, bit, Fin.ext_iff]; try omega
theorem enq (h : Fin 16) (a : Reg) : Statement (.enq h a) := by
  show Fields.ok (⟨94, h.val, a.code, 0, 0⟩ : Fields) ∧ decodeFields (⟨94, h.val, a.code, 0, 0⟩ : Fields) = .ok (.enq h a)
  have hh := h.isLt
  have ha := a.code_lt
  refine ⟨?_, ?_⟩
  · simp [Fields.ok]; try omega
  · simp [decodeFields, decodeRow58, need, Fin.ext_iff]; try omega
theorem waith (d : Reg) (h : Fin 16) : Statement (.waith d h) := by
  show Fields.ok (⟨95, d.code, h.val, 0, 0⟩ : Fields) ∧ decodeFields (⟨95, d.code, h.val, 0, 0⟩ : Fields) = .ok (.waith d h)
  have hd := d.code_lt
  have hh := h.isLt
  refine ⟨?_, ?_⟩
  · simp [Fields.ok]; try omega
  · simp [decodeFields, decodeRow58, need, Fin.ext_iff]; try omega
theorem tsth (p : Fin 8) (h : Fin 16) : Statement (.tsth p h) := by
  show Fields.ok (⟨96, p.val, h.val, 0, 0⟩ : Fields) ∧ decodeFields (⟨96, p.val, h.val, 0, 0⟩ : Fields) = .ok (.tsth p h)
  have hp := p.isLt
  have hh := h.isLt
  refine ⟨?_, ?_⟩
  · simp [Fields.ok]; try omega
  · simp [decodeFields, decodeRow60, need, Fin.ext_iff]; try omega
theorem canh (h : Fin 16) : Statement (.canh h) := by
  show Fields.ok (⟨97, 0, h.val, 0, 0⟩ : Fields) ∧ decodeFields (⟨97, 0, h.val, 0, 0⟩ : Fields) = .ok (.canh h)
  have hh := h.isLt
  refine ⟨?_, ?_⟩
  · simp [Fields.ok]; try omega
  · simp [decodeFields, decodeRow60, need, Fin.ext_iff]; try omega
theorem hsto (h : Fin 16) (a : Reg) (b : Reg) : Statement (.hsto h a b) := by
  show Fields.ok (⟨98, h.val, a.code, b.code, 0⟩ : Fields) ∧ decodeFields (⟨98, h.val, a.code, b.code, 0⟩ : Fields) = .ok (.hsto h a b)
  have hh := h.isLt
  have ha := a.code_lt
  have hb := b.code_lt
  refine ⟨?_, ?_⟩
  · simp [Fields.ok]; try omega
  · simp [decodeFields, decodeRow60, need, Fin.ext_iff]; try omega
theorem hlod (h : Fin 16) (a : Reg) (b : Reg) : Statement (.hlod h a b) := by
  show Fields.ok (⟨99, h.val, a.code, b.code, 0⟩ : Fields) ∧ decodeFields (⟨99, h.val, a.code, b.code, 0⟩ : Fields) = .ok (.hlod h a b)
  have hh := h.isLt
  have ha := a.code_lt
  have hb := b.code_lt
  refine ⟨?_, ?_⟩
  · simp [Fields.ok]; try omega
  · simp [decodeFields, decodeRow60, need, Fin.ext_iff]; try omega
theorem bina (n : Fin 16) (a : Reg) (b : Reg) : Statement (.bina n a b) := by
  show Fields.ok (⟨100, n.val, a.code, b.code, 0⟩ : Fields) ∧ decodeFields (⟨100, n.val, a.code, b.code, 0⟩ : Fields) = .ok (.bina n a b)
  have hn := n.isLt
  have ha := a.code_lt
  have hb := b.code_lt
  refine ⟨?_, ?_⟩
  · simp [Fields.ok]; try omega
  · simp [decodeFields, decodeRow60, need, Fin.ext_iff]; try omega
theorem crc (d : Reg) (a : Reg) (b : Reg) (sz : CrcSz) : Statement (.crc d a b sz) := by
  show Fields.ok (⟨101, d.code, a.code, b.code, codeIn CrcSz.codes sz⟩ : Fields) ∧ decodeFields (⟨101, d.code, a.code, b.code, codeIn CrcSz.codes sz⟩ : Fields) = .ok (.crc d a b sz)
  have hd := d.code_lt
  have ha := a.code_lt
  have hb := b.code_lt
  cases sz
  all_goals
    refine ⟨?_, ?_⟩
    · simp [Fields.ok]; try omega
    · simp [decodeFields, decodeRow60, need]; try omega
theorem bhist (d : Reg) (a : Reg) (b : Reg) (dig : Fin 4) (k : KeyKind) : Statement (.bhist d a b dig k) := by
  show Fields.ok (⟨102, d.code, a.code, b.code, dig.val * 4 + codeIn KeyKind.codes k⟩ : Fields) ∧ decodeFields (⟨102, d.code, a.code, b.code, dig.val * 4 + codeIn KeyKind.codes k⟩ : Fields) = .ok (.bhist d a b dig k)
  have hd := d.code_lt
  have ha := a.code_lt
  have hb := b.code_lt
  have hdig := dig.isLt
  cases k
  all_goals
    refine ⟨?_, ?_⟩
    · simp [Fields.ok]; try omega
    · simp [decodeFields, decodeRow60, Fin.ext_iff]; try omega
theorem bsel (p : Fin 8) (a : Reg) (b : Reg) (within : Bool) (k : KeyKind) : Statement (.bsel p a b within k) := by
  show Fields.ok (⟨103, p.val, a.code, b.code, within.toNat * 4 + codeIn KeyKind.codes k⟩ : Fields) ∧ decodeFields (⟨103, p.val, a.code, b.code, within.toNat * 4 + codeIn KeyKind.codes k⟩ : Fields) = .ok (.bsel p a b within k)
  have hp := p.isLt
  have ha := a.code_lt
  have hb := b.code_lt
  cases within <;> cases k
  all_goals
    refine ⟨?_, ?_⟩
    · simp [Fields.ok]; try omega
    · simp [decodeFields, decodeRow60, need, bit, Fin.ext_iff]; try omega
theorem oclm (d : Reg) (a : Reg) : Statement (.oclm d a) := by
  show Fields.ok (⟨104, d.code, a.code, 0, 0⟩ : Fields) ∧ decodeFields (⟨104, d.code, a.code, 0, 0⟩ : Fields) = .ok (.oclm d a)
  have hd := d.code_lt
  have ha := a.code_lt
  refine ⟨?_, ?_⟩
  · simp [Fields.ok]; try omega
  · simp [decodeFields, decodeRow68, need]; try omega
theorem orel (a : Reg) : Statement (.orel a) := by
  show Fields.ok (⟨105, 0, a.code, 0, 0⟩ : Fields) ∧ decodeFields (⟨105, 0, a.code, 0, 0⟩ : Fields) = .ok (.orel a)
  have ha := a.code_lt
  refine ⟨?_, ?_⟩
  · simp [Fields.ok]; try omega
  · simp [decodeFields, decodeRow68, need]; try omega
theorem aclm (d : Reg) (a : Reg) : Statement (.aclm d a) := by
  show Fields.ok (⟨106, d.code, a.code, 0, 0⟩ : Fields) ∧ decodeFields (⟨106, d.code, a.code, 0, 0⟩ : Fields) = .ok (.aclm d a)
  have hd := d.code_lt
  have ha := a.code_lt
  refine ⟨?_, ?_⟩
  · simp [Fields.ok]; try omega
  · simp [decodeFields, decodeRow68, need]; try omega
theorem aclmGrant (a : Reg) (b : Reg) : Statement (.aclmGrant a b) := by
  show Fields.ok (⟨106, 0, a.code, b.code, 1⟩ : Fields) ∧ decodeFields (⟨106, 0, a.code, b.code, 1⟩ : Fields) = .ok (.aclmGrant a b)
  have ha := a.code_lt
  have hb := b.code_lt
  refine ⟨?_, ?_⟩
  · simp [Fields.ok]; try omega
  · simp [decodeFields, decodeRow68, need]; try omega
theorem arel (a : Reg) : Statement (.arel a) := by
  show Fields.ok (⟨107, 0, a.code, 0, 0⟩ : Fields) ∧ decodeFields (⟨107, 0, a.code, 0, 0⟩ : Fields) = .ok (.arel a)
  have ha := a.code_lt
  refine ⟨?_, ?_⟩
  · simp [Fields.ok]; try omega
  · simp [decodeFields, decodeRow68, need]; try omega
theorem arelRevoke (a : Reg) : Statement (.arelRevoke a) := by
  show Fields.ok (⟨107, 0, a.code, 0, 1⟩ : Fields) ∧ decodeFields (⟨107, 0, a.code, 0, 1⟩ : Fields) = .ok (.arelRevoke a)
  have ha := a.code_lt
  refine ⟨?_, ?_⟩
  · simp [Fields.ok]; try omega
  · simp [decodeFields, decodeRow68, need]; try omega
theorem mma (d : Reg) (a : Reg) (b : Reg) (tb : Bool) (ov : Bool) : Statement (.mma d a b tb ov) := by
  show Fields.ok (⟨108, d.code, a.code, b.code, tb.toNat * 2 + ov.toNat⟩ : Fields) ∧ decodeFields (⟨108, d.code, a.code, b.code, tb.toNat * 2 + ov.toNat⟩ : Fields) = .ok (.mma d a b tb ov)
  have hd := d.code_lt
  have ha := a.code_lt
  have hb := b.code_lt
  cases tb <;> cases ov
  all_goals
    refine ⟨?_, ?_⟩
    · simp [Fields.ok]; try omega
    · simp [decodeFields, decodeRow68, bit]; try omega
theorem mmaa (d : Reg) (a : Reg) (b : Reg) (ov : Bool) : Statement (.mmaa d a b ov) := by
  show Fields.ok (⟨108, d.code, a.code, b.code, 4 + ov.toNat⟩ : Fields) ∧ decodeFields (⟨108, d.code, a.code, b.code, 4 + ov.toNat⟩ : Fields) = .ok (.mmaa d a b ov)
  have hd := d.code_lt
  have ha := a.code_lt
  have hb := b.code_lt
  cases ov
  all_goals
    refine ⟨?_, ?_⟩
    · simp [Fields.ok]; try omega
    · simp [decodeFields, decodeRow68, bit]; try omega
theorem mmsp (d : Reg) (a : Reg) (b : Reg) (tb : Bool) (ov : Bool) : Statement (.mmsp d a b tb ov) := by
  show Fields.ok (⟨109, d.code, a.code, b.code, tb.toNat * 2 + ov.toNat⟩ : Fields) ∧ decodeFields (⟨109, d.code, a.code, b.code, tb.toNat * 2 + ov.toNat⟩ : Fields) = .ok (.mmsp d a b tb ov)
  have hd := d.code_lt
  have ha := a.code_lt
  have hb := b.code_lt
  cases tb <;> cases ov
  all_goals
    refine ⟨?_, ?_⟩
    · simp [Fields.ok]; try omega
    · simp [decodeFields, decodeRow68, need, bit]; try omega
theorem publ (d : Reg) (a : Reg) : Statement (.publ d a) := by
  show Fields.ok (⟨110, d.code, a.code, 0, 0⟩ : Fields) ∧ decodeFields (⟨110, d.code, a.code, 0, 0⟩ : Fields) = .ok (.publ d a)
  have hd := d.code_lt
  have ha := a.code_lt
  refine ⟨?_, ?_⟩
  · simp [Fields.ok]; try omega
  · simp [decodeFields, decodeRow68, need]; try omega
theorem publSeal (a : Reg) : Statement (.publSeal a) := by
  show Fields.ok (⟨110, 0, a.code, 0, 1⟩ : Fields) ∧ decodeFields (⟨110, 0, a.code, 0, 1⟩ : Fields) = .ok (.publSeal a)
  have ha := a.code_lt
  refine ⟨?_, ?_⟩
  · simp [Fields.ok]; try omega
  · simp [decodeFields, decodeRow68, need]; try omega
theorem setl (a : Reg) : Statement (.setl a) := by
  show Fields.ok (⟨111, 0, a.code, 0, 0⟩ : Fields) ∧ decodeFields (⟨111, 0, a.code, 0, 0⟩ : Fields) = .ok (.setl a)
  have ha := a.code_lt
  refine ⟨?_, ?_⟩
  · simp [Fields.ok]; try omega
  · simp [decodeFields, decodeRow68, need]; try omega
theorem alin (d : Reg) (a : Reg) (b : Reg) (op : AlinOp) : Statement (.alin d a b op) := by
  show Fields.ok (⟨112, d.code, a.code, b.code, codeIn AlinOp.codes op⟩ : Fields) ∧ decodeFields (⟨112, d.code, a.code, b.code, codeIn AlinOp.codes op⟩ : Fields) = .ok (.alin d a b op)
  have hd := d.code_lt
  have ha := a.code_lt
  have hb := b.code_lt
  cases op
  all_goals
    refine ⟨?_, ?_⟩
    · simp [Fields.ok]; try omega
    · simp [decodeFields, decodeRow70, need]; try omega
theorem adrn (d : Reg) (a : Reg) (b : Reg) : Statement (.adrn d a b) := by
  show Fields.ok (⟨113, d.code, a.code, b.code, 0⟩ : Fields) ∧ decodeFields (⟨113, d.code, a.code, b.code, 0⟩ : Fields) = .ok (.adrn d a b)
  have hd := d.code_lt
  have ha := a.code_lt
  have hb := b.code_lt
  refine ⟨?_, ?_⟩
  · simp [Fields.ok]; try omega
  · simp [decodeFields, decodeRow70, need]; try omega
theorem afil (a : Reg) (b : Reg) : Statement (.afil a b) := by
  show Fields.ok (⟨114, 0, a.code, b.code, 0⟩ : Fields) ∧ decodeFields (⟨114, 0, a.code, b.code, 0⟩ : Fields) = .ok (.afil a b)
  have ha := a.code_lt
  have hb := b.code_lt
  refine ⟨?_, ?_⟩
  · simp [Fields.ok]; try omega
  · simp [decodeFields, decodeRow70, need]; try omega
theorem old (d : Reg) (a : Reg) (b : Reg) : Statement (.old d a b) := by
  show Fields.ok (⟨115, d.code, a.code, b.code, 0⟩ : Fields) ∧ decodeFields (⟨115, d.code, a.code, b.code, 0⟩ : Fields) = .ok (.old d a b)
  have hd := d.code_lt
  have ha := a.code_lt
  have hb := b.code_lt
  refine ⟨?_, ?_⟩
  · simp [Fields.ok]; try omega
  · simp [decodeFields, decodeRow70, need]; try omega
theorem sltg (a : Reg) (b : Reg) : Statement (.sltg a b) := by
  show Fields.ok (⟨116, 0, a.code, b.code, 0⟩ : Fields) ∧ decodeFields (⟨116, 0, a.code, b.code, 0⟩ : Fields) = .ok (.sltg a b)
  have ha := a.code_lt
  have hb := b.code_lt
  refine ⟨?_, ?_⟩
  · simp [Fields.ok]; try omega
  · simp [decodeFields, decodeRow70, need]; try omega
theorem ast (d : Reg) (a : Reg) (b : Reg) (sp : Space) : Statement (.ast d a b sp) := by
  show Fields.ok (⟨117, d.code, a.code, b.code, codeIn Space.codes sp * 4⟩ : Fields) ∧ decodeFields (⟨117, d.code, a.code, b.code, codeIn Space.codes sp * 4⟩ : Fields) = .ok (.ast d a b sp)
  have hd := d.code_lt
  have ha := a.code_lt
  have hb := b.code_lt
  cases sp
  all_goals
    refine ⟨?_, ?_⟩
    · simp [Fields.ok]; try omega
    · simp [decodeFields, decodeRow70, need]; try omega
theorem ost (d : Reg) (a : Reg) (b : Reg) (sat : Bool) (fmt : OstFmt) : Statement (.ost d a b sat fmt) := by
  show Fields.ok (⟨118, d.code, a.code, b.code, sat.toNat * 8 + codeIn OstFmt.codes fmt⟩ : Fields) ∧ decodeFields (⟨118, d.code, a.code, b.code, sat.toNat * 8 + codeIn OstFmt.codes fmt⟩ : Fields) = .ok (.ost d a b sat fmt)
  have hd := d.code_lt
  have ha := a.code_lt
  have hb := b.code_lt
  cases sat <;> cases fmt
  all_goals
    refine ⟨?_, ?_⟩
    · simp [Fields.ok]; try omega
    · simp [decodeFields, decodeRow70, bit]; try omega
theorem perf (d : Reg) (a : Reg) (b : Reg) (neg : Bool) (p : Fin 8) : Statement (.perf d a b neg p) := by
  show Fields.ok (⟨120, d.code, a.code, b.code, neg.toNat * 8 + p.val⟩ : Fields) ∧ decodeFields (⟨120, d.code, a.code, b.code, neg.toNat * 8 + p.val⟩ : Fields) = .ok (.perf d a b neg p)
  have hd := d.code_lt
  have ha := a.code_lt
  have hb := b.code_lt
  have hp := p.isLt
  cases neg
  all_goals
    refine ⟨?_, ?_⟩
    · simp [Fields.ok]; try omega
    · simp [decodeFields, decodeRow78, bit, Fin.ext_iff]; try omega
theorem hpsh (d : Reg) (a : Reg) (b : Reg) : Statement (.hpsh d a b) := by
  show Fields.ok (⟨121, d.code, a.code, b.code, 0⟩ : Fields) ∧ decodeFields (⟨121, d.code, a.code, b.code, 0⟩ : Fields) = .ok (.hpsh d a b)
  have hd := d.code_lt
  have ha := a.code_lt
  have hb := b.code_lt
  refine ⟨?_, ?_⟩
  · simp [Fields.ok]; try omega
  · simp [decodeFields, decodeRow78, need]; try omega
theorem hpop  : Statement .hpop := by
  show Fields.ok (⟨122, 0, 0, 0, 0⟩ : Fields) ∧ decodeFields (⟨122, 0, 0, 0, 0⟩ : Fields) = .ok .hpop
  refine ⟨?_, ?_⟩
  · simp [Fields.ok]; try omega
  · simp [decodeFields, decodeRow78, need]; try omega
theorem rsum (k : Fin 4) (b : Reg) (act : RsumAct) : Statement (.rsum k b act) := by
  show Fields.ok (⟨123, 0, k.val, b.code, codeIn RsumAct.codes act⟩ : Fields) ∧ decodeFields (⟨123, 0, k.val, b.code, codeIn RsumAct.codes act⟩ : Fields) = .ok (.rsum k b act)
  have hk := k.isLt
  have hb := b.code_lt
  cases act
  all_goals
    refine ⟨?_, ?_⟩
    · simp [Fields.ok]; try omega
    · simp [decodeFields, decodeRow78, need, Fin.ext_iff]; try omega
theorem tokd (k : Fin 4) : Statement (.tokd k) := by
  show Fields.ok (⟨124, 0, k.val, 0, 0⟩ : Fields) ∧ decodeFields (⟨124, 0, k.val, 0, 0⟩ : Fields) = .ok (.tokd k)
  have hk := k.isLt
  refine ⟨?_, ?_⟩
  · simp [Fields.ok]; try omega
  · simp [decodeFields, decodeRow78, need, Fin.ext_iff]; try omega
theorem tokdAbort (k : Fin 4) : Statement (.tokdAbort k) := by
  show Fields.ok (⟨124, 0, k.val, 0, 1⟩ : Fields) ∧ decodeFields (⟨124, 0, k.val, 0, 1⟩ : Fields) = .ok (.tokdAbort k)
  have hk := k.isLt
  refine ⟨?_, ?_⟩
  · simp [Fields.ok]; try omega
  · simp [decodeFields, decodeRow78, need, Fin.ext_iff]; try omega
theorem tokdMov (j : Fin 4) (k : Fin 4) : Statement (.tokdMov j k) := by
  show Fields.ok (⟨124, j.val, k.val, 0, 2⟩ : Fields) ∧ decodeFields (⟨124, j.val, k.val, 0, 2⟩ : Fields) = .ok (.tokdMov j k)
  have hj := j.isLt
  have hk := k.isLt
  refine ⟨?_, ?_⟩
  · simp [Fields.ok]; try omega
  · simp [decodeFields, decodeRow78, need, Fin.ext_iff]; try omega
theorem sysRdsr (d : Reg) (sel : BitVec 7) : Statement (.sysRdsr d sel) := by
  show Fields.ok (⟨125, d.code, 0, sel.toNat, 0⟩ : Fields) ∧ decodeFields (⟨125, d.code, 0, sel.toNat, 0⟩ : Fields) = .ok (.sysRdsr d sel)
  have hd := d.code_lt
  have hsel := sel.isLt
  refine ⟨?_, ?_⟩
  · simp [Fields.ok]; try omega
  · simp [decodeFields, decodeRow78, need, BitVec.toNat_eq]; try omega
theorem sysWrsr (a : Reg) (sel : BitVec 7) : Statement (.sysWrsr a sel) := by
  show Fields.ok (⟨125, 0, a.code, sel.toNat, 1⟩ : Fields) ∧ decodeFields (⟨125, 0, a.code, sel.toNat, 1⟩ : Fields) = .ok (.sysWrsr a sel)
  have ha := a.code_lt
  have hsel := sel.isLt
  refine ⟨?_, ?_⟩
  · simp [Fields.ok]; try omega
  · simp [decodeFields, decodeRow78, need, BitVec.toNat_eq]; try omega
theorem sysStamp (a : Reg) : Statement (.sysStamp a) := by
  show Fields.ok (⟨125, 0, a.code, 0, 2⟩ : Fields) ∧ decodeFields (⟨125, 0, a.code, 0, 2⟩ : Fields) = .ok (.sysStamp a)
  have ha := a.code_lt
  refine ⟨?_, ?_⟩
  · simp [Fields.ok]; try omega
  · simp [decodeFields, decodeRow78, need]; try omega
theorem sysProf (a : Reg) : Statement (.sysProf a) := by
  show Fields.ok (⟨125, 0, a.code, 0, 3⟩ : Fields) ∧ decodeFields (⟨125, 0, a.code, 0, 3⟩ : Fields) = .ok (.sysProf a)
  have ha := a.code_lt
  refine ⟨?_, ?_⟩
  · simp [Fields.ok]; try omega
  · simp [decodeFields, decodeRow78, need]; try omega
theorem sysTime (d : Reg) : Statement (.sysTime d) := by
  show Fields.ok (⟨125, d.code, 0, 0, 4⟩ : Fields) ∧ decodeFields (⟨125, d.code, 0, 0, 4⟩ : Fields) = .ok (.sysTime d)
  have hd := d.code_lt
  refine ⟨?_, ?_⟩
  · simp [Fields.ok]; try omega
  · simp [decodeFields, decodeRow78, need]; try omega
theorem sysFlags (d : Reg) (a : Reg) (rd : Bool) : Statement (.sysFlags d a rd) := by
  show Fields.ok (⟨125, d.code, a.code, 0, rd.toNat * 8 + 5⟩ : Fields) ∧ decodeFields (⟨125, d.code, a.code, 0, rd.toNat * 8 + 5⟩ : Fields) = .ok (.sysFlags d a rd)
  have hd := d.code_lt
  have ha := a.code_lt
  cases rd
  all_goals
    refine ⟨?_, ?_⟩
    · simp [Fields.ok]; try omega
    · simp [decodeFields, decodeRow78, need]; try omega
theorem whalt  : Statement .whalt := by
  show (((⟨0, 0, 0, 0, 0⟩ : WFields)).op < 64 ∧ ((⟨0, 0, 0, 0, 0⟩ : WFields)).d < 16 ∧ ((⟨0, 0, 0, 0, 0⟩ : WFields)).a < 16 ∧ ((⟨0, 0, 0, 0, 0⟩ : WFields)).b < 16 ∧ ((⟨0, 0, 0, 0, 0⟩ : WFields)).imm < 2 ^ 14) ∧
    decodeWFields (⟨0, 0, 0, 0, 0⟩ : WFields) = .ok .whalt
  refine ⟨?_, ?_⟩
  · simp; try omega
  · simp [decodeWFields, decodeWRow0, need, Fin.ext_iff, BitVec.toNat_eq]; try omega
theorem wli (d : Fin 16) (imm : BitVec 14) : Statement (.wli d imm) := by
  show (((⟨1, d.val, 0, 0, imm.toNat⟩ : WFields)).op < 64 ∧ ((⟨1, d.val, 0, 0, imm.toNat⟩ : WFields)).d < 16 ∧ ((⟨1, d.val, 0, 0, imm.toNat⟩ : WFields)).a < 16 ∧ ((⟨1, d.val, 0, 0, imm.toNat⟩ : WFields)).b < 16 ∧ ((⟨1, d.val, 0, 0, imm.toNat⟩ : WFields)).imm < 2 ^ 14) ∧
    decodeWFields (⟨1, d.val, 0, 0, imm.toNat⟩ : WFields) = .ok (.wli d imm)
  have hd := d.isLt
  have himm := imm.isLt
  refine ⟨?_, ?_⟩
  · simp; try omega
  · simp [decodeWFields, decodeWRow0, need, Fin.ext_iff, BitVec.toNat_eq]; try omega
theorem wadd (d : Fin 16) (a : Fin 16) (b : Fin 16) (imm : BitVec 14) : Statement (.wadd d a b imm) := by
  show (((⟨2, d.val, a.val, b.val, imm.toNat⟩ : WFields)).op < 64 ∧ ((⟨2, d.val, a.val, b.val, imm.toNat⟩ : WFields)).d < 16 ∧ ((⟨2, d.val, a.val, b.val, imm.toNat⟩ : WFields)).a < 16 ∧ ((⟨2, d.val, a.val, b.val, imm.toNat⟩ : WFields)).b < 16 ∧ ((⟨2, d.val, a.val, b.val, imm.toNat⟩ : WFields)).imm < 2 ^ 14) ∧
    decodeWFields (⟨2, d.val, a.val, b.val, imm.toNat⟩ : WFields) = .ok (.wadd d a b imm)
  have hd := d.isLt
  have ha := a.isLt
  have hb := b.isLt
  have himm := imm.isLt
  refine ⟨?_, ?_⟩
  · simp; try omega
  · simp [decodeWFields, decodeWRow0, need, Fin.ext_iff, BitVec.toNat_eq]; try omega
theorem wsub (d : Fin 16) (a : Fin 16) (b : Fin 16) : Statement (.wsub d a b) := by
  show (((⟨3, d.val, a.val, b.val, 0⟩ : WFields)).op < 64 ∧ ((⟨3, d.val, a.val, b.val, 0⟩ : WFields)).d < 16 ∧ ((⟨3, d.val, a.val, b.val, 0⟩ : WFields)).a < 16 ∧ ((⟨3, d.val, a.val, b.val, 0⟩ : WFields)).b < 16 ∧ ((⟨3, d.val, a.val, b.val, 0⟩ : WFields)).imm < 2 ^ 14) ∧
    decodeWFields (⟨3, d.val, a.val, b.val, 0⟩ : WFields) = .ok (.wsub d a b)
  have hd := d.isLt
  have ha := a.isLt
  have hb := b.isLt
  refine ⟨?_, ?_⟩
  · simp; try omega
  · simp [decodeWFields, decodeWRow0, need, Fin.ext_iff, BitVec.toNat_eq]; try omega
theorem wmul (d : Fin 16) (a : Fin 16) (b : Fin 16) : Statement (.wmul d a b) := by
  show (((⟨4, d.val, a.val, b.val, 0⟩ : WFields)).op < 64 ∧ ((⟨4, d.val, a.val, b.val, 0⟩ : WFields)).d < 16 ∧ ((⟨4, d.val, a.val, b.val, 0⟩ : WFields)).a < 16 ∧ ((⟨4, d.val, a.val, b.val, 0⟩ : WFields)).b < 16 ∧ ((⟨4, d.val, a.val, b.val, 0⟩ : WFields)).imm < 2 ^ 14) ∧
    decodeWFields (⟨4, d.val, a.val, b.val, 0⟩ : WFields) = .ok (.wmul d a b)
  have hd := d.isLt
  have ha := a.isLt
  have hb := b.isLt
  refine ⟨?_, ?_⟩
  · simp; try omega
  · simp [decodeWFields, decodeWRow0, need, Fin.ext_iff, BitVec.toNat_eq]; try omega
theorem wshl (d : Fin 16) (a : Fin 16) (n : Fin 32) : Statement (.wshl d a n) := by
  show (((⟨5, d.val, a.val, 0, n.val⟩ : WFields)).op < 64 ∧ ((⟨5, d.val, a.val, 0, n.val⟩ : WFields)).d < 16 ∧ ((⟨5, d.val, a.val, 0, n.val⟩ : WFields)).a < 16 ∧ ((⟨5, d.val, a.val, 0, n.val⟩ : WFields)).b < 16 ∧ ((⟨5, d.val, a.val, 0, n.val⟩ : WFields)).imm < 2 ^ 14) ∧
    decodeWFields (⟨5, d.val, a.val, 0, n.val⟩ : WFields) = .ok (.wshl d a n)
  have hd := d.isLt
  have ha := a.isLt
  have hn := n.isLt
  refine ⟨?_, ?_⟩
  · simp; try omega
  · simp [decodeWFields, decodeWRow0, need, Fin.ext_iff, BitVec.toNat_eq]; try omega
theorem wshr (d : Fin 16) (a : Fin 16) (n : Fin 32) : Statement (.wshr d a n) := by
  show (((⟨6, d.val, a.val, 0, n.val⟩ : WFields)).op < 64 ∧ ((⟨6, d.val, a.val, 0, n.val⟩ : WFields)).d < 16 ∧ ((⟨6, d.val, a.val, 0, n.val⟩ : WFields)).a < 16 ∧ ((⟨6, d.val, a.val, 0, n.val⟩ : WFields)).b < 16 ∧ ((⟨6, d.val, a.val, 0, n.val⟩ : WFields)).imm < 2 ^ 14) ∧
    decodeWFields (⟨6, d.val, a.val, 0, n.val⟩ : WFields) = .ok (.wshr d a n)
  have hd := d.isLt
  have ha := a.isLt
  have hn := n.isLt
  refine ⟨?_, ?_⟩
  · simp; try omega
  · simp [decodeWFields, decodeWRow0, need, Fin.ext_iff, BitVec.toNat_eq]; try omega
theorem wand (d : Fin 16) (a : Fin 16) (b : Fin 16) : Statement (.wand d a b) := by
  show (((⟨7, d.val, a.val, b.val, 0⟩ : WFields)).op < 64 ∧ ((⟨7, d.val, a.val, b.val, 0⟩ : WFields)).d < 16 ∧ ((⟨7, d.val, a.val, b.val, 0⟩ : WFields)).a < 16 ∧ ((⟨7, d.val, a.val, b.val, 0⟩ : WFields)).b < 16 ∧ ((⟨7, d.val, a.val, b.val, 0⟩ : WFields)).imm < 2 ^ 14) ∧
    decodeWFields (⟨7, d.val, a.val, b.val, 0⟩ : WFields) = .ok (.wand d a b)
  have hd := d.isLt
  have ha := a.isLt
  have hb := b.isLt
  refine ⟨?_, ?_⟩
  · simp; try omega
  · simp [decodeWFields, decodeWRow0, need, Fin.ext_iff, BitVec.toNat_eq]; try omega
theorem wldw (d : Fin 16) (a : Fin 16) (sp : Fin 16) (imm : BitVec 14) : Statement (.wldw d a sp imm) := by
  show (((⟨8, d.val, a.val, sp.val, imm.toNat⟩ : WFields)).op < 64 ∧ ((⟨8, d.val, a.val, sp.val, imm.toNat⟩ : WFields)).d < 16 ∧ ((⟨8, d.val, a.val, sp.val, imm.toNat⟩ : WFields)).a < 16 ∧ ((⟨8, d.val, a.val, sp.val, imm.toNat⟩ : WFields)).b < 16 ∧ ((⟨8, d.val, a.val, sp.val, imm.toNat⟩ : WFields)).imm < 2 ^ 14) ∧
    decodeWFields (⟨8, d.val, a.val, sp.val, imm.toNat⟩ : WFields) = .ok (.wldw d a sp imm)
  have hd := d.isLt
  have ha := a.isLt
  have hsp := sp.isLt
  have himm := imm.isLt
  refine ⟨?_, ?_⟩
  · simp; try omega
  · simp [decodeWFields, decodeWRow1, need, Fin.ext_iff, BitVec.toNat_eq]; try omega
theorem wldh (d : Fin 16) (a : Fin 16) (sp : Fin 16) (imm : BitVec 14) : Statement (.wldh d a sp imm) := by
  show (((⟨9, d.val, a.val, sp.val, imm.toNat⟩ : WFields)).op < 64 ∧ ((⟨9, d.val, a.val, sp.val, imm.toNat⟩ : WFields)).d < 16 ∧ ((⟨9, d.val, a.val, sp.val, imm.toNat⟩ : WFields)).a < 16 ∧ ((⟨9, d.val, a.val, sp.val, imm.toNat⟩ : WFields)).b < 16 ∧ ((⟨9, d.val, a.val, sp.val, imm.toNat⟩ : WFields)).imm < 2 ^ 14) ∧
    decodeWFields (⟨9, d.val, a.val, sp.val, imm.toNat⟩ : WFields) = .ok (.wldh d a sp imm)
  have hd := d.isLt
  have ha := a.isLt
  have hsp := sp.isLt
  have himm := imm.isLt
  refine ⟨?_, ?_⟩
  · simp; try omega
  · simp [decodeWFields, decodeWRow1, need, Fin.ext_iff, BitVec.toNat_eq]; try omega
theorem wldb (d : Fin 16) (a : Fin 16) (sp : Fin 16) (imm : BitVec 14) : Statement (.wldb d a sp imm) := by
  show (((⟨10, d.val, a.val, sp.val, imm.toNat⟩ : WFields)).op < 64 ∧ ((⟨10, d.val, a.val, sp.val, imm.toNat⟩ : WFields)).d < 16 ∧ ((⟨10, d.val, a.val, sp.val, imm.toNat⟩ : WFields)).a < 16 ∧ ((⟨10, d.val, a.val, sp.val, imm.toNat⟩ : WFields)).b < 16 ∧ ((⟨10, d.val, a.val, sp.val, imm.toNat⟩ : WFields)).imm < 2 ^ 14) ∧
    decodeWFields (⟨10, d.val, a.val, sp.val, imm.toNat⟩ : WFields) = .ok (.wldb d a sp imm)
  have hd := d.isLt
  have ha := a.isLt
  have hsp := sp.isLt
  have himm := imm.isLt
  refine ⟨?_, ?_⟩
  · simp; try omega
  · simp [decodeWFields, decodeWRow1, need, Fin.ext_iff, BitVec.toNat_eq]; try omega
theorem wbeq (a : Fin 16) (b : Fin 16) (imm : BitVec 14) : Statement (.wbeq a b imm) := by
  show (((⟨11, 0, a.val, b.val, imm.toNat⟩ : WFields)).op < 64 ∧ ((⟨11, 0, a.val, b.val, imm.toNat⟩ : WFields)).d < 16 ∧ ((⟨11, 0, a.val, b.val, imm.toNat⟩ : WFields)).a < 16 ∧ ((⟨11, 0, a.val, b.val, imm.toNat⟩ : WFields)).b < 16 ∧ ((⟨11, 0, a.val, b.val, imm.toNat⟩ : WFields)).imm < 2 ^ 14) ∧
    decodeWFields (⟨11, 0, a.val, b.val, imm.toNat⟩ : WFields) = .ok (.wbeq a b imm)
  have ha := a.isLt
  have hb := b.isLt
  have himm := imm.isLt
  refine ⟨?_, ?_⟩
  · simp; try omega
  · simp [decodeWFields, decodeWRow1, need, Fin.ext_iff, BitVec.toNat_eq]; try omega
theorem wbne (a : Fin 16) (b : Fin 16) (imm : BitVec 14) : Statement (.wbne a b imm) := by
  show (((⟨12, 0, a.val, b.val, imm.toNat⟩ : WFields)).op < 64 ∧ ((⟨12, 0, a.val, b.val, imm.toNat⟩ : WFields)).d < 16 ∧ ((⟨12, 0, a.val, b.val, imm.toNat⟩ : WFields)).a < 16 ∧ ((⟨12, 0, a.val, b.val, imm.toNat⟩ : WFields)).b < 16 ∧ ((⟨12, 0, a.val, b.val, imm.toNat⟩ : WFields)).imm < 2 ^ 14) ∧
    decodeWFields (⟨12, 0, a.val, b.val, imm.toNat⟩ : WFields) = .ok (.wbne a b imm)
  have ha := a.isLt
  have hb := b.isLt
  have himm := imm.isLt
  refine ⟨?_, ?_⟩
  · simp; try omega
  · simp [decodeWFields, decodeWRow1, need, Fin.ext_iff, BitVec.toNat_eq]; try omega
theorem wblo (a : Fin 16) (b : Fin 16) (imm : BitVec 14) : Statement (.wblo a b imm) := by
  show (((⟨13, 0, a.val, b.val, imm.toNat⟩ : WFields)).op < 64 ∧ ((⟨13, 0, a.val, b.val, imm.toNat⟩ : WFields)).d < 16 ∧ ((⟨13, 0, a.val, b.val, imm.toNat⟩ : WFields)).a < 16 ∧ ((⟨13, 0, a.val, b.val, imm.toNat⟩ : WFields)).b < 16 ∧ ((⟨13, 0, a.val, b.val, imm.toNat⟩ : WFields)).imm < 2 ^ 14) ∧
    decodeWFields (⟨13, 0, a.val, b.val, imm.toNat⟩ : WFields) = .ok (.wblo a b imm)
  have ha := a.isLt
  have hb := b.isLt
  have himm := imm.isLt
  refine ⟨?_, ?_⟩
  · simp; try omega
  · simp [decodeWFields, decodeWRow1, need, Fin.ext_iff, BitVec.toNat_eq]; try omega
theorem wbhs (a : Fin 16) (b : Fin 16) (imm : BitVec 14) : Statement (.wbhs a b imm) := by
  show (((⟨14, 0, a.val, b.val, imm.toNat⟩ : WFields)).op < 64 ∧ ((⟨14, 0, a.val, b.val, imm.toNat⟩ : WFields)).d < 16 ∧ ((⟨14, 0, a.val, b.val, imm.toNat⟩ : WFields)).a < 16 ∧ ((⟨14, 0, a.val, b.val, imm.toNat⟩ : WFields)).b < 16 ∧ ((⟨14, 0, a.val, b.val, imm.toNat⟩ : WFields)).imm < 2 ^ 14) ∧
    decodeWFields (⟨14, 0, a.val, b.val, imm.toNat⟩ : WFields) = .ok (.wbhs a b imm)
  have ha := a.isLt
  have hb := b.isLt
  have himm := imm.isLt
  refine ⟨?_, ?_⟩
  · simp; try omega
  · simp [decodeWFields, decodeWRow1, need, Fin.ext_iff, BitVec.toNat_eq]; try omega
theorem wjmp (imm : BitVec 14) : Statement (.wjmp imm) := by
  show (((⟨15, 0, 0, 0, imm.toNat⟩ : WFields)).op < 64 ∧ ((⟨15, 0, 0, 0, imm.toNat⟩ : WFields)).d < 16 ∧ ((⟨15, 0, 0, 0, imm.toNat⟩ : WFields)).a < 16 ∧ ((⟨15, 0, 0, 0, imm.toNat⟩ : WFields)).b < 16 ∧ ((⟨15, 0, 0, 0, imm.toNat⟩ : WFields)).imm < 2 ^ 14) ∧
    decodeWFields (⟨15, 0, 0, 0, imm.toNat⟩ : WFields) = .ok (.wjmp imm)
  have himm := imm.isLt
  refine ⟨?_, ?_⟩
  · simp; try omega
  · simp [decodeWFields, decodeWRow1, need, Fin.ext_iff, BitVec.toNat_eq]; try omega
theorem wtgt (a : Fin 16) (b : Fin 16) : Statement (.wtgt a b) := by
  show (((⟨16, 0, a.val, b.val, 0⟩ : WFields)).op < 64 ∧ ((⟨16, 0, a.val, b.val, 0⟩ : WFields)).d < 16 ∧ ((⟨16, 0, a.val, b.val, 0⟩ : WFields)).a < 16 ∧ ((⟨16, 0, a.val, b.val, 0⟩ : WFields)).b < 16 ∧ ((⟨16, 0, a.val, b.val, 0⟩ : WFields)).imm < 2 ^ 14) ∧
    decodeWFields (⟨16, 0, a.val, b.val, 0⟩ : WFields) = .ok (.wtgt a b)
  have ha := a.isLt
  have hb := b.isLt
  refine ⟨?_, ?_⟩
  · simp; try omega
  · simp [decodeWFields, decodeWRow2, need, Fin.ext_iff, BitVec.toNat_eq]; try omega
theorem wzero  : Statement .wzero := by
  show (((⟨17, 0, 0, 0, 0⟩ : WFields)).op < 64 ∧ ((⟨17, 0, 0, 0, 0⟩ : WFields)).d < 16 ∧ ((⟨17, 0, 0, 0, 0⟩ : WFields)).a < 16 ∧ ((⟨17, 0, 0, 0, 0⟩ : WFields)).b < 16 ∧ ((⟨17, 0, 0, 0, 0⟩ : WFields)).imm < 2 ^ 14) ∧
    decodeWFields (⟨17, 0, 0, 0, 0⟩ : WFields) = .ok .wzero
  refine ⟨?_, ?_⟩
  · simp; try omega
  · simp [decodeWFields, decodeWRow2, need, Fin.ext_iff, BitVec.toNat_eq]; try omega
theorem wemit (a : Fin 16) (b : Fin 16) : Statement (.wemit a b) := by
  show (((⟨18, 0, a.val, b.val, 0⟩ : WFields)).op < 64 ∧ ((⟨18, 0, a.val, b.val, 0⟩ : WFields)).d < 16 ∧ ((⟨18, 0, a.val, b.val, 0⟩ : WFields)).a < 16 ∧ ((⟨18, 0, a.val, b.val, 0⟩ : WFields)).b < 16 ∧ ((⟨18, 0, a.val, b.val, 0⟩ : WFields)).imm < 2 ^ 14) ∧
    decodeWFields (⟨18, 0, a.val, b.val, 0⟩ : WFields) = .ok (.wemit a b)
  have ha := a.isLt
  have hb := b.isLt
  refine ⟨?_, ?_⟩
  · simp; try omega
  · simp [decodeWFields, decodeWRow2, need, Fin.ext_iff, BitVec.toNat_eq]; try omega
theorem wrun (d : Fin 16) (a : Fin 16) (b : Fin 16) (sp : Fin 16) : Statement (.wrun d a b sp) := by
  show (((⟨19, d.val, a.val, b.val, sp.val⟩ : WFields)).op < 64 ∧ ((⟨19, d.val, a.val, b.val, sp.val⟩ : WFields)).d < 16 ∧ ((⟨19, d.val, a.val, b.val, sp.val⟩ : WFields)).a < 16 ∧ ((⟨19, d.val, a.val, b.val, sp.val⟩ : WFields)).b < 16 ∧ ((⟨19, d.val, a.val, b.val, sp.val⟩ : WFields)).imm < 2 ^ 14) ∧
    decodeWFields (⟨19, d.val, a.val, b.val, sp.val⟩ : WFields) = .ok (.wrun d a b sp)
  have hd := d.isLt
  have ha := a.isLt
  have hb := b.isLt
  have hsp := sp.isLt
  refine ⟨?_, ?_⟩
  · simp; try omega
  · simp [decodeWFields, decodeWRow2, need, Fin.ext_iff, BitVec.toNat_eq]; try omega
theorem warv (n : Fin 16) : Statement (.warv n) := by
  show (((⟨20, 0, 0, 0, n.val⟩ : WFields)).op < 64 ∧ ((⟨20, 0, 0, 0, n.val⟩ : WFields)).d < 16 ∧ ((⟨20, 0, 0, 0, n.val⟩ : WFields)).a < 16 ∧ ((⟨20, 0, 0, 0, n.val⟩ : WFields)).b < 16 ∧ ((⟨20, 0, 0, 0, n.val⟩ : WFields)).imm < 2 ^ 14) ∧
    decodeWFields (⟨20, 0, 0, 0, n.val⟩ : WFields) = .ok (.warv n)
  have hn := n.isLt
  refine ⟨?_, ?_⟩
  · simp; try omega
  · simp [decodeWFields, decodeWRow2, need, Fin.ext_iff, BitVec.toNat_eq]; try omega
theorem wfault (n : BitVec 14) : Statement (.wfault n) := by
  show (((⟨21, 0, 0, 0, n.toNat⟩ : WFields)).op < 64 ∧ ((⟨21, 0, 0, 0, n.toNat⟩ : WFields)).d < 16 ∧ ((⟨21, 0, 0, 0, n.toNat⟩ : WFields)).a < 16 ∧ ((⟨21, 0, 0, 0, n.toNat⟩ : WFields)).b < 16 ∧ ((⟨21, 0, 0, 0, n.toNat⟩ : WFields)).imm < 2 ^ 14) ∧
    decodeWFields (⟨21, 0, 0, 0, n.toNat⟩ : WFields) = .ok (.wfault n)
  have hn := n.isLt
  refine ⟨?_, ?_⟩
  · simp; try omega
  · simp [decodeWFields, decodeWRow2, need, Fin.ext_iff, BitVec.toNat_eq]; try omega
theorem clauseHeader (g : GKey) : Statement (.clauseHeader g) := trivial
theorem storeQueueDrain (g : GKey) : Statement (.storeQueueDrain g) := trivial
theorem longLatencyCompletion (g : GKey) (id : Nat) : Statement (.longLatencyCompletion g id) := trivial
theorem lateEffectDelivery (g : GKey) : Statement (.lateEffectDelivery g) := trivial
theorem copyBlock (core : Nat) (id : Nat) : Statement (.copyBlock core id) := trivial
theorem translationWalk (die : Nat) : Statement (.translationWalk die) := trivial
theorem matrixEntryStart (core : Nat) : Statement (.matrixEntryStart core) := trivial
theorem matrixEntryFinish (core : Nat) : Statement (.matrixEntryFinish core) := trivial
theorem correctionApplication (core : Nat) : Statement (.correctionApplication core) := trivial
theorem binningOpen (die : Nat) (job : Nat) : Statement (.binningOpen die job) := trivial
theorem binningReplay (die : Nat) (job : Nat) : Statement (.binningReplay die job) := trivial
theorem walkerJob (die : Nat) (job : Nat) : Statement (.walkerJob die job) := trivial
theorem gather (die : Nat) (job : Nat) : Statement (.gather die job) := trivial
theorem topkHistogram (die : Nat) (job : Nat) : Statement (.topkHistogram die job) := trivial
theorem topkSelect (die : Nat) (job : Nat) : Statement (.topkSelect die job) := trivial
theorem mainToMainCopy (die : Nat) (job : Nat) : Statement (.mainToMainCopy die job) := trivial
theorem walkerStepLimit (core : Nat) : Statement (.walkerStepLimit core) := trivial
theorem collForm (die : Nat) (job : Nat) : Statement (.collForm die job) := trivial
theorem collDisband (die : Nat) (job : Nat) : Statement (.collDisband die job) := trivial
theorem collBarrier (die : Nat) (job : Nat) : Statement (.collBarrier die job) := trivial
theorem collBcast (die : Nat) (job : Nat) : Statement (.collBcast die job) := trivial
theorem collAllred (die : Nat) (job : Nat) : Statement (.collAllred die job) := trivial
theorem collRedscat (die : Nat) (job : Nat) : Statement (.collRedscat die job) := trivial
theorem collGather (die : Nat) (job : Nat) : Statement (.collGather die job) := trivial
theorem collXscan (die : Nat) (job : Nat) : Statement (.collXscan die job) := trivial
theorem signal (src : Nat) (tag : Nat) (count : Nat) (addr : Nat) : Statement (.signal src tag count addr) := trivial
theorem formMsg (die : Nat) (m : Msg) (members : List Word) : Statement (.formMsg die m members) := trivial
theorem beatMsg (die : Nat) (m : Msg) : Statement (.beatMsg die m) := trivial
theorem postMsg (die : Nat) (m : Msg) (c2 : Word) (count : Word) (data : List Word) : Statement (.postMsg die m c2 count data) := trivial
theorem abortMsg (die : Nat) (m : Msg) : Statement (.abortMsg die m) := trivial
theorem decideMsg (die : Nat) (m : Msg) : Statement (.decideMsg die m) := trivial
theorem readRequest (src : Nat) (tag : Nat) (addr : Nat) (len : Nat) : Statement (.readRequest src tag addr len) := trivial
theorem writeRequest (src : Nat) (tag : Nat) (addr : Nat) (bytes : List Byte) (enable : List Bool) : Statement (.writeRequest src tag addr bytes enable) := trivial
theorem atomicRequest (src : Nat) (tag : Nat) (addr : Nat) (op : FabAtom) (v : Word) (cmp : Word) : Statement (.atomicRequest src tag addr op v cmp) := trivial
theorem readCompletion (req : Nat) (ok : Bool) (bytes : List Byte) : Statement (.readCompletion req ok bytes) := trivial
theorem writeCompletion (req : Nat) (ok : Bool) : Statement (.writeCompletion req ok) := trivial
theorem atomicCompletion (req : Nat) (ok : Bool) (old : Word) : Statement (.atomicCompletion req ok old) := trivial
theorem fabricRequestTimeout (req : Nat) : Statement (.fabricRequestTimeout req) := trivial
theorem signalTagTimeout (src : Nat) (tag : Nat) : Statement (.signalTagTimeout src tag) := trivial
theorem heartbeat (die : Nat) (gid : BitVec 16) : Statement (.heartbeat die gid) := trivial
theorem memberLost (die : Nat) (gid : BitVec 16) (rank : Nat) : Statement (.memberLost die gid rank) := trivial
theorem collectiveTimeout (die : Nat) (gid : BitVec 16) : Statement (.collectiveTimeout die gid) := trivial
theorem formTimeout (die : Nat) (job : Nat) : Statement (.formTimeout die job) := trivial
theorem deciderUnreachable (die : Nat) (gid : BitVec 16) : Statement (.deciderUnreachable die gid) := trivial
theorem portLaneFailure (port : Nat) (lanes : Nat) : Statement (.portLaneFailure port lanes) := trivial
theorem copystall (g : GKey) : Statement (.copystall g) := trivial
theorem fuseRendezvousTimeout (g : GKey) : Statement (.fuseRendezvousTimeout g) := trivial
theorem writeblock (r : EngRef) : Statement (.writeblock r) := trivial
theorem heldWriteRewalk (die : Nat) : Statement (.heldWriteRewalk die) := trivial
theorem invctl (die : Nat) (v : Word) : Statement (.invctl die v) := trivial
theorem invalidationComplete (die : Nat) : Statement (.invalidationComplete die) := trivial
theorem codeinv (die : Nat) (line : Nat) (count : Nat) : Statement (.codeinv die line count) := trivial
theorem codeinvAccept (die : Nat) : Statement (.codeinvAccept die) := trivial
theorem doorbell (q : Nat) (tail : Nat) : Statement (.doorbell q tail) := trivial
theorem launchRecord  : Statement .launchRecord := trivial
theorem clusterPlacement (corr : Nat) : Statement (.clusterPlacement corr) := trivial
theorem fallbackMode (corr : Nat) : Statement (.fallbackMode corr) := trivial
theorem priority7Preemption (corr : Nat) : Statement (.priority7Preemption corr) := trivial
theorem cancel (q : Nat) (hi : Word) : Statement (.cancel q hi) := trivial
theorem preempt (q : Nat) (hi : Word) : Statement (.preempt q hi) := trivial
theorem preemptHaltComplete (corr : Nat) : Statement (.preemptHaltComplete corr) := trivial
theorem gridRestore (corr : Nat) : Statement (.gridRestore corr) := trivial
theorem gridCompletion (corr : Nat) : Statement (.gridCompletion corr) := trivial
theorem railSample (die : Nat) (rails : List Rail) : Statement (.railSample die rails) := trivial
theorem energyShare (cores : List Nat) (dieRails packageRails : Nat) : Statement (.energyShare cores dieRails packageRails) := trivial
theorem patrolScrub  : Statement .patrolScrub := trivial
theorem unitLoss (u : LostUnit) : Statement (.unitLoss u) := trivial
theorem atctl (v : Word) : Statement (.atctl v) := trivial
theorem attestationReport  : Statement .attestationReport := trivial
theorem registerWrite (secure : Bool) (off : Nat) (v : Word) : Statement (.registerWrite secure off v) := trivial
theorem hostMemoryAccess (secure : Bool) (write : Bool) (addr : Nat) (len : Nat) (bytes : List Byte) : Statement (.hostMemoryAccess secure write addr len bytes) := trivial
theorem reset  : Statement .reset := trivial
theorem firmwareImage (image : List Byte) : Statement (.firmwareImage image) := trivial
theorem throttle (up : Bool) : Statement (.throttle up) := trivial
theorem thermalShutdown  : Statement .thermalShutdown := trivial
theorem portComeUp (port : Nat) (lanes : Nat) : Statement (.portComeUp port lanes) := trivial
theorem walkfault (core : Nat) : Statement (.walkfault core) := trivial
theorem trailerCompletion (req : Nat) (ok : Bool) : Statement (.trailerCompletion req ok) := trivial

end Sys2Proof.Laws.RoundTrip
end

