-- ==== Sys2Proof/Safety.lean ====
section
/-! DEFINITION. What counts as a safe state, and the conditions that claims about one instruction use. -/

namespace Sys2Proof

open Sys2Proof.Machine

/-! ### The invariant of the package -/

/-- The parts of the invariant: memory in canonical form (notes/assumptions/1.md), 192 cores, 4 dies, 32 queues, 48 ports of
which each has no, one, two or four lanes (21 R390), and a clock of 10 to 20 steps of 135 MHz (25 R436). -/
structure InvOf (m : Memory) (cores dies queues : Nat) (ports : List Nat) (clock : Nat) : Prop where
  mem    : m.wf = true
  cores  : cores = 192
  dies   : dies = 4
  queues : queues = 32
  count  : ports.length = 48
  lanes  : ∀ p ∈ ports, p = 0 ∨ p = 1 ∨ p = 2 ∨ p = 4
  clock  : ∃ n, clock = 135 * n ∧ 10 ≤ n ∧ n ≤ 20

/-- The invariant of a state. -/
def Inv (s : State) : Prop := InvOf s.mem s.cores.length s.dies.length s.queues.length s.ports s.plat.clockMHz

/-- An instruction ends in no state that breaks the invariant. -/
def OutInv : Host.Outcome State Fault Refusal → Prop
  | .next s => Inv s
  | .fault _ => True
  | .refused _ => True

/-- What an act of a word leaves keeps the invariant, whatever follows. -/
def ActInv : Act → Prop
  | .hold _ => True
  | .park f _ => ∀ s, Inv s → Inv (f s)
  | .act s _ _ after => Inv s ∧ ∀ t, Inv t → Inv (after t)

/-! ### A word that issues -/

/-- A word stands ready to issue in the acting group: the group is the acting one and stands at the word, is neither halted nor
held by a third long-latency instruction (03 R68), and the word is well formed (03 R88) and names no register that is out of
bounds, misaligned or poisoned (01 R13, R14; 18 R381). -/
structure Ready (s : State) (g : Group) (iss : Issue) (i : Instr) : Prop where
  acts   : s.cur = some (.group g.key)
  here   : s.group? g.key = some g
  word   : g.cur = some iss
  moves  : g.halted = false
  free   : g.pend.any (·.hold) = false
  formed : i.wf = true
  sound  : registerFault g (mkIns s g iss i) = none

/-- The outcome of a word that issues with an effect: the state with its effect, the sticky flags it raises, the transfers it
takes, what it does once its lanes stand at their next position. A read of a dead register adds its flag (01 R15). -/
def issues (s : State) (g : Group) (iss : Issue) (i : Instr) (t : State) (fl : Fl := 0#7) (jumps : List (Mask × Pos) := [])
    (after : State → State := id) : Host.Outcome State Fault Refusal :=
  .next (finish (mkIns s g iss i) t (fl ||| poisonFlag g (mkIns s g iss i)) jumps after)

/-- What a word does as it issues: the state with its effect, the sticky flags it raises, the transfers of lanes it takes, and
what it does once its lanes stand at their next position. -/
structure Effect where
  state : State
  flags : Fl := 0#7
  jumps : List (Mask × Pos) := []
  after : State → State := id

namespace Effect
/-- A new state and sticky flags. -/
def done (s : State) (fl : Fl := 0#7) : Effect := ⟨s, fl, [], id⟩
/-- Transfers of lanes. -/
def go (s : State) (jumps : List (Mask × Pos)) : Effect := ⟨s, 0#7, jumps, id⟩
/-- What is done once the lanes stand at their next position. -/
def then_ (s : State) (f : State → State) : Effect := ⟨s, 0#7, [], f⟩
end Effect

/-- The word completes: wherever it stands ready to issue, under a condition on its operands and the state it reads, it executes
and has this effect. -/
def Completes (i : Instr) (e : Ins → Effect) (cond : Ins → Prop := fun _ => True) : Prop :=
  ∀ (s : State) (g : Group) (iss : Issue), Ready s g iss i → cond (mkIns s g iss i) →
    exec i s = issues s g iss i (e (mkIns s g iss i)).state (e (mkIns s g iss i)).flags (e (mkIns s g iss i)).jumps
      (e (mkIns s g iss i)).after

/-- The word performs one effect (11 R284) and does nothing else: wherever it stands ready to issue under a condition. -/
def Performs (i : Instr) (p : Ins → Perf) (cond : Ins → Prop) : Prop :=
  Completes i (fun x => .then_ x.s fun t => perform t x.k x.g.loop [p x]) cond

/-- The word waits at its place: wherever it stands ready to issue under a condition, nothing changes but the CSN it takes and
keeps (01 R23; 17 R361). -/
def Waits (i : Instr) (cond : Ins → Prop) : Prop :=
  ∀ (s : State) (g : Group) (iss : Issue), Ready s g iss i → cond (mkIns s g iss i) →
    exec i s = .next (s.setGroup { g with
      cur := some { iss with prog := (mkIns s g iss i).kept }, it := { g.it with csn := (mkIns s g iss i).g.it.csn } })

/-- What an element instruction computes for each thread: `op` of thread t's values of A, B and D (07 R168, R169). Where a full
write installs a singular common map, each element of its image is computed once (06 R150). -/
def results [DecidableEq α] (x : Ins) (third : Bool) (op : Word → Word → Word → α) : Nat → α :=
  x.g.once x.s.tick (commonOf x third) x.act fun t => op (x.a.val t) (x.b.val t) (x.d.val t)

/-- The word completes and writes `op` of each active thread's values of A, B and D, raising no flag. -/
def Computes (i : Instr) (third : Bool) (op : Word → Word → Word → Word) : Prop :=
  Completes i fun x => .done (putElem x (commonOf x third) (results x third op))

/-- The word completes and writes the result of `op` of each active thread's values of A, B and D, raising the union of the
active threads' flags, or in scalar form those of the one result (04 R111, R112). -/
def ComputesFlags (i : Instr) (third : Bool) (op : Word → Word → Word → Word × Fl) : Prop :=
  Completes i fun x => .done (putElem x (commonOf x third) fun t => (results x third op t).1)
    (if x.vector then threadFlags x fun t => (results x third op t).2 else (results x third op 0).2)

/-- The word completes and writes, for each active thread, whether the relation holds of its values of A and B; in scalar form
the one answer (07 R168). -/
def Decides (i : Instr) (p : Fin 8) (rel : Word → Word → Bool) : Prop :=
  Completes i fun x => .done (x.mod fun g => g.setPred p.val
    (if x.vector then maskOf x.g.width fun t => rel (x.a.val t) (x.b.val t)
     else if rel x.a.sca x.b.sca then x.g.full else 0#128) x.act)

/-- Every access of the word passes the checks of 08 R225. -/
def Allowed (x : Ins) (a : Acc) : Prop := ∀ t ∈ accThreads x, fateAt x a t = .ok

/-- Every access of the word passes the checks of 08 R225, no queued atomic of the group names its bytes (15 R321), and no byte
it reads is poisoned (18 R381). -/
structure CleanRead (x : Ins) (a : Acc) : Prop where
  passes : Allowed x a
  free   : awaitsAtomic x a = false
  sound  : ∀ t ∈ accThreads x, seenPoison x.s x.g (accAt x a t) a.size = false

/-- The state after a load of `n` bytes at each acting thread's address: the value `read` of the threads of `m` lands later; until
then it may still give way to a later one, as far as no store of the core gives it (15 R326); earlier loads of the group from the
same words may not (R321); the reading leaves `touch` behind. -/
def loaded (x : Ins) (a : Acc) (m : Mask) (n : Nat) (at_ : Nat → Nat) (read : Nat → Nat) (touch : State → State) : State :=
  x.flightOf (closeReads (touch (landsOf x a.size m read).1) x.k ((passing x a).flatMap fun t =>
      wordCells [at_ t / 4, (at_ t + n - 1) / 4].eraseDups)) .ready
    (landsOf x a.size m read).2 0#7 (openReads x n at_ (landsOf x a.size m read).2)

/-- The word completes as a load of `n` bytes at each thread's address. -/
def Loads (i : Instr) (a : Ins → Acc) (n : Nat) (at_ : Ins → Nat → Nat) (read : Ins → Nat → Nat)
    (touch : Ins → State → State := fun _ s => s) : Prop :=
  Completes i (fun x => .done (loaded x (a x) (fateMask x (a x) .ok) n (at_ x) (read x) (touch x))) fun x => CleanRead x (a x)

/-- The word completes as an atomic: the elements of D are fixed, the updates of the acting threads stand as one entry in the
group's queue, and the word is in flight until the entry is performed (08 R208, R211; 06 R151). -/
def Updates (i : Instr) (a : Ins → Acc) (op : List AtomEl → QOp) (el : Ins → Nat → AtomEl) : Prop :=
  Completes i (fun x =>
    let idm := LaneMap.ident x.g.wcode
    let m := if x.vector then fateMask x (a x) .ok else 0#128
    let s := match x.dst with
      | .vec p => x.mod fun g => if (a x).size = 8 then (g.fixVec p idm m).fixVec (p + 1) idm m else g.fixVec p idm m
      | _ => x.s
    .done (enqueue x.k (entryOf x (a x) (op ((accThreads x).map (el x))) (some s.nextId)) (x.flight s .queue [] 0#7)))
    fun x => Allowed x (a x) ∧ accThreads x ≠ []

/-- A check or wait of a word lets it go on, whatever follows. -/
def Passes (gate : (Unit → Act) → Act) : Prop := ∀ f, gate f = f ()

/-- The walker of a core stands at a well-formed word of its job (12 R298, R301). -/
structure Walking (s : State) (c : Nat) (w : Walker) (j : Job) (i : Instr) : Prop where
  acts   : s.cur = some (.walker c)
  walker : (s.core c).walker = some w
  job    : s.job? (dieOf c) w.job = some j
  formed : i.wf = true

/-- The walker word completes: wherever the walker stands at it, under a condition, it leaves this state. -/
def Walks (i : Instr) (f : State → Nat → Walker → Job → State)
    (cond : State → Nat → Walker → Job → Prop := fun _ _ _ _ => True) : Prop :=
  ∀ (s : State) (c : Nat) (w : Walker) (j : Job), Walking s c w j i → cond s c w j → exec i s = .next (f s c w j)

/-- The walker word completes and writes a walker register; the PC moves on by 4 and the step counts (12 R301, R306). A write to
w0 is discarded (R299). -/
def WalkSets (i : Instr) (d : Fin 16) (f : Walker → Word) : Prop :=
  Walks i fun s c w _ => putWalker s c (some { w.put d (f w) with pc := w.pc + 4, steps := w.steps + 1, part := 0 })

/-- The walker word completes and branches by a condition: 4 times the signed immediate from its own address, or on by 4. -/
def WalkBranches (i : Instr) (imm : BitVec 14) (taken : Walker → Prop) : Prop :=
  (Walks i (fun s c w _ => putWalker s c (some { w with pc := w.pc + 4 * imm.signExtend 32, steps := w.steps + 1, part := 0 }))
    fun _ _ w _ => taken w) ∧
  Walks i (fun s c w _ => putWalker s c (some { w with pc := w.pc + 4, steps := w.steps + 1, part := 0 })) fun _ _ w _ => ¬taken w

/-- The state in which the service of a job begins (09 R246, R247): as it stands for a started one that nothing stops, with its
start for a queued one that may start. -/
def Machine.served (s : State) (d : Nat) (j : Job) : Option State :=
  if j.st = .queued then
    (if jobStarts s d j then some (s.modJob d j.idx fun x => { x with st := .started }) else none)
  else if j.susp = .none then some s else none

/-- The group has nothing to join or to end: no invocation whose lanes have all left, no return, pop or arrival that is
complete, and a lane that has not exited. -/
structure Steady (g : Group) : Prop where
  left    : ∀ c ∈ g.ctxs, c.left &&& g.present = c.left
  busy    : ∀ c ∈ g.ctxs, c.ended = false → c.left ≠ 0#128
  called  : g.returned = false
  popped  : g.popReady = false
  arrived : ∀ n < 16, hasArrived g n = false
  alive   : g.allExited = false

/-- An outcome with the issue of a word counted in its next state (17 R357). -/
def countsIn (s : State) (t : Turn) : Host.Outcome State Fault Refusal → Host.Outcome State Fault Refusal
  | .next u => .next (counted s t u)
  | .fault f => .fault f
  | .refused r => .refused r

/-- The bytes that an operation of a store queue names: those of a store, of the tags, of an atomic's words, of the values of a
compare-and-swap's elements (08 R207, R211, R215, R224). -/
def Machine.QOp.covers (op : QOp) (a : Nat) : Prop :=
  match op with
  | .bytes l => ∃ c ∈ l, c.1 = a
  | .tags l => ∃ p ∈ l, tagAddr p.1 ≤ a ∧ a < tagAddr p.1 + 2
  | .atom _ l => ∃ el ∈ l, el.addr ≤ a ∧ a < el.addr + 4
  | .cas wide l => ∃ el ∈ l, el.addr ≤ a ∧ a < el.addr + if wide then 8 else 4
  | .fence => False

/-- A group without what its schedulers count of it (17 R357). -/
def Machine.Group.uncounted (g : Group) : Group := { g with waited := 0, lastNs := 0 }

/-! ### Frames -/

/-- The words that write D as they issue and nothing else: arithmetic, moves, lane selection, row operations. -/
def Instr.writesD : Instr → Bool
  | .iadd .. | .isub .. | .iaddi .. | .imul .. | .imad .. | .imnx .. | .iuna .. | .iand .. | .ior .. | .ixor .. | .iandn ..
  | .andi .. | .xori .. | .shl .. | .shr .. | .shi .. | .addr .. | .bfx .. | .bits .. | .sel .. => true
  | .fadd .. | .fsub .. | .fmul .. | .ffma .. | .fmnx .. | .fcvt .. | .hadd2 .. | .hfma2 .. | .hmul2 .. | .funa .. | .expo ..
  | .ldexp .. | .maxe .. | .sexp .. | .frow .. | .crc .. => true
  | .mov .. | .shfx .. | .mapId .. | .shfi .. => true
  | _ => false

/-- The words that write one predicate register as they issue and nothing else. -/
def Instr.writesP : Instr → Option (Fin 8)
  | .iset p .. | .iseti p .. | .bsel p .. | .plog p .. | .fset p .. => some p
  | _ => none

/-- A long-latency instruction in flight, but for what of its values may still be performed (15 R326). -/
def Machine.Pend.fixed (p : Pend) : Pend := { p with reads := [] }

/-- What a register word leaves alone in its group: every vector register, scalar register and predicate register but its
destination (a last-use mark takes the live bit of a source, 01 R15), every item but the sticky flags, which only gain bits
(01 R22), the group's name, size and waiting work, and the state and call depth of every lane. Its lanes may move on. -/
structure Keeps (d : Dst) (p : Option (Fin 8)) (g h : Group) : Prop where
  vregs : ∀ n, d ≠ .vec n → (h.vreg n).elems = (g.vreg n).elems ∧ (h.vreg n).bad = (g.vreg n).bad ∧
    (h.vreg n).map = (g.vreg n).map
  sregs : ∀ n, d ≠ .sca n → h.sreg n = g.sreg n
  preds : ∀ n, p.map (·.val) ≠ some n → h.pred n = g.pred n
  flags : ∃ fl : BitVec 7, h.it.fflags = g.it.fflags ||| fl.setWidth 32
  items : { h.it with sregs := g.it.sregs, fflags := g.it.fflags } = g.it
  place : h.key = g.key ∧ h.team = g.team ∧ h.wcode = g.wcode ∧ h.parts = g.parts ∧ h.allot = g.allot ∧ h.born = g.born
  work  : h.hidden = g.hidden ∧ h.pend.map Pend.fixed = g.pend.map Pend.fixed ∧ h.queue = g.queue ∧ h.late = g.late ∧
    h.ctxs = g.ctxs ∧ h.stale = g.stale ∧
    h.halted = g.halted ∧ h.bpSkip = g.bpSkip
  lanes : ∀ t, (h.lane t).st = (g.lane t).st ∧ (h.lane t).depth = (g.lane t).depth

/-- A word does not perform FPTRAP: no condition of FFLAGS is enabled (01 R22). -/
def Untrapped (g : Group) : Prop := g.it.fflags &&& 0x1F00#32 = 0#32

/-- A lane map fits a width: n rows of n bits and an offset of n bits (01 R28). -/
structure LaneMapFits (m : LaneMap) : Prop where
  code : m.code ≤ 4
  size : m.rows.length = m.code + 3
  rows : ∀ r ∈ m.rows, r.toNat < 2 ^ (m.code + 3)
  off  : m.b.toNat < 2 ^ (m.code + 3)

end Sys2Proof
end

