-- ==== Sys2Proof/Certificates/Slice0/Obligations.lean ====
section
/-! DEFINITION. The statements of the package: one or more for every rule of the specification that says what an instruction or
the machine does. A statement of the form `Completes i e` says that the word executes in every state in which it stands ready to
issue, and with which effect; the events of 95 say what their step does to the state. -/

open Sys2Proof Sys2Proof.Machine


/-! ### The machine -/

/-- The machine after reset (01 R12, R32; 18 R373; 24 R419; 25 R437): the boot ROM waits for its image with DEVSTAT 0, no launch, team
or group exists, every slot's tags, banks and halves are free, no invalidation is in progress, tracing is off. The values the
specification does not give are the model's (notes/assumptions/3.md) and are not stated here. -/
def Obligations.ResetState : Prop :=
  State.reset.plat.devStat = 0 ∧ State.reset.groups = [] ∧ State.reset.teams = [] ∧ State.reset.grids = [] ∧
  State.reset.cores.length = 192 ∧ State.reset.dies.length = 4 ∧
  (∀ c < 192, (∀ n < 16, ((State.reset.core c).tag n).st = .free) ∧ (∀ n < 64, (State.reset.core c).halfOwner n = none) ∧
    (∀ n < 128, (State.reset.core c).bank n = ⟨none, none⟩) ∧ (State.reset.core c).derivs = [] ∧
    (State.reset.core c).copies = [] ∧ (State.reset.core c).mq = []) ∧
  ∀ d < 4, (State.reset.die d).invDone = true ∧ (State.reset.die d).trCtl = 0 ∧ (State.reset.die d).jobs = [] ∧
    (State.reset.die d).tlb = []

/-- The invariant holds after reset. -/
def Obligations.ResetMeetsInvariant : Prop := Sys2Proof.Inv State.reset

/-- Every step keeps the invariant: memory stays in canonical form, the package keeps its 192 cores, 4 dies, 32 queues and 48
ports, a port runs at no, one, two or four lanes (21 R390), and the clock stays a step of 135 MHz from 1.35 to 2.7 GHz (25
R436). -/
def Obligations.StepKeepsInvariant : Prop := ∀ s t, Sys2Proof.Inv s → step s = .next t → Sys2Proof.Inv t

/-- A step runs the decoded instruction: the turn at the head of the agenda runs the word at which its group or walker stands,
or its event, after the step has begun (time passes and is measured, entries become ready). A group whose word or header another
group's readiness holds back (17 R357, R358) has no turn: of the ready groups that share a scheduler with it none may be preferred,
which is one that starves, then one that no yield defers, then the older. With no agenda the first turn of the default order that
changes anything is taken, and after a group or walker the turns behind it follow (the model's choice, notes/assumptions/2.md). A
late effect that can be delivered goes before its group's word (09 R240). -/
def Obligations.StepRunsInstruction : Prop :=
  (∀ s k g iss i ts, s.agenda = .group k :: ts → s.group? k = some g → (g.late = [] ∨ lateLanes g = none) →
    g.cur = some iss → mayIssue s g = true → decodeWord (iss.word iss.idx).toNat = .ok i →
    step s = if mayTurn { begin_ s with agenda := ts } g = true then
        countsIn { begin_ s with agenda := ts } (.group k) (exec i { begin_ s with agenda := ts, cur := some (.group k) })
      else .next { begin_ s with agenda := ts }) ∧
  (∀ s k g ts, s.agenda = .group k :: ts → s.group? k = some g → g.cur = none → g.late = [] →
    step s = if mayTurn { begin_ s with agenda := ts } g = true then
        countsIn { begin_ s with agenda := ts } (.group k) (exec (.clauseHeader k) { begin_ s with agenda := ts, cur := none })
      else .next { begin_ s with agenda := ts }) ∧
  (∀ s g, mayTurn s g = true ↔ ∀ h ∈ s.groups, h.key ≠ g.key → h.competes g = true → ready s h = true → preferred s h g = false) ∧
  (∀ s a b, (starving s a = true → starving s b = false → preferred s a b = true) ∧
    (starving s a = starving s b → deferred s a = false → deferred s b = true → preferred s a b = true) ∧
    (starving s a = starving s b → deferred s a = deferred s b → preferred s a b = olderThan a b)) ∧
  (∀ s t u, counted s t u = { u with groups := (counted s t u).groups } ∧ (counted s t u).groups.map Group.uncounted =
    u.groups.map Group.uncounted) ∧
  (∀ s c w i ts, s.agenda = .walker c :: ts → ((begin_ s).core c).walker = some w → walkerGoes s c w = true →
    w.pc.toNat % 4 = 0 → w.pc.toNat + 4 ≤ w.code.length →
    decodeWalker (leNat ((w.code.drop w.pc.toNat).take 4)) = .ok i → i.wf = true → w.steps < s.times.stepLimit →
    step s = exec i { begin_ s with agenda := ts, cur := some (.walker c) }) ∧
  (∀ s i ts, s.agenda = .event i :: ts → step s = exec i { begin_ s with agenda := ts, cur := none }) ∧
  (∀ s f ts, s.agenda = .flaw f :: ts → step s = .next (strike { begin_ s with agenda := ts } f)) ∧
  (∀ s t ts u, s.agenda = [] → defaultTurns s = t :: ts → runTurn (begin_ s) t = .next u →
    u ≠ { begin_ s with cur := u.cur } → step s = .next { u with agenda := roundAfter t ts }) ∧
  (∀ s, begin_ s = { s with
    tick := s.tick + 1, ns := s.ns + Config.elapsed s.tick, meter := meterAfter s (Config.elapsed s.tick)
    cores := (begin_ s).cores, dies := (begin_ s).dies }) ∧
  (∀ s d, d < s.dies.length → (begin_ s).die d = { s.die d with
    resident := residents s d, moved := (s.die d).moved || ((s.die d).trCtl / 2 % 2 == 1 && (s.die d).resident != residents s d) })

/-- Words written out from the encodings of the specification decode to their instructions: BKM 5, s4; SHFX v2, v1, 5; SHFB v4,
v4, s0; MAP.rd s2, v3; VOTE.ballot s4, p2; NOP; WLI w6, 2; WTGT w5, w6; WJMP −11; WFAULT 1. -/
def Obligations.WordsDecode : Prop :=
  decodeWord 0x1A032005 = .ok (.bkm (.s 4) 5) ∧
  decodeWord 0x70080FF0 = .ok (.shfx (.v 2) (.v 1) .lit) ∧
  decodeWord 0x74102600 = .ok (.shfb (.v 4) (.v 4) (.s 0) 0) ∧
  decodeWord 0x7D881800 = .ok (.mapRd (.s 2) (.v 3)) ∧
  decodeWord 0x7F900023 = .ok (.vote 100 2 false .ballot) ∧
  decodeWord 0 = .ok .nop ∧
  decodeWalker 0x05800002 = .ok (.wli 6 2) ∧
  decodeWalker 0x40158000 = .ok (.wtgt 5 6) ∧
  decodeWalker 0x3C003FF5 = .ok (.wjmp (-11)) ∧
  decodeWalker 0x54000001 = .ok (.wfault 1)

/-- Decoding the word an instruction is encoded in gives the instruction back, with every operand at every value its field
admits: for every Derrov instruction and every walker instruction. The steps of 95 have no word. -/
def Obligations.EncodeDecodeRoundTrip : Prop :=
  ∀ i : Instr,
    (∀ f, i.fields = some f → encode i = some f.word ∧ f.word < 2 ^ 32 ∧ decodeWord f.word = .ok i ∧
      ∀ rest, decodeBytes (leBytes 4 f.word ++ rest) = .ok (i, rest)) ∧
    (∀ f, i.fields = none → i.wFields = some f → encode i = some f.word ∧ f.word < 2 ^ 32 ∧ decodeWalker f.word = .ok i ∧
      ∀ rest, decodeWalkerBytes (leBytes 4 f.word ++ rest) = .ok (i, rest))
/-! ### Arithmetic words (07 R172 to R182) -/

/-- IADD, ISUB, IADDI, IMUL, IMAD, IMNX and IUNA complete, with the results that 07 R172, R173 and R174 give to every thread;
none of them sets a sticky flag. -/
def Obligations.IntegerArithmetic : Prop :=
  (∀ d a b ind m, Computes (.iadd d a b ind m) false fun a b _ => match m with
    | .wrap => a + b
    | .sat => BitVec.ofInt 32 (max (-2147483648) (min (a.toInt + b.toInt) 2147483647))
    | .nsat => BitVec.ofNat 32 (min (a.toNat + b.toNat) 4294967295)) ∧
  (∀ d a b ind m, Computes (.isub d a b ind m) false fun a b _ => match m with
    | .wrap => a - b
    | .sat => BitVec.ofInt 32 (max (-2147483648) (min (a.toInt - b.toInt) 2147483647))
    | .nsat => BitVec.ofNat 32 (a.toNat - b.toNat)) ∧
  (∀ d a imm, Computes (.iaddi d a imm) false fun a _ _ => a + imm.signExtend 32) ∧
  (∀ d a b ind m, Computes (.imul d a b ind m) false fun a b _ => match m with
    | .low => a * b
    | .hi => (BitVec.ofInt 64 (a.toInt * b.toInt)).extractLsb' 32 32
    | .nhi => (BitVec.ofNat 64 (a.toNat * b.toNat)).extractLsb' 32 32) ∧
  (∀ d a b ind, Computes (.imad d a b ind) true fun a b d =>
    BitVec.ofNat 32 (a.toNat * b.toNat + d.toNat)) ∧
  (∀ d a b ind uns gt, Computes (.imnx d a b ind uns gt) false fun a b _ =>
    match uns, gt with
    | true, true => BitVec.ofNat 32 (max a.toNat b.toNat)
    | true, false => BitVec.ofNat 32 (min a.toNat b.toNat)
    | false, true => BitVec.ofInt 32 (max a.toInt b.toInt)
    | false, false => BitVec.ofInt 32 (min a.toInt b.toInt)) ∧
  (∀ d a ind fn, Computes (.iuna d a ind fn) false fun a _ _ => match fn with
    | .abs => BitVec.ofInt 32 a.toInt.natAbs
    | .neg => BitVec.ofInt 32 (-a.toInt)
    | .sabs => BitVec.ofInt 32 (min a.toInt.natAbs 2147483647)
    | .sneg => BitVec.ofInt 32 (min (-a.toInt) 2147483647))

/-- AND, OR, XOR, ANDN, ANDI, XORI, SHL, SHR, SHI and ADDR complete with the results of 07 R175 and R182: a count of 32 or more
gives 0, or copies of the sign bit, or rotates by the count modulo 32. -/
def Obligations.LogicAndShifts : Prop :=
  (∀ d a b ind, Computes (.iand d a b ind) false fun a b _ => a &&& b) ∧
  (∀ d a b ind, Computes (.ior d a b ind) false fun a b _ => a ||| b) ∧
  (∀ d a b ind, Computes (.ixor d a b ind) false fun a b _ => a ^^^ b) ∧
  (∀ d a b ind, Computes (.iandn d a b ind) false fun a b _ => a &&& ~~~b) ∧
  (∀ d a imm, Computes (.andi d a imm) false fun a _ _ => a &&& imm.signExtend 32) ∧
  (∀ d a imm, Computes (.xori d a imm) false fun a _ _ => a ^^^ imm.signExtend 32) ∧
  (∀ d a b ind, Computes (.shl d a b ind) false fun a b _ => a <<< b.toNat) ∧
  (∀ d a b ind m, Computes (.shr d a b ind m) false fun a b _ => match m with
    | .logical => a >>> b.toNat
    | .arith => a.sshiftRight b.toNat
    | .rot => a.rotateRight b.toNat) ∧
  (∀ d a k n, Computes (.shi d a k n) false fun a _ _ => match k with
    | .shl => a <<< n.val
    | .shr => a >>> n.val
    | .sar => a.sshiftRight n.val
    | .rot => a.rotateRight n.val) ∧
  (∀ d a b ind k, Computes (.addr d a b ind k) false fun a b _ =>
    BitVec.ofNat 32 (a.toNat + b.toNat * 2 ^ k.val))

/-- BFX and BITS complete (07 R176, R177). BFX gives the field of R176, said bit by bit: position p = B[4:0], length n =
min(B[13:8], 32), cut at bit 31 to n'. BITS gives the counts, the reversal and the index of R177. -/
def Obligations.BitFieldsAndCounts : Prop :=
  (∃ field : BfxMode → Word → Word → Word → Word,
    (∀ m a b d i, i < 32 →
      let p := (b.extractLsb' 0 5).toNat
      let n := min (b.extractLsb' 8 6).toNat 32
      let n' := min (p + n) 32 - p
      (field m a b d).getLsbD i = match m with
        | .n => decide (i < n') && a.getLsbD (p + i)
        | .s => decide (0 < n') && a.getLsbD (p + min i (n' - 1))
        | .ins => if p ≤ i ∧ i < p + n' then a.getLsbD (i - p) else d.getLsbD i) ∧
    ∀ d a b ind m, Computes (.bfx d a b ind m) (m == .ins) (field m)) ∧
  ∃ clz ffs : Word → Word,
    (∀ a, (clz a).toNat ≤ 32 ∧ (∀ i < (clz a).toNat, a.getLsbD (31 - i) = false) ∧
      ((clz a).toNat < 32 → a.getLsbD (31 - (clz a).toNat) = true)) ∧
    (∀ a, (a = 0 → ffs a = 0xFFFFFFFF#32) ∧
      (a ≠ 0 → a.getLsbD (ffs a).toNat = true ∧ ∀ i < (ffs a).toNat, a.getLsbD i = false)) ∧
    ∀ d a ind fn, Computes (.bits d a ind fn) false fun a _ _ => match fn with
      | .popc => BitVec.ofNat 32 ((List.range 32).countP a.getLsbD)
      | .clz => clz a
      | .brev => a.reverse
      | .ffs => ffs a

/-- ISET, ISETI, BSEL, PLOG and SEL complete: the conditions of 07 R178 on the signed and unsigned values, the bucket test of 09
R257, the eight operations of 07 R179 bit by bit, and the choice of 07 R180. -/
def Obligations.ComparisonAndSelection : Prop :=
  (∀ p a b ind c, Decides (.iset p a b ind c) p fun a b => match c with
    | .eq => decide (a = b)
    | .ne => decide (a ≠ b)
    | .lt => decide (a.toInt < b.toInt)
    | .ge => decide (b.toInt ≤ a.toInt)
    | .lo => decide (a.toNat < b.toNat)
    | .hs => decide (b.toNat ≤ a.toNat)
    | .tst => decide (a &&& b ≠ 0)
    | .ntst => decide (a &&& b = 0)) ∧
  (∀ p c a imm, Decides (.iseti p c a imm) p fun a _ => match c with
    | .eq => decide (a.toInt = imm.toInt)
    | .ne => decide (a.toInt ≠ imm.toInt)
    | .lt => decide (a.toInt < imm.toInt)
    | .ge => decide (imm.toInt ≤ a.toInt)
    | .lo => decide (a.toNat < imm.toNat)
    | .hs => decide (imm.toNat ≤ a.toNat)
    | .tst => decide (a &&& imm.signExtend 32 ≠ 0)
    | .ntst => decide (a &&& imm.signExtend 32 = 0)) ∧
  (∀ p a b within k, Completes (.bsel p a b within k) fun x => .done (x.mod fun g => g.setPred p.val
    (let lo := ((x.g.pair b).setWidth 32 : Word).toNat
     let hi := ((x.g.pair b >>> 32).setWidth 32 : Word).toNat
     let holds := fun (key : Word) =>
       if within then decide (lo ≤ (keyOf k key).toNat ∧ (keyOf k key).toNat ≤ hi) else decide (hi < (keyOf k key).toNat)
     if x.vector then maskOf x.g.width fun t => holds (x.a.val t) else if holds (x.a.val 0) then x.g.full else 0#128) x.act)) ∧
  (∀ d a b op, ∃ f : Bool → Bool → Bool, (∀ u v, f u v = match op with
      | .and => u && v
      | .or => u || v
      | .xor => u != v
      | .andn => u && !v
      | .orn => u || !v
      | .xnor => u == v
      | .nand => !(u && v)
      | .nor => !(u || v)) ∧
    Completes (.plog d a b op) fun x => .done (x.mod fun g => g.setPred d.val
      (maskOf 128 fun t => f (has (x.g.pred a.val) t) (has (x.g.pred b.val) t)) x.act)) ∧
  (∀ d a b ind p, Completes (.sel d a b ind p)
    (fun x => .done (putElem x (commonOf x false) fun t => if has (x.g.pred p.val) t then x.a.val t else x.b.val t))
    fun x => x.vector = true) ∧
  (∀ d a b ind p t, Completes (.sel d a b ind p)
    (fun x => .done (putElem x (commonOf x false) fun u => if has (x.g.pred p.val) t then x.a.val u else x.b.val u))
    fun x => x.vector = false ∧ lowest x.g.width x.act = some t) ∧
  (∀ d a b ind p, Completes (.sel d a b ind p) (fun x => .done x.s)
    fun x => x.vector = false ∧ lowest x.g.width x.act = none)

/-- IDIV completes (07 R181): with no active divisor 0 the truncated quotients or remainders go into flight; a divisor of 0 makes
its threads perform DIVZERO 0x109, which later delivers their D, while the others' results go into flight. -/
def Obligations.Division : Prop :=
  ∀ d a b ind uns rem, ∃ q : Word → Word → Word,
    (∀ a b, b ≠ 0 → q a b = match uns, rem with
      | true, false => BitVec.ofNat 32 (a.toNat / b.toNat)
      | true, true => BitVec.ofNat 32 (a.toNat % b.toNat)
      | false, false => BitVec.ofInt 32 (a.toInt.tdiv b.toInt)
      | false, true => BitVec.ofInt 32 (a.toInt.tmod b.toInt)) ∧
    Completes (.idiv d a b ind uns rem)
      (fun x => .done (longElem x (commonOf x false) x.act (fun t => q (x.a.val t) (x.b.val t)) 0#7))
      (fun x => zeroDivisors x = 0#128) ∧
    Completes (.idiv d a b ind uns rem)
      (fun x => .then_
        (if x.vector then longElem x (commonOf x false) (x.act &&& ~~~zeroDivisors x) (fun t => q (x.a.val t) (x.b.val t)) 0#7
         else x.flight x.s .ready [] 0#7)
        fun t => perform t x.k x.g.loop
          [x.perf 0x109 .once ((zeroDivisors x).setWidth 32) 0 0 (zeroDivisors x) (.value x.dst)])
      (fun x => zeroDivisors x ≠ 0#128)

/-! ### Floating point (07 R183 to R197) -/

/-- The sums, products, fused products, extrema, comparisons, conversions and packed halves complete, thread by thread, each
result rounded once, with the union of the threads' conditions (07 R184 to R189). -/
def Obligations.FloatArithmetic : Prop :=
  (∀ d a b ind rm, ComputesFlags (.fadd d a b ind rm) false fun a b _ => asWord (fadd .f32 rm a.toNat b.toNat)) ∧
  (∀ d a b ind rm, ComputesFlags (.fsub d a b ind rm) false fun a b _ => asWord (fsub .f32 rm a.toNat b.toNat)) ∧
  (∀ d a b ind rm, ComputesFlags (.fmul d a b ind rm) false fun a b _ => asWord (fmul .f32 rm a.toNat b.toNat)) ∧
  (∀ d a b ind nc rm, ComputesFlags (.ffma d a b ind nc rm) true fun a b d =>
    asWord (ffma .f32 rm a.toNat b.toNat d.toNat nc)) ∧
  (∀ d a b ind fn, ComputesFlags (.fmnx d a b ind fn) false fun a b _ => asWord (fmnx .f32 fn a.toNat b.toNat)) ∧
  (∀ p a b ind c, Completes (.fset p a b ind c) fun x =>
    .done (x.mod fun g => g.setPred p.val
      (if x.vector then maskOf x.g.width fun t => (fset c (x.a.val t).toNat (x.b.val t).toNat).1
       else if (fset c x.a.sca.toNat x.b.sca.toNat).1 then x.g.full else 0#128) x.act)
      (if x.vector then threadFlags x fun t => (fset c (x.a.val t).toNat (x.b.val t).toNat).2
       else (fset c x.a.sca.toNat x.b.sca.toNat).2)) ∧
  (∀ d a src tgt ind sat rm, ComputesFlags (.fcvt d a src tgt ind sat rm) false fun a _ _ => fcvt src tgt rm sat a) ∧
  (∀ d a b ind bf rm, ComputesFlags (.hadd2 d a b ind bf rm) false fun a b _ =>
    onHalves (fun a b _ => fadd (halfFmt bf) rm a b) a b 0) ∧
  (∀ d a b ind bf rm, ComputesFlags (.hfma2 d a b ind bf rm) true fun a b d =>
    onHalves (fun a b d => ffma (halfFmt bf) rm a b d false) a b d) ∧
  (∀ d a b ind bf rm, ComputesFlags (.hmul2 d a b ind bf rm) false fun a b _ =>
    onHalves (fun a b _ => fmul (halfFmt bf) rm a b) a b 0)

/-- The sign operations, exponents, scaling, row operations, special functions and CRC complete (07 R190 to R197; 09 R254). The
approximations of the special functions are free within their bounds (notes/assumptions/5.md). -/
def Obligations.FloatPartsAndChecksums : Prop :=
  (∀ d a b ind fn, Computes (.funa d a b ind fn) false fun a b _ => match fn with
    | .abs => a &&& 0x7FFFFFFF#32
    | .neg => a ^^^ 0x80000000#32
    | .cps => (a &&& 0x7FFFFFFF#32) ||| (b &&& 0x80000000#32)) ∧
  (∀ d a ind mant, ComputesFlags (.expo d a ind mant) false fun a _ _ => if mant then expoM a else expoE a) ∧
  (∀ d a b ind rm, ComputesFlags (.ldexp d a b ind rm) false fun a b _ => ldexp rm a b) ∧
  (∀ d a b ind, ComputesFlags (.maxe d a b ind) false fun a b _ => maxe a b) ∧
  (∀ d a b ind, ComputesFlags (.sexp d a b ind) false fun a b _ => sexp a b) ∧
  (∀ d a b ind bf, ComputesFlags (.frow d a b ind bf .ssq) true fun a _ d => rowSsq bf a d) ∧
  (∀ d a b ind bf, ComputesFlags (.frow d a b ind bf .sum) true fun a _ d => rowSum bf a d) ∧
  (∀ d a b ind bf, ComputesFlags (.frow d a b ind bf .ctr) false fun a b _ => rowCtr bf a b) ∧
  (∀ d a ind fn, Completes (.fsfu d a ind fn) fun x =>
    .done (longElem x (commonOf x false) x.act (fun t => (fsfu fn (x.a.val t)).1)
      (if x.vector then threadFlags x fun t => (fsfu fn (x.a.val t)).2 else (fsfu fn (x.a.val 0)).2))) ∧
  (∀ d a b sz, Computes (.crc d a b sz) false fun a b _ => crcOp sz a b)

/-! ### Moves and cross-lane words (05 R137; 06 R154 to R167; 07 R198 to R201) -/

/-- MOV completes in its six forms (05 R137): the map of A or the identity on D, the lane named modulo the width, the special
values of 01 R17. -/
def Obligations.MoveWords : Prop :=
  (∀ d a b, Completes (.mov d a b .vv) fun x => .done (putVec x (x.a.map.getD (LaneMap.ident x.g.wcode)) x.a.val)) ∧
  (∀ d a b, Completes (.mov d a b .vs) fun x => .done (putVec x (LaneMap.ident x.g.wcode) fun _ => x.a.sca)) ∧
  (∀ d a b, Completes (.mov d a b .sv) fun x => .done (x.mod (putScalar d (x.a.val (x.b.sca.toNat % x.g.width))))) ∧
  (∀ d a b, Completes (.mov d a b .ss) fun x => .done (x.mod (putScalar d x.a.sca))) ∧
  (∀ d a b, Completes (.mov d a b .vsp) fun x => .done (putVec x (LaneMap.ident x.g.wcode) (specialAt x b.toNat))) ∧
  (∀ d a b, Completes (.mov d a b .ssp) (fun x => .done (x.mod (putScalar d (specialOf x b.toNat)))) fun _ => 2 ≤ b.toNat) ∧
  (∀ d a b t, Completes (.mov d a b .ssp) (fun x => .done (x.mod (putScalar d (specialAt x b.toNat t))))
    fun x => b.toNat < 2 ∧ lowest x.g.width x.act = some t)

/-- The shuffles and MAP complete (06 R156 to R159): thread t takes the value of the thread the shuffle names; the editing forms
install the composed map, the moving ones the identity; an operand that breaks R157 performs RANGE and nothing else. -/
def Obligations.Shuffles : Prop :=
  (∀ d a b, Completes (.shfx d a b) fun x => .done (editMap x
    (LaneMap.idRows (x.g.wcode + 3), BitVec.ofNat 7 (x.b.sca.toNat % x.g.width)))) ∧
  (∀ d a b, Completes (.shfp d a b) (fun x => .done (editMap x (shfpShuffle x.g.wcode x.b.sca)))
    fun x => permOk x.g.wcode x.b.sca = true) ∧
  (∀ d a b, Performs (.shfp d a b) (fun x => x.range x.b.sca) fun x => permOk x.g.wcode x.b.sca = false) ∧
  (∀ d a b seg, Completes (.shfb d a b seg) (fun x => .done (editMap x (shfbShuffle x.g.wcode seg.val x.b.sca)))
    fun x => segExp x.g.wcode seg.val ≤ x.g.wcode + 3) ∧
  (∀ d a b seg, Performs (.shfb d a b seg) (fun x => x.range (BitVec.ofNat 32 seg.val))
    fun x => x.g.wcode + 3 < segExp x.g.wcode seg.val) ∧
  (∀ d a b, Completes (.mat d a b) (fun x => .done (editMap x (matShuffle x.g.wcode (x.g.pair b))))
    fun x => LaneMap.wellFormed (x.g.pair b) x.g.wcode = true) ∧
  (∀ d a b, Performs (.mat d a b) (fun x => x.range ((x.g.pair b).setWidth 32))
    fun x => LaneMap.wellFormed (x.g.pair b) x.g.wcode = false) ∧
  (∀ d n, Completes (.mapRd d (.v n)) fun x =>
    .done (x.mod (putPair d (x.g.vreg (x.g.phys n.val).toNat).map.descriptor))) ∧
  (∀ d a p, Completes (.mapWr d a)
    (fun x => .done (x.mod fun g => g.setVreg p { g.vreg p with map := LaneMap.ofDescriptor (x.g.pair a) x.g.wcode }))
    fun x => LaneMap.wellFormed (x.g.pair a) x.g.wcode = true ∧ x.dst = .vec p) ∧
  (∀ d a, Performs (.mapWr d a) (fun x => x.range ((x.g.pair a).setWidth 32))
    fun x => LaneMap.wellFormed (x.g.pair a) x.g.wcode = false) ∧
  (∀ d a, Completes (.mapId d a) fun x => .done (putVec x (LaneMap.ident x.g.wcode) x.a.val)) ∧
  (∀ d a b, Completes (.shfi d a b) fun x => .done (putVec x (LaneMap.ident x.g.wcode) fun t =>
    x.a.val ((x.b.val t).toNat % x.g.width))) ∧
  (∀ d a b seg, Completes (.shfr d a b seg)
    (fun x => .done (putVec x (LaneMap.ident x.g.wcode) fun t =>
      let n := 2 ^ segExp x.g.wcode seg.val
      x.a.val (t - t % n + (t % n + x.b.sca.toNat) % n)))
    fun x => segExp x.g.wcode seg.val ≤ x.g.wcode + 3) ∧
  (∀ d a b seg, Performs (.shfr d a b seg) (fun x => x.range (BitVec.ofNat 32 seg.val))
    fun x => x.g.wcode + 3 < segExp x.g.wcode seg.val)

/-- Votes, keyed words, scans, reductions and segments complete (06 R160 to R167; 07 R201): what each thread receives from the
active threads of its key, segment or group. -/
def Obligations.LaneReductions : Prop :=
  (∀ d p neg, Completes (.vote d p neg .any) fun x => .done (x.mod fun g =>
    g.setPred d.toNat (if acting x p neg ≠ 0#128 then x.g.full else 0#128) x.act)) ∧
  (∀ d p neg, Completes (.vote d p neg .all) fun x => .done (x.mod fun g =>
    g.setPred d.toNat (if acting x p neg = x.act then x.g.full else 0#128) x.act)) ∧
  (∀ d p neg, Completes (.vote d p neg .uni) fun x => .done (x.mod fun g =>
    g.setPred d.toNat (if acting x p neg = 0#128 ∨ acting x p neg = x.act then x.g.full else 0#128) x.act)) ∧
  (∀ d p neg, Completes (.vote d p neg .ballot)
    (fun x => .done (x.mod (putBallot (max 1 (x.g.width / 32)) (d.toNat - 96) (acting x p neg))))
    fun x => d.toNat ≠ 124 ∧ d.toNat - 96 + max 1 (x.g.width / 32) ≤ 28) ∧
  (∀ d a f, Completes (.matchk d a f .lead) fun x => .done (putVec x (LaneMap.ident x.g.wcode) fun t =>
    BitVec.ofNat 32 ((sameKey x f x.a.val t).head?.getD t))) ∧
  (∀ d a f, Completes (.matchk d a f .cnt) fun x => .done (putVec x (LaneMap.ident x.g.wcode) fun t =>
    BitVec.ofNat 32 (sameKey x f x.a.val t).length)) ∧
  (∀ d a f, Completes (.matchk d a f .rank) fun x => .done (putVec x (LaneMap.ident x.g.wcode) fun t =>
    BitVec.ofNat 32 ((sameKey x f x.a.val t).filter fun u => decide (u < t)).length)) ∧
  (∀ d a f next, Completes (.cdet d a f next) fun x => .done (putVec x (LaneMap.ident x.g.wcode) fun t =>
    (((if next then ((sameKey x f x.a.val t).filter fun u => decide (t < u)).head?
      else ((sameKey x f x.a.val t).filter fun u => decide (u < t)).getLast?).map (BitVec.ofNat 32)).getD 0xFFFFFFFF#32))) ∧
  (∀ d a b, Completes (.qapp d a b) fun x => .done (putVec x (LaneMap.ident x.g.wcode) fun t =>
    if (x.a.val t).toNat < x.g.width then
      x.b.val (x.a.val t).toNat + BitVec.ofNat 32 ((sameKey x false x.a.val t).filter fun u => decide (u < t)).length
    else 0xFFFFFFFF#32)) ∧
  (∀ d a h seg ex op, Completes (.pscan d a h seg ex op) fun x =>
    .done (putVec x (LaneMap.ident x.g.wcode) (scanAt x (if seg then x.g.pred h.val else 0#128) ex op))
      (threadFlags x fun t => (reduce (scanRed op) (((segment x (if seg then x.g.pred h.val else 0#128) t).filter
        fun u => decide (u ≤ t)).map x.a.val)).2)) ∧
  (∀ d a b f op, Completes (.redx d a b f op) fun x =>
    .done (putVec x (LaneMap.ident x.g.wcode) fun t => (reduce op ((redSet x b f t).map x.a.val)).1)
      (threadFlags x fun t => (reduce op ((redSet x b f t).map x.a.val)).2)) ∧
  (∀ d a h last op p, Completes (.segr d a h last op)
    (fun x => .done (x.mod fun g => g.writeVec x.s.tick p (LaneMap.ident x.g.wcode)
        (if last then maskOf x.g.width fun t => has x.act t && (segment x (x.g.pred h.val) t).getLast? == some t else x.act)
        fun t => (reduce (segRed op) ((segment x (x.g.pred h.val) t).map x.a.val)).1)
      (threadFlags x fun t => (reduce (segRed op) ((segment x (x.g.pred h.val) t).map x.a.val)).2))
    fun x => x.dst = .vec p)

/-- RLT and RWALK complete (07 R199, R200): each row's length and start packed in a word; the row and offset of each packed
position, with the heads in a predicate. RLT performs RANGE on a length or a total above 65,535. -/
def Obligations.RaggedRows : Prop :=
  (∀ d a, Completes (.rlt d a)
    (fun x => .done (putVec x (LaneMap.ident x.g.wcode) fun r =>
      BitVec.ofNat 32 ((x.a.val r).toNat * 65536 +
        ((((lanesOf x.g.width x.act).filter fun u => decide (u < r)).map fun u => (x.a.val u).toNat).sum))))
    fun x => (∀ t ∈ lanesOf x.g.width x.act, (x.a.val t).toNat ≤ 65535) ∧
      ((lanesOf x.g.width x.act).map fun t => (x.a.val t).toNat).sum ≤ 65535) ∧
  (∀ d a, Performs (.rlt d a)
    (fun x => x.range (BitVec.ofNat 32 ((lanesOf x.g.width x.act).map fun t => (x.a.val t).toNat).sum))
    fun x => (∀ t ∈ lanesOf x.g.width x.act, (x.a.val t).toNat ≤ 65535) ∧
      65535 < ((lanesOf x.g.width x.act).map fun t => (x.a.val t).toNat).sum) ∧
  (∀ d a t, Performs (.rlt d a) (fun x => x.range (x.a.val t))
    fun x => (lanesOf x.g.width x.act).find? (fun u => decide (65535 < (x.a.val u).toNat)) = some t) ∧
  (∀ d a b h, Completes (.rwalk d a b h) fun x => .done
    ((putVec x (LaneMap.ident x.g.wcode) fun t => match rowAt x (x.b.sca.toNat * x.g.width + t) with
      | some e => BitVec.ofNat 32 ((x.b.sca.toNat * x.g.width + t - e.2) * 65536 + e.1)
      | none => 0xFFFFFFFF#32).modGroup x.k fun g => g.setPred h.val
        (maskOf x.g.width fun t => match rowAt x (x.b.sca.toNat * x.g.width + t) with
          | some e => x.b.sca.toNat * x.g.width + t == e.2 || t == 0
          | none => false) x.act))

/-! ### Control and width (05) -/

/-- NOP, BRA, BRX, CALL, RET, EXIT, YIELD, LOOP, WINB, SETX, ISYNC, BKM and WAITF complete (05 R122 to R136): where the acting
lanes go and where a body forbids it, what CALL writes to the call stack, the loop state, the window base, X, the preference and the trace record. -/
def Obligations.ControlFlow : Prop :=
  (Completes .nop fun x => .done x.s) ∧
  (∀ neg p off, Completes (.bra neg p off) (fun x => .go x.s [(acting x p neg, .header (jumpTarget x off))])
    fun x => ∀ l, bodyLoop x = some l → x.iss.pc < jumpTarget x off ∧ jumpTarget x off < l.stop) ∧
  (∀ neg p off l, Performs (.bra neg p off) (fun x => x.range (BitVec.ofNat 32 (jumpTarget x off)))
    fun x => bodyLoop x = some l ∧ ¬(x.iss.pc < jumpTarget x off ∧ jumpTarget x off < l.stop)) ∧
  (∀ a neg p, Completes (.brx a neg p)
    (fun x => .go x.s ((lanesOf x.g.width (acting x p neg)).map fun t => (one t, .header (x.a.val t).toNat)))
    fun x => bodyLoop x = none) ∧
  (∀ neg p off, Completes (.call neg p off)
    (fun x =>
      let h := x.g.it.callHt + 1
      .go ((x.s.store (valueAt (x.g.callSlot h) 8 (x.iss.cl.stop + h * 4294967296))).modGroup x.k fun g =>
        { (g.modLanes (acting x p neg) fun l => { l with depth := h }) with it := { g.it with callHt := h } })
        [(acting x p neg, .header (jumpTarget x off))])
    fun x => bodyLoop x = none ∧ acting x p neg ≠ 0#128 ∧ x.g.wouldMeet (x.g.it.callHt + 1) x.g.depth = false) ∧
  (∀ neg p off, Completes (.call neg p off) (fun x => .done x.s) fun x => bodyLoop x = none ∧ acting x p neg = 0#128) ∧
  (∀ neg p off, Performs (.call neg p off) (fun x => x.range (BitVec.ofNat 32 (x.g.it.callHt + 1)))
    fun x => bodyLoop x = none ∧ acting x p neg ≠ 0#128 ∧ x.g.wouldMeet (x.g.it.callHt + 1) x.g.depth = true) ∧
  (∀ i : Instr, ((∃ a neg p, i = .brx a neg p) ∨ (∃ neg p off, i = .call neg p off) ∨ i = .ret ∨ i = .yield) →
    Performs i (fun x => x.range x.pc) fun x => bodyLoop x ≠ none) ∧
  (Completes .ret (fun x => .done (x.mod fun g => g.modLanes x.act fun l => { l with st := .ret }))
    fun x => bodyLoop x = none ∧ 0 < x.g.it.callHt) ∧
  (Performs .ret (fun x => x.range 0) fun x => bodyLoop x = none ∧ x.g.it.callHt = 0) ∧
  (Completes .exit fun x => .done (x.mod fun g => g.modLanes x.act fun l => { l with st := .exited })) ∧
  (Completes .yield (fun x => .then_ x.s fun s => s.modGroup x.k fun g => { g with yielded := 16 })
    fun x => bodyLoop x = none) ∧
  (∀ a n, Completes (.loop a n)
    (fun x =>
      let start := x.iss.cl.stop
      let l : Loop := ⟨x.a.sca.toNat, start, start + 4 * n.toNat, codeWords x.s x.g x.act start n.toNat, x.g.invOf x.act⟩
      .done ((afterFetch x.s x.g x.act start n.toNat).modGroup x.k fun g => { g with loop := some l }))
    fun x => x.a.sca ≠ 0 ∧ x.g.loop = none ∧ x.g.runnable &&& ~~~x.act = 0#128 ∧
      (codeWords x.s x.g x.act x.iss.cl.stop n.toNat).length = n.toNat ∧
      wholeClauses 64 (codeWords x.s x.g x.act x.iss.cl.stop n.toNat) = true) ∧
  (∀ a n, Performs (.loop a n) (fun x => x.range x.a.sca)
    fun x => x.g.loop ≠ none ∨ x.g.runnable &&& ~~~x.act ≠ 0#128 ∨
      (codeWords x.s x.g x.act x.iss.cl.stop n.toNat).length ≠ n.toNat ∨
      wholeClauses 64 (codeWords x.s x.g x.act x.iss.cl.stop n.toNat) = false) ∧
  (∀ a n, Completes (.loop a n)
    (fun x => .go (afterFetch x.s x.g x.act x.iss.cl.stop n.toNat) [(x.act, .header (x.iss.cl.stop + 4 * n.toNat))])
    fun x => x.a.sca = 0 ∧ x.g.loop = none ∧ x.g.runnable &&& ~~~x.act = 0#128 ∧
      (codeWords x.s x.g x.act x.iss.cl.stop n.toNat).length = n.toNat ∧
      wholeClauses 64 (codeWords x.s x.g x.act x.iss.cl.stop n.toNat) = true) ∧
  (∀ a imm, Completes (.winb a imm)
    (fun x => .done (x.mod fun g => { g with it := { g.it with winBase := x.a.sca.toNat + imm.toNat } }))
    fun x => (x.a.sca.toNat + imm.toNat) % 8 = 0 ∧ x.a.sca.toNat + imm.toNat < x.g.allot) ∧
  (∀ a imm, Performs (.winb a imm) (fun x => x.range (BitVec.ofNat 32 (x.a.sca.toNat + imm.toNat)))
    fun x => ¬((x.a.sca.toNat + imm.toNat) % 8 = 0 ∧ x.a.sca.toNat + imm.toNat < x.g.allot)) ∧
  (∀ a add, Completes (.setx a add) fun x => .done (x.mod fun g =>
    { g with it := { g.it with x := if add then g.it.x + x.a.sca else x.a.sca } })) ∧
  (Completes .isync fun x => .done (x.mod fun g => { g with stale := [] })) ∧
  (∀ a id, Completes (.bkm a id) fun x => .done (x.s.traceRecord x.g 1 x.pc x.csn (id.setWidth 32) x.a.sca)) ∧
  (∀ m, Completes (.waitf m) (fun x => .done x.s) fun x => ∀ i < 12, m.getLsbD i = true → x.g.flagPending i = false) ∧
  (∀ m i, Waits (.waitf m) fun x => i < 12 ∧ m.getLsbD i = true ∧ x.g.flagPending i = true)

/-- SPLIT and FUSE complete (05 R138 to R142): with the status of the first condition that fails, or with the new groups; FUSE waits
until its partners come, ends with 5 where their allotments or windows differ, and its time-out ends the wait with 2, or with 1 when a partner is gone. -/
def Obligations.WidthChanges : Prop :=
  (∀ d w, Waits (.split d w) fun x => unsettledGroup x.g = true) ∧
  (∀ d w code, Completes (.split d w) (fun x => .done (x.mod (putScalar d (BitVec.ofNat 32 code))))
    fun x => unsettledGroup x.g = false ∧
      stageOne x (if w.toNat = 32 then decide (32 < x.g.width) else x.g.width == 32)
        (if w.toNat < 32 then 1024 * w.toNat / 32 else 1024) = some code) ∧
  (∀ d w, Completes (.split d w)
    (fun x => .then_ x.s (if w.toNat < 32 then splitParts d (afterWidth x.g x.iss.cl) w.toNat x.k
      else splitMembers d (afterWidth x.g x.iss.cl) x.k))
    fun x => unsettledGroup x.g = false ∧
      stageOne x (if w.toNat = 32 then decide (32 < x.g.width) else x.g.width == 32)
        (if w.toNat < 32 then 1024 * w.toNat / 32 else 1024) = none) ∧
  (∀ d a tag, Waits (.fuse d a tag) fun x => x.iss.prog = .fresh ∧ unsettledGroup x.g = true) ∧
  (∀ d a tag code, Completes (.fuse d a tag) (fun x => .done (x.mod (putScalar d (BitVec.ofNat 32 code))))
    fun x => x.iss.prog = .fresh ∧ unsettledGroup x.g = false ∧
      stageOne x (if x.a.sca.toNat = 32 then decide (x.g.width < 32)
        else (x.a.sca.toNat == 64 || x.a.sca.toNat == 128) && x.g.width == 32) 1024 = some code) ∧
  (∀ staged : Ins → Prop, (staged = fun x => x.iss.prog ≠ .fresh ∨ (unsettledGroup x.g = false ∧
      stageOne x (if x.a.sca.toNat = 32 then decide (x.g.width < 32)
        else (x.a.sca.toNat == 64 || x.a.sca.toNat == 128) && x.g.width == 32) 1024 = none)) →
    (∀ d a tag, Completes (.fuse d a tag) (fun x => .done (x.mod (putScalar d 1)))
      fun x => staged x ∧
        ((fuseNames x.g x.a.sca.toNat).filter (· != x.k)).any (partnerGone x.s x.g x.a.sca.toNat) = true) ∧
    (∀ d a tag s g iss, Ready s g iss (.fuse d a tag) → staged (mkIns s g iss (.fuse d a tag)) →
      (let x := mkIns s g iss (.fuse d a tag)
       let others := (fuseNames x.g x.a.sca.toNat).filter (· != x.k)
       others.any (partnerGone x.s x.g x.a.sca.toNat) = false → (arrivedPartners x.s x tag x.a.sca.toNat).length < others.length →
       exec (.fuse d a tag) s = .next (s.setGroup { g with
         cur := some { iss with prog := .taken x.csn }, it := { g.it with csn := x.g.it.csn } }))) ∧
    (∀ d a tag, Completes (.fuse d a tag)
      (fun x =>
        let names := fuseNames x.g x.a.sca.toNat
        let ps := arrivedPartners x.s x tag x.a.sca.toNat
        let first := ((ps.find? fun p => p.x.k == names.headD x.k).map (·.x)).getD x
        .then_ x.s (fuseGroups names
          (names.map fun k => if k == x.k then d else ((ps.find? fun p => p.x.k == k).map (·.d)).getD .z)
          (afterWidth first.g first.iss.cl) x.a.sca.toNat))
      fun x =>
        let others := (fuseNames x.g x.a.sca.toNat).filter (· != x.k)
        let ps := arrivedPartners x.s x tag x.a.sca.toNat
        staged x ∧ others.any (partnerGone x.s x.g x.a.sca.toNat) = false ∧ others.length ≤ ps.length ∧
        (∀ p ∈ ps, p.x.g.allot = x.g.allot ∧ p.x.g.it.winBase = x.g.it.winBase)) ∧
    (∀ d a tag, Completes (.fuse d a tag)
      (fun x => ⟨x.mod (putScalar d 5), 0#7, [], fun s =>
        (arrivedPartners x.s x tag x.a.sca.toNat).foldl (fun s p => endWait s p.x.k 5) s⟩)
      fun x =>
        let others := (fuseNames x.g x.a.sca.toNat).filter (· != x.k)
        let ps := arrivedPartners x.s x tag x.a.sca.toNat
        staged x ∧ others.any (partnerGone x.s x.g x.a.sca.toNat) = false ∧ others.length ≤ ps.length ∧
        (∃ p ∈ ps, p.x.g.allot ≠ x.g.allot ∨ p.x.g.it.winBase ≠ x.g.it.winBase))) ∧
  (∀ s k g p, s.group? k = some g → waitingFuse s k = some p → mayIssue s g = true →
    exec (.fuseRendezvousTimeout k) s = .next (endWait s k
      (if ((fuseNames g p.x.a.sca.toNat).filter (· != k)).any (partnerGone s g p.x.a.sca.toNat) then 1 else 2)))

/-! ### Memory words (08; 15) -/

/-- LD, LDI, LDN and LDT complete (08 R203, R206, R209, R224): each acting thread reads its bytes, little-endian, through its own
group's queued stores; a queued atomic on those bytes makes the word wait. Each 32-bit half of a value that LDN reads of a space
other than team shared memory comes as a whole from a value that its word has held since the launch started and the group has not
stored over, from the line the core's invariant cache holds or, as LD reads it, from the stores of the group's core and the home (08
R209; 15 R318, R320; notes/assumptions/7.md); the group's own stores come first. A load whose every thread is misaligned lands nothing and performs ALIGN
0x102 with the offset of the lowest thread, the space and the size code (08 R204, R225; 11 R290). -/
def Obligations.LoadWords : Prop :=
  (∀ d a b m sz, Loads (.ld d a b m sz)
    (fun x => ⟨m, Size.bytes sz, Size.code sz, fun t => (x.a.val t + x.b.val t).toNat, fun _ => false⟩) (Size.bytes sz)
    (fun x t => (windowAt x m).flat + (x.a.val t + x.b.val t).toNat)
    fun x t => seenLoad x.s x.g ((windowAt x m).flat + (x.a.val t + x.b.val t).toNat) (Size.bytes sz)) ∧
  (∀ d a m sz cnt, Loads (.ldi d a m sz cnt) (fun x => accImm x m sz cnt) (Size.bytes sz)
    (fun x => accAt x (accImm x m sz cnt))
    fun x t => seenLoad x.s x.g (accAt x (accImm x m sz cnt) t) (Size.bytes sz)) ∧
  (∀ d a b sz, Loads (.ldn d a b .sh sz) (fun x => accOf x .sh sz) (Size.bytes sz) (fun x => accAt x (accOf x .sh sz))
    fun x t => seenLoad x.s x.g (accAt x (accOf x .sh sz) t) (Size.bytes sz)) ∧
  (∀ d a b m sz, m ≠ .sh → Loads (.ldn d a b m sz) (fun x => accOf x m sz) (Size.bytes sz) (fun x => accAt x (accOf x m sz))
    (fun x t => leNat ((List.range (Size.bytes sz)).map fun i =>
      ldnByte x (accAt x (accOf x m sz) t + i / 4 * 4) (accAt x (accOf x m sz) t + i)))
    fun x => ldnFill x (accOf x m sz)) ∧
  (∀ (x : Ins) (v a : Nat), unperformed x.s x.g a = true → ldnByte x v a = seenByte x.s x.g a) ∧
  (∀ (x : Ins) (v b : Nat),
    (∃ w ∈ pastWords x (4 * b), ∀ i < 4, unperformed x.s x.g (4 * b + i) = false →
      ldnByte x v (4 * b + i) = (w >>> (8 * i)).setWidth 8) ∨
    (∃ l, invLine (x.s.core x.k.core) x.corr (4 * b) = some l ∧ ∀ i < 4, unperformed x.s x.g (4 * b + i) = false →
      ldnByte x v (4 * b + i) = l.bytes.getD ((4 * b + i) % 64) 0) ∨
    (∀ i < 4, ldnByte x v (4 * b + i) = seenByte x.s x.g (4 * b + i))) ∧
  (∀ d a b m, Loads (.ldt d a b m)
    (fun x => ⟨m, 64, 0, fun t => (x.a.val t + x.b.val t).toNat, fun _ => false⟩) 2
    (fun x t => tagAddr ((windowAt x m).flat + (x.a.val t + x.b.val t).toNat))
    fun x t => (seenTag x.s x.g ((windowAt x m).flat + (x.a.val t + x.b.val t).toNat)).toNat) ∧
  (∀ d a b m sz, Waits (.ld d a b m sz) fun x => awaitsAtomic x (accOf x m sz) = true) ∧
  (∀ d a b m sz, ∀ off : Ins → Word,
    (off = fun x => BitVec.ofNat 32 ((accOf x m sz).off (if x.vector then (lowest x.g.width x.act).getD 0 else 0))) →
    Completes (.ld d a b m sz)
      (fun x => .then_ (loaded x (accOf x m sz) 0#128 (Size.bytes sz) (accAt x (accOf x m sz))
          (fun t => seenLoad x.s x.g (accAt x (accOf x m sz) t) (Size.bytes sz)) id)
        fun t => perform t x.k x.g.loop [x.perf 0x102 .none (off x)
          (BitVec.ofNat 32 (Space.code m + Size.code sz * 16)) 0 (fateMask x (accOf x m sz) .align) .none])
      fun x => accThreads x ≠ [] ∧ fateMask x (accOf x m sz) .align ≠ 0#128 ∧
        ∀ t ∈ accThreads x, (accOf x m sz).off t % Size.bytes sz ≠ 0)

/-- ST, STI and STT complete (08 R207, R208, R224): the bytes of the acting threads, in rising thread order, stand as one entry
at the end of the group's store queue, each value at its window's base plus offset, little-endian. -/
def Obligations.StoreWords : Prop :=
  (∀ d a b m sz, Completes (.st d a b m sz)
    (fun x => .done (enqueue x.k (entryOf x (accOf x m sz) (.bytes ((accThreads x).flatMap fun t =>
      valueAt ((windowAt x m).flat + (x.a.val t + x.b.val t).toNat) (Size.bytes sz)
        ((x.d.val t).toNat + (if sz = .b64 then (dNext x 1 t).toNat * 4294967296 else 0)))) none) x.s))
    fun x => Allowed x (accOf x m sz) ∧ accThreads x ≠ []) ∧
  (∀ d a m sz cnt, Completes (.sti d a m sz cnt)
    (fun x => .done (enqueue x.k (entryOf x (accImm x m sz cnt) (.bytes ((accThreads x).flatMap fun t =>
      valueAt (accAt x (accImm x m sz cnt) t) (Size.bytes sz)
        ((x.d.val t).toNat + (if sz = .b64 then (dNext x 1 t).toNat * 4294967296 else 0)))) none) x.s))
    fun x => Allowed x (accImm x m sz cnt) ∧ accThreads x ≠ []) ∧
  (∀ d a b m, ∀ acc : Ins → Acc,
    (acc = fun x => ⟨m, 64, 0, fun t => (x.a.val t + x.b.val t).toNat, fun t => decide (13 ≤ (x.d.val t).toNat % 256)⟩) →
    Completes (.stt d a b m)
      (fun x => .done (enqueue x.k (entryOf x (acc x) (.tags ((accThreads x).map fun t =>
        ((windowAt x m).flat + (x.a.val t + x.b.val t).toNat, (x.d.val t).setWidth 16))) none) x.s))
      fun x => Allowed x (acc x) ∧ accThreads x ≠ [])

/-- ATOMH, ATOMP and ACAS complete (08 R211 to R215): the updates stand as one entry in the group's queue, and old values land
when it is performed. -/
def Obligations.AtomicWords : Prop :=
  (∀ d a b op, Updates (.atomh d a b op) (fun x => atomAcc x .sh) (.atom op) fun x t =>
    ⟨t, (windowAt x .sh).flat + (x.a.val t + x.b.val t).toNat, 0, (x.d.val t).setWidth 64⟩) ∧
  (∀ d a b op, Updates (.atomp d a b op) (fun x => atomAcc x .sp) (.atom op) fun x t =>
    ⟨t, (windowAt x .sp).flat + (x.a.val t + x.b.val t).toNat, 0, (x.d.val t).setWidth 64⟩) ∧
  (∀ d a b m sz, sz ≠ .b64 → Updates (.acas d a b m sz) (fun x => accOf x m sz) (.cas false) fun x t =>
    ⟨t, (windowAt x m).flat + (x.a.val t + x.b.val t).toNat, (x.d.val t).setWidth 64, (dNext x 1 t).setWidth 64⟩) ∧
  (∀ d a b m, Updates (.acas d a b m .b64) (fun x => accOf x m .b64) (.cas true) fun x t =>
    ⟨t, (windowAt x m).flat + (x.a.val t + x.b.val t).toNat, joined (x.d.val t) (dNext x 1 t),
      joined (dNext x 2 t) (dNext x 3 t)⟩)

/-- FENCE, BAR, BARA, BARW and BARI complete (08 R216 to R221): what each kind of fence waits for and what it leaves behind, by
its scope; the lanes that arrive, that wait for a phase or go on; the count that BARI sets. A fence reaches beyond the core where its
scope does: at .die, .dev and .sys, and at .clu in a cluster of more than one core (15 R322); FENCE.rel then stands in the queue
before what follows it, FENCE.full and .eng bring the core's stores to their homes, and within the core, beyond .grp, before what its
walker and engines do next (15 R322, R324). Inside a handler the synchronising ones perform
HANDLERSYNC 0x10F (R223). -/
def Obligations.FencesAndBarriers : Prop :=
  (∀ c, Completes (.fence .rel c) fun x => .done (if wideScope x c then
    enqueue x.k ⟨0, .fence, none, .none, 0, 0, x.pc, x.csn, x.mark⟩ x.s else x.s)) ∧
  (∀ c, Completes (.fence .acq c) (fun x => .done x.s) fun x => x.g.pend.any (·.mem) = false) ∧
  (∀ c, Completes (.fence .full c) (fun x => .done (if wideScope x c then landAll x.s x.k.core
      else if c = .grp then x.s else dueAll x.s x.k.core))
    fun x => x.g.pend.any (·.mem) = false ∧ (x.g.queue = [] ∨ c = .grp)) ∧
  (∀ c, Completes (.fence .eng c) (fun x => .done (if wideScope x c then landAll x.s x.k.core
      else if c = .grp then x.s else dueAll x.s x.k.core))
    fun x => x.g.pend.any (·.mem) = false ∧ x.g.queue = []) ∧
  (∀ c, Waits (.fence .acq c) fun x => x.g.pend.any (·.mem) = true) ∧
  (∀ c, Waits (.fence .full c) fun x => x.g.pend.any (·.mem) = true ∨ (x.g.queue ≠ [] ∧ c ≠ .grp)) ∧
  (∀ c, Waits (.fence .eng c) fun x => x.g.pend.any (·.mem) = true ∨ x.g.queue ≠ []) ∧
  (∀ x c, wideScope x c = match c with
    | .grp => false
    | .team => false
    | .clu => match x.team with
      | some t => decide (1 < t.cluRows * t.cluCols)
      | none => false
    | .die => true
    | .dev => true
    | .sys => true) ∧
  (∀ n, Completes (.bar n)
    (fun x => .done (x.mod fun g => g.modLanes x.act fun l => { l with st := .arrive n.val true none x.iss.pc }))
    fun x => inInvocation x = false) ∧
  (∀ k n, Completes (.bara (.s k) n)
    (fun x => .done (x.mod fun g => g.modLanes x.act fun l => { l with st := .arrive n.val false (some k.val) x.iss.pc }))
    fun x => inInvocation x = false) ∧
  (∀ n, Completes (.bara .z n)
    (fun x => .done (x.mod fun g => g.modLanes x.act fun l => { l with st := .arrive n.val false none x.iss.pc }))
    fun x => inInvocation x = false) ∧
  (∀ a n, Completes (.barw a n) (fun x => .done x.s)
    fun x => inInvocation x = false ∧ (x.s.bar x.g.team n.val).phase ≠ x.a.sca.getLsbD 0) ∧
  (∀ a n, Completes (.barw a n)
    (fun x => .done (x.mod fun g => g.modLanes x.act fun l => { l with st := .phase n.val (x.a.sca.getLsbD 0) x.iss.pc false }))
    fun x => inInvocation x = false ∧ (x.s.bar x.g.team n.val).phase = x.a.sca.getLsbD 0) ∧
  (∀ i : Instr, ((∃ n, i = .bar n) ∨ (∃ d n, i = .bara d n) ∨ ∃ a n, i = .barw a n) →
    Performs i (fun x => x.perf 0x10F .none (BitVec.ofNat 32 x.op) 0 0 x.act .none) fun x => inInvocation x = true) ∧
  (∀ a n fixed, Completes (.bari a n fixed)
    (fun x => .done (x.s.putBar x.g.team n.val
      { x.s.bar x.g.team n.val with expected := x.a.sca.setWidth 12, track := !fixed }))
    fun x => 1 ≤ x.a.sca.toNat ∧ x.a.sca.toNat ≤ 4095 ∧ (x.s.bar x.g.team n.val).arrived = 0 ∧
      barWaits x.s x.g.team n.val = false) ∧
  (∀ a n fixed, Performs (.bari a n fixed) (fun x => x.range x.a.sca)
    fun x => ¬(1 ≤ x.a.sca.toNat ∧ x.a.sca.toNat ≤ 4095 ∧ (x.s.bar x.g.team n.val).arrived = 0 ∧
      barWaits x.s x.g.team n.val = false))

/-! ### Copies and jobs at their issue (09) -/

/-- LAYD, CPY, CPYP, RROT, CLOSE and WAITB complete (09 R228 to R243): a record is captured whole, a copy stands in the core's
queue in the open batch, a batch is closed and numbered, WAITB goes on once its batches have completed and waits before. With no
entry free for the team CPY, CPYP and RROT wait, and their .nb forms write 0 to pD and go on (R239); that the room is tested before
the command block is looked at is the model's reading (notes/assumptions/39.md). -/
def Obligations.CopyIssue : Prop :=
  (∀ l a b m r, Completes (.layd l a b m)
    (fun x => .done (x.s.modTeam x.g.team fun t => { t with layouts := t.layouts.set l.val (some r) }))
    fun x =>
      let acc : Acc := ⟨m, 64, 0, fun _ => (x.a.sca + x.b.sca).toNat, fun _ => false⟩
      let at_ := (windowAt x m).flat + (x.a.sca + x.b.sca).toNat
      fateAt x acc 0 = .ok ∧ awaitsAtomic x acc = false ∧ seenPoison x.s x.g at_ 64 = false ∧
      layoutOf ((List.range 64).map fun i => seenByte x.s x.g (at_ + i)) = some r) ∧
  (∀ p a nb fo shared pl, Completes (.cpy p a nb fo) (fun x => .done (setQueued x nb p true (commit x pl shared x.s)))
    fun x => copyRoom x.s x.k.core x.g.team = some shared ∧ planOf x false fo a = .ok pl ∧ planFault x pl.m = none ∧
      Passes (bankSource x pl.m) ∧ Passes (unpinned x (if pl.m.dst.space = 3 then unitsOf pl.m.writeSpans else [])) ∧
      Passes (followRoom x pl.follow)) ∧
  (∀ p a nb shared pl, Completes (.cpyp p a nb) (fun x => .done (setQueued x nb p true (commit x pl shared x.s)))
    fun x => copyRoom x.s x.k.core x.g.team = some shared ∧ planOf x true false a = .ok pl ∧ planFault x pl.m = none ∧
      Passes (bankSource x pl.m) ∧ Passes (unpinned x (if pl.m.dst.space = 3 then unitsOf pl.m.writeSpans else [])) ∧
      Passes (followRoom x pl.follow)) ∧
  (∀ (i : Instr) p, ((∃ a fo, i = .cpy p a true fo) ∨ (∃ a, i = .cpyp p a true) ∨ ∃ a, i = .rrot p a true) →
    Completes i (fun x => .done (x.s.modGroup x.k fun g => g.setPred p.val 0#128 x.act))
      fun x => copyRoom x.s x.k.core x.g.team = none) ∧
  (∀ (i : Instr) p, ((∃ a fo, i = .cpy p a false fo) ∨ (∃ a, i = .cpyp p a false) ∨ ∃ a, i = .rrot p a false) →
    Waits i fun x => copyRoom x.s x.k.core x.g.team = none) ∧
  (∀ p a nb shared r, Completes (.rrot p a nb)
    (fun x =>
      let n := (blockAt x a 2).toNat
      .done (setQueued x nb p true (queueCopy x
        (byteMove (rawBytes (blockAt x a 0).toNat n) (rawBytes (blockAt x a 1).toNat n) n)
        (.ring x.g.team r.1.uid (shAddr r.1.core r.1.shBase)) r.2 shared [] [] none x.s)))
    fun x => copyRoom x.s x.k.core x.g.team = some shared ∧ ringOf x a = .ok r) ∧
  (∀ d, Completes (.close d) fun x => .done (x.mod fun g =>
    putScalar d (x.g.it.lastBatch + 1) { g with it := { g.it with lastBatch := x.g.it.lastBatch + 1 } })) ∧
  (∀ a, Completes (.waitb a) (fun x => .done x.s)
    fun x => (x.g.it.lastBatch - x.a.sca).toNat < 2147483648 ∧ batchesOpen x.s x.k x.own x.a.sca = false) ∧
  (∀ a, Waits (.waitb a)
    fun x => (x.g.it.lastBatch - x.a.sca).toNat < 2147483648 ∧ batchesOpen x.s x.k x.own x.a.sca = true) ∧
  (∀ a, Performs (.waitb a) (fun x => x.range x.a.sca) fun x => 2147483648 ≤ (x.g.it.lastBatch - x.a.sca).toNat)

/-- ENQ, WAITH, TSTH, CANH, HSTO, HLOD, BINA and BHIST complete (09 R244 to R256): the job entered with its descriptor, its handle
in flight; the status of a completed job; the cancellation; a handle stored and loaded; elements appended to a bin stream
once the group's stores have left its queue, those it refuses told by BINRANGE 0x10D; the
histogram's increments in the store queue. A card that breaks R244 performs RANGE; a
handle that names no job performs STALEHANDLE. -/
def Obligations.JobIssue : Prop :=
  (∀ h a i, Completes (.enq h a)
    (fun x =>
      let c := blockAt x a
      let at_ := accAt x (descAcc (c 1).toNat) 0
      let desc := (List.range 256).map fun n => seenByte x.s x.g (at_ + n)
      let gen := nextGen (x.s.die x.die) i
      let j := newJob x i x.s.nextId gen c desc (!descOk (windowAt x .sp).size x.corr c desc)
      let e := enterColl x.s x.die j
      let s := enterJob e.1 x.die e.2
      .done (x.flight (if seenPoison x.s x.g at_ 256 then engPoison s (.job x.die i) at_ (c 1).toNat else s) .ready [.handle h.val (handleWord j.kind x.die i gen x.csn)] 0#7))
    fun x =>
      let c := blockAt x a
      cardBad (windowAt x .sp).size c = none ∧ jobSlot x.s x.die = some i ∧
      fateAt x (descAcc (c 1).toNat) 0 ≠ .secure ∧ awaitsAtomic x (descAcc (c 1).toNat) = false) ∧
  (∀ h a v, Performs (.enq h a) (fun x => x.range v) fun x => cardBad (windowAt x .sp).size (blockAt x a) = some v) ∧
  (∀ h a, Waits (.enq h a) fun x => cardBad (windowAt x .sp).size (blockAt x a) = none ∧ jobSlot x.s x.die = none) ∧
  (∀ d h j n, Completes (.waith d h) (fun x => .done (x.mod (putScalar d (BitVec.ofNat 32 n))))
    fun x => jobOf x.s (x.g.handle h.val) = some j ∧ j.status? = some n) ∧
  (∀ d h j, Waits (.waith d h) fun x => jobOf x.s (x.g.handle h.val) = some j ∧ j.status? = none) ∧
  (∀ p h j, Completes (.tsth p h)
    (fun x => .done (x.mod fun g => g.setPred p.val (if j.finished then x.g.full else 0#128) x.act))
    fun x => jobOf x.s (x.g.handle h.val) = some j) ∧
  (∀ (i : Instr) h, ((∃ d, i = .waith d h) ∨ (∃ p, i = .tsth p h) ∨ i = .canh h) →
    Performs i (fun x => staleHandle x h) fun x => jobOf x.s (x.g.handle h.val) = none) ∧
  (∀ h j, Completes (.canh h) (fun x => .done (cancelJob x.s (dieOfHandle (x.g.handle h.val)) j))
    fun x => jobOf x.s (x.g.handle h.val) = some j) ∧
  (∀ h a b j, Completes (.hsto h a b)
    (fun x => .done (enqueue x.k (entryOf x (handleAcc x)
      (.bytes (valueAt (accAt x (handleAcc x) 0) 8 (x.g.handle h.val).toNat)) none) x.s))
    fun x => fateAt x (handleAcc x) 0 = .ok ∧ jobOf x.s (x.g.handle h.val) = some j) ∧
  (∀ h a b, Completes (.hlod h a b)
    (fun x => .done (x.flight x.s .ready
      [.handle h.val (BitVec.ofNat 64 (seenLoad x.s x.g (accAt x (handleAcc x) 0) 8))] 0#7))
    fun x => fateAt x (handleAcc x) 0 = .ok ∧ CleanRead x (handleAcc x)) ∧
  (∀ n a b st, Completes (.bina n a b) (fun x => .done (appendBins x n.val (binEls x) x.s).s)
    fun x => x.s.stream? x.die x.corr n.val = some st ∧ x.g.queue = [] ∧ (appendBins x n.val (binEls x) x.s).rest = [] ∧
      (appendBins x n.val (binEls x) x.s).bad = []) ∧
  (∀ n a b, Performs (.bina n a b) (fun x => x.range (BitVec.ofNat 32 n.val))
    fun x => x.s.stream? x.die x.corr n.val = none) ∧
  (∀ n a b st, Waits (.bina n a b) fun x => x.s.stream? x.die x.corr n.val = some st ∧ x.iss.prog = .fresh ∧ x.g.queue ≠ []) ∧
  (∀ n a b st, Completes (.bina n a b)
    (fun x => .then_ (appendBins x n.val (binEls x) x.s).s fun t => perform t x.k x.g.loop
      [x.perf 0x10D .once (BitVec.ofNat 32 n.val) ((((appendBins x n.val (binEls x) x.s).bad.head?).map (·.idx)).getD 0) 0
        (maskOf x.g.width fun t => (appendBins x n.val (binEls x) x.s).bad.any fun e => e.thread == t)
        (.bin x.csn (appendBins x n.val (binEls x) x.s).bad
          (x.here (.bin x.csn (appendBins x n.val (binEls x) x.s).bad)))])
    fun x => x.s.stream? x.die x.corr n.val = some st ∧ x.g.queue = [] ∧
      (appendBins x n.val (binEls x) x.s).rest = [] ∧ (appendBins x n.val (binEls x) x.s).bad ≠ []) ∧
  (∀ d a b dig k els, Completes (.bhist d a b dig k)
    (fun x => .done (enqueue x.k { entryOf x ⟨.sh, 64, 0, fun _ => x.a.sca.toNat,
      fun _ => decide ((windowAt x .sh).size < x.a.sca.toNat + 1024)⟩ (.atom .addS32 els) none with dst := .none } x.s))
    fun x =>
      Allowed x ⟨.sh, 64, 0, fun _ => x.a.sca.toNat, fun _ => decide ((windowAt x .sh).size < x.a.sca.toNat + 1024)⟩ ∧
      els ≠ [] ∧
      els = ((accThreads x).filter fun u => keyCounts dig.val x.d.sca (keyOf k (x.b.val u))).map fun u =>
        ⟨u, (windowAt x .sh).flat + x.a.sca.toNat + 4 * bucketOf dig.val (keyOf k (x.b.val u)), 0, 1⟩)

/-! ### Claims and matrix entries at their issue (10) -/

/-- OCLM, ACLM, ACLM.grant, OREL, AREL and AREL.revoke complete (10 R260 to R262): all the halves or banks of a range or none, with
D at 0 or 1; a grant to a live group of the team; releases that wait while something in flight touches what they name. -/
def Obligations.ClaimWords : Prop :=
  (∀ d a r core, Completes (.oclm d a) (fun x => .done ((x.mod (putScalar d 0)).setCore x.k.core core))
    fun x => halfRange x.a.sca = some r ∧ claimHalves x (numbers r) = some core) ∧
  (∀ d a r, Completes (.oclm d a) (fun x => .done (x.mod (putScalar d 1)))
    fun x => halfRange x.a.sca = some r ∧ claimHalves x (numbers r) = none) ∧
  (∀ d a, Performs (.oclm d a) (fun x => x.range x.a.sca) fun x => halfRange x.a.sca = none) ∧
  (∀ d a r core, Completes (.aclm d a) (fun x => .done ((x.mod (putScalar d 0)).setCore x.k.core core))
    fun x => bankRange x.a.sca = some r ∧ claimBanks x (numbers r) = some core) ∧
  (∀ d a r, Completes (.aclm d a) (fun x => .done (x.mod (putScalar d 1)))
    fun x => bankRange x.a.sca = some r ∧ claimBanks x (numbers r) = none) ∧
  (∀ a b k g, Completes (.aclmGrant a b) (fun x => .done (regrant x [k] (some (x.s.ownOf g))))
    fun x => bankOf x.a.sca = some k ∧ x.b.sca.toNat < 1024 ∧ lacking x [] [k] [] = none ∧ granteeOf x x.b.sca = some g) ∧
  (∀ a r, Completes (.orel a) (fun x => .done (freeHalves x.s x.k.core (numbers r)))
    fun x => halfRange x.a.sca = some r ∧ lacking x (numbers r) [] [] = none ∧
      ∀ h ∈ numbers r, (x.s.core x.k.core).halfBusy h = false) ∧
  (∀ a r h, Waits (.orel a) fun x => halfRange x.a.sca = some r ∧ lacking x (numbers r) [] [] = none ∧
    h ∈ numbers r ∧ (x.s.core x.k.core).halfBusy h = true) ∧
  (∀ a r, Completes (.arel a) (fun x => .done (freeBanks x.s x.k.core x.g.it.stampOn (numbers r)))
    fun x => bankRange x.a.sca = some r ∧ lacking x [] (numbers r) [] = none ∧
      (x.s.core x.k.core).openBy x.own ⟨r.1, r.2⟩ = false ∧ (x.s.core x.k.core).carried ⟨r.1, r.2⟩ = [] ∧
      ∀ b ∈ numbers r, bankBusy x.s x.k.core b = false) ∧
  (∀ a r, Completes (.arelRevoke a) (fun x => .done (regrant x ((numbers r).filter ((x.s.core x.k.core).ownsBank x.own)) none))
    fun x => bankRange x.a.sca = some r ∧ ∀ b ∈ numbers r, (x.s.core x.k.core).ownsBank x.own b = true ∨
      ((x.s.core x.k.core).bank b).grantee ≠ some x.own)

/-- MMA, MMAA, MMSP, PUBL, PUBL.seal, SETL, ALIN, AFIL, ADRN, OLD, SLTG, AST and OST complete (10 R263 to R278): once their
descriptors, rights and waits let them go, each puts one entry into the core's matrix queue, takes a tag, goes into flight or goes
on. -/
def Obligations.MatrixIssue : Prop :=
  (∀ i p, ((∃ d a b tb ov, i = .mma d a b tb ov) ∨ (∃ d a b ov, i = .mmaa d a b ov) ∨ ∃ d a b tb ov, i = .mmsp d a b tb ov) →
    Completes i (fun x => .done (placeEntry x x.s p.op false true p.der))
      fun x => productOf i x.d.sca x.a.sca x.b.sca = .ok p ∧ Passes (takeProduct x p x.d.sca)) ∧
  (∀ d a t n, Completes (.publ d a)
    (fun x => .done (placeEntry x ((x.mod (putScalar d (BitVec.ofNat 32 n))).modCore x.k.core fun c => c.modTag n fun _ =>
      ⟨.opened, x.g.team, x.own, t, 0, []⟩) (.publ t (some n)) false true none))
    fun x => tileOf x.a.sca = some t ∧ lacking x [] t.banks [] = none ∧ (x.s.core x.k.core).carried t = [] ∧
      Passes (queueRoom x) ∧ (x.s.core x.k.core).freeTag = some n) ∧
  (∀ d a t, Completes (.publ d a)
    (fun x => .done (placeEntry x (x.mod (putScalar d 0xFFFFFFFF#32)) (.publ t none) false true none))
    fun x => tileOf x.a.sca = some t ∧ lacking x [] t.banks [] = none ∧ (x.s.core x.k.core).carried t = [] ∧
      Passes (queueRoom x) ∧ (x.s.core x.k.core).freeTag = none) ∧
  (∀ a t n, Completes (.publSeal a) (fun x => .done (placeEntry x x.s (.seal t n) false true none))
    fun x => tileOf x.a.sca = some t ∧ (x.s.core x.k.core).openTag x.own t = some n ∧ Passes (queueRoom x)) ∧
  (∀ a, Completes (.setl a) (fun x => .done x.s) fun x => x.a.sca.toNat < 65536 ∧
    ∀ n < 16, x.a.sca.getLsbD n = true →
      (((x.s.core x.k.core).tag n).st ≠ .opened ∨ ((x.s.core x.k.core).tag n).pub ≠ x.own) ∧
      (((x.s.core x.k.core).tag n).unsettled = false ∨ ((x.s.core x.k.core).tag n).team ≠ x.g.team)) ∧
  (∀ d a b op t u o, Completes (.alin d a b op) (fun x => .done (placeEntry x x.s (.alin o t) false true (some o)))
    fun x => tileOf x.d.sca = some t ∧ tileOf x.a.sca = some u ∧ alinOp op u x.b.sca = some o ∧ alinFits t o = true ∧
      lacking x [] t.banks (o.sources.flatMap Tile.banks) = none ∧ Passes (writable x t x.d.sca false) ∧
      Passes (queueRoom x) ∧ Passes (tableRoom x (some o))) ∧
  (∀ a b t, Completes (.afil a b) (fun x => .done (placeEntry x x.s (.afil t x.b.sca) false true none))
    fun x => tileOf x.a.sca = some t ∧ lacking x [] t.banks [] = none ∧ Passes (writable x t x.a.sca false) ∧
      Passes (queueRoom x)) ∧
  (∀ d a b k p, Completes (.adrn d a b)
    (fun x => .done (x.flight (x.mod fun g => (g.fixVec p (LaneMap.ident x.g.wcode) x.act).fixVec (p + 1)
      (LaneMap.ident x.g.wcode) x.act) (.drain k x.b.sca.toNat p x.act) [] 0#7))
    fun x => bankOf x.a.sca = some k ∧ x.b.sca.toNat % x.g.width = 0 ∧ x.b.sca.toNat + 2 * x.g.width ≤ 2048 ∧
      lacking x [] [] [k] = none ∧ Passes (nonLinear x ⟨k, 1⟩ x.a.sca) ∧
      Passes (drainable x (k * 8192 + 4 * x.b.sca.toNat) (8 * x.g.width)) ∧ x.dst = .vec p) ∧
  (∀ d a b r, Completes (.old d a b)
    (fun x => .done (placeEntry x x.s (.old ((windowAt x .sh).flat + x.d.sca.toNat) r.1 r.2
      (if b = .z then none else some (x.b.sca.setWidth 16))) true true none))
    fun x => halfRange x.a.sca = some r ∧ (b = .z ∨ badTag x.b.sca = false) ∧ x.d.sca.toNat % 64 = 0 ∧
      x.d.sca.toNat + 8192 * r.2 ≤ (windowAt x .sh).size ∧ lacking x (numbers r) [] [] = none ∧
      Passes (unpinned x (numbers r)) ∧ Passes (queueRoom x)) ∧
  (∀ a b r, Completes (.sltg a b) (fun x => .done (placeEntry x x.s (.sltg r.1 r.2 (x.b.sca.setWidth 16)) false true none))
    fun x => halfRange x.a.sca = some r ∧ badTag x.b.sca = false ∧ lacking x (numbers r) [] [] = none ∧
      Passes (unpinned x (numbers r)) ∧ Passes (queueRoom x)) ∧
  (∀ d a b m t, Completes (.ast d a b m)
    (fun x => .done (placeEntry x x.s (.ast t ((windowAt x m).flat + x.d.sca.toNat) x.b.sca.toNat) true true none))
    fun x => tileOf x.a.sca = some t ∧ x.b.sca.toNat % 256 = 0 ∧ x.d.sca.toNat % 64 = 0 ∧
      x.d.sca.toNat + (32 * t.n - 1) * x.b.sca.toNat + 256 ≤ (windowAt x m).size ∧
      astSecure x (windowAt x m) x.d.sca.toNat x.b.sca.toNat (32 * t.n) = false ∧ lacking x [] [] t.banks = none ∧
      Passes (nonLinear x t x.a.sca) ∧ Passes (drainable x (t.base * 8192) (t.n * 8192)) ∧ Passes (queueRoom x)) ∧
  (∀ d a b sat fmt t at_ hs, Completes (.ost d a b sat fmt)
    (fun x => .done (placeEntry x x.s (.ost t fmt sat (x.b.sca.setWidth 8) at_) true true none))
    fun x => tileOf x.a.sca = some t ∧ x.b.sca.toNat < 256 ∧ ostDest x t fmt = .ok (at_, hs) ∧ lacking x hs [] t.banks = none ∧
      Passes (nonLinear x t x.a.sca) ∧ Passes (drainable x (t.base * 8192) (t.n * 8192)) ∧ Passes (queueRoom x))

/-! ### Effects and system words (11) -/

/-- PERF, HPSH, HPOP, RSUM, TOKD, TOKD.abort and TOKD.mov complete (11 R282, R283, R288, R289, R291, R294): PERF has its effect
performed by the lanes the predicate picks, with value(B) as p0, or goes on when it picks none; HPSH pushes the frame of its operands
over the active lanes, or nothing with no active lane; HPOP makes its lanes wait for the others of the top frame; RSUM resumes lanes
of the invocation that a live token names with an action its effect admits (R290); TOKD discards an empty register or the token of an
ended MANY invocation, TOKD.abort aborts the invocation, TOKD.mov moves the token. Operands that break a rule perform RANGE 0x103 and
an empty register does so for RSUM, .abort and .mov; a token that names no live invocation performs STALETOKEN 0x10C. -/
def Obligations.EffectWords : Prop :=
  (∀ d a b neg p kind, Completes (.perf d a b neg p)
    (fun x => .then_ x.s fun t => perform t x.k x.g.loop [⟨BitVec.ofNat 11 (x.a.sca.toNat % 2048), kind, x.pc, x.csn,
      x.b.sca, 0, 0, 0, acting x p neg, .soft x.dst (x.here .fresh), none⟩])
    fun x => kindOf (x.a.sca.toNat / 2048) = some kind ∧ x.a.sca.toNat % 2048 ≤ 255 ∧ acting x p neg ≠ 0#128) ∧
  (∀ d a b neg p kind, Completes (.perf d a b neg p) (fun x => .done x.s)
    fun x => kindOf (x.a.sca.toNat / 2048) = some kind ∧ x.a.sca.toNat % 2048 ≤ 255 ∧ acting x p neg = 0#128) ∧
  (∀ d a b neg p, Performs (.perf d a b neg p) (fun x => x.range x.a.sca)
    fun x => kindOf (x.a.sca.toNat / 2048) = none ∨ 255 < x.a.sca.toNat % 2048) ∧
  (∀ n kind, kindOf n = some kind ↔ (n = 1 ∧ kind = .once) ∨ (n = 2 ∧ kind = .many) ∨ (n = 3 ∧ kind = .none)) ∧
  (∀ d a b, Completes (.hpsh d a b)
    (fun x =>
      let f : Frame := ⟨x.s.nextId, x.a.sca, x.b.sca, x.d.sca.setWidth 11, (x.d.sca >>> 11).setWidth 11, false, x.act,
        x.g.it.callHt, x.g.invOf x.act⟩
      .done (spill (({ x.s with nextId := x.s.nextId + 1 } : State).modGroup x.k fun g =>
        { g with it := { g.it with frames := f :: g.it.frames } }) x.k))
    fun x => x.act ≠ 0#128 ∧ x.d.sca.toNat < 4194304 ∧ x.g.depth + 1 ≤ (if x.g.parts ≤ 1 then 255 else 256 / x.g.parts) ∧
      x.g.wouldMeet x.g.it.callHt (x.g.depth + 1) = false) ∧
  (∀ d a b, Completes (.hpsh d a b) (fun x => .done x.s) fun x => x.act = 0#128) ∧
  (∀ d a b, Performs (.hpsh d a b) (fun x => x.range x.d.sca) fun x => x.act ≠ 0#128 ∧ 4194304 ≤ x.d.sca.toNat) ∧
  (∀ d a b, Performs (.hpsh d a b) (fun x => x.range (BitVec.ofNat 32 (x.g.depth + 1)))
    fun x => x.act ≠ 0#128 ∧ x.d.sca.toNat < 4194304 ∧ ((if x.g.parts ≤ 1 then 255 else 256 / x.g.parts) < x.g.depth + 1 ∨
      x.g.wouldMeet x.g.it.callHt (x.g.depth + 1) = true)) ∧
  (∀ f fs, Completes .hpop (fun x => .done (x.mod fun g => g.modLanes x.act fun l => { l with st := .hpop f.uid }))
    fun x => x.g.it.frames = f :: fs ∧ f.running = false ∧ x.act &&& ~~~f.lanes = 0#128) ∧
  (Performs .hpop (fun x => x.range 0) fun x => x.g.it.frames = []) ∧
  (∀ f fs, Performs .hpop (fun x => x.range (BitVec.ofNat 32 x.g.depth))
    fun x => x.g.it.frames = f :: fs ∧ (f.running = true ∨ x.act &&& ~~~f.lanes ≠ 0#128)) ∧
  (∀ k b act c, Completes (.rsum k b act)
    (fun x => .then_ x.s fun s =>
      resume s x.k c.uid (if c.perf.kind = .once then c.left &&& x.g.present else x.act) act x.b.val)
    fun x => (x.g.token k.val).toNat / 1073741824 ≠ 0 ∧ liveToken x.s x.g (x.g.token k.val) = some c ∧
      usedDeeper x.g c x.act = false ∧ c.perf.kind ≠ .none ∧ act ∈ allowedActs c.perf.eff ∧
      (if c.perf.kind = .once then c.left &&& x.g.present else x.act) &&& ~~~c.q = 0#128) ∧
  (∀ k b act c, Performs (.rsum k b act) (fun x => x.range (x.g.token k.val))
    fun x => (x.g.token k.val).toNat / 1073741824 ≠ 0 ∧ liveToken x.s x.g (x.g.token k.val) = some c ∧
      (usedDeeper x.g c x.act = true ∨ c.perf.kind = .none ∨ act ∉ allowedActs c.perf.eff ∨
        (if c.perf.kind = .once then c.left &&& x.g.present else x.act) &&& ~~~c.q ≠ 0#128)) ∧
  (∀ eff act, act ∈ allowedActs eff ↔ (eff = 0x104#11 ∧ (act = .retry ∨ act = .skip ∨ act = .patch)) ∨
    (eff = 0x105#11 ∧ (act = .retry ∨ act = .skip)) ∨ (eff = 0x109#11 ∧ act = .cont) ∨ (eff = 0x10A#11 ∧ act = .cont) ∨
    (eff = 0x10D#11 ∧ (act = .cont ∨ act = .skip)) ∨ (eff = 0x110#11 ∧ act = .retry) ∨
    (eff.toNat < 256 ∧ (act = .cont ∨ act = .retry))) ∧
  (∀ k, Completes (.tokd k) (fun x => .done x.s) fun x => (x.g.token k.val).toNat / 1073741824 = 0) ∧
  (∀ k c, Completes (.tokd k)
    (fun x => .done (x.mod fun g =>
      ({ g with ctxs := g.ctxs.filter fun y => y.uid != c.uid } : Group).setToken k.val 0))
    fun x => (x.g.token k.val).toNat / 1073741824 ≠ 0 ∧ liveToken x.s x.g (x.g.token k.val) = some c ∧
      c.ended = true ∧ c.perf.kind = .many) ∧
  (∀ k c, Performs (.tokd k) (fun x => x.range (x.g.token k.val))
    fun x => (x.g.token k.val).toNat / 1073741824 ≠ 0 ∧ liveToken x.s x.g (x.g.token k.val) = some c ∧
      ¬(c.ended = true ∧ c.perf.kind = .many)) ∧
  (∀ k c, Completes (.tokdAbort k) (fun x => .then_ x.s fun s => abort s x.k c.uid x.act x.iss.pc)
    fun x => (x.g.token k.val).toNat / 1073741824 ≠ 0 ∧ liveToken x.s x.g (x.g.token k.val) = some c ∧
      (c.ended = true → x.act &&& ~~~c.q = 0#128)) ∧
  (∀ k c, Performs (.tokdAbort k) (fun x => x.range (x.g.token k.val))
    fun x => (x.g.token k.val).toNat / 1073741824 ≠ 0 ∧ liveToken x.s x.g (x.g.token k.val) = some c ∧
      c.ended = true ∧ x.act &&& ~~~c.q ≠ 0#128) ∧
  (∀ j k c, Completes (.tokdMov j k)
    (fun x => .done (x.mod fun g => (g.setToken j.val (g.token k.val)).setToken k.val 0))
    fun x => (x.g.token k.val).toNat / 1073741824 ≠ 0 ∧ liveToken x.s x.g (x.g.token k.val) = some c) ∧
  (∀ (i : Instr) k, ((∃ b act, i = .rsum k b act) ∨ i = .tokdAbort k ∨ ∃ j, i = .tokdMov j k) →
    Performs i (fun x => x.range (x.g.token k.val)) fun x => (x.g.token k.val).toNat / 1073741824 = 0) ∧
  (∀ (i : Instr) k, ((∃ b act, i = .rsum k b act) ∨ i = .tokd k ∨ i = .tokdAbort k ∨ ∃ j, i = .tokdMov j k) →
    Performs i (fun x => x.perf 0x10C .none (x.g.token k.val) 0 0 x.act .none)
      fun x => (x.g.token k.val).toNat / 1073741824 ≠ 0 ∧ liveToken x.s x.g (x.g.token k.val) = none)

/-- The SYS words complete (11 R295, R296; 01 R22; 24 R420, R424): each goes into flight; RDSR, TIME and FLAGS land what they read at
issue, WRSR and STAMP act at their completion, PROF writes a trace record. These moments are the model's reading
(notes/assumptions/43.md). A STAMP performs ACCUNALLOC 0x107 for a bank that is not the group's to use (10 R261). -/
def Obligations.SystemWords : Prop :=
  (∀ d sel, Completes (.sysRdsr d sel) fun x => .done (x.flight x.s .ready (scalarLand d (systemReg x sel.toNat)) 0#7)) ∧
  (∀ a sel, Completes (.sysWrsr a sel) (fun x => .done (x.flight x.s (.wrsr sel.toNat x.a.sca) [] 0#7))
    fun _ => 16 ≤ sel.toNat) ∧
  (∀ a sel, Performs (.sysWrsr a sel) (fun x => x.range (BitVec.ofNat 32 sel.toNat)) fun _ => sel.toNat < 16) ∧
  (∀ a, Completes (.sysStamp a)
    (fun x => .done (x.flight x.s (.stamp x.a.sca) [] 0#7))
    fun x => x.a.sca.toNat < 8388608 ∧ lacking x [] [] [x.a.sca.toNat / 65536] = none) ∧
  (∀ a, Performs (.sysStamp a) (fun x => x.range x.a.sca) fun x => 8388608 ≤ x.a.sca.toNat) ∧
  (∀ a, Performs (.sysStamp a)
    (fun x => x.perf 0x107 .none (BitVec.ofNat 32 (x.a.sca.toNat / 65536)) 0 0 x.act .none)
    fun x => x.a.sca.toNat < 8388608 ∧ (x.s.core x.k.core).readsBank x.own (x.a.sca.toNat / 65536) = false) ∧
  (∀ a, Completes (.sysProf a) fun x => .done (x.flight (x.s.traceRecord x.g 2 x.pc x.csn x.a.sca 0) .ready [] 0#7)) ∧
  (∀ n, Completes (.sysTime (.s n)) fun x => .done (x.flight x.s .ready
    [.sreg n.val (BitVec.ofNat 32 x.s.ns), .sreg (n.val + 1) (BitVec.ofNat 32 (x.s.ns / 4294967296))] 0#7)) ∧
  (Completes (.sysTime .z) fun x => .done (x.flight x.s .ready [] 0#7)) ∧
  (∀ d a, Completes (.sysFlags d a true) fun x => .done (x.flight x.s .ready (scalarLand d x.g.it.fflags) 0#7)) ∧
  (∀ d a, Completes (.sysFlags d a false) fun x => .done (x.flight
    (x.mod fun g => { g with it := { g.it with fflags := x.a.sca &&& 0x1F7F#32 } }) .ready
    (scalarLand d x.g.it.fflags) 0#7))

/-! ### The walker (12) -/

/-- WLI, WADD, WSUB, WMUL, WSHL, WSHR and WAND complete (12 R299, R301): the value in its register, w0 reading 0 and discarding
writes, the PC on by 4, one step counted. -/
def Obligations.WalkerArithmetic : Prop :=
  (∀ d imm, WalkSets (.wli d imm) d fun _ => imm.signExtend 32) ∧
  (∀ d a b imm, WalkSets (.wadd d a b imm) d fun w => w.reg a + w.reg b + imm.signExtend 32) ∧
  (∀ d a b, WalkSets (.wsub d a b) d fun w => w.reg a - w.reg b) ∧
  (∀ d a b, WalkSets (.wmul d a b) d fun w => BitVec.ofNat 32 ((w.reg a).toNat * (w.reg b).toNat)) ∧
  (∀ d a n, WalkSets (.wshl d a n) d fun w => w.reg a <<< n.val) ∧
  (∀ d a n, WalkSets (.wshr d a n) d fun w => w.reg a >>> n.val) ∧
  (∀ d a b, WalkSets (.wand d a b) d fun w => w.reg a &&& w.reg b) ∧
  (∀ w : Walker, w.reg 0 = 0) ∧ (∀ (w : Walker) v, w.put 0 v = w) ∧
  (∀ (w : Walker) n m v, n ≠ 0 → w.w.length = 16 → (w.put n v).reg m = if m = n then v else w.reg m)

/-- WLDW, WLDH, WLDB, WBEQ, WBNE, WBLO, WBHS, WJMP and WHALT complete (12 R301, R302, R307): little-endian loads from the window of
their space, with cause 2 off their alignment or window and cause 3 in secure bytes, the scratchpad as the core's port reaches it: after
the stores that come before (15 R322 to R324, R328); branches by unsigned comparison; the end of the job with status 0. -/
def Obligations.WalkerLoadsAndBranches : Prop :=
  (∀ i d a sp imm n, ((i = .wldw d a sp imm ∧ n = 4) ∨ (i = .wldh d a sp imm ∧ n = 2) ∨ (i = .wldb d a sp imm ∧ n = 1)) →
    Walks i (fun s c w j =>
        let u := walkSees s c j sp
        putWalker u c (some { w.put d (BitVec.ofNat 32 (u.load
          ((walkWindow s c j sp).flat + (w.reg a + imm.signExtend 32).toNat) n)) with pc := w.pc + 4, steps := w.steps + 1, part := 0 }))
      (fun s c w j =>
        let off := (w.reg a + imm.signExtend 32).toNat
        off % n = 0 ∧ off + n ≤ (walkWindow s c j sp).size ∧ walkSecure s j (walkWindow s c j sp) off n = false ∧
        (walkSees s c j sp).anyPoison ((walkWindow s c j sp).flat + off) n = false) ∧
    Walks i (fun s c w j => walkFault s c w j 2)
      (fun s c w j =>
        let off := (w.reg a + imm.signExtend 32).toNat
        off % n ≠ 0 ∨ (walkWindow s c j sp).size < off + n) ∧
    Walks i (fun s c w j => walkFault s c w j 3)
      (fun s c w j =>
        let off := (w.reg a + imm.signExtend 32).toNat
        off % n = 0 ∧ off + n ≤ (walkWindow s c j sp).size ∧ walkSecure s j (walkWindow s c j sp) off n = true)) ∧
  (∀ a b imm, WalkBranches (.wbeq a b imm) imm fun w => w.reg a = w.reg b) ∧
  (∀ a b imm, WalkBranches (.wbne a b imm) imm fun w => w.reg a ≠ w.reg b) ∧
  (∀ a b imm, WalkBranches (.wblo a b imm) imm fun w => (w.reg a).toNat < (w.reg b).toNat) ∧
  (∀ a b imm, WalkBranches (.wbhs a b imm) imm fun w => (w.reg b).toNat ≤ (w.reg a).toNat) ∧
  (∀ imm, WalkBranches (.wjmp imm) imm fun _ => True) ∧
  Walks .whalt fun s c _ j => completeJob (putWalker s c none) (dieOf c) j.idx 0

/-- WTGT, WZERO, WEMIT, WRUN, WARV and WFAULT complete (12 R303 to R305, R301): the target, the bytes emitted to it with the tag of
every block they touch, an arrival, a fault of the program's own with cause 16 + n. WZERO and WRUN write up to a 64-byte boundary of
the target in one step and take as many steps as that needs, where a halt or CANH may come between them (R306, R309); a WRUN of no
elements writes nothing, and one beyond its target or window faults with cause 4. -/
def Obligations.WalkerTargets : Prop :=
  (∀ a b t, Walks (.wtgt a b)
    (fun s c w _ => putWalker s c (some { w with target := some t, pc := w.pc + 4, steps := w.steps + 1, part := 0 }))
    fun s c w j => targetOf (w.reg a) (w.reg b) = some t ∧ targetOwned s c j t = true) ∧
  (∀ a b, Walks (.wtgt a b) (fun s c w j => walkFault s c w j 5) fun _ _ w _ => targetOf (w.reg a) (w.reg b) = none) ∧
  (∀ t, Walks .wzero (fun s c w _ =>
      let n := t.2.1 * 8192
      let k := min (n - w.part) (64 - (0 + w.part) % 64)
      putWalker (emit s c t (0 + w.part) (List.replicate k (if t.2.2.1 = 6 then 0x77#8 else 0#8))) c
        (some (if n ≤ w.part + k then { w with pc := w.pc + 4, steps := w.steps + 1, part := 0 } else { w with part := w.part + k })))
    fun s c w j => w.target = some t ∧ targetOwned s c j t = true) ∧
  (∀ a b t, Walks (.wemit a b) (fun s c w _ => putWalker
      (emit s c t ((w.reg a).toNat * elemBytes t) (leBytes (elemBytes t) (w.reg b).toNat)) c
      (some { w with pc := w.pc + 4, steps := w.steps + 1, part := 0 }))
    fun s c w j => w.target = some t ∧ (w.reg a).toNat < elemCount t ∧ targetOwned s c j t = true) ∧
  (∀ a b t, Walks (.wemit a b) (fun s c w j => walkFault s c w j 4)
    fun _ _ w _ => w.target = none ∨ (w.target = some t ∧ elemCount t ≤ (w.reg a).toNat)) ∧
  (∀ d a b sp t, Walks (.wrun d a b sp)
    (fun s c w j =>
      let at_ := (w.reg a).toNat * elemBytes t
      let n := elemBytes t * (w.reg d).toNat
      let k := min (n - w.part) (64 - (at_ + w.part) % 64)
      let u := walkSees s c j sp
      putWalker (emit u c t (at_ + w.part) (u.bytes ((walkWindow s c j sp).flat + (w.reg b).toNat + w.part) k)) c
        (some (if n ≤ w.part + k then { w with pc := w.pc + 4, steps := w.steps + 1, part := 0 } else { w with part := w.part + k })))
    fun s c w j => w.target = some t ∧ w.reg d ≠ 0 ∧ (w.reg a).toNat + (w.reg d).toNat ≤ elemCount t ∧
      (w.reg b).toNat % elemBytes t = 0 ∧
      (w.reg b).toNat + elemBytes t * (w.reg d).toNat ≤ (walkWindow s c j sp).size ∧
      walkSecure s j (walkWindow s c j sp) (w.reg b).toNat (elemBytes t * (w.reg d).toNat) = false ∧
      (walkSees s c j sp).anyPoison ((walkWindow s c j sp).flat + (w.reg b).toNat + w.part)
        (min (elemBytes t * (w.reg d).toNat - w.part) (64 - ((w.reg a).toNat * elemBytes t + w.part) % 64)) = false ∧
      targetOwned (walkSees s c j sp) c j t = true) ∧
  (∀ d a b sp t, Walks (.wrun d a b sp)
    (fun s c w _ => putWalker s c (some { w with pc := w.pc + 4, steps := w.steps + 1, part := 0 }))
    fun s c w j => w.target = some t ∧ w.reg d = 0 ∧ (w.reg b).toNat % elemBytes t = 0 ∧
      (w.reg b).toNat ≤ (walkWindow s c j sp).size) ∧
  (∀ d a b sp t, Walks (.wrun d a b sp) (fun s c w j => walkFault s c w j 4)
    fun s c w j => w.target = none ∨ (w.target = some t ∧
      ((w.reg d ≠ 0 ∧ elemCount t < (w.reg a).toNat + (w.reg d).toNat) ∨ (w.reg b).toNat % elemBytes t ≠ 0 ∨
        (walkWindow s c j sp).size < (w.reg b).toNat + elemBytes t * (w.reg d).toNat))) ∧
  (∀ n, Walks (.warv n)
    (fun s c w j => putWalker (s.putBar j.team n.val ((s.bar j.team n.val).add 1)) c
      (some { w with pc := w.pc + 4, steps := w.steps + 1, part := 0 }))
    fun s _ _ j => (s.bar j.team n.val).refuses 1 = false) ∧
  (∀ n, Walks (.warv n) (fun s c w j => walkFault s c w j 7) fun s _ _ j => (s.bar j.team n.val).refuses 1 = true) ∧
  (∀ n, Walks (.wfault n) fun s c w j => walkFault s c w j (16 + n.toNat)) ∧
  (∀ s c w j cause, walkFault s c w j cause = completeJob (putWalker
      (addLate s j.key j.own j.corr ⟨0x10E#11, .none, j.pc, j.csn, w.pc, BitVec.ofNat 32 cause, 0, 0, 0#128, .none, some j.mark⟩)
      c none) (dieOf c) j.idx 6)


/-! ### Steps without a word (95) -/

/-- The steps of a group complete: the clause header that lets its lanes in, the next word of a clause, a late effect at a header or at
a wait, a step of its queue, a long-latency instruction that lands, a copy stall (05 R117 to R119; 01 R20 to R22; 08 R208; 09 R239,
R240; 15 R325, R333; 17 R362). A store of the scratchpad leaves the queue into the core order, one of team shared memory is
performed; what is on its way reaches its slice. -/
def Obligations.GroupEvents : Prop :=
  ∀ (s : State) (g : Group), s.group? g.key = some g →
  (mayIssue s g = true → g.cur = none →
    (∀ cl i p m, select g = some (.inside cl i p, m) →
      exec (.clauseHeader g.key) s = .next (s.setGroup { g with cur := some ⟨cl, i, m, p⟩ })) ∧
    (∀ pc m cl w, select g = some (.header pc, m) → g.late = [] → (breakpointAt s (corrOf s g) pc = none ∨ g.bpSkip = some pc) →
      pc % 4 = 0 → poisonedCode s g m pc (clauseWords s g m pc) = false →
      readClause pc (codeWords s g m pc (clauseWords s g m pc)) = .ok (cl, w) →
      (∀ f < 12, w / 2 ^ f % 2 = 1 ∨ f = cl.seta ∨ f = cl.setb → g.flagPending f = false) →
      exec (.clauseHeader g.key) s = .next ((afterFetch s g m pc (clauseWords s g m pc)).modGroup g.key fun h =>
        { h with cur := some ⟨cl, 0, m, .fresh⟩, bpSkip := if h.bpSkip = some pc then none else h.bpSkip })) ∧
    (∀ pc m n, select g = some (.header pc, m) → g.late = [] → breakpointAt s (corrOf s g) pc = some n → g.bpSkip ≠ some pc →
      exec (.clauseHeader g.key) s = .next (hitBreakpoint s g pc n)) ∧
    (∀ m p, lateLanes g = some m → g.nextLate = some p →
      exec (.lateEffectDelivery g.key) s = .next (settle (perform (s.setGroup (g.dropLate p)) g.key g.loop
        [{ p with lanes := m }]) g.key))) ∧
  (∀ iss m p, mayIssue s g = true → g.cur = some iss → lateLanes g = some m → g.nextLate = some p →
    exec (.lateEffectDelivery g.key) s = .next (settle (perform
      (s.setGroup ((g.place iss.active (.inside iss.cl iss.idx iss.prog)).dropLate p)) g.key g.loop [{ p with lanes := m }]) g.key)) ∧
  (∀ e rest, g.queue = e :: rest → aloft s g.key = false →
    (e.op = .fence → exec (.storeQueueDrain g.key) s = .next (tryRetire ((landAll (s.setGroup { g with queue := rest }) g.key.core).modGroup
      g.key fun h => { h with pend := h.pend.map fun p => if p.id < e.id then { p with reads := [] } else p }) g.key)) ∧
    (e.op ≠ .fence → e.op.far = false → exec (.storeQueueDrain g.key) s =
      .next (tryRetire (meetCore (dueAll (performFor (s.setGroup { g with queue := rest }) g.key e) g.key.core) g.key true
        (Flight.cells ⟨g.key, e, false⟩)) g.key)) ∧
    (e.op ≠ .fence → e.op.far = true → exec (.storeQueueDrain g.key) s =
      .next (tryRetire (meetCore ((s.setGroup { g with queue := rest }).modCore g.key.core fun c =>
          { c with flights := c.flights ++ (e.op.parts s.poisoned).map fun op => ⟨g.key, { e with op := op }, false⟩ }) g.key
        (!e.op.cells.isEmpty) (Flight.cells ⟨g.key, e, false⟩)) g.key))) ∧
  (g.queue = [] → aloft s g.key = true →
    exec (.storeQueueDrain g.key) s = .next (tryRetire (landSome s g.key (Config.drainPick s.tick / 2)) g.key)) ∧
  (∀ p, g.pend.find? (fun q => q.id == p.id) = some p → p.await = .ready → p.flags = 0#7 →
    exec (.longLatencyCompletion g.key p.id) s = .next (retireCore (s.setGroup
      { p.lands.foldl Group.land g with pend := (p.lands.foldl Group.land g).pend.filter fun q => q.id != p.id }) g.key.core)) ∧
  (∀ x res free src, stalled s g.key = some (x, res, free, src) →
    exec (.copystall g.key) s = .next (finish x s 0#7 [] (performStall x res free src))) ∧
  (∀ x res free src t, performStall x res free src t = (perform t x.k ((t.group? x.k).bind (·.loop))
    [x.perf 0x105 .once (BitVec.ofNat 32 free) (BitVec.ofNat 32 t.times.stallUs) (BitVec.ofNat 32 res) x.act src]).modGroup x.k
      fun h => { h with loop := x.g.loop })

/-- The steps of a core's engines complete: a destination block of the copy whose turn it is, the start of a matrix entry, the end of
one or of a half of OLD, a correction applied, the walker's step limit and its faults (17 R359; 10 R263, R272, R274; 12 R306 to
R308). -/
def Obligations.CoreEvents : Prop :=
  ∀ (s : State) (c : Nat),
  (∀ y, s.copy? c y.id = some y → nextCopy s c = some y.id →
    exec (.copyBlock c y.id) s = .next (retireCore (serveCopy s c y) c)) ∧
  (∀ e w, c < s.cores.length → nextEntry s c = some e → followLacks ((arraySees s c e).core c) e = none →
      runOp (arraySees s c e) c e.op e.done = .ok w →
    ∃ t r, exec (.matrixEntryStart c) s = .next t ∧ (t.core c).running = some r ∧ r.entry = e ∧ r.perf = none ∧
      r.flags = w.flags ∧ ((t.core c).mq.any fun f => f.id == e.id) = false) ∧
  (∀ r, (s.core c).running = some r →
    exec (.matrixEntryFinish c) s = .next (finishEntry s c r) ∧
    (r.more = false → exec (.matrixEntryFinish c) s = .next (endEntry (arrayStore s c r.entry r.bytes r.tags) c r)) ∧
    (r.more = true → exec (.matrixEntryFinish c) s =
      .next (nextHalf (arrayStore s c r.entry r.bytes r.tags) c { r.entry with done := r.entry.done + 1 })) ∧
    (r.entry.op.reaches = false → arrayStore s c r.entry r.bytes r.tags = (s.store r.bytes).setTags r.tags) ∧
    (r.entry.op.reaches = true → arrayStore s c r.entry r.bytes r.tags = (meetLoads ((coreSees s c fun f =>
      f.key == r.entry.key && decide (f.e.id < r.entry.id)).store r.bytes) (portMeets c r.entry.key r.entry.id) r.bytes).setTags r.tags)) ∧
  (∀ a l, (s.core c).apps = a :: l → (s.core c).running = none → appsRun s (a.entry.corr s) = true →
    exec (.correctionApplication c) s = .next (applyNext s c a)) ∧
  (∀ w j, (s.core c).walker = some w → s.job? (dieOf c) w.job = some j → walkerGoes s c w = true →
    ((walkerWord w).isSome = true → s.times.stepLimit ≤ w.steps →
      exec (.walkerStepLimit c) s = .next (walkFault s c w j 6)) ∧
    ((w.pc.toNat % 4 ≠ 0 ∨ w.code.length < w.pc.toNat + 4) → exec (.walkfault c) s = .next (walkFault s c w j 1)) ∧
    (w.pc.toNat % 4 = 0 → w.pc.toNat + 4 ≤ w.code.length → walkerWord w = none →
      exec (.walkfault c) s = .next (walkFault s c w j 0)))

/-- The steps that serve a job complete (09 R245, R248 to R250, R253, R439; 12 R298, R309): a descriptor that breaks its rules ends
the job with 7, one that CANH marks ends with 5 where it stands at a block boundary or has not started, what is under way to a peer
leaves first. `t` is the state in which the service begins (`Machine.served`): a queued job starts in it. Then one key, row, block or
region is served, or the job ends with 0. -/
def Obligations.JobEvents : Prop :=
  ∀ (s : State) (d n : Nat) (j : Job), s.job? d n = some j → j.idx = n → j.finished = false →
  (∀ i, ((i = .binningOpen d n ∧ j.kind = 0 ∧ (j.c 2).getLsbD 0 = false) ∨ (i = .binningReplay d n ∧ j.kind = 0 ∧ (j.c 2).getLsbD 0 = true) ∨
      (i = .gather d n ∧ j.kind = 2) ∨ (i = .topkHistogram d n ∧ j.kind = 3 ∧ (j.c 2).getLsbD 0 = false) ∨
      (i = .topkSelect d n ∧ j.kind = 3 ∧ (j.c 2).getLsbD 0 = true) ∨ (i = .mainToMainCopy d n ∧ j.kind = 5)) →
    (j.bad = true → exec i s = .next (completeJob s d n 7)) ∧
    (j.kind ≠ 0 → j.bad = false → j.canh = true → (j.st = .queued ∨ j.atBoundary = true ∨ unanswered s j = true) →
      exec i s = .next (completeJob s d n 5)) ∧
    (j.bad = false → j.canh = false → j.st = .queued → jobStarts s d j = false → exec i s = .next s) ∧
    (j.bad = false → j.canh = false → j.started = true → j.susp = .none → j.out ≠ [] →
      exec i s = .next (flushRest s (.job d n))) ∧
    (j.bad = false → j.canh = false → j.started = true → j.susp ≠ .none → exec i s = .next s)) ∧
  (j.bad = false → j.canh = false → j.out = [] → ∀ t, served s d j = some t →
    (j.kind = 0 → (j.c 2).getLsbD 0 = false →
      ((t.windowOf j.corr d).bind (fun w => streamOf w.2 j.stream j.corr j.desc) = none →
        exec (.binningOpen d n) s = .next (completeJob t d n 7)) ∧
      (∀ w st, t.windowOf j.corr d = some w → streamOf w.2 j.stream j.corr j.desc = some st →
        (t.stream? d j.corr j.stream = none → exec (.binningOpen d n) s =
          .next (completeJob (t.modDie d fun x => { x with streams := x.streams ++ [st] }) d n 0)) ∧
        (∀ old, t.stream? d j.corr j.stream = some old →
          (replayBusy t d j = true → exec (.binningOpen d n) s = .next t) ∧
          (replayBusy t d j = false → j.bins ≠ [] → exec (.binningOpen d n) s = .next (replayStep t d n old j)) ∧
          (replayBusy t d j = false → j.bins = [] → old.held ≠ 0 → exec (.binningOpen d n) s = .next (takeBins t d n old)) ∧
          (replayBusy t d j = false → j.bins = [] → old.held = 0 → exec (.binningOpen d n) s =
            .next (completeJob (t.modStream d j.corr j.stream fun _ => { st with els := old.els }) d n 0))))) ∧
    (∀ w g, j.kind = 2 → t.windowOf j.corr d = some w → gatherOf w.2 (j.c 2).toNat j.desc = some g →
      (j.mv = none → (j.c 2).toNat ≤ j.at_ → exec (.gather d n) s = .next (completeJob t d n 0)) ∧
      (j.mv = none → j.at_ < (j.c 2).toNat → exec (.gather d n) s = .next (takeRow t d n j g)) ∧
      (∀ m, j.mv = some m → m.src.ext1 ≤ m.c2.toNat → skipOf j.toEng (rowMark j.at_) = none →
        exec (.gather d n) s = .next (copyFault t (.job d n) false 0 (rowMark j.at_) 1)) ∧
      (∀ m k, j.mv = some m → m.src.ext1 ≤ m.c2.toNat → skipOf j.toEng (rowMark j.at_) = some k →
        exec (.gather d n) s = .next (nextRow (if k.patch then t else fillRow t (.job d n) m) d n)) ∧
      (∀ m, j.mv = some m → m.c2.toNat < m.src.ext1 → exec (.gather d n) s =
        .next (if moveDone (serveBlock t (.job d n)) (.job d n) then nextRow (serveBlock t (.job d n)) d n
          else serveBlock t (.job d n)))) ∧
    (j.kind = 3 → (j.c 2).getLsbD 0 = false →
      (j.at_ < (j.c 4).toNat →
        (∀ u, readKey t d n j (topkOf j.desc) = (u, none) → exec (.topkHistogram d n) s = .next u) ∧
        (∀ u, readKey t d n j (topkOf j.desc) = (u, some none) → exec (.topkHistogram d n) s = .next (nextKey u d n false false)) ∧
        (∀ u k, readKey t d n j (topkOf j.desc) = (u, some (some k)) → exec (.topkHistogram d n) s =
          .next (nextKey (if keyCounts j.digit (j.c 3) k then u.modJob d n fun x =>
            { x with counts := x.counts.modify (bucketOf j.digit k) (· + 1) } else u) d n false false))) ∧
      ((j.c 4).toNat ≤ j.at_ → (∀ b < 256, j.at_ - (j.c 4).toNat ≤ b → j.counts.getD b 0 = 0) →
        exec (.topkHistogram d n) s = .next (completeJob t d n 0)) ∧
      (∀ b, (j.c 4).toNat ≤ j.at_ → b < 256 → j.at_ - (j.c 4).toNat ≤ b → j.counts.getD b 0 ≠ 0 →
        (∀ a < b, j.at_ - (j.c 4).toNat ≤ a → j.counts.getD a 0 = 0) → exec (.topkHistogram d n) s =
          .next (putOut (t.modJob d n fun x => { x with at_ := (j.c 4).toNat + b }) d n (topkOf j.desc) (4 * b) true
            (j.counts.getD b 0) fun u => nextKey u d n false false))) ∧
    (j.kind = 3 → (j.c 2).getLsbD 0 = true →
      (j.at_ < (j.c 4).toNat →
        (∀ u, readKey t d n j (topkOf j.desc) = (u, none) → exec (.topkSelect d n) s = .next u) ∧
        (∀ u, readKey t d n j (topkOf j.desc) = (u, some none) → exec (.topkSelect d n) s = .next (nextKey u d n false false)) ∧
        (∀ u k, readKey t d n j (topkOf j.desc) = (u, some (some k)) →
          ((j.c 6).ult k = true ∨ ((j.c 5).ule k = true ∧ k.ule (j.c 6) = true ∧ j.took < (j.c 3).toNat) →
            exec (.topkSelect d n) s = .next (putOut u d n (topkOf j.desc) (4 * j.wrote) false (BitVec.ofNat 32 j.at_) fun v =>
              nextKey v d n true ((j.c 5).ule k && k.ule (j.c 6) && decide (j.took < (j.c 3).toNat)))) ∧
          ((j.c 6).ult k = false → ((j.c 5).ule k = false ∨ k.ule (j.c 6) = false ∨ (j.c 3).toNat ≤ j.took) →
            exec (.topkSelect d n) s = .next (nextKey u d n false false)))) ∧
      (∀ u x, j.at_ = (j.c 4).toNat → u = putOut t d n (topkOf j.desc) (4 * j.wrote) false (BitVec.ofNat 32 j.wrote)
          (fun v => nextKey v d n false false) → u.job? d n = some x → exec (.topkSelect d n) s =
        .next (if (j.c 4).toNat < x.at_ ∧ x.out = [] ∧ x.susp = .none then completeJob u d n 0 else u)) ∧
      ((j.c 4).toNat < j.at_ → exec (.topkSelect d n) s = .next (completeJob t d n 0))) ∧
    (∀ u, j.kind = 5 → u = (if j.mv = none then t.modJob d n fun x => { x with mv := mainMove x.c x.desc } else t) →
      exec (.mainToMainCopy d n) s = .next (if moveDone (serveBlock u (.job d n)) (.job d n) then
        completeJob (serveBlock u (.job d n)) d n 0 else serveBlock u (.job d n)))) ∧
  (j.kind = 0 → (j.c 2).getLsbD 0 = true → j.bad = false → j.canh = false →
    (j.st = .queued → jobStarts s d j = true → s.stream? d j.corr j.stream = none →
      exec (.binningReplay d n) s = .next (completeJob s d n 7)) ∧
    (∀ st t x, j.st = .queued → jobStarts s d j = true → s.stream? d j.corr j.stream = some st → replayBusy s d j = false →
      t = takeBins (s.modJob d n fun y => { y with st := .started }) d n st → t.job? d n = some x →
      exec (.binningReplay d n) s = .next (serveReplay t d n x)) ∧
    (j.started = true → j.susp = .none → j.out = [] →
      (s.stream? d j.corr j.stream = none → exec (.binningReplay d n) s = .next (completeJob s d n 7)) ∧
      (∀ st, s.stream? d j.corr j.stream = some st →
        (j.bins = [] → exec (.binningReplay d n) s = .next (completeJob s d n 0)) ∧
        (j.bins ≠ [] → replayBusy s d j = true → exec (.binningReplay d n) s = .next s) ∧
        (∀ u x, j.bins ≠ [] → replayBusy s d j = false → u = replayStep s d n st j → u.job? d n = some x →
          exec (.binningReplay d n) s =
            .next (if x.bins = [] ∧ x.out = [] ∧ x.susp = .none then completeJob u d n 0 else u))))) ∧
  (j.kind = 1 →
    (j.bad = true → exec (.walkerJob d n) s = .next (completeJob s d n 7)) ∧
    (j.bad = false → j.canh = true → (j.st = .queued ∨ s.goesOn j.corr = true) →
      exec (.walkerJob d n) s = .next (completeJob (dropWalker s d n) d n 5)) ∧
    (j.bad = false → j.canh = true → j.started = true → s.goesOn j.corr = false → exec (.walkerJob d n) s = .next s) ∧
    (j.bad = false → j.canh = false → jobStarts s d j = true → s.goesOn j.corr = true →
      (s.core j.key.core).walker = none → walkerAhead s d j = false →
      exec (.walkerJob d n) s = .next (putWalker (s.modJob d n fun x => { x with st := .started }) j.key.core
        (some (Walker.start j (((s.grid? j.corr).map (·.walker)).getD []))))))

/-- The steps of translation and invalidation complete (18 R370 to R374, R378; 23 R417): the end of a walk for every operation that
waits on its leaf, a held write walked again, the write-block effect, an invalidation of translations or of code lines and its
end. That a code line is hit by its image's virtual address is the model's reading (notes/assumptions/16.md). -/
def Obligations.TranslationEvents : Prop :=
  ∀ (s : State) (d : Nat),
  (∀ t w, takeMisses d 64 s = t → (t.die d).walks[Config.walkPick t.tick % (t.die d).walks.length]? = some w →
    exec (.translationWalk d) s = .next ((engsOf (t.modDie d fun x => { x with walks := x.walks.erase w }) d).foldl
      (fun u q => match Machine.walking u q with
        | some (va, wr) => if walkOf u q = some (w.secure, w.page) then walkEnds u q va wr else u
        | none => u) (t.modDie d fun x => { x with walks := x.walks.erase w }))) ∧
  (misses s d = [] → (s.die d).walks = [] → exec (.translationWalk d) s = .next s) ∧
  (∀ r va, suspOf s r = some (.held va false) → exec (.writeblock r) s = .next (writeBlock s r va)) ∧
  (∀ r va b, engsOf s d = [r] → suspOf s r = some (.held va b) →
    exec (.heldWriteRewalk d) s = .next (walkEnds s r va true)) ∧
  (∀ v, (s.die d).invDone = true → v.toNat % 64 ≤ 41 → exec (.invctl d v) s = .next (s.modDie d fun x =>
    { x with invCtl := v &&& 0x1FF#32, invFrom := x.invAddr, invDone := false })) ∧
  (∀ v, (s.die d).invDone = false ∨ 41 < v.toNat % 64 → exec (.invctl d v) s = .next s) ∧
  ((s.die d).invDone = false → d < s.dies.length → (invalOf (s.die d).invFrom (s.die d).invCtl).all = false →
    rangeInFlight s (invalOf (s.die d).invFrom (s.die d).invCtl) d = false → (s.die d).gather = [] → d < 4 → engsOf s d = [] →
    exec (.invalidationComplete d) s = .next (s.modDie d fun x => { x with
      invDone := true
      tlb := x.tlb.filter fun t => !(invalOf x.invFrom x.invCtl).covers t.secure t.va (2 ^ levelShift t.level)
      walkc := x.walkc.filter fun w => !(invalOf x.invFrom x.invCtl).covers w.secure w.va (2 ^ levelShift w.level) })) ∧
  (rangeInFlight s (invalOf (s.die d).invFrom (s.die d).invCtl) d = true → exec (.invalidationComplete d) s = .next s) ∧
  (∀ line n, (s.die d).codeInvDone = true → line % 64 = 0 → line < 2 ^ 57 → n < 2 ^ 16 → exec (.codeinv d line n) s =
    .next (s.modDie d fun x => { x with codeInvLine := line, codeInvCount := n, codeInvDone := false })) ∧
  ((s.die d).codeInvDone = false → d < s.dies.length → ∃ t, exec (.codeinvAccept d) s = .next t ∧
    (t.die d).codeInvDone = true ∧ ∀ c < s.cores.length, dieOf c = d →
      (t.core c).icache = (s.core c).icache.filter fun l =>
        !(s.grids.any fun g => l.within g (s.die d).codeInvLine (s.die d).codeInvCount)) ∧
  (∀ (l : Line) (g : Grid) first count, l.within g first count = true ↔ imageBase g.image ≤ l.addr ∧
    l.addr < imageBase g.image + g.imgLen ∧ first ≤ g.codeVa + (l.addr - imageBase g.image) ∧
    g.codeVa + (l.addr - imageBase g.image) < first + 64 * count)

/-- The collective operations complete (21 R396 to R399, R402): a FORM sends its message and forms the group once every member's has
come, or ends with 7 for a list that breaks its rules, 4 for an epoch that is held or over, 1 where the die holds 64 groups, 5 when
cancelled; another operation posts in its turn, once its data has gone to every other member, a malformed one ends with 7; a barrier
that every member has posted ends with 0, a disband once the operations before it have; the others write their result 64 bytes at a
time and end with 0; a job of no epoch of this member ends with 4, one of a decided epoch with the decision. What the FORM that
completes does with the lists and the early messages of the other members is the model's reading (notes/assumptions/31.md), and so are
the form and place of what is staged (notes/assumptions/9.md). -/
def Obligations.CollectiveOperations : Prop :=
  ∀ (s : State) (d n : Nat) (j : Job), s.job? d n = some j → j.idx = n → j.kind = 4 → j.finished = false →
  (j.collOp = 0 →
    (j.bad = true → exec (.collForm d n) s = .next (completeJob s d n 7)) ∧
    (j.bad = false → j.canh = true → exec (.collForm d n) s = .next (dropForm s d j 5)) ∧
    (j.bad = false → j.canh = false → j.st = .queued → outdated s d j = true → exec (.collForm d n) s = .next (completeJob s d n 4)) ∧
    (j.bad = false → j.canh = false → j.st = .queued → outdated s d j = false → jobStarts s d j = true →
      s.anyPoison (formList s d j).1 (formList s d j).2.2 = false →
      (membersOf (ownDev s d) d (formWords s d j) = none → exec (.collForm d n) s = .next (completeJob s d n 7)) ∧
      (∀ ms, membersOf (ownDev s d) d (formWords s d j) = some ms →
        ((∃ c ∈ (s.die d).colls, c.gid = j.gid ∧ ((c.epoch = j.epoch ∧ c.ended = false) ∨ (c.corr = j.corr ∧ j.epoch.ule c.epoch = true))) →
          exec (.collForm d n) s = .next (completeJob s d n 4)) ∧
        ((∀ c ∈ (s.die d).colls, c.gid ≠ j.gid) → 64 ≤ collsHeld s d → exec (.collForm d n) s = .next (completeJob s d n 1)) ∧
        ((∀ c ∈ (s.die d).colls, c.gid ≠ j.gid) → collsHeld s d < 64 → ∃ (c : Coll) (t : State), exec (.collForm d n) s = .next (tryForm t d j) ∧
          c.gid = j.gid ∧ c.epoch = j.epoch ∧ c.members = ms ∧ c.list = formWords s d j ∧ c.formed = false ∧ c.ended = false ∧
          t.outbox = s.outbox ++ c.others.map fun o => .message o.2.1 o.2.2 0x10 (c.msg 0 0) c.list))) ∧
    (∀ c, j.bad = false → j.canh = false → j.started = true → j.susp = .none → s.coll? d j.gid j.epoch = some c →
      (allFormed s d c = true → exec (.collForm d n) s = .next (catchUp (completeJob (dropForms (s.modColl d j.gid j.epoch fun x =>
        { x with formed := true, beat := List.replicate x.members.length s.ns }) d j.gid j.epoch) d n 0) d j.gid j.epoch)) ∧
      (allFormed s d c = false → exec (.collForm d n) s = .next s))) ∧
  (∀ i k, ((i = .collDisband d n ∧ k = 1) ∨ (i = .collBarrier d n ∧ k = 2) ∨ (i = .collBcast d n ∧ k = 3) ∨
      (i = .collAllred d n ∧ k = 4) ∨ (i = .collRedscat d n ∧ k = 5) ∨ (i = .collGather d n ∧ k = 6) ∨
      (i = .collXscan d n ∧ k = 7)) → j.collOp = k →
    ((outdated s d j = true ∨ j.num = 0) → exec i s = .next (completeJob s d n (if j.bad then 7 else 4))) ∧
    (outdated s d j = false → j.num ≠ 0 → s.coll? d j.gid j.epoch = none →
      exec i s = .next (if forming s d j then s else completeJob s d n (if j.bad then 7 else 4))) ∧
    (∀ c, outdated s d j = false → j.num ≠ 0 → s.coll? d j.gid j.epoch = some c →
      ((c.corr ≠ j.corr ∨ c.ended = true) → exec i s = .next (completeJob s d n (if j.bad then 7 else 4))) ∧
      (c.corr = j.corr → c.ended = false → c.formed = false → exec i s = .next s)) ∧
    (∀ c, outdated s d j = false → j.num ≠ 0 → s.coll? d j.gid j.epoch = some c → c.corr = j.corr → c.ended = false → c.formed = true →
      (∀ st, c.decided = some st → exec i s = .next (completeJob s d n st)) ∧
      (c.decided = none → (j.bad = true ∨ collFits s d j c = false) → exec i s = .next (completeJob s d n 7)) ∧
      (c.decided = none → j.bad = false → collFits s d j c = true → c.hasPosted j = false → earlierOp s d c j = true →
        exec i s = .next s) ∧
      (∀ t, c.decided = none → j.bad = false → collFits s d j c = true → c.hasPosted j = false → earlierOp s d c j = false →
        served s d j = some t → exec i s = .next (collRead t d j c) ∧
          (j.gives c = false → exec i s = .next (collPost t d j c []))) ∧
      (c.decided = none → j.bad = false → collFits s d j c = true → c.hasPosted j = true → j.susp = .none → j.took = 0 →
        exec i s = .next (collSend s d n c)) ∧
      (∀ ps, c.decided = none → j.bad = false → collFits s d j c = true → c.hasPosted j = true → j.susp = .none → j.took ≠ 0 →
        allPosted c j.num = some ps →
        (j.out ≠ [] → exec i s = .next (flushRest s (.job d n))) ∧
        (j.out = [] → k = 1 → exec i s = .next (if lowerOp s d j then s else
          (collDone s d j c).modColl d c.gid c.epoch fun x => { x with ended := true })) ∧
        (j.out = [] → k = 2 → exec i s = .next (collDone s d j c)) ∧
        (∀ res u x, j.out = [] → 3 ≤ k → res = collResult k j.redn c.rank (j.c 5).toNat j.count (ps.map (·.data)) →
          u = (if 16 * j.at_ < res.length then collWrite s d j res else s) → u.job? d n = some x →
          exec i s = .next (if res.length ≤ 16 * x.at_ ∧ x.out = [] ∧ x.susp = .none then collDone u d x c else u))))) ∧
  (∀ (root count : Nat) (data : List (List Word)) (rank i : Nat),
    (i < count → (collResult 3 0 rank root count data)[i]? = some ((data.getD root []).getD i 0, 0#7) ∧
      (collResult 4 0 rank root count data)[i]? = some (((data.map fun l => l.getD i 0).foldl (· + ·) 0), 0#7) ∧
      (collResult 7 0 rank root count data)[i]? =
        some ((((data.map fun l => l.getD i 0).take rank).foldl (· + ·) 0), 0#7)) ∧
    (i < count / data.length → (collResult 5 0 rank root count data)[i]? =
      some (((data.map fun l => l.getD (rank * (count / data.length) + i) 0).foldl (· + ·) 0), 0#7)))

/-- The messages, heartbeats and time-outs of a collective group complete (21 R395, R397, R399 to R401). A message that this package
sent to a die of its own leaves the wire; a POST counts the words that writes have put into the staging area before it. The model's
choices and readings: the form and place of staged words, and when no decider is within reach (notes/assumptions/9.md); that a
time-out may be taken at any step (22.md); that ABORT acts at the decider alone, and that what members propose or decide before this
one has its group is kept for it (31.md). -/
def Obligations.CollectiveMembership : Prop :=
  ∀ (s : State) (d : Nat),
  (∀ m l u, u = { s with outbox := s.outbox.erase (.message (ownDev s d) d 0x10 m l) } →
    ((∀ c ∈ (s.die d).colls, ¬(c.gid = m.gid ∧ c.epoch = m.epoch ∧ (c.formed = true ∨ c.ended = true))) →
      exec (.formMsg d m l) s = .next (u.modDie d fun x => { x with
        forms := (x.forms.filter fun y => y.gid != m.gid || y.epoch != m.epoch || y.rank != m.rank.toNat) ++
          [⟨m.gid, m.epoch, m.rank.toNat, l, s.ns⟩] })) ∧
    ((∃ c ∈ (s.die d).colls, c.gid = m.gid ∧ c.epoch = m.epoch ∧ (c.formed = true ∨ c.ended = true)) →
      exec (.formMsg d m l) s = .next u)) ∧
  (∀ m u, u = { s with outbox := s.outbox.erase (.message (ownDev s d) d 0x11 m []) } → exec (.beatMsg d m) s =
    .next (u.modColl d m.gid m.epoch fun c => { c with beat := setAt c.beat m.rank.toNat s.ns })) ∧
  (∀ m c2 n data c u ws v, u = { s with outbox :=
      ((s.outbox.erase (.message (ownDev s d) d 0x12 m [])).erase (.staged (ownDev s d) d m (c2 :: n :: data))) } →
    ws = postWords u d m (c2 :: n :: data) → v = unstage u d m ws.length → s.coll? d m.gid m.epoch = some c →
    c.ended = false → m.rank.toNat < c.members.length → m.rank.toNat ≠ c.rank →
    (∀ q ∈ c.posts, ¬(q.rank = m.rank.toNat ∧ q.seq = m.seq.toNat)) → ∀ p t,
    p = (⟨m.rank.toNat, m.seq.toNat, ws.getD 0 0, (ws.getD 1 0).toNat, ws.drop 2⟩ : Post) →
    t = (v.modColl d m.gid m.epoch fun x => { x with posts := x.posts ++ [p] }) →
    ((∀ q ∈ c.posts, q.rank = c.rank → q.seq = p.seq → q.c2 = p.c2 ∧ q.count = p.count) →
      exec (.postMsg d m c2 n data) s = .next t) ∧
    ((∃ q ∈ c.posts, q.rank = c.rank ∧ q.seq = p.seq ∧ (q.c2 ≠ p.c2 ∨ q.count ≠ p.count)) →
      exec (.postMsg d m c2 n data) s = .next (propose t d m.gid m.epoch 3))) ∧
  (∀ m l, (s.die d).staging = [] → postWords s d m l = l) ∧
  (∀ m l i, i < l.length → (postWords s d m l)[i]? = some (((s.die d).staged (stagedAt s d m + 4 * i)).getD (l.getD i 0))) ∧
  (∀ m c u, u = { s with outbox := s.outbox.erase (.message (ownDev s d) d 0x13 m []) } → s.coll? d m.gid m.epoch = some c →
    (c.open_ = true → c.decides = true → exec (.abortMsg d m) s = .next (collDecide u d c m.status.toNat)) ∧
    (c.open_ = true → c.decides = false → exec (.abortMsg d m) s = .next u) ∧
    (c.formed = false → c.ended = false → exec (.abortMsg d m) s =
      .next (u.modColl d m.gid m.epoch fun x => { x with early := x.early ++ [(false, m.status.toNat)] }))) ∧
  (∀ m c u, u = { s with outbox := s.outbox.erase (.message (ownDev s d) d 0x14 m []) } → s.coll? d m.gid m.epoch = some c →
    (c.open_ = true → exec (.decideMsg d m) s = .next (collEnds u d c m.status.toNat)) ∧
    (c.formed = false → c.ended = false → exec (.decideMsg d m) s =
      .next (u.modColl d m.gid m.epoch fun x => { x with early := x.early ++ [(true, m.status.toNat)] }))) ∧
  (∀ gid c, s.formed d gid = [c] →
    exec (.heartbeat d gid) s = .next { s with outbox := s.outbox ++
      (c.others.map fun o => Sent.message o.2.1 o.2.2 0x11 ⟨0, c.gid, c.epoch, BitVec.ofNat 16 c.rank, 0⟩ []) } ∧
    (∀ r, c.open_ = true → r < c.members.length → r ≠ c.rank → r ∉ c.lost →
      c.beat.getD r 0 + s.times.collTo * 1000000 ≤ s.ns → exec (.memberLost d gid r) s =
        .next (propose (s.modColl d gid c.epoch fun x => { x with lost := x.lost ++ [r] }) d gid c.epoch 2)) ∧
    (c.open_ = true → c.waits = true → exec (.collectiveTimeout d gid) s = .next (propose s d gid c.epoch 1)) ∧
    (∀ t0, c.open_ = true → c.decides = false → c.proposed = some t0 → t0 + s.times.collTo * 1000000 ≤ s.ns →
      exec (.deciderUnreachable d gid) s = .next (collEnds s d c 2)) ∧
    (c.open_ = false ∨ c.decides = true ∨ c.proposed = none → exec (.deciderUnreachable d gid) s = .next s)) ∧
  (∀ n j, s.job? d n = some j → j.kind = 4 → j.collOp = 0 → j.started = true →
    exec (.formTimeout d n) s = .next (dropForm s d j 1))

/-- Inbound fabric requests complete (21 R391, R394): the bytes read or written at the address, the atomic's old word, one add
for each signal tag. A request that breaks the rules, or an atomic operation that is not listed, receives an error completion and
changes nothing else. That a byte counts once for a tag, as when a write is sent again, and that tag 0 is no signal tag, are the model's
choices (notes/assumptions/14.md). -/
def Obligations.FabricRequests : Prop :=
  ∀ (s : State) (src tag addr : Nat),
  (∀ n, (n = 64 ∨ n = 128 ∨ n = 256) → addr % n = 0 → addr + n ≤ 412316860416 → s.anyPoison (hbmAddr addr) n = false →
    exec (.readRequest src tag addr n) s = .next { s with outbox := s.outbox ++
      [.readDone src tag true ((List.range n).map fun i => s.byte (hbmAddr addr + i))] }) ∧
  (∀ n, ¬(n = 64 ∨ n = 128 ∨ n = 256) ∨ addr % n ≠ 0 → exec (.readRequest src tag addr n) s =
    .next { s with outbox := s.outbox ++ [.readDone src tag false []] }) ∧
  (∀ bs en, bs.length % 64 = 0 → 64 ≤ bs.length → bs.length ≤ 256 → en.length = bs.length → addr % 64 = 0 →
    addr + bs.length ≤ 412316860416 →
    (∃ t, exec (.writeRequest src 0 addr bs en) s = .next t ∧ t.outbox = s.outbox ++ [.writeDone src 0 true] ∧ t.sigTags = s.sigTags ∧
      (s.mem.wf = true → ∀ i < bs.length, t.byte (hbmAddr addr + i) =
        if en.getD i false then bs.getD i 0 else s.byte (hbmAddr addr + i))) ∧
    (∀ t, tag ≠ 0 → s.sigTags = [t] → t.src = src → t.tag = tag → t.want = none →
      exec (.writeRequest src tag addr bs en) s = .next { (s.store (enabled addr bs en)) with
        outbox := s.outbox ++ [.writeDone src tag true]
        sigTags := [{ t with
          got := t.got + (((enabled addr bs en).map (·.1)).eraseDups.filter fun a => !t.seen.contains a).length
          seen := (((enabled addr bs en).map (·.1)).eraseDups.filter fun a => !t.seen.contains a) ++ t.seen }] })) ∧
  (∀ bs en, bs.length % 64 ≠ 0 ∨ addr % 64 ≠ 0 → exec (.writeRequest src tag addr bs en) s =
    .next { s with outbox := s.outbox ++ [.writeDone src tag false] }) ∧
  (∀ op v c, op ≠ .other → addr % 4 = 0 → addr + 4 ≤ 412316860416 → s.anyPoison (hbmAddr addr) 4 = false →
    exec (.atomicRequest src tag addr op v c) s =
      .next { s.store (valueAt (hbmAddr addr) 4 (fabNew op (s.word32 (hbmAddr addr)) v c).toNat) with
        outbox := (s.store (valueAt (hbmAddr addr) 4 (fabNew op (s.word32 (hbmAddr addr)) v c).toNat)).outbox ++
          [.atomicDone src tag true (s.word32 (hbmAddr addr))] }) ∧
  (∀ op v c, op = .other ∨ addr % 4 ≠ 0 → exec (.atomicRequest src tag addr op v c) s =
    .next { s with outbox := s.outbox ++ [.atomicDone src tag false 0] }) ∧
  (∀ n t, s.sigTags.find? (fun t => t.src == src && t.tag == tag) = some t → t.added = true →
    exec (.signal src tag n addr) s = .next { s with outbox := s.outbox ++ [.trailerDone src tag true] }) ∧
  (∀ n t, s.sigTags = [t] → t.src = src → t.tag = tag → t.added = false → n ≤ t.got → addr % 4 = 0 →
    addr + 4 ≤ 412316860416 → s.anyPoison (hbmAddr addr) 4 = false →
    ∃ u, exec (.signal src tag n addr) s = .next u ∧ u.outbox = s.outbox ++ [.trailerDone src tag true] ∧
      (∀ x ∈ u.sigTags, x.added = true) ∧
      (s.mem.wf = true → u.word32 (hbmAddr addr) = s.word32 (hbmAddr addr) + 1)) ∧
  (∀ n t, s.sigTags = [t] → t.src = src → t.tag = tag → t.added = false → t.got < n →
    exec (.signal src tag n addr) s = .next { s with sigTags := [{ t with addr := addr, want := some n }] }) ∧
  (∀ t n, s.sigTags.find? (fun t => t.src == src && t.tag == tag) = some t → t.want = some n → t.added = false →
    exec (.signalTagTimeout src tag) s = .next { s with
      sigTags := s.sigTags.erase t, outbox := s.outbox ++ [.trailerDone src tag false] })

/-- Completions, time-outs and the ports complete (21 R390 to R394): the bytes or the old word reach the operation that waits for
them, which goes on; a request that time fails is sent once more on the port of the mask's others that its granule hashes to, where
that is up, or fails; a port that loses lanes retrains, one that goes down gives its requests up in the same way. -/
def Obligations.FabricCompletions : Prop :=
  ∀ (s : State) (q : Req), s.req? q.id = some q →
  (awaits s q = true →
    (∀ a bs, q.kind = .read a bs.length → exec (.readCompletion q.id true bs) s = .next
      ((dropReq s q.id).modEng q.who fun e => { e with got := e.got ++ cellsAt a bs, susp := .none })) ∧
    (∀ tag l, q.kind = .write tag l → exec (.writeCompletion q.id true) s = .next
      ((dropReq s q.id).modEng q.who fun e => { e with
        out := e.out.filter fun c => !l.contains c
        got := if (e.out.filter fun c => !l.contains c) = [] then [] else e.got
        acked := (if tag = 0 then [] else (l.map (·.1)).eraseDups.filter fun a => !e.acked.contains a) ++ e.acked
        susp := .none })) ∧
    (∀ op a v old, q.kind = .atomic op a v → exec (.atomicCompletion q.id true old) s = .next
      ((dropReq s q.id).modEng q.who fun e => { e with got := e.got ++ cellsAt a (leBytes 4 old.toNat), susp := .none })) ∧
    (∀ body a n c y, q.kind = .trailer body a n → q.who = .copy c y.id → s.copy? c y.id = some y →
      exec (.trailerCompletion q.id true) s = .next (retireCore (completeCopy (dropReq s q.id) c y.id) c))) ∧
  (∀ a bs, q.kind = .read a bs.length → awaits s q = false →
    exec (.readCompletion q.id true bs) s = .next (dropReq s q.id)) ∧
  (∀ a n bs, q.kind = .read a n → exec (.readCompletion q.id false bs) s = .next (reqFails s q)) ∧
  (∀ tag l, q.kind = .write tag l → exec (.writeCompletion q.id false) s = .next (reqFails s q)) ∧
  (∀ op a v old, q.kind = .atomic op a v → exec (.atomicCompletion q.id false old) s = .next (reqFails s q)) ∧
  (∀ body a n c i, q.kind = .trailer body a n → q.who = .copy c i → exec (.trailerCompletion q.id false) s = .next (reqFails s q)) ∧
  (∀ p, q.resent = false → otherPort (portsTo s (EngRef.die q.who) q.dev) q.port q.kind.addr = some p → portUp s p = true →
    exec (.fabricRequestTimeout q.id) s = .next { s with
      reqs := s.reqs.map fun x => (if x.id == q.id then { x with port := p, resent := true } else x)
      outbox := s.outbox ++ [.request q.id q.dev p q.kind] }) ∧
  ((q.resent = true ∨ ∀ p, otherPort (portsTo s (EngRef.die q.who) q.dev) q.port q.kind.addr = some p → portUp s p = false) →
    exec (.fabricRequestTimeout q.id) s = .next (reqFails s q)) ∧
  (∀ p n, p < 48 → n < s.ports.getD p 0 → n = 1 ∨ n = 2 →
    exec (.portLaneFailure p n) s = .next { s with ports := setAt s.ports p n }) ∧
  (∀ p, p < 48 → 0 < s.ports.getD p 0 → exec (.portLaneFailure p 0) s =
    .next ((s.reqs.filter fun q => q.port == p).foldl resendOrFail { s with ports := setAt s.ports p 0 })) ∧
  (∀ p n, p < 48 → s.ports.getD p 0 < n → n = 1 ∨ n = 2 ∨ n = 4 →
    exec (.portComeUp p n) s = .next { s with ports := setAt s.ports p n })

/-- The distributor's steps complete (17 R342 to R346, R350 to R356, R364 to R367, R440; 25 R430, R431): the record of the queue whose
turn it is, which is counted as lost where it is poisoned; the doorbell; a cancellation of a launch it holds or of a record not yet
read; a cluster placed on the rectangle the launch has reserved, or on the lowest with room, else a reservation in fallback mode; the
end of a launch. -/
def Obligations.LaunchEvents : Prop :=
  ∀ (s : State),
  (∀ i q, nextQueue s = some i → s.queues[i]? = some q →
    exec .launchRecord s = .next (takeRecord s i q) ∧
    (s.anyPoison q.headAt 128 = true → ∃ t,
      exec .launchRecord s = .next t ∧ t.mem = s.mem ∧ t.grids = s.grids ∧
        t.dist.compLostSt = 0x4001#32 ∧ t.dist.compLostLo = BitVec.ofNat 32 (i * 2 ^ 56 + q.served % 2 ^ 56) ∧
        t.queues[i]? = some { q with head := (q.head + 1) % q.size, served := q.served + 1
                                     cancels := q.cancels.filter fun k => k != q.served % 2 ^ 56 })) ∧
  (nextQueue s = none → exec .launchRecord s = .next s) ∧
  (∀ n q tail, s.queues[n]? = some q → exec (.doorbell n tail) s =
    .next { s with queues := s.queues.set n { q with tail := if q.enabled then tail % q.size else tail } }) ∧
  (∀ n q hi, s.queues[n]? = some q → (hi.toNat * 2 ^ 32 + q.cancelLo.toNat) / 2 ^ 56 = n →
    (∀ g, s.grid? (hi.toNat * 2 ^ 32 + q.cancelLo.toNat) = some g →
      exec (.cancel n hi) s = .next (endGrid s (hi.toNat * 2 ^ 32 + q.cancelLo.toNat) ⟨0x2000, 0, 0, 0, 0, [], s.ns⟩)) ∧
    (s.grid? (hi.toNat * 2 ^ 32 + q.cancelLo.toNat) = none →
      exec (.cancel n hi) s = .next (if q.waiting ((hi.toNat * 2 ^ 32 + q.cancelLo.toNat) % 2 ^ 56) then
        { s with queues := s.queues.set n { q with cancels := (hi.toNat * 2 ^ 32 + q.cancelLo.toNat) % 2 ^ 56 :: q.cancels } } else s))) ∧
  (∀ n q hi, s.queues[n]? = some q → (hi.toNat * 2 ^ 32 + q.cancelLo.toNat) / 2 ^ 56 ≠ n →
    exec (.cancel n hi) s = .next s) ∧
  (∀ g, s.grid? g.corr = some g → g.phase = .live →
    (g.allPlaced = false →
      (∀ p base l, g.l.mapped = false → nextRect s g = some (p, base, l) →
        exec (.clusterPlacement g.corr) s = .next (endReserv (startCluster s g g.next base p.1 p.2 l) g.corr fun _ => true)) ∧
      (g.l.mapped = false → nextRect s g = none → exec (.clusterPlacement g.corr) s =
        .next (if g.fallback then reserveRect s g g.l.mayUse g.l.fallRows g.l.fallCols else s)) ∧
      (∀ r, s.reserv.find? (fun r => r.corr == g.corr) = some r → sitesAt s g (rectCores r.base r.rows r.cols) = none →
        nextRect s g = none) ∧
      (g.l.mapped = true → exec (.clusterPlacement g.corr) s = .next (placeMapped s g)) ∧
      (g.l.mapped = false → g.fallback = false → g.waitFrom + 64000 ≤ s.ns →
        exec (.fallbackMode g.corr) s = .next (placeNext (s.setGrid { g with fallback := true }) { g with fallback := true })) ∧
      (∀ r h, g.prio = 7 → g.waitFrom + 64000 ≤ s.ns → s.reserv = [r] → r.corr = g.corr → s.grids.filter (fun h =>
          (((s.teams.filter fun t => (rectCores r.base r.rows r.cols).contains t.core).map (·.corr)).contains h.corr) &&
            decide (h.prio ≤ 5)) = [h] →
        exec (.priority7Preemption g.corr) s = .next (requestPreempt s h.corr))) ∧
    (g.allPlaced = true → (∀ t ∈ s.teams, t.corr ≠ g.corr) → jobsDone s g.corr = true →
      exec (.gridCompletion g.corr) s = .next (completeGrid (dropJobs s g.corr) g.corr))) ∧
  (∀ g, s.grid? g.corr = some g → g.phase = .ending →
    exec (.gridCompletion g.corr) s = .next (serveEnding s g.corr))

/-- The steps of pre-emption complete (17 R360 to R364; 25 R430): a live launch with teams halts, its groups issue no more; once
all is still it is saved; once all its clusters have room, and the cores of its other walkers are free of one, it is restored and goes
on. -/
def Obligations.PreemptionEvents : Prop :=
  ∀ (s : State) (g : Grid), s.grid? g.corr = some g →
  (∀ n q hi, s.queues[n]? = some q → g.corr = hi.toNat * 2 ^ 32 + q.preemptLo.toNat → g.corr / 2 ^ 56 = n →
    (g.phase = .live → (∃ t ∈ s.teams, t.corr = g.corr) → exec (.preempt n hi) s = .next { s.setGrid { g with
        phase := .halting, haltTime := s.ns } with groups := s.groups.map fun h =>
          (if (s.team? h.team).map (·.corr) = some g.corr then { h with halted := true } else h) }) ∧
    (g.phase ≠ .live → exec (.preempt n hi) s = .next s)) ∧
  (g.phase = .halting → halted s g.corr = true → ∃ t h, exec (.preemptHaltComplete g.corr) s = .next t ∧
    t.grid? g.corr = some h ∧ h.phase = .saved ∧ h.saved.length = (s.teams.filter fun t => t.corr == g.corr).length ∧
    t.dist.dumpAddr = saveBase g.image) ∧
  (g.phase = .halting → halted s g.corr = false → exec (.preemptHaltComplete g.corr) s = .next s) ∧
  (∀ r t, g.phase = .saved → (∀ p ∈ g.walkers, (s.core p.1).walker = none) →
    restoreAll g (clustersOf g.saved) (putWalkers g s) = (r, none) →
    t = endReserv (r.modGrid g.corr fun x =>
      { x with phase := .live, saved := [], walkers := [], bp := false, waitFrom := r.ns }) g.corr (fun _ => true) →
    exec (.gridRestore g.corr) s =
      .next ((t.groups.filter fun x => (teamsOf t g.corr).contains x.team).foldl (fun s x => tryRetire s x.key) t)) ∧
  (g.phase = .saved → (∃ p ∈ g.walkers, (s.core p.1).walker.isSome = true) → exec (.gridRestore g.corr) s = .next s)

/-- The host's and the platform's steps complete (18 R380, R382; 24 R422, R423, R426; 25 R429 to R437). The addresses of registers
within their blocks, the aperture and who writes PWRCAP are the model's (notes/assumptions/19.md), and so is what these steps read or
leave where the specification says less: what firmware brings up, how a lost unit is named and what scrubbing corrects (18.md), how
energy is shared and sampled and when the clock steps (25.md, 28.md), shutdown and reset (27.md). -/
def Obligations.PlatformEvents : Prop :=
  ∀ (s : State),
  (exec (.atctl 1) { s with plat := { s.plat with atCtl := 0 } } =
    .next { s with plat := { s.plat with atCtl := 1 } }) ∧
  (s.plat.atCtl = 1 → exec .attestationReport s =
    .next { s with plat := { s.plat with atCtl := 2, atReport := reportBytes s ++
      (Config.sm2Sign (reportBytes s) ++ List.replicate 64 0).take 64 } }) ∧
  (∀ v, exec (.registerWrite true 0x30000F0 v) s = .next (if 1500 ≤ v.toNat ∧ v.toNat ≤ 3000 then
    { s with plat := { s.plat with pwrCap := v.toNat } } else s)) ∧
  (∀ v, exec (.registerWrite false 0x30000F0 v) s = .next s) ∧
  (∀ off v, off % 4 ≠ 0 → exec (.registerWrite true off v) s = .next s) ∧
  (∀ n q v, s.queues[n]? = some q → q.secure = true → n < 32 → exec (.registerWrite false (0x1000 + 64 * n) v) s =
    .next { s with plat := { s.plat with secRef := s.plat.secRef + 1 } }) ∧
  (∀ n q v sec, s.queues[n]? = some q → (sec = true ∨ q.secure = false) → n < 32 →
    exec (.registerWrite sec (0x1000 + 64 * n) v) s =
      .next { s with queues := s.queues.set n { q with tail := if q.enabled then v.toNat % q.size else v.toNat } }) ∧
  (∀ sec off, off + 4 ≤ 2 ^ 26 → off % 4 ≠ 0 → exec (.hostMemoryAccess sec false (2 ^ 61 + off) 4 []) s =
    .next { s with outbox := s.outbox ++ [.hostRead false [0xFF#8, 0xFF#8, 0xFF#8, 0xFF#8]] }) ∧
  (∀ n q, s.queues[n]? = some q → n < 32 →
    (q.secure = true → exec (.hostMemoryAccess false false (2 ^ 61 + 0x1000 + 64 * n + 4) 4 []) s = .next { s with
      plat := { s.plat with secRef := s.plat.secRef + 1 }
      outbox := s.outbox ++ [.hostRead false [0xFF#8, 0xFF#8, 0xFF#8, 0xFF#8]] }) ∧
    (∀ sec, sec = true ∨ q.secure = false → exec (.hostMemoryAccess sec false (2 ^ 61 + 0x1000 + 64 * n + 4) 4 []) s =
      .next { s with outbox := s.outbox ++ [.hostRead true (leBytes 4 (q.head % 2 ^ 32))] })) ∧
  (∀ sec, exec (.hostMemoryAccess sec false (2 ^ 61 + 0x3000000) 4 []) s =
    .next { s with outbox := s.outbox ++ [.hostRead true (leBytes 4 (s.plat.devStat % 2 ^ 32))] }) ∧
  (∀ sec off bs, bs.length = 4 → off < 2 ^ 26 → off % 4 = 0 → exec (.hostMemoryAccess sec true (2 ^ 61 + off) 0 bs) s =
    exec (.registerWrite sec off (BitVec.ofNat 32 (leNat bs))) s) ∧
  (∀ d rails, (s.die d).trCtl / 2 % 2 = 1 → rails.map (·.rail.toNat) = railsOf d →
    exec (.railSample d rails) s = .next (writeResidents (rails.foldl (fun s r => s.traceWrite d
      ([BitVec.ofNat 32 (0x10 + d * 2 ^ 8 + r.rail.toNat * 2 ^ 16), BitVec.ofNat 32 (r.mV.toNat + r.temp.toNat * 2 ^ 16), r.mA,
        r.nJ] ++ words64 s.ns ++ [0, 0])) (s.modDie d fun x => { x with sample := rails })) d)) ∧
  (∀ d rails, (s.die d).trCtl / 2 % 2 = 0 → rails.map (·.rail.toNat) = railsOf d →
    exec (.railSample d rails) s = .next (s.modDie d fun x => { x with sample := rails })) ∧
  (∀ n r p, s.meter = [] → exec (.energyShare [n] r p) s =
    .next { s with meter := [], dist := { s.dist with enIdle := s.dist.enIdle + (r + p + n) } }) ∧
  (∀ e (g : Grid) w c, w ≠ 0 → c ≠ 0 → s.meter = [⟨0, g.corr, w, c⟩] → exec (.energyShare [e] 0 0) s =
    .next (({ s with meter := [] } : State).modGrid g.corr fun x => { x with energy := x.energy + e })) ∧
  (exec .patrolScrub s = .next { s with corrected :=
    (((List.range 8).map MemName.stack ++ (List.range 4).map MemName.scratchpad).zipIdx.foldl
      (fun l m => correct m.1 (Config.scrubbed s.tick m.2) l) s.corrected) }) ∧
  (∀ n < 8, .stack n ∉ s.lost → exec (.unitLoss (.stack n)) s = .next { s with
    lost := s.lost ++ [.stack n], plat := { s.plat with devStat := 5, devLoss := Config.lossName (.stack n) } }) ∧
  (∀ sec addr bs, addr + bs.length ≤ 412316860416 → sec = true ∨ secureHbm s addr bs.length = false →
    ∃ t, exec (.hostMemoryAccess sec true addr 0 bs) s = .next t ∧
      (s.mem.wf = true → ∀ i < bs.length, t.byte (hbmAddr addr + i) = bs.getD i 0)) ∧
  (∀ addr n, 0 < n → addr + n ≤ 412316860416 → secureHbm s addr n = true →
    exec (.hostMemoryAccess false false addr n []) s = .next { s with
      plat := { s.plat with secRef := s.plat.secRef + 1 }
      outbox := s.outbox ++ [.hostRead false (List.replicate n 0xFF#8)] }) ∧
  (overLimit s = true ↔ s.plat.pwrCap * 1000 < ((s.dies.flatMap (·.sample)).map (·.nJ.toNat)).sum ∨
    ∃ r ∈ s.dies.flatMap (·.sample), (s.plat.juncLim : Int) < r.temp.toInt) ∧
  (overLimit s = true → 1350 < s.plat.clockMHz → exec (.throttle false) s = .next { s with
    plat := { s.plat with clockMHz := s.plat.clockMHz - 135, throtCount := s.plat.throtCount + 1 } }) ∧
  (overLimit s = false → s.plat.clockMHz < 2700 → exec (.throttle true) s = .next { s with
    plat := { s.plat with clockMHz := s.plat.clockMHz + 135 } }) ∧
  (∀ up, overLimit s = up → exec (.throttle up) s = .next s) ∧
  ((s.grids.map (·.corr)).Nodup → ∃ t, exec .thermalShutdown s = .next t ∧ t.plat.rails = false ∧
    ∀ g ∈ t.grids, g.final.isSome = true ∨ g.phase = .completed) ∧
  (exec .reset s = .next { State.reset with
    mem := s.mem.filter fun c => foreign c.1
    poison := s.poison.filter foreign
    lost := s.lost
    plat := { State.reset.plat with devLoss := s.plat.devLoss, fuseLevel := s.plat.fuseLevel, stepping := s.plat.stepping }
    corrected := s.corrected
    agenda := s.agenda
    tick := s.tick
    nextId := s.nextId }) ∧
  (∀ b, s.plat.fwRuns = true → exec (.firmwareImage b) s = .next s) ∧
  (∀ b, s.plat.fwRuns = false → ∃ t, exec (.firmwareImage b) s = .next t ∧
    if imageOk s.plat.fuseLevel b = true then
      (∀ a ∈ t.poison, foreign a = true) ∧ t.plat.devStat = (if s.lost = [] then 4 else 5) ∧
      t.plat.fwRuns = true ∧ t.plat.fwVer = BitVec.ofNat 32 (fieldAt b 4 4) ∧
      t.plat.fuseLevel.toNat = max s.plat.fuseLevel.toNat (fieldAt b 8 4)
    else t = { readImage s b with plat := { s.plat with devStat := 3 } })

/-! ### Rules of the whole machine -/

/-- What no clause word may stand as is found at the header (03 R88, R89; 18 R381): a header off a multiple of 4 raises ALIGN, a
poisoned code line MEMPOISON, a header or word that breaks R88 ILLEGAL with its site and payload; no word issues. A clause that
passes holds well-formed words. -/
def Obligations.ClauseFaults : Prop :=
  (∀ s g pc m, s.group? g.key = some g → mayIssue s g = true → g.cur = none → select g = some (.header pc, m) → g.late = [] →
    (∀ n, breakpointAt s (corrOf s g) pc = some n → g.bpSkip = some pc) →
    (pc % 4 ≠ 0 → exec (.clauseHeader g.key) s = .next (settle (perform s g.key g.loop
      [⟨0x102, .none, BitVec.ofNat 32 pc, g.it.csn, BitVec.ofNat 32 pc, 0, 0, 0, m, .none, none⟩]) g.key)) ∧
    (pc % 4 = 0 → poisonedCode s g m pc (clauseWords s g m pc) = true → exec (.clauseHeader g.key) s = .next (settle (perform s g.key g.loop
      [⟨0x106, .none, BitVec.ofNat 32 pc, g.it.csn, 9, BitVec.ofNat 32 pc, 0, 0, m, .none, none⟩]) g.key)) ∧
    (∀ b, pc % 4 = 0 → poisonedCode s g m pc (clauseWords s g m pc) = false →
      readClause pc (codeWords s g m pc (clauseWords s g m pc)) = .error b →
      exec (.clauseHeader g.key) s = .next (settle (perform (afterFetch s g m pc (clauseWords s g m pc)) g.key g.loop
        [⟨0x100, .none, BitVec.ofNat 32 b.site, g.it.csn, b.p0, BitVec.ofNat 32 b.p1, 0, 0, m, .none, none⟩]) g.key))) ∧
  (∀ pc, readClause pc [] = .error ⟨pc, 0, pc⟩) ∧
  (∀ pc (w : Word) ws, w.toNat / 2 ^ 25 ≠ 0x7F ∨ w.toNat % 2 = 1 → readClause pc (w :: ws) = .error ⟨pc, w, pc⟩) ∧
  (∀ pc h0 h1 w ws cl n, readClause pc (h0 :: h1 :: w :: ws) = .ok (cl, n) →
    cl.words.length = h0.toNat / 4 % 8 + 1 ∧ cl.words = (w :: ws).take (h0.toNat / 4 % 8 + 1) ∧
    ∃ i : Instr, decodeWord w.toNat = .ok i ∧ i.wf = true)

/-- A word that passes decoding raises, in this order: REGBOUND where a physical register does not lie below the allotment, ALIGN for
an odd name of a 64-bit operand, MEMPOISON for a poisoned element; the group writes nothing but FFLAGS.POISON for a dead source of
its allotment (03 R91; 01 R13, R14; 18 R381; notes/assumptions/46.md). A 64-bit load, store or compare-and-swap with an odd D raises
ALIGN as its accesses do (`fateAt`; 08 R225). A word that is not well formed performs ILLEGAL and does nothing else. -/
def Obligations.RegisterFaults : Prop :=
  ∀ (s : State) (g : Group) (iss : Issue) (i : Instr), s.cur = some (.group g.key) → s.group? g.key = some g →
    g.cur = some iss → g.halted = false → g.pend.any (·.hold) = false → i.fields.isSome = true →
  (i.wf = false → exec i s = .next (perform (s.setGroup { g with cur := none }) g.key g.loop
    [⟨0x100, .none, BitVec.ofNat 32 iss.pc, g.it.csn, iss.word iss.idx, BitVec.ofNat 32 iss.pc, 0, 0, iss.active, .none, none⟩])) ∧
  (∀ q, i.wf = true → firstOut g i.shape = some q → ∃ p, exec i s = .next (finish (mkIns s g iss i)
      ((mkIns s g iss i).s.modGroup g.key fun h => { h with it := { h.it with csn := g.it.csn } })
      (poisonFlag g (mkIns s g iss i)) [] fun t => perform t g.key g.loop [p]) ∧
    p.eff = 0x101#11 ∧ p.p0 = BitVec.ofInt 32 q ∧ p.p1 = BitVec.ofNat 32 g.allot ∧ p.lanes = iss.active ∧
    p.csn = g.it.csn) ∧
  (i.wf = true → firstOut g i.shape = none → alignFault i = true → ∃ p, exec i s = .next (finish (mkIns s g iss i)
      ((mkIns s g iss i).s.modGroup g.key fun h => { h with it := { h.it with csn := g.it.csn } })
      (poisonFlag g (mkIns s g iss i)) [] fun t => perform t g.key g.loop [p]) ∧
    p.eff = 0x102#11 ∧ p.p0 = BitVec.ofNat 32 iss.pc ∧ p.lanes = iss.active) ∧
  (∀ r, i.wf = true → firstOut g i.shape = none → alignFault i = false →
    firstBad g ((mkIns s g iss i).regs g) = some r → ∃ p, exec i s = .next (finish (mkIns s g iss i)
      ((mkIns s g iss i).s.modGroup g.key fun h => h)
      (poisonFlag g (mkIns s g iss i)) [] fun t => perform t g.key g.loop [p]) ∧
    p.eff = 0x106#11 ∧ p.p0 = 5 ∧ p.p1 = BitVec.ofNat 32 r ∧ p.lanes = iss.active)

/-- Registers that read by rule (01 R15 to R18): z reads 0, lid the thread's number, a dead register the dead word under the identity
map; p7 reads as ones and a write to it is discarded; a comparison writes only the bits of the threads it names. -/
def Obligations.SpecialRegisters : Prop :=
  (∀ g first lit t, (readOpnd g first .z none lit).val t = 0) ∧
  (∀ g first lit t, (readOpnd g first .lid none lit).val t = BitVec.ofNat 32 t) ∧
  (∀ g first lit t, (readOpnd g first .lit none lit).val t = lit) ∧
  (∀ g first lit n t, (g.vreg (g.phys n).toNat).live = false → (readOpnd g first (.v n) none lit).val t = 0x7FBADBAD#32 ∧
    (readOpnd g first (.v n) none lit).map = some (LaneMap.ident (g.vreg (g.phys n).toNat).map.code)) ∧
  (∀ g : Group, g.pred 7 = g.full) ∧ (∀ (g : Group) b m, g.setPred 7 b m = g) ∧
  (∀ (g : Group) p b m, p < 7 → g.preds.length = 7 → ∀ t, has ((g.setPred p b m).pred p) t =
    if has m t then has b t else has (g.pred p) t)

/-- A register word changes its destination and nothing else: of the words of `Instr.writesD` the register D, of those of
`Instr.writesP` one predicate register; every other register, every other group and all of memory stay as they are. -/
def Obligations.RegisterWordFrame : Prop :=
  ∀ (s : State) (g : Group) (iss : Issue) (i : Instr) (t : State), Ready s g iss i → Steady g → Untrapped g →
    exec i s = .next t →
    (i.writesD = true → ∃ h, t = s.setGroup h ∧ Keeps (mkIns s g iss i).dst none g h) ∧
    (∀ p, i.writesP = some p → ∃ h, t = s.setGroup h ∧ Keeps .none (some p) g h)

/-- A store word changes no memory as it issues: ST, STI, STT, ATOMH, ATOMP, ACAS, BHIST and HSTO whose accesses pass put one entry at
the end of the group's queue; the entry of ST and STI holds the bytes of each acting thread at the address the access computes
(08 R207, R208). -/
def Obligations.StoreIssueFrame : Prop :=
  ∀ (s : State) (g : Group) (iss : Issue) (i : Instr) (a : Ins → Acc), Ready s g iss i → Steady g → Untrapped g →
    ((∃ d r b m sz, i = .st d r b m sz ∧ a = fun x => accOf x m sz) ∨ (∃ d r m sz n, i = .sti d r m sz n ∧
      a = fun x => accImm x m sz n)) →
    Allowed (mkIns s g iss i) (a (mkIns s g iss i)) → accThreads (mkIns s g iss i) ≠ [] →
    ∃ t h e, exec i s = .next t ∧ t.mem = s.mem ∧ t.group? g.key = some h ∧ h.queue = g.queue ++ [e] ∧
      Keeps .none none g { h with queue := g.queue } ∧
      e.op = .bytes ((accThreads (mkIns s g iss i)).flatMap fun u =>
        valueAt (accAt (mkIns s g iss i) (a (mkIns s g iss i)) u) (a (mkIns s g iss i)).size
          (storeData (mkIns s g iss i) (a (mkIns s g iss i)) u))

/-- A step of a store queue changes the bytes of what reaches its home and no others (08 R208; 15 R325, R333). The head of the queue
takes its turn unless a store on its way does: team shared memory is written at once, a scratchpad's entry joins the core order, part
by part, and memory stays as it is until it lands; what follows a write of team shared memory on the core comes after the stores then
on their way (15 R328). Once all of a core's stores have landed, memory reads as the core saw it. -/
def Obligations.DrainFrame : Prop :=
  (∀ (s t : State) (g : Group), s.group? g.key = some g → g.allExited = false → exec (.storeQueueDrain g.key) s = .next t →
    ∀ a, (∀ e, g.queue.head? = some e → e.op.far = false → ¬e.op.covers a) →
      (∀ f ∈ (s.core g.key.core).flights, ¬f.e.op.covers a) → t.byte a = s.byte a) ∧
  (∀ (s t : State) (g : Group) (e : QEntry) (rest : List QEntry), s.group? g.key = some g → g.queue = e :: rest →
    g.allExited = false → e.op ≠ .fence → g.key.core < s.cores.length →
    aloft s g.key = false ∨ Config.drainPick s.tick % 2 = 0 → exec (.storeQueueDrain g.key) s = .next t →
    (t.group? g.key).map (·.queue) = some rest ∧
    (e.op.far = false → (∀ a, ¬e.op.covers a → t.byte a = s.byte a) ∧
      (t.core g.key.core).flights = (s.core g.key.core).flights.map (fun (f : Flight) => { f with due := true }) ∧
      ∀ l, e.op = .bytes l → s.mem.wf = true → ∀ a, t.byte a = (lastByte [e.op] a).getD (s.byte a)) ∧
    (e.op.far = true → t.mem = s.mem ∧
      (t.core g.key.core).flights = (s.core g.key.core).flights ++
        (e.op.parts s.poisoned).map fun op => ⟨g.key, { e with op := op }, false⟩)) ∧
  (∀ (s : State) (c : Nat), c < s.cores.length →
    ((landAll s c).core c).flights = [] ∧
    (∀ a, (∀ f ∈ (s.core c).flights, ¬f.e.op.covers a) → (landAll s c).byte a = s.byte a) ∧
    (s.mem.wf = true → (∀ f ∈ (s.core c).flights, ∃ l, f.e.op = .bytes l) →
      ∀ a, (landAll s c).byte a = coreByte s c a))

/-- A value that ST has stored is read back by its group at once, and from its home once the entry has reached it: all of its bytes, and
no byte outside (08 R207, R208; 15 R321, R325; 00 R9). -/
def Obligations.StoreReadsBack : Prop :=
  ∀ (s t u : State) (g : Group) (iss : Issue) (d a b : Reg) (m : Space) (sz : Size) (th : Nat) (x : Ins) (c : Acc),
    x = mkIns s g iss (.st d a b m sz) → c = accOf x m sz →
    Ready s g iss (.st d a b m sz) → Steady g → Untrapped g → g.queue = [] → s.mem.wf = true → aloft s g.key = false →
    g.key.core < s.cores.length → Allowed x c → accThreads x = [th] →
    exec (.st d a b m sz) s = .next t → exec (.storeQueueDrain g.key) t = .next u →
    (∃ h, t.group? g.key = some h ∧ seenLoad t h (accAt x c th) c.size = storeData x c th % 256 ^ c.size) ∧
    ((QOp.bytes (valueAt (accAt x c th) c.size (storeData x c th))).far = false →
      u.load (accAt x c th) c.size = storeData x c th % 256 ^ c.size ∧
      ∀ y, ¬(accAt x c th ≤ y ∧ y < accAt x c th + c.size) → u.byte y = s.byte y) ∧
    ((QOp.bytes (valueAt (accAt x c th) c.size (storeData x c th))).far = true →
      u.mem = s.mem ∧
      (∃ h, u.group? g.key = some h ∧ seenLoad u h (accAt x c th) c.size = storeData x c th % 256 ^ c.size) ∧
      (landAll u g.key.core).load (accAt x c th) c.size = storeData x c th % 256 ^ c.size ∧
      ∀ y, ¬(accAt x c th ≤ y ∧ y < accAt x c th + c.size) → (∀ f ∈ (s.core g.key.core).flights, ¬f.e.op.covers y) →
        (landAll u g.key.core).byte y = s.byte y)

/-- Memory reads what was last written, byte by byte, and keeps its canonical form (00 R9; notes/assumptions/1.md). -/
def Obligations.MemoryReadsLastWrite : Prop :=
  ∀ (s : State), s.mem.wf = true → ∀ l : List (Nat × Byte),
    (s.store l).mem.wf = true ∧
    (∀ a, (s.store l).byte a = (match l.reverse.find? fun c => c.1 == a with
      | some c => c.2
      | none => s.byte a)) ∧
    (∀ a n v, (s.store (valueAt a n v)).load a n = v % 256 ^ n) ∧
    ∀ t : State, t.mem.wf = true → (∀ a, t.byte a = s.byte a) → t.mem = s.mem

/-- A poisoned granule stays poisoned until a write replaces the whole granule, which clears it (18 R381). -/
def Obligations.WholeGranuleClearsPoison : Prop :=
  ∀ (s : State) (l : List (Nat × Byte)) (a : Nat), granule a ≠ 0 → granuleBase a ∈ s.poison →
    (granuleBase a ∈ (s.store l).poison ↔ ∃ i < granule a, ∀ c ∈ l, c.1 ≠ granuleBase a + i)

/-- An affine shuffle of a source with map (A, b) gives the map (A·S, A·c ⊕ b): thread t reads what thread S·t ⊕ c read. The identity
bit stands exactly where A = I and b = 0 (06 R145; 01 R28, R29). -/
def Obligations.ShuffledMaps : Prop :=
  (∀ (m : LaneMap) (sh : List (BitVec 7)) (c : BitVec 7), LaneMapFits m → LaneMapFits ⟨m.code, sh, c⟩ →
    ∀ t < 2 ^ (m.code + 3), (m.compose sh c).at_ t = m.at_ (shuffled (sh, c) t)) ∧
  (∀ m : LaneMap, LaneMapFits m → (m.descriptor.getLsbD 63 = true ↔ m = LaneMap.ident m.code)) ∧
  (∀ m : LaneMap, LaneMapFits m → LaneMap.ofDescriptor m.descriptor m.code = m ∧ LaneMap.wellFormed m.descriptor m.code = true) ∧
  ∀ code t, code ≤ 4 → t < 2 ^ (code + 3) → (LaneMap.ident code).at_ t = t

/-- Each acting thread reads its own result from a destination written under an injective map, and in a partial write every other
thread keeps its value, a dead register's threads the dead word (06 R144, R150; 07 R168). -/
def Obligations.ThreadResults : Prop :=
  ∀ (g : Group) (tick p : Nat) (m : LaneMap) (act : Mask) (f : Nat → Word), p < g.regs.length → m.code = g.wcode → LaneMapFits m →
    m.injective = true → (g.vreg p).elems.length = g.width → act ≠ 0#128 → act &&& ~~~g.full = 0#128 →
    (∀ t < g.width, has act t = true → ((g.writeVec tick p m act f).vreg p).value t = f t) ∧
    (∀ t < g.width, has act t = false → ((g.writeVec tick p m act f).vreg p).value t = (g.vreg p).value t) ∧
    ((g.writeVec tick p m act f).vreg p).live = true ∧ ((g.writeVec tick p m act f).vreg p).map = m ∧
    ∀ q, q ≠ p → (g.writeVec tick p m act f).vreg q = g.vreg q

/-- An effect whose lanes find one frame enters its handler (11 R284 to R286): a context is taken with the lane set, the saved k0 and
the call-stack height, the record of eight words goes into the group's store order at its place, k0 receives the token, the
frame runs, every lane of Q takes the handler PC; no register is written. -/
def Obligations.HandlerEntry : Prop :=
  ∀ (s : State) (g : Group) (l : Option Loop) (p : Perf) (f : Frame) (d : Nat), s.group? g.key = some g →
    p.lanes &&& g.present ≠ 0#128 → g.ctxs.length < 16 → g.frame? f.uid = some (f, d) → g.it.tokens.length = 4 →
    (∀ t, has (p.lanes &&& g.present) t = true → g.findFrame p.eff t = some f) →
    ∃ h c e, (perform s g.key l [p]).group? g.key = some h ∧
      h.ctxs = g.ctxs ++ [c] ∧
      c.perf = { p with lanes := p.lanes &&& g.present, mark := some (p.mark.getD (s.markNow g)) } ∧ c.frame = f.uid ∧ c.q = p.lanes &&& g.present ∧ c.left = c.q ∧ c.k0 = g.token 0 ∧
      c.callHt = g.it.callHt ∧ c.ended = false ∧
      h.queue = g.queue ++ [e] ∧ e.op = .bytes (cellsAt (g.recordSlot d) (wordBytes [p.word0, p.pc, p.csn, p.p0, p.p1, p.p2, p.p3,
        (p.lanes &&& g.present).setWidth 32])) ∧
      h.token 0 = tokenWord p.kind d g.key.slot g.subName (s.gen g.key.core g.key.slot) ∧
      (∀ x ∈ h.it.frames, x.uid = f.uid → x.running = true) ∧
      (∀ t, has c.q t = true → (h.lane t).pos = .header f.handler.toNat ∧ (h.lane t).st = .run) ∧
      h.regs = g.regs ∧ h.preds = g.preds ∧ h.it.sregs = g.it.sregs ∧ h.it.fflags = g.it.fflags ∧ h.it.csn = g.it.csn

/-- An effect for which some lane of P finds no frame ends the grid (11 R284): its completion status is the effect's id, with the launch
site and the record; no handler runs and the groups of the launch issue no more (17 R365). -/
def Obligations.UnhandledEffectEndsGrid : Prop :=
  ∀ (s : State) (g : Group) (gr : Grid) (l : Option Loop) (p : Perf) (ps : List Perf) (t : Nat), s.group? g.key = some g →
    has (p.lanes &&& g.present) t = true → g.findFrame p.eff t = none → s.grid? (corrOf s g) = some gr → gr.final = none →
    gr.phase ≠ .completed →
    ∃ u, perform s g.key l (p :: ps) = u ∧ u.mem = s.mem ∧
      u.grid? (corrOf s g) = some { gr with phase := .ending, saved := [], walkers := [], final := some ⟨statusOf p.eff, 0, g.key.core, g.key.slot, g.key.sub,
        [p.word0, p.pc, p.csn, p.p0, p.p1, p.p2, p.p3, (p.lanes &&& g.present).setWidth 32], s.ns⟩ } ∧
      ∀ h ∈ u.groups, (s.team? h.team).map (·.corr) = some (corrOf s g) → h.halted = true

/-- RSUM of every lane of a ONCE invocation ends it (11 R289, R292): the lanes stand where they stood when the effect was performed, k0
holds what it held, the context is free. -/
def Obligations.HandlerReturn : Prop :=
  ∀ (s : State) (g : Group) (c : Ctx) (v : Nat → Word), s.group? g.key = some g → g.ctx? c.uid = some c → c.ended = false →
    c.perf.kind = .once → c.perf.src = .trap → c.rest = [] → g.it.tokens.length = 4 → c.left ≠ 0#128 →
    ∃ h, (resume s g.key c.uid c.left .cont v).group? g.key = some h ∧ h.token 0 = c.k0 ∧ (∀ x ∈ h.ctxs, x.uid ≠ c.uid) ∧
      (∀ t x, has c.left t = true → c.snaps[t]? = some x → t < g.lanes.length → (h.lane t).st = x.st ∧ (h.lane t).depth = x.depth ∧
        (h.lane t).pos.pc = x.pos.pc) ∧
      (∀ t, has c.left t = false → h.lane t = g.lane t) ∧ h.regs = g.regs ∧ h.preds = g.preds

/-- A barrier register completes its phase when the arrivals reach the expected count: arrived returns to 0, the phase bit inverts, and
every waiter of the old phase is released (01 R31; 08 R219). -/
def Obligations.BarrierPhases : Prop :=
  (∀ (b : Bar) (w : Nat), b.expected ≠ 0 → b.arrived.toNat + w ≤ 4095 →
    (b.arrived.toNat + w < b.expected.toNat → (b.add w).arrived.toNat = b.arrived.toNat + w ∧ (b.add w).phase = b.phase) ∧
    (b.expected.toNat ≤ b.arrived.toNat + w → (b.add w).arrived = 0 ∧ (b.add w).phase = !b.phase) ∧
    (b.add w).expected = b.expected) ∧
  (∀ (s : State) (n : Nat) (b : Bar) (g : Group), s.group? g.key = some g → b.phase ≠ (s.bar g.team n).phase →
    ∃ h, (s.putBar g.team n b).group? g.key = some h ∧ ∀ t < g.lanes.length, ∀ k old pc bar, (g.lane t).st = .phase k old pc bar →
      (h.lane t).st = if k = n ∧ old ≠ b.phase then .run else .phase k old pc bar) ∧
  (∀ (s : State) (n : Nat) (b : Bar) (g : Group), b.phase = (s.bar g.team n).phase → (s.putBar g.team n b).groups = s.groups)

/-- FFLAGS gains the sticky bits a word raises and loses none; a raised condition whose enable bit is set performs FPTRAP with the
raised conditions, once the results are written (01 R22; 04 R112). -/
def Obligations.StickyFlagsAndTraps : Prop :=
  (∀ (g : Group) (fl : BitVec 7) i, i < 32 → (g.merge fl).it.fflags.getLsbD i = (g.it.fflags.getLsbD i || (decide (i < 7) && fl.getLsbD i))) ∧
  (∀ (v : Word) i, i < 32 → (writeFflags v).getLsbD i = (v.getLsbD i && (decide (i < 7) || (decide (8 ≤ i) && decide (i < 13))))) ∧
  (∀ (x : Ins) (s : State) (h : Group) (fl : BitVec 7) (jumps : List (Mask × Pos)), s.group? x.k = some h →
    (∃ i < 5, fl.getLsbD i = true ∧ h.it.fflags.getLsbD (8 + i) = true) → ∃ p : Perf,
      finish x s fl jumps id = settle (perform (s.setGroup (finishGroup x jumps (h.merge fl))) x.k x.g.loop [p]) x.k ∧
      p.eff = 0x10A#11 ∧ p.kind = .once ∧ p.lanes = x.act ∧ p.pc = x.pc ∧
      (∀ i < 32, p.p0.getLsbD i = (decide (i < 5) && fl.getLsbD i && h.it.fflags.getLsbD (8 + i))))

/-- Every rounding delivers a multiple of the last place in the mode's direction (04 R104): toward zero, down, up, or the nearest with a
tie to the even fraction; the loss is told exactly. -/
def Obligations.RoundingIsCorrect : Prop :=
  ∀ (neg : Bool) (m k : Nat) (e : Int),
    (∀ rm, ((roundAt rm neg m e (e + k) false).inexact = true ↔ m % 2 ^ k ≠ 0)) ∧
    (let n := (roundAt .rtz neg m e (e + k) false).n
     n * 2 ^ k ≤ m ∧ m < (n + 1) * 2 ^ k) ∧
    (let n := (roundAt (if neg then .rdn else .rup) neg m e (e + k) false).n
     m ≤ n * 2 ^ k ∧ n * 2 ^ k < m + 2 ^ k) ∧
    (roundAt (if neg then .rup else .rdn) neg m e (e + k) false).n = (roundAt .rtz neg m e (e + k) false).n ∧
    (let n := (roundAt .rne neg m e (e + k) false).n
     2 * (n * 2 ^ k) ≤ 2 * m + 2 ^ k ∧ 2 * m ≤ 2 * (n * 2 ^ k) + 2 ^ k ∧
     (2 * (n * 2 ^ k) = 2 * m + 2 ^ k ∨ 2 * m = 2 * (n * 2 ^ k) + 2 ^ k → 0 < k → n % 2 = 0))
end

