-- ==== Sys2Proof/Laws/State.lean ====
section
/-! SUPPORT. The updates of the state, field by field: what each named update leaves alone, and what a lookup finds after it.
-/

namespace Sys2Proof.Machine.State

open Sys2Proof

/-! ### store -/

@[simp] theorem store_lost (s : State) (l : List (Nat × Byte)) : (s.store l).lost = s.lost := rfl
@[simp] theorem store_groups (s : State) (l : List (Nat × Byte)) : (s.store l).groups = s.groups := rfl
@[simp] theorem store_teams (s : State) (l : List (Nat × Byte)) : (s.store l).teams = s.teams := rfl
@[simp] theorem store_cores (s : State) (l : List (Nat × Byte)) : (s.store l).cores = s.cores := rfl
@[simp] theorem store_dies (s : State) (l : List (Nat × Byte)) : (s.store l).dies = s.dies := rfl
@[simp] theorem store_grids (s : State) (l : List (Nat × Byte)) : (s.store l).grids = s.grids := rfl
@[simp] theorem store_queues (s : State) (l : List (Nat × Byte)) : (s.store l).queues = s.queues := rfl
@[simp] theorem store_lastQueue (s : State) (l : List (Nat × Byte)) : (s.store l).lastQueue = s.lastQueue := rfl
@[simp] theorem store_reserv (s : State) (l : List (Nat × Byte)) : (s.store l).reserv = s.reserv := rfl
@[simp] theorem store_dist (s : State) (l : List (Nat × Byte)) : (s.store l).dist = s.dist := rfl
@[simp] theorem store_nq (s : State) (l : List (Nat × Byte)) : (s.store l).nq = s.nq := rfl
@[simp] theorem store_rootN (s : State) (l : List (Nat × Byte)) : (s.store l).rootN = s.rootN := rfl
@[simp] theorem store_rootS (s : State) (l : List (Nat × Byte)) : (s.store l).rootS = s.rootS := rfl
@[simp] theorem store_times (s : State) (l : List (Nat × Byte)) : (s.store l).times = s.times := rfl
@[simp] theorem store_fabId (s : State) (l : List (Nat × Byte)) : (s.store l).fabId = s.fabId := rfl
@[simp] theorem store_routes (s : State) (l : List (Nat × Byte)) : (s.store l).routes = s.routes := rfl
@[simp] theorem store_ports (s : State) (l : List (Nat × Byte)) : (s.store l).ports = s.ports := rfl
@[simp] theorem store_reqs (s : State) (l : List (Nat × Byte)) : (s.store l).reqs = s.reqs := rfl
@[simp] theorem store_outbox (s : State) (l : List (Nat × Byte)) : (s.store l).outbox = s.outbox := rfl
@[simp] theorem store_sigTags (s : State) (l : List (Nat × Byte)) : (s.store l).sigTags = s.sigTags := rfl
@[simp] theorem store_plat (s : State) (l : List (Nat × Byte)) : (s.store l).plat = s.plat := rfl
@[simp] theorem store_corrected (s : State) (l : List (Nat × Byte)) : (s.store l).corrected = s.corrected := rfl
@[simp] theorem store_meter (s : State) (l : List (Nat × Byte)) : (s.store l).meter = s.meter := rfl
@[simp] theorem store_ns (s : State) (l : List (Nat × Byte)) : (s.store l).ns = s.ns := rfl
@[simp] theorem store_agenda (s : State) (l : List (Nat × Byte)) : (s.store l).agenda = s.agenda := rfl
@[simp] theorem store_cur (s : State) (l : List (Nat × Byte)) : (s.store l).cur = s.cur := rfl
@[simp] theorem store_tick (s : State) (l : List (Nat × Byte)) : (s.store l).tick = s.tick := rfl
@[simp] theorem store_nextId (s : State) (l : List (Nat × Byte)) : (s.store l).nextId = s.nextId := rfl

/-! ### setTag -/

@[simp] theorem setTag_past (s : State) (a : Nat) (t : BitVec 16) : (s.setTag a t).past = s.past := by unfold setTag; split <;> rfl
@[simp] theorem setTag_poison (s : State) (a : Nat) (t : BitVec 16) : (s.setTag a t).poison = s.poison := by unfold setTag; split <;> rfl
@[simp] theorem setTag_lost (s : State) (a : Nat) (t : BitVec 16) : (s.setTag a t).lost = s.lost := by unfold setTag; split <;> rfl
@[simp] theorem setTag_groups (s : State) (a : Nat) (t : BitVec 16) : (s.setTag a t).groups = s.groups := by unfold setTag; split <;> rfl
@[simp] theorem setTag_teams (s : State) (a : Nat) (t : BitVec 16) : (s.setTag a t).teams = s.teams := by unfold setTag; split <;> rfl
@[simp] theorem setTag_cores (s : State) (a : Nat) (t : BitVec 16) : (s.setTag a t).cores = s.cores := by unfold setTag; split <;> rfl
@[simp] theorem setTag_dies (s : State) (a : Nat) (t : BitVec 16) : (s.setTag a t).dies = s.dies := by unfold setTag; split <;> rfl
@[simp] theorem setTag_grids (s : State) (a : Nat) (t : BitVec 16) : (s.setTag a t).grids = s.grids := by unfold setTag; split <;> rfl
@[simp] theorem setTag_queues (s : State) (a : Nat) (t : BitVec 16) : (s.setTag a t).queues = s.queues := by unfold setTag; split <;> rfl
@[simp] theorem setTag_lastQueue (s : State) (a : Nat) (t : BitVec 16) : (s.setTag a t).lastQueue = s.lastQueue := by unfold setTag; split <;> rfl
@[simp] theorem setTag_reserv (s : State) (a : Nat) (t : BitVec 16) : (s.setTag a t).reserv = s.reserv := by unfold setTag; split <;> rfl
@[simp] theorem setTag_dist (s : State) (a : Nat) (t : BitVec 16) : (s.setTag a t).dist = s.dist := by unfold setTag; split <;> rfl
@[simp] theorem setTag_nq (s : State) (a : Nat) (t : BitVec 16) : (s.setTag a t).nq = s.nq := by unfold setTag; split <;> rfl
@[simp] theorem setTag_rootN (s : State) (a : Nat) (t : BitVec 16) : (s.setTag a t).rootN = s.rootN := by unfold setTag; split <;> rfl
@[simp] theorem setTag_rootS (s : State) (a : Nat) (t : BitVec 16) : (s.setTag a t).rootS = s.rootS := by unfold setTag; split <;> rfl
@[simp] theorem setTag_times (s : State) (a : Nat) (t : BitVec 16) : (s.setTag a t).times = s.times := by unfold setTag; split <;> rfl
@[simp] theorem setTag_fabId (s : State) (a : Nat) (t : BitVec 16) : (s.setTag a t).fabId = s.fabId := by unfold setTag; split <;> rfl
@[simp] theorem setTag_routes (s : State) (a : Nat) (t : BitVec 16) : (s.setTag a t).routes = s.routes := by unfold setTag; split <;> rfl
@[simp] theorem setTag_ports (s : State) (a : Nat) (t : BitVec 16) : (s.setTag a t).ports = s.ports := by unfold setTag; split <;> rfl
@[simp] theorem setTag_reqs (s : State) (a : Nat) (t : BitVec 16) : (s.setTag a t).reqs = s.reqs := by unfold setTag; split <;> rfl
@[simp] theorem setTag_outbox (s : State) (a : Nat) (t : BitVec 16) : (s.setTag a t).outbox = s.outbox := by unfold setTag; split <;> rfl
@[simp] theorem setTag_sigTags (s : State) (a : Nat) (t : BitVec 16) : (s.setTag a t).sigTags = s.sigTags := by unfold setTag; split <;> rfl
@[simp] theorem setTag_plat (s : State) (a : Nat) (t : BitVec 16) : (s.setTag a t).plat = s.plat := by unfold setTag; split <;> rfl
@[simp] theorem setTag_corrected (s : State) (a : Nat) (t : BitVec 16) : (s.setTag a t).corrected = s.corrected := by unfold setTag; split <;> rfl
@[simp] theorem setTag_meter (s : State) (a : Nat) (t : BitVec 16) : (s.setTag a t).meter = s.meter := by unfold setTag; split <;> rfl
@[simp] theorem setTag_ns (s : State) (a : Nat) (t : BitVec 16) : (s.setTag a t).ns = s.ns := by unfold setTag; split <;> rfl
@[simp] theorem setTag_agenda (s : State) (a : Nat) (t : BitVec 16) : (s.setTag a t).agenda = s.agenda := by unfold setTag; split <;> rfl
@[simp] theorem setTag_cur (s : State) (a : Nat) (t : BitVec 16) : (s.setTag a t).cur = s.cur := by unfold setTag; split <;> rfl
@[simp] theorem setTag_tick (s : State) (a : Nat) (t : BitVec 16) : (s.setTag a t).tick = s.tick := by unfold setTag; split <;> rfl
@[simp] theorem setTag_nextId (s : State) (a : Nat) (t : BitVec 16) : (s.setTag a t).nextId = s.nextId := by unfold setTag; split <;> rfl

/-! ### addPoison -/

@[simp] theorem addPoison_mem (s : State) (a : Nat) : (s.addPoison a).mem = s.mem := by unfold addPoison; split <;> rfl
@[simp] theorem addPoison_past (s : State) (a : Nat) : (s.addPoison a).past = s.past := by unfold addPoison; split <;> rfl
@[simp] theorem addPoison_lost (s : State) (a : Nat) : (s.addPoison a).lost = s.lost := by unfold addPoison; split <;> rfl
@[simp] theorem addPoison_groups (s : State) (a : Nat) : (s.addPoison a).groups = s.groups := by unfold addPoison; split <;> rfl
@[simp] theorem addPoison_teams (s : State) (a : Nat) : (s.addPoison a).teams = s.teams := by unfold addPoison; split <;> rfl
@[simp] theorem addPoison_cores (s : State) (a : Nat) : (s.addPoison a).cores = s.cores := by unfold addPoison; split <;> rfl
@[simp] theorem addPoison_dies (s : State) (a : Nat) : (s.addPoison a).dies = s.dies := by unfold addPoison; split <;> rfl
@[simp] theorem addPoison_grids (s : State) (a : Nat) : (s.addPoison a).grids = s.grids := by unfold addPoison; split <;> rfl
@[simp] theorem addPoison_queues (s : State) (a : Nat) : (s.addPoison a).queues = s.queues := by unfold addPoison; split <;> rfl
@[simp] theorem addPoison_lastQueue (s : State) (a : Nat) : (s.addPoison a).lastQueue = s.lastQueue := by unfold addPoison; split <;> rfl
@[simp] theorem addPoison_reserv (s : State) (a : Nat) : (s.addPoison a).reserv = s.reserv := by unfold addPoison; split <;> rfl
@[simp] theorem addPoison_dist (s : State) (a : Nat) : (s.addPoison a).dist = s.dist := by unfold addPoison; split <;> rfl
@[simp] theorem addPoison_nq (s : State) (a : Nat) : (s.addPoison a).nq = s.nq := by unfold addPoison; split <;> rfl
@[simp] theorem addPoison_rootN (s : State) (a : Nat) : (s.addPoison a).rootN = s.rootN := by unfold addPoison; split <;> rfl
@[simp] theorem addPoison_rootS (s : State) (a : Nat) : (s.addPoison a).rootS = s.rootS := by unfold addPoison; split <;> rfl
@[simp] theorem addPoison_times (s : State) (a : Nat) : (s.addPoison a).times = s.times := by unfold addPoison; split <;> rfl
@[simp] theorem addPoison_fabId (s : State) (a : Nat) : (s.addPoison a).fabId = s.fabId := by unfold addPoison; split <;> rfl
@[simp] theorem addPoison_routes (s : State) (a : Nat) : (s.addPoison a).routes = s.routes := by unfold addPoison; split <;> rfl
@[simp] theorem addPoison_ports (s : State) (a : Nat) : (s.addPoison a).ports = s.ports := by unfold addPoison; split <;> rfl
@[simp] theorem addPoison_reqs (s : State) (a : Nat) : (s.addPoison a).reqs = s.reqs := by unfold addPoison; split <;> rfl
@[simp] theorem addPoison_outbox (s : State) (a : Nat) : (s.addPoison a).outbox = s.outbox := by unfold addPoison; split <;> rfl
@[simp] theorem addPoison_sigTags (s : State) (a : Nat) : (s.addPoison a).sigTags = s.sigTags := by unfold addPoison; split <;> rfl
@[simp] theorem addPoison_plat (s : State) (a : Nat) : (s.addPoison a).plat = s.plat := by unfold addPoison; split <;> rfl
@[simp] theorem addPoison_corrected (s : State) (a : Nat) : (s.addPoison a).corrected = s.corrected := by unfold addPoison; split <;> rfl
@[simp] theorem addPoison_meter (s : State) (a : Nat) : (s.addPoison a).meter = s.meter := by unfold addPoison; split <;> rfl
@[simp] theorem addPoison_ns (s : State) (a : Nat) : (s.addPoison a).ns = s.ns := by unfold addPoison; split <;> rfl
@[simp] theorem addPoison_agenda (s : State) (a : Nat) : (s.addPoison a).agenda = s.agenda := by unfold addPoison; split <;> rfl
@[simp] theorem addPoison_cur (s : State) (a : Nat) : (s.addPoison a).cur = s.cur := by unfold addPoison; split <;> rfl
@[simp] theorem addPoison_tick (s : State) (a : Nat) : (s.addPoison a).tick = s.tick := by unfold addPoison; split <;> rfl
@[simp] theorem addPoison_nextId (s : State) (a : Nat) : (s.addPoison a).nextId = s.nextId := by unfold addPoison; split <;> rfl

/-! ### setGroup -/

@[simp] theorem setGroup_mem (s : State) (g : Group) : (s.setGroup g).mem = s.mem := rfl
@[simp] theorem setGroup_past (s : State) (g : Group) : (s.setGroup g).past = s.past := rfl
@[simp] theorem setGroup_poison (s : State) (g : Group) : (s.setGroup g).poison = s.poison := rfl
@[simp] theorem setGroup_lost (s : State) (g : Group) : (s.setGroup g).lost = s.lost := rfl
@[simp] theorem setGroup_teams (s : State) (g : Group) : (s.setGroup g).teams = s.teams := rfl
@[simp] theorem setGroup_cores (s : State) (g : Group) : (s.setGroup g).cores = s.cores := rfl
@[simp] theorem setGroup_dies (s : State) (g : Group) : (s.setGroup g).dies = s.dies := rfl
@[simp] theorem setGroup_grids (s : State) (g : Group) : (s.setGroup g).grids = s.grids := rfl
@[simp] theorem setGroup_queues (s : State) (g : Group) : (s.setGroup g).queues = s.queues := rfl
@[simp] theorem setGroup_lastQueue (s : State) (g : Group) : (s.setGroup g).lastQueue = s.lastQueue := rfl
@[simp] theorem setGroup_reserv (s : State) (g : Group) : (s.setGroup g).reserv = s.reserv := rfl
@[simp] theorem setGroup_dist (s : State) (g : Group) : (s.setGroup g).dist = s.dist := rfl
@[simp] theorem setGroup_nq (s : State) (g : Group) : (s.setGroup g).nq = s.nq := rfl
@[simp] theorem setGroup_rootN (s : State) (g : Group) : (s.setGroup g).rootN = s.rootN := rfl
@[simp] theorem setGroup_rootS (s : State) (g : Group) : (s.setGroup g).rootS = s.rootS := rfl
@[simp] theorem setGroup_times (s : State) (g : Group) : (s.setGroup g).times = s.times := rfl
@[simp] theorem setGroup_fabId (s : State) (g : Group) : (s.setGroup g).fabId = s.fabId := rfl
@[simp] theorem setGroup_routes (s : State) (g : Group) : (s.setGroup g).routes = s.routes := rfl
@[simp] theorem setGroup_ports (s : State) (g : Group) : (s.setGroup g).ports = s.ports := rfl
@[simp] theorem setGroup_reqs (s : State) (g : Group) : (s.setGroup g).reqs = s.reqs := rfl
@[simp] theorem setGroup_outbox (s : State) (g : Group) : (s.setGroup g).outbox = s.outbox := rfl
@[simp] theorem setGroup_sigTags (s : State) (g : Group) : (s.setGroup g).sigTags = s.sigTags := rfl
@[simp] theorem setGroup_plat (s : State) (g : Group) : (s.setGroup g).plat = s.plat := rfl
@[simp] theorem setGroup_corrected (s : State) (g : Group) : (s.setGroup g).corrected = s.corrected := rfl
@[simp] theorem setGroup_meter (s : State) (g : Group) : (s.setGroup g).meter = s.meter := rfl
@[simp] theorem setGroup_ns (s : State) (g : Group) : (s.setGroup g).ns = s.ns := rfl
@[simp] theorem setGroup_agenda (s : State) (g : Group) : (s.setGroup g).agenda = s.agenda := rfl
@[simp] theorem setGroup_cur (s : State) (g : Group) : (s.setGroup g).cur = s.cur := rfl
@[simp] theorem setGroup_tick (s : State) (g : Group) : (s.setGroup g).tick = s.tick := rfl
@[simp] theorem setGroup_nextId (s : State) (g : Group) : (s.setGroup g).nextId = s.nextId := rfl

/-! ### modGroup -/

@[simp] theorem modGroup_mem (s : State) (k : GKey) (f : Group → Group) : (s.modGroup k f).mem = s.mem := by unfold modGroup; split <;> rfl
@[simp] theorem modGroup_past (s : State) (k : GKey) (f : Group → Group) : (s.modGroup k f).past = s.past := by unfold modGroup; split <;> rfl
@[simp] theorem modGroup_poison (s : State) (k : GKey) (f : Group → Group) : (s.modGroup k f).poison = s.poison := by unfold modGroup; split <;> rfl
@[simp] theorem modGroup_lost (s : State) (k : GKey) (f : Group → Group) : (s.modGroup k f).lost = s.lost := by unfold modGroup; split <;> rfl
@[simp] theorem modGroup_teams (s : State) (k : GKey) (f : Group → Group) : (s.modGroup k f).teams = s.teams := by unfold modGroup; split <;> rfl
@[simp] theorem modGroup_cores (s : State) (k : GKey) (f : Group → Group) : (s.modGroup k f).cores = s.cores := by unfold modGroup; split <;> rfl
@[simp] theorem modGroup_dies (s : State) (k : GKey) (f : Group → Group) : (s.modGroup k f).dies = s.dies := by unfold modGroup; split <;> rfl
@[simp] theorem modGroup_grids (s : State) (k : GKey) (f : Group → Group) : (s.modGroup k f).grids = s.grids := by unfold modGroup; split <;> rfl
@[simp] theorem modGroup_queues (s : State) (k : GKey) (f : Group → Group) : (s.modGroup k f).queues = s.queues := by unfold modGroup; split <;> rfl
@[simp] theorem modGroup_lastQueue (s : State) (k : GKey) (f : Group → Group) : (s.modGroup k f).lastQueue = s.lastQueue := by unfold modGroup; split <;> rfl
@[simp] theorem modGroup_reserv (s : State) (k : GKey) (f : Group → Group) : (s.modGroup k f).reserv = s.reserv := by unfold modGroup; split <;> rfl
@[simp] theorem modGroup_dist (s : State) (k : GKey) (f : Group → Group) : (s.modGroup k f).dist = s.dist := by unfold modGroup; split <;> rfl
@[simp] theorem modGroup_nq (s : State) (k : GKey) (f : Group → Group) : (s.modGroup k f).nq = s.nq := by unfold modGroup; split <;> rfl
@[simp] theorem modGroup_rootN (s : State) (k : GKey) (f : Group → Group) : (s.modGroup k f).rootN = s.rootN := by unfold modGroup; split <;> rfl
@[simp] theorem modGroup_rootS (s : State) (k : GKey) (f : Group → Group) : (s.modGroup k f).rootS = s.rootS := by unfold modGroup; split <;> rfl
@[simp] theorem modGroup_times (s : State) (k : GKey) (f : Group → Group) : (s.modGroup k f).times = s.times := by unfold modGroup; split <;> rfl
@[simp] theorem modGroup_fabId (s : State) (k : GKey) (f : Group → Group) : (s.modGroup k f).fabId = s.fabId := by unfold modGroup; split <;> rfl
@[simp] theorem modGroup_routes (s : State) (k : GKey) (f : Group → Group) : (s.modGroup k f).routes = s.routes := by unfold modGroup; split <;> rfl
@[simp] theorem modGroup_ports (s : State) (k : GKey) (f : Group → Group) : (s.modGroup k f).ports = s.ports := by unfold modGroup; split <;> rfl
@[simp] theorem modGroup_reqs (s : State) (k : GKey) (f : Group → Group) : (s.modGroup k f).reqs = s.reqs := by unfold modGroup; split <;> rfl
@[simp] theorem modGroup_outbox (s : State) (k : GKey) (f : Group → Group) : (s.modGroup k f).outbox = s.outbox := by unfold modGroup; split <;> rfl
@[simp] theorem modGroup_sigTags (s : State) (k : GKey) (f : Group → Group) : (s.modGroup k f).sigTags = s.sigTags := by unfold modGroup; split <;> rfl
@[simp] theorem modGroup_plat (s : State) (k : GKey) (f : Group → Group) : (s.modGroup k f).plat = s.plat := by unfold modGroup; split <;> rfl
@[simp] theorem modGroup_corrected (s : State) (k : GKey) (f : Group → Group) : (s.modGroup k f).corrected = s.corrected := by unfold modGroup; split <;> rfl
@[simp] theorem modGroup_meter (s : State) (k : GKey) (f : Group → Group) : (s.modGroup k f).meter = s.meter := by unfold modGroup; split <;> rfl
@[simp] theorem modGroup_ns (s : State) (k : GKey) (f : Group → Group) : (s.modGroup k f).ns = s.ns := by unfold modGroup; split <;> rfl
@[simp] theorem modGroup_agenda (s : State) (k : GKey) (f : Group → Group) : (s.modGroup k f).agenda = s.agenda := by unfold modGroup; split <;> rfl
@[simp] theorem modGroup_cur (s : State) (k : GKey) (f : Group → Group) : (s.modGroup k f).cur = s.cur := by unfold modGroup; split <;> rfl
@[simp] theorem modGroup_tick (s : State) (k : GKey) (f : Group → Group) : (s.modGroup k f).tick = s.tick := by unfold modGroup; split <;> rfl
@[simp] theorem modGroup_nextId (s : State) (k : GKey) (f : Group → Group) : (s.modGroup k f).nextId = s.nextId := by unfold modGroup; split <;> rfl

/-! ### setTeam -/

@[simp] theorem setTeam_mem (s : State) (t : Team) : (s.setTeam t).mem = s.mem := rfl
@[simp] theorem setTeam_past (s : State) (t : Team) : (s.setTeam t).past = s.past := rfl
@[simp] theorem setTeam_poison (s : State) (t : Team) : (s.setTeam t).poison = s.poison := rfl
@[simp] theorem setTeam_lost (s : State) (t : Team) : (s.setTeam t).lost = s.lost := rfl
@[simp] theorem setTeam_groups (s : State) (t : Team) : (s.setTeam t).groups = s.groups := rfl
@[simp] theorem setTeam_cores (s : State) (t : Team) : (s.setTeam t).cores = s.cores := rfl
@[simp] theorem setTeam_dies (s : State) (t : Team) : (s.setTeam t).dies = s.dies := rfl
@[simp] theorem setTeam_grids (s : State) (t : Team) : (s.setTeam t).grids = s.grids := rfl
@[simp] theorem setTeam_queues (s : State) (t : Team) : (s.setTeam t).queues = s.queues := rfl
@[simp] theorem setTeam_lastQueue (s : State) (t : Team) : (s.setTeam t).lastQueue = s.lastQueue := rfl
@[simp] theorem setTeam_reserv (s : State) (t : Team) : (s.setTeam t).reserv = s.reserv := rfl
@[simp] theorem setTeam_dist (s : State) (t : Team) : (s.setTeam t).dist = s.dist := rfl
@[simp] theorem setTeam_nq (s : State) (t : Team) : (s.setTeam t).nq = s.nq := rfl
@[simp] theorem setTeam_rootN (s : State) (t : Team) : (s.setTeam t).rootN = s.rootN := rfl
@[simp] theorem setTeam_rootS (s : State) (t : Team) : (s.setTeam t).rootS = s.rootS := rfl
@[simp] theorem setTeam_times (s : State) (t : Team) : (s.setTeam t).times = s.times := rfl
@[simp] theorem setTeam_fabId (s : State) (t : Team) : (s.setTeam t).fabId = s.fabId := rfl
@[simp] theorem setTeam_routes (s : State) (t : Team) : (s.setTeam t).routes = s.routes := rfl
@[simp] theorem setTeam_ports (s : State) (t : Team) : (s.setTeam t).ports = s.ports := rfl
@[simp] theorem setTeam_reqs (s : State) (t : Team) : (s.setTeam t).reqs = s.reqs := rfl
@[simp] theorem setTeam_outbox (s : State) (t : Team) : (s.setTeam t).outbox = s.outbox := rfl
@[simp] theorem setTeam_sigTags (s : State) (t : Team) : (s.setTeam t).sigTags = s.sigTags := rfl
@[simp] theorem setTeam_plat (s : State) (t : Team) : (s.setTeam t).plat = s.plat := rfl
@[simp] theorem setTeam_corrected (s : State) (t : Team) : (s.setTeam t).corrected = s.corrected := rfl
@[simp] theorem setTeam_meter (s : State) (t : Team) : (s.setTeam t).meter = s.meter := rfl
@[simp] theorem setTeam_ns (s : State) (t : Team) : (s.setTeam t).ns = s.ns := rfl
@[simp] theorem setTeam_agenda (s : State) (t : Team) : (s.setTeam t).agenda = s.agenda := rfl
@[simp] theorem setTeam_cur (s : State) (t : Team) : (s.setTeam t).cur = s.cur := rfl
@[simp] theorem setTeam_tick (s : State) (t : Team) : (s.setTeam t).tick = s.tick := rfl
@[simp] theorem setTeam_nextId (s : State) (t : Team) : (s.setTeam t).nextId = s.nextId := rfl

/-! ### modTeam -/

@[simp] theorem modTeam_mem (s : State) (u : Nat) (f : Team → Team) : (s.modTeam u f).mem = s.mem := by unfold modTeam; split <;> rfl
@[simp] theorem modTeam_past (s : State) (u : Nat) (f : Team → Team) : (s.modTeam u f).past = s.past := by unfold modTeam; split <;> rfl
@[simp] theorem modTeam_poison (s : State) (u : Nat) (f : Team → Team) : (s.modTeam u f).poison = s.poison := by unfold modTeam; split <;> rfl
@[simp] theorem modTeam_lost (s : State) (u : Nat) (f : Team → Team) : (s.modTeam u f).lost = s.lost := by unfold modTeam; split <;> rfl
@[simp] theorem modTeam_groups (s : State) (u : Nat) (f : Team → Team) : (s.modTeam u f).groups = s.groups := by unfold modTeam; split <;> rfl
@[simp] theorem modTeam_cores (s : State) (u : Nat) (f : Team → Team) : (s.modTeam u f).cores = s.cores := by unfold modTeam; split <;> rfl
@[simp] theorem modTeam_dies (s : State) (u : Nat) (f : Team → Team) : (s.modTeam u f).dies = s.dies := by unfold modTeam; split <;> rfl
@[simp] theorem modTeam_grids (s : State) (u : Nat) (f : Team → Team) : (s.modTeam u f).grids = s.grids := by unfold modTeam; split <;> rfl
@[simp] theorem modTeam_queues (s : State) (u : Nat) (f : Team → Team) : (s.modTeam u f).queues = s.queues := by unfold modTeam; split <;> rfl
@[simp] theorem modTeam_lastQueue (s : State) (u : Nat) (f : Team → Team) : (s.modTeam u f).lastQueue = s.lastQueue := by unfold modTeam; split <;> rfl
@[simp] theorem modTeam_reserv (s : State) (u : Nat) (f : Team → Team) : (s.modTeam u f).reserv = s.reserv := by unfold modTeam; split <;> rfl
@[simp] theorem modTeam_dist (s : State) (u : Nat) (f : Team → Team) : (s.modTeam u f).dist = s.dist := by unfold modTeam; split <;> rfl
@[simp] theorem modTeam_nq (s : State) (u : Nat) (f : Team → Team) : (s.modTeam u f).nq = s.nq := by unfold modTeam; split <;> rfl
@[simp] theorem modTeam_rootN (s : State) (u : Nat) (f : Team → Team) : (s.modTeam u f).rootN = s.rootN := by unfold modTeam; split <;> rfl
@[simp] theorem modTeam_rootS (s : State) (u : Nat) (f : Team → Team) : (s.modTeam u f).rootS = s.rootS := by unfold modTeam; split <;> rfl
@[simp] theorem modTeam_times (s : State) (u : Nat) (f : Team → Team) : (s.modTeam u f).times = s.times := by unfold modTeam; split <;> rfl
@[simp] theorem modTeam_fabId (s : State) (u : Nat) (f : Team → Team) : (s.modTeam u f).fabId = s.fabId := by unfold modTeam; split <;> rfl
@[simp] theorem modTeam_routes (s : State) (u : Nat) (f : Team → Team) : (s.modTeam u f).routes = s.routes := by unfold modTeam; split <;> rfl
@[simp] theorem modTeam_ports (s : State) (u : Nat) (f : Team → Team) : (s.modTeam u f).ports = s.ports := by unfold modTeam; split <;> rfl
@[simp] theorem modTeam_reqs (s : State) (u : Nat) (f : Team → Team) : (s.modTeam u f).reqs = s.reqs := by unfold modTeam; split <;> rfl
@[simp] theorem modTeam_outbox (s : State) (u : Nat) (f : Team → Team) : (s.modTeam u f).outbox = s.outbox := by unfold modTeam; split <;> rfl
@[simp] theorem modTeam_sigTags (s : State) (u : Nat) (f : Team → Team) : (s.modTeam u f).sigTags = s.sigTags := by unfold modTeam; split <;> rfl
@[simp] theorem modTeam_plat (s : State) (u : Nat) (f : Team → Team) : (s.modTeam u f).plat = s.plat := by unfold modTeam; split <;> rfl
@[simp] theorem modTeam_corrected (s : State) (u : Nat) (f : Team → Team) : (s.modTeam u f).corrected = s.corrected := by unfold modTeam; split <;> rfl
@[simp] theorem modTeam_meter (s : State) (u : Nat) (f : Team → Team) : (s.modTeam u f).meter = s.meter := by unfold modTeam; split <;> rfl
@[simp] theorem modTeam_ns (s : State) (u : Nat) (f : Team → Team) : (s.modTeam u f).ns = s.ns := by unfold modTeam; split <;> rfl
@[simp] theorem modTeam_agenda (s : State) (u : Nat) (f : Team → Team) : (s.modTeam u f).agenda = s.agenda := by unfold modTeam; split <;> rfl
@[simp] theorem modTeam_cur (s : State) (u : Nat) (f : Team → Team) : (s.modTeam u f).cur = s.cur := by unfold modTeam; split <;> rfl
@[simp] theorem modTeam_tick (s : State) (u : Nat) (f : Team → Team) : (s.modTeam u f).tick = s.tick := by unfold modTeam; split <;> rfl
@[simp] theorem modTeam_nextId (s : State) (u : Nat) (f : Team → Team) : (s.modTeam u f).nextId = s.nextId := by unfold modTeam; split <;> rfl

/-! ### setCore -/

@[simp] theorem setCore_mem (s : State) (c : Nat) (x : Core) : (s.setCore c x).mem = s.mem := rfl
@[simp] theorem setCore_past (s : State) (c : Nat) (x : Core) : (s.setCore c x).past = s.past := rfl
@[simp] theorem setCore_poison (s : State) (c : Nat) (x : Core) : (s.setCore c x).poison = s.poison := rfl
@[simp] theorem setCore_lost (s : State) (c : Nat) (x : Core) : (s.setCore c x).lost = s.lost := rfl
@[simp] theorem setCore_groups (s : State) (c : Nat) (x : Core) : (s.setCore c x).groups = s.groups := rfl
@[simp] theorem setCore_teams (s : State) (c : Nat) (x : Core) : (s.setCore c x).teams = s.teams := rfl
@[simp] theorem setCore_dies (s : State) (c : Nat) (x : Core) : (s.setCore c x).dies = s.dies := rfl
@[simp] theorem setCore_grids (s : State) (c : Nat) (x : Core) : (s.setCore c x).grids = s.grids := rfl
@[simp] theorem setCore_queues (s : State) (c : Nat) (x : Core) : (s.setCore c x).queues = s.queues := rfl
@[simp] theorem setCore_lastQueue (s : State) (c : Nat) (x : Core) : (s.setCore c x).lastQueue = s.lastQueue := rfl
@[simp] theorem setCore_reserv (s : State) (c : Nat) (x : Core) : (s.setCore c x).reserv = s.reserv := rfl
@[simp] theorem setCore_dist (s : State) (c : Nat) (x : Core) : (s.setCore c x).dist = s.dist := rfl
@[simp] theorem setCore_nq (s : State) (c : Nat) (x : Core) : (s.setCore c x).nq = s.nq := rfl
@[simp] theorem setCore_rootN (s : State) (c : Nat) (x : Core) : (s.setCore c x).rootN = s.rootN := rfl
@[simp] theorem setCore_rootS (s : State) (c : Nat) (x : Core) : (s.setCore c x).rootS = s.rootS := rfl
@[simp] theorem setCore_times (s : State) (c : Nat) (x : Core) : (s.setCore c x).times = s.times := rfl
@[simp] theorem setCore_fabId (s : State) (c : Nat) (x : Core) : (s.setCore c x).fabId = s.fabId := rfl
@[simp] theorem setCore_routes (s : State) (c : Nat) (x : Core) : (s.setCore c x).routes = s.routes := rfl
@[simp] theorem setCore_ports (s : State) (c : Nat) (x : Core) : (s.setCore c x).ports = s.ports := rfl
@[simp] theorem setCore_reqs (s : State) (c : Nat) (x : Core) : (s.setCore c x).reqs = s.reqs := rfl
@[simp] theorem setCore_outbox (s : State) (c : Nat) (x : Core) : (s.setCore c x).outbox = s.outbox := rfl
@[simp] theorem setCore_sigTags (s : State) (c : Nat) (x : Core) : (s.setCore c x).sigTags = s.sigTags := rfl
@[simp] theorem setCore_plat (s : State) (c : Nat) (x : Core) : (s.setCore c x).plat = s.plat := rfl
@[simp] theorem setCore_corrected (s : State) (c : Nat) (x : Core) : (s.setCore c x).corrected = s.corrected := rfl
@[simp] theorem setCore_meter (s : State) (c : Nat) (x : Core) : (s.setCore c x).meter = s.meter := rfl
@[simp] theorem setCore_ns (s : State) (c : Nat) (x : Core) : (s.setCore c x).ns = s.ns := rfl
@[simp] theorem setCore_agenda (s : State) (c : Nat) (x : Core) : (s.setCore c x).agenda = s.agenda := rfl
@[simp] theorem setCore_cur (s : State) (c : Nat) (x : Core) : (s.setCore c x).cur = s.cur := rfl
@[simp] theorem setCore_tick (s : State) (c : Nat) (x : Core) : (s.setCore c x).tick = s.tick := rfl
@[simp] theorem setCore_nextId (s : State) (c : Nat) (x : Core) : (s.setCore c x).nextId = s.nextId := rfl

/-! ### modCore -/

@[simp] theorem modCore_mem (s : State) (c : Nat) (f : Core → Core) : (s.modCore c f).mem = s.mem := rfl
@[simp] theorem modCore_past (s : State) (c : Nat) (f : Core → Core) : (s.modCore c f).past = s.past := rfl
@[simp] theorem modCore_poison (s : State) (c : Nat) (f : Core → Core) : (s.modCore c f).poison = s.poison := rfl
@[simp] theorem modCore_lost (s : State) (c : Nat) (f : Core → Core) : (s.modCore c f).lost = s.lost := rfl
@[simp] theorem modCore_groups (s : State) (c : Nat) (f : Core → Core) : (s.modCore c f).groups = s.groups := rfl
@[simp] theorem modCore_teams (s : State) (c : Nat) (f : Core → Core) : (s.modCore c f).teams = s.teams := rfl
@[simp] theorem modCore_dies (s : State) (c : Nat) (f : Core → Core) : (s.modCore c f).dies = s.dies := rfl
@[simp] theorem modCore_grids (s : State) (c : Nat) (f : Core → Core) : (s.modCore c f).grids = s.grids := rfl
@[simp] theorem modCore_queues (s : State) (c : Nat) (f : Core → Core) : (s.modCore c f).queues = s.queues := rfl
@[simp] theorem modCore_lastQueue (s : State) (c : Nat) (f : Core → Core) : (s.modCore c f).lastQueue = s.lastQueue := rfl
@[simp] theorem modCore_reserv (s : State) (c : Nat) (f : Core → Core) : (s.modCore c f).reserv = s.reserv := rfl
@[simp] theorem modCore_dist (s : State) (c : Nat) (f : Core → Core) : (s.modCore c f).dist = s.dist := rfl
@[simp] theorem modCore_nq (s : State) (c : Nat) (f : Core → Core) : (s.modCore c f).nq = s.nq := rfl
@[simp] theorem modCore_rootN (s : State) (c : Nat) (f : Core → Core) : (s.modCore c f).rootN = s.rootN := rfl
@[simp] theorem modCore_rootS (s : State) (c : Nat) (f : Core → Core) : (s.modCore c f).rootS = s.rootS := rfl
@[simp] theorem modCore_times (s : State) (c : Nat) (f : Core → Core) : (s.modCore c f).times = s.times := rfl
@[simp] theorem modCore_fabId (s : State) (c : Nat) (f : Core → Core) : (s.modCore c f).fabId = s.fabId := rfl
@[simp] theorem modCore_routes (s : State) (c : Nat) (f : Core → Core) : (s.modCore c f).routes = s.routes := rfl
@[simp] theorem modCore_ports (s : State) (c : Nat) (f : Core → Core) : (s.modCore c f).ports = s.ports := rfl
@[simp] theorem modCore_reqs (s : State) (c : Nat) (f : Core → Core) : (s.modCore c f).reqs = s.reqs := rfl
@[simp] theorem modCore_outbox (s : State) (c : Nat) (f : Core → Core) : (s.modCore c f).outbox = s.outbox := rfl
@[simp] theorem modCore_sigTags (s : State) (c : Nat) (f : Core → Core) : (s.modCore c f).sigTags = s.sigTags := rfl
@[simp] theorem modCore_plat (s : State) (c : Nat) (f : Core → Core) : (s.modCore c f).plat = s.plat := rfl
@[simp] theorem modCore_corrected (s : State) (c : Nat) (f : Core → Core) : (s.modCore c f).corrected = s.corrected := rfl
@[simp] theorem modCore_meter (s : State) (c : Nat) (f : Core → Core) : (s.modCore c f).meter = s.meter := rfl
@[simp] theorem modCore_ns (s : State) (c : Nat) (f : Core → Core) : (s.modCore c f).ns = s.ns := rfl
@[simp] theorem modCore_agenda (s : State) (c : Nat) (f : Core → Core) : (s.modCore c f).agenda = s.agenda := rfl
@[simp] theorem modCore_cur (s : State) (c : Nat) (f : Core → Core) : (s.modCore c f).cur = s.cur := rfl
@[simp] theorem modCore_tick (s : State) (c : Nat) (f : Core → Core) : (s.modCore c f).tick = s.tick := rfl
@[simp] theorem modCore_nextId (s : State) (c : Nat) (f : Core → Core) : (s.modCore c f).nextId = s.nextId := rfl

/-! ### setDie -/

@[simp] theorem setDie_mem (s : State) (d : Nat) (x : Die) : (s.setDie d x).mem = s.mem := rfl
@[simp] theorem setDie_past (s : State) (d : Nat) (x : Die) : (s.setDie d x).past = s.past := rfl
@[simp] theorem setDie_poison (s : State) (d : Nat) (x : Die) : (s.setDie d x).poison = s.poison := rfl
@[simp] theorem setDie_lost (s : State) (d : Nat) (x : Die) : (s.setDie d x).lost = s.lost := rfl
@[simp] theorem setDie_groups (s : State) (d : Nat) (x : Die) : (s.setDie d x).groups = s.groups := rfl
@[simp] theorem setDie_teams (s : State) (d : Nat) (x : Die) : (s.setDie d x).teams = s.teams := rfl
@[simp] theorem setDie_cores (s : State) (d : Nat) (x : Die) : (s.setDie d x).cores = s.cores := rfl
@[simp] theorem setDie_grids (s : State) (d : Nat) (x : Die) : (s.setDie d x).grids = s.grids := rfl
@[simp] theorem setDie_queues (s : State) (d : Nat) (x : Die) : (s.setDie d x).queues = s.queues := rfl
@[simp] theorem setDie_lastQueue (s : State) (d : Nat) (x : Die) : (s.setDie d x).lastQueue = s.lastQueue := rfl
@[simp] theorem setDie_reserv (s : State) (d : Nat) (x : Die) : (s.setDie d x).reserv = s.reserv := rfl
@[simp] theorem setDie_dist (s : State) (d : Nat) (x : Die) : (s.setDie d x).dist = s.dist := rfl
@[simp] theorem setDie_nq (s : State) (d : Nat) (x : Die) : (s.setDie d x).nq = s.nq := rfl
@[simp] theorem setDie_rootN (s : State) (d : Nat) (x : Die) : (s.setDie d x).rootN = s.rootN := rfl
@[simp] theorem setDie_rootS (s : State) (d : Nat) (x : Die) : (s.setDie d x).rootS = s.rootS := rfl
@[simp] theorem setDie_times (s : State) (d : Nat) (x : Die) : (s.setDie d x).times = s.times := rfl
@[simp] theorem setDie_fabId (s : State) (d : Nat) (x : Die) : (s.setDie d x).fabId = s.fabId := rfl
@[simp] theorem setDie_routes (s : State) (d : Nat) (x : Die) : (s.setDie d x).routes = s.routes := rfl
@[simp] theorem setDie_ports (s : State) (d : Nat) (x : Die) : (s.setDie d x).ports = s.ports := rfl
@[simp] theorem setDie_reqs (s : State) (d : Nat) (x : Die) : (s.setDie d x).reqs = s.reqs := rfl
@[simp] theorem setDie_outbox (s : State) (d : Nat) (x : Die) : (s.setDie d x).outbox = s.outbox := rfl
@[simp] theorem setDie_sigTags (s : State) (d : Nat) (x : Die) : (s.setDie d x).sigTags = s.sigTags := rfl
@[simp] theorem setDie_plat (s : State) (d : Nat) (x : Die) : (s.setDie d x).plat = s.plat := rfl
@[simp] theorem setDie_corrected (s : State) (d : Nat) (x : Die) : (s.setDie d x).corrected = s.corrected := rfl
@[simp] theorem setDie_meter (s : State) (d : Nat) (x : Die) : (s.setDie d x).meter = s.meter := rfl
@[simp] theorem setDie_ns (s : State) (d : Nat) (x : Die) : (s.setDie d x).ns = s.ns := rfl
@[simp] theorem setDie_agenda (s : State) (d : Nat) (x : Die) : (s.setDie d x).agenda = s.agenda := rfl
@[simp] theorem setDie_cur (s : State) (d : Nat) (x : Die) : (s.setDie d x).cur = s.cur := rfl
@[simp] theorem setDie_tick (s : State) (d : Nat) (x : Die) : (s.setDie d x).tick = s.tick := rfl
@[simp] theorem setDie_nextId (s : State) (d : Nat) (x : Die) : (s.setDie d x).nextId = s.nextId := rfl

/-! ### modDie -/

@[simp] theorem modDie_mem (s : State) (d : Nat) (f : Die → Die) : (s.modDie d f).mem = s.mem := rfl
@[simp] theorem modDie_past (s : State) (d : Nat) (f : Die → Die) : (s.modDie d f).past = s.past := rfl
@[simp] theorem modDie_poison (s : State) (d : Nat) (f : Die → Die) : (s.modDie d f).poison = s.poison := rfl
@[simp] theorem modDie_lost (s : State) (d : Nat) (f : Die → Die) : (s.modDie d f).lost = s.lost := rfl
@[simp] theorem modDie_groups (s : State) (d : Nat) (f : Die → Die) : (s.modDie d f).groups = s.groups := rfl
@[simp] theorem modDie_teams (s : State) (d : Nat) (f : Die → Die) : (s.modDie d f).teams = s.teams := rfl
@[simp] theorem modDie_cores (s : State) (d : Nat) (f : Die → Die) : (s.modDie d f).cores = s.cores := rfl
@[simp] theorem modDie_grids (s : State) (d : Nat) (f : Die → Die) : (s.modDie d f).grids = s.grids := rfl
@[simp] theorem modDie_queues (s : State) (d : Nat) (f : Die → Die) : (s.modDie d f).queues = s.queues := rfl
@[simp] theorem modDie_lastQueue (s : State) (d : Nat) (f : Die → Die) : (s.modDie d f).lastQueue = s.lastQueue := rfl
@[simp] theorem modDie_reserv (s : State) (d : Nat) (f : Die → Die) : (s.modDie d f).reserv = s.reserv := rfl
@[simp] theorem modDie_dist (s : State) (d : Nat) (f : Die → Die) : (s.modDie d f).dist = s.dist := rfl
@[simp] theorem modDie_nq (s : State) (d : Nat) (f : Die → Die) : (s.modDie d f).nq = s.nq := rfl
@[simp] theorem modDie_rootN (s : State) (d : Nat) (f : Die → Die) : (s.modDie d f).rootN = s.rootN := rfl
@[simp] theorem modDie_rootS (s : State) (d : Nat) (f : Die → Die) : (s.modDie d f).rootS = s.rootS := rfl
@[simp] theorem modDie_times (s : State) (d : Nat) (f : Die → Die) : (s.modDie d f).times = s.times := rfl
@[simp] theorem modDie_fabId (s : State) (d : Nat) (f : Die → Die) : (s.modDie d f).fabId = s.fabId := rfl
@[simp] theorem modDie_routes (s : State) (d : Nat) (f : Die → Die) : (s.modDie d f).routes = s.routes := rfl
@[simp] theorem modDie_ports (s : State) (d : Nat) (f : Die → Die) : (s.modDie d f).ports = s.ports := rfl
@[simp] theorem modDie_reqs (s : State) (d : Nat) (f : Die → Die) : (s.modDie d f).reqs = s.reqs := rfl
@[simp] theorem modDie_outbox (s : State) (d : Nat) (f : Die → Die) : (s.modDie d f).outbox = s.outbox := rfl
@[simp] theorem modDie_sigTags (s : State) (d : Nat) (f : Die → Die) : (s.modDie d f).sigTags = s.sigTags := rfl
@[simp] theorem modDie_plat (s : State) (d : Nat) (f : Die → Die) : (s.modDie d f).plat = s.plat := rfl
@[simp] theorem modDie_corrected (s : State) (d : Nat) (f : Die → Die) : (s.modDie d f).corrected = s.corrected := rfl
@[simp] theorem modDie_meter (s : State) (d : Nat) (f : Die → Die) : (s.modDie d f).meter = s.meter := rfl
@[simp] theorem modDie_ns (s : State) (d : Nat) (f : Die → Die) : (s.modDie d f).ns = s.ns := rfl
@[simp] theorem modDie_agenda (s : State) (d : Nat) (f : Die → Die) : (s.modDie d f).agenda = s.agenda := rfl
@[simp] theorem modDie_cur (s : State) (d : Nat) (f : Die → Die) : (s.modDie d f).cur = s.cur := rfl
@[simp] theorem modDie_tick (s : State) (d : Nat) (f : Die → Die) : (s.modDie d f).tick = s.tick := rfl
@[simp] theorem modDie_nextId (s : State) (d : Nat) (f : Die → Die) : (s.modDie d f).nextId = s.nextId := rfl

/-! ### setGrid -/

@[simp] theorem setGrid_mem (s : State) (g : Grid) : (s.setGrid g).mem = s.mem := rfl
@[simp] theorem setGrid_past (s : State) (g : Grid) : (s.setGrid g).past = s.past := rfl
@[simp] theorem setGrid_poison (s : State) (g : Grid) : (s.setGrid g).poison = s.poison := rfl
@[simp] theorem setGrid_lost (s : State) (g : Grid) : (s.setGrid g).lost = s.lost := rfl
@[simp] theorem setGrid_groups (s : State) (g : Grid) : (s.setGrid g).groups = s.groups := rfl
@[simp] theorem setGrid_teams (s : State) (g : Grid) : (s.setGrid g).teams = s.teams := rfl
@[simp] theorem setGrid_cores (s : State) (g : Grid) : (s.setGrid g).cores = s.cores := rfl
@[simp] theorem setGrid_dies (s : State) (g : Grid) : (s.setGrid g).dies = s.dies := rfl
@[simp] theorem setGrid_queues (s : State) (g : Grid) : (s.setGrid g).queues = s.queues := rfl
@[simp] theorem setGrid_lastQueue (s : State) (g : Grid) : (s.setGrid g).lastQueue = s.lastQueue := rfl
@[simp] theorem setGrid_reserv (s : State) (g : Grid) : (s.setGrid g).reserv = s.reserv := rfl
@[simp] theorem setGrid_dist (s : State) (g : Grid) : (s.setGrid g).dist = s.dist := rfl
@[simp] theorem setGrid_nq (s : State) (g : Grid) : (s.setGrid g).nq = s.nq := rfl
@[simp] theorem setGrid_rootN (s : State) (g : Grid) : (s.setGrid g).rootN = s.rootN := rfl
@[simp] theorem setGrid_rootS (s : State) (g : Grid) : (s.setGrid g).rootS = s.rootS := rfl
@[simp] theorem setGrid_times (s : State) (g : Grid) : (s.setGrid g).times = s.times := rfl
@[simp] theorem setGrid_fabId (s : State) (g : Grid) : (s.setGrid g).fabId = s.fabId := rfl
@[simp] theorem setGrid_routes (s : State) (g : Grid) : (s.setGrid g).routes = s.routes := rfl
@[simp] theorem setGrid_ports (s : State) (g : Grid) : (s.setGrid g).ports = s.ports := rfl
@[simp] theorem setGrid_reqs (s : State) (g : Grid) : (s.setGrid g).reqs = s.reqs := rfl
@[simp] theorem setGrid_outbox (s : State) (g : Grid) : (s.setGrid g).outbox = s.outbox := rfl
@[simp] theorem setGrid_sigTags (s : State) (g : Grid) : (s.setGrid g).sigTags = s.sigTags := rfl
@[simp] theorem setGrid_plat (s : State) (g : Grid) : (s.setGrid g).plat = s.plat := rfl
@[simp] theorem setGrid_corrected (s : State) (g : Grid) : (s.setGrid g).corrected = s.corrected := rfl
@[simp] theorem setGrid_meter (s : State) (g : Grid) : (s.setGrid g).meter = s.meter := rfl
@[simp] theorem setGrid_ns (s : State) (g : Grid) : (s.setGrid g).ns = s.ns := rfl
@[simp] theorem setGrid_agenda (s : State) (g : Grid) : (s.setGrid g).agenda = s.agenda := rfl
@[simp] theorem setGrid_cur (s : State) (g : Grid) : (s.setGrid g).cur = s.cur := rfl
@[simp] theorem setGrid_tick (s : State) (g : Grid) : (s.setGrid g).tick = s.tick := rfl
@[simp] theorem setGrid_nextId (s : State) (g : Grid) : (s.setGrid g).nextId = s.nextId := rfl

/-! ### modGrid -/

@[simp] theorem modGrid_mem (s : State) (c : Nat) (f : Grid → Grid) : (s.modGrid c f).mem = s.mem := by unfold modGrid; split <;> rfl
@[simp] theorem modGrid_past (s : State) (c : Nat) (f : Grid → Grid) : (s.modGrid c f).past = s.past := by unfold modGrid; split <;> rfl
@[simp] theorem modGrid_poison (s : State) (c : Nat) (f : Grid → Grid) : (s.modGrid c f).poison = s.poison := by unfold modGrid; split <;> rfl
@[simp] theorem modGrid_lost (s : State) (c : Nat) (f : Grid → Grid) : (s.modGrid c f).lost = s.lost := by unfold modGrid; split <;> rfl
@[simp] theorem modGrid_groups (s : State) (c : Nat) (f : Grid → Grid) : (s.modGrid c f).groups = s.groups := by unfold modGrid; split <;> rfl
@[simp] theorem modGrid_teams (s : State) (c : Nat) (f : Grid → Grid) : (s.modGrid c f).teams = s.teams := by unfold modGrid; split <;> rfl
@[simp] theorem modGrid_cores (s : State) (c : Nat) (f : Grid → Grid) : (s.modGrid c f).cores = s.cores := by unfold modGrid; split <;> rfl
@[simp] theorem modGrid_dies (s : State) (c : Nat) (f : Grid → Grid) : (s.modGrid c f).dies = s.dies := by unfold modGrid; split <;> rfl
@[simp] theorem modGrid_queues (s : State) (c : Nat) (f : Grid → Grid) : (s.modGrid c f).queues = s.queues := by unfold modGrid; split <;> rfl
@[simp] theorem modGrid_lastQueue (s : State) (c : Nat) (f : Grid → Grid) : (s.modGrid c f).lastQueue = s.lastQueue := by unfold modGrid; split <;> rfl
@[simp] theorem modGrid_reserv (s : State) (c : Nat) (f : Grid → Grid) : (s.modGrid c f).reserv = s.reserv := by unfold modGrid; split <;> rfl
@[simp] theorem modGrid_dist (s : State) (c : Nat) (f : Grid → Grid) : (s.modGrid c f).dist = s.dist := by unfold modGrid; split <;> rfl
@[simp] theorem modGrid_nq (s : State) (c : Nat) (f : Grid → Grid) : (s.modGrid c f).nq = s.nq := by unfold modGrid; split <;> rfl
@[simp] theorem modGrid_rootN (s : State) (c : Nat) (f : Grid → Grid) : (s.modGrid c f).rootN = s.rootN := by unfold modGrid; split <;> rfl
@[simp] theorem modGrid_rootS (s : State) (c : Nat) (f : Grid → Grid) : (s.modGrid c f).rootS = s.rootS := by unfold modGrid; split <;> rfl
@[simp] theorem modGrid_times (s : State) (c : Nat) (f : Grid → Grid) : (s.modGrid c f).times = s.times := by unfold modGrid; split <;> rfl
@[simp] theorem modGrid_fabId (s : State) (c : Nat) (f : Grid → Grid) : (s.modGrid c f).fabId = s.fabId := by unfold modGrid; split <;> rfl
@[simp] theorem modGrid_routes (s : State) (c : Nat) (f : Grid → Grid) : (s.modGrid c f).routes = s.routes := by unfold modGrid; split <;> rfl
@[simp] theorem modGrid_ports (s : State) (c : Nat) (f : Grid → Grid) : (s.modGrid c f).ports = s.ports := by unfold modGrid; split <;> rfl
@[simp] theorem modGrid_reqs (s : State) (c : Nat) (f : Grid → Grid) : (s.modGrid c f).reqs = s.reqs := by unfold modGrid; split <;> rfl
@[simp] theorem modGrid_outbox (s : State) (c : Nat) (f : Grid → Grid) : (s.modGrid c f).outbox = s.outbox := by unfold modGrid; split <;> rfl
@[simp] theorem modGrid_sigTags (s : State) (c : Nat) (f : Grid → Grid) : (s.modGrid c f).sigTags = s.sigTags := by unfold modGrid; split <;> rfl
@[simp] theorem modGrid_plat (s : State) (c : Nat) (f : Grid → Grid) : (s.modGrid c f).plat = s.plat := by unfold modGrid; split <;> rfl
@[simp] theorem modGrid_corrected (s : State) (c : Nat) (f : Grid → Grid) : (s.modGrid c f).corrected = s.corrected := by unfold modGrid; split <;> rfl
@[simp] theorem modGrid_meter (s : State) (c : Nat) (f : Grid → Grid) : (s.modGrid c f).meter = s.meter := by unfold modGrid; split <;> rfl
@[simp] theorem modGrid_ns (s : State) (c : Nat) (f : Grid → Grid) : (s.modGrid c f).ns = s.ns := by unfold modGrid; split <;> rfl
@[simp] theorem modGrid_agenda (s : State) (c : Nat) (f : Grid → Grid) : (s.modGrid c f).agenda = s.agenda := by unfold modGrid; split <;> rfl
@[simp] theorem modGrid_cur (s : State) (c : Nat) (f : Grid → Grid) : (s.modGrid c f).cur = s.cur := by unfold modGrid; split <;> rfl
@[simp] theorem modGrid_tick (s : State) (c : Nat) (f : Grid → Grid) : (s.modGrid c f).tick = s.tick := by unfold modGrid; split <;> rfl
@[simp] theorem modGrid_nextId (s : State) (c : Nat) (f : Grid → Grid) : (s.modGrid c f).nextId = s.nextId := by unfold modGrid; split <;> rfl

/-! ### Lookups that an update leaves alone -/

@[simp] theorem store_group_of (s : State) (l : List (Nat × Byte)) (j : GKey) : (s.store l).group? j = s.group? j := rfl
@[simp] theorem store_team_of (s : State) (l : List (Nat × Byte)) (v : Nat) : (s.store l).team? v = s.team? v := rfl
@[simp] theorem store_core (s : State) (l : List (Nat × Byte)) (n : Nat) : (s.store l).core n = s.core n := rfl
@[simp] theorem store_die (s : State) (l : List (Nat × Byte)) (n : Nat) : (s.store l).die n = s.die n := rfl
@[simp] theorem store_grid_of (s : State) (l : List (Nat × Byte)) (n : Nat) : (s.store l).grid? n = s.grid? n := rfl
@[simp] theorem setTag_group_of (s : State) (a : Nat) (t : BitVec 16) (j : GKey) : (s.setTag a t).group? j = s.group? j := by unfold setTag; split <;> rfl
@[simp] theorem setTag_team_of (s : State) (a : Nat) (t : BitVec 16) (v : Nat) : (s.setTag a t).team? v = s.team? v := by unfold setTag; split <;> rfl
@[simp] theorem setTag_core (s : State) (a : Nat) (t : BitVec 16) (n : Nat) : (s.setTag a t).core n = s.core n := by unfold setTag; split <;> rfl
@[simp] theorem setTag_die (s : State) (a : Nat) (t : BitVec 16) (n : Nat) : (s.setTag a t).die n = s.die n := by unfold setTag; split <;> rfl
@[simp] theorem setTag_grid_of (s : State) (a : Nat) (t : BitVec 16) (n : Nat) : (s.setTag a t).grid? n = s.grid? n := by unfold setTag; split <;> rfl
@[simp] theorem addPoison_group_of (s : State) (a : Nat) (j : GKey) : (s.addPoison a).group? j = s.group? j := by unfold addPoison; split <;> rfl
@[simp] theorem addPoison_team_of (s : State) (a : Nat) (v : Nat) : (s.addPoison a).team? v = s.team? v := by unfold addPoison; split <;> rfl
@[simp] theorem addPoison_core (s : State) (a : Nat) (n : Nat) : (s.addPoison a).core n = s.core n := by unfold addPoison; split <;> rfl
@[simp] theorem addPoison_die (s : State) (a : Nat) (n : Nat) : (s.addPoison a).die n = s.die n := by unfold addPoison; split <;> rfl
@[simp] theorem addPoison_grid_of (s : State) (a : Nat) (n : Nat) : (s.addPoison a).grid? n = s.grid? n := by unfold addPoison; split <;> rfl
@[simp] theorem addPoison_byte (s : State) (a : Nat) (n : Nat) : (s.addPoison a).byte n = s.byte n := by unfold addPoison; split <;> rfl
@[simp] theorem addPoison_bytes (s : State) (a : Nat) (n m : Nat) : (s.addPoison a).bytes n m = s.bytes n m := by unfold addPoison; split <;> rfl
@[simp] theorem setGroup_team_of (s : State) (g : Group) (v : Nat) : (s.setGroup g).team? v = s.team? v := rfl
@[simp] theorem setGroup_core (s : State) (g : Group) (n : Nat) : (s.setGroup g).core n = s.core n := rfl
@[simp] theorem setGroup_die (s : State) (g : Group) (n : Nat) : (s.setGroup g).die n = s.die n := rfl
@[simp] theorem setGroup_grid_of (s : State) (g : Group) (n : Nat) : (s.setGroup g).grid? n = s.grid? n := rfl
@[simp] theorem setGroup_byte (s : State) (g : Group) (n : Nat) : (s.setGroup g).byte n = s.byte n := rfl
@[simp] theorem setGroup_bytes (s : State) (g : Group) (n m : Nat) : (s.setGroup g).bytes n m = s.bytes n m := rfl
@[simp] theorem modGroup_team_of (s : State) (k : GKey) (f : Group → Group) (v : Nat) : (s.modGroup k f).team? v = s.team? v := by unfold modGroup; split <;> rfl
@[simp] theorem modGroup_core (s : State) (k : GKey) (f : Group → Group) (n : Nat) : (s.modGroup k f).core n = s.core n := by unfold modGroup; split <;> rfl
@[simp] theorem modGroup_die (s : State) (k : GKey) (f : Group → Group) (n : Nat) : (s.modGroup k f).die n = s.die n := by unfold modGroup; split <;> rfl
@[simp] theorem modGroup_grid_of (s : State) (k : GKey) (f : Group → Group) (n : Nat) : (s.modGroup k f).grid? n = s.grid? n := by unfold modGroup; split <;> rfl
@[simp] theorem modGroup_byte (s : State) (k : GKey) (f : Group → Group) (n : Nat) : (s.modGroup k f).byte n = s.byte n := by unfold modGroup; split <;> rfl
@[simp] theorem modGroup_bytes (s : State) (k : GKey) (f : Group → Group) (n m : Nat) : (s.modGroup k f).bytes n m = s.bytes n m := by unfold modGroup; split <;> rfl
@[simp] theorem setTeam_group_of (s : State) (t : Team) (j : GKey) : (s.setTeam t).group? j = s.group? j := rfl
@[simp] theorem setTeam_core (s : State) (t : Team) (n : Nat) : (s.setTeam t).core n = s.core n := rfl
@[simp] theorem setTeam_die (s : State) (t : Team) (n : Nat) : (s.setTeam t).die n = s.die n := rfl
@[simp] theorem setTeam_grid_of (s : State) (t : Team) (n : Nat) : (s.setTeam t).grid? n = s.grid? n := rfl
@[simp] theorem setTeam_byte (s : State) (t : Team) (n : Nat) : (s.setTeam t).byte n = s.byte n := rfl
@[simp] theorem setTeam_bytes (s : State) (t : Team) (n m : Nat) : (s.setTeam t).bytes n m = s.bytes n m := rfl
@[simp] theorem modTeam_group_of (s : State) (u : Nat) (f : Team → Team) (j : GKey) : (s.modTeam u f).group? j = s.group? j := by unfold modTeam; split <;> rfl
@[simp] theorem modTeam_core (s : State) (u : Nat) (f : Team → Team) (n : Nat) : (s.modTeam u f).core n = s.core n := by unfold modTeam; split <;> rfl
@[simp] theorem modTeam_die (s : State) (u : Nat) (f : Team → Team) (n : Nat) : (s.modTeam u f).die n = s.die n := by unfold modTeam; split <;> rfl
@[simp] theorem modTeam_grid_of (s : State) (u : Nat) (f : Team → Team) (n : Nat) : (s.modTeam u f).grid? n = s.grid? n := by unfold modTeam; split <;> rfl
@[simp] theorem modTeam_byte (s : State) (u : Nat) (f : Team → Team) (n : Nat) : (s.modTeam u f).byte n = s.byte n := by unfold modTeam; split <;> rfl
@[simp] theorem modTeam_bytes (s : State) (u : Nat) (f : Team → Team) (n m : Nat) : (s.modTeam u f).bytes n m = s.bytes n m := by unfold modTeam; split <;> rfl
@[simp] theorem setCore_group_of (s : State) (c : Nat) (x : Core) (j : GKey) : (s.setCore c x).group? j = s.group? j := rfl
@[simp] theorem setCore_team_of (s : State) (c : Nat) (x : Core) (v : Nat) : (s.setCore c x).team? v = s.team? v := rfl
@[simp] theorem setCore_die (s : State) (c : Nat) (x : Core) (n : Nat) : (s.setCore c x).die n = s.die n := rfl
@[simp] theorem setCore_grid_of (s : State) (c : Nat) (x : Core) (n : Nat) : (s.setCore c x).grid? n = s.grid? n := rfl
@[simp] theorem setCore_byte (s : State) (c : Nat) (x : Core) (n : Nat) : (s.setCore c x).byte n = s.byte n := rfl
@[simp] theorem setCore_bytes (s : State) (c : Nat) (x : Core) (n m : Nat) : (s.setCore c x).bytes n m = s.bytes n m := rfl
@[simp] theorem modCore_group_of (s : State) (c : Nat) (f : Core → Core) (j : GKey) : (s.modCore c f).group? j = s.group? j := rfl
@[simp] theorem modCore_team_of (s : State) (c : Nat) (f : Core → Core) (v : Nat) : (s.modCore c f).team? v = s.team? v := rfl
@[simp] theorem modCore_die (s : State) (c : Nat) (f : Core → Core) (n : Nat) : (s.modCore c f).die n = s.die n := rfl
@[simp] theorem modCore_grid_of (s : State) (c : Nat) (f : Core → Core) (n : Nat) : (s.modCore c f).grid? n = s.grid? n := rfl
@[simp] theorem modCore_byte (s : State) (c : Nat) (f : Core → Core) (n : Nat) : (s.modCore c f).byte n = s.byte n := rfl
@[simp] theorem modCore_bytes (s : State) (c : Nat) (f : Core → Core) (n m : Nat) : (s.modCore c f).bytes n m = s.bytes n m := rfl
@[simp] theorem setDie_group_of (s : State) (d : Nat) (x : Die) (j : GKey) : (s.setDie d x).group? j = s.group? j := rfl
@[simp] theorem setDie_team_of (s : State) (d : Nat) (x : Die) (v : Nat) : (s.setDie d x).team? v = s.team? v := rfl
@[simp] theorem setDie_core (s : State) (d : Nat) (x : Die) (n : Nat) : (s.setDie d x).core n = s.core n := rfl
@[simp] theorem setDie_grid_of (s : State) (d : Nat) (x : Die) (n : Nat) : (s.setDie d x).grid? n = s.grid? n := rfl
@[simp] theorem setDie_byte (s : State) (d : Nat) (x : Die) (n : Nat) : (s.setDie d x).byte n = s.byte n := rfl
@[simp] theorem setDie_bytes (s : State) (d : Nat) (x : Die) (n m : Nat) : (s.setDie d x).bytes n m = s.bytes n m := rfl
@[simp] theorem modDie_group_of (s : State) (d : Nat) (f : Die → Die) (j : GKey) : (s.modDie d f).group? j = s.group? j := rfl
@[simp] theorem modDie_team_of (s : State) (d : Nat) (f : Die → Die) (v : Nat) : (s.modDie d f).team? v = s.team? v := rfl
@[simp] theorem modDie_core (s : State) (d : Nat) (f : Die → Die) (n : Nat) : (s.modDie d f).core n = s.core n := rfl
@[simp] theorem modDie_grid_of (s : State) (d : Nat) (f : Die → Die) (n : Nat) : (s.modDie d f).grid? n = s.grid? n := rfl
@[simp] theorem modDie_byte (s : State) (d : Nat) (f : Die → Die) (n : Nat) : (s.modDie d f).byte n = s.byte n := rfl
@[simp] theorem modDie_bytes (s : State) (d : Nat) (f : Die → Die) (n m : Nat) : (s.modDie d f).bytes n m = s.bytes n m := rfl
@[simp] theorem setGrid_group_of (s : State) (g : Grid) (j : GKey) : (s.setGrid g).group? j = s.group? j := rfl
@[simp] theorem setGrid_team_of (s : State) (g : Grid) (v : Nat) : (s.setGrid g).team? v = s.team? v := rfl
@[simp] theorem setGrid_core (s : State) (g : Grid) (n : Nat) : (s.setGrid g).core n = s.core n := rfl
@[simp] theorem setGrid_die (s : State) (g : Grid) (n : Nat) : (s.setGrid g).die n = s.die n := rfl
@[simp] theorem setGrid_byte (s : State) (g : Grid) (n : Nat) : (s.setGrid g).byte n = s.byte n := rfl
@[simp] theorem setGrid_bytes (s : State) (g : Grid) (n m : Nat) : (s.setGrid g).bytes n m = s.bytes n m := rfl
@[simp] theorem modGrid_group_of (s : State) (c : Nat) (f : Grid → Grid) (j : GKey) : (s.modGrid c f).group? j = s.group? j := by unfold modGrid; split <;> rfl
@[simp] theorem modGrid_team_of (s : State) (c : Nat) (f : Grid → Grid) (v : Nat) : (s.modGrid c f).team? v = s.team? v := by unfold modGrid; split <;> rfl
@[simp] theorem modGrid_core (s : State) (c : Nat) (f : Grid → Grid) (n : Nat) : (s.modGrid c f).core n = s.core n := by unfold modGrid; split <;> rfl
@[simp] theorem modGrid_die (s : State) (c : Nat) (f : Grid → Grid) (n : Nat) : (s.modGrid c f).die n = s.die n := by unfold modGrid; split <;> rfl
@[simp] theorem modGrid_byte (s : State) (c : Nat) (f : Grid → Grid) (n : Nat) : (s.modGrid c f).byte n = s.byte n := by unfold modGrid; split <;> rfl
@[simp] theorem modGrid_bytes (s : State) (c : Nat) (f : Grid → Grid) (n m : Nat) : (s.modGrid c f).bytes n m = s.bytes n m := by unfold modGrid; split <;> rfl

/-! ### Lookups after the update they look at -/

theorem setGroup_groups (s : State) (g : Group) :
    (s.setGroup g).groups = s.groups.map fun h => if h.key == g.key then g else h := rfl

/-- The group found has the name it was looked for by. -/
theorem group?_key {s : State} {k : GKey} {g : Group} (h : s.group? k = some g) : g.key = k := by
  have := List.find?_some h
  simpa using this

/-- The group put is the one found under its name. -/
theorem setGroup_same {s : State} {g h : Group} (e : s.group? g.key = some h) : (s.setGroup g).group? g.key = some g := by
  simp only [group?, setGroup] at *
  generalize s.groups = l at *
  induction l with
  | nil => simp at e
  | cons x l ih =>
    by_cases hx : x.key = g.key
    · simp [hx]
    · simp only [List.find?_cons, List.map_cons, beq_iff_eq, hx, if_false] at e ⊢
      simp only [show (x.key == g.key) = false from by simp [hx]] at e ⊢
      simpa using ih e

/-- Groups of other names are found as before. -/
theorem setGroup_other {s : State} {g : Group} {k : GKey} (hk : k ≠ g.key) : (s.setGroup g).group? k = s.group? k := by
  simp only [group?, setGroup]
  generalize s.groups = l
  induction l with
  | nil => rfl
  | cons x l ih =>
    by_cases hx : x.key = g.key
    · have h1 : (g.key == k) = false := by simp [Ne.symm hk]
      simp only [List.map_cons, List.find?_cons, hx, beq_self_eq_true, if_true, h1]
      exact ih
    · have h3 : (x.key == g.key) = false := by simp [hx]
      simp only [List.map_cons, List.find?_cons, h3]
      cases hk2 : (x.key == k)
      · simpa [hk2] using ih
      · simp [hk2]

/-- Changing a group that is there is putting what it becomes. -/
theorem modGroup_eq {s : State} {k : GKey} {g : Group} (f : Group → Group) (h : s.group? k = some g) :
    s.modGroup k f = s.setGroup (f g) := by
  simp [modGroup, h]

/-- A second put under the same name replaces the first. -/
theorem setGroup_setGroup {s : State} {g h : Group} (e : h.key = g.key) : (s.setGroup h).setGroup g = s.setGroup g := by
  simp only [setGroup, List.map_map, e]
  congr 1
  apply List.map_congr_left
  intro x _
  simp only [Function.comp_apply]
  split <;> simp_all

@[simp] theorem setCore_length (s : State) (c : Nat) (x : Core) : (s.setCore c x).cores.length = s.cores.length := by
  simp [setCore]

@[simp] theorem modCore_length (s : State) (c : Nat) (f : Core → Core) : (s.modCore c f).cores.length = s.cores.length := by
  simp [modCore]

@[simp] theorem setDie_length (s : State) (d : Nat) (x : Die) : (s.setDie d x).dies.length = s.dies.length := by
  simp [setDie]

@[simp] theorem modDie_length (s : State) (d : Nat) (f : Die → Die) : (s.modDie d f).dies.length = s.dies.length := by
  simp [modDie]

theorem core_setCore_same {s : State} {c : Nat} {x : Core} (h : c < s.cores.length) : (s.setCore c x).core c = x := by
  simp [core, setCore, List.getD_eq_getElem?_getD, h]

theorem core_setCore_other {s : State} {c d : Nat} {x : Core} (h : c ≠ d) : (s.setCore c x).core d = s.core d := by
  simp [core, setCore, List.getD_eq_getElem?_getD, List.getElem?_set_ne h]

theorem core_modCore_same {s : State} {c : Nat} {f : Core → Core} (h : c < s.cores.length) :
    (s.modCore c f).core c = f (s.core c) := core_setCore_same h

theorem core_modCore_other {s : State} {c d : Nat} {f : Core → Core} (h : c ≠ d) : (s.modCore c f).core d = s.core d :=
  core_setCore_other h

theorem die_setDie_same {s : State} {d : Nat} {x : Die} (h : d < s.dies.length) : (s.setDie d x).die d = x := by
  simp [die, setDie, List.getD_eq_getElem?_getD, h]

theorem die_setDie_other {s : State} {d e : Nat} {x : Die} (h : d ≠ e) : (s.setDie d x).die e = s.die e := by
  simp [die, setDie, List.getD_eq_getElem?_getD, List.getElem?_set_ne h]

theorem die_modDie_same {s : State} {d : Nat} {f : Die → Die} (h : d < s.dies.length) : (s.modDie d f).die d = f (s.die d) :=
  die_setDie_same h

theorem die_modDie_other {s : State} {d e : Nat} {f : Die → Die} (h : d ≠ e) : (s.modDie d f).die e = s.die e :=
  die_setDie_other h

end Sys2Proof.Machine.State
end

