-- ==== Sys2Proof/Laws/Issue.lean ====
section
/-! SUPPORT. The issue of a word: what a ready word does, and what follows from it when nothing of its group joins or ends. -/

namespace Sys2Proof.Machine

open Sys2Proof

/-- Everything the issue of a word can do: it does nothing while the group is held, it issues, or there is no word to issue. -/
theorem issue_cases (i : Instr) (s : State) (m : Ins → Act) :
    (∃ g iss, s.cur = some (.group g.key) ∧ s.group? g.key = some g ∧ g.cur = some iss ∧
      issue i s m = .next (if g.halted || g.pend.any (·.hold) then s else issueAt s g iss i m)) ∨
    issue i s m = .fault .noIssuer := by
  unfold issue
  split
  · rename_i k hk
    split
    · rename_i g hg
      split
      · rename_i iss hi
        have := State.group?_key hg; subst this
        exact .inl ⟨g, iss, hk, hg, hi, rfl⟩
      · exact .inr rfl
    · exact .inr rfl
  · exact .inr rfl

/-- A ready word does what its meaning says. -/
theorem issue_ready {s : State} {g : Group} {iss : Issue} {i : Instr} (m : Ins → Act) (h : Ready s g iss i) :
    issue i s m = .next (match m (mkIns s g iss i) with
      | .hold p => s.setGroup { g with cur := some { iss with prog := p }, it := { g.it with csn := (mkIns s g iss i).g.it.csn } }
      | .park f p =>
        f (s.setGroup { g with cur := some { iss with prog := p }, it := { g.it with csn := (mkIns s g iss i).g.it.csn } })
      | .act s1 fl jumps after => finish (mkIns s g iss i) s1 (fl ||| poisonFlag g (mkIns s g iss i)) jumps after) := by
  have hf := h.formed
  simp only [issue, h.acts, h.here, h.word, h.moves, h.free, issueAt, hf, h.sound, Bool.not_true, Bool.or_self,
    Bool.false_eq_true, if_false] <;> rfl

/-- A ready word whose meaning acts issues with that effect. -/
theorem issue_act {s : State} {g : Group} {iss : Issue} {i : Instr} {m : Ins → Act} {t : State} {fl : Fl}
    {jumps : List (Mask × Pos)} {after : State → State} (h : Ready s g iss i)
    (hm : m (mkIns s g iss i) = .act t fl jumps after) : issue i s m = issues s g iss i t fl jumps after := by
  rw [issue_ready m h, hm]; rfl

/-- A word that is not well formed performs ILLEGAL and does nothing else. -/
theorem issue_illegal {s : State} {g : Group} {iss : Issue} {i : Instr} (m : Ins → Act) (ha : s.cur = some (.group g.key))
    (hg : s.group? g.key = some g) (hi : g.cur = some iss) (hh : g.halted = false) (hp : g.pend.any (·.hold) = false)
    (hw : i.wf = false) : issue i s m = .next (illegalWord s g iss) := by
  simp [issue, ha, hg, hi, hh, hp, issueAt, hw]

/-- A well-formed word with a register fault performs it and does nothing else. -/
theorem issue_faulty {s : State} {g : Group} {iss : Issue} {i : Instr} {p : Perf} (m : Ins → Act)
    (ha : s.cur = some (.group g.key)) (hg : s.group? g.key = some g) (hi : g.cur = some iss) (hh : g.halted = false)
    (hp : g.pend.any (·.hold) = false) (hw : i.wf = true) (hf : registerFault g (mkIns s g iss i) = some p) :
    issue i s m = .next (finish (mkIns s g iss i) ((mkIns s g iss i).s.modGroup (mkIns s g iss i).k fun h =>
        if (firstOut g i.shape).isSome || alignFault i then { h with it := { h.it with csn := g.it.csn } } else h)
      (poisonFlag g (mkIns s g iss i)) [] fun s' => perform s' (mkIns s g iss i).k g.loop [p]) := by
  simp only [issue, ha, hg, hi, hh, hp, issueAt, hw, hf, Bool.not_true, Bool.or_self, Bool.false_eq_true, if_false]

/-! ### What a word works on -/

@[simp] theorem mkIns_k (s : State) (g : Group) (iss : Issue) (i : Instr) : (mkIns s g iss i).k = (mkIns s g iss i).g.key := rfl

theorem land_key (g : Group) (l : Land) : (g.land l).key = g.key := by
  cases l <;> rfl

theorem earlyView_key (g : Group) (n : Nat) : (g.earlyView n).key = g.key := by
  unfold Group.earlyView
  generalize g.pend = ps
  induction ps generalizing g with
  | nil => rfl
  | cons p ps ih =>
    simp only [List.foldl_cons]
    rw [ih]
    generalize p.lands = ls
    induction ls generalizing g with
    | nil => rfl
    | cons l ls ih2 =>
      simp only [List.foldl_cons]
      rw [ih2]
      split <;> first | exact land_key _ _ | rfl

/-- The group that a word reads has the issuing group's name. -/
@[simp] theorem mkIns_key (s : State) (g : Group) (iss : Issue) (i : Instr) : (mkIns s g iss i).g.key = g.key :=
  earlyView_key g s.tick

/-! ### The end of a word -/

/-- The state after the last word's effect, with its lanes placed and its flags merged. -/
theorem finish_group {x : Ins} {s : State} {g : Group} (h : s.group? x.k = some g) (jumps : List (Mask × Pos)) (fl : Fl) :
    s.modGroup x.k (fun g => finishGroup x jumps (g.merge fl)) = s.setGroup (finishGroup x jumps (g.merge fl)) :=
  State.modGroup_eq _ h

/-- A fold whose steps change nothing changes nothing. -/
theorem foldl_fix {α β : Type} {f : α → β → α} {a : α} {l : List β} (h : ∀ b ∈ l, f a b = a) : l.foldl f a = a := by
  induction l with
  | nil => rfl
  | cons b l ih =>
    rw [List.foldl_cons, h b (List.mem_cons_self ..)]
    exact ih fun c hc => h c (List.mem_cons_of_mem b hc)

/-- Leaving a loop changes nothing else of a steady group. -/
theorem steady_leaveLoop {g : Group} (hs : Steady g) : Steady g.leaveLoop :=
  ⟨hs.left, hs.busy, hs.called, hs.popped, hs.arrived, hs.alive⟩

/-- Nothing follows from the lanes of a steady group but the end of a loop that no lane is left in. -/
theorem settle_steady {s : State} {g : Group} (h : s.group? g.key = some g) (hs : Steady g) :
    settle (s.setGroup g) g.key = s.setGroup g.leaveLoop := by
  have hg0 : (s.setGroup g).group? g.key = some g := State.setGroup_same h
  have h0 : (s.setGroup g).modGroup g.key Group.leaveLoop = s.setGroup g.leaveLoop := by
    rw [State.modGroup_eq _ hg0]; exact State.setGroup_setGroup rfl
  have hd : g.dropExited = g := by
    have : g.ctxs.map (fun (c : Ctx) => { c with left := c.left &&& g.present }) = g.ctxs := by
      refine (List.map_congr_left fun c hc => ?_).trans (List.map_id g.ctxs)
      have := hs.left c hc
      simp only [id_eq, this]
    simp only [Group.dropExited, this]
  have h1 : endEmpty (s.setGroup g) g.key = s.setGroup g := by
    have hm : (s.setGroup g).modGroup g.key Group.dropExited = s.setGroup g := by
      rw [State.modGroup_eq _ hg0, hd, State.setGroup_setGroup rfl]
    have hr : (g.running.filter fun c => c.left == 0#128) = [] := by
      rw [List.filter_eq_nil_iff]
      intro c hc
      simp only [Group.running, List.mem_filter, Bool.not_eq_true'] at hc
      simpa using hs.busy c hc.1 hc.2
    simp [endEmpty, hm, hg0, hr]
  clear hg0 hd
  have hk : g.key = g.leaveLoop.key := rfl
  replace hs := steady_leaveLoop hs
  rw [settle, h1]
  rw [h0, hk]
  clear h0 h1
  have hg : (s.setGroup g.leaveLoop).group? g.leaveLoop.key = some g.leaveLoop := State.setGroup_same h
  clear hk h
  generalize g.leaveLoop = g at hs hg ⊢
  have h2 : ∀ n, joinReturns (s.setGroup g) g.key n = s.setGroup g := by
    intro n; cases n with
    | zero => rfl
    | succ n => simp [joinReturns, hg, hs.called]
  have h3 : joinPops (s.setGroup g) g.key = s.setGroup g := by
    simp [joinPops, hg, hs.popped]
  have h4 : joinArrivals (s.setGroup g) g.key = s.setGroup g := by
    unfold joinArrivals
    refine foldl_fix fun n hn => ?_
    rw [hg]
    simp only [hs.arrived n (List.mem_range.1 hn), Bool.false_eq_true, if_false]
  have h5 : joinParts (s.setGroup g) g.key = s.setGroup g := by
    simp [joinParts, hg, hs.alive]
  have h6 : tryRetire (s.setGroup g) g.key = s.setGroup g := by
    simp [tryRetire, hg, hs.alive]
  simp only [h2, h3, h4, h5, h6]

/-- A word whose group stays steady, with no enabled condition raised, leaves the state with its effect and its group moved
on, out of a loop that no lane is left in. -/
theorem finish_steady {x : Ins} {s : State} {g : Group} {fl : Fl} {jumps : List (Mask × Pos)} (h : s.group? x.k = some g)
    (ht : g.trapBits fl = 0#5) (hk : (finishGroup x jumps (g.merge fl)).key = x.k)
    (hs : Steady (finishGroup x jumps (g.merge fl))) :
    finish x s fl jumps id = s.setGroup (finishGroup x jumps (g.merge fl)).leaveLoop := by
  have hg := State.group?_key h
  unfold finish
  simp only [h, Option.map_some, Option.getD_some, ht, if_true, id_eq, finish_group h]
  have h1 : s.setGroup (finishGroup x jumps (g.merge fl)) =
      (s.setGroup (finishGroup x jumps (g.merge fl))).setGroup (finishGroup x jumps (g.merge fl)) :=
    (State.setGroup_setGroup rfl).symm
  have h2 : (s.setGroup (finishGroup x jumps (g.merge fl))).group? (finishGroup x jumps (g.merge fl)).key =
      some (finishGroup x jumps (g.merge fl)) := State.setGroup_same (by rw [hk]; exact h)
  have h3 := settle_steady h2 hs
  rw [hk] at h3
  rw [h1, h3]
  exact State.setGroup_setGroup rfl

end Sys2Proof.Machine
end

