-- ==== Sys2Proof/Laws/Group.lean ====
section
/-! SUPPORT. The updates of a group: what each leaves alone, and that none of them disturbs a steady group. -/

namespace Sys2Proof.Machine

open Sys2Proof

/-! ### Lanes -/

theorem lane_mapIdx (g : Group) (f : Nat → Lane → Lane) (hf : ∀ t l, (f t l).st = l.st ∧ (f t l).depth = l.depth) (t : Nat) :
    (({ g with lanes := g.lanes.mapIdx f } : Group).lane t).st = (g.lane t).st ∧
      (({ g with lanes := g.lanes.mapIdx f } : Group).lane t).depth = (g.lane t).depth := by
  simp only [Group.lane, List.getD_eq_getElem?_getD, List.getElem?_mapIdx]
  cases g.lanes[t]? with
  | none => exact ⟨rfl, rfl⟩
  | some l => exact hf t l

/-- Two groups agree on all that joins and ends look at. -/
structure Alike (g h : Group) : Prop where
  ctxs   : h.ctxs = g.ctxs
  width  : h.wcode = g.wcode
  callHt : h.it.callHt = g.it.callHt
  frames : h.it.frames = g.it.frames
  st     : ∀ t, (h.lane t).st = (g.lane t).st
  depth  : ∀ t, (h.lane t).depth = (g.lane t).depth

namespace Alike

theorem refl (g : Group) : Alike g g := ⟨rfl, rfl, rfl, rfl, fun _ => rfl, fun _ => rfl⟩

theorem trans {g h k : Group} (a : Alike g h) (b : Alike h k) : Alike g k :=
  ⟨b.ctxs.trans a.ctxs, b.width.trans a.width, b.callHt.trans a.callHt, b.frames.trans a.frames,
    fun t => (b.st t).trans (a.st t), fun t => (b.depth t).trans (a.depth t)⟩

theorem present {g h : Group} (a : Alike g h) : h.present = g.present := by
  simp only [Group.present, Group.width, a.width, a.st]

theorem allExited {g h : Group} (a : Alike g h) : h.allExited = g.allExited := by
  simp only [Group.allExited, a.present]

theorem returned {g h : Group} (a : Alike g h) : h.returned = g.returned := by
  simp only [Group.returned, Group.atHeight, Group.width, a.width, a.st, a.depth, a.callHt]

theorem popReady {g h : Group} (a : Alike g h) : h.popReady = g.popReady := by
  simp only [Group.popReady, a.frames, a.present, Group.width, a.width, a.st]

theorem hasArrived {g h : Group} (a : Alike g h) (n : Nat) :
    Sys2Proof.Machine.hasArrived h n = Sys2Proof.Machine.hasArrived g n := by
  simp only [Sys2Proof.Machine.hasArrived, arriving, a.present, Group.width, a.width, a.st]

/-- What agrees with a steady group is steady. -/
theorem steady {g h : Group} (a : Alike g h) (s : Steady g) : Steady h where
  left := by rw [a.ctxs, a.present]; exact s.left
  busy := by rw [a.ctxs]; exact s.busy
  called := a.returned.trans s.called
  popped := a.popReady.trans s.popped
  arrived := fun n hn => (a.hasArrived n).trans (s.arrived n hn)
  alive := a.allExited.trans s.alive

theorem merge (g : Group) (fl : BitVec 7) : Alike g (g.merge fl) := ⟨rfl, rfl, rfl, rfl, fun _ => rfl, fun _ => rfl⟩

theorem setVreg (g : Group) (p : Nat) (r : VReg) : Alike g (g.setVreg p r) := ⟨rfl, rfl, rfl, rfl, fun _ => rfl, fun _ => rfl⟩

theorem setSreg (g : Group) (n : Nat) (v : Word) : Alike g (g.setSreg n v) := ⟨rfl, rfl, rfl, rfl, fun _ => rfl, fun _ => rfl⟩

theorem setPred (g : Group) (p : Nat) (b m : Mask) : Alike g (g.setPred p b m) := by
  unfold Group.setPred; split <;> exact ⟨rfl, rfl, rfl, rfl, fun _ => rfl, fun _ => rfl⟩

theorem writeVec (g : Group) (k p : Nat) (m : LaneMap) (t : Mask) (f : Nat → Word) : Alike g (g.writeVec k p m t f) := by
  unfold Group.writeVec; split
  · exact refl g
  · exact setVreg ..

theorem clearLive (ps : List Nat) : ∀ g : Group, Alike g (clearLive g ps) := by
  induction ps with
  | nil => exact refl
  | cons p ps ih => exact fun g => (setVreg g p _).trans (ih _)

theorem csn (g : Group) (n : Word) : Alike g { g with it := { g.it with csn := n } } :=
  ⟨rfl, rfl, rfl, rfl, fun _ => rfl, fun _ => rfl⟩

theorem place (g : Group) (m : Mask) (p : Pos) : Alike g (g.place m p) := by
  have := lane_mapIdx g (fun t (l : Lane) => if has m t then { l with pos := p } else l) fun t l => by split <;> exact ⟨rfl, rfl⟩
  exact ⟨rfl, rfl, rfl, rfl, fun t => (this t).1, fun t => (this t).2⟩

theorem aged (g : Group) (o a : Mask) : Alike g (g.aged o a) := by
  have := lane_mapIdx g (fun t (l : Lane) => if has a t then { l with age := 0 } else if has o t then { l with age := l.age + 1 } else l)
    fun t l => by split <;> (try split) <;> exact ⟨rfl, rfl⟩
  exact ⟨rfl, rfl, rfl, rfl, fun t => (this t).1, fun t => (this t).2⟩

theorem places (js : List (Mask × Pos)) : ∀ g : Group, Alike g (js.foldl (fun g j => g.place j.1 j.2) g) := by
  induction js with
  | nil => exact refl
  | cons j js ih => exact fun g => (place g _ _).trans (ih _)

/-- Moving on from a word changes nothing that joins and ends look at. -/
theorem finishGroup (x : Ins) (js : List (Mask × Pos)) (g : Group) : Alike g (finishGroup x js g) := by
  have h : ∀ l n c y, Alike g { (js.foldl (fun g j => g.place j.1 j.2)
      (({ (g.aged l x.act) with loop := n, issued := g.issued + 1 } : Group).place c y)) with cur := none } := by
    intro l n c y
    have a1 : Alike g ({ (g.aged l x.act) with loop := n, issued := g.issued + 1 } : Group) :=
      (aged g l x.act).trans ⟨rfl, rfl, rfl, rfl, fun _ => rfl, fun _ => rfl⟩
    exact ((a1.trans (place _ c y)).trans (places js _)).trans ⟨rfl, rfl, rfl, rfl, fun _ => rfl, fun _ => rfl⟩
  unfold Sys2Proof.Machine.finishGroup
  dsimp only
  split
  · exact (h _ _ _ _).trans ⟨rfl, rfl, rfl, rfl, fun _ => rfl, fun _ => rfl⟩
  · split <;> exact (h _ _ _ _).trans ⟨rfl, rfl, rfl, rfl, fun _ => rfl, fun _ => rfl⟩

theorem leaveLoop (g : Group) : Alike g g.leaveLoop := ⟨rfl, rfl, rfl, rfl, fun _ => rfl, fun _ => rfl⟩

end Alike

/-! ### What moving on leaves alone -/

theorem foldl_place_keeps {α : Type} (f : Group → α) (hf : ∀ g ls, f { g with lanes := ls } = f g) (js : List (Mask × Pos)) :
    ∀ g : Group, f (js.foldl (fun g j => g.place j.1 j.2) g) = f g := by
  induction js with
  | nil => exact fun _ => rfl
  | cons j js ih => exact fun g => (ih _).trans (hf g _)

/-- Any reading of a group that does not look at lanes, loop, issue count, current word or preference is left alone. -/
theorem finishGroup_keeps {α : Type} (f : Group → α)
    (hf : ∀ g ls lo cu y n, f { g with lanes := ls, loop := lo, cur := cu, yielded := y, issued := n } = f g)
    (x : Ins) (js : List (Mask × Pos)) (g : Group) : f (finishGroup x js g) = f g := by
  have h1 : ∀ (g : Group) ls, f { g with lanes := ls } = f g := fun g ls => hf g ls g.loop g.cur g.yielded g.issued
  have h2 : ∀ (g : Group) cu y, f { g with cur := cu, yielded := y } = f g := fun g cu y => hf g g.lanes g.loop cu y g.issued
  unfold finishGroup
  dsimp only
  split
  · rw [h2, foldl_place_keeps f h1]
    exact (h1 _ _).trans (hf g _ _ g.cur g.yielded _)
  · split
    · rw [h2, foldl_place_keeps f h1]
      exact (h1 _ _).trans (hf g _ _ g.cur g.yielded _)
    · rw [h2, foldl_place_keeps f h1]
      exact (h1 _ _).trans (hf g _ _ g.cur g.yielded _)

@[simp] theorem finishGroup_key (x : Ins) (js : List (Mask × Pos)) (g : Group) : (finishGroup x js g).key = g.key :=
  finishGroup_keeps (·.key) (fun _ _ _ _ _ _ => rfl) x js g
@[simp] theorem finishGroup_regs (x : Ins) (js : List (Mask × Pos)) (g : Group) : (finishGroup x js g).regs = g.regs :=
  finishGroup_keeps (·.regs) (fun _ _ _ _ _ _ => rfl) x js g
@[simp] theorem finishGroup_preds (x : Ins) (js : List (Mask × Pos)) (g : Group) : (finishGroup x js g).preds = g.preds :=
  finishGroup_keeps (·.preds) (fun _ _ _ _ _ _ => rfl) x js g
@[simp] theorem finishGroup_it (x : Ins) (js : List (Mask × Pos)) (g : Group) : (finishGroup x js g).it = g.it :=
  finishGroup_keeps (·.it) (fun _ _ _ _ _ _ => rfl) x js g
@[simp] theorem finishGroup_pend (x : Ins) (js : List (Mask × Pos)) (g : Group) : (finishGroup x js g).pend = g.pend :=
  finishGroup_keeps (·.pend) (fun _ _ _ _ _ _ => rfl) x js g
@[simp] theorem finishGroup_queue (x : Ins) (js : List (Mask × Pos)) (g : Group) : (finishGroup x js g).queue = g.queue :=
  finishGroup_keeps (·.queue) (fun _ _ _ _ _ _ => rfl) x js g
@[simp] theorem finishGroup_late (x : Ins) (js : List (Mask × Pos)) (g : Group) : (finishGroup x js g).late = g.late :=
  finishGroup_keeps (·.late) (fun _ _ _ _ _ _ => rfl) x js g
@[simp] theorem finishGroup_ctxs (x : Ins) (js : List (Mask × Pos)) (g : Group) : (finishGroup x js g).ctxs = g.ctxs :=
  finishGroup_keeps (·.ctxs) (fun _ _ _ _ _ _ => rfl) x js g
@[simp] theorem finishGroup_team (x : Ins) (js : List (Mask × Pos)) (g : Group) : (finishGroup x js g).team = g.team :=
  finishGroup_keeps (·.team) (fun _ _ _ _ _ _ => rfl) x js g

@[simp] theorem leaveLoop_key (g : Group) : g.leaveLoop.key = g.key := rfl
@[simp] theorem leaveLoop_team (g : Group) : g.leaveLoop.team = g.team := rfl
@[simp] theorem leaveLoop_regs (g : Group) : g.leaveLoop.regs = g.regs := rfl
@[simp] theorem leaveLoop_preds (g : Group) : g.leaveLoop.preds = g.preds := rfl
@[simp] theorem leaveLoop_it (g : Group) : g.leaveLoop.it = g.it := rfl
@[simp] theorem leaveLoop_lanes (g : Group) : g.leaveLoop.lanes = g.lanes := rfl
@[simp] theorem leaveLoop_pend (g : Group) : g.leaveLoop.pend = g.pend := rfl
@[simp] theorem leaveLoop_queue (g : Group) : g.leaveLoop.queue = g.queue := rfl
@[simp] theorem leaveLoop_late (g : Group) : g.leaveLoop.late = g.late := rfl
@[simp] theorem leaveLoop_ctxs (g : Group) : g.leaveLoop.ctxs = g.ctxs := rfl

end Sys2Proof.Machine
end

