-- ==== Sys2Proof/Laws/Memory.lean ====
section
/-! SUPPORT. The laws of memory: every operation keeps the canonical form, a read after a write gives what was written, a
write leaves every other address alone. -/

namespace Sys2Proof.Machine

open Sys2Proof

theorem Memory.above_le {j k : Nat} {m : Memory} (h : m.above k = true) (hjk : j ≤ k) : m.above j = true := by
  cases m with
  | nil => rfl
  | cons p m =>
    obtain ⟨a, b⟩ := p
    simp only [Memory.above, Bool.and_eq_true, decide_eq_true_eq] at h ⊢
    exact ⟨⟨by omega, h.1.2⟩, h.2⟩

theorem Memory.set_above {m : Memory} : ∀ {k a : Nat} {v : Byte}, m.above k = true → k ≤ a → (m.set a v).above k = true := by
  induction m with
  | nil => intro k a v _ hk; simp only [Memory.set]; split <;> simp_all [Memory.above]
  | cons p m ih =>
    obtain ⟨c, b⟩ := p
    intro k a v h hk
    simp only [Memory.above, Bool.and_eq_true, decide_eq_true_eq, bne_iff_ne] at h
    obtain ⟨⟨hc, hb⟩, hm⟩ := h
    simp only [Memory.set]
    split
    · split
      · simp only [Memory.above, Bool.and_eq_true, decide_eq_true_eq, bne_iff_ne]
        exact ⟨⟨hc, hb⟩, hm⟩
      · rename_i hac hv
        simp only [Memory.above, Bool.and_eq_true, decide_eq_true_eq, bne_iff_ne]
        exact ⟨⟨hk, hv⟩, ⟨by omega, hb⟩, hm⟩
    · split
      · subst_vars
        split
        · exact Memory.above_le hm (by omega)
        · rename_i hv
          simp only [Memory.above, Bool.and_eq_true, decide_eq_true_eq, bne_iff_ne]
          exact ⟨⟨hk, hv⟩, hm⟩
      · simp only [Memory.above, Bool.and_eq_true, decide_eq_true_eq, bne_iff_ne]
        exact ⟨⟨hc, hb⟩, ih hm (by omega)⟩

theorem Memory.set_wf {m : Memory} {a : Nat} {v : Byte} (h : m.wf = true) : (m.set a v).wf = true :=
  Memory.set_above h (Nat.zero_le a)

theorem Memory.sets_wf {l : List (Nat × Byte)} : ∀ {m : Memory}, m.wf = true → (m.sets l).wf = true := by
  induction l with
  | nil => intro m h; exact h
  | cons c l ih => intro m h; exact ih (Memory.set_wf h)

theorem Memory.filter_above {m : Memory} (p : Nat × Byte → Bool) : ∀ {k : Nat}, m.above k = true →
    Memory.above k (m.filter p) = true := by
  induction m with
  | nil => intro k h; exact h
  | cons c m ih =>
    obtain ⟨a, b⟩ := c
    intro k h
    simp only [Memory.above, Bool.and_eq_true, decide_eq_true_eq, bne_iff_ne] at h
    obtain ⟨⟨hc, hb⟩, hm⟩ := h
    rw [List.filter_cons]
    split
    · simp only [Memory.above, Bool.and_eq_true, decide_eq_true_eq, bne_iff_ne]
      exact ⟨⟨hc, hb⟩, ih hm⟩
    · exact Memory.above_le (ih hm) (by omega)

theorem Memory.filter_wf {m : Memory} (p : Nat × Byte → Bool) (h : m.wf = true) : Memory.wf (m.filter p) = true :=
  Memory.filter_above p h

theorem Memory.get_below {m : Memory} : ∀ {k a : Nat}, m.above k = true → a < k → m.get a = 0 := by
  induction m with
  | nil => intros; rfl
  | cons p m ih =>
    obtain ⟨c, b⟩ := p
    intro k a h hk
    simp only [Memory.above, Bool.and_eq_true, decide_eq_true_eq] at h
    simp only [Memory.get]
    rw [if_neg (by omega)]
    exact ih h.2 (by omega)

/-- Reading the address written gives the byte written. -/
theorem Memory.get_set_same {m : Memory} : ∀ {k a : Nat} {v : Byte}, m.above k = true → (m.set a v).get a = v := by
  induction m with
  | nil => intro k a v _; simp only [Memory.set]; split <;> simp_all [Memory.get]
  | cons p m ih =>
    obtain ⟨c, b⟩ := p
    intro k a v h
    simp only [Memory.above, Bool.and_eq_true, decide_eq_true_eq] at h
    simp only [Memory.set]
    split
    · split
      · rename_i hac hv
        simp only [Memory.get]; rw [if_neg (by omega), Memory.get_below h.2 (by omega), hv]
      · simp [Memory.get]
    · split
      · subst_vars
        split
        · rename_i hv; rw [Memory.get_below h.2 (by omega), hv]
        · simp [Memory.get]
      · rename_i hne
        simp only [Memory.get]; rw [if_neg (by omega)]; exact ih h.2

/-- Every other address reads as before. -/
theorem Memory.get_set_other {m : Memory} : ∀ {a b : Nat} {v : Byte}, a ≠ b → (m.set a v).get b = m.get b := by
  induction m with
  | nil => intro a b v h; simp only [Memory.set]; split <;> simp [Memory.get, h]
  | cons p m ih =>
    obtain ⟨c, x⟩ := p
    intro a b v h
    simp only [Memory.set]
    split
    · split <;> simp [Memory.get, h]
    · split
      · subst_vars; split <;> simp [Memory.get, h]
      · simp only [Memory.get]; rw [ih h]

/-- Bytes stored elsewhere do not change what an address reads. -/
theorem Memory.get_sets_other {l : List (Nat × Byte)} {b : Nat} : ∀ {m : Memory}, (∀ c ∈ l, c.1 ≠ b) →
    (m.sets l).get b = m.get b := by
  induction l with
  | nil => intros; rfl
  | cons c l ih =>
    intro m h
    have h1 : (m.sets (c :: l)).get b = ((m.set c.1 c.2).sets l).get b := rfl
    rw [h1, ih fun x hx => h x (List.mem_cons_of_mem c hx), Memory.get_set_other (h c (List.mem_cons_self ..))]

theorem cellsAt_mem {a : Nat} {bs : List Byte} {c : Nat × Byte} (h : c ∈ cellsAt a bs) : a ≤ c.1 ∧ c.1 < a + bs.length := by
  simp only [cellsAt, List.mem_map] at h
  obtain ⟨p, hp, rfl⟩ := h
  have := List.mem_zipIdx hp
  simp_all

theorem cellsAt_cons (a : Nat) (b : Byte) (bs : List Byte) : cellsAt a (b :: bs) = (a, b) :: cellsAt (a + 1) bs := by
  simp only [cellsAt, List.zipIdx_cons, List.map_cons, Nat.add_zero, List.cons.injEq, true_and]
  rw [List.zipIdx_succ, List.map_map]
  apply List.map_congr_left
  intro p _
  simp only [Function.comp_apply, Prod.mk.injEq, and_true]; omega

/-- A byte of a stored run reads back. -/
theorem Memory.get_sets_cellsAt {bs : List Byte} : ∀ {m : Memory} {a i : Nat}, m.wf = true → (hi : i < bs.length) →
    (m.sets (cellsAt a bs)).get (a + i) = bs[i] := by
  induction bs with
  | nil => intro m a i _ hi; simp at hi
  | cons b bs ih =>
    intro m a i hm hi
    have h1 : m.sets (cellsAt a (b :: bs)) = (m.set a b).sets (cellsAt (a + 1) bs) := by
      rw [cellsAt_cons]; rfl
    rw [h1]
    cases i with
    | zero =>
      rw [Memory.get_sets_other fun c hc => ?_]
      · simpa using Memory.get_set_same hm
      · have := cellsAt_mem hc; omega
    | succ i =>
      have := ih (m := m.set a b) (a := a + 1) (i := i) (Memory.set_wf hm) (by simpa using hi)
      rw [show a + (i + 1) = a + 1 + i by omega, this]; simp

@[simp] theorem leBytes_length (n v : Nat) : (leBytes n v).length = n := by
  induction n generalizing v with
  | zero => rfl
  | succ n ih => simp [leBytes, ih]

/-- The bytes of a value give the value back. -/
theorem leNat_leBytes (n v : Nat) : leNat (leBytes n v) = v % 256 ^ n := by
  induction n generalizing v with
  | zero => simp [leBytes, leNat, Nat.mod_one]
  | succ n ih =>
    simp only [leBytes, leNat, ih]
    rw [Nat.pow_succ', Nat.mod_mul]
    rfl

namespace State

@[simp] theorem store_mem (s : State) (l : List (Nat × Byte)) : (s.store l).mem = s.mem.sets l := rfl

/-- Bytes stored elsewhere do not change what an address reads. -/
theorem byte_store_other {s : State} {l : List (Nat × Byte)} {b : Nat} (h : ∀ c ∈ l, c.1 ≠ b) :
    (s.store l).byte b = s.byte b := Memory.get_sets_other h

/-- The bytes of a stored run read back. -/
theorem bytes_store_same {s : State} {a : Nat} {bs : List Byte} (h : s.mem.wf = true) :
    (s.store (cellsAt a bs)).bytes a bs.length = bs := by
  apply List.ext_getElem
  · simp [bytes]
  · intro i h1 h2
    simp only [bytes, List.getElem_map, List.getElem_range, byte, store_mem]
    exact Memory.get_sets_cellsAt h h2

/-- A stored value reads back, cut to its size. -/
theorem load_store_same {s : State} {a n v : Nat} (h : s.mem.wf = true) : (s.store (valueAt a n v)).load a n = v % 256 ^ n := by
  have h1 := bytes_store_same (a := a) (bs := leBytes n v) h
  rw [leBytes_length] at h1
  simp only [load, valueAt, h1, leNat_leBytes]

theorem setTag_wf {s : State} {a : Nat} {t : BitVec 16} (h : s.mem.wf = true) : (s.setTag a t).mem.wf = true := by
  unfold setTag; split
  · exact h
  · exact Memory.sets_wf h

theorem setTags_wf {l : List (Nat × BitVec 16)} {s : State} (h : s.mem.wf = true) : (s.setTags l).mem.wf = true :=
  Memory.sets_wf h

end State

/-! A stretch read in one pass -/

theorem Memory.get_fromAddr {m : Memory} {k j : Nat} (h : k ≤ j) : (m.fromAddr k).get j = m.get j := by
  induction m with
  | nil => rfl
  | cons p m ih =>
    simp only [Memory.fromAddr]
    split
    · rw [ih, Memory.get, if_neg (by omega)]
    · rfl

theorem Memory.fromAddr_above {m : Memory} : ∀ {k0 k : Nat}, m.above k0 = true → (m.fromAddr k).above k = true := by
  induction m with
  | nil => intros; rfl
  | cons p m ih =>
    intro k0 k h
    simp only [Memory.above, Bool.and_eq_true, decide_eq_true_eq] at h
    simp only [Memory.fromAddr]
    split
    · exact ih h.2
    · simp only [Memory.above, Bool.and_eq_true, decide_eq_true_eq]
      exact ⟨⟨by omega, h.1.2⟩, h.2⟩

theorem Memory.pass_nil (n : Nat) : ∀ k, Memory.pass n k [] = List.replicate n 0 := by
  induction n with
  | zero => intro k; rfl
  | succ n ih => intro k; rw [Memory.pass, ih, List.replicate_succ]

theorem Memory.pass_eq (n : Nat) : ∀ {k : Nat} {m : Memory}, m.above k = true →
    Memory.pass n k m = (List.range n).map fun i => m.get (k + i) := by
  induction n with
  | zero => intros; rfl
  | succ n ih =>
    intro k m h
    rw [List.range_succ_eq_map, List.map_cons, List.map_map]
    cases m with
    | nil => simp [Memory.pass_nil, Memory.get, List.replicate_succ, Function.comp_def, List.map_const']
    | cons p m =>
      have hm := h
      simp only [Memory.above, Bool.and_eq_true, decide_eq_true_eq] at h
      simp only [Memory.pass]
      split
      · rename_i e
        rw [ih (e ▸ h.2), Memory.get, if_pos (by omega)]
        congr 1
        refine List.map_congr_left fun i _ => ?_
        simp only [Function.comp, Memory.get]
        rw [if_neg (by omega)]
        congr 1; omega
      · rename_i e
        rw [ih (m := p :: m) (Memory.above_le (j := k + 1) (by
          simp only [Memory.above, Bool.and_eq_true, decide_eq_true_eq]
          exact ⟨⟨Nat.le_refl _, h.1.2⟩, h.2⟩ : Memory.above p.1 (p :: m) = true) (by omega)),
          Memory.get, if_neg (by omega), Memory.get_below h.2 (by omega)]
        congr 1
        refine List.map_congr_left fun i _ => ?_
        simp only [Function.comp]
        congr 1; omega

/-- A stretch of a canonical memory is its bytes one by one. -/
theorem Memory.stretch_eq {m : Memory} (h : m.wf = true) (k n : Nat) :
    m.stretch k n = (List.range n).map fun i => m.get (k + i) :=
  (Memory.pass_eq n (Memory.fromAddr_above h)).trans
    (List.map_congr_left fun i _ => Memory.get_fromAddr (Nat.le_add_right k i))

/-- A view of a state with canonical memory loads what the state loads. -/
theorem view_load {s : State} (h : s.mem.wf = true) {a n b k : Nat} (h1 : a ≤ b) (h2 : b + k ≤ a + n) :
    (s.view a n).load b k = s.load b k := by
  unfold View.load State.load State.view State.bytes State.byte
  congr 1
  refine List.map_congr_left fun i hi => ?_
  have hi := List.mem_range.mp hi
  simp only [Memory.stretch_eq h, Array.getD_eq_getD_getElem?, List.getElem?_toArray, List.getElem?_map]
  rw [List.getElem?_range (by omega)]
  simp only [Option.map_some, Option.getD_some]
  congr 1; omega

end Sys2Proof.Machine
end

