-- ==== Sys2Proof/Laws/Invariant.lean ====
section
/-! SUPPORT. Every operation of the model keeps the invariant of Sys2Proof/Safety.lean: one lemma per operation, so that a
proof over all instructions never unfolds one. -/

namespace Sys2Proof.Machine

open Sys2Proof

/-! ### The invariant under an update of fields -/

theorem inv_iff {s : State} :
    Inv s ↔ InvOf s.mem s.cores.length s.dies.length s.queues.length s.ports s.plat.clockMHz := Iff.rfl

theorem inv_mk {m pa po lo gr te co di gd q lq re dist nq rn rs ti fa ro ports rq ou sg pl cr me ns ag cu tk ni} :
    Inv ⟨m, pa, po, lo, gr, te, co, di, gd, q, lq, re, dist, nq, rn, rs, ti, fa, ro, ports, rq, ou, sg, pl, cr, me, ns, ag, cu, tk, ni⟩ ↔
      InvOf m co.length di.length q.length ports pl.clockMHz := Iff.rfl

theorem inv_of {s : State} (h : Inv s) :
    InvOf s.mem s.cores.length s.dies.length s.queues.length s.ports s.plat.clockMHz := h

theorem invOf_sets {m : Memory} {l : List (Nat × Byte)} {c d q : Nat} {p : List Nat} {k : Nat}
    (h : InvOf m c d q p k) : InvOf (m.sets l) c d q p k := { h with mem := Memory.sets_wf h.mem }

theorem invOf_filter {m : Memory} {f : Nat × Byte → Bool} {c d q : Nat} {p : List Nat} {k : Nat}
    (h : InvOf m c d q p k) : InvOf (m.filter f) c d q p k := { h with mem := Memory.filter_wf f h.mem }

/-- A fold keeps what each of its steps keeps. -/
theorem inv_foldl {α : Type} {f : State → α → State} {l : List α} : ∀ {s : State}, Inv s →
    (∀ s a, Inv s → Inv (f s a)) → Inv (l.foldl f s) := by
  induction l with
  | nil => intro s h _; exact h
  | cons a l ih => intro s h hf; exact ih (hf s a h) hf

/-- A fold over a pair keeps what each of its steps keeps. -/
theorem inv_foldl_fst {α β : Type} {f : State × β → α → State × β} {l : List α} : ∀ {p : State × β}, Inv p.1 →
    (∀ p a, Inv p.1 → Inv (f p a).1) → Inv (l.foldl f p).1 := by
  induction l with
  | nil => intro p h _; exact h
  | cons a l ih => intro p h hf; exact ih (hf p a h) hf

/-- The state of a pair that a computation gives. -/
theorem inv_fst_of {β : Type} {p : State × β} {s : State} {b : β} (e : p = (s, b)) (h : Inv p.1) : Inv s := by
  subst e; exact h

/-! ### The operations -/

theorem inv_State_store {s : State} {l : List (Nat × Byte)} (h : Inv s) : Inv (s.store l) :=
  invOf_sets h

theorem inv_State_unpoison {s0 : State} {x1 : List Nat} (h0 : Inv s0) :
    Inv (State.unpoison s0 x1) := by
  unfold State.unpoison
  try dsimp only
  repeat' (with_reducible first | assumption | (simp only [inv_mk]; refine inv_of ?_) | intro _ | dsimp only | split)

theorem inv_State_addPoison {s0 : State} {x1 : Nat} (h0 : Inv s0) :
    Inv (State.addPoison s0 x1) := by
  unfold State.addPoison
  try dsimp only
  repeat' (with_reducible first | assumption | (simp only [inv_mk]; refine inv_of ?_) | intro _ | dsimp only | split)

theorem inv_State_setTag {s : State} {a : Nat} {t : BitVec 16} (h : Inv s) : Inv (s.setTag a t) := by
  unfold State.setTag; split
  · exact h
  · exact invOf_sets h

theorem inv_State_setTags {s : State} {l : List (Nat × BitVec 16)} (h : Inv s) : Inv (s.setTags l) :=
  invOf_sets h

theorem inv_State_setGroup {s0 : State} {x1 : Group} (h0 : Inv s0) :
    Inv (State.setGroup s0 x1) := by
  unfold State.setGroup
  try dsimp only
  repeat' (with_reducible first | assumption | (simp only [inv_mk]; refine inv_of ?_) | intro _ | dsimp only | split)

theorem inv_State_modGroup {s0 : State} {x1 : GKey} {x2 : Group → Group} (h0 : Inv s0) :
    Inv (State.modGroup s0 x1 x2) := by
  unfold State.modGroup
  try dsimp only
  repeat' (with_reducible first | assumption | apply inv_State_setGroup | intro _ | dsimp only | split)

theorem inv_State_setTeam {s0 : State} {x1 : Team} (h0 : Inv s0) :
    Inv (State.setTeam s0 x1) := by
  unfold State.setTeam
  try dsimp only
  repeat' (with_reducible first | assumption | (simp only [inv_mk]; refine inv_of ?_) | intro _ | dsimp only | split)

theorem inv_State_modTeam {s0 : State} {x1 : Nat} {x2 : Team → Team} (h0 : Inv s0) :
    Inv (State.modTeam s0 x1 x2) := by
  unfold State.modTeam
  try dsimp only
  repeat' (with_reducible first | assumption | apply inv_State_setTeam | intro _ | dsimp only | split)

theorem inv_State_setCore {s0 : State} {x1 : Nat} {x2 : Core} (h0 : Inv s0) :
    Inv (State.setCore s0 x1 x2) := by
  unfold State.setCore
  try dsimp only
  repeat' (with_reducible first | assumption | (simp only [inv_mk, List.length_set]; refine inv_of ?_) | intro _ | dsimp only | split)

theorem inv_State_modCore {s0 : State} {x1 : Nat} {x2 : Core → Core} (h0 : Inv s0) :
    Inv (State.modCore s0 x1 x2) := by
  unfold State.modCore
  try dsimp only
  repeat' (with_reducible first | assumption | apply inv_State_setCore | intro _ | dsimp only | split)

theorem inv_State_setDie {s0 : State} {x1 : Nat} {x2 : Die} (h0 : Inv s0) :
    Inv (State.setDie s0 x1 x2) := by
  unfold State.setDie
  try dsimp only
  repeat' (with_reducible first | assumption | (simp only [inv_mk, List.length_set]; refine inv_of ?_) | intro _ | dsimp only | split)

theorem inv_State_modDie {s0 : State} {x1 : Nat} {x2 : Die → Die} (h0 : Inv s0) :
    Inv (State.modDie s0 x1 x2) := by
  unfold State.modDie
  try dsimp only
  repeat' (with_reducible first | assumption | apply inv_State_setDie | intro _ | dsimp only | split)

theorem inv_State_setGrid {s0 : State} {x1 : Grid} (h0 : Inv s0) :
    Inv (State.setGrid s0 x1) := by
  unfold State.setGrid
  try dsimp only
  repeat' (with_reducible first | assumption | (simp only [inv_mk]; refine inv_of ?_) | intro _ | dsimp only | split)

theorem inv_State_modGrid {s0 : State} {x1 : Nat} {x2 : Grid → Grid} (h0 : Inv s0) :
    Inv (State.modGrid s0 x1 x2) := by
  unfold State.modGrid
  try dsimp only
  repeat' (with_reducible first | assumption | apply inv_State_setGrid | intro _ | dsimp only | split)

theorem inv_State_fresh {s0 : State} (h0 : Inv s0) :
    Inv (State.fresh s0).2 := by
  unfold State.fresh
  try dsimp only
  repeat' (with_reducible first | assumption | (simp only [inv_mk]; refine inv_of ?_) | intro _ | dsimp only | split)

theorem inv_State_traceWrite {s0 : State} {x1 : Nat} {x2 : List Word} (h0 : Inv s0) :
    Inv (State.traceWrite s0 x1 x2) := by
  unfold State.traceWrite
  try dsimp only
  repeat' (with_reducible first | assumption | apply inv_State_store | apply inv_State_modDie | intro _ | dsimp only | split)

theorem inv_State_stampWrite {s0 : State} {x1 : Nat} {x2 : List Word} (h0 : Inv s0) :
    Inv (State.stampWrite s0 x1 x2) := by
  unfold State.stampWrite
  try dsimp only
  repeat' (with_reducible first | assumption | apply inv_State_store | apply inv_State_modDie | intro _ | dsimp only | split)

theorem inv_State_traceAt {s0 : State} {x1 : Group} {x2 : IssueMark} {x3 : Nat} {x4 : Word} {x5 : Word} {x6 : Word} {x7 : Word} (h0 : Inv s0) :
    Inv (State.traceAt s0 x1 x2 x3 x4 x5 x6 x7) := by
  unfold State.traceAt
  try dsimp only
  repeat' (with_reducible first | assumption | apply inv_State_traceWrite | intro _ | dsimp only | split)

theorem inv_State_traceRecord {s0 : State} {x1 : Group} {x2 : Nat} {x3 : Word} {x4 : Word} {x5 : Word} {x6 : Word} (h0 : Inv s0) :
    Inv (State.traceRecord s0 x1 x2 x3 x4 x5 x6) := by
  unfold State.traceRecord
  try dsimp only
  repeat' (with_reducible first | assumption | apply inv_State_traceAt | intro _ | dsimp only | split)

theorem inv_endGrid {s0 : State} {x1 : Nat} {x2 : Final} (h0 : Inv s0) :
    Inv (endGrid s0 x1 x2) := by
  unfold endGrid
  try dsimp only
  repeat' (with_reducible first | assumption | apply inv_State_setGrid | (simp only [inv_mk]; refine inv_of ?_) | intro _ | dsimp only | split)

theorem inv_requestPreempt {s0 : State} {x1 : Nat} (h0 : Inv s0) :
    Inv (requestPreempt s0 x1) := by
  unfold requestPreempt
  try dsimp only
  repeat' (with_reducible first | assumption | apply inv_State_setGrid | (simp only [inv_mk]; refine inv_of ?_) | intro _ | dsimp only | split)

theorem inv_chargeGrid {s0 : State} {x1 : Nat} {x2 : GKey} {x3 : Perf} (h0 : Inv s0) :
    Inv (chargeGrid s0 x1 x2 x3) := by
  unfold chargeGrid
  try dsimp only
  repeat' (with_reducible first | assumption | apply inv_endGrid | intro _ | dsimp only | split)

theorem inv_modIssuer {s0 : State} {x1 : GKey} {x2 : Own} {x3 : Nat} {x4 : Group → Group} (h0 : Inv s0) :
    Inv (modIssuer s0 x1 x2 x3 x4) := by
  unfold modIssuer
  try dsimp only
  repeat' (with_reducible first | assumption | apply inv_State_modGroup | apply inv_State_modGrid | intro _ | dsimp only | split)

theorem inv_addLate {s0 : State} {x1 : GKey} {x2 : Own} {x3 : Nat} {x4 : Perf} (h0 : Inv s0) :
    Inv (addLate s0 x1 x2 x3 x4) := by
  unfold addLate
  try dsimp only
  repeat' (with_reducible first | assumption | apply inv_chargeGrid | apply inv_modIssuer | intro _ | dsimp only | split)

theorem inv_mergeLate {s0 : State} {x1 : GKey} {x2 : Own} {x3 : Nat} {x4 : Word} {x5 : Word} {x6 : IssueMark} {x7 : BitVec 7} {x8 : Word} (h0 : Inv s0) :
    Inv (mergeLate s0 x1 x2 x3 x4 x5 x6 x7 x8) := by
  unfold mergeLate
  try dsimp only
  repeat' (with_reducible first | assumption | apply inv_modIssuer | apply inv_addLate | intro _ | dsimp only | split)

theorem inv_storeOf {s0 : State} {x1 : Nat} {x2 : List (Nat × Byte)} (h0 : Inv s0) :
    Inv (storeOf s0 x1 x2) := by
  unfold storeOf
  try dsimp only
  repeat' (with_reducible first | assumption | apply inv_State_store | apply inv_State_modCore | intro _ | dsimp only | split)

theorem inv_shutPast {s0 : State} {x1 : GKey} {x2 : List Nat} (h0 : Inv s0) :
    Inv (shutPast s0 x1 x2) := by
  unfold shutPast
  try dsimp only
  repeat' (with_reducible first | assumption | (intro _; rfl) | (simp only [inv_mk, List.length_set, List.length_map, List.length_mapIdx]; refine inv_of ?_) | intro _ | dsimp only | split)

theorem inv_atomStep {c : Nat} {op : AtomOp} {o : QOut} {e : AtomEl} (h : Inv o.s) : Inv (atomStep c op o e).s := by
  unfold atomStep
  try dsimp only
  repeat' (with_reducible first | assumption | apply inv_storeOf | dsimp only | split)

theorem inv_casStep {c : Nat} {w : Bool} {o : QOut} {e : AtomEl} (h : Inv o.s) : Inv (casStep c w o e).s := by
  unfold casStep
  try dsimp only
  repeat' (with_reducible first | assumption | apply inv_storeOf | dsimp only | split)

theorem inv_foldl_out {f : QOut → AtomEl → QOut} (hf : ∀ o e, Inv o.s → Inv (f o e).s) {l : List AtomEl} :
    ∀ {o : QOut}, Inv o.s → Inv (l.foldl f o).s := by
  induction l with
  | nil => intro o h; exact h
  | cons e l ih => intro o h; exact ih (hf o e h)

/-- Performing an entry keeps the invariant. -/
theorem inv_performEntry {s : State} {c : Nat} {e : QEntry} (h : Inv s) : Inv (performEntry s c e).s := by
  unfold performEntry
  split
  · exact inv_storeOf h
  · exact inv_State_setTags h
  · exact inv_foldl_out (fun _ _ => inv_atomStep) h
  · exact inv_foldl_out (fun _ _ => inv_casStep) h
  · exact h

theorem inv_performFor {s0 : State} {x1 : GKey} {x2 : QEntry} (h0 : Inv s0) :
    Inv (performFor s0 x1 x2) := by
  unfold performFor
  try dsimp only
  repeat' (with_reducible first | assumption | apply inv_performEntry | apply inv_State_modGroup | apply inv_addLate | apply inv_shutPast | (intro _; rfl) | (apply inv_fst_of; assumption) | (simp only [inv_mk, List.length_set, List.length_map, List.length_mapIdx]; refine inv_of ?_) | intro _ | dsimp only | split)

theorem inv_meetLoads {s0 : State} {x1 : Group → Pend → Option Bool} {x2 : List (Nat × Byte)} (h0 : Inv s0) :
    Inv (meetLoads s0 x1 x2) := by
  unfold meetLoads
  try dsimp only
  repeat' (with_reducible first | assumption | (simp only [inv_mk]; refine inv_of ?_) | intro _ | dsimp only | split)

theorem inv_meetCore {s0 : State} {x1 : GKey} {x2 : Bool} {x3 : List (Nat × Byte)} (h0 : Inv s0) :
    Inv (meetCore s0 x1 x2 x3) := by
  unfold meetCore
  try dsimp only
  repeat' (with_reducible first | assumption | apply inv_meetLoads | intro _ | dsimp only | split)

theorem inv_closeReads {s0 : State} {x1 : GKey} {x2 : List (Nat × Byte)} (h0 : Inv s0) :
    Inv (closeReads s0 x1 x2) := by
  unfold closeReads
  try dsimp only
  repeat' (with_reducible first | assumption | apply inv_meetLoads | intro _ | dsimp only | split)

theorem inv_landFlight {x0 : Nat} {s1 : State} {x2 : Flight} (h1 : Inv s1) :
    Inv (landFlight x0 s1 x2) := by
  unfold landFlight
  try dsimp only
  repeat' (with_reducible first | assumption | apply inv_State_modCore | apply inv_performFor | apply inv_meetLoads | intro _ | dsimp only | split)

theorem inv_landWords {s0 : State} {x1 : Nat} {x2 : List Nat} (h0 : Inv s0) :
    Inv (landWords s0 x1 x2) := by
  unfold landWords
  try dsimp only
  repeat' (with_reducible first | assumption | apply inv_landFlight | apply inv_foldl | intro _ | dsimp only | split)

theorem inv_landAll {s0 : State} {x1 : Nat} (h0 : Inv s0) :
    Inv (landAll s0 x1) := by
  unfold landAll
  try dsimp only
  repeat' (with_reducible first | assumption | apply inv_landFlight | apply inv_foldl | intro _ | dsimp only | split)

theorem inv_dueAll {s0 : State} {x1 : Nat} (h0 : Inv s0) :
    Inv (dueAll s0 x1) := by
  unfold dueAll
  try dsimp only
  repeat' (with_reducible first | assumption | apply inv_State_modCore | (intro _; rfl) | (simp only [inv_mk, List.length_set, List.length_map, List.length_mapIdx]; refine inv_of ?_) | intro _ | dsimp only | split)

theorem inv_coreSees {s0 : State} {x1 : Nat} {x2 : Flight → Bool} (h0 : Inv s0) :
    Inv (coreSees s0 x1 x2) := by
  unfold coreSees
  try dsimp only
  repeat' (with_reducible first | assumption | apply inv_landFlight | (intro _; rfl) | apply inv_foldl | apply inv_foldl_fst | intro _ | dsimp only | split)

theorem inv_landSome {s0 : State} {x1 : GKey} {x2 : Nat} (h0 : Inv s0) :
    Inv (landSome s0 x1 x2) := by
  unfold landSome
  try dsimp only
  repeat' (with_reducible first | assumption | apply inv_landWords | intro _ | dsimp only | split)

theorem inv_drainHead {s0 : State} {x1 : GKey} (h0 : Inv s0) :
    Inv (drainHead s0 x1) := by
  unfold drainHead
  try dsimp only
  repeat' (with_reducible first | assumption | apply inv_State_setGroup | apply inv_State_modGroup | apply inv_State_modCore | apply inv_performFor | apply inv_meetCore | apply inv_landAll | apply inv_dueAll | (intro _; rfl) | (apply inv_fst_of; assumption) | (simp only [inv_mk, List.length_set, List.length_map, List.length_mapIdx]; refine inv_of ?_) | intro _ | dsimp only | split)

theorem inv_drainAll {s0 : State} {x1 : GKey} (h0 : Inv s0) :
    Inv (drainAll s0 x1) := by
  unfold drainAll
  try dsimp only
  repeat' (with_reducible first | assumption | apply inv_drainHead | apply inv_foldl | intro _ | dsimp only | split)

theorem inv_drainStep {s0 : State} {x1 : GKey} (h0 : Inv s0) :
    Inv (drainStep s0 x1) := by
  unfold drainStep
  try dsimp only
  repeat' (with_reducible first | assumption | apply inv_landSome | apply inv_drainHead | intro _ | dsimp only | split)

theorem inv_notify {s0 : State} {x1 : Nat} {x2 : Bool} {x3 : Nat} {x4 : Nat} (h0 : Inv s0) :
    Inv (notify s0 x1 x2 x3 x4) := by
  unfold notify
  try dsimp only
  repeat' (with_reducible first | assumption | apply inv_State_store | (simp only [inv_mk]; refine inv_of ?_) | intro _ | dsimp only | split)

theorem inv_homeAdd {s0 : State} {x1 : Nat} {x2 : Gather} (h0 : Inv s0) :
    Inv (homeAdd s0 x1 x2) := by
  unfold homeAdd
  try dsimp only
  repeat' (with_reducible first | assumption | apply inv_State_store | apply inv_notify | intro _ | dsimp only | split)

theorem inv_flushGather {s0 : State} {x1 : Nat} {x2 : Gather → Bool} (h0 : Inv s0) :
    Inv (flushGather s0 x1 x2) := by
  unfold flushGather
  try dsimp only
  repeat' (with_reducible first | assumption | apply inv_State_modDie | apply inv_homeAdd | apply inv_foldl | intro _ | dsimp only | split)

theorem inv_countBlock {s0 : State} {x1 : Nat} {x2 : Bool} {x3 : Nat} (h0 : Inv s0) :
    Inv (countBlock s0 x1 x2 x3) := by
  unfold countBlock
  try dsimp only
  repeat' (with_reducible first | assumption | apply inv_State_modDie | apply inv_flushGather | intro _ | dsimp only | split)

theorem inv_install {s0 : State} {x1 : Nat} {x2 : Bool} {x3 : Nat} {x4 : WalkEnd} (h0 : Inv s0) :
    Inv (install s0 x1 x2 x3 x4) := by
  unfold install
  try dsimp only
  repeat' (with_reducible first | assumption | apply inv_State_modDie | apply inv_flushGather | intro _ | dsimp only | split)

theorem inv_translateNow {s0 : State} {x1 : Nat} {x2 : Bool} {x3 : Bool} {x4 : Nat} (h0 : Inv s0) :
    Inv (translateNow s0 x1 x2 x3 x4).1 := by
  unfold translateNow
  try dsimp only
  repeat' (with_reducible first | assumption | apply inv_install | intro _ | dsimp only | split)

theorem inv_State_putBar {s0 : State} {x1 : Nat} {x2 : Nat} {x3 : Bar} (h0 : Inv s0) :
    Inv (State.putBar s0 x1 x2 x3) := by
  unfold State.putBar
  try dsimp only
  repeat' (with_reducible first | assumption | apply inv_State_modTeam | (simp only [inv_mk]; refine inv_of ?_) | intro _ | dsimp only | split)

theorem inv_refuseParts {s0 : State} {x1 : Nat} {x2 : Nat} {x3 : Nat} (h0 : Inv s0) :
    Inv (refuseParts s0 x1 x2 x3).1 := by
  unfold refuseParts
  try dsimp only
  repeat' (with_reducible first | assumption | apply inv_State_setGroup | apply inv_State_putBar | apply inv_foldl | intro _ | dsimp only | split)

theorem inv_groupArrives {s0 : State} {x1 : GKey} {x2 : Nat} (h0 : Inv s0) :
    Inv (groupArrives s0 x1 x2).1 := by
  unfold groupArrives
  try dsimp only
  repeat' (with_reducible first | assumption | apply inv_State_setGroup | apply inv_dueAll | apply inv_drainAll | apply inv_State_putBar | apply inv_refuseParts | (intro _; rfl) | (apply inv_fst_of; assumption) | (simp only [inv_mk, List.length_set, List.length_map, List.length_mapIdx]; refine inv_of ?_) | intro _ | dsimp only | split)

theorem inv_partExited {s0 : State} {x1 : Nat} {x2 : Nat} (h0 : Inv s0) :
    Inv (partExited s0 x1 x2).1 := by
  unfold partExited
  try dsimp only
  repeat' (with_reducible first | assumption | apply inv_State_putBar | apply inv_refuseParts | apply inv_foldl_fst | intro _ | dsimp only | split)

theorem inv_engineArrives {s0 : State} {x1 : Nat} {x2 : Nat} {x3 : Nat} {x4 : GKey} {x5 : Own} {x6 : Perf} (h0 : Inv s0) :
    Inv (engineArrives s0 x1 x2 x3 x4 x5 x6) := by
  unfold engineArrives
  try dsimp only
  repeat' (with_reducible first | assumption | apply inv_State_modGrid | apply inv_addLate | apply inv_State_putBar | intro _ | dsimp only | split)

theorem inv_stampOut {s0 : State} {x1 : Nat} {x2 : Bool} {x3 : Nat} (h0 : Inv s0) :
    Inv (stampOut s0 x1 x2 x3) := by
  unfold stampOut
  try dsimp only
  repeat' (with_reducible first | assumption | apply inv_State_modCore | apply inv_State_stampWrite | intro _ | dsimp only | split)

theorem inv_freeBanks {s0 : State} {x1 : Nat} {x2 : Bool} {x3 : List Nat} (h0 : Inv s0) :
    Inv (freeBanks s0 x1 x2 x3) := by
  unfold freeBanks
  try dsimp only
  repeat' (with_reducible first | assumption | apply inv_State_modCore | apply inv_stampOut | apply inv_foldl | intro _ | dsimp only | split)

theorem inv_freeHalves {s0 : State} {x1 : Nat} {x2 : List Nat} (h0 : Inv s0) :
    Inv (freeHalves s0 x1 x2) := by
  unfold freeHalves
  try dsimp only
  repeat' (with_reducible first | assumption | apply inv_State_modCore | intro _ | dsimp only | split)

theorem inv_dropGrants {s0 : State} {x1 : Nat} {x2 : Own} (h0 : Inv s0) :
    Inv (dropGrants s0 x1 x2) := by
  unfold dropGrants
  try dsimp only
  repeat' (with_reducible first | assumption | apply inv_State_modCore | intro _ | dsimp only | split)

theorem inv_State_modCopy {s0 : State} {x1 : Nat} {x2 : Nat} {x3 : Copy → Copy} (h0 : Inv s0) :
    Inv (State.modCopy s0 x1 x2 x3) := by
  unfold State.modCopy
  try dsimp only
  repeat' (with_reducible first | assumption | apply inv_State_modCore | intro _ | dsimp only | split)

theorem inv_State_dropCopy {s0 : State} {x1 : Nat} {x2 : Nat} (h0 : Inv s0) :
    Inv (State.dropCopy s0 x1 x2) := by
  unfold State.dropCopy
  try dsimp only
  repeat' (with_reducible first | assumption | apply inv_State_modCore | intro _ | dsimp only | split)

theorem inv_State_modJob {s0 : State} {x1 : Nat} {x2 : Nat} {x3 : Job → Job} (h0 : Inv s0) :
    Inv (State.modJob s0 x1 x2 x3) := by
  unfold State.modJob
  try dsimp only
  repeat' (with_reducible first | assumption | apply inv_State_modDie | intro _ | dsimp only | split)

theorem inv_flushCounted {s0 : State} {x1 : Nat} {x2 : List Nat} (h0 : Inv s0) :
    Inv (flushCounted s0 x1 x2) := by
  unfold flushCounted
  try dsimp only
  repeat' (with_reducible first | assumption | apply inv_flushGather | intro _ | dsimp only | split)

theorem inv_completeCopy {s0 : State} {x1 : Nat} {x2 : Nat} (h0 : Inv s0) :
    Inv (completeCopy s0 x1 x2) := by
  unfold completeCopy
  try dsimp only
  repeat' (with_reducible first | assumption | apply inv_mergeLate | apply inv_engineArrives | apply inv_State_dropCopy | apply inv_flushCounted | intro _ | dsimp only | split)

theorem inv_abandonCopy {s0 : State} {x1 : Nat} {x2 : Nat} (h0 : Inv s0) :
    Inv (abandonCopy s0 x1 x2) := by
  unfold abandonCopy
  try dsimp only
  repeat' (with_reducible first | assumption | apply inv_State_modCore | apply inv_completeCopy | intro _ | dsimp only | split)

theorem inv_completeJob {s0 : State} {x1 : Nat} {x2 : Nat} {x3 : Nat} (h0 : Inv s0) :
    Inv (completeJob s0 x1 x2 x3) := by
  unfold completeJob
  try dsimp only
  repeat' (with_reducible first | assumption | apply inv_State_modDie | apply inv_mergeLate | apply inv_engineArrives | apply inv_State_modJob | apply inv_flushCounted | intro _ | dsimp only | split)

theorem inv_dropWalker {s0 : State} {x1 : Nat} {x2 : Nat} (h0 : Inv s0) :
    Inv (dropWalker s0 x1 x2) := by
  unfold dropWalker
  try dsimp only
  repeat' (with_reducible first | assumption | (simp only [inv_mk, List.length_mapIdx]; refine inv_of ?_) | intro _ | dsimp only | split)

theorem inv_answerCopy {s0 : State} {x1 : Nat} {x2 : Nat} {x3 : BitVec 11} {x4 : Answer} (h0 : Inv s0) :
    Inv (answerCopy s0 x1 x2 x3 x4) := by
  unfold answerCopy
  try dsimp only
  repeat' (with_reducible first | assumption | apply inv_State_modCopy | apply inv_completeCopy | apply inv_abandonCopy | intro _ | dsimp only | split)

theorem inv_answerJob {s0 : State} {x1 : Nat} {x2 : Nat} {x3 : BitVec 11} {x4 : Answer} (h0 : Inv s0) :
    Inv (answerJob s0 x1 x2 x3 x4) := by
  unfold answerJob
  try dsimp only
  repeat' (with_reducible first | assumption | apply inv_State_modJob | apply inv_completeJob | apply inv_dropWalker | intro _ | dsimp only | split)

theorem inv_answerEngine {s0 : State} {x1 : EngRef} {x2 : BitVec 11} {x3 : Answer} (h0 : Inv s0) :
    Inv (answerEngine s0 x1 x2 x3) := by
  unfold answerEngine
  try dsimp only
  repeat' (with_reducible first | assumption | apply inv_answerCopy | apply inv_answerJob | intro _ | dsimp only | split)

theorem inv_State_modEng {s0 : State} {x1 : EngRef} {x2 : Eng → Eng} (h0 : Inv s0) :
    Inv (State.modEng s0 x1 x2) := by
  unfold State.modEng
  try dsimp only
  repeat' (with_reducible first | assumption | apply inv_State_modCopy | apply inv_State_modJob | intro _ | dsimp only | split)

theorem inv_dropPlaces {s0 : State} {x1 : Nat} {x2 : Nat} {x3 : GKey} {x4 : Word} {x5 : Mask} (h0 : Inv s0) :
    Inv (dropPlaces s0 x1 x2 x3 x4 x5) := by
  unfold dropPlaces
  try dsimp only
  repeat' (with_reducible first | assumption | apply inv_State_modDie | intro _ | dsimp only | split)

theorem inv_spill {s0 : State} {x1 : GKey} (h0 : Inv s0) :
    Inv (spill s0 x1) := by
  unfold spill
  try dsimp only
  repeat' (with_reducible first | assumption | apply inv_State_store | apply inv_foldl | intro _ | dsimp only | split)

theorem inv_enter {s0 : State} {x1 : GKey} {x2 : Option Loop} {x3 : Frame} {x4 : Perf} {x5 : List Perf} (h0 : Inv s0) :
    Inv (enter s0 x1 x2 x3 x4 x5) := by
  unfold enter
  try dsimp only
  repeat' (with_reducible first | assumption | apply inv_State_setGroup | apply inv_State_traceAt | apply inv_spill | (simp only [inv_mk]; refine inv_of ?_) | intro _ | dsimp only | split)

/-- Performing effects keeps the invariant. -/
theorem inv_perform {k : GKey} {l : Option Loop} {ps : List Perf} : ∀ {s : State}, Inv s → Inv (perform s k l ps) := by
  induction ps with
  | nil => intro s h; exact h
  | cons p ps ih =>
    intro s h
    unfold perform
    try dsimp only
    repeat' (with_reducible first | assumption | apply ih | apply inv_chargeGrid | apply inv_enter | intro _ | dsimp only | split)

theorem inv_chargeLate {s0 : State} {x1 : GKey} (h0 : Inv s0) :
    Inv (chargeLate s0 x1) := by
  unfold chargeLate
  try dsimp only
  repeat' (with_reducible first | assumption | apply inv_State_setGroup | apply inv_chargeGrid | intro _ | dsimp only | split)

theorem inv_slotRetires {s0 : State} {x1 : Nat} {x2 : Nat} (h0 : Inv s0) :
    Inv (slotRetires s0 x1 x2) := by
  unfold slotRetires
  try dsimp only
  repeat' (with_reducible first | assumption | apply inv_State_putBar | apply inv_foldl | intro _ | dsimp only | split)

theorem inv_teamEnds {s0 : State} {x1 : Nat} (h0 : Inv s0) :
    Inv (teamEnds s0 x1) := by
  unfold teamEnds
  try dsimp only
  repeat' (with_reducible first | assumption | apply inv_State_modGrid | (simp only [inv_mk]; refine inv_of ?_) | intro _ | dsimp only | split)

theorem inv_sealPublished {s0 : State} {x1 : Nat} {x2 : Own} (h0 : Inv s0) :
    Inv (sealPublished s0 x1 x2) := by
  unfold sealPublished
  try dsimp only
  repeat' (with_reducible first | assumption | apply inv_State_modCore | intro _ | dsimp only | split)

theorem inv_retire {s0 : State} {x1 : GKey} (h0 : Inv s0) :
    Inv (retire s0 x1) := by
  unfold retire
  try dsimp only
  repeat' (with_reducible first | assumption | apply inv_freeBanks | apply inv_freeHalves | apply inv_dropGrants | apply inv_slotRetires | apply inv_teamEnds | (simp only [inv_mk, List.length_map]; refine inv_of ?_) | intro _ | dsimp only | split)

theorem inv_tryRetire {s0 : State} {x1 : GKey} (h0 : Inv s0) :
    Inv (tryRetire s0 x1) := by
  unfold tryRetire
  try dsimp only
  repeat' (with_reducible first | assumption | apply inv_chargeLate | apply inv_sealPublished | apply inv_retire | intro _ | dsimp only | split)

theorem inv_retireCore {s0 : State} {x1 : Nat} (h0 : Inv s0) :
    Inv (retireCore s0 x1) := by
  unfold retireCore
  try dsimp only
  repeat' (with_reducible first | assumption | apply inv_tryRetire | (intro _; rfl) | apply inv_foldl | apply inv_foldl_fst | intro _ | dsimp only | split)

theorem inv_forgetBins {s0 : State} {x1 : GKey} {x2 : Src} {x3 : Mask} (h0 : Inv s0) :
    Inv (forgetBins s0 x1 x2 x3) := by
  unfold forgetBins
  try dsimp only
  repeat' (with_reducible first | assumption | apply inv_dropPlaces | intro _ | dsimp only | split)

theorem inv_abandonSource {s0 : State} {x1 : GKey} {x2 : Perf} {x3 : Mask} (h0 : Inv s0) :
    Inv (abandonSource s0 x1 x2 x3) := by
  unfold abandonSource
  try dsimp only
  repeat' (with_reducible first | assumption | apply inv_State_modGroup | apply inv_answerEngine | apply inv_retireCore | apply inv_forgetBins | apply inv_abort | (intro _; rfl) | (apply inv_fst_of; assumption) | (simp only [inv_mk, List.length_set, List.length_map, List.length_mapIdx]; refine inv_of ?_) | intro _ | dsimp only | split)

theorem inv_closeCtx {s0 : State} {x1 : GKey} {x2 : Nat} {x3 : Bool} (h0 : Inv s0) :
    Inv (closeCtx s0 x1 x2 x3).1 := by
  unfold closeCtx
  try dsimp only
  repeat' (with_reducible first | assumption | apply inv_State_modGroup | apply inv_spill | apply inv_abandonSource | intro _ | dsimp only | split)

theorem inv_endInvocation {s0 : State} {x1 : GKey} {x2 : Nat} {x3 : Bool} (h0 : Inv s0) :
    Inv (endInvocation s0 x1 x2 x3) := by
  unfold endInvocation
  try dsimp only
  repeat' (with_reducible first | assumption | apply inv_State_modGroup | apply inv_perform | apply inv_closeCtx | intro _ | dsimp only | split)

theorem inv_resume {s0 : State} {x1 : GKey} {x2 : Nat} {x3 : Mask} {x4 : RsumAct} {x5 : Nat → Word} (h0 : Inv s0) :
    Inv (resume s0 x1 x2 x3 x4 x5) := by
  unfold resume
  try dsimp only
  repeat' (with_reducible first | assumption | apply inv_State_modGroup | apply inv_answerEngine | apply inv_retireCore | apply inv_forgetBins | apply inv_endInvocation | (intro _; rfl) | (apply inv_fst_of; assumption) | (simp only [inv_mk, List.length_set, List.length_map, List.length_mapIdx]; refine inv_of ?_) | intro _ | dsimp only | split)

theorem inv_abort {s0 : State} {x1 : GKey} {x2 : Nat} {x3 : Mask} {x4 : Nat} (h0 : Inv s0) :
    Inv (abort s0 x1 x2 x3 x4) := by
  unfold abort
  try dsimp only
  repeat' (with_reducible first | assumption | apply inv_State_setGroup | apply inv_State_modGroup | apply inv_spill | apply inv_perform | apply inv_closeCtx | apply inv_foldl_fst | intro _ | dsimp only | split)

theorem inv_endEmpty {s0 : State} {x1 : GKey} (h0 : Inv s0) :
    Inv (endEmpty s0 x1) := by
  unfold endEmpty
  try dsimp only
  repeat' (with_reducible first | assumption | apply inv_State_modGroup | apply inv_endInvocation | apply inv_foldl | intro _ | dsimp only | split)

theorem inv_popCall {s0 : State} {x1 : GKey} (h0 : Inv s0) :
    Inv (popCall s0 x1) := by
  unfold popCall
  try dsimp only
  repeat' (with_reducible first | assumption | apply inv_State_modGroup | intro _ | dsimp only | split)

theorem inv_joinReturns {k : GKey} {n : Nat} : ∀ {s : State}, Inv s → Inv (joinReturns s k n) := by
  induction n with
  | zero => intro s h; exact h
  | succ n ih =>
    intro s h
    unfold joinReturns
    repeat' (with_reducible first | assumption | apply ih | apply inv_popCall | intro _ | dsimp only | split)

theorem inv_joinPops {s0 : State} {x1 : GKey} (h0 : Inv s0) :
    Inv (joinPops s0 x1) := by
  unfold joinPops
  try dsimp only
  repeat' (with_reducible first | assumption | apply inv_State_setGroup | apply inv_spill | intro _ | dsimp only | split)

theorem inv_performAll {r : State × List (GKey × Perf)} (h : Inv r.1) : Inv (performAll r) :=
  inv_foldl h fun _ _ hs => inv_perform hs

theorem inv_joinArrivals {s0 : State} {x1 : GKey} (h0 : Inv s0) :
    Inv (joinArrivals s0 x1) := by
  unfold joinArrivals
  try dsimp only
  repeat' (with_reducible first | assumption | apply inv_groupArrives | apply inv_performAll | apply inv_foldl | intro _ | dsimp only | split)

theorem inv_joinParts {s0 : State} {x1 : GKey} (h0 : Inv s0) :
    Inv (joinParts s0 x1) := by
  unfold joinParts
  try dsimp only
  repeat' (with_reducible first | assumption | apply inv_partExited | apply inv_performAll | intro _ | dsimp only | split)

theorem inv_settle {s0 : State} {x1 : GKey} (h0 : Inv s0) :
    Inv (settle s0 x1) := by
  unfold settle
  try dsimp only
  repeat' (with_reducible first | assumption | apply inv_State_modGroup | apply inv_tryRetire | apply inv_endEmpty | apply inv_joinReturns | apply inv_joinPops | apply inv_joinArrivals | apply inv_joinParts | (intro _; rfl) | intro _ | dsimp only | split)

theorem inv_Ins_mod {x0 : Ins} {x1 : Group → Group} (h0 : Inv x0.s) :
    Inv (Ins.mod x0 x1) := by
  unfold Ins.mod
  try dsimp only
  repeat' (with_reducible first | assumption | apply inv_State_modGroup | intro _ | dsimp only | split)

theorem inv_hold {p : Progress} : ActInv (.hold p) := trivial

theorem inv_act {s : State} {fl : Fl} {j : List (Mask × Pos)} {f : State → State} (h : Inv s)
    (hf : ∀ t, Inv t → Inv (f t)) : ActInv (.act s fl j f) := ⟨h, hf⟩

theorem inv_park {f : State → State} {p : Progress} (h : ∀ s, Inv s → Inv (f s)) : ActInv (.park f p) := h

theorem inv_Act_done {s : State} {fl : Fl} (h : Inv s) : ActInv (.done s fl) := ⟨h, fun _ ht => ht⟩

theorem inv_Act_go {s : State} {j : List (Mask × Pos)} (h : Inv s) : ActInv (.go s j) := ⟨h, fun _ ht => ht⟩

theorem inv_Act_then_ {s : State} {f : State → State} (h : Inv s) (hf : ∀ t, Inv t → Inv (f t)) : ActInv (.then_ s f) :=
  ⟨h, hf⟩

theorem inv_Ins_raise {x : Ins} {s : State} {ps : List Perf} {fl : Fl} (h : Inv s) : ActInv (x.raise s ps fl) :=
  ⟨h, fun _ ht => inv_perform ht⟩

theorem inv_Ins_fail {x : Ins} {p : Perf} (h : Inv x.s) : ActInv (x.fail p) := inv_Ins_raise h

theorem inv_next {s : State} (h : Inv s) : OutInv (.next s) := h

theorem inv_id {s : State} (h : Inv s) : Inv (id s) := h

theorem inv_fault {f : Fault} : OutInv (.fault f) := trivial

theorem inv_Ins_flightOf {x0 : Ins} {s1 : State} {x2 : Await} {x3 : List Land} {x4 : Fl} {x5 : List OpenRead} (h0 : Inv x0.s) (h1 : Inv s1) :
    Inv (Ins.flightOf x0 s1 x2 x3 x4 x5) := by
  unfold Ins.flightOf
  try dsimp only
  repeat' (with_reducible first | assumption | apply inv_State_modGroup | (simp only [inv_mk]; refine inv_of ?_) | intro _ | dsimp only | split)

theorem inv_Ins_flight {x0 : Ins} {s1 : State} {x2 : Await} {x3 : List Land} {x4 : Fl} (h0 : Inv x0.s) (h1 : Inv s1) :
    Inv (Ins.flight x0 s1 x2 x3 x4) := by
  unfold Ins.flight
  try dsimp only
  repeat' (with_reducible first | assumption | apply inv_Ins_flightOf | intro _ | dsimp only | split)

/-- Finishing a word keeps the invariant when what follows it does. -/
theorem inv_finish {x : Ins} {s : State} {fl : Fl} {j : List (Mask × Pos)} {f : State → State} (h : Inv s)
    (hf : ∀ t, Inv t → Inv (f t)) : Inv (finish x s fl j f) := by
  unfold finish
  dsimp only
  refine inv_settle ?_
  split
  · exact hf _ (inv_State_modGroup h)
  · exact inv_perform (hf _ (inv_State_modGroup h))

theorem inv_illegalWord {s0 : State} {x1 : Group} {x2 : Issue} (h0 : Inv s0) :
    Inv (illegalWord s0 x1 x2) := by
  unfold illegalWord
  try dsimp only
  repeat' (with_reducible first | assumption | apply inv_State_setGroup | apply inv_perform | intro _ | dsimp only | split)

theorem inv_mkIns {s : State} {g : Group} {iss : Issue} {i : Instr} (h : Inv s) : Inv (mkIns s g iss i).s :=
  inv_State_setGroup h

/-- Issuing a word keeps the invariant when its act does. -/
theorem inv_issueAt {s : State} {g : Group} {iss : Issue} {i : Instr} {m : Ins → Act} (h : Inv s)
    (hm : ∀ x, Inv x.s → ActInv (m x)) : Inv (issueAt s g iss i m) := by
  have hx := inv_mkIns (g := g) (iss := iss) (i := i) h
  unfold issueAt
  split
  · exact inv_illegalWord h
  · dsimp only
    split
    · refine inv_finish (inv_State_modGroup hx) fun s hs => inv_perform hs
    · have ha := hm _ hx
      split
      · exact inv_State_setGroup h
      · rename_i e; rw [e] at ha; exact ha _ (inv_State_setGroup h)
      · rename_i e; rw [e] at ha; exact inv_finish ha.1 ha.2

/-- Issuing a word keeps the invariant when its act does. -/
theorem inv_issue {i : Instr} {s : State} {m : Ins → Act} (h : Inv s) (hm : ∀ x, Inv x.s → ActInv (m x)) :
    OutInv (issue i s m) := by
  unfold issue
  split
  · split
    · split
      · show Inv _
        split
        · exact h
        · exact inv_issueAt h hm
      · trivial
    · trivial
  · trivial

theorem inv_cacheLine {s0 : State} {x1 : Group} {x2 : Nat} (h0 : Inv s0) :
    Inv (cacheLine s0 x1 x2) := by
  unfold cacheLine
  try dsimp only
  repeat' (with_reducible first | assumption | apply inv_State_modCore | intro _ | dsimp only | split)

theorem inv_afterFetch {s0 : State} {x1 : Group} {x2 : Mask} {x3 : Nat} {x4 : Nat} (h0 : Inv s0) :
    Inv (afterFetch s0 x1 x2 x3 x4) := by
  unfold afterFetch
  try dsimp only
  repeat' (with_reducible first | assumption | apply inv_cacheLine | (intro _; rfl) | apply inv_foldl | apply inv_foldl_fst | (apply inv_fst_of; assumption) | (simp only [inv_mk, List.length_set, List.length_map, List.length_mapIdx]; refine inv_of ?_) | intro _ | dsimp only | split)

theorem inv_notInBody {x0 : Ins} {x1 : Act} (h0 : Inv x0.s) (h1 : ActInv x1) :
    ActInv (notInBody x0 x1) := by
  unfold notInBody
  try dsimp only
  repeat' (with_reducible first | assumption | apply inv_Ins_fail | apply inv_Ins_fail | intro _ | dsimp only | split)

theorem inv_putVec {x0 : Ins} {x1 : LaneMap} {x2 : Nat → Word} (h0 : Inv x0.s) :
    Inv (putVec x0 x1 x2) := by
  unfold putVec
  try dsimp only
  repeat' (with_reducible first | assumption | apply inv_Ins_mod | intro _ | dsimp only | split)

theorem inv_hitBreakpoint {s0 : State} {x1 : Group} {x2 : Nat} {x3 : Nat} (h0 : Inv s0) :
    Inv (hitBreakpoint s0 x1 x2 x3) := by
  unfold hitBreakpoint
  try dsimp only
  repeat' (with_reducible first | assumption | apply inv_State_setGroup | apply inv_State_modGrid | apply inv_State_traceRecord | apply inv_requestPreempt | (simp only [inv_mk]; refine inv_of ?_) | intro _ | dsimp only | split)

theorem inv_headerEffect {s0 : State} {x1 : Group} {x2 : Nat} {x3 : Nat} {x4 : Word} {x5 : Word} {x6 : Mask} (h0 : Inv s0) :
    Inv (headerEffect s0 x1 x2 x3 x4 x5 x6) := by
  unfold headerEffect
  try dsimp only
  repeat' (with_reducible first | assumption | apply inv_perform | apply inv_settle | intro _ | dsimp only | split)

theorem inv_enterClause {s0 : State} {x1 : Group} {x2 : Nat} {x3 : Mask} (h0 : Inv s0) :
    Inv (enterClause s0 x1 x2 x3) := by
  unfold enterClause
  try dsimp only
  repeat' (with_reducible first | assumption | apply inv_State_modGroup | apply inv_State_fresh | apply inv_afterFetch | apply inv_headerEffect | (intro _; rfl) | (apply inv_fst_of; assumption) | (simp only [inv_mk, List.length_set, List.length_map, List.length_mapIdx]; refine inv_of ?_) | intro _ | dsimp only | split)

theorem inv_putElem {x0 : Ins} {x1 : LaneMap} {x2 : Nat → Word} (h0 : Inv x0.s) :
    Inv (putElem x0 x1 x2) := by
  unfold putElem
  try dsimp only
  repeat' (with_reducible first | assumption | apply inv_Ins_mod | intro _ | dsimp only | split)

theorem inv_elem {x0 : Ins} {x1 : Bool} {x2 : Word → Word → Word → Word × Fl} (h0 : Inv x0.s) :
    ActInv (elem x0 x1 x2) := by
  unfold elem
  try dsimp only
  repeat' (with_reducible first | assumption | apply inv_Act_done | apply inv_Act_done | apply inv_putElem | intro _ | dsimp only | split)

theorem inv_elemInt {x0 : Ins} {x1 : Bool} {x2 : Word → Word → Word → Word} (h0 : Inv x0.s) :
    ActInv (elemInt x0 x1 x2) := by
  unfold elemInt
  try dsimp only
  repeat' (with_reducible first | assumption | apply inv_elem | intro _ | dsimp only | split)

theorem inv_compare {x0 : Ins} {x1 : Fin 8} {x2 : Word → Word → Bool × Fl} (h0 : Inv x0.s) :
    ActInv (compare x0 x1 x2) := by
  unfold compare
  try dsimp only
  repeat' (with_reducible first | assumption | apply inv_Act_done | apply inv_Ins_mod | apply inv_Act_done | intro _ | dsimp only | split)

theorem inv_longElem {x0 : Ins} {x1 : LaneMap} {x2 : Mask} {x3 : Nat → Word} {x4 : Fl} (h0 : Inv x0.s) :
    Inv (longElem x0 x1 x2 x3 x4) := by
  unfold longElem
  try dsimp only
  repeat' (with_reducible first | assumption | apply inv_Ins_mod | apply inv_Ins_flight | intro _ | dsimp only | split)

theorem inv_landsOf {x0 : Ins} {x1 : Nat} {x2 : Mask} {x3 : Nat → Nat} (h0 : Inv x0.s) :
    Inv (landsOf x0 x1 x2 x3).1 := by
  unfold landsOf
  try dsimp only
  repeat' (with_reducible first | assumption | apply inv_Ins_mod | intro _ | dsimp only | split)

theorem inv_latePoison {x0 : Ins} {x1 : Acc} {x2 : List Nat} {s3 : State} (h0 : Inv x0.s) (h3 : Inv s3) :
    Inv (latePoison x0 x1 x2 s3) := by
  unfold latePoison
  try dsimp only
  repeat' (with_reducible first | assumption | apply inv_State_modGroup | intro _ | dsimp only | split)

theorem inv_load {x0 : Ins} {x1 : Acc} {x2 : Nat} {x3 : Nat → Nat} {x4 : Nat → Nat} {x5 : State → State} (h0 : Inv x0.s) (h5 : ∀ y0, Inv y0 → Inv (x5 y0)) :
    ActInv (load x0 x1 x2 x3 x4 x5) := by
  unfold load
  try dsimp only
  repeat' (with_reducible first | assumption | exact inv_hold | apply inv_Ins_raise | apply h5 | apply inv_closeReads | apply inv_Ins_raise | apply inv_Ins_flightOf | apply inv_landsOf | apply inv_latePoison | intro _ | dsimp only | split)

theorem inv_plainLoad {x0 : Ins} {x1 : Acc} (h0 : Inv x0.s) :
    ActInv (plainLoad x0 x1) := by
  unfold plainLoad
  try dsimp only
  repeat' (with_reducible first | assumption | apply inv_id | apply inv_load | intro _ | dsimp only | split)

theorem inv_ldnFill {x0 : Ins} {x1 : Acc} {s2 : State} (h0 : Inv x0.s) (h2 : Inv s2) :
    Inv (ldnFill x0 x1 s2) := by
  unfold ldnFill
  try dsimp only
  repeat' (with_reducible first | assumption | apply inv_State_modCore | intro _ | dsimp only | split)

theorem inv_enqueue {x0 : GKey} {x1 : QEntry} {s2 : State} (h2 : Inv s2) :
    Inv (enqueue x0 x1 s2) := by
  unfold enqueue
  try dsimp only
  repeat' (with_reducible first | assumption | apply inv_State_modGroup | (simp only [inv_mk]; refine inv_of ?_) | intro _ | dsimp only | split)

theorem inv_store {x0 : Ins} {x1 : Acc} (h0 : Inv x0.s) :
    ActInv (store x0 x1) := by
  unfold store
  try dsimp only
  repeat' (with_reducible first | assumption | apply inv_Ins_raise | apply inv_Ins_raise | apply inv_enqueue | intro _ | dsimp only | split)

theorem inv_atomic {x0 : Ins} {x1 : Acc} {x2 : List AtomEl → QOp} {x3 : Nat → AtomEl} (h0 : Inv x0.s) :
    ActInv (atomic x0 x1 x2 x3) := by
  unfold atomic
  try dsimp only
  repeat' (with_reducible first | assumption | apply inv_Ins_raise | apply inv_Ins_mod | apply inv_Ins_raise | apply inv_Ins_flight | apply inv_enqueue | intro _ | dsimp only | split)

theorem inv_needs {α : Type} {x : Ins} {v : Word} {o : Option α} {f : α → Act} (h : Inv x.s) (hf : ∀ a, ActInv (f a)) :
    ActInv (needs x v o f) := by
  unfold needs; split
  · exact hf _
  · exact inv_Ins_fail h

theorem inv_entitled {x0 : Ins} {x1 : List Nat} {x2 : List Nat} {x3 : List Nat} {x4 : Unit → Act} (h0 : Inv x0.s) (h4 : ∀ y0, ActInv (x4 y0)) :
    ActInv (entitled x0 x1 x2 x3 x4) := by
  unfold entitled
  try dsimp only
  repeat' (with_reducible first | assumption | apply inv_Ins_fail | apply h4 | apply inv_Ins_fail | intro _ | dsimp only | split)

theorem inv_claimed {x0 : Ins} {x1 : Reg} {x2 : Option Core} (h0 : Inv x0.s) :
    ActInv (claimed x0 x1 x2) := by
  unfold claimed
  try dsimp only
  repeat' (with_reducible first | assumption | apply inv_Act_done | apply inv_State_setCore | apply inv_Ins_mod | apply inv_Act_done | intro _ | dsimp only | split)

theorem inv_regrant {x0 : Ins} {x1 : List Nat} {x2 : Option Own} (h0 : Inv x0.s) :
    Inv (regrant x0 x1 x2) := by
  unfold regrant
  try dsimp only
  repeat' (with_reducible first | assumption | apply inv_State_modCore | intro _ | dsimp only | split)

theorem inv_writable {x0 : Ins} {x1 : Tile} {x2 : Word} {x3 : Bool} {x4 : Unit → Act} (h0 : Inv x0.s) (h4 : ∀ y0, ActInv (x4 y0)) :
    ActInv (writable x0 x1 x2 x3 x4) := by
  unfold writable
  try dsimp only
  repeat' (with_reducible first | assumption | exact inv_hold | apply inv_Ins_fail | apply h4 | apply inv_Ins_fail | intro _ | dsimp only | split)

theorem inv_nonLinear {x0 : Ins} {x1 : Tile} {x2 : Word} {x3 : Unit → Act} (h0 : Inv x0.s) (h3 : ∀ y0, ActInv (x3 y0)) :
    ActInv (nonLinear x0 x1 x2 x3) := by
  unfold nonLinear
  try dsimp only
  repeat' (with_reducible first | assumption | exact inv_hold | apply inv_Ins_fail | apply h3 | apply inv_Ins_fail | intro _ | dsimp only | split)

theorem inv_queueRoom {x0 : Ins} {x1 : Unit → Act} (h0 : Inv x0.s) (h1 : ∀ y0, ActInv (x1 y0)) :
    ActInv (queueRoom x0 x1) := by
  unfold queueRoom
  try dsimp only
  repeat' (with_reducible first | assumption | exact inv_hold | apply h1 | intro _ | dsimp only | split)

theorem inv_tableRoom {x0 : Ins} {x1 : Option DerivOp} {x2 : Unit → Act} (h0 : Inv x0.s) (h2 : ∀ y0, ActInv (x2 y0)) :
    ActInv (tableRoom x0 x1 x2) := by
  unfold tableRoom
  try dsimp only
  repeat' (with_reducible first | assumption | exact inv_hold | apply h2 | intro _ | dsimp only | split)

theorem inv_placeEntry {x0 : Ins} {s1 : State} {x2 : MOp} {x3 : Bool} {x4 : Bool} {x5 : Option DerivOp} (h0 : Inv x0.s) (h1 : Inv s1) :
    Inv (placeEntry x0 s1 x2 x3 x4 x5) := by
  unfold placeEntry
  try dsimp only
  repeat' (with_reducible first | assumption | apply inv_State_modCore | apply inv_dueAll | apply inv_Act_done | (intro _; rfl) | (simp only [inv_mk, List.length_set, List.length_map, List.length_mapIdx]; refine inv_of ?_) | intro _ | dsimp only | split)

theorem inv_takeProduct {x0 : Ins} {x1 : Product} {x2 : Word} {x3 : Unit → Act} (h0 : Inv x0.s) (h3 : ∀ y0, ActInv (x3 y0)) :
    ActInv (takeProduct x0 x1 x2 x3) := by
  unfold takeProduct
  try dsimp only
  repeat' (with_reducible first | assumption | apply h3 | apply inv_entitled | apply inv_writable | apply inv_queueRoom | apply inv_tableRoom | intro _ | dsimp only | split)

theorem inv_product {x0 : Ins} (h0 : Inv x0.s) :
    ActInv (product x0) := by
  unfold product
  try dsimp only
  repeat' (with_reducible first | assumption | apply inv_Act_done | apply inv_Ins_fail | apply inv_Act_done | apply inv_Ins_fail | apply inv_placeEntry | apply inv_takeProduct | intro _ | dsimp only | split)

theorem inv_drainable {x0 : Ins} {x1 : Nat} {x2 : Nat} {x3 : Unit → Act} (h0 : Inv x0.s) (h3 : ∀ y0, ActInv (x3 y0)) :
    ActInv (drainable x0 x1 x2 x3) := by
  unfold drainable
  try dsimp only
  repeat' (with_reducible first | assumption | apply inv_Ins_fail | apply h3 | apply inv_Ins_fail | intro _ | dsimp only | split)

theorem inv_unpinned {x0 : Ins} {x1 : List Nat} {x2 : Unit → Act} (h0 : Inv x0.s) (h2 : ∀ y0, ActInv (x2 y0)) :
    ActInv (unpinned x0 x1 x2) := by
  unfold unpinned
  try dsimp only
  repeat' (with_reducible first | assumption | exact inv_hold | apply h2 | intro _ | dsimp only | split)

theorem inv_arraySees {s0 : State} {x1 : Nat} {x2 : MEntry} (h0 : Inv s0) :
    Inv (arraySees s0 x1 x2) := by
  unfold arraySees
  try dsimp only
  repeat' (with_reducible first | assumption | apply inv_coreSees | (intro _; rfl) | intro _ | dsimp only | split)

theorem inv_arrayStore {s0 : State} {x1 : Nat} {x2 : MEntry} {x3 : List (Nat × Byte)} {x4 : List (Nat × BitVec 16)} (h0 : Inv s0) :
    Inv (arrayStore s0 x1 x2 x3 x4) := by
  unfold arrayStore
  try dsimp only
  repeat' (with_reducible first | assumption | apply inv_State_store | apply inv_State_setTags | apply inv_meetLoads | apply inv_store | apply inv_arraySees | (intro _; rfl) | intro _ | dsimp only | split)

theorem inv_startEntry {s0 : State} {x1 : Nat} {x2 : MEntry} (h0 : Inv s0) :
    Inv (startEntry s0 x1 x2) := by
  unfold startEntry
  try dsimp only
  repeat' (with_reducible first | assumption | apply inv_State_modCore | apply inv_Act_done | apply inv_arraySees | apply inv_arrayStore | (intro _; rfl) | (apply inv_fst_of; assumption) | (simp only [inv_mk, List.length_set, List.length_map, List.length_mapIdx]; refine inv_of ?_) | intro _ | dsimp only | split)

theorem inv_followDone {s0 : State} {x1 : Nat} {x2 : MEntry} (h0 : Inv s0) :
    Inv (followDone s0 x1 x2) := by
  unfold followDone
  try dsimp only
  repeat' (with_reducible first | assumption | apply inv_completeCopy | intro _ | dsimp only | split)

theorem inv_nextHalf {s0 : State} {x1 : Nat} {x2 : MEntry} (h0 : Inv s0) :
    Inv (nextHalf s0 x1 x2) := by
  unfold nextHalf
  try dsimp only
  repeat' (with_reducible first | assumption | apply inv_State_modCore | apply inv_startEntry | intro _ | dsimp only | split)

theorem inv_endEntry {s0 : State} {x1 : Nat} {x2 : MRun} (h0 : Inv s0) :
    Inv (endEntry s0 x1 x2) := by
  unfold endEntry
  try dsimp only
  repeat' (with_reducible first | assumption | apply inv_State_modCore | apply inv_addLate | apply inv_mergeLate | apply inv_retireCore | apply inv_followDone | (intro _; rfl) | (apply inv_fst_of; assumption) | (simp only [inv_mk, List.length_set, List.length_map, List.length_mapIdx]; refine inv_of ?_) | intro _ | dsimp only | split)

theorem inv_finishEntry {s0 : State} {x1 : Nat} {x2 : MRun} (h0 : Inv s0) :
    Inv (finishEntry s0 x1 x2) := by
  unfold finishEntry
  try dsimp only
  repeat' (with_reducible first | assumption | apply inv_Act_done | apply inv_arrayStore | apply inv_nextHalf | apply inv_endEntry | (intro _; rfl) | (simp only [inv_mk, List.length_set, List.length_map, List.length_mapIdx]; refine inv_of ?_) | intro _ | dsimp only | split)

theorem inv_applyValue {s0 : State} {x1 : Nat} {x2 : Deriv} {x3 : List Word} (h0 : Inv s0) :
    Inv (applyValue s0 x1 x2 x3).1 := by
  unfold applyValue
  try dsimp only
  repeat' (with_reducible first | assumption | apply inv_State_store | apply inv_State_addPoison | apply inv_foldl | intro _ | dsimp only | split)

theorem inv_applyNext {s0 : State} {x1 : Nat} {x2 : App} (h0 : Inv s0) :
    Inv (applyNext s0 x1 x2) := by
  unfold applyNext
  try dsimp only
  repeat' (with_reducible first | assumption | apply inv_State_modCore | apply inv_addLate | apply inv_mergeLate | apply inv_retireCore | apply inv_applyValue | (intro _; rfl) | (apply inv_fst_of; assumption) | (simp only [inv_mk, List.length_set, List.length_map, List.length_mapIdx]; refine inv_of ?_) | intro _ | dsimp only | split)

theorem inv_suspendEng {s0 : State} {x1 : EngRef} {x2 : Susp} {x3 : Nat} {x4 : TokKind} {x5 : Word} {x6 : Word} {x7 : Word} {x8 : Word} (h0 : Inv s0) :
    Inv (suspendEng s0 x1 x2 x3 x4 x5 x6 x7 x8) := by
  unfold suspendEng
  try dsimp only
  repeat' (with_reducible first | assumption | apply inv_addLate | apply inv_State_modEng | intro _ | dsimp only | split)

theorem inv_copyFault {s0 : State} {x1 : EngRef} {x2 : Bool} {x3 : Nat} {x4 : Nat} {x5 : Nat} (h0 : Inv s0) :
    Inv (copyFault s0 x1 x2 x3 x4 x5) := by
  unfold copyFault
  try dsimp only
  repeat' (with_reducible first | assumption | apply inv_suspendEng | intro _ | dsimp only | split)

theorem inv_engSecure {s0 : State} {x1 : EngRef} {x2 : Nat} {x3 : Nat} (h0 : Inv s0) :
    Inv (engSecure s0 x1 x2 x3) := by
  unfold engSecure
  try dsimp only
  repeat' (with_reducible first | assumption | apply inv_suspendEng | (intro _; rfl) | intro _ | dsimp only | split)

theorem inv_engPoison {s0 : State} {x1 : EngRef} {x2 : Nat} {x3 : Nat} (h0 : Inv s0) :
    Inv (engPoison s0 x1 x2 x3) := by
  unfold engPoison
  try dsimp only
  repeat' (with_reducible first | assumption | apply inv_suspendEng | intro _ | dsimp only | split)

theorem inv_writeBlock {s0 : State} {x1 : EngRef} {x2 : Nat} (h0 : Inv s0) :
    Inv (writeBlock s0 x1 x2) := by
  unfold writeBlock
  try dsimp only
  repeat' (with_reducible first | assumption | apply inv_suspendEng | intro _ | dsimp only | split)

theorem inv_countOnce {s0 : State} {x1 : EngRef} {x2 : Nat} (h0 : Inv s0) :
    Inv (countOnce s0 x1 x2) := by
  unfold countOnce
  try dsimp only
  repeat' (with_reducible first | assumption | apply inv_countBlock | apply inv_State_modEng | intro _ | dsimp only | split)

theorem inv_countAt {s0 : State} {x1 : EngRef} {x2 : Nat} {x3 : Nat} {x4 : Nat} (h0 : Inv s0) :
    Inv (countAt s0 x1 x2 x3 x4) := by
  unfold countAt
  try dsimp only
  repeat' (with_reducible first | assumption | apply inv_countOnce | (intro _; rfl) | apply inv_foldl | apply inv_foldl_fst | intro _ | dsimp only | split)

theorem inv_engWay {s0 : State} {x1 : EngRef} {x2 : Bool} {x3 : Bool} {x4 : Nat} (h0 : Inv s0) :
    Inv (engWay s0 x1 x2 x3 x4).1 := by
  unfold engWay
  try dsimp only
  repeat' (with_reducible first | assumption | apply inv_translateNow | (apply inv_fst_of; assumption) | intro _ | dsimp only | split)

theorem inv_engWalked {s0 : State} {x1 : EngRef} {x2 : Nat} {x3 : Bool} (h0 : Inv s0) :
    Inv (engWalked s0 x1 x2 x3) := by
  unfold engWalked
  try dsimp only
  repeat' (with_reducible first | assumption | apply inv_install | apply inv_State_modEng | apply inv_copyFault | apply inv_engSecure | (intro _; rfl) | (apply inv_fst_of; assumption) | (simp only [inv_mk, List.length_set, List.length_map, List.length_mapIdx]; refine inv_of ?_) | intro _ | dsimp only | split)

theorem inv_takeBack {s0 : State} {x1 : EngRef} (h0 : Inv s0) :
    Inv (takeBack s0 x1) := by
  unfold takeBack
  try dsimp only
  repeat' (with_reducible first | assumption | apply inv_State_modCopy | apply inv_State_modJob | intro _ | dsimp only | split)

theorem inv_unreachable {s0 : State} {x1 : EngRef} {x2 : Bool} {x3 : Nat × Nat} (h0 : Inv s0) :
    Inv (unreachable s0 x1 x2 x3) := by
  unfold unreachable
  try dsimp only
  repeat' (with_reducible first | assumption | apply inv_copyFault | apply inv_takeBack | intro _ | dsimp only | split)

theorem inv_putReq {s0 : State} {x1 : EngRef} {x2 : Nat} {x3 : Nat} {x4 : Bool} {x5 : ReqKind} {x6 : Bool} {x7 : Nat × Nat} (h0 : Inv s0) :
    Inv (putReq s0 x1 x2 x3 x4 x5 x6 x7) := by
  unfold putReq
  try dsimp only
  repeat' (with_reducible first | assumption | apply inv_State_modEng | (intro _; rfl) | (simp only [inv_mk, List.length_set, List.length_map, List.length_mapIdx]; refine inv_of ?_) | intro _ | dsimp only | split)

theorem inv_sendReq {s0 : State} {x1 : EngRef} {x2 : Nat} {x3 : ReqKind} {x4 : Bool} {x5 : Nat × Nat} (h0 : Inv s0) :
    Inv (sendReq s0 x1 x2 x3 x4 x5) := by
  unfold sendReq
  try dsimp only
  repeat' (with_reducible first | assumption | apply inv_unreachable | apply inv_putReq | (intro _; rfl) | (apply inv_fst_of; assumption) | (simp only [inv_mk, List.length_set, List.length_map, List.length_mapIdx]; refine inv_of ?_) | intro _ | dsimp only | split)

theorem inv_askPeer {s0 : State} {x1 : EngRef} {x2 : Nat} {x3 : Nat} (h0 : Inv s0) :
    Inv (askPeer s0 x1 x2 x3) := by
  unfold askPeer
  try dsimp only
  repeat' (with_reducible first | assumption | apply inv_sendReq | intro _ | dsimp only | split)

theorem inv_engWays {s0 : State} {x1 : EngRef} {x2 : Bool} {x3 : Bool} {x4 : Nat} {x5 : Nat} (h0 : Inv s0) :
    Inv (engWays s0 x1 x2 x3 x4 x5).1 := by
  unfold engWays
  try dsimp only
  repeat' (with_reducible first | assumption | apply inv_countRange | apply inv_engWay | (apply inv_fst_of; assumption) | intro _ | dsimp only | split)

theorem inv_waitWalk {s0 : State} {x1 : EngRef} {x2 : Nat} {x3 : Bool} (h0 : Inv s0) :
    Inv (waitWalk s0 x1 x2 x3) := by
  unfold waitWalk
  try dsimp only
  repeat' (with_reducible first | assumption | apply inv_State_modEng | intro _ | dsimp only | split)

theorem inv_reachBytes {s0 : State} {x1 : EngRef} {x2 : Bool} {x3 : List Nat} {x4 : Nat} {x5 : Option Nat} (h0 : Inv s0) :
    Inv (reachBytes s0 x1 x2 x3 x4 x5).1 := by
  unfold reachBytes
  try dsimp only
  repeat' (with_reducible first | assumption | apply inv_engPoison | apply inv_askPeer | intro _ | dsimp only | split)

theorem inv_engMeets {s0 : State} {x1 : EngRef} {x2 : List Nat} (h0 : Inv s0) :
    Inv (engMeets s0 x1 x2) := by
  unfold engMeets
  try dsimp only
  repeat' (with_reducible first | assumption | apply inv_closeReads | apply inv_landWords | apply inv_coreSees | (intro _; rfl) | (apply inv_fst_of; assumption) | (simp only [inv_mk, List.length_set, List.length_map, List.length_mapIdx]; refine inv_of ?_) | intro _ | dsimp only | split)

theorem inv_reachChip {s0 : State} {x1 : EngRef} {x2 : Bool} {x3 : Nat} {x4 : Nat} {x5 : Nat} {x6 : Nat} {x7 : List Nat → State × Reach} (h0 : Inv s0)
    (h7 : ∀ l, Inv (x7 l).1) :
    Inv (reachChip s0 x1 x2 x3 x4 x5 x6 x7).1 := by
  unfold reachChip
  try dsimp only
  repeat' (with_reducible first | assumption | apply h7 | apply inv_engSecure | (intro _; rfl) | (apply inv_fst_of; assumption) | (simp only [inv_mk, List.length_set, List.length_map, List.length_mapIdx]; refine inv_of ?_) | intro _ | dsimp only | split)

theorem inv_reachRead {s0 : State} {x1 : EngRef} {x2 : Bool} {x3 : Nat} {x4 : Nat} {x5 : Nat} {x6 : Nat} (h0 : Inv s0) :
    Inv (reachRead s0 x1 x2 x3 x4 x5 x6).1 := by
  unfold reachRead
  try dsimp only
  repeat' (with_reducible first | assumption | apply inv_engWays | apply inv_waitWalk | apply inv_reachBytes | apply inv_engMeets | apply inv_reachChip | (intro _; rfl) | (apply inv_fst_of; assumption) | (simp only [inv_mk, List.length_set, List.length_map, List.length_mapIdx]; refine inv_of ?_) | intro _ | dsimp only | split)

theorem inv_reachWrite {s0 : State} {x1 : EngRef} {x2 : Bool} {x3 : Nat} {x4 : Nat} {x5 : Nat} {x6 : Nat} (h0 : Inv s0) :
    Inv (reachWrite s0 x1 x2 x3 x4 x5 x6).1 := by
  unfold reachWrite
  try dsimp only
  repeat' (with_reducible first | assumption | apply inv_engWays | apply inv_waitWalk | apply inv_reachChip | (intro _; rfl) | (apply inv_fst_of; assumption) | (simp only [inv_mk, List.length_set, List.length_map, List.length_mapIdx]; refine inv_of ?_) | intro _ | dsimp only | split)

theorem inv_engStore {s0 : State} {x1 : EngRef} {x2 : List (Nat × Byte)} (h0 : Inv s0) :
    Inv (engStore s0 x1 x2) := by
  unfold engStore
  try dsimp only
  repeat' (with_reducible first | assumption | apply inv_State_store | apply inv_meetLoads | apply inv_State_modEng | apply inv_engMeets | intro _ | dsimp only | split)

theorem inv_flushOut {s0 : State} {x1 : EngRef} {x2 : Nat} (h0 : Inv s0) :
    Inv (flushOut s0 x1 x2).1 := by
  unfold flushOut
  try dsimp only
  repeat' (with_reducible first | assumption | apply inv_State_modEng | apply inv_sendReq | intro _ | dsimp only | split)

theorem inv_flushRest {s0 : State} {x1 : EngRef} (h0 : Inv s0) :
    Inv (flushRest s0 x1) := by
  unfold flushRest
  try dsimp only
  repeat' (with_reducible first | assumption | apply inv_flushOut | intro _ | dsimp only | split)

theorem inv_State_modMove {s0 : State} {x1 : EngRef} {x2 : Move → Move} (h0 : Inv s0) :
    Inv (State.modMove s0 x1 x2) := by
  unfold State.modMove
  try dsimp only
  repeat' (with_reducible first | assumption | apply inv_State_modCopy | apply inv_State_modJob | intro _ | dsimp only | split)

theorem inv_takeAt {s0 : State} {x1 : EngRef} {x2 : Bool} {x3 : Move} {x4 : Nat} {x5 : List Nat} (h0 : Inv s0) :
    Inv (takeAt s0 x1 x2 x3 x4 x5).1 := by
  unfold takeAt
  try dsimp only
  repeat' (with_reducible first | assumption | apply inv_engPoison | intro _ | dsimp only | split)

theorem inv_takeElem {s0 : State} {x1 : EngRef} {x2 : Bool} {x3 : Move} {x4 : Nat} (h0 : Inv s0) :
    Inv (takeElem s0 x1 x2 x3 x4).1 := by
  unfold takeElem
  try dsimp only
  repeat' (with_reducible first | assumption | apply inv_reachRead | apply inv_engMeets | apply inv_takeAt | (apply inv_fst_of; assumption) | intro _ | dsimp only | split)

theorem inv_putElemAt {s0 : State} {x1 : EngRef} {x2 : Move} {x3 : Nat} {x4 : Got} {x5 : List Nat} (h0 : Inv s0) :
    Inv (putElemAt s0 x1 x2 x3 x4 x5) := by
  unfold putElemAt
  try dsimp only
  repeat' (with_reducible first | assumption | apply inv_State_setTag | apply inv_State_modEng | apply inv_engStore | apply inv_State_modMove | apply inv_foldl | intro _ | dsimp only | split)

theorem inv_countElem {s0 : State} {x1 : EngRef} {x2 : Move} {x3 : Nat} (h0 : Inv s0) :
    Inv (countElem s0 x1 x2 x3) := by
  unfold countElem
  try dsimp only
  repeat' (with_reducible first | assumption | apply inv_countAt | (intro _; rfl) | (apply inv_fst_of; assumption) | intro _ | dsimp only | split)

theorem inv_moveElement {s0 : State} {x1 : EngRef} {x2 : Bool} {x3 : Move} {x4 : Nat} (h0 : Inv s0) :
    Inv (moveElement s0 x1 x2 x3 x4).1 := by
  unfold moveElement
  try dsimp only
  repeat' (with_reducible first | assumption | apply inv_askPeer | apply inv_reachWrite | apply inv_takeElem | apply inv_putElemAt | apply inv_countElem | (intro _; rfl) | (apply inv_fst_of; assumption) | (simp only [inv_mk, List.length_set, List.length_map, List.length_mapIdx]; refine inv_of ?_) | intro _ | dsimp only | split)

theorem inv_serveFrom {r : EngRef} {n : Nat} : ∀ {b : Option Nat} {s : State}, Inv s → Inv (serveFrom r n b s) := by
  induction n with
  | zero => intro b s h; exact h
  | succ n ih =>
    intro b s h
    unfold serveFrom
    try dsimp only
    repeat' (with_reducible first | assumption | apply ih | apply inv_State_modMove | apply inv_moveElement | (apply inv_fst_of; assumption) | intro _ | dsimp only | split)

theorem inv_keepOverlap {s0 : State} {x1 : EngRef} {x2 : Move} (h0 : Inv s0) :
    Inv (keepOverlap s0 x1 x2) := by
  unfold keepOverlap
  try dsimp only
  repeat' (with_reducible first | assumption | apply inv_engMeets | apply inv_State_modMove | (intro _; rfl) | (apply inv_fst_of; assumption) | (simp only [inv_mk, List.length_set, List.length_map, List.length_mapIdx]; refine inv_of ?_) | intro _ | dsimp only | split)

theorem inv_settleAhead {s0 : State} {x1 : EngRef} {x2 : Bool} (h0 : Inv s0) :
    Inv (settleAhead s0 x1 x2) := by
  unfold settleAhead
  try dsimp only
  repeat' (with_reducible first | assumption | apply inv_State_modMove | apply inv_moveElement | (intro _; rfl) | apply inv_foldl | apply inv_foldl_fst | (apply inv_fst_of; assumption) | (simp only [inv_mk, List.length_set, List.length_map, List.length_mapIdx]; refine inv_of ?_) | intro _ | dsimp only | split)

theorem inv_peersFirst {s : State} {r : EngRef} {d : Bool} (h : Inv s) {t : State} (e : peersFirst s r d = some t) : Inv t := by
  unfold peersFirst at e
  repeat' split at e
  all_goals first | (simp at e; done) | (cases e; exact inv_State_modEng (inv_State_modMove h))

theorem inv_serveBlock {s0 : State} {x1 : EngRef} (h0 : Inv s0) :
    Inv (serveBlock s0 x1) := by
  unfold serveBlock
  try dsimp only
  repeat' (with_reducible first | assumption | apply inv_State_unpoison | apply inv_State_modEng | apply inv_flushOut | apply inv_serveFrom | apply inv_keepOverlap | apply inv_settleAhead | (intro _; rfl) | (apply inv_fst_of; assumption) | (simp only [inv_mk, List.length_set, List.length_map, List.length_mapIdx]; refine inv_of ?_) | intro _ | dsimp only | split)

theorem inv_walkEnds {s : State} {r : EngRef} {va : Nat} {w : Bool} (h : Inv s) : Inv (walkEnds s r va w) := by
  have hs := inv_settleAhead (x1 := r) (x2 := w) h
  unfold walkEnds
  dsimp only
  split
  · cases e : peersFirst (settleAhead s r w) r w
    · exact inv_engWalked hs
    · exact inv_peersFirst hs e
  · exact inv_engWalked h

theorem inv_serveSignal {s0 : State} {x1 : Nat} {x2 : Copy} {x3 : Nat} (h0 : Inv s0) :
    Inv (serveSignal s0 x1 x2 x3) := by
  unfold serveSignal
  try dsimp only
  repeat' (with_reducible first | assumption | apply inv_State_store | apply inv_State_modCopy | apply inv_completeCopy | apply inv_load | apply inv_store | apply inv_engPoison | apply inv_countAt | apply inv_sendReq | apply inv_reachWrite | (intro _; rfl) | (apply inv_fst_of; assumption) | (simp only [inv_mk, List.length_set, List.length_map, List.length_mapIdx]; refine inv_of ?_) | intro _ | dsimp only | split)

theorem inv_copyLanded {s0 : State} {x1 : Nat} {x2 : Copy} (h0 : Inv s0) :
    Inv (copyLanded s0 x1 x2) := by
  unfold copyLanded
  try dsimp only
  repeat' (with_reducible first | assumption | apply inv_State_modCore | apply inv_completeCopy | intro _ | dsimp only | split)

theorem inv_serveCopy {s0 : State} {x1 : Nat} {x2 : Copy} (h0 : Inv s0) :
    Inv (serveCopy s0 x1 x2) := by
  unfold serveCopy
  try dsimp only
  repeat' (with_reducible first | assumption | apply inv_State_modCore | apply inv_flushRest | apply inv_serveBlock | apply inv_serveSignal | apply inv_copyLanded | intro _ | dsimp only | split)

theorem inv_takeMiss {s : State} {d : Nat} (h : Inv s) {t : State} (e : takeMiss s d = some t) : Inv t := by
  unfold takeMiss at e
  dsimp only at e
  repeat' split at e
  all_goals first
    | (simp at e; done)
    | (simp only [Option.map_eq_some_iff] at e; obtain ⟨_, _, rfl⟩ := e; exact inv_State_modDie h)

theorem inv_takeMisses {d n : Nat} : ∀ {s : State}, Inv s → Inv (takeMisses d n s) := by
  induction n with
  | zero => intro s h; exact h
  | succ n ih =>
    intro s h
    unfold takeMisses
    split
    · rename_i e; exact ih (inv_takeMiss h e)
    · exact h

theorem inv_rewalkHeld {s0 : State} {x1 : Nat} (h0 : Inv s0) :
    Inv (rewalkHeld s0 x1) := by
  unfold rewalkHeld
  try dsimp only
  repeat' (with_reducible first | assumption | apply inv_walkEnds | apply inv_foldl | intro _ | dsimp only | split)

theorem inv_strike {s0 : State} {x1 : Flaw} (h0 : Inv s0) :
    Inv (strike s0 x1) := by
  unfold strike
  try dsimp only
  repeat' (with_reducible first | assumption | apply inv_State_addPoison | apply inv_State_modGroup | apply inv_engPoison | (simp only [inv_mk]; refine inv_of ?_) | intro _ | dsimp only | split)

theorem inv_setQueued {x0 : Ins} {x1 : Bool} {x2 : Fin 8} {x3 : Bool} {s4 : State} (h4 : Inv s4) :
    Inv (setQueued x0 x1 x2 x3 s4) := by
  unfold setQueued
  try dsimp only
  repeat' (with_reducible first | assumption | apply inv_State_modGroup | intro _ | dsimp only | split)

theorem inv_noWait {x0 : Ins} {x1 : Bool} {x2 : Fin 8} {x3 : Act} (h0 : Inv x0.s) (h3 : ActInv x3) :
    ActInv (noWait x0 x1 x2 x3) := by
  unfold noWait
  try dsimp only
  repeat' (with_reducible first | assumption | apply inv_Act_done | apply inv_Act_done | apply inv_setQueued | intro _ | dsimp only | split)

theorem inv_queueCopy {x0 : Ins} {x1 : Move} {x2 : CopyKind} {x3 : Option Nat} {x4 : Bool} {x5 : List Region} {x6 : List Region} {x7 : Option Nat} {s8 : State} (h0 : Inv x0.s) (h8 : Inv s8) :
    Inv (queueCopy x0 x1 x2 x3 x4 x5 x6 x7 s8) := by
  unfold queueCopy
  try dsimp only
  repeat' (with_reducible first | assumption | apply inv_State_modCore | apply inv_dueAll | (intro _; rfl) | (simp only [inv_mk, List.length_set, List.length_map, List.length_mapIdx]; refine inv_of ?_) | intro _ | dsimp only | split)

theorem inv_bankSource {x0 : Ins} {x1 : Move} {x2 : Unit → Act} (h0 : Inv x0.s) (h2 : ∀ y0, ActInv (x2 y0)) :
    ActInv (bankSource x0 x1 x2) := by
  unfold bankSource
  try dsimp only
  repeat' (with_reducible first | assumption | exact inv_hold | apply inv_Ins_fail | apply h2 | apply inv_Ins_fail | intro _ | dsimp only | split)

theorem inv_followRoom {x0 : Ins} {x1 : Option (Product × Word)} {x2 : Unit → Act} (h0 : Inv x0.s) (h2 : ∀ y0, ActInv (x2 y0)) :
    ActInv (followRoom x0 x1 x2) := by
  unfold followRoom
  try dsimp only
  repeat' (with_reducible first | assumption | apply h2 | apply inv_writable | apply inv_queueRoom | apply inv_tableRoom | intro _ | dsimp only | split)

theorem inv_commit {x0 : Ins} {x1 : Plan} {x2 : Bool} {s3 : State} (h0 : Inv x0.s) (h3 : Inv s3) :
    Inv (commit x0 x1 x2 s3) := by
  unfold commit
  try dsimp only
  repeat' (with_reducible first | assumption | apply inv_placeEntry | apply inv_queueCopy | intro _ | dsimp only | split)

theorem inv_copyIns {x0 : Ins} {x1 : Fin 8} {x2 : Reg} {x3 : Bool} {x4 : Bool} {x5 : Bool} (h0 : Inv x0.s) :
    ActInv (copyIns x0 x1 x2 x3 x4 x5) := by
  unfold copyIns
  try dsimp only
  repeat' (with_reducible first | assumption | exact inv_hold | apply inv_Act_done | apply inv_Ins_fail | apply inv_Act_done | apply inv_Ins_fail | apply inv_unpinned | apply inv_setQueued | apply inv_noWait | apply inv_bankSource | apply inv_followRoom | apply inv_commit | intro _ | dsimp only | split)

theorem inv_engineOwn {s0 : State} {x1 : Nat} {x2 : Nat} {x3 : Nat} {x4 : Nat} (h0 : Inv s0) :
    Inv (engineOwn s0 x1 x2 x3 x4) := by
  unfold engineOwn
  try dsimp only
  repeat' (with_reducible first | assumption | apply inv_State_store | intro _ | dsimp only | split)

theorem inv_enterJob {s0 : State} {x1 : Nat} {x2 : Job} (h0 : Inv s0) :
    Inv (enterJob s0 x1 x2) := by
  unfold enterJob
  try dsimp only
  repeat' (with_reducible first | assumption | apply inv_State_modDie | apply inv_dueAll | (intro _; rfl) | (apply inv_fst_of; assumption) | (simp only [inv_mk, List.length_set, List.length_map, List.length_mapIdx]; refine inv_of ?_) | intro _ | dsimp only | split)

theorem inv_endOlder {s0 : State} {x1 : Nat} {x2 : Job} (h0 : Inv s0) :
    Inv (endOlder s0 x1 x2) := by
  unfold endOlder
  try dsimp only
  repeat' (with_reducible first | assumption | apply inv_State_modDie | apply inv_completeJob | apply inv_foldl | intro _ | dsimp only | split)

theorem inv_enterEpoch {s0 : State} {x1 : Nat} {x2 : Job} (h0 : Inv s0) :
    Inv (enterEpoch s0 x1 x2) := by
  unfold enterEpoch
  try dsimp only
  repeat' (with_reducible first | assumption | apply inv_State_modDie | apply inv_endOlder | (intro _; rfl) | (simp only [inv_mk, List.length_set, List.length_map, List.length_mapIdx]; refine inv_of ?_) | intro _ | dsimp only | split)

theorem inv_enterColl {s0 : State} {x1 : Nat} {x2 : Job} (h0 : Inv s0) :
    Inv (enterColl s0 x1 x2).1 := by
  unfold enterColl
  try dsimp only
  repeat' (with_reducible first | assumption | apply inv_State_modDie | apply inv_enterEpoch | (intro _; rfl) | (apply inv_fst_of; assumption) | (simp only [inv_mk, List.length_set, List.length_map, List.length_mapIdx]; refine inv_of ?_) | intro _ | dsimp only | split)

theorem inv_onJob {s0 : State} {x1 : Nat} {x2 : Nat} {x3 : Nat} {x4 : Job → State → State} (h0 : Inv s0) (h4 : ∀ y0 y1, Inv y1 → Inv (x4 y0 y1)) :
    Inv (onJob s0 x1 x2 x3 x4) := by
  unfold onJob
  try dsimp only
  repeat' (with_reducible first | assumption | apply h4 | apply inv_State_modJob | apply inv_completeJob | apply inv_flushRest | intro _ | dsimp only | split)

theorem inv_nextRow {s0 : State} {x1 : Nat} {x2 : Nat} (h0 : Inv s0) :
    Inv (nextRow s0 x1 x2) := by
  unfold nextRow
  try dsimp only
  repeat' (with_reducible first | assumption | apply inv_State_modJob | intro _ | dsimp only | split)

theorem inv_fillRow {s0 : State} {x1 : EngRef} {x2 : Move} (h0 : Inv s0) :
    Inv (fillRow s0 x1 x2) := by
  unfold fillRow
  try dsimp only
  repeat' (with_reducible first | assumption | apply inv_engStore | (intro _; rfl) | intro _ | dsimp only | split)

theorem inv_serveRow {s0 : State} {x1 : Nat} {x2 : Nat} {x3 : Job} {x4 : Move} (h0 : Inv s0) :
    Inv (serveRow s0 x1 x2 x3 x4) := by
  unfold serveRow
  try dsimp only
  repeat' (with_reducible first | assumption | apply inv_copyFault | apply inv_serveBlock | apply inv_nextRow | apply inv_fillRow | intro _ | dsimp only | split)

theorem inv_takeRow {s0 : State} {x1 : Nat} {x2 : Nat} {x3 : Job} {x4 : Gathering} (h0 : Inv s0) :
    Inv (takeRow s0 x1 x2 x3 x4) := by
  unfold takeRow
  try dsimp only
  repeat' (with_reducible first | assumption | apply inv_State_modJob | apply inv_countAt | apply inv_reachRead | apply inv_nextRow | (intro _; rfl) | (apply inv_fst_of; assumption) | (simp only [inv_mk, List.length_set, List.length_map, List.length_mapIdx]; refine inv_of ?_) | intro _ | dsimp only | split)

theorem inv_serveGather {s0 : State} {x1 : Nat} {x2 : Nat} {x3 : Job} (h0 : Inv s0) :
    Inv (serveGather s0 x1 x2 x3) := by
  unfold serveGather
  try dsimp only
  repeat' (with_reducible first | assumption | apply inv_completeJob | apply inv_serveRow | apply inv_takeRow | intro _ | dsimp only | split)

theorem inv_serveMain {s0 : State} {x1 : Nat} {x2 : Nat} {x3 : Job} (h0 : Inv s0) :
    Inv (serveMain s0 x1 x2 x3) := by
  unfold serveMain
  try dsimp only
  repeat' (with_reducible first | assumption | apply inv_State_modJob | apply inv_completeJob | apply inv_serveBlock | intro _ | dsimp only | split)

theorem inv_State_modStream {s0 : State} {x1 : Nat} {x2 : Nat} {x3 : Nat} {x4 : Stream → Stream} (h0 : Inv s0) :
    Inv (State.modStream s0 x1 x2 x3 x4) := by
  unfold State.modStream
  try dsimp only
  repeat' (with_reducible first | assumption | apply inv_State_modDie | intro _ | dsimp only | split)

theorem inv_reachAll {r : EngRef} {sp b : Nat} {l : List (Nat × Nat)} : ∀ {s : State}, Inv s → Inv (reachAll r sp b l s).1 := by
  induction l with
  | nil => intro s h; exact h
  | cons a l ih =>
    intro s h
    unfold reachAll
    try dsimp only
    repeat' (with_reducible first | assumption | apply ih | apply inv_reachRead | (apply inv_fst_of; assumption) | intro _ | dsimp only | split)

theorem inv_countPieces {s0 : State} {x1 : EngRef} {x2 : Nat} {x3 : List (Nat × Nat)} {x4 : List (Nat × Reach)} (h0 : Inv s0) :
    Inv (countPieces s0 x1 x2 x3 x4) := by
  unfold countPieces
  try dsimp only
  repeat' (with_reducible first | assumption | apply inv_countAt | (intro _; rfl) | apply inv_foldl | apply inv_foldl_fst | (apply inv_fst_of; assumption) | (simp only [inv_mk, List.length_set, List.length_map, List.length_mapIdx]; refine inv_of ?_) | intro _ | dsimp only | split)

theorem inv_binsMeet {s0 : State} {x1 : Nat} {x2 : Stream} {x3 : Nat} {x4 : List Bin} (h0 : Inv s0) :
    Inv (binsMeet s0 x1 x2 x3 x4) := by
  unfold binsMeet
  try dsimp only
  repeat' (with_reducible first | assumption | apply inv_landWords | (intro _; rfl) | apply inv_foldl | apply inv_foldl_fst | (apply inv_fst_of; assumption) | intro _ | dsimp only | split)

theorem inv_loadRegion {s0 : State} {x1 : Nat} {x2 : Nat} {x3 : Stream} {x4 : Nat} {x5 : List Bin} (h0 : Inv s0) :
    Inv (loadRegion s0 x1 x2 x3 x4 x5) := by
  unfold loadRegion
  try dsimp only
  repeat' (with_reducible first | assumption | apply inv_State_store | apply inv_State_modJob | apply inv_store | apply inv_reachAll | apply inv_countPieces | apply inv_binsMeet | (intro _; rfl) | (apply inv_fst_of; assumption) | (simp only [inv_mk, List.length_set, List.length_map, List.length_mapIdx]; refine inv_of ?_) | intro _ | dsimp only | split)

theorem inv_writePiece {s0 : State} {x1 : Nat} {x2 : Nat} {x3 : Stream} {x4 : Nat} {x5 : Nat × Nat} {x6 : Nat} (h0 : Inv s0) :
    Inv (writePiece s0 x1 x2 x3 x4 x5 x6) := by
  unfold writePiece
  try dsimp only
  repeat' (with_reducible first | assumption | apply inv_State_modJob | apply inv_countAt | apply inv_reachWrite | apply inv_engStore | apply inv_flushOut | (intro _; rfl) | (apply inv_fst_of; assumption) | (simp only [inv_mk, List.length_set, List.length_map, List.length_mapIdx]; refine inv_of ?_) | intro _ | dsimp only | split)

theorem inv_replayStep {s0 : State} {x1 : Nat} {x2 : Nat} {x3 : Stream} {x4 : Job} (h0 : Inv s0) :
    Inv (replayStep s0 x1 x2 x3 x4) := by
  unfold replayStep
  try dsimp only
  repeat' (with_reducible first | assumption | apply inv_State_modJob | apply inv_loadRegion | apply inv_writePiece | intro _ | dsimp only | split)

theorem inv_takeBins {s0 : State} {x1 : Nat} {x2 : Nat} {x3 : Stream} (h0 : Inv s0) :
    Inv (takeBins s0 x1 x2 x3) := by
  unfold takeBins
  try dsimp only
  repeat' (with_reducible first | assumption | apply inv_State_modJob | apply inv_State_modStream | intro _ | dsimp only | split)

theorem inv_serveReplay {s0 : State} {x1 : Nat} {x2 : Nat} {x3 : Job} (h0 : Inv s0) :
    Inv (serveReplay s0 x1 x2 x3) := by
  unfold serveReplay
  try dsimp only
  repeat' (with_reducible first | assumption | apply inv_completeJob | apply inv_replayStep | intro _ | dsimp only | split)

theorem inv_serveOpen {s0 : State} {x1 : Nat} {x2 : Nat} {x3 : Job} (h0 : Inv s0) :
    Inv (serveOpen s0 x1 x2 x3) := by
  unfold serveOpen
  try dsimp only
  repeat' (with_reducible first | assumption | apply inv_State_modDie | apply inv_completeJob | apply inv_State_modStream | apply inv_replayStep | apply inv_takeBins | intro _ | dsimp only | split)

theorem inv_runReplay {d i n : Nat} : ∀ {s : State}, Inv s → Inv (runReplay d i n s) := by
  induction n with
  | zero => intro s h; exact h
  | succ n ih =>
    intro s h
    unfold runReplay
    try dsimp only
    repeat' (with_reducible first | assumption | apply ih | apply inv_serveReplay | intro _ | dsimp only | split)

theorem inv_implicitReplay {x0 : Ins} {x1 : Stream} {s2 : State} (h0 : Inv x0.s) (h2 : Inv s2) :
    Inv (implicitReplay x0 x1 s2) := by
  unfold implicitReplay
  try dsimp only
  repeat' (with_reducible first | assumption | apply inv_State_modDie | apply inv_State_modStream | apply inv_runReplay | (simp only [inv_mk]; refine inv_of ?_) | intro _ | dsimp only | split)

theorem inv_putBin {x0 : Ins} {x1 : Stream} {x2 : Bin} {s3 : State} (h0 : Inv x0.s) (h3 : Inv s3) :
    Inv (putBin x0 x1 x2 s3) := by
  unfold putBin
  try dsimp only
  repeat' (with_reducible first | assumption | apply inv_engineOwn | apply inv_State_modStream | intro _ | dsimp only | split)

theorem inv_nextKey {s0 : State} {x1 : Nat} {x2 : Nat} {x3 : Bool} {x4 : Bool} (h0 : Inv s0) :
    Inv (nextKey s0 x1 x2 x3 x4) := by
  unfold nextKey
  try dsimp only
  repeat' (with_reducible first | assumption | apply inv_State_modJob | intro _ | dsimp only | split)

theorem inv_readKey {s0 : State} {x1 : Nat} {x2 : Nat} {x3 : Job} {x4 : Topk} (h0 : Inv s0) :
    Inv (readKey s0 x1 x2 x3 x4).1 := by
  unfold readKey
  try dsimp only
  repeat' (with_reducible first | assumption | apply inv_State_modJob | apply inv_countAt | apply inv_reachRead | (intro _; rfl) | (apply inv_fst_of; assumption) | (simp only [inv_mk, List.length_set, List.length_map, List.length_mapIdx]; refine inv_of ?_) | intro _ | dsimp only | split)

theorem inv_putOut {s0 : State} {x1 : Nat} {x2 : Nat} {x3 : Topk} {x4 : Nat} {x5 : Bool} {x6 : Word} {x7 : State → State} (h0 : Inv s0) (h7 : ∀ y0, Inv y0 → Inv (x7 y0)) :
    Inv (putOut s0 x1 x2 x3 x4 x5 x6 x7) := by
  unfold putOut
  try dsimp only
  repeat' (with_reducible first | assumption | apply h7 | apply inv_countAt | apply inv_reachBytes | apply inv_engMeets | apply inv_reachWrite | apply inv_engStore | apply inv_flushOut | (intro _; rfl) | (apply inv_fst_of; assumption) | (simp only [inv_mk, List.length_set, List.length_map, List.length_mapIdx]; refine inv_of ?_) | intro _ | dsimp only | split)

theorem inv_serveHistogram {s0 : State} {x1 : Nat} {x2 : Nat} {x3 : Job} (h0 : Inv s0) :
    Inv (serveHistogram s0 x1 x2 x3) := by
  unfold serveHistogram
  try dsimp only
  repeat' (with_reducible first | assumption | apply inv_State_modJob | apply inv_completeJob | apply inv_nextKey | apply inv_readKey | apply inv_putOut | (apply inv_fst_of; assumption) | intro _ | dsimp only | split)

theorem inv_serveSelect {s0 : State} {x1 : Nat} {x2 : Nat} {x3 : Job} (h0 : Inv s0) :
    Inv (serveSelect s0 x1 x2 x3) := by
  unfold serveSelect
  try dsimp only
  repeat' (with_reducible first | assumption | apply inv_completeJob | apply inv_nextKey | apply inv_readKey | apply inv_putOut | (apply inv_fst_of; assumption) | intro _ | dsimp only | split)

theorem inv_performStall {x0 : Ins} {x1 : Nat} {x2 : Nat} {x3 : Src} {s4 : State} (h4 : Inv s4) :
    Inv (performStall x0 x1 x2 x3 s4) := by
  unfold performStall
  try dsimp only
  repeat' (with_reducible first | assumption | apply inv_State_modGroup | apply inv_perform | (intro _; rfl) | (simp only [inv_mk, List.length_set, List.length_map, List.length_mapIdx]; refine inv_of ?_) | intro _ | dsimp only | split)

theorem inv_putWalker {s0 : State} {x1 : Nat} {x2 : Option Walker} (h0 : Inv s0) :
    Inv (putWalker s0 x1 x2) := by
  unfold putWalker
  try dsimp only
  repeat' (with_reducible first | assumption | apply inv_State_modCore | intro _ | dsimp only | split)

theorem inv_walkerEnds {s0 : State} {x1 : Nat} {x2 : Nat} {x3 : Nat} (h0 : Inv s0) :
    Inv (walkerEnds s0 x1 x2 x3) := by
  unfold walkerEnds
  try dsimp only
  repeat' (with_reducible first | assumption | apply inv_completeJob | apply inv_putWalker | intro _ | dsimp only | split)

theorem inv_walkerStops {s0 : State} {x1 : Nat} {x2 : Job} {x3 : Perf} (h0 : Inv s0) :
    Inv (walkerStops s0 x1 x2 x3) := by
  unfold walkerStops
  try dsimp only
  repeat' (with_reducible first | assumption | apply inv_addLate | apply inv_walkerEnds | intro _ | dsimp only | split)

theorem inv_walkFault {s0 : State} {x1 : Nat} {x2 : Walker} {x3 : Job} {x4 : Nat} (h0 : Inv s0) :
    Inv (walkFault s0 x1 x2 x3 x4) := by
  unfold walkFault
  try dsimp only
  repeat' (with_reducible first | assumption | apply inv_walkerStops | intro _ | dsimp only | split)

/-- A walker word keeps the invariant when its effect does. -/
theorem inv_walkWord {i : Instr} {s : State} {f : Nat → Walker → Job → State} (h : Inv s) (hf : ∀ c w j, Inv (f c w j)) :
    OutInv (walkWord i s f) := by
  unfold walkWord
  repeat' split
  all_goals first | trivial | exact hf _ _ _ | exact inv_walkFault h

theorem inv_walkSet {x0 : Instr} {x1 : Fin 16} {x2 : Walker → Word} {s3 : State} (h3 : Inv s3) :
    OutInv (walkSet x0 x1 x2 s3) := by
  unfold walkSet
  try dsimp only
  repeat' (with_reducible first | assumption | apply inv_putWalker | apply inv_walkWord | intro _ | dsimp only | split)

theorem inv_walkBranch {x0 : Instr} {x1 : BitVec 14} {x2 : Walker → Bool} {s3 : State} (h3 : Inv s3) :
    OutInv (walkBranch x0 x1 x2 s3) := by
  unfold walkBranch
  try dsimp only
  repeat' (with_reducible first | assumption | apply inv_putWalker | apply inv_walkWord | intro _ | dsimp only | split)

theorem inv_walkSees {s0 : State} {x1 : Nat} {x2 : Job} {x3 : Fin 16} (h0 : Inv s0) :
    Inv (walkSees s0 x1 x2 x3) := by
  unfold walkSees
  try dsimp only
  repeat' (with_reducible first | assumption | apply inv_coreSees | (intro _; rfl) | intro _ | dsimp only | split)

theorem inv_walkLoad {x0 : Instr} {x1 : Nat} {x2 : Fin 16} {x3 : Fin 16} {x4 : Fin 16} {x5 : BitVec 14} {s6 : State} (h6 : Inv s6) :
    OutInv (walkLoad x0 x1 x2 x3 x4 x5 s6) := by
  unfold walkLoad
  try dsimp only
  repeat' (with_reducible first | assumption | apply inv_next | apply inv_id | exact inv_hold | apply inv_Act_done | apply inv_Act_go | apply inv_Act_then_ | apply inv_Ins_raise | apply inv_Ins_fail | apply inv_park | apply inv_act | apply inv_issue | exact inv_fault | apply inv_load | apply inv_putWalker | apply inv_walkerStops | apply inv_walkFault | apply inv_walkWord | apply inv_walkSees | (intro _; rfl) | intro _ | dsimp only | split)

theorem inv_emit {s0 : State} {x1 : Nat} {x2 : Nat × Nat × Nat × Byte} {x3 : Nat} {x4 : List Byte} (h0 : Inv s0) :
    Inv (emit s0 x1 x2 x3 x4) := by
  unfold emit
  try dsimp only
  repeat' (with_reducible first | assumption | apply inv_State_store | apply inv_State_setTags | intro _ | dsimp only | split)

theorem inv_emits {s0 : State} {x1 : Nat} {x2 : Walker} {x3 : Job} {x4 : Nat × Nat × Nat × Byte} {x5 : Nat} {x6 : List Byte} (h0 : Inv s0) :
    Inv (emits s0 x1 x2 x3 x4 x5 x6) := by
  unfold emits
  try dsimp only
  repeat' (with_reducible first | assumption | apply inv_putWalker | apply inv_walkFault | apply inv_emit | intro _ | dsimp only | split)

theorem inv_emitPiece {s0 : State} {x1 : Nat} {x2 : Walker} {x3 : Job} {x4 : Nat × Nat × Nat × Byte} {x5 : Nat} {x6 : Nat} {x7 : Nat → Nat → List Byte} (h0 : Inv s0) :
    Inv (emitPiece s0 x1 x2 x3 x4 x5 x6 x7) := by
  unfold emitPiece
  try dsimp only
  repeat' (with_reducible first | assumption | apply inv_putWalker | apply inv_walkFault | apply inv_emit | intro _ | dsimp only | split)

theorem inv_onTarget {x0 : Instr} {s1 : State} {x2 : Nat → Walker → Job → Nat × Nat × Nat × Byte → State} (h1 : Inv s1) (h2 : ∀ y0 y1 y2 y3, Inv (x2 y0 y1 y2 y3)) :
    OutInv (onTarget x0 s1 x2) := by
  unfold onTarget
  try dsimp only
  repeat' (with_reducible first | assumption | apply h2 | apply inv_walkFault | apply inv_walkWord | intro _ | dsimp only | split)

theorem inv_serveWalker {s0 : State} {x1 : Nat} {x2 : Nat} (h0 : Inv s0) :
    Inv (serveWalker s0 x1 x2) := by
  unfold serveWalker
  try dsimp only
  repeat' (with_reducible first | assumption | apply inv_State_modJob | apply inv_completeJob | apply inv_dropWalker | apply inv_putWalker | intro _ | dsimp only | split)

theorem inv_onWalker {s0 : State} {x1 : Nat} {x2 : Walker → Job → State} (h0 : Inv s0) (h2 : ∀ y0 y1, Inv (x2 y0 y1)) :
    Inv (onWalker s0 x1 x2) := by
  unfold onWalker
  try dsimp only
  repeat' (with_reducible first | assumption | apply h2 | intro _ | dsimp only | split)

theorem inv_dropRange {s0 : State} {x1 : Inval} {x2 : Nat} (h0 : Inv s0) :
    Inv (dropRange s0 x1 x2) := by
  unfold dropRange
  try dsimp only
  repeat' (with_reducible first | assumption | apply inv_State_modDie | apply inv_flushGather | intro _ | dsimp only | split)

theorem inv_retranslate {s0 : State} {x1 : Nat} (h0 : Inv s0) :
    Inv (retranslate s0 x1) := by
  unfold retranslate
  try dsimp only
  repeat' (with_reducible first | assumption | apply inv_takeBack | apply inv_foldl | intro _ | dsimp only | split)

theorem inv_State_modColl {s0 : State} {x1 : Nat} {x2 : BitVec 16} {x3 : Word} {x4 : Coll → Coll} (h0 : Inv s0) :
    Inv (State.modColl s0 x1 x2 x3 x4) := by
  unfold State.modColl
  try dsimp only
  repeat' (with_reducible first | assumption | apply inv_State_modDie | intro _ | dsimp only | split)

theorem inv_sendMsg {s0 : State} {x1 : Coll} {x2 : Nat → Bool} {x3 : Nat} {x4 : Msg} {x5 : List Word} (h0 : Inv s0) :
    Inv (sendMsg s0 x1 x2 x3 x4 x5) := by
  unfold sendMsg
  try dsimp only
  repeat' (with_reducible first | assumption | (simp only [inv_mk]; refine inv_of ?_) | intro _ | dsimp only | split)

theorem inv_stage {s0 : State} {x1 : Nat} {x2 : Coll} {x3 : Msg} {x4 : List Word} (h0 : Inv s0) :
    Inv (stage s0 x1 x2 x3 x4) := by
  unfold stage
  try dsimp only
  repeat' (with_reducible first | assumption | (intro _; rfl) | (apply inv_fst_of; assumption) | (simp only [inv_mk, List.length_set, List.length_map, List.length_mapIdx]; refine inv_of ?_) | intro _ | dsimp only | split)

theorem inv_collEnds {s0 : State} {x1 : Nat} {x2 : Coll} {x3 : Nat} (h0 : Inv s0) :
    Inv (collEnds s0 x1 x2 x3) := by
  unfold collEnds
  try dsimp only
  repeat' (with_reducible first | assumption | apply inv_completeJob | apply inv_State_modColl | apply inv_foldl | intro _ | dsimp only | split)

theorem inv_collDecide {s0 : State} {x1 : Nat} {x2 : Coll} {x3 : Nat} (h0 : Inv s0) :
    Inv (collDecide s0 x1 x2 x3) := by
  unfold collDecide
  try dsimp only
  repeat' (with_reducible first | assumption | apply inv_sendMsg | apply inv_collEnds | intro _ | dsimp only | split)

theorem inv_propose {s0 : State} {x1 : Nat} {x2 : BitVec 16} {x3 : Word} {x4 : Nat} (h0 : Inv s0) :
    Inv (propose s0 x1 x2 x3 x4) := by
  unfold propose
  try dsimp only
  repeat' (with_reducible first | assumption | apply inv_State_modColl | apply inv_sendMsg | apply inv_collDecide | intro _ | dsimp only | split)

theorem inv_dropForms {s0 : State} {x1 : Nat} {x2 : BitVec 16} {x3 : Word} (h0 : Inv s0) :
    Inv (dropForms s0 x1 x2 x3) := by
  unfold dropForms
  try dsimp only
  repeat' (with_reducible first | assumption | apply inv_State_modDie | intro _ | dsimp only | split)

theorem inv_catchUp {s0 : State} {x1 : Nat} {x2 : BitVec 16} {x3 : Word} (h0 : Inv s0) :
    Inv (catchUp s0 x1 x2 x3) := by
  unfold catchUp
  try dsimp only
  repeat' (with_reducible first | assumption | apply inv_collEnds | apply inv_collDecide | intro _ | dsimp only | split)

theorem inv_tryForm {s0 : State} {x1 : Nat} {x2 : Job} (h0 : Inv s0) :
    Inv (tryForm s0 x1 x2) := by
  unfold tryForm
  try dsimp only
  repeat' (with_reducible first | assumption | apply inv_completeJob | apply inv_State_modColl | apply inv_dropForms | apply inv_catchUp | intro _ | dsimp only | split)

theorem inv_dropForm {s0 : State} {x1 : Nat} {x2 : Job} {x3 : Nat} (h0 : Inv s0) :
    Inv (dropForm s0 x1 x2 x3) := by
  unfold dropForm
  try dsimp only
  repeat' (with_reducible first | assumption | apply inv_State_modDie | apply inv_completeJob | intro _ | dsimp only | split)

theorem inv_startForm {s0 : State} {x1 : Nat} {x2 : Job} (h0 : Inv s0) :
    Inv (startForm s0 x1 x2) := by
  unfold startForm
  try dsimp only
  repeat' (with_reducible first | assumption | apply inv_State_modDie | apply inv_State_modJob | apply inv_completeJob | apply inv_engPoison | apply inv_sendMsg | apply inv_tryForm | intro _ | dsimp only | split)

theorem inv_serveForm {s0 : State} {x1 : Nat} {x2 : Job} (h0 : Inv s0) :
    Inv (serveForm s0 x1 x2) := by
  unfold serveForm
  try dsimp only
  repeat' (with_reducible first | assumption | apply inv_completeJob | apply inv_tryForm | apply inv_dropForm | apply inv_startForm | intro _ | dsimp only | split)

theorem inv_collSend {s0 : State} {x1 : Nat} {x2 : Nat} {x3 : Coll} (h0 : Inv s0) :
    Inv (collSend s0 x1 x2 x3) := by
  unfold collSend
  try dsimp only
  repeat' (with_reducible first | assumption | apply inv_State_modJob | apply inv_engStore | apply inv_flushOut | apply inv_flushRest | apply inv_sendMsg | (intro _; rfl) | (apply inv_fst_of; assumption) | (simp only [inv_mk, List.length_set, List.length_map, List.length_mapIdx]; refine inv_of ?_) | intro _ | dsimp only | split)

theorem inv_collPost {s0 : State} {x1 : Nat} {x2 : Job} {x3 : Coll} {x4 : List Word} (h0 : Inv s0) :
    Inv (collPost s0 x1 x2 x3 x4) := by
  unfold collPost
  try dsimp only
  repeat' (with_reducible first | assumption | apply inv_State_modJob | apply inv_State_modColl | apply inv_stage | apply inv_propose | apply inv_collSend | (intro _; rfl) | (simp only [inv_mk, List.length_set, List.length_map, List.length_mapIdx]; refine inv_of ?_) | intro _ | dsimp only | split)

theorem inv_collRead {s0 : State} {x1 : Nat} {x2 : Job} {x3 : Coll} (h0 : Inv s0) :
    Inv (collRead s0 x1 x2 x3) := by
  unfold collRead
  try dsimp only
  repeat' (with_reducible first | assumption | apply inv_reachAll | apply inv_countPieces | apply inv_collPost | (intro _; rfl) | (apply inv_fst_of; assumption) | (simp only [inv_mk, List.length_set, List.length_map, List.length_mapIdx]; refine inv_of ?_) | intro _ | dsimp only | split)

theorem inv_collDone {s0 : State} {x1 : Nat} {x2 : Job} {x3 : Coll} (h0 : Inv s0) :
    Inv (collDone s0 x1 x2 x3) := by
  unfold collDone
  try dsimp only
  repeat' (with_reducible first | assumption | apply inv_completeJob | apply inv_State_modColl | intro _ | dsimp only | split)

theorem inv_collWrite {s0 : State} {x1 : Nat} {x2 : Job} {x3 : List (Word × Fl)} (h0 : Inv s0) :
    Inv (collWrite s0 x1 x2 x3) := by
  unfold collWrite
  try dsimp only
  repeat' (with_reducible first | assumption | apply inv_State_modJob | apply inv_countAt | apply inv_reachWrite | apply inv_engStore | apply inv_flushOut | apply inv_engineOwn | (intro _; rfl) | apply inv_foldl | apply inv_foldl_fst | (apply inv_fst_of; assumption) | (simp only [inv_mk, List.length_set, List.length_map, List.length_mapIdx]; refine inv_of ?_) | intro _ | dsimp only | split)

theorem inv_collGo {s0 : State} {x1 : Nat} {x2 : Job} {x3 : Coll} {x4 : List Post} (h0 : Inv s0) :
    Inv (collGo s0 x1 x2 x3 x4) := by
  unfold collGo
  try dsimp only
  repeat' (with_reducible first | assumption | apply inv_flushRest | apply inv_State_modColl | apply inv_collDone | apply inv_collWrite | intro _ | dsimp only | split)

theorem inv_serveFormed {s0 : State} {x1 : Nat} {x2 : Job} {x3 : Coll} (h0 : Inv s0) :
    Inv (serveFormed s0 x1 x2 x3) := by
  unfold serveFormed
  try dsimp only
  repeat' (with_reducible first | assumption | apply inv_State_modJob | apply inv_completeJob | apply inv_collSend | apply inv_collRead | apply inv_collGo | (intro _; rfl) | (apply inv_fst_of; assumption) | (simp only [inv_mk, List.length_set, List.length_map, List.length_mapIdx]; refine inv_of ?_) | intro _ | dsimp only | split)

theorem inv_serveOp {s0 : State} {x1 : Nat} {x2 : Job} (h0 : Inv s0) :
    Inv (serveOp s0 x1 x2) := by
  unfold serveOp
  try dsimp only
  repeat' (with_reducible first | assumption | apply inv_completeJob | apply inv_serveFormed | intro _ | dsimp only | split)

theorem inv_serveColl {s0 : State} {x1 : Nat} {x2 : Nat} {x3 : Nat} (h0 : Inv s0) :
    Inv (serveColl s0 x1 x2 x3) := by
  unfold serveColl
  try dsimp only
  repeat' (with_reducible first | assumption | apply inv_completeJob | apply inv_serveForm | apply inv_serveOp | intro _ | dsimp only | split)

theorem inv_cancelJob {s0 : State} {x1 : Nat} {x2 : Job} (h0 : Inv s0) :
    Inv (cancelJob s0 x1 x2) := by
  unfold cancelJob
  try dsimp only
  repeat' (with_reducible first | assumption | apply inv_State_modJob | apply inv_completeJob | apply inv_propose | apply inv_dropForm | intro _ | dsimp only | split)

theorem inv_receive {s0 : State} {x1 : Nat} {x2 : Nat} {x3 : Msg} {x4 : List Word} (h0 : Inv s0) :
    Inv (receive s0 x1 x2 x3 x4) := by
  unfold receive
  try dsimp only
  repeat' (with_reducible first | assumption | (simp only [inv_mk]; refine inv_of ?_) | intro _ | dsimp only | split)

theorem inv_unstage {s0 : State} {x1 : Nat} {x2 : Msg} {x3 : Nat} (h0 : Inv s0) :
    Inv (unstage s0 x1 x2 x3) := by
  unfold unstage
  try dsimp only
  repeat' (with_reducible first | assumption | apply inv_State_modDie | (intro _; rfl) | (apply inv_fst_of; assumption) | (simp only [inv_mk, List.length_set, List.length_map, List.length_mapIdx]; refine inv_of ?_) | intro _ | dsimp only | split)

theorem inv_send {s0 : State} {x1 : Sent} (h0 : Inv s0) :
    Inv (send s0 x1) := by
  unfold send
  try dsimp only
  repeat' (with_reducible first | assumption | (simp only [inv_mk]; refine inv_of ?_) | intro _ | dsimp only | split)

theorem inv_trySignal {s0 : State} {x1 : Nat} {x2 : Nat} (h0 : Inv s0) :
    Inv (trySignal s0 x1 x2) := by
  unfold trySignal
  try dsimp only
  repeat' (with_reducible first | assumption | apply inv_State_store | apply inv_send | (simp only [inv_mk]; refine inv_of ?_) | intro _ | dsimp only | split)

theorem inv_openTag {s0 : State} {x1 : Nat} {x2 : Nat} (h0 : Inv s0) :
    Inv (openTag s0 x1 x2) := by
  unfold openTag
  try dsimp only
  repeat' (with_reducible first | assumption | (simp only [inv_mk]; refine inv_of ?_) | intro _ | dsimp only | split)

theorem inv_modTag {s0 : State} {x1 : Nat} {x2 : Nat} {x3 : SigTag → SigTag} (h0 : Inv s0) :
    Inv (modTag s0 x1 x2 x3) := by
  unfold modTag
  try dsimp only
  repeat' (with_reducible first | assumption | (simp only [inv_mk]; refine inv_of ?_) | intro _ | dsimp only | split)

theorem inv_stageBytes {s0 : State} {x1 : Nat} {x2 : List (Nat × Byte)} (h0 : Inv s0) :
    Inv (stageBytes s0 x1 x2) := by
  unfold stageBytes
  try dsimp only
  repeat' (with_reducible first | assumption | apply inv_State_modDie | (intro _; rfl) | (apply inv_fst_of; assumption) | (simp only [inv_mk, List.length_set, List.length_map, List.length_mapIdx]; refine inv_of ?_) | intro _ | dsimp only | split)

theorem inv_dropReq {s0 : State} {x1 : Nat} (h0 : Inv s0) :
    Inv (dropReq s0 x1) := by
  unfold dropReq
  try dsimp only
  repeat' (with_reducible first | assumption | (simp only [inv_mk]; refine inv_of ?_) | intro _ | dsimp only | split)

theorem inv_reqFails {s0 : State} {x1 : Req} (h0 : Inv s0) :
    Inv (reqFails s0 x1) := by
  unfold reqFails
  try dsimp only
  repeat' (with_reducible first | assumption | apply inv_unreachable | apply inv_settleAhead | apply inv_dropReq | intro _ | dsimp only | split)

theorem inv_reqCompletes {s0 : State} {x1 : Nat} {x2 : ReqKind → Bool} {x3 : Bool} {x4 : ReqKind → Eng → Eng} (h0 : Inv s0) :
    Inv (reqCompletes s0 x1 x2 x3 x4) := by
  unfold reqCompletes
  try dsimp only
  repeat' (with_reducible first | assumption | apply inv_State_modEng | apply inv_dropReq | apply inv_reqFails | intro _ | dsimp only | split)

theorem inv_resendOrFail {s0 : State} {x1 : Req} (h0 : Inv s0) :
    Inv (resendOrFail s0 x1) := by
  unfold resendOrFail
  try dsimp only
  repeat' (with_reducible first | assumption | apply inv_send | apply inv_reqFails | (simp only [inv_mk]; refine inv_of ?_) | intro _ | dsimp only | split)

theorem inv_distReach {a w : Bool} {l : List (Nat × Nat)} : ∀ {s : State}, Inv s → Inv (distReach a w l s).1 := by
  induction l with
  | nil => intro s h; exact h
  | cons a l ih =>
    intro s h
    unfold distReach
    try dsimp only
    repeat' (with_reducible first | assumption | apply ih | apply inv_translateNow | (apply inv_fst_of; assumption) | intro _ | dsimp only | split)

theorem inv_distRead {s0 : State} {x1 : Bool} {x2 : Nat} {x3 : Nat} (h0 : Inv s0) :
    Inv (distRead s0 x1 x2 x3).1 := by
  unfold distRead
  try dsimp only
  repeat' (with_reducible first | assumption | apply inv_distReach | (apply inv_fst_of; assumption) | intro _ | dsimp only | split)

theorem inv_distWrite {s0 : State} {x1 : Bool} {x2 : Nat} {x3 : List Byte} (h0 : Inv s0) :
    Inv (distWrite s0 x1 x2 x3).1 := by
  unfold distWrite
  try dsimp only
  repeat' (with_reducible first | assumption | apply inv_State_store | apply inv_distReach | (apply inv_fst_of; assumption) | intro _ | dsimp only | split)

theorem inv_lostCompletion {s0 : State} {x1 : Nat} {x2 : Nat} (h0 : Inv s0) :
    Inv (lostCompletion s0 x1 x2) := by
  unfold lostCompletion
  try dsimp only
  repeat' (with_reducible first | assumption | (simp only [inv_mk]; refine inv_of ?_) | intro _ | dsimp only | split)

theorem inv_dropGrid {s0 : State} {x1 : Nat} (h0 : Inv s0) :
    Inv (dropGrid s0 x1) := by
  unfold dropGrid
  try dsimp only
  repeat' (with_reducible first | assumption | (simp only [inv_mk, List.length_map]; refine inv_of ?_) | intro _ | dsimp only | split)

theorem inv_completeGrid {s0 : State} {x1 : Nat} (h0 : Inv s0) :
    Inv (completeGrid s0 x1) := by
  unfold completeGrid
  try dsimp only
  repeat' (with_reducible first | assumption | apply inv_State_setGrid | apply inv_distWrite | apply inv_lostCompletion | apply inv_dropGrid | (apply inv_fst_of; assumption) | intro _ | dsimp only | split)

theorem inv_stopJob {s0 : State} {x1 : Nat} {x2 : Job} (h0 : Inv s0) :
    Inv (stopJob s0 x1 x2) := by
  unfold stopJob
  try dsimp only
  repeat' (with_reducible first | assumption | apply inv_State_modJob | apply inv_completeJob | apply inv_dropWalker | apply inv_propose | apply inv_dropForm | intro _ | dsimp only | split)

theorem inv_stopJobs {s0 : State} {x1 : Nat} (h0 : Inv s0) :
    Inv (stopJobs s0 x1) := by
  unfold stopJobs
  try dsimp only
  repeat' (with_reducible first | assumption | apply inv_propose | apply inv_stopJob | apply inv_foldl | intro _ | dsimp only | split)

theorem inv_stopEngines {s0 : State} {x1 : Nat} (h0 : Inv s0) :
    Inv (stopEngines s0 x1) := by
  unfold stopEngines
  try dsimp only
  repeat' (with_reducible first | assumption | apply inv_State_modCore | apply inv_State_dropCopy | apply inv_flushCounted | apply inv_foldl | intro _ | dsimp only | split)

theorem inv_freeTeams {s0 : State} {x1 : Nat} (h0 : Inv s0) :
    Inv (freeTeams s0 x1) := by
  unfold freeTeams
  try dsimp only
  repeat' (with_reducible first | assumption | (simp only [inv_mk, List.length_mapIdx]; refine inv_of ?_) | intro _ | dsimp only | split)

theorem inv_dropJobs {s0 : State} {x1 : Nat} (h0 : Inv s0) :
    Inv (dropJobs s0 x1) := by
  unfold dropJobs
  try dsimp only
  repeat' (with_reducible first | assumption | (simp only [inv_mk, List.length_map]; refine inv_of ?_) | intro _ | dsimp only | split)

theorem inv_serveEnding {s0 : State} {x1 : Nat} (h0 : Inv s0) :
    Inv (serveEnding s0 x1) := by
  unfold serveEnding
  try dsimp only
  repeat' (with_reducible first | assumption | apply inv_completeGrid | apply inv_stopJobs | apply inv_stopEngines | apply inv_freeTeams | apply inv_dropJobs | intro _ | dsimp only | split)

theorem inv_cancelGrid {s0 : State} {x1 : Nat} (h0 : Inv s0) :
    Inv (cancelGrid s0 x1) := by
  unfold cancelGrid
  try dsimp only
  repeat' (with_reducible first | assumption | apply inv_endGrid | intro _ | dsimp only | split)

theorem inv_reject {s0 : State} {x1 : Grid} {x2 : Nat} {x3 : Nat} (h0 : Inv s0) :
    Inv (reject s0 x1 x2 x3) := by
  unfold reject
  try dsimp only
  repeat' (with_reducible first | assumption | apply inv_completeGrid | (simp only [inv_mk]; refine inv_of ?_) | intro _ | dsimp only | split)

theorem inv_freshImage {s0 : State} {x1 : Nat} {x2 : Nat} (h0 : Inv s0) :
    Inv (freshImage s0 x1 x2) := by
  unfold freshImage
  try dsimp only
  repeat' (with_reducible first | assumption | (intro _; rfl) | (simp only [inv_mk, List.length_set, List.length_map, List.length_mapIdx]; refine inv_of ?_) | intro _ | dsimp only | split)

theorem inv_putImage {s0 : State} {x1 : Grid} {x2 : List Byte} {x3 : List Byte} (h0 : Inv s0) :
    Inv (putImage s0 x1 x2 x3).1 := by
  unfold putImage
  try dsimp only
  repeat' (with_reducible first | assumption | apply inv_State_store | apply inv_store | apply inv_freshImage | (intro _; rfl) | (simp only [inv_mk, List.length_set, List.length_map, List.length_mapIdx]; refine inv_of ?_) | intro _ | dsimp only | split)

theorem inv_addressBreak {s0 : State} {x1 : Launch} (h0 : Inv s0) :
    Inv (addressBreak s0 x1).1 := by
  unfold addressBreak
  try dsimp only
  repeat' (with_reducible first | assumption | apply inv_distRead | (apply inv_fst_of; assumption) | intro _ | dsimp only | split)

theorem inv_readObject {s0 : State} {x1 : Launch} (h0 : Inv s0) :
    Inv (readObject s0 x1).1 := by
  unfold readObject
  try dsimp only
  repeat' (with_reducible first | assumption | apply inv_distRead | (apply inv_fst_of; assumption) | intro _ | dsimp only | split)

theorem inv_acceptLaunch {s0 : State} {x1 : Grid} {x2 : Object} {x3 : Chosen} (h0 : Inv s0) :
    Inv (acceptLaunch s0 x1 x2 x3) := by
  unfold acceptLaunch
  try dsimp only
  repeat' (with_reducible first | assumption | apply inv_distRead | apply inv_reject | apply inv_putImage | (apply inv_fst_of; assumption) | (simp only [inv_mk]; refine inv_of ?_) | intro _ | dsimp only | split)

theorem inv_loadLaunch {s0 : State} {x1 : Queue} {x2 : Grid} {x3 : List Byte} (h0 : Inv s0) :
    Inv (loadLaunch s0 x1 x2 x3) := by
  unfold loadLaunch
  try dsimp only
  repeat' (with_reducible first | assumption | apply inv_reject | apply inv_addressBreak | apply inv_readObject | apply inv_acceptLaunch | (apply inv_fst_of; assumption) | intro _ | dsimp only | split)

theorem inv_compOk {s0 : State} {x1 : Bool} {x2 : Nat} (h0 : Inv s0) :
    Inv (compOk s0 x1 x2).1 := by
  unfold compOk
  try dsimp only
  repeat' (with_reducible first | assumption | apply inv_distReach | (apply inv_fst_of; assumption) | intro _ | dsimp only | split)

theorem inv_takeRecord {s0 : State} {x1 : Nat} {x2 : Queue} (h0 : Inv s0) :
    Inv (takeRecord s0 x1 x2) := by
  unfold takeRecord
  try dsimp only
  repeat' (with_reducible first | assumption | apply inv_lostCompletion | apply inv_reject | apply inv_loadLaunch | apply inv_compOk | (apply inv_fst_of; assumption) | (simp only [inv_mk, List.length_set]; refine inv_of ?_) | intro _ | dsimp only | split)

theorem inv_editMap {x0 : Ins} {x1 : List (BitVec 7) × BitVec 7} (h0 : Inv x0.s) :
    Inv (editMap x0 x1) := by
  unfold editMap
  try dsimp only
  repeat' (with_reducible first | assumption | apply inv_putVec | intro _ | dsimp only | split)

theorem inv_putIdent {x0 : Ins} {x1 : Nat → Word} (h0 : Inv x0.s) :
    Inv (putIdent x0 x1) := by
  unfold putIdent
  try dsimp only
  repeat' (with_reducible first | assumption | apply inv_putVec | intro _ | dsimp only | split)

theorem inv_withToken {x0 : Ins} {x1 : Fin 4} {x2 : Ctx → Act} (h0 : Inv x0.s) (h2 : ∀ y0, ActInv (x2 y0)) :
    ActInv (withToken x0 x1 x2) := by
  unfold withToken
  try dsimp only
  repeat' (with_reducible first | assumption | apply inv_Ins_fail | apply h2 | apply inv_Ins_fail | intro _ | dsimp only | split)

theorem inv_advanceGens {s0 : State} {x1 : Nat} {x2 : List Nat} (h0 : Inv s0) :
    Inv (advanceGens s0 x1 x2) := by
  unfold advanceGens
  try dsimp only
  repeat' (with_reducible first | assumption | apply inv_State_modCore | intro _ | dsimp only | split)

theorem inv_reown {s0 : State} {x1 : List Former} {x2 : GKey} (h0 : Inv s0) :
    Inv (reown s0 x1 x2) := by
  unfold reown
  try dsimp only
  repeat' (with_reducible first | assumption | apply inv_State_modCore | (simp only [inv_mk, List.length_map]; refine inv_of ?_) | intro _ | dsimp only | split)

theorem inv_forgetParts {s0 : State} {x1 : Nat} {x2 : Nat} (h0 : Inv s0) :
    Inv (forgetParts s0 x1 x2) := by
  unfold forgetParts
  try dsimp only
  repeat' (with_reducible first | assumption | apply inv_State_modTeam | intro _ | dsimp only | split)

theorem inv_replaceGroups {s0 : State} {x1 : Nat} {x2 : List Group} {x3 : List Group} {x4 : List Nat} (h0 : Inv s0) :
    Inv (replaceGroups s0 x1 x2 x3 x4) := by
  unfold replaceGroups
  try dsimp only
  repeat' (with_reducible first | assumption | apply inv_advanceGens | apply inv_reown | (simp only [inv_mk]; refine inv_of ?_) | intro _ | dsimp only | split)

theorem inv_widthStatus {x0 : Ins} {x1 : Reg} {x2 : Nat} (h0 : Inv x0.s) :
    ActInv (widthStatus x0 x1 x2) := by
  unfold widthStatus
  try dsimp only
  repeat' (with_reducible first | assumption | apply inv_Act_done | apply inv_Ins_mod | apply inv_Act_done | intro _ | dsimp only | split)

theorem inv_copyCalls {s0 : State} {x1 : Group} {x2 : Nat} (h0 : Inv s0) :
    Inv (copyCalls s0 x1 x2) := by
  unfold copyCalls
  try dsimp only
  repeat' (with_reducible first | assumption | apply inv_State_store | apply inv_foldl | intro _ | dsimp only | split)

theorem inv_splitParts {x0 : Reg} {x1 : Option Loop × Pos} {x2 : Nat} {x3 : GKey} {s4 : State} (h4 : Inv s4) :
    Inv (splitParts x0 x1 x2 x3 s4) := by
  unfold splitParts
  try dsimp only
  repeat' (with_reducible first | assumption | apply inv_replaceGroups | apply inv_copyCalls | intro _ | dsimp only | split)

theorem inv_splitMembers {x0 : Reg} {x1 : Option Loop × Pos} {x2 : GKey} {s3 : State} (h3 : Inv s3) :
    Inv (splitMembers x0 x1 x2 s3) := by
  unfold splitMembers
  try dsimp only
  repeat' (with_reducible first | assumption | apply inv_replaceGroups | intro _ | dsimp only | split)

theorem waitingFuse_inv {s : State} {k : GKey} {p : Waiting} (h : Inv s) (e : waitingFuse s k = some p) : Inv p.x.s := by
  unfold waitingFuse at e
  simp only [Option.bind_eq_some_iff] at e
  obtain ⟨g, _, iss, _, e⟩ := e
  split at e
  · simp at e
  · split at e
    · simp only [Option.some.injEq] at e
      subst e; exact inv_mkIns h
    · simp at e

theorem inv_endWait {s : State} {k : GKey} {n : Nat} (h : Inv s) : Inv (endWait s k n) := by
  unfold endWait
  split
  · rename_i e
    have hx := waitingFuse_inv h e
    exact inv_finish (inv_Ins_mod hx) fun s hs => hs
  · exact h

theorem inv_fuseGroups {x0 : List GKey} {x1 : List Reg} {x2 : Option Loop × Pos} {x3 : Nat} {s4 : State} (h4 : Inv s4) :
    Inv (fuseGroups x0 x1 x2 x3 s4) := by
  unfold fuseGroups
  try dsimp only
  repeat' (with_reducible first | assumption | apply inv_forgetParts | apply inv_replaceGroups | intro _ | dsimp only | split)

theorem inv_rendezvous {x0 : Ins} {x1 : Reg} {x2 : Nat} {x3 : List Waiting} (h0 : Inv x0.s) :
    ActInv (rendezvous x0 x1 x2 x3) := by
  unfold rendezvous
  try dsimp only
  repeat' (with_reducible first | assumption | apply inv_Act_then_ | apply inv_act | apply inv_Ins_mod | apply inv_Act_then_ | apply inv_endWait | apply inv_fuseGroups | apply inv_foldl | intro _ | dsimp only | split)

theorem inv_placeData {s0 : State} {x1 : Grid} {x2 : Nat} {x3 : Nat} (h0 : Inv s0) :
    Inv (placeData s0 x1 x2 x3) := by
  unfold placeData
  try dsimp only
  repeat' (with_reducible first | assumption | apply inv_State_store | apply inv_State_setTags | apply inv_foldl | intro _ | dsimp only | split)

theorem inv_openWindow {s0 : State} {x1 : Nat} {x2 : Nat} (h0 : Inv s0) :
    Inv (openWindow s0 x1 x2) := by
  unfold openWindow
  repeat' (with_reducible first | assumption | split)
  dsimp only
  simp only [inv_mk]
  exact inv_of (inv_placeData (inv_State_setGrid h0))

theorem inv_startTeam {s0 : State} {x1 : Grid} {x2 : Nat} {x3 : Nat} {x4 : Nat} {x5 : Nat × Nat × Nat} {x6 : Nat} (h0 : Inv s0) :
    Inv (startTeam s0 x1 x2 x3 x4 x5 x6) := by
  unfold startTeam
  try dsimp only
  repeat' (with_reducible first | assumption | apply inv_advanceGens | (simp only [inv_mk]; refine inv_of ?_) | intro _ | dsimp only | split)

theorem inv_startCluster {s0 : State} {x1 : Grid} {x2 : Nat} {x3 : Nat} {x4 : Nat} {x5 : Nat} {x6 : List (Nat × Nat)} (h0 : Inv s0) :
    Inv (startCluster s0 x1 x2 x3 x4 x5 x6) := by
  unfold startCluster
  try dsimp only
  repeat' (with_reducible first | assumption | apply inv_State_modGrid | apply inv_openWindow | apply inv_startTeam | apply inv_foldl | intro _ | dsimp only | split)

theorem inv_setReserv {s0 : State} {x1 : Grid} {x2 : Nat} {x3 : Nat} {x4 : Nat} (h0 : Inv s0) :
    Inv (setReserv s0 x1 x2 x3 x4) := by
  unfold setReserv
  try dsimp only
  repeat' (with_reducible first | assumption | (simp only [inv_mk]; refine inv_of ?_) | intro _ | dsimp only | split)

theorem inv_reserveRect {s0 : State} {x1 : Grid} {x2 : Nat → Bool} {x3 : Nat} {x4 : Nat} (h0 : Inv s0) :
    Inv (reserveRect s0 x1 x2 x3 x4) := by
  unfold reserveRect
  try dsimp only
  repeat' (with_reducible first | assumption | apply inv_setReserv | intro _ | dsimp only | split)

theorem inv_endReserv {s0 : State} {x1 : Nat} {x2 : Reserv → Bool} (h0 : Inv s0) :
    Inv (endReserv s0 x1 x2) := by
  unfold endReserv
  try dsimp only
  repeat' (with_reducible first | assumption | (simp only [inv_mk]; refine inv_of ?_) | intro _ | dsimp only | split)

theorem inv_reserveMapped {s0 : State} {x1 : Grid} (h0 : Inv s0) :
    Inv (reserveMapped s0 x1) := by
  unfold reserveMapped
  try dsimp only
  repeat' (with_reducible first | assumption | apply inv_setReserv | apply inv_foldl | intro _ | dsimp only | split)

theorem inv_placeMapped {s0 : State} {x1 : Grid} (h0 : Inv s0) :
    Inv (placeMapped s0 x1) := by
  unfold placeMapped
  try dsimp only
  repeat' (with_reducible first | assumption | apply inv_startCluster | apply inv_endReserv | apply inv_reserveMapped | intro _ | dsimp only | split)

theorem inv_placeNext {s0 : State} {x1 : Grid} (h0 : Inv s0) :
    Inv (placeNext s0 x1) := by
  unfold placeNext
  try dsimp only
  repeat' (with_reducible first | assumption | apply inv_startCluster | apply inv_reserveRect | apply inv_endReserv | intro _ | dsimp only | split)

theorem inv_leaveCore {s0 : State} {x1 : SavedTeam} (h0 : Inv s0) :
    Inv (leaveCore s0 x1) := by
  unfold leaveCore
  try dsimp only
  repeat' (with_reducible first | assumption | apply inv_State_modCore | (simp only [inv_mk, List.length_mapIdx]; refine inv_of ?_) | intro _ | dsimp only | split)

theorem inv_writeDump {s0 : State} {x1 : Grid} {x2 : List SavedTeam} (h0 : Inv s0) :
    Inv (writeDump s0 x1 x2) := by
  unfold writeDump
  try dsimp only
  repeat' (with_reducible first | assumption | apply inv_State_store | apply inv_foldl | (simp only [inv_mk]; refine inv_of ?_) | intro _ | dsimp only | split)

theorem inv_saveGrid {s0 : State} {x1 : Grid} (h0 : Inv s0) :
    Inv (saveGrid s0 x1) := by
  unfold saveGrid
  try dsimp only
  repeat' (with_reducible first | assumption | apply inv_State_modCore | apply inv_State_setGrid | apply inv_endReserv | apply inv_leaveCore | apply inv_writeDump | (intro _; rfl) | apply inv_foldl | apply inv_foldl_fst | (apply inv_fst_of; assumption) | (simp only [inv_mk, List.length_set, List.length_map, List.length_mapIdx]; refine inv_of ?_) | intro _ | dsimp only | split)

theorem inv_putMemory {s0 : State} {x1 : SavedTeam} {x2 : Home} (h0 : Inv s0) :
    Inv (putMemory s0 x1 x2) := by
  unfold putMemory
  try dsimp only
  repeat' (with_reducible first | assumption | apply inv_State_store | apply inv_State_addPoison | apply inv_State_setTags | apply inv_foldl | intro _ | dsimp only | split)

theorem inv_applyHeld {s0 : State} {x1 : Team} {x2 : Home} {x3 : List HeldArrival} (h0 : Inv s0) :
    Inv (applyHeld s0 x1 x2 x3) := by
  unfold applyHeld
  try dsimp only
  repeat' (with_reducible first | assumption | apply inv_engineArrives | apply inv_foldl | intro _ | dsimp only | split)

theorem inv_putTeam {s0 : State} {x1 : SavedTeam} {x2 : Nat} {x3 : Home} (h0 : Inv s0) :
    Inv (putTeam s0 x1 x2 x3) := by
  unfold putTeam
  try dsimp only
  repeat' (with_reducible first | assumption | apply inv_State_modCore | apply inv_State_modDie | apply inv_putMemory | apply inv_applyHeld | (simp only [inv_mk]; refine inv_of ?_) | intro _ | dsimp only | split)

theorem inv_restoreAll {g : Grid} {l : List (List SavedTeam)} : ∀ {s : State}, Inv s → Inv (restoreAll g l s).1 := by
  induction l with
  | nil => intro s h; exact h
  | cons a l ih =>
    intro s h
    unfold restoreAll
    try dsimp only
    repeat' (with_reducible first | assumption | apply ih | apply inv_putTeam | apply inv_foldl | intro _ | dsimp only | split)

theorem inv_putWalkers {x0 : Grid} {s1 : State} (h1 : Inv s1) :
    Inv (putWalkers x0 s1) := by
  unfold putWalkers
  try dsimp only
  repeat' (with_reducible first | assumption | apply inv_State_modCore | (intro _; rfl) | apply inv_foldl | apply inv_foldl_fst | (apply inv_fst_of; assumption) | (simp only [inv_mk, List.length_set, List.length_map, List.length_mapIdx]; refine inv_of ?_) | intro _ | dsimp only | split)

theorem inv_restoreGrid {s0 : State} {x1 : Grid} (h0 : Inv s0) :
    Inv (restoreGrid s0 x1) := by
  unfold restoreGrid
  try dsimp only
  repeat' (with_reducible first | assumption | apply inv_State_modGrid | apply inv_tryRetire | apply inv_reserveRect | apply inv_endReserv | apply inv_restoreAll | apply inv_putWalkers | (intro _; rfl) | apply inv_foldl | apply inv_foldl_fst | (apply inv_fst_of; assumption) | (simp only [inv_mk, List.length_set, List.length_map, List.length_mapIdx]; refine inv_of ?_) | intro _ | dsimp only | split)

theorem inv_setWorld {s0 : State} {x1 : Nat} {x2 : Word} (h0 : Inv s0) :
    Inv (setWorld s0 x1 x2) := by
  unfold setWorld
  try dsimp only
  repeat' (with_reducible first | assumption | (simp only [inv_mk, List.length_mapIdx]; refine inv_of ?_) | intro _ | dsimp only | split)

theorem inv_modQueue {s : State} {q : Nat} {f : Queue → Queue} (h : Inv s) : Inv (modQueue s q f) := by
  unfold modQueue modAt
  simp only [inv_mk]
  split
  · simp only [List.length_set]; exact h
  · exact h

/-- An update of the platform's registers that leaves the clock keeps the invariant. -/
theorem inv_modPlat {s : State} {f : Platform → Platform} (h : Inv s) (hf : ∀ p, (f p).clockMHz = p.clockMHz) :
    Inv (modPlat s f) := by
  unfold modPlat
  simp only [inv_mk, hf]
  exact h

theorem inv_setRoute {s0 : State} {x1 : Nat} {x2 : Nat} {x3 : Nat} (h0 : Inv s0) :
    Inv (setRoute s0 x1 x2 x3) := by
  unfold setRoute
  try dsimp only
  repeat' (with_reducible first | assumption | (simp only [inv_mk]; refine inv_of ?_) | intro _ | dsimp only | split)

theorem inv_modTr {s0 : State} {x1 : Nat} {x2 : Ring → Ring} (h0 : Inv s0) :
    Inv (modTr s0 x1 x2) := by
  unfold modTr
  try dsimp only
  repeat' (with_reducible first | assumption | apply inv_State_modDie | intro _ | dsimp only | split)

theorem inv_modSt {s0 : State} {x1 : Nat} {x2 : Ring → Ring} (h0 : Inv s0) :
    Inv (modSt s0 x1 x2) := by
  unfold modSt
  try dsimp only
  repeat' (with_reducible first | assumption | apply inv_State_modDie | intro _ | dsimp only | split)

theorem inv_setRoot {s0 : State} {x1 : Bool} {x2 : Nat → Nat} (h0 : Inv s0) :
    Inv (setRoot s0 x1 x2) := by
  unfold setRoot
  try dsimp only
  repeat' (with_reducible first | assumption | (simp only [inv_mk]; refine inv_of ?_) | intro _ | dsimp only | split)

theorem inv_writePlain {s0 : State} {x1 : Bool} {x2 : HostReg} {x3 : Word} (h0 : Inv s0) :
    Inv (writePlain s0 x1 x2 x3) := by
  unfold writePlain
  try dsimp only
  repeat' (with_reducible first | assumption | apply inv_State_modDie | apply inv_setWorld | apply inv_modQueue | apply inv_modPlat | apply inv_setRoute | apply inv_modTr | apply inv_modSt | apply inv_setRoot | (intro _; rfl) | (simp only [inv_mk]; refine inv_of ?_) | intro _ | dsimp only | split)

theorem inv_refuseHost {s0 : State} (h0 : Inv s0) :
    Inv (refuseHost s0) := by
  unfold refuseHost
  try dsimp only
  repeat' (with_reducible first | assumption | apply inv_modPlat | (intro _; rfl) | intro _ | dsimp only | split)

theorem inv_writeResidents {s0 : State} {x1 : Nat} (h0 : Inv s0) :
    Inv (writeResidents s0 x1) := by
  unfold writeResidents
  try dsimp only
  repeat' (with_reducible first | assumption | apply inv_State_modDie | apply inv_State_traceWrite | apply inv_foldl | intro _ | dsimp only | split)

theorem inv_charge {s0 : State} {x1 : Nat} {x2 : Nat} (h0 : Inv s0) :
    Inv (charge s0 x1 x2) := by
  unfold charge
  try dsimp only
  repeat' (with_reducible first | assumption | apply inv_State_modGrid | intro _ | dsimp only | split)

theorem inv_shareOut {s0 : State} {x1 : Nat} {x2 : List (Nat × Nat)} (h0 : Inv s0) :
    Inv (shareOut s0 x1 x2) := by
  unfold shareOut
  try dsimp only
  repeat' (with_reducible first | assumption | apply inv_charge | apply inv_foldl | intro _ | dsimp only | split)

theorem inv_bringUp {s : State} {f : Nat → Nat} (h : Inv s) : Inv (bringUp s f) := by
  unfold bringUp
  simp only [inv_mk, List.length_mapIdx]
  refine { h with count := by simp, lanes := ?_ }
  intro p hp
  simp only [List.mem_map, List.mem_range] at hp
  obtain ⟨n, _, rfl⟩ := hp
  have : f (400 + n) % 4 < 4 := Nat.mod_lt _ (by decide)
  generalize f (400 + n) % 4 = m at this
  match m, this with
  | 0, _ => decide
  | 1, _ => decide
  | 2, _ => decide
  | 3, _ => decide

theorem inv_readImage {s0 : State} {x1 : List Byte} (h0 : Inv s0) :
    Inv (readImage s0 x1) := by
  unfold readImage
  try dsimp only
  repeat' (with_reducible first | assumption | apply inv_State_store | intro _ | dsimp only | split)

theorem inv_runImage {s : State} {b : List Byte} (h : Inv s) : Inv (runImage s b) := by
  unfold runImage
  dsimp only
  refine inv_bringUp (inv_modPlat ?_ fun _ => rfl)
  simp only [inv_mk]
  exact invOf_filter h

theorem inv_outsideHandler {x0 : Ins} {x1 : Act} (h0 : Inv x0.s) (h1 : ActInv x1) :
    ActInv (outsideHandler x0 x1) := by
  unfold outsideHandler
  try dsimp only
  repeat' (with_reducible first | assumption | apply inv_Ins_fail | apply inv_Ins_fail | intro _ | dsimp only | split)

theorem inv_arriveAt {x0 : Ins} {x1 : Nat} {x2 : Bool} {x3 : Option Nat} (h0 : Inv x0.s) :
    ActInv (arriveAt x0 x1 x2 x3) := by
  unfold arriveAt
  try dsimp only
  repeat' (with_reducible first | assumption | apply inv_Act_done | apply inv_Ins_mod | apply inv_Act_done | apply inv_outsideHandler | intro _ | dsimp only | split)

theorem inv_systemAct {s0 : State} {x1 : GKey} {x2 : Pend} (h0 : Inv s0) :
    Inv (systemAct s0 x1 x2) := by
  unfold systemAct
  try dsimp only
  repeat' (with_reducible first | assumption | apply inv_State_modGroup | apply inv_State_modCore | intro _ | dsimp only | split)

theorem inv_complete {s0 : State} {x1 : GKey} {x2 : Pend} {x3 : List Land} (h0 : Inv s0) :
    Inv (complete s0 x1 x2 x3) := by
  unfold complete
  try dsimp only
  repeat' (with_reducible first | assumption | apply inv_State_setGroup | apply inv_addLate | apply inv_mergeLate | apply inv_systemAct | intro _ | dsimp only | split)

theorem inv_counted {s0 : State} {x1 : Turn} {s2 : State} (h0 : Inv s0) (h2 : Inv s2) :
    Inv (counted s0 x1 s2) := by
  unfold counted
  try dsimp only
  repeat' (with_reducible first | assumption | (simp only [inv_mk]; refine inv_of ?_) | intro _ | dsimp only | split)

end Sys2Proof.Machine
end

