-- ==== Sys2Proof/Laws/InvariantExec.lean ====
section
/-! SUPPORT. Every meaning keeps the invariant of Sys2Proof/Safety.lean. -/

namespace Sys2Proof.Machine

open Sys2Proof

theorem inv_execNop {s0 : State} (h0 : Inv s0) :
    OutInv (execNop s0) := by
  unfold execNop
  try dsimp only
  repeat' (with_reducible first | assumption | apply inv_Act_done | apply inv_issue | apply inv_Act_done | intro _ | dsimp only | split)

theorem inv_execBra {x0 : Bool} {x1 : Fin 8} {x2 : BitVec 21} {s3 : State} (h3 : Inv s3) :
    OutInv (execBra x0 x1 x2 s3) := by
  unfold execBra
  try dsimp only
  repeat' (with_reducible first | assumption | apply inv_Act_go | apply inv_Ins_fail | apply inv_issue | apply inv_Act_go | apply inv_Ins_fail | intro _ | dsimp only | split)

theorem inv_execBrx {x0 : Reg} {x1 : Bool} {x2 : Fin 8} {s3 : State} (h3 : Inv s3) :
    OutInv (execBrx x0 x1 x2 s3) := by
  unfold execBrx
  try dsimp only
  repeat' (with_reducible first | assumption | apply inv_Act_go | apply inv_issue | apply inv_Act_go | apply inv_notInBody | intro _ | dsimp only | split)

theorem inv_execCall {x0 : Bool} {x1 : Fin 8} {x2 : BitVec 21} {s3 : State} (h3 : Inv s3) :
    OutInv (execCall x0 x1 x2 s3) := by
  unfold execCall
  try dsimp only
  repeat' (with_reducible first | assumption | apply inv_Act_done | apply inv_Act_go | apply inv_Ins_fail | apply inv_issue | apply inv_State_store | apply inv_State_modGroup | apply inv_Act_done | apply inv_Act_go | apply inv_Ins_fail | apply inv_notInBody | intro _ | dsimp only | split)

theorem inv_execRet {s0 : State} (h0 : Inv s0) :
    OutInv (execRet s0) := by
  unfold execRet
  try dsimp only
  repeat' (with_reducible first | assumption | apply inv_Act_done | apply inv_Ins_fail | apply inv_issue | apply inv_Ins_mod | apply inv_Act_done | apply inv_Ins_fail | apply inv_notInBody | intro _ | dsimp only | split)

theorem inv_execExit {s0 : State} (h0 : Inv s0) :
    OutInv (execExit s0) := by
  unfold execExit
  try dsimp only
  repeat' (with_reducible first | assumption | apply inv_Act_done | apply inv_issue | apply inv_Ins_mod | apply inv_Act_done | intro _ | dsimp only | split)

theorem inv_execYield {s0 : State} (h0 : Inv s0) :
    OutInv (execYield s0) := by
  unfold execYield
  try dsimp only
  repeat' (with_reducible first | assumption | apply inv_Act_then_ | apply inv_issue | apply inv_State_modGroup | apply inv_Act_then_ | apply inv_notInBody | intro _ | dsimp only | split)

theorem inv_execLoop {x0 : Reg} {x1 : BitVec 11} {s2 : State} (h2 : Inv s2) :
    OutInv (execLoop x0 x1 s2) := by
  unfold execLoop
  try dsimp only
  repeat' (with_reducible first | assumption | apply inv_Act_done | apply inv_Act_go | apply inv_Ins_fail | apply inv_issue | apply inv_State_modGroup | apply inv_Act_done | apply inv_Act_go | apply inv_Ins_fail | apply inv_afterFetch | intro _ | dsimp only | split)

theorem inv_execWinb {x0 : Reg} {x1 : BitVec 11} {s2 : State} (h2 : Inv s2) :
    OutInv (execWinb x0 x1 s2) := by
  unfold execWinb
  try dsimp only
  repeat' (with_reducible first | assumption | apply inv_Act_done | apply inv_Ins_fail | apply inv_issue | apply inv_Ins_mod | apply inv_Act_done | apply inv_Ins_fail | intro _ | dsimp only | split)

theorem inv_execSetx {x0 : Reg} {x1 : Bool} {s2 : State} (h2 : Inv s2) :
    OutInv (execSetx x0 x1 s2) := by
  unfold execSetx
  try dsimp only
  repeat' (with_reducible first | assumption | apply inv_Act_done | apply inv_issue | apply inv_Ins_mod | apply inv_Act_done | intro _ | dsimp only | split)

theorem inv_execIsync {s0 : State} (h0 : Inv s0) :
    OutInv (execIsync s0) := by
  unfold execIsync
  try dsimp only
  repeat' (with_reducible first | assumption | apply inv_Act_done | apply inv_issue | apply inv_Ins_mod | apply inv_Act_done | intro _ | dsimp only | split)

theorem inv_execBkm {x0 : Reg} {x1 : BitVec 11} {s2 : State} (h2 : Inv s2) :
    OutInv (execBkm x0 x1 s2) := by
  unfold execBkm
  try dsimp only
  repeat' (with_reducible first | assumption | apply inv_Act_done | apply inv_issue | apply inv_State_traceRecord | apply inv_Act_done | intro _ | dsimp only | split)

theorem inv_execWaitf {x0 : BitVec 12} {s1 : State} (h1 : Inv s1) :
    OutInv (execWaitf x0 s1) := by
  unfold execWaitf
  try dsimp only
  repeat' (with_reducible first | assumption | exact inv_hold | apply inv_Act_done | apply inv_issue | apply inv_Act_done | intro _ | dsimp only | split)

theorem inv_execMov {x0 : Reg} {x1 : Reg} {x2 : BitVec 7} {x3 : MovForm} {s4 : State} (h4 : Inv s4) :
    OutInv (execMov x0 x1 x2 x3 s4) := by
  unfold execMov
  try dsimp only
  repeat' (with_reducible first | assumption | apply inv_Act_done | apply inv_issue | apply inv_Ins_mod | apply inv_Act_done | apply inv_putVec | intro _ | dsimp only | split)

theorem inv_execClauseHeader {x0 : GKey} {s1 : State} (h1 : Inv s1) :
    OutInv (execClauseHeader x0 s1) := by
  unfold execClauseHeader
  try dsimp only
  repeat' (with_reducible first | assumption | apply inv_next | apply inv_State_setGroup | apply inv_hitBreakpoint | apply inv_enterClause | intro _ | dsimp only | split)

theorem inv_execLateEffectDelivery {x0 : GKey} {s1 : State} (h1 : Inv s1) :
    OutInv (execLateEffectDelivery x0 s1) := by
  unfold execLateEffectDelivery
  try dsimp only
  repeat' (with_reducible first | assumption | apply inv_next | apply inv_State_setGroup | apply inv_perform | apply inv_settle | intro _ | dsimp only | split)

theorem inv_execLd {x0 : Reg} {x1 : Reg} {x2 : Reg} {x3 : Space} {x4 : Size} {s5 : State} (h5 : Inv s5) :
    OutInv (execLd x0 x1 x2 x3 x4 s5) := by
  unfold execLd
  try dsimp only
  repeat' (with_reducible first | assumption | apply inv_issue | apply inv_plainLoad | intro _ | dsimp only | split)

theorem inv_execLdi {x0 : Reg} {x1 : Reg} {x2 : Space} {x3 : Size} {x4 : BitVec 7} {s5 : State} (h5 : Inv s5) :
    OutInv (execLdi x0 x1 x2 x3 x4 s5) := by
  unfold execLdi
  try dsimp only
  repeat' (with_reducible first | assumption | apply inv_issue | apply inv_plainLoad | intro _ | dsimp only | split)

theorem inv_execLdn {x0 : Reg} {x1 : Reg} {x2 : Reg} {x3 : Space} {x4 : Size} {s5 : State} (h5 : Inv s5) :
    OutInv (execLdn x0 x1 x2 x3 x4 s5) := by
  unfold execLdn
  try dsimp only
  repeat' (with_reducible first | assumption | apply inv_issue | apply inv_load | apply inv_plainLoad | apply inv_ldnFill | intro _ | dsimp only | split)

theorem inv_execLdt {x0 : Reg} {x1 : Reg} {x2 : Reg} {x3 : Space} {s4 : State} (h4 : Inv s4) :
    OutInv (execLdt x0 x1 x2 x3 s4) := by
  unfold execLdt
  try dsimp only
  repeat' (with_reducible first | assumption | apply inv_id | apply inv_issue | apply inv_load | intro _ | dsimp only | split)

theorem inv_execSt {x0 : Reg} {x1 : Reg} {x2 : Reg} {x3 : Space} {x4 : Size} {s5 : State} (h5 : Inv s5) :
    OutInv (execSt x0 x1 x2 x3 x4 s5) := by
  unfold execSt
  try dsimp only
  repeat' (with_reducible first | assumption | apply inv_issue | apply inv_store | intro _ | dsimp only | split)

theorem inv_execSti {x0 : Reg} {x1 : Reg} {x2 : Space} {x3 : Size} {x4 : BitVec 7} {s5 : State} (h5 : Inv s5) :
    OutInv (execSti x0 x1 x2 x3 x4 s5) := by
  unfold execSti
  try dsimp only
  repeat' (with_reducible first | assumption | apply inv_issue | apply inv_store | intro _ | dsimp only | split)

theorem inv_execStt {x0 : Reg} {x1 : Reg} {x2 : Reg} {x3 : Space} {s4 : State} (h4 : Inv s4) :
    OutInv (execStt x0 x1 x2 x3 s4) := by
  unfold execStt
  try dsimp only
  repeat' (with_reducible first | assumption | apply inv_Ins_raise | apply inv_issue | apply inv_Ins_raise | apply inv_enqueue | intro _ | dsimp only | split)

theorem inv_execAtomh {x0 : Reg} {x1 : Reg} {x2 : Reg} {x3 : AtomOp} {s4 : State} (h4 : Inv s4) :
    OutInv (execAtomh x0 x1 x2 x3 s4) := by
  unfold execAtomh
  try dsimp only
  repeat' (with_reducible first | assumption | apply inv_issue | apply inv_atomic | intro _ | dsimp only | split)

theorem inv_execAtomp {x0 : Reg} {x1 : Reg} {x2 : Reg} {x3 : AtomOp} {s4 : State} (h4 : Inv s4) :
    OutInv (execAtomp x0 x1 x2 x3 s4) := by
  unfold execAtomp
  try dsimp only
  repeat' (with_reducible first | assumption | apply inv_issue | apply inv_atomic | intro _ | dsimp only | split)

theorem inv_execAcas {x0 : Reg} {x1 : Reg} {x2 : Reg} {x3 : Space} {x4 : Size} {s5 : State} (h5 : Inv s5) :
    OutInv (execAcas x0 x1 x2 x3 x4 s5) := by
  unfold execAcas
  try dsimp only
  repeat' (with_reducible first | assumption | apply inv_issue | apply inv_atomic | intro _ | dsimp only | split)

theorem inv_execFence {x0 : FenceKind} {x1 : Scope} {s2 : State} (h2 : Inv s2) :
    OutInv (execFence x0 x1 s2) := by
  unfold execFence
  try dsimp only
  repeat' (with_reducible first | assumption | apply inv_next | apply inv_id | exact inv_hold | apply inv_Act_done | apply inv_Act_go | apply inv_Act_then_ | apply inv_Ins_raise | apply inv_Ins_fail | apply inv_park | apply inv_act | apply inv_issue | exact inv_fault | apply inv_landAll | apply inv_dueAll | apply inv_Act_done | apply inv_enqueue | (intro _; rfl) | (apply inv_fst_of; assumption) | (simp only [inv_mk, List.length_set, List.length_map, List.length_mapIdx]; refine inv_of ?_) | intro _ | dsimp only | split)

theorem inv_execStoreQueueDrain {x0 : GKey} {s1 : State} (h1 : Inv s1) :
    OutInv (execStoreQueueDrain x0 s1) := by
  unfold execStoreQueueDrain
  try dsimp only
  repeat' (with_reducible first | assumption | apply inv_next | apply inv_drainStep | apply inv_tryRetire | intro _ | dsimp only | split)

theorem inv_execOclm {x0 : Reg} {x1 : Reg} {s2 : State} (h2 : Inv s2) :
    OutInv (execOclm x0 x1 s2) := by
  unfold execOclm
  try dsimp only
  repeat' (with_reducible first | assumption | apply inv_issue | apply inv_needs | apply inv_claimed | intro _ | dsimp only | split)

theorem inv_execOrel {x0 : Reg} {s1 : State} (h1 : Inv s1) :
    OutInv (execOrel x0 s1) := by
  unfold execOrel
  try dsimp only
  repeat' (with_reducible first | assumption | exact inv_hold | apply inv_Act_done | apply inv_issue | apply inv_freeHalves | apply inv_Act_done | apply inv_needs | apply inv_entitled | intro _ | dsimp only | split)

theorem inv_execAclm {x0 : Reg} {x1 : Reg} {s2 : State} (h2 : Inv s2) :
    OutInv (execAclm x0 x1 s2) := by
  unfold execAclm
  try dsimp only
  repeat' (with_reducible first | assumption | apply inv_issue | apply inv_needs | apply inv_claimed | intro _ | dsimp only | split)

theorem inv_execAclmGrant {x0 : Reg} {x1 : Reg} {s2 : State} (h2 : Inv s2) :
    OutInv (execAclmGrant x0 x1 s2) := by
  unfold execAclmGrant
  try dsimp only
  repeat' (with_reducible first | assumption | apply inv_Act_done | apply inv_issue | apply inv_Act_done | apply inv_needs | apply inv_entitled | apply inv_regrant | intro _ | dsimp only | split)

theorem inv_execArel {x0 : Reg} {s1 : State} (h1 : Inv s1) :
    OutInv (execArel x0 s1) := by
  unfold execArel
  try dsimp only
  repeat' (with_reducible first | assumption | exact inv_hold | apply inv_Act_done | apply inv_issue | apply inv_freeBanks | apply inv_Act_done | apply inv_needs | apply inv_entitled | apply inv_nonLinear | intro _ | dsimp only | split)

theorem inv_execArelRevoke {x0 : Reg} {s1 : State} (h1 : Inv s1) :
    OutInv (execArelRevoke x0 s1) := by
  unfold execArelRevoke
  try dsimp only
  repeat' (with_reducible first | assumption | apply inv_Act_done | apply inv_Ins_fail | apply inv_issue | apply inv_Act_done | apply inv_Ins_fail | apply inv_needs | apply inv_regrant | intro _ | dsimp only | split)

theorem inv_execMma {x0 : Reg} {x1 : Reg} {x2 : Reg} {x3 : Bool} {x4 : Bool} {s5 : State} (h5 : Inv s5) :
    OutInv (execMma x0 x1 x2 x3 x4 s5) := by
  unfold execMma
  try dsimp only
  repeat' (with_reducible first | assumption | apply inv_issue | apply inv_product | intro _ | dsimp only | split)

theorem inv_execMmaa {x0 : Reg} {x1 : Reg} {x2 : Reg} {x3 : Bool} {s4 : State} (h4 : Inv s4) :
    OutInv (execMmaa x0 x1 x2 x3 s4) := by
  unfold execMmaa
  try dsimp only
  repeat' (with_reducible first | assumption | apply inv_issue | apply inv_product | intro _ | dsimp only | split)

theorem inv_execMmsp {x0 : Reg} {x1 : Reg} {x2 : Reg} {x3 : Bool} {x4 : Bool} {s5 : State} (h5 : Inv s5) :
    OutInv (execMmsp x0 x1 x2 x3 x4 s5) := by
  unfold execMmsp
  try dsimp only
  repeat' (with_reducible first | assumption | apply inv_issue | apply inv_product | intro _ | dsimp only | split)

theorem inv_execPubl {x0 : Reg} {x1 : Reg} {s2 : State} (h2 : Inv s2) :
    OutInv (execPubl x0 x1 s2) := by
  unfold execPubl
  try dsimp only
  repeat' (with_reducible first | assumption | apply inv_Act_done | apply inv_Ins_fail | apply inv_issue | apply inv_State_modCore | apply inv_Ins_mod | apply inv_Act_done | apply inv_Ins_fail | apply inv_needs | apply inv_entitled | apply inv_queueRoom | apply inv_placeEntry | intro _ | dsimp only | split)

theorem inv_execPublSeal {x0 : Reg} {s1 : State} (h1 : Inv s1) :
    OutInv (execPublSeal x0 s1) := by
  unfold execPublSeal
  try dsimp only
  repeat' (with_reducible first | assumption | apply inv_Act_done | apply inv_issue | apply inv_Act_done | apply inv_needs | apply inv_queueRoom | apply inv_placeEntry | intro _ | dsimp only | split)

theorem inv_execSetl {x0 : Reg} {s1 : State} (h1 : Inv s1) :
    OutInv (execSetl x0 s1) := by
  unfold execSetl
  try dsimp only
  repeat' (with_reducible first | assumption | exact inv_hold | apply inv_Act_done | apply inv_Ins_fail | apply inv_issue | apply inv_Act_done | apply inv_Ins_fail | intro _ | dsimp only | split)

theorem inv_execAlin {x0 : Reg} {x1 : Reg} {x2 : Reg} {x3 : AlinOp} {s4 : State} (h4 : Inv s4) :
    OutInv (execAlin x0 x1 x2 x3 s4) := by
  unfold execAlin
  try dsimp only
  repeat' (with_reducible first | assumption | apply inv_Act_done | apply inv_Ins_fail | apply inv_issue | apply inv_Act_done | apply inv_Ins_fail | apply inv_needs | apply inv_entitled | apply inv_writable | apply inv_queueRoom | apply inv_tableRoom | apply inv_placeEntry | intro _ | dsimp only | split)

theorem inv_execAfil {x0 : Reg} {x1 : Reg} {s2 : State} (h2 : Inv s2) :
    OutInv (execAfil x0 x1 s2) := by
  unfold execAfil
  try dsimp only
  repeat' (with_reducible first | assumption | apply inv_Act_done | apply inv_issue | apply inv_Act_done | apply inv_needs | apply inv_entitled | apply inv_writable | apply inv_queueRoom | apply inv_placeEntry | intro _ | dsimp only | split)

theorem inv_execAdrn {x0 : Reg} {x1 : Reg} {x2 : Reg} {s3 : State} (h3 : Inv s3) :
    OutInv (execAdrn x0 x1 x2 s3) := by
  unfold execAdrn
  try dsimp only
  repeat' (with_reducible first | assumption | apply inv_Act_done | apply inv_Ins_fail | apply inv_issue | apply inv_Ins_mod | apply inv_Act_done | apply inv_Ins_fail | apply inv_Ins_flight | apply inv_needs | apply inv_entitled | apply inv_nonLinear | apply inv_drainable | intro _ | dsimp only | split)

theorem inv_execOld {x0 : Reg} {x1 : Reg} {x2 : Reg} {s3 : State} (h3 : Inv s3) :
    OutInv (execOld x0 x1 x2 s3) := by
  unfold execOld
  try dsimp only
  repeat' (with_reducible first | assumption | apply inv_Act_done | apply inv_Ins_fail | apply inv_issue | apply inv_Act_done | apply inv_Ins_fail | apply inv_needs | apply inv_entitled | apply inv_queueRoom | apply inv_placeEntry | apply inv_unpinned | intro _ | dsimp only | split)

theorem inv_execSltg {x0 : Reg} {x1 : Reg} {s2 : State} (h2 : Inv s2) :
    OutInv (execSltg x0 x1 s2) := by
  unfold execSltg
  try dsimp only
  repeat' (with_reducible first | assumption | apply inv_Act_done | apply inv_Ins_fail | apply inv_issue | apply inv_Act_done | apply inv_Ins_fail | apply inv_needs | apply inv_entitled | apply inv_queueRoom | apply inv_placeEntry | apply inv_unpinned | intro _ | dsimp only | split)

theorem inv_execAst {x0 : Reg} {x1 : Reg} {x2 : Reg} {x3 : Space} {s4 : State} (h4 : Inv s4) :
    OutInv (execAst x0 x1 x2 x3 s4) := by
  unfold execAst
  try dsimp only
  repeat' (with_reducible first | assumption | apply inv_Act_done | apply inv_Ins_fail | apply inv_issue | apply inv_Act_done | apply inv_Ins_fail | apply inv_needs | apply inv_entitled | apply inv_nonLinear | apply inv_queueRoom | apply inv_placeEntry | apply inv_drainable | intro _ | dsimp only | split)

theorem inv_execOst {x0 : Reg} {x1 : Reg} {x2 : Reg} {x3 : Bool} {x4 : OstFmt} {s5 : State} (h5 : Inv s5) :
    OutInv (execOst x0 x1 x2 x3 x4 s5) := by
  unfold execOst
  try dsimp only
  repeat' (with_reducible first | assumption | apply inv_Act_done | apply inv_Ins_fail | apply inv_issue | apply inv_Act_done | apply inv_Ins_fail | apply inv_needs | apply inv_entitled | apply inv_nonLinear | apply inv_queueRoom | apply inv_placeEntry | apply inv_drainable | intro _ | dsimp only | split)

theorem inv_execMatrixEntryStart {x0 : Nat} {s1 : State} (h1 : Inv s1) :
    OutInv (execMatrixEntryStart x0 s1) := by
  unfold execMatrixEntryStart
  try dsimp only
  repeat' (with_reducible first | assumption | apply inv_next | apply inv_startEntry | intro _ | dsimp only | split)

theorem inv_execMatrixEntryFinish {x0 : Nat} {s1 : State} (h1 : Inv s1) :
    OutInv (execMatrixEntryFinish x0 s1) := by
  unfold execMatrixEntryFinish
  try dsimp only
  repeat' (with_reducible first | assumption | apply inv_next | apply inv_finishEntry | intro _ | dsimp only | split)

theorem inv_execCorrectionApplication {x0 : Nat} {s1 : State} (h1 : Inv s1) :
    OutInv (execCorrectionApplication x0 s1) := by
  unfold execCorrectionApplication
  try dsimp only
  repeat' (with_reducible first | assumption | apply inv_next | apply inv_applyNext | intro _ | dsimp only | split)

theorem inv_execCopyBlock {x0 : Nat} {x1 : Nat} {s2 : State} (h2 : Inv s2) :
    OutInv (execCopyBlock x0 x1 s2) := by
  unfold execCopyBlock
  try dsimp only
  repeat' (with_reducible first | assumption | apply inv_next | apply inv_id | exact inv_hold | apply inv_Act_done | apply inv_Act_go | apply inv_Act_then_ | apply inv_Ins_raise | apply inv_Ins_fail | apply inv_park | apply inv_act | apply inv_issue | exact inv_fault | apply inv_retireCore | apply inv_serveCopy | (intro _; rfl) | (apply inv_fst_of; assumption) | (simp only [inv_mk, List.length_set, List.length_map, List.length_mapIdx]; refine inv_of ?_) | intro _ | dsimp only | split)

theorem inv_execTranslationWalk {x0 : Nat} {s1 : State} (h1 : Inv s1) :
    OutInv (execTranslationWalk x0 s1) := by
  unfold execTranslationWalk
  try dsimp only
  repeat' (with_reducible first | assumption | apply inv_next | apply inv_State_modDie | apply inv_walkEnds | apply inv_takeMisses | apply inv_foldl | intro _ | dsimp only | split)

theorem inv_execWriteblock {x0 : EngRef} {s1 : State} (h1 : Inv s1) :
    OutInv (execWriteblock x0 s1) := by
  unfold execWriteblock
  try dsimp only
  repeat' (with_reducible first | assumption | apply inv_next | apply inv_writeBlock | intro _ | dsimp only | split)

theorem inv_execHeldWriteRewalk {x0 : Nat} {s1 : State} (h1 : Inv s1) :
    OutInv (execHeldWriteRewalk x0 s1) := by
  unfold execHeldWriteRewalk
  try dsimp only
  repeat' (with_reducible first | assumption | apply inv_next | apply inv_rewalkHeld | intro _ | dsimp only | split)

theorem inv_execLayd {x0 : Fin 16} {x1 : Reg} {x2 : Reg} {x3 : Space} {s4 : State} (h4 : Inv s4) :
    OutInv (execLayd x0 x1 x2 x3 s4) := by
  unfold execLayd
  try dsimp only
  repeat' (with_reducible first | assumption | exact inv_hold | apply inv_Act_done | apply inv_Ins_raise | apply inv_Ins_fail | apply inv_issue | apply inv_State_modTeam | apply inv_Act_done | apply inv_Ins_raise | apply inv_Ins_fail | intro _ | dsimp only | split)

theorem inv_execCpy {x0 : Fin 8} {x1 : Reg} {x2 : Bool} {x3 : Bool} {s4 : State} (h4 : Inv s4) :
    OutInv (execCpy x0 x1 x2 x3 s4) := by
  unfold execCpy
  try dsimp only
  repeat' (with_reducible first | assumption | apply inv_issue | apply inv_copyIns | intro _ | dsimp only | split)

theorem inv_execCpyp {x0 : Fin 8} {x1 : Reg} {x2 : Bool} {s3 : State} (h3 : Inv s3) :
    OutInv (execCpyp x0 x1 x2 s3) := by
  unfold execCpyp
  try dsimp only
  repeat' (with_reducible first | assumption | apply inv_issue | apply inv_copyIns | intro _ | dsimp only | split)

theorem inv_execRrot {x0 : Fin 8} {x1 : Reg} {x2 : Bool} {s3 : State} (h3 : Inv s3) :
    OutInv (execRrot x0 x1 x2 s3) := by
  unfold execRrot
  try dsimp only
  repeat' (with_reducible first | assumption | exact inv_hold | apply inv_Act_done | apply inv_Ins_fail | apply inv_issue | apply inv_Act_done | apply inv_Ins_fail | apply inv_setQueued | apply inv_noWait | apply inv_queueCopy | intro _ | dsimp only | split)

theorem inv_execClose {x0 : Reg} {s1 : State} (h1 : Inv s1) :
    OutInv (execClose x0 s1) := by
  unfold execClose
  try dsimp only
  repeat' (with_reducible first | assumption | apply inv_Act_done | apply inv_issue | apply inv_Ins_mod | apply inv_Act_done | intro _ | dsimp only | split)

theorem inv_execWaitb {x0 : Reg} {s1 : State} (h1 : Inv s1) :
    OutInv (execWaitb x0 s1) := by
  unfold execWaitb
  try dsimp only
  repeat' (with_reducible first | assumption | exact inv_hold | apply inv_Act_done | apply inv_Ins_fail | apply inv_issue | apply inv_Act_done | apply inv_Ins_fail | intro _ | dsimp only | split)

theorem inv_execEnq {x0 : Fin 16} {x1 : Reg} {s2 : State} (h2 : Inv s2) :
    OutInv (execEnq x0 x1 s2) := by
  unfold execEnq
  try dsimp only
  repeat' (with_reducible first | assumption | apply inv_next | apply inv_id | exact inv_hold | apply inv_Act_done | apply inv_Act_go | apply inv_Act_then_ | apply inv_Ins_raise | apply inv_Ins_fail | apply inv_park | apply inv_act | apply inv_issue | exact inv_fault | apply inv_Act_done | apply inv_Ins_raise | apply inv_Ins_fail | apply inv_Ins_flight | apply inv_engPoison | apply inv_enterJob | apply inv_enterColl | (intro _; rfl) | (apply inv_fst_of; assumption) | (simp only [inv_mk, List.length_set, List.length_map, List.length_mapIdx]; refine inv_of ?_) | intro _ | dsimp only | split)

theorem inv_execWaith {x0 : Reg} {x1 : Fin 16} {s2 : State} (h2 : Inv s2) :
    OutInv (execWaith x0 x1 s2) := by
  unfold execWaith
  try dsimp only
  repeat' (with_reducible first | assumption | exact inv_hold | apply inv_Act_done | apply inv_Ins_fail | apply inv_issue | apply inv_Ins_mod | apply inv_Act_done | apply inv_Ins_fail | intro _ | dsimp only | split)

theorem inv_execTsth {x0 : Fin 8} {x1 : Fin 16} {s2 : State} (h2 : Inv s2) :
    OutInv (execTsth x0 x1 s2) := by
  unfold execTsth
  try dsimp only
  repeat' (with_reducible first | assumption | apply inv_Act_done | apply inv_Ins_fail | apply inv_issue | apply inv_Ins_mod | apply inv_Act_done | apply inv_Ins_fail | intro _ | dsimp only | split)

theorem inv_execHsto {x0 : Fin 16} {x1 : Reg} {x2 : Reg} {s3 : State} (h3 : Inv s3) :
    OutInv (execHsto x0 x1 x2 s3) := by
  unfold execHsto
  try dsimp only
  repeat' (with_reducible first | assumption | apply inv_Act_done | apply inv_Ins_raise | apply inv_Ins_fail | apply inv_issue | apply inv_Act_done | apply inv_Ins_raise | apply inv_Ins_fail | apply inv_enqueue | intro _ | dsimp only | split)

theorem inv_execHlod {x0 : Fin 16} {x1 : Reg} {x2 : Reg} {s3 : State} (h3 : Inv s3) :
    OutInv (execHlod x0 x1 x2 s3) := by
  unfold execHlod
  try dsimp only
  repeat' (with_reducible first | assumption | exact inv_hold | apply inv_Ins_raise | apply inv_issue | apply inv_Ins_raise | apply inv_Ins_flight | apply inv_latePoison | intro _ | dsimp only | split)

theorem inv_execGather {x0 : Nat} {x1 : Nat} {s2 : State} (h2 : Inv s2) :
    OutInv (execGather x0 x1 s2) := by
  unfold execGather
  try dsimp only
  repeat' (with_reducible first | assumption | apply inv_next | apply inv_onJob | apply inv_serveGather | intro _ | dsimp only | split)

theorem inv_execMainToMainCopy {x0 : Nat} {x1 : Nat} {s2 : State} (h2 : Inv s2) :
    OutInv (execMainToMainCopy x0 x1 s2) := by
  unfold execMainToMainCopy
  try dsimp only
  repeat' (with_reducible first | assumption | apply inv_next | apply inv_onJob | apply inv_serveMain | intro _ | dsimp only | split)

theorem inv_execBinningReplay {x0 : Nat} {x1 : Nat} {s2 : State} (h2 : Inv s2) :
    OutInv (execBinningReplay x0 x1 s2) := by
  unfold execBinningReplay
  try dsimp only
  repeat' (with_reducible first | assumption | apply inv_next | apply inv_State_modJob | apply inv_completeJob | apply inv_onJob | apply inv_takeBins | apply inv_serveReplay | intro _ | dsimp only | split)

theorem inv_execBinningOpen {x0 : Nat} {x1 : Nat} {s2 : State} (h2 : Inv s2) :
    OutInv (execBinningOpen x0 x1 s2) := by
  unfold execBinningOpen
  try dsimp only
  repeat' (with_reducible first | assumption | apply inv_next | apply inv_onJob | apply inv_serveOpen | intro _ | dsimp only | split)

theorem inv_appendBins {x : Ins} {n : Nat} {l : List BinEl} (hx : Inv x.s) : ∀ {s : State}, Inv s → Inv (appendBins x n l s).s := by
  induction l with
  | nil => intro s h; exact h
  | cons e l ih =>
    intro s h
    unfold appendBins
    try dsimp only
    repeat' (with_reducible first | assumption | apply ih | apply inv_putBin | apply inv_State_modStream | apply inv_implicitReplay | dsimp only | split)

theorem inv_execBina {x0 : Fin 16} {x1 : Reg} {x2 : Reg} {s3 : State} (h3 : Inv s3) :
    OutInv (execBina x0 x1 x2 s3) := by
  unfold execBina
  try dsimp only
  repeat' (with_reducible first | assumption | apply inv_issue | exact inv_hold | apply inv_Act_done | apply inv_Ins_raise | apply inv_Ins_fail | apply inv_park | apply inv_appendBins | intro _ | dsimp only | split)

theorem inv_execCrc {x0 : Reg} {x1 : Reg} {x2 : Reg} {x3 : CrcSz} {s4 : State} (h4 : Inv s4) :
    OutInv (execCrc x0 x1 x2 x3 s4) := by
  unfold execCrc
  try dsimp only
  repeat' (with_reducible first | assumption | apply inv_issue | apply inv_elemInt | intro _ | dsimp only | split)

theorem inv_execBhist {x0 : Reg} {x1 : Reg} {x2 : Reg} {x3 : Fin 4} {x4 : KeyKind} {s5 : State} (h5 : Inv s5) :
    OutInv (execBhist x0 x1 x2 x3 x4 s5) := by
  unfold execBhist
  try dsimp only
  repeat' (with_reducible first | assumption | apply inv_Ins_raise | apply inv_issue | apply inv_Ins_raise | apply inv_enqueue | intro _ | dsimp only | split)

theorem inv_execBsel {x0 : Fin 8} {x1 : Reg} {x2 : Reg} {x3 : Bool} {x4 : KeyKind} {s5 : State} (h5 : Inv s5) :
    OutInv (execBsel x0 x1 x2 x3 x4 s5) := by
  unfold execBsel
  try dsimp only
  repeat' (with_reducible first | assumption | apply inv_issue | apply inv_compare | intro _ | dsimp only | split)

theorem inv_execTopkHistogram {x0 : Nat} {x1 : Nat} {s2 : State} (h2 : Inv s2) :
    OutInv (execTopkHistogram x0 x1 s2) := by
  unfold execTopkHistogram
  try dsimp only
  repeat' (with_reducible first | assumption | apply inv_next | apply inv_onJob | apply inv_serveHistogram | intro _ | dsimp only | split)

theorem inv_execTopkSelect {x0 : Nat} {x1 : Nat} {s2 : State} (h2 : Inv s2) :
    OutInv (execTopkSelect x0 x1 s2) := by
  unfold execTopkSelect
  try dsimp only
  repeat' (with_reducible first | assumption | apply inv_next | apply inv_onJob | apply inv_serveSelect | intro _ | dsimp only | split)

theorem inv_execCopystall {x0 : GKey} {s1 : State} (h1 : Inv s1) :
    OutInv (execCopystall x0 s1) := by
  unfold execCopystall
  try dsimp only
  repeat' (with_reducible first | assumption | apply inv_next | apply inv_finish | apply inv_performStall | intro _ | dsimp only | split)

theorem inv_execWhalt {s0 : State} (h0 : Inv s0) :
    OutInv (execWhalt s0) := by
  unfold execWhalt
  try dsimp only
  repeat' (with_reducible first | assumption | apply inv_walkerEnds | apply inv_walkWord | intro _ | dsimp only | split)

theorem inv_execWli {x0 : Fin 16} {x1 : BitVec 14} {s2 : State} (h2 : Inv s2) :
    OutInv (execWli x0 x1 s2) := by
  unfold execWli
  try dsimp only
  repeat' (with_reducible first | assumption | apply inv_walkSet | intro _ | dsimp only | split)

theorem inv_execWadd {x0 : Fin 16} {x1 : Fin 16} {x2 : Fin 16} {x3 : BitVec 14} {s4 : State} (h4 : Inv s4) :
    OutInv (execWadd x0 x1 x2 x3 s4) := by
  unfold execWadd
  try dsimp only
  repeat' (with_reducible first | assumption | apply inv_walkSet | intro _ | dsimp only | split)

theorem inv_execWsub {x0 : Fin 16} {x1 : Fin 16} {x2 : Fin 16} {s3 : State} (h3 : Inv s3) :
    OutInv (execWsub x0 x1 x2 s3) := by
  unfold execWsub
  try dsimp only
  repeat' (with_reducible first | assumption | apply inv_walkSet | intro _ | dsimp only | split)

theorem inv_execWmul {x0 : Fin 16} {x1 : Fin 16} {x2 : Fin 16} {s3 : State} (h3 : Inv s3) :
    OutInv (execWmul x0 x1 x2 s3) := by
  unfold execWmul
  try dsimp only
  repeat' (with_reducible first | assumption | apply inv_walkSet | intro _ | dsimp only | split)

theorem inv_execWshl {x0 : Fin 16} {x1 : Fin 16} {x2 : Fin 32} {s3 : State} (h3 : Inv s3) :
    OutInv (execWshl x0 x1 x2 s3) := by
  unfold execWshl
  try dsimp only
  repeat' (with_reducible first | assumption | apply inv_walkSet | intro _ | dsimp only | split)

theorem inv_execWshr {x0 : Fin 16} {x1 : Fin 16} {x2 : Fin 32} {s3 : State} (h3 : Inv s3) :
    OutInv (execWshr x0 x1 x2 s3) := by
  unfold execWshr
  try dsimp only
  repeat' (with_reducible first | assumption | apply inv_walkSet | intro _ | dsimp only | split)

theorem inv_execWand {x0 : Fin 16} {x1 : Fin 16} {x2 : Fin 16} {s3 : State} (h3 : Inv s3) :
    OutInv (execWand x0 x1 x2 s3) := by
  unfold execWand
  try dsimp only
  repeat' (with_reducible first | assumption | apply inv_walkSet | intro _ | dsimp only | split)

theorem inv_execWldw {x0 : Fin 16} {x1 : Fin 16} {x2 : Fin 16} {x3 : BitVec 14} {s4 : State} (h4 : Inv s4) :
    OutInv (execWldw x0 x1 x2 x3 s4) := by
  unfold execWldw
  try dsimp only
  repeat' (with_reducible first | assumption | apply inv_walkLoad | intro _ | dsimp only | split)

theorem inv_execWldh {x0 : Fin 16} {x1 : Fin 16} {x2 : Fin 16} {x3 : BitVec 14} {s4 : State} (h4 : Inv s4) :
    OutInv (execWldh x0 x1 x2 x3 s4) := by
  unfold execWldh
  try dsimp only
  repeat' (with_reducible first | assumption | apply inv_walkLoad | intro _ | dsimp only | split)

theorem inv_execWldb {x0 : Fin 16} {x1 : Fin 16} {x2 : Fin 16} {x3 : BitVec 14} {s4 : State} (h4 : Inv s4) :
    OutInv (execWldb x0 x1 x2 x3 s4) := by
  unfold execWldb
  try dsimp only
  repeat' (with_reducible first | assumption | apply inv_walkLoad | intro _ | dsimp only | split)

theorem inv_execWbeq {x0 : Fin 16} {x1 : Fin 16} {x2 : BitVec 14} {s3 : State} (h3 : Inv s3) :
    OutInv (execWbeq x0 x1 x2 s3) := by
  unfold execWbeq
  try dsimp only
  repeat' (with_reducible first | assumption | apply inv_walkBranch | intro _ | dsimp only | split)

theorem inv_execWbne {x0 : Fin 16} {x1 : Fin 16} {x2 : BitVec 14} {s3 : State} (h3 : Inv s3) :
    OutInv (execWbne x0 x1 x2 s3) := by
  unfold execWbne
  try dsimp only
  repeat' (with_reducible first | assumption | apply inv_walkBranch | intro _ | dsimp only | split)

theorem inv_execWblo {x0 : Fin 16} {x1 : Fin 16} {x2 : BitVec 14} {s3 : State} (h3 : Inv s3) :
    OutInv (execWblo x0 x1 x2 s3) := by
  unfold execWblo
  try dsimp only
  repeat' (with_reducible first | assumption | apply inv_walkBranch | intro _ | dsimp only | split)

theorem inv_execWbhs {x0 : Fin 16} {x1 : Fin 16} {x2 : BitVec 14} {s3 : State} (h3 : Inv s3) :
    OutInv (execWbhs x0 x1 x2 s3) := by
  unfold execWbhs
  try dsimp only
  repeat' (with_reducible first | assumption | apply inv_walkBranch | intro _ | dsimp only | split)

theorem inv_execWjmp {x0 : BitVec 14} {s1 : State} (h1 : Inv s1) :
    OutInv (execWjmp x0 s1) := by
  unfold execWjmp
  try dsimp only
  repeat' (with_reducible first | assumption | apply inv_walkBranch | intro _ | dsimp only | split)

theorem inv_execWtgt {x0 : Fin 16} {x1 : Fin 16} {s2 : State} (h2 : Inv s2) :
    OutInv (execWtgt x0 x1 s2) := by
  unfold execWtgt
  try dsimp only
  repeat' (with_reducible first | assumption | apply inv_putWalker | apply inv_walkFault | apply inv_walkWord | intro _ | dsimp only | split)

theorem inv_execWzero {s0 : State} (h0 : Inv s0) :
    OutInv (execWzero s0) := by
  unfold execWzero
  try dsimp only
  repeat' (with_reducible first | assumption | apply inv_emitPiece | apply inv_onTarget | intro _ | dsimp only | split)

theorem inv_execWemit {x0 : Fin 16} {x1 : Fin 16} {s2 : State} (h2 : Inv s2) :
    OutInv (execWemit x0 x1 s2) := by
  unfold execWemit
  try dsimp only
  repeat' (with_reducible first | assumption | apply inv_walkFault | apply inv_emits | apply inv_onTarget | intro _ | dsimp only | split)

theorem inv_execWrun {x0 : Fin 16} {x1 : Fin 16} {x2 : Fin 16} {x3 : Fin 16} {s4 : State} (h4 : Inv s4) :
    OutInv (execWrun x0 x1 x2 x3 s4) := by
  unfold execWrun
  try dsimp only
  repeat' (with_reducible first | assumption | apply inv_next | apply inv_id | exact inv_hold | apply inv_Act_done | apply inv_Act_go | apply inv_Act_then_ | apply inv_Ins_raise | apply inv_Ins_fail | apply inv_park | apply inv_act | apply inv_issue | exact inv_fault | apply inv_putWalker | apply inv_walkerStops | apply inv_walkFault | apply inv_walkSees | apply inv_emitPiece | apply inv_onTarget | (intro _; rfl) | intro _ | dsimp only | split)

theorem inv_execWarv {x0 : Fin 16} {s1 : State} (h1 : Inv s1) :
    OutInv (execWarv x0 s1) := by
  unfold execWarv
  try dsimp only
  repeat' (with_reducible first | assumption | apply inv_State_putBar | apply inv_putWalker | apply inv_walkFault | apply inv_walkWord | intro _ | dsimp only | split)

theorem inv_execWfault {x0 : BitVec 14} {s1 : State} (h1 : Inv s1) :
    OutInv (execWfault x0 s1) := by
  unfold execWfault
  try dsimp only
  repeat' (with_reducible first | assumption | apply inv_walkFault | apply inv_walkWord | intro _ | dsimp only | split)

theorem inv_execWalkerJob {x0 : Nat} {x1 : Nat} {s2 : State} (h2 : Inv s2) :
    OutInv (execWalkerJob x0 x1 s2) := by
  unfold execWalkerJob
  try dsimp only
  repeat' (with_reducible first | assumption | apply inv_next | apply inv_serveWalker | intro _ | dsimp only | split)

theorem inv_execWalkerStepLimit {x0 : Nat} {s1 : State} (h1 : Inv s1) :
    OutInv (execWalkerStepLimit x0 s1) := by
  unfold execWalkerStepLimit
  try dsimp only
  repeat' (with_reducible first | assumption | apply inv_next | apply inv_walkFault | apply inv_onWalker | intro _ | dsimp only | split)

theorem inv_execWalkfault {x0 : Nat} {s1 : State} (h1 : Inv s1) :
    OutInv (execWalkfault x0 s1) := by
  unfold execWalkfault
  try dsimp only
  repeat' (with_reducible first | assumption | apply inv_next | apply inv_walkFault | apply inv_onWalker | intro _ | dsimp only | split)

theorem inv_execInvctl {x0 : Nat} {x1 : Word} {s2 : State} (h2 : Inv s2) :
    OutInv (execInvctl x0 x1 s2) := by
  unfold execInvctl
  try dsimp only
  repeat' (with_reducible first | assumption | apply inv_next | apply inv_State_modDie | intro _ | dsimp only | split)

theorem inv_execInvalidationComplete {x0 : Nat} {s1 : State} (h1 : Inv s1) :
    OutInv (execInvalidationComplete x0 s1) := by
  unfold execInvalidationComplete
  try dsimp only
  repeat' (with_reducible first | assumption | apply inv_next | apply inv_State_modDie | apply inv_rewalkHeld | apply inv_dropRange | apply inv_retranslate | apply inv_foldl | intro _ | dsimp only | split)

theorem inv_execCodeinv {x0 : Nat} {x1 : Nat} {x2 : Nat} {s3 : State} (h3 : Inv s3) :
    OutInv (execCodeinv x0 x1 x2 s3) := by
  unfold execCodeinv
  try dsimp only
  repeat' (with_reducible first | assumption | apply inv_next | apply inv_State_modDie | intro _ | dsimp only | split)

theorem inv_execCodeinvAccept {x0 : Nat} {s1 : State} (h1 : Inv s1) :
    OutInv (execCodeinvAccept x0 s1) := by
  unfold execCodeinvAccept
  try dsimp only
  repeat' (with_reducible first | assumption | apply inv_next | apply inv_State_modDie | (simp only [inv_mk, List.length_mapIdx]; refine inv_of ?_) | intro _ | dsimp only | split)

theorem inv_execCollForm {x0 : Nat} {x1 : Nat} {s2 : State} (h2 : Inv s2) :
    OutInv (execCollForm x0 x1 s2) := by
  unfold execCollForm
  try dsimp only
  repeat' (with_reducible first | assumption | apply inv_next | apply inv_serveColl | intro _ | dsimp only | split)

theorem inv_execCollDisband {x0 : Nat} {x1 : Nat} {s2 : State} (h2 : Inv s2) :
    OutInv (execCollDisband x0 x1 s2) := by
  unfold execCollDisband
  try dsimp only
  repeat' (with_reducible first | assumption | apply inv_next | apply inv_serveColl | intro _ | dsimp only | split)

theorem inv_execCollBarrier {x0 : Nat} {x1 : Nat} {s2 : State} (h2 : Inv s2) :
    OutInv (execCollBarrier x0 x1 s2) := by
  unfold execCollBarrier
  try dsimp only
  repeat' (with_reducible first | assumption | apply inv_next | apply inv_serveColl | intro _ | dsimp only | split)

theorem inv_execCollBcast {x0 : Nat} {x1 : Nat} {s2 : State} (h2 : Inv s2) :
    OutInv (execCollBcast x0 x1 s2) := by
  unfold execCollBcast
  try dsimp only
  repeat' (with_reducible first | assumption | apply inv_next | apply inv_serveColl | intro _ | dsimp only | split)

theorem inv_execCollAllred {x0 : Nat} {x1 : Nat} {s2 : State} (h2 : Inv s2) :
    OutInv (execCollAllred x0 x1 s2) := by
  unfold execCollAllred
  try dsimp only
  repeat' (with_reducible first | assumption | apply inv_next | apply inv_serveColl | intro _ | dsimp only | split)

theorem inv_execCollRedscat {x0 : Nat} {x1 : Nat} {s2 : State} (h2 : Inv s2) :
    OutInv (execCollRedscat x0 x1 s2) := by
  unfold execCollRedscat
  try dsimp only
  repeat' (with_reducible first | assumption | apply inv_next | apply inv_serveColl | intro _ | dsimp only | split)

theorem inv_execCollGather {x0 : Nat} {x1 : Nat} {s2 : State} (h2 : Inv s2) :
    OutInv (execCollGather x0 x1 s2) := by
  unfold execCollGather
  try dsimp only
  repeat' (with_reducible first | assumption | apply inv_next | apply inv_serveColl | intro _ | dsimp only | split)

theorem inv_execCollXscan {x0 : Nat} {x1 : Nat} {s2 : State} (h2 : Inv s2) :
    OutInv (execCollXscan x0 x1 s2) := by
  unfold execCollXscan
  try dsimp only
  repeat' (with_reducible first | assumption | apply inv_next | apply inv_serveColl | intro _ | dsimp only | split)

theorem inv_execCanh {x0 : Fin 16} {s1 : State} (h1 : Inv s1) :
    OutInv (execCanh x0 s1) := by
  unfold execCanh
  try dsimp only
  repeat' (with_reducible first | assumption | apply inv_Act_done | apply inv_Ins_fail | apply inv_issue | apply inv_Act_done | apply inv_Ins_fail | apply inv_cancelJob | intro _ | dsimp only | split)

theorem inv_execFormMsg {x0 : Nat} {x1 : Msg} {x2 : List Word} {s3 : State} (h3 : Inv s3) :
    OutInv (execFormMsg x0 x1 x2 s3) := by
  unfold execFormMsg
  try dsimp only
  repeat' (with_reducible first | assumption | apply inv_next | apply inv_State_modDie | apply inv_receive | intro _ | dsimp only | split)

theorem inv_execBeatMsg {x0 : Nat} {x1 : Msg} {s2 : State} (h2 : Inv s2) :
    OutInv (execBeatMsg x0 x1 s2) := by
  unfold execBeatMsg
  try dsimp only
  repeat' (with_reducible first | assumption | apply inv_next | apply inv_State_modColl | apply inv_receive | intro _ | dsimp only | split)

theorem inv_execPostMsg {x0 : Nat} {x1 : Msg} {x2 : Word} {x3 : Word} {x4 : List Word} {s5 : State} (h5 : Inv s5) :
    OutInv (execPostMsg x0 x1 x2 x3 x4 s5) := by
  unfold execPostMsg
  try dsimp only
  repeat' (with_reducible first | assumption | apply inv_next | apply inv_id | exact inv_hold | apply inv_Act_done | apply inv_Act_go | apply inv_Act_then_ | apply inv_Ins_raise | apply inv_Ins_fail | apply inv_park | apply inv_act | apply inv_issue | exact inv_fault | apply inv_State_modColl | apply inv_propose | apply inv_receive | apply inv_unstage | (intro _; rfl) | (apply inv_fst_of; assumption) | (simp only [inv_mk, List.length_set, List.length_map, List.length_mapIdx]; refine inv_of ?_) | intro _ | dsimp only | split)

theorem inv_execAbortMsg {x0 : Nat} {x1 : Msg} {s2 : State} (h2 : Inv s2) :
    OutInv (execAbortMsg x0 x1 s2) := by
  unfold execAbortMsg
  try dsimp only
  repeat' (with_reducible first | assumption | apply inv_next | apply inv_State_modColl | apply inv_collDecide | apply inv_receive | intro _ | dsimp only | split)

theorem inv_execDecideMsg {x0 : Nat} {x1 : Msg} {s2 : State} (h2 : Inv s2) :
    OutInv (execDecideMsg x0 x1 s2) := by
  unfold execDecideMsg
  try dsimp only
  repeat' (with_reducible first | assumption | apply inv_next | apply inv_State_modColl | apply inv_collEnds | apply inv_receive | intro _ | dsimp only | split)

theorem inv_execHeartbeat {x0 : Nat} {x1 : BitVec 16} {s2 : State} (h2 : Inv s2) :
    OutInv (execHeartbeat x0 x1 s2) := by
  unfold execHeartbeat
  try dsimp only
  repeat' (with_reducible first | assumption | apply inv_next | apply inv_sendMsg | apply inv_foldl | intro _ | dsimp only | split)

theorem inv_execMemberLost {x0 : Nat} {x1 : BitVec 16} {x2 : Nat} {s3 : State} (h3 : Inv s3) :
    OutInv (execMemberLost x0 x1 x2 s3) := by
  unfold execMemberLost
  try dsimp only
  repeat' (with_reducible first | assumption | apply inv_next | apply inv_State_modColl | apply inv_propose | apply inv_foldl | intro _ | dsimp only | split)

theorem inv_execCollectiveTimeout {x0 : Nat} {x1 : BitVec 16} {s2 : State} (h2 : Inv s2) :
    OutInv (execCollectiveTimeout x0 x1 s2) := by
  unfold execCollectiveTimeout
  try dsimp only
  repeat' (with_reducible first | assumption | apply inv_next | apply inv_propose | apply inv_foldl | intro _ | dsimp only | split)

theorem inv_execFormTimeout {x0 : Nat} {x1 : Nat} {s2 : State} (h2 : Inv s2) :
    OutInv (execFormTimeout x0 x1 s2) := by
  unfold execFormTimeout
  try dsimp only
  repeat' (with_reducible first | assumption | apply inv_next | apply inv_dropForm | intro _ | dsimp only | split)

theorem inv_execDeciderUnreachable {x0 : Nat} {x1 : BitVec 16} {s2 : State} (h2 : Inv s2) :
    OutInv (execDeciderUnreachable x0 x1 s2) := by
  unfold execDeciderUnreachable
  try dsimp only
  repeat' (with_reducible first | assumption | apply inv_next | apply inv_collEnds | apply inv_foldl | intro _ | dsimp only | split)

theorem inv_execReadRequest {x0 : Nat} {x1 : Nat} {x2 : Nat} {x3 : Nat} {s4 : State} (h4 : Inv s4) :
    OutInv (execReadRequest x0 x1 x2 x3 s4) := by
  unfold execReadRequest
  try dsimp only
  repeat' (with_reducible first | assumption | apply inv_next | apply inv_send | intro _ | dsimp only | split)

theorem inv_execWriteRequest {x0 : Nat} {x1 : Nat} {x2 : Nat} {x3 : List Byte} {x4 : List Bool} {s5 : State} (h5 : Inv s5) :
    OutInv (execWriteRequest x0 x1 x2 x3 x4 s5) := by
  unfold execWriteRequest
  try dsimp only
  repeat' (with_reducible first | assumption | apply inv_next | apply inv_id | exact inv_hold | apply inv_Act_done | apply inv_Act_go | apply inv_Act_then_ | apply inv_Ins_raise | apply inv_Ins_fail | apply inv_park | apply inv_act | apply inv_issue | exact inv_fault | apply inv_State_store | apply inv_store | apply inv_send | apply inv_trySignal | apply inv_openTag | apply inv_modTag | apply inv_stageBytes | (intro _; rfl) | (apply inv_fst_of; assumption) | (simp only [inv_mk, List.length_set, List.length_map, List.length_mapIdx]; refine inv_of ?_) | intro _ | dsimp only | split)

theorem inv_execAtomicRequest {x0 : Nat} {x1 : Nat} {x2 : Nat} {x3 : FabAtom} {x4 : Word} {x5 : Word} {s6 : State} (h6 : Inv s6) :
    OutInv (execAtomicRequest x0 x1 x2 x3 x4 x5 s6) := by
  unfold execAtomicRequest
  try dsimp only
  repeat' (with_reducible first | assumption | apply inv_next | apply inv_State_store | apply inv_send | intro _ | dsimp only | split)

theorem inv_execSignal {x0 : Nat} {x1 : Nat} {x2 : Nat} {x3 : Nat} {s4 : State} (h4 : Inv s4) :
    OutInv (execSignal x0 x1 x2 x3 s4) := by
  unfold execSignal
  try dsimp only
  repeat' (with_reducible first | assumption | apply inv_next | apply inv_send | apply inv_trySignal | apply inv_openTag | apply inv_modTag | intro _ | dsimp only | split)

theorem inv_execSignalTagTimeout {x0 : Nat} {x1 : Nat} {s2 : State} (h2 : Inv s2) :
    OutInv (execSignalTagTimeout x0 x1 s2) := by
  unfold execSignalTagTimeout
  try dsimp only
  repeat' (with_reducible first | assumption | apply inv_next | apply inv_send | (simp only [inv_mk]; refine inv_of ?_) | intro _ | dsimp only | split)

theorem inv_execReadCompletion {x0 : Nat} {x1 : Bool} {x2 : List Byte} {s3 : State} (h3 : Inv s3) :
    OutInv (execReadCompletion x0 x1 x2 s3) := by
  unfold execReadCompletion
  try dsimp only
  repeat' (with_reducible first | assumption | apply inv_next | apply inv_reqCompletes | intro _ | dsimp only | split)

theorem inv_execWriteCompletion {x0 : Nat} {x1 : Bool} {s2 : State} (h2 : Inv s2) :
    OutInv (execWriteCompletion x0 x1 s2) := by
  unfold execWriteCompletion
  try dsimp only
  repeat' (with_reducible first | assumption | apply inv_next | apply inv_reqCompletes | intro _ | dsimp only | split)

theorem inv_execAtomicCompletion {x0 : Nat} {x1 : Bool} {x2 : Word} {s3 : State} (h3 : Inv s3) :
    OutInv (execAtomicCompletion x0 x1 x2 s3) := by
  unfold execAtomicCompletion
  try dsimp only
  repeat' (with_reducible first | assumption | apply inv_next | apply inv_reqCompletes | intro _ | dsimp only | split)

theorem inv_execTrailerCompletion {x0 : Nat} {x1 : Bool} {s2 : State} (h2 : Inv s2) :
    OutInv (execTrailerCompletion x0 x1 s2) := by
  unfold execTrailerCompletion
  try dsimp only
  repeat' (with_reducible first | assumption | apply inv_next | apply inv_id | exact inv_hold | apply inv_Act_done | apply inv_Act_go | apply inv_Act_then_ | apply inv_Ins_raise | apply inv_Ins_fail | apply inv_park | apply inv_act | apply inv_issue | exact inv_fault | apply inv_completeCopy | apply inv_retireCore | apply inv_dropReq | apply inv_reqFails | (intro _; rfl) | (apply inv_fst_of; assumption) | (simp only [inv_mk, List.length_set, List.length_map, List.length_mapIdx]; refine inv_of ?_) | intro _ | dsimp only | split)

theorem inv_execFabricRequestTimeout {x0 : Nat} {s1 : State} (h1 : Inv s1) :
    OutInv (execFabricRequestTimeout x0 s1) := by
  unfold execFabricRequestTimeout
  try dsimp only
  repeat' (with_reducible first | assumption | apply inv_next | apply inv_resendOrFail | intro _ | dsimp only | split)

/-- Putting a legal lane count keeps the ports legal. -/
theorem inv_ports {s : State} {p n : Nat} (h : Inv s) (hn : n = 0 ∨ n = 1 ∨ n = 2 ∨ n = 4) :
    Inv { s with ports := setAt s.ports p n } := by
  refine { h with count := ?_, lanes := ?_ }
  · simp only [setAt, List.length_set]; exact h.count
  · intro q hq
    rcases List.mem_or_eq_of_mem_set hq with hq | rfl
    · exact h.lanes q hq
    · exact hn

theorem inv_execPortLaneFailure {p n : Nat} {s : State} (h : Inv s) : OutInv (execPortLaneFailure p n s) := by
  unfold execPortLaneFailure
  dsimp only
  refine inv_next ?_
  split
  · have hp : Inv { s with ports := setAt s.ports p n } := inv_ports h (by omega)
    split
    · exact inv_foldl hp fun s q hs => inv_resendOrFail hs
    · exact hp
  · exact h

theorem inv_execPortComeUp {p n : Nat} {s : State} (h : Inv s) : OutInv (execPortComeUp p n s) := by
  unfold execPortComeUp
  refine inv_next ?_
  split
  · exact inv_ports h (by omega)
  · exact h

theorem inv_execGridCompletion {x0 : Nat} {s1 : State} (h1 : Inv s1) :
    OutInv (execGridCompletion x0 s1) := by
  unfold execGridCompletion
  try dsimp only
  repeat' (with_reducible first | assumption | apply inv_next | apply inv_completeGrid | apply inv_dropJobs | apply inv_serveEnding | intro _ | dsimp only | split)

theorem inv_execCancel {x0 : Nat} {x1 : Word} {s2 : State} (h2 : Inv s2) :
    OutInv (execCancel x0 x1 s2) := by
  unfold execCancel
  try dsimp only
  repeat' (with_reducible first | assumption | apply inv_next | apply inv_cancelGrid | (simp only [inv_mk, List.length_set]; refine inv_of ?_) | intro _ | dsimp only | split)

theorem inv_execLaunchRecord {s0 : State} (h0 : Inv s0) :
    OutInv (execLaunchRecord s0) := by
  unfold execLaunchRecord
  try dsimp only
  repeat' (with_reducible first | assumption | apply inv_next | apply inv_takeRecord | intro _ | dsimp only | split)

theorem inv_execDoorbell {x0 : Nat} {x1 : Nat} {s2 : State} (h2 : Inv s2) :
    OutInv (execDoorbell x0 x1 s2) := by
  unfold execDoorbell
  try dsimp only
  repeat' (with_reducible first | assumption | apply inv_next | (simp only [inv_mk, List.length_set]; refine inv_of ?_) | intro _ | dsimp only | split)

theorem inv_execShfx {x0 : Reg} {x1 : Reg} {x2 : Reg} {s3 : State} (h3 : Inv s3) :
    OutInv (execShfx x0 x1 x2 s3) := by
  unfold execShfx
  try dsimp only
  repeat' (with_reducible first | assumption | apply inv_Act_done | apply inv_issue | apply inv_Act_done | apply inv_editMap | intro _ | dsimp only | split)

theorem inv_execShfp {x0 : Reg} {x1 : Reg} {x2 : Reg} {s3 : State} (h3 : Inv s3) :
    OutInv (execShfp x0 x1 x2 s3) := by
  unfold execShfp
  try dsimp only
  repeat' (with_reducible first | assumption | apply inv_Act_done | apply inv_Ins_fail | apply inv_issue | apply inv_Act_done | apply inv_Ins_fail | apply inv_editMap | intro _ | dsimp only | split)

theorem inv_execShfb {x0 : Reg} {x1 : Reg} {x2 : Reg} {x3 : Fin 8} {s4 : State} (h4 : Inv s4) :
    OutInv (execShfb x0 x1 x2 x3 s4) := by
  unfold execShfb
  try dsimp only
  repeat' (with_reducible first | assumption | apply inv_Act_done | apply inv_Ins_fail | apply inv_issue | apply inv_Act_done | apply inv_Ins_fail | apply inv_editMap | intro _ | dsimp only | split)

theorem inv_execMat {x0 : Reg} {x1 : Reg} {x2 : Reg} {s3 : State} (h3 : Inv s3) :
    OutInv (execMat x0 x1 x2 s3) := by
  unfold execMat
  try dsimp only
  repeat' (with_reducible first | assumption | apply inv_Act_done | apply inv_Ins_fail | apply inv_issue | apply inv_Act_done | apply inv_Ins_fail | apply inv_editMap | intro _ | dsimp only | split)

theorem inv_execMapRd {x0 : Reg} {x1 : Reg} {s2 : State} (h2 : Inv s2) :
    OutInv (execMapRd x0 x1 s2) := by
  unfold execMapRd
  try dsimp only
  repeat' (with_reducible first | assumption | apply inv_Act_done | apply inv_issue | apply inv_Ins_mod | apply inv_Act_done | intro _ | dsimp only | split)

theorem inv_execMapWr {x0 : Reg} {x1 : Reg} {s2 : State} (h2 : Inv s2) :
    OutInv (execMapWr x0 x1 s2) := by
  unfold execMapWr
  try dsimp only
  repeat' (with_reducible first | assumption | apply inv_Act_done | apply inv_Ins_fail | apply inv_issue | apply inv_Ins_mod | apply inv_Act_done | apply inv_Ins_fail | intro _ | dsimp only | split)

theorem inv_execMapId {x0 : Reg} {x1 : Reg} {s2 : State} (h2 : Inv s2) :
    OutInv (execMapId x0 x1 s2) := by
  unfold execMapId
  try dsimp only
  repeat' (with_reducible first | assumption | apply inv_Act_done | apply inv_issue | apply inv_Act_done | apply inv_putVec | intro _ | dsimp only | split)

theorem inv_execShfi {x0 : Reg} {x1 : Reg} {x2 : Reg} {s3 : State} (h3 : Inv s3) :
    OutInv (execShfi x0 x1 x2 s3) := by
  unfold execShfi
  try dsimp only
  repeat' (with_reducible first | assumption | apply inv_Act_done | apply inv_issue | apply inv_Act_done | apply inv_putIdent | intro _ | dsimp only | split)

theorem inv_execShfr {x0 : Reg} {x1 : Reg} {x2 : Reg} {x3 : Fin 8} {s4 : State} (h4 : Inv s4) :
    OutInv (execShfr x0 x1 x2 x3 s4) := by
  unfold execShfr
  try dsimp only
  repeat' (with_reducible first | assumption | apply inv_Act_done | apply inv_Ins_fail | apply inv_issue | apply inv_Act_done | apply inv_Ins_fail | apply inv_putIdent | intro _ | dsimp only | split)

theorem inv_execVote {x0 : BitVec 7} {x1 : Fin 8} {x2 : Bool} {x3 : VoteFn} {s4 : State} (h4 : Inv s4) :
    OutInv (execVote x0 x1 x2 x3 s4) := by
  unfold execVote
  try dsimp only
  repeat' (with_reducible first | assumption | apply inv_Act_done | apply inv_Ins_fail | apply inv_issue | apply inv_Ins_mod | apply inv_Act_done | apply inv_Ins_fail | intro _ | dsimp only | split)

theorem inv_execMatchk {x0 : Reg} {x1 : Reg} {x2 : Bool} {x3 : MatchFn} {s4 : State} (h4 : Inv s4) :
    OutInv (execMatchk x0 x1 x2 x3 s4) := by
  unfold execMatchk
  try dsimp only
  repeat' (with_reducible first | assumption | apply inv_Act_done | apply inv_issue | apply inv_Act_done | apply inv_putIdent | intro _ | dsimp only | split)

theorem inv_execCdet {x0 : Reg} {x1 : Reg} {x2 : Bool} {x3 : Bool} {s4 : State} (h4 : Inv s4) :
    OutInv (execCdet x0 x1 x2 x3 s4) := by
  unfold execCdet
  try dsimp only
  repeat' (with_reducible first | assumption | apply inv_Act_done | apply inv_issue | apply inv_Act_done | apply inv_putIdent | intro _ | dsimp only | split)

theorem inv_execQapp {x0 : Reg} {x1 : Reg} {x2 : Reg} {s3 : State} (h3 : Inv s3) :
    OutInv (execQapp x0 x1 x2 s3) := by
  unfold execQapp
  try dsimp only
  repeat' (with_reducible first | assumption | apply inv_Act_done | apply inv_issue | apply inv_Act_done | apply inv_putIdent | intro _ | dsimp only | split)

theorem inv_execPscan {x0 : Reg} {x1 : Reg} {x2 : Fin 8} {x3 : Bool} {x4 : Bool} {x5 : ScanOp} {s6 : State} (h6 : Inv s6) :
    OutInv (execPscan x0 x1 x2 x3 x4 x5 s6) := by
  unfold execPscan
  try dsimp only
  repeat' (with_reducible first | assumption | apply inv_Act_done | apply inv_issue | apply inv_Act_done | apply inv_putIdent | intro _ | dsimp only | split)

theorem inv_execRedx {x0 : Reg} {x1 : Reg} {x2 : Reg} {x3 : Bool} {x4 : RedOp} {s5 : State} (h5 : Inv s5) :
    OutInv (execRedx x0 x1 x2 x3 x4 s5) := by
  unfold execRedx
  try dsimp only
  repeat' (with_reducible first | assumption | apply inv_Act_done | apply inv_issue | apply inv_Act_done | apply inv_putIdent | intro _ | dsimp only | split)

theorem inv_execSegr {x0 : Reg} {x1 : Reg} {x2 : Fin 8} {x3 : Bool} {x4 : SegOp} {s5 : State} (h5 : Inv s5) :
    OutInv (execSegr x0 x1 x2 x3 x4 s5) := by
  unfold execSegr
  try dsimp only
  repeat' (with_reducible first | assumption | apply inv_Act_done | apply inv_issue | apply inv_Ins_mod | apply inv_Act_done | intro _ | dsimp only | split)

theorem inv_execRlt {x0 : Reg} {x1 : Reg} {s2 : State} (h2 : Inv s2) :
    OutInv (execRlt x0 x1 s2) := by
  unfold execRlt
  try dsimp only
  repeat' (with_reducible first | assumption | apply inv_Act_done | apply inv_Ins_fail | apply inv_issue | apply inv_Act_done | apply inv_Ins_fail | apply inv_putIdent | intro _ | dsimp only | split)

theorem inv_execRwalk {x0 : Reg} {x1 : Reg} {x2 : Reg} {x3 : Fin 8} {s4 : State} (h4 : Inv s4) :
    OutInv (execRwalk x0 x1 x2 x3 s4) := by
  unfold execRwalk
  try dsimp only
  repeat' (with_reducible first | assumption | apply inv_Act_done | apply inv_issue | apply inv_State_modGroup | apply inv_Act_done | apply inv_putIdent | intro _ | dsimp only | split)

theorem inv_execPerf {x0 : Reg} {x1 : Reg} {x2 : Reg} {x3 : Bool} {x4 : Fin 8} {s5 : State} (h5 : Inv s5) :
    OutInv (execPerf x0 x1 x2 x3 x4 s5) := by
  unfold execPerf
  try dsimp only
  repeat' (with_reducible first | assumption | apply inv_Act_done | apply inv_Ins_fail | apply inv_issue | apply inv_Act_done | apply inv_Ins_fail | intro _ | dsimp only | split)

theorem inv_execHpsh {x0 : Reg} {x1 : Reg} {x2 : Reg} {s3 : State} (h3 : Inv s3) :
    OutInv (execHpsh x0 x1 x2 s3) := by
  unfold execHpsh
  try dsimp only
  repeat' (with_reducible first | assumption | apply inv_Act_done | apply inv_Ins_fail | apply inv_issue | apply inv_State_modGroup | apply inv_spill | apply inv_Act_done | apply inv_Ins_fail | (simp only [inv_mk]; refine inv_of ?_) | intro _ | dsimp only | split)

theorem inv_execHpop {s0 : State} (h0 : Inv s0) :
    OutInv (execHpop s0) := by
  unfold execHpop
  try dsimp only
  repeat' (with_reducible first | assumption | apply inv_Act_done | apply inv_Ins_fail | apply inv_issue | apply inv_Ins_mod | apply inv_Act_done | apply inv_Ins_fail | intro _ | dsimp only | split)

theorem inv_execRsum {x0 : Fin 4} {x1 : Reg} {x2 : RsumAct} {s3 : State} (h3 : Inv s3) :
    OutInv (execRsum x0 x1 x2 s3) := by
  unfold execRsum
  try dsimp only
  repeat' (with_reducible first | assumption | apply inv_Act_then_ | apply inv_Ins_fail | apply inv_issue | apply inv_resume | apply inv_Act_then_ | apply inv_Ins_fail | apply inv_withToken | intro _ | dsimp only | split)

theorem inv_execTokd {x0 : Fin 4} {s1 : State} (h1 : Inv s1) :
    OutInv (execTokd x0 s1) := by
  unfold execTokd
  try dsimp only
  repeat' (with_reducible first | assumption | apply inv_Act_done | apply inv_Ins_fail | apply inv_issue | apply inv_Ins_mod | apply inv_Act_done | apply inv_Ins_fail | apply inv_withToken | intro _ | dsimp only | split)

theorem inv_execTokdAbort {x0 : Fin 4} {s1 : State} (h1 : Inv s1) :
    OutInv (execTokdAbort x0 s1) := by
  unfold execTokdAbort
  try dsimp only
  repeat' (with_reducible first | assumption | apply inv_Act_then_ | apply inv_Ins_fail | apply inv_issue | apply inv_abort | apply inv_Act_then_ | apply inv_Ins_fail | apply inv_withToken | intro _ | dsimp only | split)

theorem inv_execTokdMov {x0 : Fin 4} {x1 : Fin 4} {s2 : State} (h2 : Inv s2) :
    OutInv (execTokdMov x0 x1 s2) := by
  unfold execTokdMov
  try dsimp only
  repeat' (with_reducible first | assumption | apply inv_Act_done | apply inv_issue | apply inv_Ins_mod | apply inv_Act_done | apply inv_withToken | intro _ | dsimp only | split)

theorem inv_execFadd {x0 : Reg} {x1 : Reg} {x2 : Reg} {x3 : Bool} {x4 : Rm} {s5 : State} (h5 : Inv s5) :
    OutInv (execFadd x0 x1 x2 x3 x4 s5) := by
  unfold execFadd
  try dsimp only
  repeat' (with_reducible first | assumption | apply inv_issue | apply inv_elem | intro _ | dsimp only | split)

theorem inv_execFsub {x0 : Reg} {x1 : Reg} {x2 : Reg} {x3 : Bool} {x4 : Rm} {s5 : State} (h5 : Inv s5) :
    OutInv (execFsub x0 x1 x2 x3 x4 s5) := by
  unfold execFsub
  try dsimp only
  repeat' (with_reducible first | assumption | apply inv_issue | apply inv_elem | intro _ | dsimp only | split)

theorem inv_execFmul {x0 : Reg} {x1 : Reg} {x2 : Reg} {x3 : Bool} {x4 : Rm} {s5 : State} (h5 : Inv s5) :
    OutInv (execFmul x0 x1 x2 x3 x4 s5) := by
  unfold execFmul
  try dsimp only
  repeat' (with_reducible first | assumption | apply inv_issue | apply inv_elem | intro _ | dsimp only | split)

theorem inv_execFfma {x0 : Reg} {x1 : Reg} {x2 : Reg} {x3 : Bool} {x4 : Bool} {x5 : Rm} {s6 : State} (h6 : Inv s6) :
    OutInv (execFfma x0 x1 x2 x3 x4 x5 s6) := by
  unfold execFfma
  try dsimp only
  repeat' (with_reducible first | assumption | apply inv_issue | apply inv_elem | intro _ | dsimp only | split)

theorem inv_execFmnx {x0 : Reg} {x1 : Reg} {x2 : Reg} {x3 : Bool} {x4 : MnxFn} {s5 : State} (h5 : Inv s5) :
    OutInv (execFmnx x0 x1 x2 x3 x4 s5) := by
  unfold execFmnx
  try dsimp only
  repeat' (with_reducible first | assumption | apply inv_issue | apply inv_elem | intro _ | dsimp only | split)

theorem inv_execFset {x0 : Fin 8} {x1 : Reg} {x2 : Reg} {x3 : Bool} {x4 : FCond} {s5 : State} (h5 : Inv s5) :
    OutInv (execFset x0 x1 x2 x3 x4 s5) := by
  unfold execFset
  try dsimp only
  repeat' (with_reducible first | assumption | apply inv_issue | apply inv_compare | intro _ | dsimp only | split)

theorem inv_execFcvt {x0 : Reg} {x1 : Reg} {x2 : CvtSrc} {x3 : CvtTgt} {x4 : Bool} {x5 : Bool} {x6 : Rm} {s7 : State} (h7 : Inv s7) :
    OutInv (execFcvt x0 x1 x2 x3 x4 x5 x6 s7) := by
  unfold execFcvt
  try dsimp only
  repeat' (with_reducible first | assumption | apply inv_issue | apply inv_elem | intro _ | dsimp only | split)

theorem inv_execHadd2 {x0 : Reg} {x1 : Reg} {x2 : Reg} {x3 : Bool} {x4 : Bool} {x5 : Rm} {s6 : State} (h6 : Inv s6) :
    OutInv (execHadd2 x0 x1 x2 x3 x4 x5 s6) := by
  unfold execHadd2
  try dsimp only
  repeat' (with_reducible first | assumption | apply inv_issue | apply inv_elem | intro _ | dsimp only | split)

theorem inv_execHfma2 {x0 : Reg} {x1 : Reg} {x2 : Reg} {x3 : Bool} {x4 : Bool} {x5 : Rm} {s6 : State} (h6 : Inv s6) :
    OutInv (execHfma2 x0 x1 x2 x3 x4 x5 s6) := by
  unfold execHfma2
  try dsimp only
  repeat' (with_reducible first | assumption | apply inv_issue | apply inv_elem | intro _ | dsimp only | split)

theorem inv_execHmul2 {x0 : Reg} {x1 : Reg} {x2 : Reg} {x3 : Bool} {x4 : Bool} {x5 : Rm} {s6 : State} (h6 : Inv s6) :
    OutInv (execHmul2 x0 x1 x2 x3 x4 x5 s6) := by
  unfold execHmul2
  try dsimp only
  repeat' (with_reducible first | assumption | apply inv_issue | apply inv_elem | intro _ | dsimp only | split)

theorem inv_execFsfu {x0 : Reg} {x1 : Reg} {x2 : Bool} {x3 : SfuFn} {s4 : State} (h4 : Inv s4) :
    OutInv (execFsfu x0 x1 x2 x3 s4) := by
  unfold execFsfu
  try dsimp only
  repeat' (with_reducible first | assumption | apply inv_Act_done | apply inv_issue | apply inv_Act_done | apply inv_longElem | intro _ | dsimp only | split)

theorem inv_execFuna {x0 : Reg} {x1 : Reg} {x2 : Reg} {x3 : Bool} {x4 : FunaFn} {s5 : State} (h5 : Inv s5) :
    OutInv (execFuna x0 x1 x2 x3 x4 s5) := by
  unfold execFuna
  try dsimp only
  repeat' (with_reducible first | assumption | apply inv_issue | apply inv_elemInt | intro _ | dsimp only | split)

theorem inv_execExpo {x0 : Reg} {x1 : Reg} {x2 : Bool} {x3 : Bool} {s4 : State} (h4 : Inv s4) :
    OutInv (execExpo x0 x1 x2 x3 s4) := by
  unfold execExpo
  try dsimp only
  repeat' (with_reducible first | assumption | apply inv_issue | apply inv_elem | intro _ | dsimp only | split)

theorem inv_execLdexp {x0 : Reg} {x1 : Reg} {x2 : Reg} {x3 : Bool} {x4 : Rm} {s5 : State} (h5 : Inv s5) :
    OutInv (execLdexp x0 x1 x2 x3 x4 s5) := by
  unfold execLdexp
  try dsimp only
  repeat' (with_reducible first | assumption | apply inv_issue | apply inv_elem | intro _ | dsimp only | split)

theorem inv_execMaxe {x0 : Reg} {x1 : Reg} {x2 : Reg} {x3 : Bool} {s4 : State} (h4 : Inv s4) :
    OutInv (execMaxe x0 x1 x2 x3 s4) := by
  unfold execMaxe
  try dsimp only
  repeat' (with_reducible first | assumption | apply inv_issue | apply inv_elem | intro _ | dsimp only | split)

theorem inv_execSexp {x0 : Reg} {x1 : Reg} {x2 : Reg} {x3 : Bool} {s4 : State} (h4 : Inv s4) :
    OutInv (execSexp x0 x1 x2 x3 s4) := by
  unfold execSexp
  try dsimp only
  repeat' (with_reducible first | assumption | apply inv_issue | apply inv_elem | intro _ | dsimp only | split)

theorem inv_execFrow {x0 : Reg} {x1 : Reg} {x2 : Reg} {x3 : Bool} {x4 : Bool} {x5 : RowFn} {s6 : State} (h6 : Inv s6) :
    OutInv (execFrow x0 x1 x2 x3 x4 x5 s6) := by
  unfold execFrow
  try dsimp only
  repeat' (with_reducible first | assumption | apply inv_issue | apply inv_elem | intro _ | dsimp only | split)

theorem inv_execIadd {x0 : Reg} {x1 : Reg} {x2 : Reg} {x3 : Bool} {x4 : SatMode} {s5 : State} (h5 : Inv s5) :
    OutInv (execIadd x0 x1 x2 x3 x4 s5) := by
  unfold execIadd
  try dsimp only
  repeat' (with_reducible first | assumption | apply inv_issue | apply inv_elemInt | intro _ | dsimp only | split)

theorem inv_execIsub {x0 : Reg} {x1 : Reg} {x2 : Reg} {x3 : Bool} {x4 : SatMode} {s5 : State} (h5 : Inv s5) :
    OutInv (execIsub x0 x1 x2 x3 x4 s5) := by
  unfold execIsub
  try dsimp only
  repeat' (with_reducible first | assumption | apply inv_issue | apply inv_elemInt | intro _ | dsimp only | split)

theorem inv_execImul {x0 : Reg} {x1 : Reg} {x2 : Reg} {x3 : Bool} {x4 : MulMode} {s5 : State} (h5 : Inv s5) :
    OutInv (execImul x0 x1 x2 x3 x4 s5) := by
  unfold execImul
  try dsimp only
  repeat' (with_reducible first | assumption | apply inv_issue | apply inv_elemInt | intro _ | dsimp only | split)

theorem inv_execImad {x0 : Reg} {x1 : Reg} {x2 : Reg} {x3 : Bool} {s4 : State} (h4 : Inv s4) :
    OutInv (execImad x0 x1 x2 x3 s4) := by
  unfold execImad
  try dsimp only
  repeat' (with_reducible first | assumption | apply inv_issue | apply inv_elemInt | intro _ | dsimp only | split)

theorem inv_execImnx {x0 : Reg} {x1 : Reg} {x2 : Reg} {x3 : Bool} {x4 : Bool} {x5 : Bool} {s6 : State} (h6 : Inv s6) :
    OutInv (execImnx x0 x1 x2 x3 x4 x5 s6) := by
  unfold execImnx
  try dsimp only
  repeat' (with_reducible first | assumption | apply inv_issue | apply inv_elemInt | intro _ | dsimp only | split)

theorem inv_execIuna {x0 : Reg} {x1 : Reg} {x2 : Bool} {x3 : UnaFn} {s4 : State} (h4 : Inv s4) :
    OutInv (execIuna x0 x1 x2 x3 s4) := by
  unfold execIuna
  try dsimp only
  repeat' (with_reducible first | assumption | apply inv_issue | apply inv_elemInt | intro _ | dsimp only | split)

theorem inv_execIset {x0 : Fin 8} {x1 : Reg} {x2 : Reg} {x3 : Bool} {x4 : ICond} {s5 : State} (h5 : Inv s5) :
    OutInv (execIset x0 x1 x2 x3 x4 s5) := by
  unfold execIset
  try dsimp only
  repeat' (with_reducible first | assumption | apply inv_issue | apply inv_compare | intro _ | dsimp only | split)

theorem inv_execIaddi {x0 : Reg} {x1 : Reg} {x2 : BitVec 11} {s3 : State} (h3 : Inv s3) :
    OutInv (execIaddi x0 x1 x2 s3) := by
  unfold execIaddi
  try dsimp only
  repeat' (with_reducible first | assumption | apply inv_issue | apply inv_elemInt | intro _ | dsimp only | split)

theorem inv_execIand {x0 : Reg} {x1 : Reg} {x2 : Reg} {x3 : Bool} {s4 : State} (h4 : Inv s4) :
    OutInv (execIand x0 x1 x2 x3 s4) := by
  unfold execIand
  try dsimp only
  repeat' (with_reducible first | assumption | apply inv_issue | apply inv_elemInt | intro _ | dsimp only | split)

theorem inv_execIor {x0 : Reg} {x1 : Reg} {x2 : Reg} {x3 : Bool} {s4 : State} (h4 : Inv s4) :
    OutInv (execIor x0 x1 x2 x3 s4) := by
  unfold execIor
  try dsimp only
  repeat' (with_reducible first | assumption | apply inv_issue | apply inv_elemInt | intro _ | dsimp only | split)

theorem inv_execIxor {x0 : Reg} {x1 : Reg} {x2 : Reg} {x3 : Bool} {s4 : State} (h4 : Inv s4) :
    OutInv (execIxor x0 x1 x2 x3 s4) := by
  unfold execIxor
  try dsimp only
  repeat' (with_reducible first | assumption | apply inv_issue | apply inv_elemInt | intro _ | dsimp only | split)

theorem inv_execIandn {x0 : Reg} {x1 : Reg} {x2 : Reg} {x3 : Bool} {s4 : State} (h4 : Inv s4) :
    OutInv (execIandn x0 x1 x2 x3 s4) := by
  unfold execIandn
  try dsimp only
  repeat' (with_reducible first | assumption | apply inv_issue | apply inv_elemInt | intro _ | dsimp only | split)

theorem inv_execShl {x0 : Reg} {x1 : Reg} {x2 : Reg} {x3 : Bool} {s4 : State} (h4 : Inv s4) :
    OutInv (execShl x0 x1 x2 x3 s4) := by
  unfold execShl
  try dsimp only
  repeat' (with_reducible first | assumption | apply inv_issue | apply inv_elemInt | intro _ | dsimp only | split)

theorem inv_execShr {x0 : Reg} {x1 : Reg} {x2 : Reg} {x3 : Bool} {x4 : ShrMode} {s5 : State} (h5 : Inv s5) :
    OutInv (execShr x0 x1 x2 x3 x4 s5) := by
  unfold execShr
  try dsimp only
  repeat' (with_reducible first | assumption | apply inv_issue | apply inv_elemInt | intro _ | dsimp only | split)

theorem inv_execBfx {x0 : Reg} {x1 : Reg} {x2 : Reg} {x3 : Bool} {x4 : BfxMode} {s5 : State} (h5 : Inv s5) :
    OutInv (execBfx x0 x1 x2 x3 x4 s5) := by
  unfold execBfx
  try dsimp only
  repeat' (with_reducible first | assumption | apply inv_issue | apply inv_elemInt | intro _ | dsimp only | split)

theorem inv_execBits {x0 : Reg} {x1 : Reg} {x2 : Bool} {x3 : BitsFn} {s4 : State} (h4 : Inv s4) :
    OutInv (execBits x0 x1 x2 x3 s4) := by
  unfold execBits
  try dsimp only
  repeat' (with_reducible first | assumption | apply inv_issue | apply inv_elemInt | intro _ | dsimp only | split)

theorem inv_execSel {x0 : Reg} {x1 : Reg} {x2 : Reg} {x3 : Bool} {x4 : Fin 8} {s5 : State} (h5 : Inv s5) :
    OutInv (execSel x0 x1 x2 x3 x4 s5) := by
  unfold execSel
  try dsimp only
  repeat' (with_reducible first | assumption | apply inv_Act_done | apply inv_issue | apply inv_Act_done | apply inv_putElem | intro _ | dsimp only | split)

theorem inv_execPlog {x0 : Fin 8} {x1 : Fin 8} {x2 : Fin 8} {x3 : PlogOp} {s4 : State} (h4 : Inv s4) :
    OutInv (execPlog x0 x1 x2 x3 s4) := by
  unfold execPlog
  try dsimp only
  repeat' (with_reducible first | assumption | apply inv_Act_done | apply inv_issue | apply inv_Ins_mod | apply inv_Act_done | intro _ | dsimp only | split)

theorem inv_execIdiv {x0 : Reg} {x1 : Reg} {x2 : Reg} {x3 : Bool} {x4 : Bool} {x5 : Bool} {s6 : State} (h6 : Inv s6) :
    OutInv (execIdiv x0 x1 x2 x3 x4 x5 s6) := by
  unfold execIdiv
  try dsimp only
  repeat' (with_reducible first | assumption | apply inv_Act_done | apply inv_Ins_raise | apply inv_issue | apply inv_Act_done | apply inv_Ins_raise | apply inv_Ins_flight | apply inv_longElem | intro _ | dsimp only | split)

theorem inv_execAddr {x0 : Reg} {x1 : Reg} {x2 : Reg} {x3 : Bool} {x4 : Fin 8} {s5 : State} (h5 : Inv s5) :
    OutInv (execAddr x0 x1 x2 x3 x4 s5) := by
  unfold execAddr
  try dsimp only
  repeat' (with_reducible first | assumption | apply inv_issue | apply inv_elemInt | intro _ | dsimp only | split)

theorem inv_execIseti {x0 : Fin 8} {x1 : ICond} {x2 : Reg} {x3 : BitVec 11} {s4 : State} (h4 : Inv s4) :
    OutInv (execIseti x0 x1 x2 x3 s4) := by
  unfold execIseti
  try dsimp only
  repeat' (with_reducible first | assumption | apply inv_issue | apply inv_compare | intro _ | dsimp only | split)

theorem inv_execAndi {x0 : Reg} {x1 : Reg} {x2 : BitVec 11} {s3 : State} (h3 : Inv s3) :
    OutInv (execAndi x0 x1 x2 s3) := by
  unfold execAndi
  try dsimp only
  repeat' (with_reducible first | assumption | apply inv_issue | apply inv_elemInt | intro _ | dsimp only | split)

theorem inv_execXori {x0 : Reg} {x1 : Reg} {x2 : BitVec 11} {s3 : State} (h3 : Inv s3) :
    OutInv (execXori x0 x1 x2 s3) := by
  unfold execXori
  try dsimp only
  repeat' (with_reducible first | assumption | apply inv_issue | apply inv_elemInt | intro _ | dsimp only | split)

theorem inv_execShi {x0 : Reg} {x1 : Reg} {x2 : ShiKind} {x3 : Fin 32} {s4 : State} (h4 : Inv s4) :
    OutInv (execShi x0 x1 x2 x3 s4) := by
  unfold execShi
  try dsimp only
  repeat' (with_reducible first | assumption | apply inv_issue | apply inv_elemInt | intro _ | dsimp only | split)

theorem inv_execSplit {x0 : Reg} {x1 : BitVec 11} {s2 : State} (h2 : Inv s2) :
    OutInv (execSplit x0 x1 s2) := by
  unfold execSplit
  try dsimp only
  repeat' (with_reducible first | assumption | exact inv_hold | apply inv_Act_then_ | apply inv_issue | apply inv_Act_then_ | apply inv_widthStatus | apply inv_splitParts | apply inv_splitMembers | intro _ | dsimp only | split)

theorem inv_execFuse {x0 : Reg} {x1 : Reg} {x2 : BitVec 11} {s3 : State} (h3 : Inv s3) :
    OutInv (execFuse x0 x1 x2 s3) := by
  unfold execFuse
  try dsimp only
  repeat' (with_reducible first | assumption | exact inv_hold | apply inv_issue | apply inv_widthStatus | apply inv_rendezvous | intro _ | dsimp only | split)

theorem inv_execFuseRendezvousTimeout {x0 : GKey} {s1 : State} (h1 : Inv s1) :
    OutInv (execFuseRendezvousTimeout x0 s1) := by
  unfold execFuseRendezvousTimeout
  try dsimp only
  repeat' (with_reducible first | assumption | apply inv_next | apply inv_endWait | intro _ | dsimp only | split)

theorem inv_execClusterPlacement {x0 : Nat} {s1 : State} (h1 : Inv s1) :
    OutInv (execClusterPlacement x0 s1) := by
  unfold execClusterPlacement
  try dsimp only
  repeat' (with_reducible first | assumption | apply inv_next | apply inv_placeMapped | apply inv_placeNext | intro _ | dsimp only | split)

theorem inv_execFallbackMode {x0 : Nat} {s1 : State} (h1 : Inv s1) :
    OutInv (execFallbackMode x0 s1) := by
  unfold execFallbackMode
  try dsimp only
  repeat' (with_reducible first | assumption | apply inv_next | apply inv_State_setGrid | apply inv_placeNext | intro _ | dsimp only | split)

theorem inv_execPriority7Preemption {x0 : Nat} {s1 : State} (h1 : Inv s1) :
    OutInv (execPriority7Preemption x0 s1) := by
  unfold execPriority7Preemption
  try dsimp only
  repeat' (with_reducible first | assumption | apply inv_next | apply inv_requestPreempt | apply inv_foldl | intro _ | dsimp only | split)

theorem inv_execPreempt {x0 : Nat} {x1 : Word} {s2 : State} (h2 : Inv s2) :
    OutInv (execPreempt x0 x1 s2) := by
  unfold execPreempt
  try dsimp only
  repeat' (with_reducible first | assumption | apply inv_next | apply inv_requestPreempt | intro _ | dsimp only | split)

theorem inv_execPreemptHaltComplete {x0 : Nat} {s1 : State} (h1 : Inv s1) :
    OutInv (execPreemptHaltComplete x0 s1) := by
  unfold execPreemptHaltComplete
  try dsimp only
  repeat' (with_reducible first | assumption | apply inv_next | apply inv_saveGrid | intro _ | dsimp only | split)

theorem inv_execGridRestore {x0 : Nat} {s1 : State} (h1 : Inv s1) :
    OutInv (execGridRestore x0 s1) := by
  unfold execGridRestore
  try dsimp only
  repeat' (with_reducible first | assumption | apply inv_next | apply inv_restoreGrid | intro _ | dsimp only | split)

theorem inv_execAtctl {x0 : Word} {s1 : State} (h1 : Inv s1) :
    OutInv (execAtctl x0 s1) := by
  unfold execAtctl
  try dsimp only
  repeat' (with_reducible first | assumption | apply inv_next | apply inv_modPlat | (intro _; rfl) | intro _ | dsimp only | split)

theorem inv_execRegisterWrite {x0 : Bool} {x1 : Nat} {x2 : Word} {s3 : State} (h3 : Inv s3) :
    OutInv (execRegisterWrite x0 x1 x2 s3) := by
  unfold execRegisterWrite
  try dsimp only
  repeat' (with_reducible first | assumption | apply inv_next | apply inv_writePlain | apply inv_refuseHost | apply inv_execInvctl | apply inv_execCodeinv | apply inv_execCancel | apply inv_execDoorbell | apply inv_execPreempt | apply inv_execAtctl | intro _ | dsimp only | split)

theorem inv_execRailSample {x0 : Nat} {x1 : List Rail} {s2 : State} (h2 : Inv s2) :
    OutInv (execRailSample x0 x1 s2) := by
  unfold execRailSample
  try dsimp only
  repeat' (with_reducible first | assumption | apply inv_next | apply inv_id | exact inv_hold | apply inv_Act_done | apply inv_Act_go | apply inv_Act_then_ | apply inv_Ins_raise | apply inv_Ins_fail | apply inv_park | apply inv_act | apply inv_issue | exact inv_fault | apply inv_State_modDie | apply inv_State_traceWrite | apply inv_writeResidents | (intro _; rfl) | apply inv_foldl | apply inv_foldl_fst | (simp only [inv_mk, List.length_set, List.length_map, List.length_mapIdx]; refine inv_of ?_) | intro _ | dsimp only | split)

theorem inv_execEnergyShare {x0 : List Nat} {x1 x2 : Nat} {s2 : State} (h2 : Inv s2) :
    OutInv (execEnergyShare x0 x1 x2 s2) := by
  unfold execEnergyShare
  try dsimp only
  repeat' (with_reducible first | assumption | apply inv_next | apply inv_shareOut | apply inv_foldl | (simp only [inv_mk]; refine inv_of ?_) | intro _ | dsimp only | split)

theorem inv_execPatrolScrub {s0 : State} (h0 : Inv s0) :
    OutInv (execPatrolScrub s0) := by
  unfold execPatrolScrub
  try dsimp only
  repeat' (with_reducible first | assumption | apply inv_next | (simp only [inv_mk]; refine inv_of ?_) | intro _ | dsimp only | split)

theorem inv_execUnitLoss {x0 : LostUnit} {s1 : State} (h1 : Inv s1) :
    OutInv (execUnitLoss x0 s1) := by
  unfold execUnitLoss
  try dsimp only
  repeat' (with_reducible first | assumption | apply inv_next | apply inv_modPlat | (intro _; rfl) | (simp only [inv_mk]; refine inv_of ?_) | intro _ | dsimp only | split)

theorem inv_hostRegister {a b : Bool} {o n : Nat} {l : List Byte} {s : State} (h : Inv s) : OutInv (hostRegister a b o n l s) := by
  unfold hostRegister
  repeat' split
  · exact inv_execRegisterWrite h
  · exact h
  · exact inv_send h
  · exact inv_send (inv_refuseHost h)
  · exact inv_send h

theorem inv_execHostMemoryAccess {a b : Bool} {o n : Nat} {l : List Byte} {s : State} (h : Inv s) :
    OutInv (execHostMemoryAccess a b o n l s) := by
  unfold execHostMemoryAccess
  dsimp only
  generalize (if b = true then l.length else n) = m
  split
  · exact inv_hostRegister h
  · refine inv_next ?_
    repeat' (with_reducible first | assumption | apply inv_send | apply inv_refuseHost | apply inv_State_store | split)

theorem inv_execAttestationReport {s0 : State} (h0 : Inv s0) :
    OutInv (execAttestationReport s0) := by
  unfold execAttestationReport
  try dsimp only
  repeat' (with_reducible first | assumption | apply inv_next | apply inv_modPlat | (intro _; rfl) | intro _ | dsimp only | split)

theorem inv_execThrottle {up : Bool} {s : State} (h : Inv s) : OutInv (execThrottle up s) := by
  obtain ⟨n, hn, h1, h2⟩ := h.clock
  refine { h with clock := ?_ }
  simp only [modPlat]
  split <;> split
  all_goals rename_i hc
  · simp only [Bool.and_eq_true, decide_eq_true_eq] at hc
    exact ⟨n + 1, by simp only; omega, by omega, by omega⟩
  · exact ⟨n, hn, h1, h2⟩
  · simp only [Bool.and_eq_true, decide_eq_true_eq] at hc
    exact ⟨n - 1, by simp only; omega, by omega, by omega⟩
  · exact ⟨n, hn, h1, h2⟩

theorem inv_execThermalShutdown {s0 : State} (h0 : Inv s0) :
    OutInv (execThermalShutdown s0) := by
  unfold execThermalShutdown
  try dsimp only
  repeat' (with_reducible first | assumption | apply inv_next | apply inv_cancelGrid | apply inv_modPlat | (intro _; rfl) | apply inv_foldl | intro _ | dsimp only | split)

theorem inv_execReset {s : State} (h : Inv s) : OutInv (execReset s) :=
  ⟨Memory.filter_wf _ h.mem, List.length_replicate, List.length_replicate, List.length_replicate, List.length_replicate,
    fun _ hp => .inl (List.eq_of_mem_replicate hp), ⟨20, rfl, by omega, by omega⟩⟩

theorem inv_execFirmwareImage {x0 : List Byte} {s1 : State} (h1 : Inv s1) :
    OutInv (execFirmwareImage x0 s1) := by
  unfold execFirmwareImage
  try dsimp only
  repeat' (with_reducible first | assumption | apply inv_next | apply inv_modPlat | apply inv_readImage | apply inv_runImage | (intro _; rfl) | intro _ | dsimp only | split)

theorem inv_execBar {x0 : Fin 16} {s1 : State} (h1 : Inv s1) :
    OutInv (execBar x0 s1) := by
  unfold execBar
  try dsimp only
  repeat' (with_reducible first | assumption | apply inv_issue | apply inv_arriveAt | intro _ | dsimp only | split)

theorem inv_execBara {x0 : Reg} {x1 : Fin 16} {s2 : State} (h2 : Inv s2) :
    OutInv (execBara x0 x1 s2) := by
  unfold execBara
  try dsimp only
  repeat' (with_reducible first | assumption | apply inv_issue | apply inv_arriveAt | intro _ | dsimp only | split)

theorem inv_execBarw {x0 : Reg} {x1 : Fin 16} {s2 : State} (h2 : Inv s2) :
    OutInv (execBarw x0 x1 s2) := by
  unfold execBarw
  try dsimp only
  repeat' (with_reducible first | assumption | apply inv_Act_done | apply inv_issue | apply inv_Ins_mod | apply inv_Act_done | apply inv_outsideHandler | intro _ | dsimp only | split)

theorem inv_execBari {x0 : Reg} {x1 : Fin 16} {x2 : Bool} {s3 : State} (h3 : Inv s3) :
    OutInv (execBari x0 x1 x2 s3) := by
  unfold execBari
  try dsimp only
  repeat' (with_reducible first | assumption | apply inv_Act_done | apply inv_Ins_fail | apply inv_issue | apply inv_State_putBar | apply inv_Act_done | apply inv_Ins_fail | intro _ | dsimp only | split)

theorem inv_execSysRdsr {x0 : Reg} {x1 : BitVec 7} {s2 : State} (h2 : Inv s2) :
    OutInv (execSysRdsr x0 x1 s2) := by
  unfold execSysRdsr
  try dsimp only
  repeat' (with_reducible first | assumption | apply inv_Act_done | apply inv_issue | apply inv_Act_done | apply inv_Ins_flight | intro _ | dsimp only | split)

theorem inv_execSysWrsr {x0 : Reg} {x1 : BitVec 7} {s2 : State} (h2 : Inv s2) :
    OutInv (execSysWrsr x0 x1 s2) := by
  unfold execSysWrsr
  try dsimp only
  repeat' (with_reducible first | assumption | apply inv_Act_done | apply inv_Ins_fail | apply inv_issue | apply inv_Act_done | apply inv_Ins_fail | apply inv_Ins_flight | intro _ | dsimp only | split)

theorem inv_execSysStamp {x0 : Reg} {s1 : State} (h1 : Inv s1) :
    OutInv (execSysStamp x0 s1) := by
  unfold execSysStamp
  try dsimp only
  repeat' (with_reducible first | assumption | apply inv_Act_done | apply inv_Ins_fail | apply inv_issue | apply inv_Act_done | apply inv_Ins_fail | apply inv_Ins_flight | apply inv_entitled | intro _ | dsimp only | split)

theorem inv_execSysProf {x0 : Reg} {s1 : State} (h1 : Inv s1) :
    OutInv (execSysProf x0 s1) := by
  unfold execSysProf
  try dsimp only
  repeat' (with_reducible first | assumption | apply inv_Act_done | apply inv_issue | apply inv_State_traceRecord | apply inv_Act_done | apply inv_Ins_flight | intro _ | dsimp only | split)

theorem inv_execSysTime {x0 : Reg} {s1 : State} (h1 : Inv s1) :
    OutInv (execSysTime x0 s1) := by
  unfold execSysTime
  try dsimp only
  repeat' (with_reducible first | assumption | apply inv_Act_done | apply inv_issue | apply inv_Act_done | apply inv_Ins_flight | intro _ | dsimp only | split)

theorem inv_execSysFlags {x0 : Reg} {x1 : Reg} {x2 : Bool} {s3 : State} (h3 : Inv s3) :
    OutInv (execSysFlags x0 x1 x2 s3) := by
  unfold execSysFlags
  try dsimp only
  repeat' (with_reducible first | assumption | apply inv_Act_done | apply inv_issue | apply inv_Ins_mod | apply inv_Act_done | apply inv_Ins_flight | intro _ | dsimp only | split)

theorem inv_execLongLatencyCompletion {x0 : GKey} {x1 : Nat} {s2 : State} (h2 : Inv s2) :
    OutInv (execLongLatencyCompletion x0 x1 s2) := by
  unfold execLongLatencyCompletion
  try dsimp only
  repeat' (with_reducible first | assumption | apply inv_next | apply inv_id | exact inv_hold | apply inv_Act_done | apply inv_Act_go | apply inv_Act_then_ | apply inv_Ins_raise | apply inv_Ins_fail | apply inv_park | apply inv_act | apply inv_issue | exact inv_fault | apply inv_retireCore | apply inv_complete | (intro _; rfl) | (apply inv_fst_of; assumption) | (simp only [inv_mk, List.length_set, List.length_map, List.length_mapIdx]; refine inv_of ?_) | intro _ | dsimp only | split)

end Sys2Proof.Machine
end

