-- ==== Sys2Proof/Tests/Slice0.lean ====
section
/-! SUPPORT. Tests: what is ill formed, the words of every instruction as the encoding tables of the specification give them, one
step of each, and for every statement that has hypotheses a state and operands that meet them. -/

namespace Sys2Proof.Tests

set_option Elab.async false

open Sys2Proof Sys2Proof.Machine

/-! ### Ill-formed terms: one for each check of `Instr.wf` -/

/-- lid as a destination (03 R77). -/
theorem test_wf_dst : (Instr.iadd .lid (.v 0) (.v 1) false .wrap).wf = false := by decide
/-- tix, lit as destinations (03 R77). -/
theorem test_wf_dst_lit : (Instr.iaddi .lit (.v 0) 1).wf = false ∧ (Instr.iaddi .tix (.v 0) 1).wf = false := by decide
/-- z as a destination that is also read (07 R169). -/
theorem test_wf_dstSrc : (Instr.imad .z (.v 0) (.v 1) false).wf = false := by decide
/-- lit as the data of a store (08 R202). -/
theorem test_wf_data : (Instr.st .lit (.v 0) (.v 1) .sp .b32).wf = false ∧ (Instr.st .z (.v 0) (.v 1) .sp .b32).wf = true := by decide
/-- A scalar where a vector register must stand (06 R154). -/
theorem test_wf_vec : (Instr.shfx (.v 0) (.s 1) (.s 2)).wf = false ∧ (Instr.shfx (.s 0) (.v 1) (.s 2)).wf = false := by decide
/-- lid where a vector register must stand, and where vector, lid or tix may (06 R154). -/
theorem test_wf_lane : (Instr.matchk (.v 0) (.s 1) false .cnt).wf = false ∧ (Instr.matchk (.v 0) .tix false .cnt).wf = true ∧
    (Instr.segr (.v 0) .lid 0 false .add).wf = false := by decide
/-- REDX's B: z may stand, a scalar may not (06 R154). -/
theorem test_wf_laneZ : (Instr.redx (.v 0) (.v 1) (.s 0) false .add).wf = false ∧ (Instr.redx (.v 0) (.v 1) .z false .add).wf = true := by
  decide
/-- A vector register where a scalar must stand (05 R121). -/
theorem test_wf_sca : (Instr.loop (.v 0) 3).wf = false ∧ (Instr.loop .lid 3).wf = false := by decide
/-- lit where only s0 to s27 or z may stand (06 R154; 10 R258). -/
theorem test_wf_scaZ : (Instr.mat (.v 0) (.v 1) .lit).wf = false ∧ (Instr.mma .lit (.s 0) (.s 1) false false).wf = false := by decide
/-- A vector register as a scalar destination (09 R226). -/
theorem test_wf_scaDst : (Instr.close (.v 3)).wf = false ∧ (Instr.close .z).wf = true := by decide
/-- BSEL's odd scalar (09 R226). -/
theorem test_wf_pair : (Instr.bsel 1 (.v 0) (.s 3) false .n32).wf = false ∧ (Instr.bsel 1 (.v 0) (.s 26) false .n32).wf = true := by decide
/-- Blocks: a multiple of 4, the run within s0 to s27; s20 is legal for 8, s24 is not (09 R226). -/
theorem test_wf_block : (Instr.cpy 0 (.s 20) false true).wf = true ∧ (Instr.cpy 0 (.s 24) false true).wf = false ∧
    (Instr.cpy 0 (.s 2) false false).wf = false ∧ (Instr.rrot 0 (.s 24) false).wf = true ∧ (Instr.rrot 0 (.s 26) false).wf = false := by
  decide
/-- HPSH's handler PC is a literal (11 R281). -/
theorem test_wf_litOnly : (Instr.hpsh (.s 4) (.s 0) .lit).wf = false ∧ (Instr.hpsh (.s 4) .lit .lit).wf = true := by decide
/-- RSUM's B: lid may not stand (11 R281). -/
theorem test_wf_vecSca : (Instr.rsum 0 .lid .cont).wf = false ∧ (Instr.rsum 0 (.v 3) .cont).wf = true := by decide
/-- A register-indirect A names v0 to v95 (03 R80). -/
theorem test_wf_indirect : (Instr.fmul (.v 6) (.s 4) (.s 5) true .rne).wf = false ∧ (Instr.fmul (.v 6) (.v 2) (.s 5) true .rne).wf = true := by
  decide
/-- A scalar destination in vector form (03 R78), by a vector source, by lid, by an indirect source. -/
theorem test_wf_scalar_destination : (Instr.iadd (.s 0) (.v 1) (.s 2) false .wrap).wf = false ∧
    (Instr.ld (.s 0) (.s 1) .lid .sp .b32).wf = false ∧ (Instr.iadd (.s 0) (.s 1) .lit false .sat).wf = true ∧
    (Instr.mov (.s 0) (.v 1) 98 .sv).wf = true := by decide
/-- Limits of the control words (05 R121, R129, R137, R138). -/
theorem test_wf_limits_control : (Instr.loop (.s 0) 2).wf = false ∧ (Instr.loop (.s 0) 65).wf = false ∧ (Instr.loop (.s 0) 64).wf = true ∧
    (Instr.split (.s 0) 64).wf = false ∧ (Instr.split (.s 0) 8).wf = true ∧
    (Instr.mov (.v 0) (.v 1) 1 .vv).wf = false ∧ (Instr.mov (.v 0) (.s 1) 1 .vs).wf = false ∧
    (Instr.mov (.s 0) (.s 1) 1 .ss).wf = false ∧ (Instr.mov (.v 0) (.v 0) 16 .vsp).wf = false ∧
    (Instr.mov (.s 0) (.v 1) 3 .ssp).wf = false ∧ (Instr.mov (.s 0) (.v 0) 15 .ssp).wf = true := by decide
/-- Limits of the arithmetic words (07 R183, R187): unused fields, a conversion of a format to itself. -/
theorem test_wf_limits_arithmetic : (Instr.funa (.v 0) (.v 1) (.v 2) false .abs).wf = false ∧
    (Instr.funa (.v 0) (.v 1) (.v 2) false .neg).wf = false ∧ (Instr.frow (.v 0) (.v 1) (.v 2) false false .ssq).wf = false ∧
    (Instr.frow (.v 0) (.v 1) (.v 2) false false .sum).wf = false ∧
    (∀ p ∈ [(CvtSrc.f32, CvtTgt.f32), (.bf16, .bf16), (.f16, .f16), (.f8e4, .f8e4), (.f8e5, .f8e5), (.p2t8, .p2t8), (.s32, .s32),
      (.s8, .s8)], (Instr.fcvt (.v 0) (.v 1) p.1 p.2 false false .rne).wf = false) := by decide
/-- Limits of the lane words (06 R154): where VOTE writes, a head predicate without its form. -/
theorem test_wf_limits_lanes : (Instr.vote 8 0 false .any).wf = false ∧ (Instr.vote 95 0 false .ballot).wf = false ∧
    (Instr.vote 125 0 false .ballot).wf = false ∧ (Instr.vote 124 0 false .ballot).wf = true ∧
    (Instr.pscan (.v 0) (.v 1) 3 false false .add).wf = false := by decide
/-- Limits of the memory words (08 R202): the space .ss, the sizes of ACAS. -/
theorem test_wf_limits_memory : (Instr.ldn (.v 0) (.v 1) .z .ss .b32).wf = false ∧ (Instr.acas (.v 0) (.v 1) .z .ss .b32).wf = false ∧
    (Instr.acas (.v 0) (.v 1) .z .sp .b16).wf = false ∧ (Instr.ldt (.v 0) (.v 1) .z .ss).wf = false ∧
    (Instr.stt (.v 0) (.v 1) .z .ss).wf = false ∧ (Instr.layd 0 (.s 0) .z .ss).wf = false ∧
    (Instr.ast (.s 0) (.s 1) (.s 2) .ss).wf = false ∧ (Instr.acas (.v 0) (.v 1) .z .sp .b64).wf = true := by decide
/-- Limits of the engine words (09 R226; 10 R258): a predicate without .nb, a B that must be z. -/
theorem test_wf_limits_engines : (Instr.cpy 2 (.s 0) false false).wf = false ∧ (Instr.rrot 2 (.s 0) false).wf = false ∧
    (Instr.cpyp 2 (.s 0) false).wf = false ∧ (Instr.alin (.s 0) (.s 1) (.s 2) .copy).wf = false ∧
    (Instr.alin (.s 0) (.s 1) (.s 2) .transpose).wf = false ∧ (Instr.alin (.s 0) (.s 1) .z .copy).wf = true := by decide
/-- Limits of the system words (11 R295): reserved selectors, the unused field of FLAGS.rd. -/
theorem test_wf_limits_system : (Instr.sysRdsr (.s 0) 12).wf = false ∧ (Instr.sysRdsr (.s 0) 18).wf = false ∧
    (Instr.sysRdsr (.s 0) 17).wf = true ∧ (Instr.sysWrsr (.s 0) 15).wf = false ∧ (Instr.sysFlags (.s 0) (.s 1) true).wf = false := by
  decide
/-- Limits of the walker's words (12 R301): the space codes 2 to 15. -/
theorem test_wf_limits_walker : (Instr.wldw 1 2 2 0).wf = false ∧ (Instr.wldh 1 2 15 0).wf = false ∧ (Instr.wldb 1 2 1 0).wf = true ∧
    (Instr.wldb 1 2 3 0).wf = false ∧ (Instr.wrun 1 2 3 2).wf = false := by decide

/-! ### Words written out from the formats of 03 R75 and the map of R85 -/

/-- The W format. -/
def wordW (op d a b m : Nat) : Nat := op * 2 ^ 25 + d * 2 ^ 18 + a * 2 ^ 11 + b * 2 ^ 4 + m
/-- The I format. -/
def wordI (op d a imm : Nat) : Nat := op * 2 ^ 25 + d * 2 ^ 18 + a * 2 ^ 11 + imm
/-- The J format. -/
def wordJ (op neg p off : Nat) : Nat := op * 2 ^ 25 + neg * 2 ^ 24 + p * 2 ^ 21 + off
/-- The format of the walker's words (12 R300). -/
def wordK (op d a b imm : Nat) : Nat := op * 2 ^ 26 + d * 2 ^ 22 + a * 2 ^ 18 + b * 2 ^ 14 + imm

/-- A word decodes to an instruction. -/
def decodes (p : Nat × Instr) : Bool := match decodeWord p.1 with
  | .ok i => i == p.2
  | .error _ => false
/-- A word of the walker decodes to an instruction. -/
def decodesK (p : Nat × Instr) : Bool := match decodeWalker p.1 with
  | .ok i => i == p.2
  | .error _ => false

/-- Control words (05 R121, R137), with the three encodings that the table writes out. -/
theorem test_words_control : ([
    (0x00000000, .nop), (0x08000000, .ret), (0x0A000000, .exit), (0x0C000000, .yield), (0x18000000, .isync),
    (0x03600000, .bra true 3 0), (wordJ 1 0 7 0x1FFFFF, .bra false 7 (-1)), (wordJ 3 0 2 5, .call false 2 5),
    (wordW 2 0 101 0 0b1010, .brx (.s 5) true 2), (wordI 7 0 127 10, .loop .lit 10), (wordI 8 0 124 8, .winb .z 8),
    (wordW 9 0 97 0 1, .setx (.s 1) true), (wordI 10 98 0 16, .split (.s 2) 16), (wordI 11 124 99 5, .fuse .z (.s 3) 5),
    (0x1A032005, .bkm (.s 4) 5), (14 * 2 ^ 25 + 0b100000000001 * 2 ^ 13, .waitf 0b100000000001),
    (wordW 15 1 125 0 0, .mov (.v 1) .lid 0 .vv), (wordW 15 1 96 0 1, .mov (.v 1) (.s 0) 0 .vs),
    (wordW 15 99 4 127 2, .mov (.s 3) (.v 4) 127 .sv), (wordW 15 99 127 0 3, .mov (.s 3) .lit 0 .ss),
    (wordW 15 1 0 1 4, .mov (.v 1) (.v 0) 1 .vsp), (wordW 15 99 0 2 5, .mov (.s 3) (.v 0) 2 .ssp)] : List (Nat × Instr)).all decodes =
    true := by decide +kernel

/-- Integer words (07 R171), with the four encodings worked there. -/
theorem test_words_integer : ([
    (0x200C0821, .iadd (.v 3) (.v 1) (.v 2) false .sat), (wordW 0x11 0 5 6 0b1010, .isub (.v 0) (.v 5) (.v 6) true .nsat),
    (wordW 0x12 96 97 127 1, .imul (.s 0) (.s 1) .lit false .hi), (wordW 0x13 1 2 3 0, .imad (.v 1) (.v 2) (.v 3) false),
    (wordW 0x14 1 2 3 0b11, .imnx (.v 1) (.v 2) (.v 3) false true true), (0x2A041830, .iuna (.v 1) (.v 3) false .sneg),
    (0x2C082632, .iset 2 (.v 4) (.s 3) false .lt), (wordI 0x17 1 2 0x7FF, .iaddi (.v 1) (.v 2) (-1)),
    (wordW 0x18 1 2 3 0, .iand (.v 1) (.v 2) (.v 3) false), (wordW 0x19 1 2 3 8, .ior (.v 1) (.v 2) (.v 3) true),
    (wordW 0x1A 1 2 3 0, .ixor (.v 1) (.v 2) (.v 3) false), (wordW 0x1B 1 2 3 0, .iandn (.v 1) (.v 2) (.v 3) false),
    (wordW 0x1C 1 2 3 0, .shl (.v 1) (.v 2) (.v 3) false), (wordW 0x1D 1 2 3 1, .shr (.v 1) (.v 2) (.v 3) false .arith),
    (wordW 0x1E 1 2 3 2, .bfx (.v 1) (.v 2) (.v 3) false .ins), (wordW 0x1F 1 2 0 3, .bits (.v 1) (.v 2) false .ffs)] :
    List (Nat × Instr)).all decodes = true := by decide +kernel

/-- Integer words, continued (07 R171). -/
theorem test_words_integer_more : ([
    (wordW 0x20 1 2 3 5, .sel (.v 1) (.v 2) (.v 3) false 5), (wordW 0x21 3 1 2 6, .plog 3 1 2 .nand),
    (wordW 0x22 1 2 3 0b11, .idiv (.v 1) (.v 2) (.v 3) false true true), (wordW 0x23 1 2 3 7, .addr (.v 1) (.v 2) (.v 3) false 7),
    (0x4844000A, .iseti 1 .lt (.v 0) 10), (wordI 0x25 1 2 0x400, .andi (.v 1) (.v 2) (-1024)),
    (wordI 0x26 1 2 0x3FF, .xori (.v 1) (.v 2) 1023), (wordI 0x27 1 2 (2 * 512 + 31), .shi (.v 1) (.v 2) .sar 31)] :
    List (Nat × Instr)).all decodes = true := by decide +kernel

/-- Floating-point words (07 R183, R187), with the two encodings worked there and those of 03's example. -/
theorem test_words_float : ([
    (0x502430A0, .fadd (.v 9) (.v 6) (.v 10) false .rne), (wordW 0x28 1 2 3 0b0101, .fsub (.v 1) (.v 2) (.v 3) false .rtz),
    (0x52181658, .fmul (.v 6) (.v 2) (.s 5) true .rne), (wordW 0x2A 1 2 3 0b0111, .ffma (.v 1) (.v 2) (.v 3) false true .rup),
    (wordW 0x2B 1 2 3 2, .fmnx (.v 1) (.v 2) (.v 3) false .minnum), (wordW 0x2C 3 1 2 7, .fset 3 (.v 1) (.v 2) false .uno),
    (0x5A143184, .fcvt (.v 5) (.v 6) .f32 .f8e4 false true .rne), (wordW 0x2E 1 2 3 6, .hadd2 (.v 1) (.v 2) (.v 3) false true .rdn),
    (wordW 0x2F 1 2 3 0, .hfma2 (.v 1) (.v 2) (.v 3) false false .rne), (wordW 0x30 1 2 3 4, .hmul2 (.v 1) (.v 2) (.v 3) false true .rne),
    (wordW 0x31 1 2 0 6, .fsfu (.v 1) (.v 2) false .tanh), (wordW 0x32 1 2 3 2, .funa (.v 1) (.v 2) (.v 3) false .cps),
    (wordW 0x33 1 2 0 1, .expo (.v 1) (.v 2) false true), (wordW 0x34 1 2 3 1, .ldexp (.v 1) (.v 2) (.v 3) false .rtz),
    (wordW 0x35 1 2 3 0, .maxe (.v 1) (.v 2) (.v 3) false), (0x6C1C1660, .sexp (.v 7) (.v 2) (.s 6) false),
    (wordW 0x37 1 2 3 6, .frow (.v 1) (.v 2) (.v 3) false true .ctr)] : List (Nat × Instr)).all decodes = true := by decide +kernel

/-- Cross-lane and ragged words (06 R154; 07 R198), with the encodings worked there. -/
theorem test_words_lanes : ([
    (0x70080FF0, .shfx (.v 2) (.v 1) .lit), (wordW 0x39 1 2 99 0, .shfp (.v 1) (.v 2) (.s 3)), (0x74102600, .shfb (.v 4) (.v 4) (.s 0) 0),
    (wordW 0x3B 1 2 125 0, .shfi (.v 1) (.v 2) .lid), (wordW 0x3C 1 2 99 5, .shfr (.v 1) (.v 2) (.s 3) 5),
    (wordW 0x3D 1 2 98 0, .mat (.v 1) (.v 2) (.s 2)), (0x7D881800, .mapRd (.s 2) (.v 3)),
    (wordW 0x3E 3 98 0 1, .mapWr (.v 3) (.s 2)), (wordW 0x3E 3 4 0 2, .mapId (.v 3) (.v 4)), (0x7F900023, .vote 100 2 false .ballot),
    (wordW 0x3F 2 0 3 5, .vote 2 3 true .all), (wordW 0x40 1 2 0 6, .matchk (.v 1) (.v 2) true .rank),
    (wordW 0x41 1 2 3 0b1101, .pscan (.v 1) (.v 2) 3 true true .fadd), (wordW 0x42 1 2 3 0, .qapp (.v 1) (.v 2) (.v 3)),
    (wordW 0x43 1 2 0 5, .cdet (.v 1) (.v 2) true true), (wordW 0x44 1 2 124 0b1110, .redx (.v 1) (.v 2) .z true .and),
    (wordW 0x45 1 2 3 7, .segr (.v 1) (.v 2) 3 true .fmin), (wordW 0x46 1 2 0 0, .rlt (.v 1) (.v 2)),
    (wordW 0x47 1 2 127 3, .rwalk (.v 1) (.v 2) .lit 3)] : List (Nat × Instr)).all decodes = true := by decide +kernel

/-- Memory words (08 R202), with the six encodings worked there and the LDI of 03's example. -/
theorem test_words_memory : ([
    (0x90100826, .ld (.v 4) (.v 1) (.v 2) .sp .b32), (0x92203633, .st (.v 8) (.v 6) (.s 3) .sh .b64),
    (0x941C4901, .ldi (.v 7) (.v 9) .sh .b32 1), (wordI 0x4B 7 9 (1 * 512 + 3 * 128 + 127), .sti (.v 7) (.v 9) .sp .b64 (-1)),
    (wordW 0x4C 1 2 3 0b0101, .ldn (.v 1) (.v 2) (.v 3) .sp .b16), (wordW 0x4D 1 2 3 15, .atomh (.v 1) (.v 2) (.v 3) .decWrap),
    (0x9C141871, .atomp (.v 5) (.v 3) (.v 7) .addF32), (0x9E101066, .acas (.v 4) (.v 2) (.v 6) .sp .b32),
    (0xA0000013, .fence .rel .die), (0xA2000020, .bar 2), (wordW 0x52 0 97 15 1, .bari (.s 1) 15 true), (wordW 0x53 97 0 15 0, .bara (.s 1) 15),
    (wordW 0x54 0 97 15 0, .barw (.s 1) 15), (wordW 0x55 1 2 3 4, .ldt (.v 1) (.v 2) (.v 3) .sp),
    (wordW 0x56 1 2 3 0, .stt (.v 1) (.v 2) (.v 3) .sh)] : List (Nat × Instr)).all decodes = true := by decide +kernel

/-- Engine words (09 R226), with the seven encodings worked there. -/
theorem test_words_engines : ([
    (wordW 0x58 15 96 127 4, .layd 15 (.s 0) .lit .sp), (0xB2034001, .cpy 0 (.s 8) false true), (0xB20B0002, .cpy 2 (.s 0) true false),
    (0xB58C0000, .close (.s 3)), (0xB6031800, .waitb (.s 3)), (wordW 0x5C 2 100 0 2, .rrot 2 (.s 4) true),
    (wordW 0x5D 0 100 0 0, .cpyp 0 (.s 4) false), (0xBC078000, .enq 1 (.s 16)), (0xBF880800, .waith (.s 2) 1),
    (wordW 0x60 3 15 0 0, .tsth 3 15), (wordW 0x61 0 15 0 0, .canh 15), (wordW 0x62 15 96 127 0, .hsto 15 (.s 0) .lit),
    (wordW 0x63 15 96 124 0, .hlod 15 (.s 0) .z), (wordW 0x64 15 1 2 0, .bina 15 (.v 1) (.v 2)), (0xCA0C1842, .crc (.v 3) (.v 3) (.v 4) .c32),
    (wordW 0x66 99 96 2 0b1101, .bhist (.s 3) (.s 0) (.v 2) 3 .n32), (wordW 0x67 3 1 98 6, .bsel 3 (.v 1) (.s 2) true .f32)] :
    List (Nat × Instr)).all decodes = true := by decide +kernel

/-- Matrix words (10 R258). -/
theorem test_words_matrix : ([
    (wordW 0x68 97 98 0 0, .oclm (.s 1) (.s 2)), (wordW 0x69 0 98 0 0, .orel (.s 2)), (wordW 0x6A 97 98 0 0, .aclm (.s 1) (.s 2)),
    (wordW 0x6A 0 98 99 1, .aclmGrant (.s 2) (.s 3)), (wordW 0x6B 0 98 0 0, .arel (.s 2)), (wordW 0x6B 0 98 0 1, .arelRevoke (.s 2)),
    (wordW 0x6C 97 98 99 3, .mma (.s 1) (.s 2) (.s 3) true true), (wordW 0x6C 97 98 99 5, .mmaa (.s 1) (.s 2) (.s 3) true),
    (wordW 0x6D 97 98 99 2, .mmsp (.s 1) (.s 2) (.s 3) true false), (wordW 0x6E 97 98 0 0, .publ (.s 1) (.s 2)),
    (wordW 0x6E 0 98 0 1, .publSeal (.s 2)), (wordW 0x6F 0 98 0 0, .setl (.s 2)), (wordW 0x70 97 98 99 1, .alin (.s 1) (.s 2) (.s 3) .sub),
    (wordW 0x71 2 98 99 0, .adrn (.v 2) (.s 2) (.s 3)), (wordW 0x72 0 98 127 0, .afil (.s 2) .lit), (wordW 0x73 97 98 124 0, .old (.s 1) (.s 2) .z),
    (wordW 0x74 0 98 99 0, .sltg (.s 2) (.s 3)), (wordW 0x75 97 98 99 4, .ast (.s 1) (.s 2) (.s 3) .sp)] :
    List (Nat × Instr)).all decodes = true := by decide +kernel

/-- Effect and system words (11 R281, R295), with the six encodings worked there, and OST (10 R258, R278). -/
theorem test_words_effects : ([
    (wordW 0x76 97 98 99 8, .ost (.s 1) (.s 2) (.s 3) true .bf16), (wordW 0x76 97 98 99 5, .ost (.s 1) (.s 2) (.s 3) false .s8),
    (0xF0174697, .perf (.v 5) (.s 8) (.s 9) false 7), (0xF393FFF0, .hpsh (.s 4) .lit .lit), (0xF4000000, .hpop), (0xF60007F0, .rsum 0 .lit .cont),
    (wordW 0x7B 0 3 1 3, .rsum 3 (.v 1) .patch), (wordW 0x7C 0 2 0 0, .tokd 2), (0xF8000001, .tokdAbort 0), (wordW 0x7C 1 2 0 2, .tokdMov 1 2),
    (wordW 0x7D 97 0 11 0, .sysRdsr (.s 1) 11), (wordW 0x7D 0 97 16 1, .sysWrsr (.s 1) 16), (wordW 0x7D 0 97 0 2, .sysStamp (.s 1)),
    (wordW 0x7D 0 97 0 3, .sysProf (.s 1)), (0xFBA80004, .sysTime (.s 10)), (wordW 0x7D 97 98 0 5, .sysFlags (.s 1) (.s 2) false),
    (wordW 0x7D 97 0 0 13, .sysFlags (.s 1) (.v 0) true)] : List (Nat × Instr)).all decodes = true := by decide +kernel

/-- The walker's words (12 R300, R301). -/
theorem test_words_walker : ([
    (0x00000000, .whalt), (0x05800002, .wli 6 2), (wordK 2 1 2 3 0x3FFF, .wadd 1 2 3 (-1)), (wordK 3 1 2 3 0, .wsub 1 2 3),
    (wordK 4 1 2 3 0, .wmul 1 2 3), (wordK 5 1 2 0 31, .wshl 1 2 31), (wordK 6 1 2 0 1, .wshr 1 2 1), (wordK 7 15 14 13 0, .wand 15 14 13),
    (0x22A00004, .wldw 10 8 0 4), (wordK 9 1 2 1 2, .wldh 1 2 1 2), (wordK 10 1 2 1 3, .wldb 1 2 1 3), (wordK 11 0 2 3 4, .wbeq 2 3 4),
    (wordK 12 0 2 3 4, .wbne 2 3 4), (wordK 13 0 2 3 4, .wblo 2 3 4), (0x381C4014, .wbhs 7 1 20), (0x3C003FF5, .wjmp (-11)),
    (0x40158000, .wtgt 5 6), (wordK 17 0 0 0 0, .wzero), (0x48378000, .wemit 13 14), (wordK 19 1 2 3 1, .wrun 1 2 3 1),
    (wordK 20 0 0 0 15, .warv 15), (0x54000001, .wfault 1)] : List (Nat × Instr)).all decodesK = true := by decide +kernel

/-- Reserved encodings decode to nothing: opcodes 0x57, 0x77, 0x7E and 0x7F (03 R85), a reserved M, a field not used (R76, R88),
space code 11 (R81), a reserved opcode of the walker (12 R301). -/
theorem test_words_reserved : (([0xAE000000, 0xEE000000, 0xFC000000, 0xFE0023EC, 0x00000001, wordW 0x10 1 2 3 3, wordW 0x10 1 2 3 4,
    wordW 0x15 1 2 4 0, wordW 0x48 1 2 3 12, wordW 0x31 1 2 1 0, wordW 0x3E 1 2 0 3, wordW 0x7D 1 2 0 6] : List Nat).all fun w =>
    match decodeWord w with | .ok _ => false | .error _ => true) = true ∧
    (match decodeWalker (wordK 22 0 0 0 0) with | .ok _ => false | .error _ => true) = true ∧
    (match decodeWalker (wordK 0 0 0 0 1) with | .ok _ => false | .error _ => true) = true := by decide +kernel

/-! ### A small machine: one launch, one team, one part of 8 lanes at a word with two literal words after it -/

/-- The word at which the group stands. -/
def at_ (m : Mask) (a b : Word) : Issue := ⟨⟨0, [0, a, b], 0, 15, 15, false⟩, 0, m, .fresh⟩
/-- The group, as it starts. -/
def group0 : Group := Group.start probeKey 0 0 4 32 0 [0, 0, 0, 0] (ones 8)
/-- The group at a word, with something set. -/
def grp (f : Group → Group) (iss : Issue) : Group := { f group0 with cur := some iss }
/-- The machine around a group, with something set. -/
def machine (h : State → State) (g : Group) : State :=
  h { State.reset with grids := [Grid.plain 0], teams := [Team.plain 0 0], cur := some (.group probeKey), groups := [g] }

/-- The group after one word, with literal words a and b. -/
def after (i : Instr) (a b : Word := 0) (f : Group → Group := id) (h : State → State := id) (m : Mask := ones 8) : Option Group :=
  match exec i (machine h (grp f (at_ m a b))) with
  | .next t => t.group? probeKey
  | _ => none
/-- What s0 holds after one word. -/
def s0 (i : Instr) (a b : Word := 0) (f : Group → Group := id) (h : State → State := id) (m : Mask := ones 8) : Option Word :=
  (after i a b f h m).map fun g => g.sreg 0
/-- The sticky flags after one word. -/
def fl (i : Instr) (a b : Word := 0) (f : Group → Group := id) (h : State → State := id) : Option Word :=
  (after i a b f h).map fun g => g.it.fflags
/-- What thread t reads in v0 after one word. -/
def v0 (t : Nat) (i : Instr) (a b : Word := 0) (f : Group → Group := id) (h : State → State := id) (m : Mask := ones 8) : Option Word :=
  (after i a b f h m).map fun g => (g.vreg 0).value t
/-- The predicate p1 after one word. -/
def p1 (i : Instr) (a b : Word := 0) (f : Group → Group := id) (h : State → State := id) (m : Mask := ones 8) : Option Mask :=
  (after i a b f h m).map fun g => g.pred 1
/-- A vector register set to a value for each thread. -/
def setV (n : Nat) (v : Nat → Word) (g : Group) : Group :=
  g.setVreg n { g.vreg n with elems := (List.range 8).map v }
/-- A scalar register set. -/
def setS (n : Nat) (v : Word) (g : Group) : Group := g.setSreg n v
/-- A predicate register set. -/
def setP (n : Nat) (m : Mask) (g : Group) : Group := g.setPred n m g.full
/-- The effect that the innermost invocation of the group was entered for. -/
def entered (i : Instr) (a b : Word := 0) (f : Group → Group := id) (h : State → State := id) : Option (BitVec 11 × Word) :=
  ((after i a b f h).bind fun g => g.ctxs.getLast?).map fun c => (c.perf.eff, c.perf.p0)
/-- A frame that takes every effect of every lane, its handler at 256. -/
def handler (g : Group) : Group :=
  { g with it := { g.it with frames := [⟨900, 256, 512, 0, 0, false, ones 8, 0, 0⟩] } }

/-! ### One step of each word: arithmetic (07) -/

theorem test_iadd : s0 (.iadd (.s 0) .lit .lit false .wrap) 0xFFFFFFFF 2 = some 1 ∧
    s0 (.iadd (.s 0) .lit .lit false .sat) 0x7FFFFFFF 1 = some 0x7FFFFFFF := by decide +kernel
theorem test_isub : s0 (.isub (.s 0) .lit .lit false .nsat) 1 2 = some 0 ∧ s0 (.isub (.s 0) .lit .lit false .sat) 0x80000000 1 =
    some 0x80000000 := by decide +kernel
theorem test_imul : s0 (.imul (.s 0) .lit .lit false .hi) 0xFFFFFFFF 2 = some 0xFFFFFFFF ∧
    s0 (.imul (.s 0) .lit .lit false .nhi) 0xFFFFFFFF 2 = some 1 := by decide +kernel
theorem test_imad : s0 (.imad (.s 0) .lit .lit false) 3 5 (setS 0 7) = some 22 := by decide +kernel
theorem test_imnx : s0 (.imnx (.s 0) .lit .lit false false true) 0xFFFFFFFF 1 = some 1 ∧
    s0 (.imnx (.s 0) .lit .lit false true true) 0xFFFFFFFF 1 = some 0xFFFFFFFF := by decide +kernel
theorem test_iuna : s0 (.iuna (.s 0) .lit false .abs) 0x80000000 = some 0x80000000 ∧
    s0 (.iuna (.s 0) .lit false .sneg) 0x80000000 = some 0x7FFFFFFF := by decide +kernel
theorem test_iset : p1 (.iset 1 .lit .lit false .lt) 0xFFFFFFFF 0 = some (ones 8) ∧
    p1 (.iset 1 .lit .lit false .lo) 0xFFFFFFFF 0 = some 0 := by decide +kernel
theorem test_iaddi : s0 (.iaddi (.s 0) .lit 0x7FF) 5 = some 4 := by decide +kernel
theorem test_iand : s0 (.iand (.s 0) .lit .lit false) 0xFF00FF00 0x0FF00FF0 = some 0x0F000F00 := by decide +kernel
theorem test_ior : s0 (.ior (.s 0) .lit .lit false) 0xFF00FF00 0x0FF00FF0 = some 0xFFF0FFF0 := by decide +kernel
theorem test_ixor : s0 (.ixor (.s 0) .lit .lit false) 0xFF00FF00 0x0FF00FF0 = some 0xF0F0F0F0 := by decide +kernel
theorem test_iandn : s0 (.iandn (.s 0) .lit .lit false) 0xFF00FF00 0x0FF00FF0 = some 0xF000F000 := by decide +kernel
theorem test_shl : s0 (.shl (.s 0) .lit .lit false) 1 31 = some 0x80000000 ∧ s0 (.shl (.s 0) .lit .lit false) 1 32 = some 0 := by
  decide +kernel
theorem test_shr : s0 (.shr (.s 0) .lit .lit false .arith) 0x80000000 40 = some 0xFFFFFFFF ∧
    s0 (.shr (.s 0) .lit .lit false .rot) 0x1 33 = some 0x80000000 := by decide +kernel
theorem test_bfx : s0 (.bfx (.s 0) .lit .lit false .s) 0x00000F00 0x0408 = some 0xFFFFFFFF ∧
    s0 (.bfx (.s 0) .lit .lit false .ins) 0x5 0x0404 (setS 0 0xFFFF) = some 0xFF5F := by decide +kernel
theorem test_bits : s0 (.bits (.s 0) .lit false .ffs) 0 = some 0xFFFFFFFF ∧ s0 (.bits (.s 0) .lit false .clz) 1 = some 31 := by
  decide +kernel
theorem test_sel : v0 1 (.sel (.v 0) .lid .lit false 1) 100 0 (setP 1 2) = some 1 ∧ v0 2 (.sel (.v 0) .lid .lit false 1) 100 0 (setP 1 2) =
    some 100 := by decide +kernel
theorem test_plog : p1 (.plog 1 2 3 .andn) 0 0 (fun g => setP 3 0b1010 (setP 2 0b1100 g)) = some 0b0100 := by decide +kernel
theorem test_idiv : (after (.idiv (.s 0) .lit .lit false false true) 0xFFFFFFF9 2).map (fun g => g.pend.map (·.lands)) =
    some [[.sreg 0 0xFFFFFFFF]] ∧
    entered (.idiv (.s 0) .lit .lit false false false) 1 0 handler = some (0x109, 0xFF) := by decide +kernel
theorem test_addr : s0 (.addr (.s 0) .lit .lit false 3) 0x1000 0x20 = some 0x1100 := by decide +kernel
theorem test_iseti : p1 (.iseti 1 .lo .lit 0x7FF) 0x7FE = some (ones 8) ∧ p1 (.iseti 1 .lt .lit 0x7FF) 0 = some 0 := by decide +kernel
theorem test_andi : s0 (.andi (.s 0) .lit 0x7F0) 0x12345678 = some 0x12345670 := by decide +kernel
theorem test_xori : s0 (.xori (.s 0) .lit 0x7FF) 0 = some 0xFFFFFFFF := by decide +kernel
theorem test_shi : s0 (.shi (.s 0) .lit .sar 4) 0x80000000 = some 0xF8000000 ∧ s0 (.shi (.s 0) .lit .rot 4) 0x1 = some 0x10000000 := by
  decide +kernel
/-- 1 + 2^-24 ties to even; the sum is inexact (04 R104, R111). -/
theorem test_fadd : s0 (.fadd (.s 0) .lit .lit false .rne) 0x3F800000 0x33800000 = some 0x3F800000 ∧
    s0 (.fadd (.s 0) .lit .lit false .rup) 0x3F800000 0x33800000 = some 0x3F800001 := by decide +kernel
/-- x − x is +0, and −0 rounding down (04 R106). -/
theorem test_fsub : s0 (.fsub (.s 0) .lit .lit false .rne) 0x3F800000 0x3F800000 = some 0 ∧
    s0 (.fsub (.s 0) .lit .lit false .rdn) 0x3F800000 0x3F800000 = some 0x80000000 := by decide +kernel
theorem test_fmul : s0 (.fmul (.s 0) .lit .lit false .rne) 0x40400000 0xC0000000 = some 0xC0C00000 := by decide +kernel
/-- 0 × ∞ with a NaN addend (07 R184). -/
theorem test_ffma : s0 (.ffma (.s 0) .lit .lit false false .rne) 0 0x7F800000 (setS 0 0x7FC00001) = some 0x7FC00010 := by decide +kernel
theorem test_fmnx : s0 (.fmnx (.s 0) .lit .lit false .minnum) 0x7FC00000 0x3F800000 = some 0x3F800000 ∧
    s0 (.fmnx (.s 0) .lit .lit false .max) 0x80000000 0 = some 0 := by decide +kernel
theorem test_fset : p1 (.fset 1 .lit .lit false .uno) 0x7FC00000 0 = some (ones 8) ∧
    p1 (.fset 1 .lit .lit false .eq) 0x80000000 0 = some (ones 8) := by decide +kernel
theorem test_fcvt : s0 (.fcvt (.s 0) .lit .f32 .s32 false false .rtz) 0xBFC00000 = some 0xFFFFFFFF ∧
    s0 (.fcvt (.s 0) .lit .s32 .f32 false false .rne) 0xFFFFFFFF = some 0xBF800000 := by decide +kernel
theorem test_hadd2 : s0 (.hadd2 (.s 0) .lit .lit false false .rne) 0x3C004000 0x3C003C00 = some 0x40004200 := by decide +kernel
theorem test_hfma2 : s0 (.hfma2 (.s 0) .lit .lit false true .rne) 0x40003F80 0x40003F80 (setS 0 0x3F803F80) = some 0x40A04000 := by
  decide +kernel
theorem test_hmul2 : s0 (.hmul2 (.s 0) .lit .lit false false .rne) 0x40004000 0x3C004000 = some 0x40004400 := by decide +kernel
/-- sqrt of 4 is exact (07 R190, R191). -/
theorem test_fsfu : (after (.fsfu (.s 0) .lit false .sqrt) 0x40800000).map (fun g => g.pend.map (·.lands)) =
    some [[.sreg 0 0x40000000]] := by decide +kernel
theorem test_funa : s0 (.funa (.s 0) .lit (.v 0) false .neg) 0x7FC00000 = some 0xFFC00000 := by decide +kernel
theorem test_funa_cps : s0 (.funa (.s 0) .lit .lit false .cps) 0x3F800000 0x80000000 = some 0xBF800000 := by decide +kernel
theorem test_expo : s0 (.expo (.s 0) .lit false false) 0x41000000 = some 3 := by decide +kernel
/-- The running softmax of 07: the rescale of the sum, the maximum, and 2^(1 − 2). -/
theorem test_ldexp : s0 (.ldexp (.s 0) .lit .lit false .rne) 0x3FC00000 0xFFFFFFFE = some 0x3EC00000 := by decide +kernel
theorem test_maxe : s0 (.maxe (.s 0) .lit .lit false) 0x3F800000 0x80000000 = some 1 ∧
    s0 (.maxe (.s 0) .lit .lit false) 0x40800000 2 = some 4 := by decide +kernel
theorem test_sexp : s0 (.sexp (.s 0) .lit .lit false) 0x3F800000 2 = some 0x3F000000 := by decide +kernel
theorem test_frow : s0 (.frow (.s 0) .lit (.v 0) false false .ssq) 0x40003C00 0 (setS 0 0x3F800000) = some 0x40C00000 := by decide +kernel
/-- The check value of "123456789" (the kernel crcchk of 09). -/
theorem test_crc : ~~~(crcOp .c8 (crcOp .c32 (crcOp .c32 0xFFFFFFFF 0x34333231) 0x38373635) 0x39) = 0xE3069283 ∧
    s0 (.crc (.s 0) .lit .lit .c32) 0xFFFFFFFF 0x34333231 = some (crcOp .c32 0xFFFFFFFF 0x34333231) := by decide +kernel

/-! ### One step of each lane word: the worked examples of 06 and 07 at width 8 -/

/-- What all threads read in v0 after one word. -/
def lanes0 (i : Instr) (a b : Word := 0) (f : Group → Group := id) (m : Mask := ones 8) : Option (List Word) :=
  (after i a b f id m).map fun g => (List.range 8).map (g.vreg 0).value
/-- The registers of "Keys at width 8" (06): the keys in v3, t in v2, 10t in v9, p2 where the key is 1, 99 in v0. -/
def keys (g : Group) : Group :=
  setP 2 0b10010010 (setV 9 (fun t => BitVec.ofNat 32 (10 * t)) (setV 3 (fun t => [3, 1, 3, 0, 1, 3, 2, 1].getD t 0)
    (setV 2 (BitVec.ofNat 32) (setV 0 (fun _ => 99) g))))
/-- Thread 6 is inactive. -/
def six : Mask := 0b10111111

theorem test_match_lead : lanes0 (.matchk (.v 0) (.v 3) false .lead) 0 0 keys six = some [0, 1, 0, 3, 1, 0, 99, 1] := by decide +kernel
theorem test_match_rank : lanes0 (.matchk (.v 0) (.v 3) false .rank) 0 0 keys six = some [0, 0, 1, 0, 1, 2, 99, 2] := by decide +kernel
theorem test_cdet : lanes0 (.cdet (.v 0) (.v 3) false false) 0 0 keys six =
    some [0xFFFFFFFF, 0xFFFFFFFF, 0, 0xFFFFFFFF, 1, 2, 99, 4] := by decide +kernel
theorem test_qapp : lanes0 (.qapp (.v 0) (.v 3) (.v 9)) 0 0 keys six = some [30, 10, 31, 0, 11, 32, 99, 12] ∧
    v0 6 (.qapp (.v 0) (.v 3) (.v 9)) 0 0 keys = some 20 := by decide +kernel
theorem test_redx : lanes0 (.redx (.v 0) (.v 2) (.v 3) false .add) 0 0 keys six = some [7, 12, 7, 3, 12, 7, 99, 12] ∧
    v0 0 (.redx (.v 0) (.v 2) .z false .add) 0 0 keys = some 28 := by decide +kernel
theorem test_pscan : lanes0 (.pscan (.v 0) (.v 2) 0 false true .add) 0 0 keys six = some [0, 0, 1, 3, 6, 10, 99, 15] := by decide +kernel
theorem test_vote : (after (.vote 100 2 false .ballot) 0 0 keys id six).map (fun g => g.sreg 4) = some 0x92 ∧
    p1 (.vote 1 2 false .any) 0 0 keys id six = some six := by decide +kernel
/-- SHFX by 5 with the source's map (I, 0): the map (I, 5), no element moved (06 R145, R156). -/
theorem test_shfx : lanes0 (.shfx (.v 0) (.v 2) .lit) 5 0 keys = some [5, 4, 7, 6, 1, 0, 3, 2] ∧
    (after (.shfx (.v 0) (.v 2) .lit) 5 0 keys).map (fun g => (g.vreg 0).elems) = some [0, 1, 2, 3, 4, 5, 6, 7] := by decide +kernel
/-- π = (1, 2, 0): bit j of the source's thread is bit π(j) of t (06 R156). -/
theorem test_shfp : lanes0 (.shfp (.v 0) (.v 2) .lit) (1 + 2 * 8) 0 keys = some [0, 4, 1, 5, 2, 6, 3, 7] := by decide +kernel
theorem test_shfb : lanes0 (.shfb (.v 0) (.v 2) .lit 0) 3 0 keys = some [3, 3, 3, 3, 3, 3, 3, 3] := by decide +kernel
theorem test_shfi : lanes0 (.shfi (.v 0) (.v 2) (.v 3)) 0 0 keys = some [3, 1, 3, 0, 1, 3, 2, 1] := by decide +kernel
theorem test_shfr : lanes0 (.shfr (.v 0) (.v 2) .lit 0) 3 0 keys = some [3, 4, 5, 6, 7, 0, 1, 2] := by decide +kernel
/-- The zero descriptor of z: every thread reads thread 0 (06 R157). -/
theorem test_mat : lanes0 (.mat (.v 0) (.v 9) .z) 0 0 keys = some [0, 0, 0, 0, 0, 0, 0, 0] := by decide +kernel
/-- The identity at width 8: rows 1, 2, 4 and the identity bit (01 R29). -/
theorem test_map_rd : (after (.mapRd (.s 2) (.v 3))).map (fun g => (g.sreg 3).getLsbD 31) = some true := by decide +kernel
theorem test_map_wr : (after (.mapWr (.v 0) .z)).map (fun g => (g.vreg 0).map.at_ 5) = some 0 := by decide +kernel
theorem test_map_id : lanes0 (.mapId (.v 0) (.v 2)) 0 0 (fun g => (keys g).setVreg 2 { (keys g).vreg 2 with map :=
    ⟨0, [1, 2, 4], 5⟩ }) = some [5, 4, 7, 6, 1, 0, 3, 2] := by decide +kernel
/-- The rows of "Two chunks at width 8" (07): lengths in v1, the table in v20, p1 and the values of chunk 0 in v22. -/
def rows (g : Group) : Group :=
  setV 20 (fun t => [0x30000, 0x10003, 0x4, 0x50004, 0x20009, 0xB, 0xB, 0xB].getD t 0)
    (setV 1 (fun t => [3, 1, 0, 5, 2, 0, 0, 0].getD t 0) g)
theorem test_rlt : lanes0 (.rlt (.v 0) (.v 1)) 0 0 rows = some [0x30000, 0x10003, 0x4, 0x50004, 0x20009, 0xB, 0xB, 0xB] := by decide +kernel
theorem test_rwalk : lanes0 (.rwalk (.v 0) (.v 20) .z 1) 0 0 rows = some [0, 0x10000, 0x20000, 1, 3, 0x10003, 0x20003, 0x30003] ∧
    p1 (.rwalk (.v 0) (.v 20) .z 1) 0 0 rows = some 0x19 := by decide +kernel
theorem test_rwalk_next : lanes0 (.rwalk (.v 0) (.v 20) .lit 1) 1 0 rows = some [0x40003, 4, 0x10004, 0xFFFFFFFF, 0xFFFFFFFF, 0xFFFFFFFF,
    0xFFFFFFFF, 0xFFFFFFFF] := by decide +kernel
/-- The partial sums of 1.0 to 8.0 in the segments of p1 = 0x19: 6.0, 4.0 and 26.0 (07 R201). -/
theorem test_segr : lanes0 (.segr (.v 0) (.v 1) 1 true .fadd) 0 0 (fun g => setP 1 0x19 (setV 0 (fun _ => 0) (setV 1 (fun t =>
    [0x3F800000, 0x40000000, 0x40400000, 0x40800000, 0x40A00000, 0x40C00000, 0x40E00000, 0x41000000].getD t 0) g))) =
    some [0, 0, 0x40C00000, 0x40800000, 0, 0, 0, 0x41D00000] := by decide +kernel

/-! ### Witnesses: for every statement with hypotheses, states and operands that meet them -/

/-- `Ready`, as a test. -/
def readyB (s : State) (g : Group) (iss : Issue) (i : Instr) : Bool :=
  s.cur == some (.group g.key) && s.group? g.key == some g && g.cur == some iss && !g.halted && !(g.pend.any (·.hold)) && i.wf &&
    registerFault g (mkIns s g iss i) == none

theorem ready_of {s g iss i} (h : readyB s g iss i = true) : Ready s g iss i := by
  simp only [readyB, Bool.and_eq_true, beq_iff_eq, Bool.not_eq_true'] at h
  exact ⟨h.1.1.1.1.1.1, h.1.1.1.1.1.2, h.1.1.1.1.2, h.1.1.1.2, h.1.1.2, h.1.2, h.2⟩

/-- The small machine stands ready to issue a word. -/
def ready (i : Instr) (a b : Word := 0) (f : Group → Group := id) (h : State → State := id) (m : Mask := ones 8) : Bool :=
  readyB (machine h (grp f (at_ m a b))) (grp f (at_ m a b)) (at_ m a b) i

/-- A word has a state in which it stands ready and meets a condition. -/
def Meets (i : Instr) (cond : Ins → Prop) : Prop := ∃ s g iss, Ready s g iss i ∧ cond (mkIns s g iss i)

/-- The word in the small machine. -/
def insOf (i : Instr) (a b : Word := 0) (f : Group → Group := id) (h : State → State := id) (m : Mask := ones 8) : Ins :=
  mkIns (machine h (grp f (at_ m a b))) (grp f (at_ m a b)) (at_ m a b) i

theorem meets {i : Instr} {cond : Ins → Prop} (a b : Word) (f : Group → Group) (h : State → State)
    (c : cond (insOf i a b f h)) (r : ready i a b f h = true := by decide +kernel) : Meets i cond := ⟨_, _, _, ready_of r, c⟩

theorem meets_at {i : Instr} {cond : Ins → Prop} (m : Mask) (a b : Word) (f : Group → Group) (h : State → State)
    (c : cond (insOf i a b f h m)) (r : ready i a b f h m = true := by decide +kernel) : Meets i cond := ⟨_, _, _, ready_of r, c⟩

/-- A word that stands ready wherever the small machine does. -/
def Stands (i : Instr) : Prop := ∃ s g iss, Ready s g iss i

theorem stands_of {l : List Instr} (h : l.all (fun i => ready i) = true) : ∀ i ∈ l, Stands i := by
  intro i hi
  exact ⟨_, _, _, ready_of (List.all_eq_true.mp h i hi)⟩

theorem stands (i : Instr) (h : ready i = true := by decide +kernel) : Stands i := ⟨_, _, _, ready_of h⟩

theorem meets_on {i : Instr} {cond : Ins → Prop} (iss : Issue) (f : Group → Group) (h : State → State)
    (c : cond (mkIns (machine h (grp f iss)) (grp f iss) iss i))
    (r : readyB (machine h (grp f iss)) (grp f iss) iss i = true := by decide +kernel) : Meets i cond := ⟨_, _, _, ready_of r, c⟩

/-- IntegerArithmetic, every mode. -/
theorem witness_IntegerArithmetic : ∀ i ∈ ([.iadd (.v 0) (.v 1) .lit false .wrap, .iadd (.s 0) .lit .lit false .sat,
    .iadd (.v 31) .lid .tix false .nsat, .isub (.v 0) (.v 1) (.v 2) true .wrap, .isub .z (.s 27) .z false .sat,
    .isub (.v 0) (.v 1) (.s 1) false .nsat, .iaddi (.v 0) .lit (-1), .imul (.v 0) (.v 1) (.v 2) false .low,
    .imul (.s 0) (.s 1) (.s 2) false .hi, .imul (.v 0) (.v 1) (.v 2) false .nhi, .imad (.v 0) (.v 1) (.v 2) false,
    .imnx (.v 0) (.v 1) (.v 2) false true true, .imnx (.s 0) (.s 1) .lit false false false, .iuna (.v 0) (.v 1) false .abs,
    .iuna (.v 0) (.v 1) false .neg, .iuna (.v 0) (.v 1) false .sabs, .iuna (.v 0) (.v 1) false .sneg] : List Instr), Stands i :=
  stands_of (by decide +kernel)

/-- LogicAndShifts. -/
theorem witness_LogicAndShifts : ∀ i ∈ ([.iand (.v 0) (.v 1) .lit false, .ior (.s 0) .lit .lit false, .ixor (.v 0) (.v 1) .lid false,
    .iandn (.v 0) (.v 1) .z false, .andi (.v 0) (.v 1) 0x400, .xori (.s 0) .lit 0x3FF, .shl (.v 0) (.v 1) (.v 2) false,
    .shr (.v 0) (.v 1) (.v 2) false .logical, .shr (.v 0) (.v 1) (.v 2) false .arith, .shr (.v 0) (.v 1) (.v 2) false .rot,
    .shi (.v 0) (.v 1) .shl 31, .shi (.v 0) (.v 1) .shr 0, .shi (.s 0) (.s 1) .sar 31, .shi (.v 0) (.v 1) .rot 1,
    .addr (.v 0) (.v 1) (.v 2) false 7] : List Instr), Stands i := stands_of (by decide +kernel)

/-- BitFieldsAndCounts. -/
theorem witness_BitFieldsAndCounts : ∀ i ∈ ([.bfx (.v 0) (.v 1) (.v 2) false .n, .bfx (.s 0) .lit .lit false .s,
    .bfx (.v 0) (.v 1) (.v 2) false .ins, .bits (.v 0) (.v 1) false .popc, .bits (.v 0) (.v 1) false .clz, .bits (.v 0) (.v 1) true .brev,
    .bits (.s 0) (.s 1) false .ffs] : List Instr), Stands i := stands_of (by decide +kernel)

/-- ComparisonAndSelection: the three clauses of SEL, in scalar form with an active lane and without. -/
theorem witness_ComparisonAndSelection :
    (∀ i ∈ ([.iset 1 (.v 1) (.v 2) false .eq, .iset 7 (.s 1) .lit false .ntst, .iset 0 .lid .lit false .hs, .iseti 1 .lo (.v 1) 0x7FF,
      .iseti 6 .lt .lit 0x400, .bsel 1 (.v 1) (.s 26) true .f32, .bsel 1 .tix (.s 0) false .s32, .plog 0 7 1 .nor] : List Instr), Stands i) ∧
    Meets (.sel (.v 0) (.v 1) .lit false 3) (fun x => x.vector = true) ∧
    Meets (.sel (.s 0) .lit .lit false 3) (fun x => x.vector = false ∧ lowest x.g.width x.act = some 0) ∧
    Meets (.sel (.s 0) .lit .lit false 3) (fun x => x.vector = false ∧ lowest x.g.width x.act = some 7) ∧
    Meets (.sel (.s 0) .lit .lit false 3) (fun x => x.vector = false ∧ lowest x.g.width x.act = none) :=
  ⟨stands_of (by decide +kernel), meets 0 0 id id (by decide +kernel), meets 0 0 id id (by decide +kernel),
    meets_at 0x80 0 0 id id (by decide +kernel), meets_at 0 0 0 id id (by decide +kernel)⟩

/-- Division: with and without a divisor of 0, in both forms. -/
theorem witness_Division :
    Meets (.idiv (.v 0) (.v 1) .lit false false true) (fun x => zeroDivisors x = 0#128) ∧
    Meets (.idiv (.s 0) .lit .lit false true false) (fun x => zeroDivisors x ≠ 0#128) ∧
    Meets (.idiv (.v 0) .lit .lid false true false) (fun x => zeroDivisors x ≠ 0#128) :=
  ⟨meets 1 1 id id (by decide +kernel), meets 1 0 id id (by decide +kernel), meets 1 0 id id (by decide +kernel)⟩

/-- FloatArithmetic. -/
theorem witness_FloatArithmetic : ∀ i ∈ ([.fadd (.v 0) (.v 1) .lit false .rne, .fsub (.s 0) .lit .lit false .rtz, .fmul (.v 0) (.v 1) (.v 2) true .rdn,
    .ffma (.v 0) (.v 1) (.v 2) false true .rup, .ffma (.s 0) (.s 1) (.s 2) false false .rne, .fmnx (.v 0) (.v 1) (.v 2) false .min,
    .fmnx (.v 0) (.v 1) (.v 2) false .maxnum, .fset 1 (.v 1) (.v 2) false .eq, .fset 1 (.s 1) .lit false .ord,
    .fcvt (.v 0) (.v 1) .f32 .s4 false true .rne, .fcvt (.s 0) .lit .s8 .f32 false false .rtz, .hadd2 (.v 0) (.v 1) (.v 2) false true .rne,
    .hfma2 (.v 0) (.v 1) (.v 2) false false .rne, .hmul2 (.v 0) (.v 1) (.v 2) false true .rup] : List Instr), Stands i :=
  stands_of (by decide +kernel)

/-- FloatPartsAndChecksums. -/
theorem witness_FloatPartsAndChecksums : ∀ i ∈ ([.funa (.v 0) (.v 1) (.v 0) false .abs, .funa (.v 0) (.v 1) (.v 0) false .neg,
    .funa (.v 0) (.v 1) (.v 2) false .cps, .expo (.v 0) (.v 1) false true, .expo (.s 0) .lit false false, .ldexp (.v 0) (.v 1) (.v 2) false .rne,
    .maxe (.v 0) (.v 1) (.v 2) false, .sexp (.v 0) (.v 1) (.s 2) false, .frow (.v 0) (.v 1) (.v 0) false true .ssq,
    .frow (.v 0) (.v 1) (.v 0) false false .sum, .frow (.v 0) (.v 1) (.v 2) false true .ctr, .fsfu (.v 0) (.v 1) false .rcp,
    .fsfu (.s 0) .lit false .cos, .crc (.v 0) (.v 1) (.v 2) .c8, .crc (.s 0) .lit .lit .c32] : List Instr), Stands i :=
  stands_of (by decide +kernel)

/-- MoveWords: the six forms; the special values on both sides of 2. -/
theorem witness_MoveWords :
    (∀ i ∈ ([.mov (.v 0) (.v 1) 0 .vv, .mov (.v 0) .lid 0 .vv, .mov (.v 0) .lit 0 .vs, .mov (.s 0) (.v 1) 127 .sv, .mov (.s 0) .lit 0 .ss,
      .mov (.v 0) (.v 0) 15 .vsp] : List Instr), Stands i) ∧
    Meets (.mov (.s 0) (.v 0) 2 .ssp) (fun _ => 2 ≤ (2#7).toNat) ∧ Meets (.mov (.s 0) (.v 0) 15 .ssp) (fun _ => 2 ≤ (15#7).toNat) ∧
    Meets (.mov (.s 0) (.v 0) 1 .ssp) (fun x => (1#7).toNat < 2 ∧ lowest x.g.width x.act = some 0) :=
  ⟨stands_of (by decide +kernel), meets 0 0 id id (by decide), meets 0 0 id id (by decide), meets 0 0 id id (by decide +kernel)⟩

/-- A pair of scalars. -/
def setPair (n : Nat) (v : DWord) (g : Group) : Group := setS (n + 1) (BitVec.ofNat 32 (v.toNat / 2 ^ 32)) (setS n (v.setWidth 32) g)

/-- Shuffles: each on both sides of its condition. -/
theorem witness_Shuffles :
    (∀ i ∈ ([.shfx (.v 0) (.v 1) .lit, .mapRd (.s 2) (.v 3), .mapRd .z (.v 3), .mapId (.v 0) (.v 1), .shfi (.v 0) (.v 1) .lid] : List Instr),
      Stands i) ∧
    Meets (.shfp (.v 0) (.v 1) .lit) (fun x => permOk x.g.wcode x.b.sca = true) ∧
    Meets (.shfp (.v 0) (.v 1) .lit) (fun x => permOk x.g.wcode x.b.sca = false) ∧
    Meets (.shfb (.v 0) (.v 1) .lit 3) (fun x => segExp x.g.wcode 3 ≤ x.g.wcode + 3) ∧
    Meets (.shfb (.v 0) (.v 1) .lit 4) (fun x => x.g.wcode + 3 < segExp x.g.wcode 4) ∧
    Meets (.shfr (.v 0) (.v 1) .lit 0) (fun x => segExp x.g.wcode 0 ≤ x.g.wcode + 3) ∧
    Meets (.shfr (.v 0) (.v 1) .lit 4) (fun x => x.g.wcode + 3 < segExp x.g.wcode 4) ∧
    Meets (.mat (.v 0) (.v 1) .z) (fun x => LaneMap.wellFormed (x.g.pair .z) x.g.wcode = true) ∧
    Meets (.mat (.v 0) (.v 1) (.s 2)) (fun x => LaneMap.wellFormed (x.g.pair (.s 2)) x.g.wcode = false) ∧
    Meets (.mapWr (.v 0) .z) (fun x => LaneMap.wellFormed (x.g.pair .z) x.g.wcode = true ∧ x.dst = .vec 0) ∧
    Meets (.mapWr (.v 0) (.s 2)) (fun x => LaneMap.wellFormed (x.g.pair (.s 2)) x.g.wcode = false) :=
  ⟨stands_of (by decide +kernel), meets 0b000001010 0 id id (by decide +kernel), meets 0b001001010 0 id id (by decide +kernel),
    meets 0 0 id id (by decide +kernel), meets 0 0 id id (by decide +kernel), meets 0 0 id id (by decide +kernel), meets 0 0 id id (by decide +kernel),
    meets 0 0 id id (by decide +kernel), meets 0 0 (setPair 2 0xFFFFFFFFFFFFFFFF) id (by decide +kernel),
    meets 0 0 id id (by decide +kernel), meets 0 0 (setPair 2 0xFFFFFFFFFFFFFFFF) id (by decide +kernel)⟩

/-- LaneReductions: the forms without a condition, the ballot at both ends, SEGR. -/
theorem witness_LaneReductions :
    (∀ i ∈ ([.vote 7 2 false .any, .vote 0 2 true .all, .vote 3 7 false .uni, .matchk (.v 0) (.v 1) false .lead, .matchk (.v 0) .tix true .cnt,
      .matchk (.v 0) .lid false .rank, .cdet (.v 0) (.v 1) false true, .cdet (.v 0) (.v 1) true false, .qapp (.v 0) (.v 1) (.v 2),
      .pscan (.v 0) (.v 1) 0 false true .add, .pscan (.v 0) (.v 1) 7 true false .fadd, .redx (.v 0) (.v 1) .z false .or,
      .redx (.v 0) (.v 1) (.v 2) true .fmax] : List Instr), Stands i) ∧
    Meets (.vote 96 2 false .ballot) (fun x => (96#7).toNat ≠ 124 ∧ (96#7).toNat - 96 + max 1 (x.g.width / 32) ≤ 28) ∧
    Meets (.vote 123 2 true .ballot) (fun x => (123#7).toNat ≠ 124 ∧ (123#7).toNat - 96 + max 1 (x.g.width / 32) ≤ 28) ∧
    Meets (.segr (.v 0) (.v 1) 2 true .add) (fun x => x.dst = .vec 0) :=
  ⟨stands_of (by decide +kernel), meets 0 0 id id (by decide +kernel), meets 0 0 id id (by decide +kernel), meets 0 0 id id (by decide +kernel)⟩

/-- RaggedRows: a total of 65,535, of 65,536, one length of 65,536. -/
theorem witness_RaggedRows :
    Meets (.rlt (.v 0) (.v 1)) (fun x => (∀ t ∈ lanesOf x.g.width x.act, (x.a.val t).toNat ≤ 65535) ∧
      ((lanesOf x.g.width x.act).map fun t => (x.a.val t).toNat).sum ≤ 65535) ∧
    Meets (.rlt (.v 0) (.v 1)) (fun x => (∀ t ∈ lanesOf x.g.width x.act, (x.a.val t).toNat ≤ 65535) ∧
      65535 < ((lanesOf x.g.width x.act).map fun t => (x.a.val t).toNat).sum) ∧
    Meets (.rlt (.v 0) (.v 1)) (fun x => (lanesOf x.g.width x.act).find? (fun u => decide (65535 < (x.a.val u).toNat)) = some 3) ∧
    Stands (.rwalk (.v 0) (.v 1) .lit 2) :=
  ⟨meets 0 0 (setV 1 fun t => if t = 0 then 65535 else 0) id (by decide +kernel),
    meets 0 0 (setV 1 fun t => if t < 2 then 32768 else 0) id (by decide +kernel),
    meets 0 0 (setV 1 fun t => if t = 3 then 65536 else 0) id (by decide +kernel), stands _⟩

theorem mem_two {a b c : α} (h : a ∈ [b, c]) : a = b ∨ a = c := by simpa using h

/-- A loop whose body is the clause at hand and the 12 bytes after it. -/
def inLoop (g : Group) : Group := { g with loop := some ⟨2, 0, 32, [], 0⟩ }
/-- Code after the clause at hand: one clause of a NOP. -/
def coded (s : State) : State :=
  { s with grids := [{ Grid.plain 0 with imgLen := 4096 }] }.store (cellsAt (hbmAddr (imageBase 0 + 20)) (leBytes 4 0xFE001FE0))
/-- A call is under way. -/
def called (g : Group) : Group :=
  { g with it := { g.it with callHt := 1 }, lanes := g.lanes.map fun l => { l with depth := 1 } }
/-- A long-latency instruction in flight that holds a flag. -/
def pending (f : Nat) (mem : Bool) (g : Group) : Group := { g with pend := [⟨5, mem, some f, false, .ready, [], 0, 0, 0, ⟨0, false⟩, 0, []⟩] }

/-- ControlFlow: branches outside a body, within it to its first and last places, and past it; CALL, RET, LOOP, WINB and WAITF on
both sides of their conditions. -/
theorem witness_ControlFlow :
    (∀ i ∈ ([.nop, .exit, .setx .lit true, .setx (.s 1) false, .isync, .bkm .z 2047] : List Instr), Stands i) ∧
    Meets (.bra false 7 (-1)) (fun x => ∀ l, bodyLoop x = some l → x.iss.pc < jumpTarget x (-1) ∧ jumpTarget x (-1) < l.stop) ∧
    Meets (.bra false 7 7) (fun x => ∀ l, bodyLoop x = some l → x.iss.pc < jumpTarget x 7 ∧ jumpTarget x 7 < l.stop) ∧
    Meets (.bra false 7 8) (fun x => bodyLoop x = some ⟨2, 0, 32, [], 0⟩ ∧
      ¬(x.iss.pc < jumpTarget x 8 ∧ jumpTarget x 8 < (Loop.mk 2 0 32 [] 0).stop)) ∧
    Meets (.brx (.v 1) false 7) (fun x => bodyLoop x = none) ∧
    Meets (.call false 7 5) (fun x => bodyLoop x = none ∧ acting x 7 false ≠ 0#128 ∧ x.g.wouldMeet (x.g.it.callHt + 1) x.g.depth = false) ∧
    Meets .ret (fun x => bodyLoop x = none ∧ 0 < x.g.it.callHt) ∧ Meets .ret (fun x => bodyLoop x = none ∧ x.g.it.callHt = 0) ∧
    Meets .yield (fun x => bodyLoop x = none) ∧
    (∀ a ∈ [1#32, 0xFFFFFFFF#32], Meets (.loop .lit 3) (fun x => x.a.sca = a ∧ x.a.sca ≠ 0 ∧ x.g.loop = none ∧ x.g.runnable &&& ~~~x.act = 0#128 ∧
      (codeWords x.s x.g x.act x.iss.cl.stop (3#11).toNat).length = (3#11).toNat ∧
      wholeClauses 64 (codeWords x.s x.g x.act x.iss.cl.stop (3#11).toNat) = true)) ∧
    Meets (.loop .lit 3) (fun x => x.a.sca = 0 ∧ x.g.loop = none ∧ x.g.runnable &&& ~~~x.act = 0#128 ∧
      (codeWords x.s x.g x.act x.iss.cl.stop (3#11).toNat).length = (3#11).toNat ∧
      wholeClauses 64 (codeWords x.s x.g x.act x.iss.cl.stop (3#11).toNat) = true) ∧
    Meets (.winb .z 24) (fun x => (x.a.sca.toNat + (24#11).toNat) % 8 = 0 ∧ x.a.sca.toNat + (24#11).toNat < x.g.allot) ∧
    Meets (.winb .z 32) (fun x => ¬((x.a.sca.toNat + (32#11).toNat) % 8 = 0 ∧ x.a.sca.toNat + (32#11).toNat < x.g.allot)) ∧
    Meets (.waitf 2) (fun x => ∀ i < 12, (2#12).getLsbD i = true → x.g.flagPending i = false) ∧
    Meets (.waitf 2) (fun x => 1 < 12 ∧ (2#12).getLsbD 1 = true ∧ x.g.flagPending 1 = true) := by
  refine ⟨stands_of (by decide +kernel), meets 0 0 id id ?_, meets 0 0 inLoop id ?_, meets 0 0 inLoop id (by decide +kernel),
    meets 0 0 id id (by decide +kernel), meets 0 0 id id (by decide +kernel), meets 0 0 called id (by decide +kernel),
    meets 0 0 id id (by decide +kernel), meets 0 0 id id (by decide +kernel), ?_, meets 0 0 id coded (by decide +kernel),
    meets 0 0 id id (by decide +kernel), meets 0 0 id id (by decide +kernel), meets 0 0 (pending 0 false) id (by decide +kernel),
    meets 0 0 (pending 1 false) id (by decide +kernel)⟩
  · intro l h
    have : bodyLoop (insOf (.bra false 7 (-1)) 0 0 id id) = none := by decide +kernel
    rw [this] at h; cases h
  · intro l h
    have : bodyLoop (insOf (.bra false 7 7) 0 0 inLoop id) = some ⟨2, 0, 32, [], 0⟩ := by decide +kernel
    rw [this] at h; cases h; decide +kernel
  · intro a ha
    rcases mem_two ha with rfl | rfl
    · exact meets 1 0 id coded (by decide +kernel)
    · exact meets 0xFFFFFFFF 0 id coded (by decide +kernel)

/-- A whole slot of 32 lanes. -/
def slot32 (_ : Group) : Group := Group.start probeKey 0 2 1 32 0 [0, 0, 0, 0] (ones 32)
/-- A fused group of 64. -/
def slot64 (_ : Group) : Group := Group.start probeKey 0 3 1 32 0 [0, 0, 0, 0] (ones 64)
/-- A part of the slot that waits at `fuse z, 32, tag 5`. -/
def waiter (k : Nat) : Group :=
  { Group.start ⟨0, 0, k⟩ 0 0 4 32 0 [0, 0, 0, 0] (ones 8) with
    cur := some ⟨⟨0, [BitVec.ofNat 32 (wordI 11 124 127 5), 32, 0], 0, 15, 15, false⟩, 0, ones 8, .taken 0⟩ }
/-- The other three parts of the slot wait. -/
def partners (s : State) : State := { s with groups := s.groups ++ [waiter 1, waiter 2, waiter 3] }
/-- The group waits at its FUSE, past the first stage. -/
def past : Issue := { at_ (ones 8) 32 0 with prog := .taken 0 }

/-- WidthChanges: a store queue that is not empty; a width that is not allowed; the parts, the members; a partner gone; all
partners there; the time-out with and without a partner gone. -/
theorem witness_WidthChanges :
    Meets (.split .z 16) (fun x => unsettledGroup x.g = true) ∧
    Meets (.split .z 16) (fun x => unsettledGroup x.g = false ∧
      stageOne x (if (16#11).toNat = 32 then decide (32 < x.g.width) else x.g.width == 32)
        (if (16#11).toNat < 32 then 1024 * (16#11).toNat / 32 else 1024) = some 6) ∧
    Meets (.split .z 16) (fun x => unsettledGroup x.g = false ∧
      stageOne x (if (16#11).toNat = 32 then decide (32 < x.g.width) else x.g.width == 32)
        (if (16#11).toNat < 32 then 1024 * (16#11).toNat / 32 else 1024) = none) ∧
    Meets (.split .z 32) (fun x => unsettledGroup x.g = false ∧
      stageOne x (if (32#11).toNat = 32 then decide (32 < x.g.width) else x.g.width == 32)
        (if (32#11).toNat < 32 then 1024 * (32#11).toNat / 32 else 1024) = none) ∧
    Meets (.fuse .z .lit 5) (fun x => x.iss.prog ≠ .fresh ∧
      ((fuseNames x.g x.a.sca.toNat).filter (· != x.k)).any (partnerGone x.s x.g x.a.sca.toNat) = true) ∧
    Meets (.fuse .z .lit 5) (fun x =>
      let others := (fuseNames x.g x.a.sca.toNat).filter (· != x.k)
      let ps := arrivedPartners x.s x 5 x.a.sca.toNat
      x.iss.prog ≠ .fresh ∧ others.any (partnerGone x.s x.g x.a.sca.toNat) = false ∧ others.length ≤ ps.length ∧
      (∀ p ∈ ps, p.x.g.allot = x.g.allot ∧ p.x.g.it.winBase = x.g.it.winBase)) ∧
    (∃ s k g p, s.group? k = some g ∧ waitingFuse s k = some p ∧ mayIssue s g = true ∧
      ((fuseNames g p.x.a.sca.toNat).filter (· != k)).any (partnerGone s g p.x.a.sca.toNat) = true) ∧
    (∃ s k g p, s.group? k = some g ∧ waitingFuse s k = some p ∧ mayIssue s g = true ∧
      ((fuseNames g p.x.a.sca.toNat).filter (· != k)).any (partnerGone s g p.x.a.sca.toNat) = false) :=
  ⟨meets 0 0 (pending 1 true) id (by decide +kernel), meets 0 0 id id (by decide +kernel), meets_at (ones 32) 0 0 slot32 id (by decide +kernel),
    meets_at (ones 64) 0 0 slot64 id (by decide +kernel), meets_on past id id (by decide +kernel), meets_on past id partners (by decide +kernel),
    ⟨machine id (waiter 1), ⟨0, 0, 1⟩, _, _, rfl, rfl, by decide +kernel, by decide +kernel⟩,
    ⟨machine (fun s => { s with groups := [waiter 1, waiter 0, waiter 2, waiter 3] }) (waiter 1), ⟨0, 0, 1⟩, _, _, rfl, rfl, by decide +kernel,
      by decide +kernel⟩⟩

/-- A queued atomic of the group on the word at the start of its scratchpad window. -/
def queuedAtom (g : Group) : Group := { g with queue := [⟨7, .atom .addS32 [⟨0, spAddr 0 0, 0, 1⟩], none, .none, 1, 0, 0, 0, ⟨0, false⟩⟩] }
/-- Offset 0 for thread 0, and the last word of the window for the others. -/
def farOffs : Group → Group := setV 1 fun t => if t = 0 then 0 else 0x1FFFFC

theorem cleanRead_of {x : Ins} {a : Acc} (h : ((accThreads x).all fun t => fateAt x a t == .ok && !seenPoison x.s x.g (accAt x a t) a.size) =
    true) (q : awaitsAtomic x a = false) : CleanRead x a := by
  simp only [List.all_eq_true, Bool.and_eq_true, beq_iff_eq, Bool.not_eq_true'] at h
  exact ⟨fun t ht => (h t ht).1, q, fun t ht => (h t ht).2⟩

theorem allowed_of {x : Ins} {a : Acc} (h : ((accThreads x).all fun t => fateAt x a t == .ok) = true) : Allowed x a := by
  simp only [List.all_eq_true, beq_iff_eq] at h; exact h

/-- LoadWords: loads at both ends of their windows, a wait for a queued atomic, a load that is misaligned in every thread. -/
theorem witness_LoadWords :
    Meets (.ld (.v 0) (.v 1) .z .sp .b32) (fun x => CleanRead x ⟨.sp, 4, 2, fun t => (x.a.val t + x.b.val t).toNat, fun _ => false⟩) ∧
    Meets (.ldi (.v 0) .lit .sh .b64 (-1)) (fun x => CleanRead x (accImm x .sh .b64 (-1))) ∧
    Meets (.ldn (.v 0) (.v 1) .z .sh .b8) (fun x => CleanRead x (accOf x .sh .b8)) ∧
    Meets (.ldn (.v 0) (.v 1) .z .sp .b16) (fun x => CleanRead x (accOf x .sp .b16)) ∧
    Meets (.ldt (.v 0) .lit .z .sp) (fun x => CleanRead x ⟨.sp, 64, 0, fun t => (x.a.val t + x.b.val t).toNat, fun _ => false⟩) ∧
    Meets (.ld (.v 0) (.v 1) .z .sp .b32) (fun x => awaitsAtomic x (accOf x .sp .b32) = true) ∧
    Meets (.ld (.v 0) (.v 1) .lit .sp .b32) (fun x => accThreads x ≠ [] ∧ fateMask x (accOf x .sp .b32) .align ≠ 0#128 ∧
      ∀ t ∈ accThreads x, (accOf x .sp .b32).off t % Size.bytes .b32 ≠ 0) :=
  ⟨meets 0 0 farOffs id (cleanRead_of (by decide +kernel) (by decide +kernel)),
    meets 0x1000 0 id id (cleanRead_of (by decide +kernel) (by decide +kernel)),
    meets 0 0 id id (cleanRead_of (by decide +kernel) (by decide +kernel)), meets 0 0 id id (cleanRead_of (by decide +kernel) (by decide +kernel)),
    meets 0x1FFFC0 0 id id (cleanRead_of (by decide +kernel) (by decide +kernel)), meets 0 0 queuedAtom id (by decide +kernel),
    meets 2 0 id id (by decide +kernel)⟩

/-- StoreWords: with the last byte of a window, the highest legal tag code. -/
theorem witness_StoreWords :
    Meets (.st (.v 0) (.v 1) .z .sp .b32) (fun x => Allowed x (accOf x .sp .b32) ∧ accThreads x ≠ []) ∧
    Meets (.st (.s 4) .lit .z .ss .b64) (fun x => Allowed x (accOf x .ss .b64) ∧ accThreads x ≠ []) ∧
    Meets (.sti (.v 0) .lit .sh .b8 63) (fun x => Allowed x (accImm x .sh .b8 63) ∧ accThreads x ≠ []) ∧
    Meets (.stt (.v 2) .z .lit .sp) (fun x => Allowed x ⟨.sp, 64, 0, fun t => (x.a.val t + x.b.val t).toNat,
      fun t => decide (13 ≤ (x.d.val t).toNat % 256)⟩ ∧ accThreads x ≠ []) :=
  ⟨meets 0 0 farOffs id ⟨allowed_of (by decide +kernel), by decide +kernel⟩, meets 0 0 id id ⟨allowed_of (by decide +kernel), by decide +kernel⟩,
    meets 0xFC0 0 id id ⟨allowed_of (by decide +kernel), by decide +kernel⟩,
    meets 0x1FFFC0 0 (setV 2 fun _ => 0xFF0C) id ⟨allowed_of (by decide +kernel), by decide +kernel⟩⟩

/-- AtomicWords. -/
theorem witness_AtomicWords :
    Meets (.atomh (.v 0) (.v 1) .z .addF32) (fun x => Allowed x (atomAcc x .sh) ∧ accThreads x ≠ []) ∧
    Meets (.atomp (.s 0) .lit .z .decWrap) (fun x => Allowed x (atomAcc x .sp) ∧ accThreads x ≠ []) ∧
    Meets (.acas (.v 0) (.v 2) .z .sp .b32) (fun x => Allowed x (accOf x .sp .b32) ∧ accThreads x ≠ []) ∧
    Meets (.acas (.v 4) (.v 2) .z .sh .b64) (fun x => Allowed x (accOf x .sh .b64) ∧ accThreads x ≠ []) :=
  ⟨meets 0 0 id id ⟨allowed_of (by decide +kernel), by decide +kernel⟩, meets 0x1FFFFC 0 id id ⟨allowed_of (by decide +kernel), by decide +kernel⟩,
    meets 0 0 id id ⟨allowed_of (by decide +kernel), by decide +kernel⟩, meets 0 0 id id ⟨allowed_of (by decide +kernel), by decide +kernel⟩⟩

/-- An invocation of a MANY handler that holds every lane: frame 900 at depth 1, its token in k0. -/
def handling (g : Group) : Group :=
  let g := handler g
  { g with
    it := { g.it with frames := g.it.frames.map fun f => { f with running := true }, tokens := [tokenWord .many 1 0 0 0, 0, 0, 0] }
    ctxs := [⟨901, 900, ⟨0x20, .many, 0, 0, 0, 0, 0, 0, ones 8, .soft .none (.header 0), none⟩, ones 8, ones 8,
      (List.range 8).map fun _ => ⟨.header 0, .run, 0⟩, true, 0, 0, [], false, none, [], none⟩] }
/-- A barrier register that some arrivals have reached. -/
def someIn (s : State) : State := s.modTeam 0 fun t => { t with bars := t.bars.set 3 ⟨4, 1, true, true, []⟩ }

/-- FencesAndBarriers: every kind of fence with and without waits, arrivals in and outside a handler, both phases, the counts 1 and
4,095, 0 and 4,096, and a phase in progress. -/
theorem witness_FencesAndBarriers :
    (∀ i ∈ ([.fence .rel .sys, .fence .rel .grp] : List Instr), Stands i) ∧
    Meets (.fence .acq .team) (fun x => x.g.pend.any (·.mem) = false) ∧
    Meets (.fence .full .grp) (fun x => x.g.pend.any (·.mem) = false ∧ (x.g.queue = [] ∨ Scope.grp = .grp)) ∧
    Meets (.fence .full .sys) (fun x => x.g.pend.any (·.mem) = false ∧ (x.g.queue = [] ∨ Scope.sys = .grp)) ∧
    Meets (.fence .eng .grp) (fun x => x.g.pend.any (·.mem) = false ∧ x.g.queue = []) ∧
    Meets (.fence .eng .grp) (fun x => x.g.pend.any (·.mem) = true ∨ x.g.queue ≠ []) ∧
    Meets (.bar 15) (fun x => inInvocation x = false) ∧ Meets (.bara (.s 27) 0) (fun x => inInvocation x = false) ∧
    Meets (.bara .z 0) (fun x => inInvocation x = false) ∧
    Meets (.barw .lit 3) (fun x => inInvocation x = false ∧ (x.s.bar x.g.team (3 : Fin 16).val).phase ≠ x.a.sca.getLsbD 0) ∧
    Meets (.barw .z 3) (fun x => inInvocation x = false ∧ (x.s.bar x.g.team (3 : Fin 16).val).phase = x.a.sca.getLsbD 0) ∧
    Meets (.bar 3) (fun x => inInvocation x = true) ∧
    (∀ v ∈ [1#32, 4095#32], Meets (.bari .lit 3 true) (fun x => x.a.sca = v ∧ 1 ≤ x.a.sca.toNat ∧ x.a.sca.toNat ≤ 4095 ∧
      (x.s.bar x.g.team (3 : Fin 16).val).arrived = 0 ∧ barWaits x.s x.g.team (3 : Fin 16).val = false)) ∧
    (∀ v ∈ [0#32, 4096#32], Meets (.bari .lit 3 false) (fun x => x.a.sca = v ∧ ¬(1 ≤ x.a.sca.toNat ∧ x.a.sca.toNat ≤ 4095 ∧
      (x.s.bar x.g.team (3 : Fin 16).val).arrived = 0 ∧ barWaits x.s x.g.team (3 : Fin 16).val = false))) ∧
    Meets (.bari .lit 3 false) (fun x => ¬(1 ≤ x.a.sca.toNat ∧ x.a.sca.toNat ≤ 4095 ∧
      (x.s.bar x.g.team (3 : Fin 16).val).arrived = 0 ∧ barWaits x.s x.g.team (3 : Fin 16).val = false)) := by
  refine ⟨stands_of (by decide +kernel), meets 0 0 (pending 1 false) id (by decide +kernel), meets 0 0 queuedAtom id ⟨by decide +kernel, .inr rfl⟩,
    meets 0 0 id id (by decide +kernel), meets 0 0 id id (by decide +kernel), meets 0 0 queuedAtom id (by decide +kernel), meets 0 0 id id (by decide +kernel),
    meets 0 0 id id (by decide +kernel), meets 0 0 handler id (by decide +kernel), meets 1 0 id id (by decide +kernel), meets 0 0 id id (by decide +kernel),
    meets 0 0 handling id (by decide +kernel), ?_, ?_, meets 4 0 id someIn (by decide +kernel)⟩
  · intro v hv
    rcases mem_two hv with rfl | rfl
    · exact meets 1 0 id id (by decide +kernel)
    · exact meets 4095 0 id id (by decide +kernel)
  · intro v hv
    rcases mem_two hv with rfl | rfl
    · exact meets 0 0 id id (by decide +kernel)
    · exact meets 4096 0 id id (by decide +kernel)

/-! Copies and jobs -/

/-- Layout records: 0 raw bytes of the scratchpad window, 1 of team shared memory, 2 of HBM4E. -/
def layouts : List (Option Layout) :=
  [some ⟨0, 1, 0, 0, false, false, false, 0, 64, 1, 1, 0, 64, 64⟩, some ⟨0, 2, 0, 0, false, false, false, 0, 64, 1, 1, 0, 64, 64⟩,
    some ⟨0x1000, 0, 0, 0, false, false, false, 0, 64, 1, 1, 0, 64, 64⟩] ++ List.replicate 13 none
/-- The team has captured them. -/
def laid (s : State) : State := s.modTeam 0 fun t => { t with layouts := layouts }
/-- A command block at s0: handles, coordinates 0, a box of 8 by 1. -/
def block (c0 : Word) (g : Group) : Group := setS 7 0 (setS 6 0x10008 (setS 0 c0 g))
/-- What the block of a copy asks for. -/
def box (src dst : Layout) (hs hd : Nat) : Move := boxOf src dst hs hd fun i => [0, 0, 0, 0, 0, 0x10008].getD i 0
/-- A copy in the queue. -/
def copyAt (id : Nat) (shared : Bool) : Copy :=
  { toMove := box ⟨0, 1, 0, 0, false, false, false, 0, 64, 1, 1, 0, 64, 64⟩ ⟨0, 2, 0, 0, false, false, false, 0, 64, 1, 1, 0, 64, 64⟩ 0 1
    toEng := ⟨probeKey, ⟨0, 0, 0⟩, 0, 0, 0, 0, ⟨0, false⟩, 0#7, .none, [], [], [], [], [], 0, []⟩
    id := id, kind := .plain, arrive := none, batch := 1, shared := shared, follow := none, reads := [], writes := [] }
/-- The copy queue has no entry left for the team. -/
def full (s : State) : State :=
  s.modCore 0 fun c => { c with copies := (List.range 248).map (copyAt · true) ++ (List.range 8).map fun i => copyAt (248 + i) false }
/-- One copy of batch 1 in the queue. -/
def oneCopy (s : State) : State := s.modCore 0 fun c => { c with copies := [copyAt 77 true] }
/-- The record of layout 0 in memory, at the start of the window. -/
def recorded (s : State) : State :=
  s.store (cellsAt (spAddr 0 8) [1] ++ cellsAt (spAddr 0 16) [64] ++ cellsAt (spAddr 0 20) [1] ++ cellsAt (spAddr 0 24) [1] ++
    cellsAt (spAddr 0 32) [64] ++ cellsAt (spAddr 0 40) [64])

theorem passes_bank {x : Ins} {m : Move} (h : (m.src.space == 4) = false) : Passes (bankSource x m) := by
  intro f; simp only [beq_eq_false_iff_ne, ne_eq] at h; simp [bankSource, h]
theorem passes_unpinned {x : Ins} {hs : List Nat} (h : hs.any (x.s.core x.k.core).pinned = false) : Passes (unpinned x hs) := by
  intro f; simp [unpinned, h]
theorem passes_queue {x : Ins} (h : (x.s.core x.k.core).queued < 32) : Passes (queueRoom x) := by intro f; simp [queueRoom, h]
theorem passes_table {x : Ins} {o : Option DerivOp}
    (h : (x.s.core x.k.core).derivs.length + ((o.map (x.s.core x.k.core).inherits).getD []).length ≤ 64) : Passes (tableRoom x o) := by
  intro f; simp only [tableRoom]; rw [if_pos h]
theorem passes_writable {x : Ins} {d : Tile} {v : Word} {acc : Bool} (h : (x.s.core x.k.core).verdict x.own d acc = .pass) :
    Passes (Machine.writable x d v acc) := by intro f; simp only [Machine.writable]; rw [h]
theorem passes_nonLinear {x : Ins} {t : Tile} {v : Word} (h : (x.s.core x.k.core).openBy x.own t = false)
    (k : (x.s.core x.k.core).carried t = []) : Passes (nonLinear x t v) := by intro f; simp [nonLinear, h, k]
theorem passes_drainable {x : Ins} {off n : Nat} (h : firstPoison x.s (accAddr x.k.core off) n = none) : Passes (drainable x off n) := by
  intro f; simp only [drainable]; rw [h]
theorem passes_take {x : Ins} {p : Product} {dv : Word} (h : lacking x p.halves p.d.banks p.reads = none)
    (w : (x.s.core x.k.core).verdict x.own p.d p.accum = .pass) (q : (x.s.core x.k.core).queued < 32)
    (t : (x.s.core x.k.core).derivs.length + ((p.der.map (x.s.core x.k.core).inherits).getD []).length ≤ 64) :
    Passes (takeProduct x p dv) := by
  intro f; simp only [takeProduct, entitled]; rw [h]
  simp only; rw [passes_writable w, passes_queue q, passes_table t]

/-- The copy words, in their forms that do not wait and those that do. -/
def copyWords : List Instr := [.cpy 1 (.s 0) true false, .cpyp 1 (.s 0) true, .rrot 1 (.s 0) true, .cpy 0 (.s 0) false false,
  .cpyp 0 (.s 0) false, .rrot 0 (.s 0) false]

/-- CopyIssue: a record in memory; a copy from the scratchpad to team shared memory, a peer copy from it, a ring copy to the team's
own core; a full queue; the last batches that WAITB takes and refuses. -/
theorem witness_CopyIssue :
    (∃ r, Meets (.layd 0 .z .z .sp) (fun x =>
      fateAt x ⟨.sp, 64, 0, fun _ => (x.a.sca + x.b.sca).toNat, fun _ => false⟩ 0 = .ok ∧
      awaitsAtomic x ⟨.sp, 64, 0, fun _ => (x.a.sca + x.b.sca).toNat, fun _ => false⟩ = false ∧
      seenPoison x.s x.g ((windowAt x .sp).flat + (x.a.sca + x.b.sca).toNat) 64 = false ∧
      layoutOf ((List.range 64).map fun i => seenByte x.s x.g ((windowAt x .sp).flat + (x.a.sca + x.b.sca).toNat + i)) = some r)) ∧
    (∃ shared pl, Meets (.cpy 0 (.s 0) true false) (fun x => copyRoom x.s x.k.core x.g.team = some shared ∧ planOf x false false (.s 0) = .ok pl ∧
      planFault x pl.m = none ∧ Passes (bankSource x pl.m) ∧ Passes (unpinned x (if pl.m.dst.space = 3 then unitsOf pl.m.writeSpans else [])) ∧
      Passes (followRoom x pl.follow))) ∧
    (∃ shared pl, Meets (.cpyp 0 (.s 0) false) (fun x => copyRoom x.s x.k.core x.g.team = some shared ∧ planOf x true false (.s 0) = .ok pl ∧
      planFault x pl.m = none ∧ Passes (bankSource x pl.m) ∧ Passes (unpinned x (if pl.m.dst.space = 3 then unitsOf pl.m.writeSpans else [])) ∧
      Passes (followRoom x pl.follow))) ∧
    (∀ i ∈ copyWords, Meets i fun x => copyRoom x.s x.k.core x.g.team = none) ∧
    (∃ shared r, Meets (.rrot 0 (.s 0) false) (fun x => copyRoom x.s x.k.core x.g.team = some shared ∧ ringOf x (.s 0) = .ok r)) ∧
    Stands (.close (.s 27)) ∧
    Meets (.waitb .z) (fun x => (x.g.it.lastBatch - x.a.sca).toNat < 2147483648 ∧ batchesOpen x.s x.k x.own x.a.sca = false) ∧
    Meets (.waitb .lit) (fun x => (x.g.it.lastBatch - x.a.sca).toNat < 2147483648 ∧ batchesOpen x.s x.k x.own x.a.sca = true) ∧
    Meets (.waitb .lit) (fun x => 2147483648 ≤ (x.g.it.lastBatch - x.a.sca).toNat) := by
  refine ⟨⟨_, meets 0 0 id recorded ⟨by decide +kernel, by decide +kernel, by decide +kernel, rfl⟩⟩,
    ⟨true, ⟨box ⟨0, 1, 0, 0, false, false, false, 0, 64, 1, 1, 0, 64, 64⟩ ⟨0, 2, 0, 0, false, false, false, 0, 64, 1, 1, 0, 64, 64⟩ 0 1, .plain,
      none, none⟩, meets 0 0 (block 0x10) laid ⟨by decide +kernel, rfl, by decide +kernel, passes_bank (by decide), passes_unpinned (by decide +kernel),
      fun _ => rfl⟩⟩,
    ⟨true, ⟨box ⟨0, 1, 0, 0, false, false, false, 0, 64, 1, 1, 0, 64, 64⟩ ⟨0x1000, 0, 0, 0, false, false, false, 0, 64, 1, 1, 0, 64, 64⟩ 0 2,
      .peer (some 0), none, none⟩, meets 0 0 (block 0x20) laid ⟨by decide +kernel, rfl, by decide +kernel, passes_bank (by decide),
      passes_unpinned (by decide +kernel), fun _ => rfl⟩⟩,
    fun i hi => meets 0 0 id full
      ((by decide +kernel : ∀ i ∈ copyWords, copyRoom (insOf i 0 0 id full).s (insOf i 0 0 id full).k.core (insOf i 0 0 id full).g.team = none) i hi)
      ((by decide +kernel : ∀ i ∈ copyWords, ready i 0 0 id full = true) i hi),
    ⟨true, (Team.plain 0 0, none), meets 0 0 (fun g => setS 2 16 (setS 1 64 g)) id ⟨by decide +kernel, rfl⟩⟩,
    stands _, meets 0 0 id id (by decide +kernel), meets 1 0 (fun g => { g with it := { g.it with lastBatch := 1 } }) oneCopy (by decide +kernel),
    meets 0x80000000 0 id id (by decide +kernel)⟩

/-- A job of the group in the job table of die 0, and its handle in h0. -/
def withJob (st : JobSt) (s : State) : State := s.modDie 0 fun d => { d with jobs := [{ probeJob with st := st }] }
/-- The handle of that job. -/
def handled (g : Group) : Group := g.setHandle 0 (handleWord 1 0 0 0 0)
/-- A bin stream with room for 8 elements. -/
def streamed (s : State) : State := s.modDie 0 fun d => { d with streams := [⟨0, 0, 0, 1, 8, 16, .addS32, false, 0, 0, 8, []⟩] }

/-- JobIssue: a walker job entered; WAITH with the job done and not; every word with a live and WAITH with a stale handle; elements 0 to
7 of a stream of 8; a histogram at the end of team shared memory. -/
theorem witness_JobIssue :
    (∃ i, Meets (.enq 0 (.s 0)) (fun x => cardBad (windowAt x .sp).size (blockAt x (.s 0)) = none ∧ jobSlot x.s x.die = some i ∧
      fateAt x (descAcc (blockAt x (.s 0) 1).toNat) 0 ≠ .secure ∧ awaitsAtomic x (descAcc (blockAt x (.s 0) 1).toNat) = false ∧
      seenPoison x.s x.g (accAt x (descAcc (blockAt x (.s 0) 1).toNat) 0) 256 = false)) ∧
    (∃ j, Meets (.waith (.s 0) 0) (fun x => jobOf x.s (x.g.handle (0 : Fin 16).val) = some j ∧ j.status? = some 5)) ∧
    (∃ j, Meets (.waith .z 0) (fun x => jobOf x.s (x.g.handle (0 : Fin 16).val) = some j ∧ j.status? = none)) ∧
    (∃ j, Meets (.tsth 1 0) (fun x => jobOf x.s (x.g.handle (0 : Fin 16).val) = some j)) ∧
    Meets (.waith (.s 0) 15) (fun x => jobOf x.s (x.g.handle (15 : Fin 16).val) = none) ∧
    (∃ j, Meets (.canh 0) (fun x => jobOf x.s (x.g.handle (0 : Fin 16).val) = some j)) ∧
    (∃ j, Meets (.hsto 0 .lit .z) (fun x => fateAt x (handleAcc x) 0 = .ok ∧ jobOf x.s (x.g.handle (0 : Fin 16).val) = some j)) ∧
    Meets (.hlod 0 .z .lit) (fun x => fateAt x (handleAcc x) 0 = .ok ∧ CleanRead x (handleAcc x)) ∧
    (∃ st, Meets (.bina 0 .lid (.v 1)) (fun x => x.s.stream? x.die x.corr (0 : Fin 16).val = some st ∧
      (appendBins x (0 : Fin 16).val (binEls x) x.s).rest = [] ∧ (appendBins x (0 : Fin 16).val (binEls x) x.s).bad = [])) ∧
    Meets (.bhist .z .lit (.v 1) 0 .n32) (fun x =>
      Allowed x ⟨.sh, 64, 0, fun _ => x.a.sca.toNat, fun _ => decide ((windowAt x .sh).size < x.a.sca.toNat + 1024)⟩ ∧
      (((accThreads x).filter fun u => keyCounts (0 : Fin 4).val x.d.sca (keyOf .n32 (x.b.val u))).map fun u =>
        (⟨u, (windowAt x .sh).flat + x.a.sca.toNat + 4 * bucketOf (0 : Fin 4).val (keyOf .n32 (x.b.val u)), 0, 1⟩ : AtomEl)) ≠ []) := by
  refine ⟨⟨0, meets 0 0 (fun g => setS 0 1 g) id (by decide +kernel)⟩, ⟨_, meets 0 0 handled (withJob (.done 5)) ⟨rfl, by decide +kernel⟩⟩,
    ⟨_, meets 0 0 handled (withJob .started) ⟨rfl, by decide +kernel⟩⟩, ⟨_, meets 0 0 handled (withJob .queued) rfl⟩,
    meets 0 0 handled (withJob .started) (by decide +kernel), ⟨_, meets 0 0 handled (withJob .queued) rfl⟩,
    ⟨_, meets 0xFF8 0 handled (withJob .queued) ⟨by decide +kernel, rfl⟩⟩,
    meets 0xFF8 0 id id ⟨by decide +kernel, cleanRead_of (by decide +kernel) (by decide +kernel)⟩,
    ⟨_, meets 0 0 id streamed ⟨rfl, by decide +kernel, by decide +kernel⟩⟩,
    meets 0xC00 0 id id ⟨allowed_of (by decide +kernel), by decide +kernel⟩⟩

/-! Claims and the matrix unit -/

/-- The group owns every half and every bank of its core. -/
def owning (s : State) : State :=
  s.modCore 0 fun c => { c with halves := List.replicate 64 (some ⟨0, 0, 0⟩), banks := List.replicate 128 ⟨some ⟨0, 0, 0⟩, none⟩ }
/-- Another part of the slot, of the same team. -/
def other (s : State) : State := { s with groups := s.groups ++ [{ group0 with key := ⟨0, 0, 1⟩ }] }
/-- The array works on an OLD into half 0. -/
def oldRuns (s : State) : State :=
  s.modCore 0 fun c => { c with mq := [⟨50, probeKey, ⟨0, 0, 0⟩, 0, .old 0 0 1 none, 0, 0, ⟨0, false⟩, none, true, 0, none⟩] }

/-- ClaimWords: the whole range of halves and banks, free and taken; the last bank granted; releases, one of them held up. -/
theorem witness_ClaimWords :
    (∃ core, Meets (.oclm (.s 0) .lit) (fun x => halfRange x.a.sca = some (0, 64) ∧ claimHalves x (numbers (0, 64)) = some core)) ∧
    Meets (.oclm (.s 0) .lit) (fun x => halfRange x.a.sca = some (63, 1) ∧ claimHalves x (numbers (63, 1)) = none) ∧
    Meets (.oclm (.s 0) .lit) (fun x => halfRange x.a.sca = none) ∧
    (∃ core, Meets (.aclm (.s 0) .lit) (fun x => bankRange x.a.sca = some (0, 128) ∧ claimBanks x (numbers (0, 128)) = some core)) ∧
    Meets (.aclm .z .lit) (fun x => bankRange x.a.sca = some (127, 1) ∧ claimBanks x (numbers (127, 1)) = none) ∧
    (∃ g, Meets (.aclmGrant .lit .lit) (fun x => bankOf x.a.sca = some 127 ∧ x.b.sca.toNat < 1024 ∧ lacking x [] [127] [] = none ∧
      granteeOf x x.b.sca = some g)) ∧
    Meets (.orel .lit) (fun x => halfRange x.a.sca = some (0, 1) ∧ lacking x (numbers (0, 1)) [] [] = none ∧
      ∀ h ∈ numbers (0, 1), (x.s.core x.k.core).halfBusy h = false) ∧
    Meets (.orel .lit) (fun x => halfRange x.a.sca = some (0, 1) ∧ lacking x (numbers (0, 1)) [] [] = none ∧ 0 ∈ numbers (0, 1) ∧
      (x.s.core x.k.core).halfBusy 0 = true) ∧
    Meets (.arel .lit) (fun x => bankRange x.a.sca = some (127, 1) ∧ lacking x [] (numbers (127, 1)) [] = none ∧
      (x.s.core x.k.core).openBy x.own ⟨127, 1⟩ = false ∧ (x.s.core x.k.core).carried ⟨127, 1⟩ = [] ∧
      ∀ b ∈ numbers (127, 1), bankBusy x.s x.k.core b = false) ∧
    Meets (.arelRevoke .lit) (fun x => bankRange x.a.sca = some (0, 1) ∧ ∀ b ∈ numbers (0, 1), (x.s.core x.k.core).ownsBank x.own b = true ∨
      ((x.s.core x.k.core).bank b).grantee ≠ some x.own) :=
  ⟨⟨_, meets 0x1000 0 id id ⟨by decide +kernel, rfl⟩⟩, meets 0x7F 0 id (fun s => s.modCore 0 fun c => { c with halves := c.halves.set 63 (some ⟨9, 0, 0⟩) })
      (by decide +kernel), meets 0 0 id id (by decide +kernel), ⟨_, meets 0x4000 0 id id ⟨by decide +kernel, rfl⟩⟩,
    meets 0xFF 0 id (fun s => s.modCore 0 fun c => { c with banks := c.banks.set 127 ⟨some ⟨9, 0, 0⟩, none⟩ }) (by decide +kernel),
    ⟨_, meets 127 256 id (fun s => other (owning s)) ⟨by decide +kernel, by decide +kernel, by decide +kernel, rfl⟩⟩,
    meets 0x40 0 id owning (by decide +kernel), meets 0x40 0 id (fun s => oldRuns (owning s)) (by decide +kernel),
    meets 0xFF 0 id owning (by decide +kernel), meets 0x80 0 id id (by decide +kernel)⟩

/-- Every tag is in use, tag 3 of them open for the tile of bank 0. -/
def tagged (s : State) : State :=
  s.modCore 0 fun c => { c with tags := (List.replicate 16 ⟨.sealed, 0, ⟨9, 0, 0⟩, ⟨8, 1⟩, 0, []⟩).set 3 ⟨.opened, 0, ⟨0, 0, 0⟩, ⟨0, 1⟩, 0, []⟩ }

/-- MatrixIssue, the products: operands at the ends of their fields. -/
theorem witness_MatrixIssue_products :
    (∃ p, Meets (.mma .z .lit .lit true true) (fun x => productOf (.mma .z .lit .lit true true) x.d.sca x.a.sca x.b.sca = .ok p ∧
      Passes (takeProduct x p x.d.sca))) ∧
    (∃ p, Meets (.mmaa .z .lit .lit false) (fun x => productOf (.mmaa .z .lit .lit false) x.d.sca x.a.sca x.b.sca = .ok p ∧
      Passes (takeProduct x p x.d.sca))) ∧
    (∃ p, Meets (.mmsp .z .lit .lit false false) (fun x => productOf (.mmsp .z .lit .lit false false) x.d.sca x.a.sca x.b.sca = .ok p ∧
      Passes (takeProduct x p x.d.sca))) :=
  ⟨⟨⟨.mma ⟨0, 1⟩ 31 15 1 63 true true, ⟨0, 1⟩, [62, 63, 63], [], false, none⟩, meets 0x1FF 63 id owning ⟨rfl, passes_take (by decide +kernel)
    (by decide +kernel) (by decide +kernel) (by decide +kernel)⟩⟩,
   ⟨⟨.mmaa ⟨0, 1⟩ ⟨127, 1⟩ 7 1 63 false, ⟨0, 1⟩, [63], [127], false, some (.mmaa 63 7 1 ⟨127, 1⟩)⟩, meets 0xE7F 63 id owning ⟨rfl,
    passes_take (by decide +kernel) (by decide +kernel) (by decide +kernel) (by decide +kernel)⟩⟩,
   ⟨⟨.mmsp ⟨0, 1⟩ 31 30 63 false false, ⟨0, 1⟩, [62, 63, 60, 61, 63], [], true, none⟩, meets 0x3DF 63 id owning ⟨rfl,
    passes_take (by decide +kernel) (by decide +kernel) (by decide +kernel) (by decide +kernel)⟩⟩⟩

/-- MatrixIssue, lineage tags: with a free tag and without, sealed, all settled. -/
theorem witness_MatrixIssue_tags :
    Meets (.publ (.s 0) .lit) (fun x => tileOf x.a.sca = some ⟨127, 1⟩ ∧ lacking x [] (Tile.banks ⟨127, 1⟩) [] = none ∧
      (x.s.core x.k.core).carried ⟨127, 1⟩ = [] ∧ Passes (queueRoom x) ∧ (x.s.core x.k.core).freeTag = some 0) ∧
    Meets (.publ .z .lit) (fun x => tileOf x.a.sca = some ⟨124, 4⟩ ∧ lacking x [] (Tile.banks ⟨124, 4⟩) [] = none ∧
      (x.s.core x.k.core).carried ⟨124, 4⟩ = [] ∧ Passes (queueRoom x) ∧ (x.s.core x.k.core).freeTag = none) ∧
    Meets (.publSeal .z) (fun x => tileOf x.a.sca = some ⟨0, 1⟩ ∧ (x.s.core x.k.core).openTag x.own ⟨0, 1⟩ = some 3 ∧ Passes (queueRoom x)) ∧
    Meets (.setl .lit) (fun x => x.a.sca.toNat < 65536 ∧ ∀ n < 16, x.a.sca.getLsbD n = true →
      (((x.s.core x.k.core).tag n).st ≠ .opened ∨ ((x.s.core x.k.core).tag n).pub ≠ x.own) ∧
      (((x.s.core x.k.core).tag n).unsettled = false ∨ ((x.s.core x.k.core).tag n).team ≠ x.g.team)) :=
  ⟨meets 0x7F 0 id owning ⟨by decide +kernel, by decide +kernel, by decide +kernel, passes_queue (by decide +kernel), by decide +kernel⟩,
    meets 0x1FC 0 id (fun s => tagged (owning s)) ⟨by decide +kernel, by decide +kernel, by decide +kernel, passes_queue (by decide +kernel),
      by decide +kernel⟩,
    meets 0 0 id (fun s => tagged (owning s)) ⟨by decide +kernel, by decide +kernel, passes_queue (by decide +kernel)⟩,
    meets 0xFFFF 0 id id (by decide +kernel)⟩

/-- MatrixIssue, the tile operations and the moves to and from memory. -/
theorem witness_MatrixIssue_moves :
    (∃ o, Meets (.alin .z .lit .lit .add) (fun x => tileOf x.d.sca = some ⟨0, 1⟩ ∧ tileOf x.a.sca = some ⟨1, 1⟩ ∧
      alinOp .add ⟨1, 1⟩ x.b.sca = some o ∧ alinFits ⟨0, 1⟩ o = true ∧
      lacking x [] (Tile.banks ⟨0, 1⟩) (o.sources.flatMap Tile.banks) = none ∧ Passes (Machine.writable x ⟨0, 1⟩ x.d.sca false) ∧
      Passes (queueRoom x) ∧ Passes (tableRoom x (some o)))) ∧
    Meets (.afil .lit .lit) (fun x => tileOf x.a.sca = some ⟨124, 4⟩ ∧ lacking x [] (Tile.banks ⟨124, 4⟩) [] = none ∧
      Passes (Machine.writable x ⟨124, 4⟩ x.a.sca false) ∧ Passes (queueRoom x)) ∧
    Meets (.adrn (.v 0) .lit .lit) (fun x => bankOf x.a.sca = some 127 ∧ x.b.sca.toNat % x.g.width = 0 ∧ x.b.sca.toNat + 2 * x.g.width ≤ 2048 ∧
      lacking x [] [] [127] = none ∧ Passes (nonLinear x ⟨127, 1⟩ x.a.sca) ∧
      Passes (drainable x (127 * 8192 + 4 * x.b.sca.toNat) (8 * x.g.width)) ∧ x.dst = .vec 0) ∧
    Meets (.old .z .lit .lit) (fun x => halfRange x.a.sca = some (0, 0x1) ∧ ((Reg.lit : Reg) = .z ∨ badTag x.b.sca = false) ∧ x.d.sca.toNat % 64 = 0 ∧
      x.d.sca.toNat + 8192 * 1 ≤ (windowAt x .sh).size ∧ lacking x (numbers (0, 1)) [] [] = none ∧ Passes (unpinned x (numbers (0, 1))) ∧
      Passes (queueRoom x)) ∧
    Meets (.sltg .lit .lit) (fun x => halfRange x.a.sca = some (0, 64) ∧ badTag x.b.sca = false ∧ lacking x (numbers (0, 64)) [] [] = none ∧
      Passes (unpinned x (numbers (0, 64))) ∧ Passes (queueRoom x)) ∧
    Meets (.ast (.s 0) .z .lit .sp) (fun x => tileOf x.a.sca = some ⟨0, 1⟩ ∧ x.b.sca.toNat % 256 = 0 ∧ x.d.sca.toNat % 64 = 0 ∧
      x.d.sca.toNat + (32 * 1 - 1) * x.b.sca.toNat + 256 ≤ (windowAt x .sp).size ∧
      astSecure x (windowAt x .sp) x.d.sca.toNat x.b.sca.toNat (32 * 1) = false ∧ lacking x [] [] (Tile.banks ⟨0, 1⟩) = none ∧
      Passes (nonLinear x ⟨0, 1⟩ x.a.sca) ∧ Passes (drainable x (0 * 8192) (1 * 8192)) ∧ Passes (queueRoom x)) ∧
    (∃ a hs, Meets (.ost (.s 0) .z .lit true .bf16) (fun x => tileOf x.a.sca = some ⟨0, 1⟩ ∧ x.b.sca.toNat < 256 ∧
      ostDest x ⟨0, 1⟩ .bf16 = .ok (a, hs) ∧ lacking x hs [] (Tile.banks ⟨0, 1⟩) = none ∧ Passes (nonLinear x ⟨0, 1⟩ x.a.sca) ∧
      Passes (drainable x (0 * 8192) (1 * 8192)) ∧ Passes (queueRoom x))) :=
  ⟨⟨.add ⟨1, 1⟩ ⟨0, 1⟩, meets 1 0 id owning ⟨by decide +kernel, by decide +kernel, by decide +kernel, by decide +kernel, by decide +kernel,
      passes_writable (by decide +kernel), passes_queue (by decide +kernel), passes_table (by decide +kernel)⟩⟩,
    meets 0x1FC 0x3F800000 id owning ⟨by decide +kernel, by decide +kernel, passes_writable (by decide +kernel), passes_queue (by decide +kernel)⟩,
    meets 127 2032 id owning ⟨by decide +kernel, by decide +kernel, by decide +kernel, by decide +kernel,
      passes_nonLinear (by decide +kernel) (by decide +kernel), passes_drainable (by decide +kernel), by decide +kernel⟩,
    meets 0x40 0xFF0C id (fun s => (owning s).modTeam 0 fun t => { t with shSize := 8192 }) ⟨by decide +kernel, by decide +kernel, by decide +kernel,
      by decide +kernel, by decide +kernel, passes_unpinned (by decide +kernel), passes_queue (by decide +kernel)⟩,
    meets 0x1000 0 id owning ⟨by decide +kernel, by decide +kernel, by decide +kernel, passes_unpinned (by decide +kernel),
      passes_queue (by decide +kernel)⟩,
    meets 0x10700 0 id owning ⟨by decide +kernel, by decide +kernel, by decide +kernel, by decide +kernel, by decide +kernel, by decide +kernel,
      passes_nonLinear (by decide +kernel) (by decide +kernel), passes_drainable (by decide +kernel), passes_queue (by decide +kernel)⟩,
    ⟨_, [63], meets 255 0 (setS 0 0x8000003F) owning ⟨by decide +kernel, by decide +kernel, rfl, by decide +kernel,
      passes_nonLinear (by decide +kernel) (by decide +kernel), passes_drainable (by decide +kernel), passes_queue (by decide +kernel)⟩⟩⟩

/-! Effects, system words, the rules of issue -/

/-- A MANY invocation that has ended and whose token lives in k1. -/
def endedMany (g : Group) : Group :=
  let g := handling g
  { g with it := { g.it with frames := g.it.frames.map fun f => { f with running := false }, tokens := [0, tokenWord .many 1 0 0 0, 0, 0] }
           ctxs := g.ctxs.map fun c => { c with ended := true, left := 0 } }
/-- A token that names nothing in k2. -/
def stale (g : Group) : Group := g.setToken 2 (tokenWord .once 1 0 0 0)

/-- EffectWords. -/
theorem witness_EffectWords :
    Meets (.perf .z .lit .lit false 7) (fun x => kindOf (x.a.sca.toNat / 2048) = some .once ∧ x.a.sca.toNat % 2048 ≤ 255 ∧ acting x 7 false ≠ 0#128) ∧
    Meets (.perf (.v 0) .lit .lit true 7) (fun x => kindOf (x.a.sca.toNat / 2048) = some .none ∧ x.a.sca.toNat % 2048 ≤ 255 ∧
      acting x 7 true = 0#128) ∧
    Meets (.hpsh (.s 0) .lit .lit) (fun x => x.act ≠ 0#128 ∧ x.d.sca.toNat < 4194304 ∧ x.g.depth + 1 ≤ x.g.maxFrames ∧
      x.g.wouldMeet x.g.it.callHt (x.g.depth + 1) = false) ∧
    (∃ f fs, Meets .hpop (fun x => x.g.it.frames = f :: fs ∧ f.running = false ∧ x.act &&& ~~~f.lanes = 0#128)) ∧
    Meets .hpop (fun x => x.g.it.frames = []) ∧
    (∃ c, Meets (.rsum 0 (.v 1) .retry) (fun x => (x.g.token (0 : Fin 4).val).toNat / 1073741824 ≠ 0 ∧
      liveToken x.s x.g (x.g.token (0 : Fin 4).val) = some c ∧ usedDeeper x.g c x.act = false ∧ c.perf.kind ≠ .none ∧
      RsumAct.retry ∈ allowedActs c.perf.eff ∧ (if c.perf.kind = .once then c.left &&& x.g.present else x.act) &&& ~~~c.q = 0#128)) ∧
    Meets (.tokd 3) (fun x => (x.g.token (3 : Fin 4).val).toNat / 1073741824 = 0) ∧
    (∃ c, Meets (.tokd 1) (fun x => (x.g.token (1 : Fin 4).val).toNat / 1073741824 ≠ 0 ∧ liveToken x.s x.g (x.g.token (1 : Fin 4).val) = some c ∧
      c.ended = true ∧ c.perf.kind = .many)) ∧
    (∃ c, Meets (.tokdAbort 0) (fun x => (x.g.token (0 : Fin 4).val).toNat / 1073741824 ≠ 0 ∧ liveToken x.s x.g (x.g.token (0 : Fin 4).val) = some c ∧
      (c.ended = true → x.act &&& ~~~c.q = 0#128))) ∧
    (∃ c, Meets (.tokdMov 3 0) (fun x => (x.g.token (0 : Fin 4).val).toNat / 1073741824 ≠ 0 ∧ liveToken x.s x.g (x.g.token (0 : Fin 4).val) = some c)) ∧
    Meets (.rsum 2 .z .cont) (fun x => (x.g.token (2 : Fin 4).val).toNat / 1073741824 ≠ 0 ∧ liveToken x.s x.g (x.g.token (2 : Fin 4).val) = none) :=
  ⟨meets 0x8FF 0 id id (by decide +kernel), meets 0x1800 0 id id (by decide +kernel), meets 256 512 (setS 0 0x3FFFFF) id (by decide +kernel),
    ⟨_, _, meets 0 0 handler id ⟨rfl, by decide +kernel, by decide +kernel⟩⟩, meets 0 0 id id (by decide +kernel),
    ⟨_, meets 0 0 handling id ⟨by decide +kernel, rfl, by decide +kernel, by decide +kernel, by decide +kernel, by decide +kernel⟩⟩,
    meets 0 0 id id (by decide +kernel), ⟨_, meets 0 0 endedMany id ⟨by decide +kernel, rfl, by decide +kernel, by decide +kernel⟩⟩,
    ⟨_, meets 0 0 handling id ⟨by decide +kernel, rfl, by decide +kernel⟩⟩, ⟨_, meets 0 0 handling id ⟨by decide +kernel, rfl⟩⟩,
    meets 0 0 stale id (by decide +kernel)⟩

/-- SystemWords: the selectors on both sides of 16, the last bank. -/
theorem witness_SystemWords :
    (∀ i ∈ ([.sysRdsr (.s 0) 0, .sysRdsr .z 17, .sysProf .lit, .sysTime (.s 26), .sysTime .z, .sysFlags (.s 0) (.v 0) true,
      .sysFlags (.s 0) .lit false] : List Instr), Stands i) ∧
    Meets (.sysWrsr .lit 16) (fun _ => 16 ≤ (16#7).toNat) ∧ Meets (.sysWrsr .lit 11) (fun _ => (11#7).toNat < 16) ∧
    Meets (.sysStamp .lit) (fun x => x.a.sca.toNat < 8388608 ∧ lacking x [] [] [x.a.sca.toNat / 65536] = none) :=
  ⟨stands_of (by decide +kernel), meets 0 0 id id (by decide), meets 0 0 id id (by decide), meets 0x7FFFFF 0 id owning (by decide +kernel)⟩

/-! Steps and decoding -/

/-- The outcome is a next state. -/
def goesOn (o : Host.Outcome State Fault Refusal) : Bool :=
  match o with
  | .next _ => true
  | _ => false

theorem next_of {o : Host.Outcome State Fault Refusal} (h : goesOn o = true) : ∃ t, o = .next t := by
  cases o <;> simp_all [goesOn]

/-- StepKeepsInvariant: the machine that is about to run a word. -/
theorem witness_StepKeepsInvariant : ∃ s t, Sys2Proof.Inv s ∧ step s = .next t :=
  have ⟨t, h⟩ := next_of (o := step (State.reset.withFetchWord 32 0)) (by decide +kernel)
  ⟨_, t, ⟨by decide +kernel, by decide +kernel, by decide +kernel, by decide +kernel, by decide +kernel, by decide +kernel,
    ⟨20, by decide +kernel, by decide, by decide⟩⟩, h⟩

/-- StepRunsInstruction: a group at a word and at a header, a walker, an event, the default order. -/
theorem witness_StepRunsInstruction :
    (∃ (s : State) (k : GKey) (g : Group) (iss : Issue) (i : Instr) (ts : List Turn), s.agenda = .group k :: ts ∧ s.group? k = some g ∧ (g.late = [] ∨ lateLanes g = none) ∧ g.cur = some iss ∧ mayIssue s g = true ∧
      decodeWord (iss.word iss.idx).toNat = .ok i) ∧
    (∃ (s : State) (k : GKey) (g : Group) (ts : List Turn), s.agenda = .group k :: ts ∧ s.group? k = some g ∧ g.cur = none ∧ g.late = []) ∧
    (∃ (s : State) (c : Nat) (w : Walker) (i : Instr) (ts : List Turn), s.agenda = .walker c :: ts ∧ ((begin_ s).core c).walker = some w ∧ walkerGoes s c w = true ∧
      w.pc.toNat % 4 = 0 ∧ w.pc.toNat + 4 ≤ w.code.length ∧
      decodeWalker (leNat ((w.code.drop w.pc.toNat).take 4)) = .ok i ∧ i.wf = true ∧ w.steps < s.times.stepLimit) ∧
    (∃ (s : State) (i : Instr) (ts : List Turn), s.agenda = .event i :: ts) ∧
    (∃ (s : State) (t : Turn) (ts : List Turn) (u : State), s.agenda = [] ∧ defaultTurns s = t :: ts ∧ runTurn (begin_ s) t = .next u ∧ u ≠ { begin_ s with cur := u.cur }) := by
  refine ⟨⟨State.reset.withFetchWord 32 0, probeKey, _, _, .nop, _, rfl, rfl, .inl rfl, rfl, by decide +kernel, rfl⟩,
    ⟨machine (fun s => { s with agenda := [.group probeKey] }) group0, probeKey, _, _, rfl, rfl, rfl, rfl⟩,
    ⟨State.reset.withFetchWord 32 0x3C003FF5, 0, _, .wjmp (-11), _, rfl, rfl, by decide +kernel, by decide +kernel, by decide +kernel,
      rfl, by decide +kernel, by decide +kernel⟩,
    ⟨{ State.reset with agenda := [.event .patrolScrub] }, _, _, rfl⟩,
    ⟨machine (fun s => { s with tick := 9 }) (grp id (at_ (ones 8) 0 0)), .group probeKey, _, _, rfl, rfl, rfl, ?_⟩⟩
  intro h
  exact absurd (congrArg (fun s => (s.group? probeKey).map (·.issued)) h) (by decide +kernel)

/-- EncodeDecodeRoundTrip: a Derrov word and a walker word. -/
theorem witness_EncodeDecodeRoundTrip :
    (∃ f, (Instr.iaddi (.v 31) .tix 0x7FF).fields = some f) ∧
    (∃ f, (Instr.wadd 15 15 15 0x2000).fields = none ∧ (Instr.wadd 15 15 15 0x2000).wFields = some f) := ⟨⟨_, rfl⟩, ⟨_, rfl, rfl⟩⟩

/-! The walker -/

/-- A machine in which core 0's walker acts. -/
def atWalker (w : Walker) (h : State → State := id) : State :=
  h ({ (({ State.reset with grids := [Grid.plain 0], teams := [Team.plain 0 0], cur := some (.walker 0) } : State).modCore 0
    fun c => { c with walker := some w }) with dies := [{ Die.reset with jobs := [probeJob] }] ++ List.replicate 3 Die.reset })
/-- A walker with registers 1 to 3 and a target. -/
def walker (a b d : Word) (t : Option (Nat × Nat × Nat × Byte)) : Walker :=
  ⟨0, [0, a, b, d] ++ List.replicate 12 0, 8, t, 0, 0, List.replicate 64 0⟩

/-- The walker has a state in which it stands at a word and meets a condition. -/
def MeetsW (i : Instr) (cond : State → Nat → Walker → Job → Prop) : Prop := ∃ s c w j, Walking s c w j i ∧ cond s c w j

theorem meetsW {i : Instr} {cond : State → Nat → Walker → Job → Prop} (w : Walker) (h : State → State)
    (c : cond (atWalker w h) 0 w probeJob)
    (r : ((atWalker w h).cur == some (.walker 0) && ((atWalker w h).core 0).walker == some w &&
      (atWalker w h).job? 0 w.job == some probeJob && i.wf) = true := by decide +kernel) : MeetsW i cond := by
  simp only [Bool.and_eq_true, beq_iff_eq] at r
  exact ⟨_, _, _, _, ⟨r.1.1.1, r.1.1.2, r.1.2, r.2⟩, c⟩

theorem standsW {l : List Instr} (h : l.all (fun i => i.wf) = true) : ∀ i ∈ l, MeetsW i fun _ _ _ _ => True := by
  intro i hi
  refine meetsW (walker 0 0 0 none) id trivial ?_
  simp only [Bool.and_eq_true]
  exact ⟨by decide +kernel, List.all_eq_true.mp h i hi⟩

/-- WalkerArithmetic. -/
theorem witness_WalkerArithmetic :
    (∀ i ∈ ([.wli 0 0x2000, .wadd 15 1 2 0x1FFF, .wsub 1 1 2, .wmul 1 2 3, .wshl 1 1 31, .wshr 15 1 0, .wand 1 2 0] : List Instr),
      MeetsW i fun _ _ _ _ => True) ∧
    (∃ (w : Walker) (n : Fin 16), n ≠ 0 ∧ w.w.length = 16) := ⟨standsW (by decide +kernel), walker 0 0 0 none, 15, by decide, rfl⟩

/-- WalkerLoadsAndBranches: the last bytes of the window, the byte after them, an odd offset; each branch taken and not. -/
theorem witness_WalkerLoadsAndBranches :
    (∀ p ∈ ([(.wldw 1 1 0 0, 4), (.wldh 1 1 0 2, 2), (.wldb 1 1 0 3, 1)] : List (Instr × Nat)),
      MeetsW p.1 fun s c w j => let off := (w.reg 1 + (BitVec.ofNat 14 (4 - p.2)).signExtend 32).toNat
        off % p.2 = 0 ∧ off + p.2 ≤ (walkWindow s c j 0).size ∧ walkSecure s j (walkWindow s c j 0) off p.2 = false ∧
        s.anyPoison ((walkWindow s c j 0).flat + off) p.2 = false) ∧
    MeetsW (.wldw 1 1 1 0) (fun s c w j => (w.reg 1 + (0#14).signExtend 32).toNat % 4 ≠ 0 ∨
      (walkWindow s c j 1).size < (w.reg 1 + (0#14).signExtend 32).toNat + 4) ∧
    MeetsW (.wldb 1 1 1 0) (fun s c w j => (w.reg 1 + (0#14).signExtend 32).toNat % 1 ≠ 0 ∨
      (walkWindow s c j 1).size < (w.reg 1 + (0#14).signExtend 32).toNat + 1) ∧
    MeetsW (.wbeq 1 2 0x1FFF) (fun _ _ w _ => w.reg 1 = w.reg 2) ∧ MeetsW (.wbeq 1 2 0x2000) (fun _ _ w _ => ¬w.reg 1 = w.reg 2) ∧
    MeetsW (.wblo 1 2 0) (fun _ _ w _ => (w.reg 1).toNat < (w.reg 2).toNat) ∧
    MeetsW (.wblo 1 2 0) (fun _ _ w _ => ¬(w.reg 1).toNat < (w.reg 2).toNat) ∧
    (∀ i ∈ ([.wbne 1 2 1, .wbhs 1 2 1, .wjmp (-1), .whalt] : List Instr), MeetsW i fun _ _ _ _ => True) := by
  refine ⟨?_, meetsW (walker 2 0 0 none) id (by decide +kernel), meetsW (walker 0x1000 0 0 none) id (by decide +kernel),
    meetsW (walker 7 7 0 none) id (by decide +kernel), meetsW (walker 7 8 0 none) id (by decide +kernel),
    meetsW (walker 0 0xFFFFFFFF 0 none) id (by decide +kernel), meetsW (walker 5 5 0 none) id (by decide +kernel),
    standsW (by decide +kernel)⟩
  intro p hp
  rcases List.mem_cons.mp hp with rfl | hp
  · exact meetsW (walker 0x1FFFFC 0 0 none) id (by decide +kernel)
  rcases List.mem_cons.mp hp with rfl | hp
  · exact meetsW (walker 0x1FFFFC 0 0 none) id (by decide +kernel)
  rcases List.mem_cons.mp hp with rfl | hp
  · exact meetsW (walker 0x1FFFFC 0 0 none) id (by decide +kernel)
  cases hp

/-- WalkerTargets: the last half, a range that is none; the last element and the one after it; a run of all elements; a barrier
register that takes an arrival and one at its count. -/
theorem witness_WalkerTargets :
    (∃ t, MeetsW (.wtgt 1 2) (fun s c w j => targetOf (w.reg 1) (w.reg 2) = some t ∧ targetOwned s c j t = true)) ∧
    MeetsW (.wtgt 1 2) (fun _ _ w _ => targetOf (w.reg 1) (w.reg 2) = none) ∧
    (∃ t, MeetsW .wzero (fun s c w j => w.target = some t ∧ targetOwned s c j t = true)) ∧
    (∃ t, MeetsW (.wemit 1 2) (fun s c w j => w.target = some t ∧ (w.reg 1).toNat < elemCount t ∧ targetOwned s c j t = true)) ∧
    (∃ t, MeetsW (.wemit 1 2) (fun _ _ w _ => w.target = none ∨ (w.target = some t ∧ elemCount t ≤ (w.reg 1).toNat))) ∧
    (∃ t, MeetsW (.wemit 1 2) (fun _ _ w _ => w.target = some t ∧ elemCount t ≤ (w.reg 1).toNat)) ∧
    (∃ t, MeetsW (.wrun 3 1 2 0) (fun s c w j => w.target = some t ∧ w.reg 3 ≠ 0 ∧ (w.reg 1).toNat + (w.reg 3).toNat ≤ elemCount t ∧
      (w.reg 2).toNat % elemBytes t = 0 ∧ (w.reg 2).toNat + elemBytes t * (w.reg 3).toNat ≤ (walkWindow s c j 0).size ∧
      walkSecure s j (walkWindow s c j 0) (w.reg 2).toNat (elemBytes t * (w.reg 3).toNat) = false ∧
      s.anyPoison ((walkWindow s c j 0).flat + (w.reg 2).toNat) (elemBytes t * (w.reg 3).toNat) = false ∧ targetOwned s c j t = true)) ∧
    MeetsW (.warv 15) (fun s _ _ j => (s.bar j.team (15 : Fin 16).val).refuses 1 = false) ∧
    MeetsW (.warv 0) (fun s _ _ j => (s.bar j.team (0 : Fin 16).val).refuses 1 = true) ∧
    (∀ i ∈ ([.wfault 0, .wfault 255] : List Instr), MeetsW i fun _ _ _ _ => True) :=
  ⟨⟨(63, 1, 6, 255), meetsW (walker 0x7F 0xFF06 0 none) owning (by decide +kernel)⟩, meetsW (walker 0x80 0 0 none) owning (by decide +kernel),
    ⟨_, meetsW (walker 0 0 0 (some (0, 1, 6, 0))) owning ⟨rfl, by decide +kernel⟩⟩,
    ⟨_, meetsW (walker 4095 0 0 (some (0, 1, 2, 0))) owning ⟨rfl, by decide +kernel, by decide +kernel⟩⟩,
    ⟨(0, 1, 2, 0), meetsW (walker 0 0 0 none) owning (.inl rfl)⟩,
    ⟨_, meetsW (walker 4096 0 0 (some (0, 1, 2, 0))) owning ⟨rfl, by decide +kernel⟩⟩,
    ⟨_, meetsW (walker 4095 0x1FFFFE 1 (some (0, 1, 2, 0))) owning ⟨rfl, by decide +kernel, by decide +kernel, by decide +kernel,
      by decide +kernel, by decide +kernel, by decide +kernel, by decide +kernel⟩⟩,
    meetsW (walker 0 0 0 none) id (by decide +kernel),
    meetsW (walker 0 0 0 none) (fun s => s.putBar 0 0 ⟨0, 0, false, true, []⟩) (by decide +kernel), standsW (by decide +kernel)⟩

/-! Steps without a word -/

/-- The group with nothing at hand, its lanes at a place. -/
def placed (p : Pos) (f : Group → Group := id) : Group :=
  f { group0 with lanes := group0.lanes.map fun l => { l with pos := p } }
/-- The clause of a NOP at 0. -/
def nopClause : Clause := ⟨0, [0], 0, 15, 15, false⟩
/-- An effect that is delivered late. -/
def lateEffect : Perf := ⟨0x106, .none, 0, 1, 0, 0, 0, 0, 0, .none, none⟩
/-- It waits for the next header. -/
def late (g : Group) : Group := { g with late := [lateEffect] }
/-- A stored byte in the queue. -/
def stored : QEntry := ⟨7, .bytes [(spAddr 0 0, 5)], none, .none, 1, 0, 0, 0, ⟨0, false⟩⟩
/-- The group waits at `cpy p0, s0, wait` for room in the copy queue. -/
def copyWait : Issue := ⟨⟨0, [BitVec.ofNat 32 (wordW 0x59 0 96 0 0), 0, 0], 0, 15, 15, false⟩, 0, ones 8, .taken 4⟩

/-- A store of team shared memory in the queue. -/
def nearStored : QEntry := ⟨7, .bytes [(shAddr 0 0, 5)], none, .none, 1, 0, 0, 0, ⟨0, false⟩⟩
/-- The group's queue. -/
def queueing (q : List QEntry) (g : Group) : Group := { g with queue := q }
/-- A store of the group has left the queue and is on its way to the scratchpad. -/
def flying (s : State) : State := s.modCore 0 fun c => { c with flights := [⟨probeKey, stored, false⟩] }
/-- Breakpoint register 0 names address 20 of the launch's code. -/
def armed (s : State) : State := { s with dist := { s.dist with bpGrid := 0, bpPc := [21, 0, 0, 0] } }
/-- The group at a place. -/
def AtGroup (p : State → Group → Prop) : Prop := ∃ (s : State) (g : Group), s.group? g.key = some g ∧ p s g

/-- GroupEvents: the next word, a header in and out of a breakpoint, a late effect at a header and at a wait, each kind of step of the
queue, a completion, a copy stall. -/
theorem witness_GroupEvents :
    (∃ cl i p m, AtGroup fun s g => mayIssue s g = true ∧ g.cur = none ∧ select g = some (.inside cl i p, m)) ∧
    (∃ pc m cl w, AtGroup fun s g => mayIssue s g = true ∧ g.cur = none ∧ select g = some (.header pc, m) ∧ g.late = [] ∧
      (breakpointAt s (corrOf s g) pc = none ∨ g.bpSkip = some pc) ∧ pc % 4 = 0 ∧ poisonedCode s g m pc (clauseWords s g m pc) = false ∧
      readClause pc (codeWords s g m pc (clauseWords s g m pc)) = .ok (cl, w) ∧
      ∀ f < 12, w / 2 ^ f % 2 = 1 ∨ f = cl.seta ∨ f = cl.setb → g.flagPending f = false) ∧
    (∃ pc m n, AtGroup fun s g => mayIssue s g = true ∧ g.cur = none ∧ select g = some (.header pc, m) ∧ g.late = [] ∧
      breakpointAt s (corrOf s g) pc = some n ∧ g.bpSkip ≠ some pc) ∧
    (∃ m p, AtGroup fun s g => mayIssue s g = true ∧ g.cur = none ∧ lateLanes g = some m ∧ g.nextLate = some p) ∧
    (∃ iss m p, AtGroup fun s g => mayIssue s g = true ∧ g.cur = some iss ∧ lateLanes g = some m ∧ g.nextLate = some p) ∧
    (∀ e ∈ [stored, nearStored, { stored with op := .fence }], AtGroup fun s g => g.queue = [e] ∧ aloft s g.key = false) ∧
    (stored.op.far = true ∧ nearStored.op.far = false) ∧
    (AtGroup fun s g => g.queue = [] ∧ aloft s g.key = true) ∧
    (∃ p, AtGroup fun _ g => g.pend.find? (fun q => q.id == p.id) = some p ∧ p.await = .ready ∧ p.flags = 0#7) ∧
    (∃ x res free src, AtGroup fun s g => stalled s g.key = some (x, res, free, src)) := by
  refine ⟨⟨_, _, _, _, machine id (placed (.inside nopClause 0 .fresh)), placed (.inside nopClause 0 .fresh), rfl, by decide +kernel, rfl, rfl⟩,
    ⟨20, ones 8, ⟨20, [0], 0, 15, 15, false⟩, 0, machine coded (placed (.header 20)), placed (.header 20), rfl, by decide +kernel, rfl,
      by decide +kernel, rfl, by decide +kernel, by decide +kernel, by decide +kernel, rfl, by decide +kernel⟩,
    ⟨20, ones 8, 0, machine (fun s => armed (coded s)) (placed (.header 20)), placed (.header 20), by decide +kernel⟩,
    ⟨ones 8, lateEffect, machine id (placed (.header 0) late), placed (.header 0) late, by decide +kernel⟩,
    ⟨copyWait, ones 8, lateEffect, machine id (late (grp id copyWait)), late (grp id copyWait), by decide +kernel⟩,
    fun e _ => ⟨machine id (queueing [e] group0), queueing [e] group0, rfl, rfl, rfl⟩, by decide +kernel,
    ⟨machine flying group0, group0, by decide +kernel⟩,
    ⟨⟨5, true, some 0, false, .ready, [], 0, 0, 0, ⟨0, false⟩, 0, []⟩, machine id (pending 0 true group0), pending 0 true group0, rfl, rfl, rfl, rfl⟩, ?_⟩
  have ⟨⟨x, a, b, c⟩, h⟩ := Option.isSome_iff_exists.mp
    (show (stalled (machine (fun s => full (laid s)) (grp (block 0x10) copyWait)) probeKey).isSome = true by decide +kernel)
  exact ⟨x, a, b, c, _, grp (block 0x10) copyWait, rfl, h⟩

/-- A matrix entry of the group: a publication of bank 0. -/
def entry : MEntry := ⟨50, probeKey, ⟨0, 0, 0⟩, 0, .publ ⟨0, 1⟩ none, 0, 0, ⟨0, false⟩, none, true, 0, none⟩
/-- A correction of 0 owed to the tile of bank 0. -/
def owed : App := ⟨60, 0, 0, [], entry⟩
/-- The matrix unit runs an entry. -/
def runs (e : MEntry) (s : State) : State := s.modCore 0 fun c => { c with running := some ⟨e, [], [], 0, [], none⟩ }
/-- The walker of core 0 and its job. -/
def AtWalker (p : State → Walker → Job → Prop) : Prop :=
  ∃ (s : State) (w : Walker) (j : Job), (s.core 0).walker = some w ∧ s.job? (dieOf 0) w.job = some j ∧ walkerGoes s 0 w = true ∧ p s w j

/-- CoreEvents: a copy, an entry, the end of one and of a half of OLD, a correction, the walker at its limit, past its section, off a
multiple of 4, at a word that is none. -/
theorem witness_CoreEvents :
    (∃ (s : State) (c : Nat) (y : Copy), s.copy? c y.id = some y ∧ nextCopy s c = some y.id) ∧
    (∃ (s : State) (c : Nat) (e : MEntry) (w : Work), c < s.cores.length ∧ nextEntry s c = some e ∧ followLacks (s.core c) e = none ∧
      runOp s c e.op e.done = .ok w) ∧
    (∃ (s : State) (c : Nat) (r : MRun), (s.core c).running = some r ∧ r.more = false) ∧
    (∃ (s : State) (c : Nat) (r : MRun), (s.core c).running = some r ∧ r.more = true) ∧
    (∃ (s : State) (c : Nat) (a : App) (l : List App), (s.core c).apps = a :: l ∧ (s.core c).running = none ∧ appsRun s (a.entry.corr s) = true) ∧
    (AtWalker fun s w _ => (walkerWord w).isSome = true ∧ s.times.stepLimit ≤ w.steps) ∧
    (AtWalker fun _ w _ => w.code.length < w.pc.toNat + 4) ∧ (AtWalker fun _ w _ => w.pc.toNat % 4 ≠ 0) ∧
    (AtWalker fun _ w _ => w.pc.toNat % 4 = 0 ∧ w.pc.toNat + 4 ≤ w.code.length ∧ walkerWord w = none) :=
  ⟨⟨machine oneCopy group0, 0, copyAt 77 true, by decide +kernel, by decide +kernel⟩,
    ⟨machine (fun s => s.modCore 0 fun c => { c with mq := [entry] }) group0, 0, entry, _, by decide +kernel, by decide +kernel, by decide +kernel, rfl⟩,
    ⟨machine (runs entry) group0, 0, _, rfl, by decide +kernel⟩,
    ⟨machine (runs { entry with op := .old 0 0 2 none }) group0, 0, _, rfl, by decide +kernel⟩,
    ⟨machine (fun s => s.modCore 0 fun c => { c with apps := [owed] }) group0, 0, _, _, rfl, rfl, by decide +kernel⟩,
    ⟨atWalker { walker 0 0 0 none with steps := 2 ^ 26, code := leBytes 4 0x3C003FF5 ++ List.replicate 60 0, pc := 0 }, _, _, rfl, rfl,
      by decide +kernel, by decide +kernel, by decide +kernel⟩,
    ⟨atWalker { walker 0 0 0 none with pc := 64 }, _, _, rfl, rfl, by decide +kernel, by decide +kernel⟩,
    ⟨atWalker { walker 0 0 0 none with pc := 2 }, _, _, rfl, rfl, by decide +kernel, by decide +kernel⟩,
    ⟨atWalker { walker 0 0 0 none with code := List.replicate 64 0xFF }, _, _, rfl, rfl, by decide +kernel, by decide +kernel,
      by decide +kernel, by decide +kernel⟩⟩

/-- Bytes with something written at offsets. -/
def described (l : List (Nat × List Byte)) : List Byte :=
  l.foldl (fun bs p => bs.take p.1 ++ p.2 ++ bs.drop (p.1 + p.2.length)) (List.replicate 256 0)
/-- A machine in which die 0 holds a job. -/
def jobbed (j : Job) (h : State → State := id) : State :=
  h { ({ State.reset with grids := [Grid.plain 0], teams := [Team.plain 0 0] } : State) with
    dies := [{ Die.reset with jobs := [j] }] ++ List.replicate 3 Die.reset }
/-- A job of a kind with a card, at a place. -/
def job (kind : Nat) (card : List Word) (desc : List Byte) (at_ : Nat := 0) : Job :=
  { probeJob with kind := kind, card := card ++ List.replicate (8 - card.length) 0, desc := desc, at_ := at_ }
/-- A stream of one value in one region, its buffer at the start of the window. -/
def streamDesc : List Byte := described [(140, [1]), (144, [16]), (160, [1])]
/-- A gather of rows of 64 bytes from the scratchpad window. -/
def gatherDesc : List Byte := described [(136, [1]), (144, [64]), (148, [1]), (152, [1]), (160, [64]), (168, [64])]
/-- A box that has been moved. -/
def movedBox : Move :=
  let l : Layout := ⟨0, 0, 0, 0, false, false, false, 0, 64, 1, 1, 0, 64, 64⟩
  let m := boxOf l l 0 0 fun i => [0, 0, 0, 0, 0, 0x10008].getD i 0
  { m with at_ := m.size }

theorem some_of {o : Option α} (h : o.isSome = true) : ∃ a, o = some a := Option.isSome_iff_exists.mp h

/-- JobEvents and CollectiveOperations: die 0 holds the job. -/
def AtJob (p : State → Job → Prop) : Prop := ∃ (s : State) (j : Job), s.job? 0 0 = some j ∧ j.idx = 0 ∧ j.finished = false ∧ p s j
/-- Its service begins in the same state. -/
def AtService (p : State → Job → Prop) : Prop :=
  AtJob fun s j => j.bad = false ∧ j.canh = false ∧ j.out = [] ∧ served s 0 j = some s ∧ p s j

theorem atJob (j : Job) (h : State → State) {p : State → Job → Prop} (c : p (jobbed j h) j)
    (r : ((jobbed j h).job? 0 0 == some j && j.idx == 0 && !j.finished) = true := by decide +kernel) : AtJob p := by
  simp only [Bool.and_eq_true, beq_iff_eq, Bool.not_eq_true'] at r
  exact ⟨_, j, r.1.1, r.1.2, r.2, c⟩

theorem atService (j : Job) (h : State → State) {p : State → Job → Prop} (c : p (jobbed j h) j)
    (r : ((jobbed j h).job? 0 0 == some j && j.idx == 0 && !j.finished) = true := by decide +kernel)
    (q : (!j.bad && !j.canh && j.out == [] && j.st == .started && j.susp == .none) = true := by decide +kernel) : AtService p := by
  simp only [Bool.and_eq_true, beq_iff_eq, Bool.not_eq_true'] at q
  refine atJob j h ⟨q.1.1.1.1, q.1.1.1.2, q.1.1.2, ?_, c⟩ r
  simp [served, q.1.2, q.2]

/-- JobEvents, what every kind shares: malformed; cancelled in the queue, at a boundary, unanswered; not to be started; bytes under way;
stopped. -/
theorem witness_JobEvents_common : ∀ p ∈ ([(0, 0), (2, 0), (3, 0), (3, 1), (5, 0), (0, 1)] : List (Nat × Word)),
    (AtJob fun _ j => j.kind = p.1 ∧ (p.1 = 5 ∨ j.c 2 = p.2) ∧ j.bad = true) ∧
    (AtJob fun _ j => j.kind = p.1 ∧ (p.1 = 5 ∨ j.c 2 = p.2) ∧ j.bad = false ∧ j.canh = true ∧ j.st = .queued) ∧
    (AtJob fun _ j => j.kind = p.1 ∧ (p.1 = 5 ∨ j.c 2 = p.2) ∧ j.bad = false ∧ j.canh = true ∧ j.st ≠ .queued ∧ j.atBoundary = true) ∧
    (AtJob fun s j => j.kind = p.1 ∧ (p.1 = 5 ∨ j.c 2 = p.2) ∧ j.bad = false ∧ j.canh = true ∧ j.atBoundary = false ∧ unanswered s j = true) ∧
    (AtJob fun s j => j.kind = p.1 ∧ (p.1 = 5 ∨ j.c 2 = p.2) ∧ j.bad = false ∧ j.canh = false ∧ j.st = .queued ∧ jobStarts s 0 j = false) ∧
    (AtJob fun _ j => j.kind = p.1 ∧ (p.1 = 5 ∨ j.c 2 = p.2) ∧ j.bad = false ∧ j.canh = false ∧ j.started = true ∧ j.susp = .none ∧ j.out ≠ []) ∧
    (AtJob fun _ j => j.kind = p.1 ∧ (p.1 = 5 ∨ j.c 2 = p.2) ∧ j.bad = false ∧ j.canh = false ∧ j.started = true ∧ j.susp ≠ .none) := by
  intro p hp
  have e : ∀ b : Bool, (job p.1 [0, 0, p.2] []).bad = false ∧ (job p.1 [0, 0, p.2] []).c 2 = p.2 := fun _ => ⟨rfl, rfl⟩
  refine ⟨⟨jobbed { job p.1 [0, 0, p.2] [] with bad := true }, _, rfl, rfl, rfl, rfl, .inr rfl, rfl⟩,
    ⟨jobbed { job p.1 [0, 0, p.2] [] with canh := true, st := .queued }, _, rfl, rfl, rfl, rfl, .inr rfl, rfl, rfl, rfl⟩,
    ⟨jobbed { job p.1 [0, 0, p.2] [] with canh := true, mv := some movedBox }, _, rfl, rfl, rfl, rfl, .inr rfl, rfl, rfl, by simp [job, probeJob], ?_⟩,
    ⟨jobbed { job p.1 [0, 0, p.2] [] with canh := true, out := [(0, 0)], susp := .effect 0 64 } fun s => { s with grids := [] }, _, rfl, rfl, rfl, rfl,
      .inr rfl, rfl, rfl, rfl, rfl⟩,
    ⟨jobbed { job p.1 [0, 0, p.2] [] with st := .queued } fun s => { s with grids := [] }, _, rfl, rfl, rfl, rfl, .inr rfl, rfl, rfl, rfl, rfl⟩,
    ⟨jobbed { job p.1 [0, 0, p.2] [] with out := [(0, 0)] }, _, rfl, rfl, rfl, rfl, .inr rfl, rfl, rfl, rfl, rfl, by simp⟩,
    ⟨jobbed { job p.1 [0, 0, p.2] [] with susp := .fabric 9 }, _, rfl, rfl, rfl, rfl, .inr rfl, rfl, rfl, rfl, by simp⟩⟩
  show (true && movedBox.wholeBlocks) = true
  decide +kernel

/-- A stream of one value, with elements. -/
def openStream (els : List Bin) (s : State) : State :=
  s.modDie 0 fun d => { d with streams := [⟨0, 0, 0, 1, 1, 16, .addS32, false, 0, 0, 1, els⟩] }
/-- An element. -/
def bin : Bin := ⟨1, probeKey, 0, 0, 5, true⟩
/-- Another replay of the stream is under way. -/
def replaying (s : State) : State :=
  s.modDie 0 fun d => { d with jobs := d.jobs ++ [{ job 0 [0, 0, 1] [] with idx := 1, seq := 99, bins := [bin] }] }

/-- JobEvents, opening a bin stream: no room for its buffer, not open, open and waited for, its elements on the way, to be taken, none. -/
theorem witness_JobEvents_open :
    (AtService fun s j => j.kind = 0 ∧ (j.c 2).getLsbD 0 = false ∧
      (s.windowOf j.corr 0).bind (fun w => streamOf w.2 j.stream j.corr j.desc) = none) ∧
    (∃ w st, AtService fun s j => j.kind = 0 ∧ (j.c 2).getLsbD 0 = false ∧ s.windowOf j.corr 0 = some w ∧
      streamOf w.2 j.stream j.corr j.desc = some st ∧ s.stream? 0 j.corr j.stream = none) ∧
    (∀ b ∈ [true, false], ∃ w st old, AtService fun s j => j.kind = 0 ∧ (j.c 2).getLsbD 0 = false ∧ s.windowOf j.corr 0 = some w ∧
      streamOf w.2 j.stream j.corr j.desc = some st ∧ s.stream? 0 j.corr j.stream = some old ∧ replayBusy s 0 j = b) ∧
    (∃ old, AtService fun s j => j.kind = 0 ∧ s.stream? 0 j.corr j.stream = some old ∧ replayBusy s 0 j = false ∧ j.bins ≠ []) ∧
    (∃ old, AtService fun s j => j.kind = 0 ∧ s.stream? 0 j.corr j.stream = some old ∧ replayBusy s 0 j = false ∧ j.bins = [] ∧ old.held ≠ 0) ∧
    (∃ old, AtService fun s j => j.kind = 0 ∧ s.stream? 0 j.corr j.stream = some old ∧ replayBusy s 0 j = false ∧ j.bins = [] ∧ old.held = 0) := by
  have ⟨t, h⟩ := some_of (show (streamOf 2097152 0 0 streamDesc).isSome = true by decide +kernel)
  refine ⟨atService (job 0 [] []) (fun s => { s with grids := [] }) ⟨rfl, by decide +kernel, rfl⟩,
    ⟨_, t, atService (job 0 [] streamDesc) id ⟨rfl, by decide +kernel, (by decide +kernel : _ = some (0, 2097152)), h, by decide +kernel⟩⟩, ?_,
    ⟨_, atService { job 0 [] streamDesc with bins := [bin] } (openStream []) ⟨rfl, rfl, by decide +kernel, by simp⟩⟩,
    ⟨_, atService (job 0 [] streamDesc) (openStream [bin]) ⟨rfl, rfl, by decide +kernel, rfl, by decide +kernel⟩⟩,
    ⟨_, atService (job 0 [] streamDesc) (openStream []) ⟨rfl, rfl, by decide +kernel, rfl, by decide +kernel⟩⟩⟩
  intro b hb
  rcases mem_two hb with rfl | rfl
  · exact ⟨_, t, _, atService (job 0 [] streamDesc) (fun s => replaying (openStream [bin] s))
      ⟨rfl, by decide +kernel, (by decide +kernel : _ = some (0, 2097152)), h, rfl, by decide +kernel⟩⟩
  · exact ⟨_, t, _, atService (job 0 [] streamDesc) (openStream []) ⟨rfl, by decide +kernel, (by decide +kernel : _ = some (0, 2097152)), h, rfl,
      by decide +kernel⟩⟩

/-- The box of a row, whose row number lies in and beyond a table of one row. -/
def rowBox (n : Int) : Move := { movedBox with c2 := n, at_ := 0 }

/-- JobEvents, a gather: no row left, a row to be taken, one of an index beyond the table, told and skipped, one of the table. -/
theorem witness_JobEvents_gather :
    (∀ n ∈ [0#32, 1#32], ∃ w g, AtService fun s j => j.kind = 2 ∧ s.windowOf j.corr 0 = some w ∧ j.c 2 = n ∧
      gatherOf w.2 (j.c 2).toNat j.desc = some g ∧ j.mv = none) ∧
    (∃ w g m, AtService fun s j => j.kind = 2 ∧ s.windowOf j.corr 0 = some w ∧ gatherOf w.2 (j.c 2).toNat j.desc = some g ∧ j.mv = some m ∧
      m.src.ext1 ≤ m.c2.toNat ∧ skipOf j.toEng (rowMark j.at_) = none) ∧
    (∃ w g m k, AtService fun s j => j.kind = 2 ∧ s.windowOf j.corr 0 = some w ∧ gatherOf w.2 (j.c 2).toNat j.desc = some g ∧ j.mv = some m ∧
      m.src.ext1 ≤ m.c2.toNat ∧ skipOf j.toEng (rowMark j.at_) = some k) ∧
    (∃ w g m, AtService fun s j => j.kind = 2 ∧ s.windowOf j.corr 0 = some w ∧ gatherOf w.2 (j.c 2).toNat j.desc = some g ∧ j.mv = some m ∧
      m.c2.toNat < m.src.ext1) := by
  have ⟨g, h⟩ := some_of (show (gatherOf 2097152 1 gatherDesc).isSome = true by decide +kernel)
  refine ⟨fun n hn => ?_,
    ⟨_, g, _, atService { job 2 [0, 0, 1] gatherDesc with mv := some (rowBox 1) } id ⟨rfl, (by decide +kernel : _ = some (0, 2097152)), h, rfl,
      by decide +kernel, by decide +kernel⟩⟩,
    ⟨_, g, _, _, atService { job 2 [0, 0, 1] gatherDesc with mv := some (rowBox 1), skips := [⟨2 ^ 64, 1, false⟩] } id
      ⟨rfl, (by decide +kernel : _ = some (0, 2097152)), h, rfl, by decide +kernel, rfl⟩⟩,
    ⟨_, g, _, atService { job 2 [0, 0, 1] gatherDesc with mv := some (rowBox 0) } id ⟨rfl, (by decide +kernel : _ = some (0, 2097152)), h, rfl,
      by decide +kernel⟩⟩⟩
  have ⟨g, h⟩ := some_of (show (gatherOf 2097152 n.toNat gatherDesc).isSome = true by rcases mem_two hn with rfl | rfl <;> decide +kernel)
  refine ⟨(0, 2097152), g, jobbed (job 2 [0, 0, n] gatherDesc), job 2 [0, 0, n] gatherDesc, rfl, rfl, rfl, rfl, rfl, rfl, rfl, rfl,
    (by decide +kernel : (jobbed (job 2 [] [])).windowOf 0 0 = some (0, 2097152)), rfl, h, rfl⟩

/-- A pass of top-k over four keys, all 0; a selection takes one in its range. -/
def topk (sel : Word) (at_ : Nat) (space : Byte := 1) (lo hi : Word := 0) : Job :=
  job 3 [0, 0, sel, 1, 4, lo, hi] (described [(136, [space])]) at_
/-- Bucket 7 holds a key. -/
def tallied (j : Job) : Job := { j with counts := List.replicate 7 0 ++ [1] }

/-- JobEvents, the passes of top-k: a key that is not there yet, one skipped, one read; above the threshold, at it, below it; the output of a
histogram with and without a count, of a selection, after its end. -/
theorem witness_JobEvents_topk :
    (∀ sel ∈ [0#32, 1#32], (∃ u, AtService fun s j => j.kind = 3 ∧ j.c 2 = sel ∧ j.at_ < (j.c 4).toNat ∧ readKey s 0 0 j (topkOf j.desc) = (u, none)) ∧
      (∃ u, AtService fun s j => j.kind = 3 ∧ j.c 2 = sel ∧ j.at_ < (j.c 4).toNat ∧ readKey s 0 0 j (topkOf j.desc) = (u, some none))) ∧
    (∃ u k, AtService fun s j => j.kind = 3 ∧ j.c 2 = 0 ∧ j.at_ < (j.c 4).toNat ∧ readKey s 0 0 j (topkOf j.desc) = (u, some (some k))) ∧
    (AtService fun _ j => j.kind = 3 ∧ j.c 2 = 0 ∧ (j.c 4).toNat ≤ j.at_ ∧ ∀ b < 256, j.at_ - (j.c 4).toNat ≤ b → j.counts.getD b 0 = 0) ∧
    (AtService fun _ j => j.kind = 3 ∧ j.c 2 = 0 ∧ (j.c 4).toNat ≤ j.at_ ∧ j.at_ - (j.c 4).toNat ≤ 7 ∧ j.counts.getD 7 0 ≠ 0 ∧
      ∀ a < 7, j.at_ - (j.c 4).toNat ≤ a → j.counts.getD a 0 = 0) ∧
    (∃ u k, AtService fun s j => j.kind = 3 ∧ j.c 2 = 1 ∧ j.at_ < (j.c 4).toNat ∧ readKey s 0 0 j (topkOf j.desc) = (u, some (some k)) ∧
      (j.c 6).ult k = true) ∧
    (∀ b ∈ [true, false], ∃ u k, AtService fun s j => j.kind = 3 ∧ j.c 2 = 1 ∧ j.at_ < (j.c 4).toNat ∧
      readKey s 0 0 j (topkOf j.desc) = (u, some (some k)) ∧ (j.c 5).ule k = true ∧ k.ule (j.c 6) = true ∧ decide (j.took < (j.c 3).toNat) = b) ∧
    (∃ u k, AtService fun s j => j.kind = 3 ∧ j.c 2 = 1 ∧ j.at_ < (j.c 4).toNat ∧ readKey s 0 0 j (topkOf j.desc) = (u, some (some k)) ∧
      (j.c 6).ult k = false ∧ (j.c 5).ule k = false) ∧
    (∃ u x, AtService fun s j => j.kind = 3 ∧ j.c 2 = 1 ∧ j.at_ = (j.c 4).toNat ∧ u = putOut s 0 0 (topkOf j.desc) (4 * j.wrote) false
      (BitVec.ofNat 32 j.wrote) (fun v => nextKey v 0 0 false false) ∧ u.job? 0 0 = some x) ∧
    (AtService fun _ j => j.kind = 3 ∧ j.c 2 = 1 ∧ (j.c 4).toNat < j.at_) := by
  refine ⟨fun sel hs => ⟨⟨_, jobbed (topk sel 0 0), topk sel 0 0, rfl, rfl, rfl, rfl, rfl, rfl, rfl, rfl, rfl, ?_, Prod.ext rfl ?_⟩,
      ⟨_, jobbed { topk sel 0 0 with skips := [⟨0, 64, false⟩] }, { topk sel 0 0 with skips := [⟨0, 64, false⟩] }, rfl, rfl, rfl, rfl, rfl, rfl, rfl, rfl,
        rfl, ?_, Prod.ext rfl ?_⟩⟩,
    ⟨_, 0x80000000, atService (topk 0 0) id ⟨rfl, rfl, by decide +kernel, Prod.ext rfl (by decide +kernel)⟩⟩,
    atService (topk 0 4) id (by decide +kernel), atService (tallied (topk 0 4)) id (by decide +kernel),
    ⟨_, 0x80000000, atService (topk 1 0) id ⟨rfl, rfl, by decide +kernel, Prod.ext rfl (by decide +kernel), by decide +kernel⟩⟩,
    fun b hb => ⟨_, 0x80000000, jobbed { topk 1 0 1 0x80000000 0x80000000 with took := (!b).toNat },
      { topk 1 0 1 0x80000000 0x80000000 with took := (!b).toNat }, rfl, rfl, rfl, rfl, rfl, rfl, rfl, rfl, rfl, ?_, Prod.ext rfl ?_, ?_⟩,
    ⟨_, 0x80000000, atService (topk 1 0 1 0x80000001 0xFFFFFFFF) id
      ⟨rfl, rfl, by decide +kernel, Prod.ext rfl (by decide +kernel), by decide +kernel⟩⟩,
    (have ⟨x, h⟩ := some_of (show ((putOut (jobbed (topk 1 4)) 0 0 (topkOf (topk 1 4).desc) (4 * (topk 1 4).wrote) false
        (BitVec.ofNat 32 (topk 1 4).wrote) (fun v => nextKey v 0 0 false false)).job? 0 0).isSome = true by decide +kernel)
     ⟨_, x, atService (topk 1 4) id ⟨rfl, rfl, by decide +kernel, rfl, h⟩⟩),
    atService (topk 1 5) id (by decide +kernel)⟩
  all_goals first | (rcases mem_two hs with rfl | rfl <;> decide +kernel) | (rcases mem_two hb with rfl | rfl <;> decide +kernel)

/-- JobEvents, a main-to-main copy, a replay at its start and under way, a walker job. -/
theorem witness_JobEvents_rest :
    (AtService fun s j => j.kind = 5 ∧ j.mv ≠ none ∧ moveDone (serveBlock s (.job 0 0)) (.job 0 0) = true) ∧
    (AtService fun _ j => j.kind = 5 ∧ j.mv = none) ∧
    (AtJob fun s j => j.kind = 0 ∧ (j.c 2).getLsbD 0 = true ∧ j.bad = false ∧ j.canh = false ∧ j.st = .queued ∧ jobStarts s 0 j = true ∧
      s.stream? 0 j.corr j.stream = none) ∧
    (∃ st t x, AtJob fun s j => j.kind = 0 ∧ (j.c 2).getLsbD 0 = true ∧ j.bad = false ∧ j.canh = false ∧ j.st = .queued ∧ jobStarts s 0 j = true ∧
      s.stream? 0 j.corr j.stream = some st ∧ replayBusy s 0 j = false ∧
      t = takeBins (s.modJob 0 0 fun y => { y with st := .started }) 0 0 st ∧ t.job? 0 0 = some x) ∧
    (AtService fun s j => j.kind = 0 ∧ (j.c 2).getLsbD 0 = true ∧ s.stream? 0 j.corr j.stream = none) ∧
    (∃ st, AtService fun s j => j.kind = 0 ∧ (j.c 2).getLsbD 0 = true ∧ s.stream? 0 j.corr j.stream = some st ∧ j.bins = []) ∧
    (∃ st u x, AtService fun s j => j.kind = 0 ∧ (j.c 2).getLsbD 0 = true ∧ s.stream? 0 j.corr j.stream = some st ∧ j.bins ≠ [] ∧
      replayBusy s 0 j = false ∧ u = replayStep s 0 0 st j ∧ u.job? 0 0 = some x) ∧
    (AtJob fun _ j => j.kind = 1 ∧ j.bad = true) ∧
    (AtJob fun _ j => j.kind = 1 ∧ j.bad = false ∧ j.canh = true ∧ j.st = .queued) ∧
    (AtJob fun s j => j.kind = 1 ∧ j.bad = false ∧ j.canh = true ∧ j.started = true ∧ s.goesOn j.corr = true) ∧
    (AtJob fun s j => j.kind = 1 ∧ j.bad = false ∧ j.canh = true ∧ j.started = true ∧ s.goesOn j.corr = false) ∧
    (AtJob fun s j => j.kind = 1 ∧ j.bad = false ∧ j.canh = false ∧ jobStarts s 0 j = true ∧ s.goesOn j.corr = true ∧
      (s.core j.key.core).walker = none ∧ walkerAhead s 0 j = false) := by
  have q := fun els => { job 0 [0, 0, 1] streamDesc with st := JobSt.queued, bins := els }
  have ⟨x, h⟩ := some_of (show ((takeBins ((jobbed { job 0 [0, 0, 1] streamDesc with st := .queued } (openStream [bin])).modJob 0 0
    fun y => { y with st := .started }) 0 0 ⟨0, 0, 0, 1, 1, 16, .addS32, false, 0, 0, 1, [bin]⟩).job? 0 0).isSome = true by decide +kernel)
  have ⟨y, k⟩ := some_of (show ((replayStep (jobbed { job 0 [0, 0, 1] streamDesc with bins := [bin] } (openStream [])) 0 0
    ⟨0, 0, 0, 1, 1, 16, .addS32, false, 0, 0, 1, []⟩ { job 0 [0, 0, 1] streamDesc with bins := [bin] }).job? 0 0).isSome = true by decide +kernel)
  exact ⟨atService { job 5 [] [] with mv := some movedBox } id ⟨rfl, by simp, by decide +kernel⟩, atService (job 5 [] []) id ⟨rfl, rfl⟩,
    atJob { job 0 [0, 0, 1] streamDesc with st := .queued } id (by decide +kernel),
    ⟨_, _, x, atJob { job 0 [0, 0, 1] streamDesc with st := .queued } (openStream [bin]) ⟨rfl, by decide +kernel, rfl, rfl, rfl, by decide +kernel, rfl,
      by decide +kernel, rfl, h⟩⟩,
    atService (job 0 [0, 0, 1] streamDesc) id (by decide +kernel),
    ⟨_, atService (job 0 [0, 0, 1] streamDesc) (openStream []) ⟨rfl, by decide +kernel, rfl, rfl⟩⟩,
    ⟨_, _, y, atService { job 0 [0, 0, 1] streamDesc with bins := [bin] } (openStream []) ⟨rfl, by decide +kernel, rfl, by simp, by decide +kernel, rfl, k⟩⟩,
    atJob { probeJob with bad := true } id (by decide +kernel), atJob { probeJob with canh := true, st := .queued } id (by decide +kernel),
    atJob { probeJob with canh := true } id (by decide +kernel), atJob { probeJob with canh := true } (fun s => { s with grids := [] }) (by decide +kernel),
    atJob { probeJob with st := .queued } id (by decide +kernel)⟩

/-- A copy that waits for a translation, or whose write is held. -/
def waiting (p : Susp) (s : State) : State := s.modCore 0 fun c => { c with copies := [{ copyAt 77 true with susp := p }] }
/-- Die 0 changed. -/
def onDie (f : Die → Die) : State := { State.reset with dies := [f Die.reset] ++ List.replicate 3 Die.reset }

/-- A request of the copy in core 0's queue. -/
def reqOf (kind : ReqKind) (resent : Bool) : Req := ⟨90, .copy 0 77, 5, kind, 0, resent, (0, 0), false, false⟩
/-- The request is outstanding; the copy waits for it. -/
def asked (q : Req) (f : State → State) (p : Susp := .fabric 90) : State :=
  machine (fun s => f (waiting p { s with reqs := [q], ports := [4, 2] ++ List.replicate 46 0, routes := [(0, 5, 3)] })) group0

/-- TranslationEvents: a miss that a free walker takes, none; a held write; the last range code, the last code line. -/
theorem witness_TranslationEvents :
    (∃ (s t : State) (w : WalkRun), takeMisses 0 64 s = t ∧ (t.die 0).walks[Config.walkPick t.tick % (t.die 0).walks.length]? = some w) ∧
    (∃ s : State, misses s 0 = [] ∧ (s.die 0).walks = []) ∧
    (∃ (s : State) (r : EngRef) (va : Nat), suspOf s r = some (.held va false)) ∧
    (∃ (s : State) (r : EngRef) (va : Nat) (b : Bool), engsOf s 0 = [r] ∧ suspOf s r = some (.held va b)) ∧
    (∃ (s : State) (v : Word), (s.die 3).invDone = true ∧ v.toNat % 64 ≤ 41 ∧ v.toNat % 64 = 41) ∧ (∃ s : State, (s.die 0).invDone = false) ∧
    (∃ v : Word, 41 < v.toNat % 64) ∧
    (∃ s : State, (s.die 0).invDone = false ∧ 0 < s.dies.length ∧ (invalOf (s.die 0).invFrom (s.die 0).invCtl).all = false ∧
      rangeInFlight s (invalOf (s.die 0).invFrom (s.die 0).invCtl) 0 = false ∧ (s.die 0).gather = [] ∧ engsOf s 0 = []) ∧
    (∃ s : State, rangeInFlight s (invalOf (s.die 0).invFrom (s.die 0).invCtl) 0 = true) ∧
    (∃ (s : State) (line n : Nat), (s.die 3).codeInvDone = true ∧ line % 64 = 0 ∧ line < 2 ^ 57 ∧ n < 2 ^ 16 ∧ line = 2 ^ 57 - 64 ∧
      n = 2 ^ 16 - 1) ∧
    (∃ s : State, (s.die 0).codeInvDone = false ∧ 0 < s.dies.length ∧ 0 < s.cores.length) := by
  have ⟨w, hw⟩ := some_of (show (((takeMisses 0 64 (machine (waiting (.walk 4096 false 0)) group0)).die 0).walks[0]?).isSome = true by decide +kernel)
  refine ⟨⟨machine (waiting (.walk 4096 false 0)) group0, _, w, rfl, ?_⟩, ⟨State.reset, by decide +kernel⟩,
    ⟨machine (waiting (.held 4096 false)) group0, .copy 0 77, 4096, by decide +kernel⟩,
    ⟨machine (waiting (.held 4096 true)) group0, .copy 0 77, 4096, true, by decide +kernel, by decide +kernel⟩,
    ⟨State.reset, 41, by decide +kernel, by decide, by decide⟩, ⟨onDie fun d => { d with invDone := false }, rfl⟩, ⟨42, by decide⟩,
    ⟨onDie fun d => { d with invDone := false, invCtl := 41 }, by decide +kernel⟩,
    ⟨asked (reqOf (.read 0 2) false) fun s => s.modDie 0 fun d => { d with invDone := false, invCtl := 0x100 }, by decide +kernel⟩,
    ⟨State.reset, 2 ^ 57 - 64, 2 ^ 16 - 1, by decide +kernel, by decide, by decide, by decide, rfl, rfl⟩,
    ⟨onDie fun d => { d with codeInvDone := false }, by decide +kernel⟩⟩
  rw [show ((takeMisses 0 64 (machine (waiting (.walk 4096 false 0)) group0)).die 0).walks.length = 1 by decide +kernel, Nat.mod_one]
  exact hw

/-! Collective groups and the fabric -/

/-- A job of a collective operation: scalar 2 the operation, 3 the group, 4 the count. -/
def collJob (op : Word) (num : Nat := 0) : Job := { job 4 [0, 0, op, 5, 1, 0, 1] [] with num := num }
/-- The group of such a job: two members. -/
def collOf (op : Word) : Coll :=
  ⟨(collJob op).gid, (collJob op).epoch, 0, [(0, 0), (0, 1)], [0, 4096], 0, true, 1, [], [], [0, 0], none, false, none, [], []⟩
/-- A machine in which die 0 holds such a job and its group. -/
def grouped (op : Word) (num : Nat) (f : Coll → Coll) (h : State → State := id) : State :=
  jobbed (collJob op num) fun s => h (s.modDie 0 fun d => { d with colls := [f (collOf op)] })
/-- Every member has posted operation 1. -/
def postedAll (op : Word) (c : Coll) : Coll := { c with posts := [⟨0, 1, op, 1, [3]⟩, ⟨1, 1, op, 1, [4]⟩] }
/-- The descriptor of a FORM: one member, die 0 of device 0, or a number that is none. -/
def formJob (n : Nat) : Job := { collJob 0 with desc := described [(172, [BitVec.ofNat 8 n])], st := .queued }

/-- A die whose launch has entered a FORM of a later epoch. -/
def newer (s : State) : State := s.modDie 0 fun d => { d with epochs := [⟨0, (collJob 0).gid, (collJob 0).epoch + 1, 0⟩] }

/-- CollectiveOperations, FORM: malformed, cancelled, of an epoch that is over, of a list that breaks its rules, of an epoch that is held, with the die full, with a
group formed; all members' there, and one missing. -/
theorem witness_CollectiveOperations_form :
    (AtJob fun _ j => j.kind = 4 ∧ j.collOp = 0 ∧ j.bad = true) ∧ (AtJob fun _ j => j.kind = 4 ∧ j.collOp = 0 ∧ j.bad = false ∧ j.canh = true) ∧
    (AtJob fun s j => j.kind = 4 ∧ j.collOp = 0 ∧ j.bad = false ∧ j.canh = false ∧ j.st = .queued ∧ outdated s 0 j = true) ∧
    (AtJob fun s j => j.kind = 4 ∧ j.collOp = 0 ∧ j.bad = false ∧ j.canh = false ∧ j.st = .queued ∧ outdated s 0 j = false ∧
      jobStarts s 0 j = true ∧
      s.anyPoison (formList s 0 j).1 (formList s 0 j).2.2 = false ∧ membersOf (ownDev s 0) 0 (formWords s 0 j) = none) ∧
    (∃ ms, AtJob fun s j => j.kind = 4 ∧ j.collOp = 0 ∧ j.bad = false ∧ j.canh = false ∧ j.st = .queued ∧ outdated s 0 j = false ∧
      jobStarts s 0 j = true ∧
      s.anyPoison (formList s 0 j).1 (formList s 0 j).2.2 = false ∧ membersOf (ownDev s 0) 0 (formWords s 0 j) = some ms ∧
      ∃ c ∈ (s.die 0).colls, c.gid = j.gid ∧ c.epoch = j.epoch ∧ c.ended = false) ∧
    (∃ ms, AtJob fun s j => j.kind = 4 ∧ j.collOp = 0 ∧ j.bad = false ∧ j.canh = false ∧ j.st = .queued ∧ outdated s 0 j = false ∧
      jobStarts s 0 j = true ∧
      s.anyPoison (formList s 0 j).1 (formList s 0 j).2.2 = false ∧ membersOf (ownDev s 0) 0 (formWords s 0 j) = some ms ∧
      ∃ c ∈ (s.die 0).colls, c.gid = j.gid ∧ c.epoch ≠ j.epoch ∧ c.corr = j.corr ∧ j.epoch.ule c.epoch = true) ∧
    (∀ b ∈ [true, false], ∃ ms, AtJob fun s j => j.kind = 4 ∧ j.collOp = 0 ∧ j.bad = false ∧ j.canh = false ∧ j.st = .queued ∧ outdated s 0 j = false ∧
      jobStarts s 0 j = true ∧ s.anyPoison (formList s 0 j).1 (formList s 0 j).2.2 = false ∧
      membersOf (ownDev s 0) 0 (formWords s 0 j) = some ms ∧ (∀ c ∈ (s.die 0).colls, c.gid ≠ j.gid) ∧ decide (64 ≤ collsHeld s 0) = b) ∧
    (∀ b ∈ [true, false], ∃ c, AtJob fun s j => j.kind = 4 ∧ j.collOp = 0 ∧ j.bad = false ∧ j.canh = false ∧ j.started = true ∧ j.susp = .none ∧
      s.coll? 0 j.gid j.epoch = some c ∧ allFormed s 0 c = b) := by
  refine ⟨atJob { collJob 0 with bad := true } id (by decide +kernel), atJob { collJob 0 with canh := true } id (by decide +kernel),
    atJob (formJob 1) newer (by decide +kernel), atJob (formJob 0) id (by decide +kernel),
    ⟨[(0, 0)], atJob (formJob 1) (fun s => s.modDie 0 fun d => { d with colls := [collOf 0] }) (by decide +kernel)⟩,
    ⟨[(0, 0)], atJob (formJob 1) (fun s => s.modDie 0 fun d => { d with colls := [{ collOf 0 with epoch := 9, ended := true }] }) (by decide +kernel)⟩,
    fun b hb => ?_, fun b hb => ?_⟩
  · rcases mem_two hb with rfl | rfl
    · exact ⟨[(0, 0)], atJob (formJob 1) (fun s => s.modDie 0 fun d => { d with colls := List.replicate 64 { collOf 0 with gid := 77 } })
        (by decide +kernel)⟩
    · exact ⟨[(0, 0)], atJob (formJob 1) id (by decide +kernel)⟩
  · rcases mem_two hb with rfl | rfl
    · exact ⟨{ collOf 0 with members := [(0, 0)], formed := false, beat := [0] }, atJob (collJob 0)
        (fun s => s.modDie 0 fun d => { d with colls := [{ collOf 0 with members := [(0, 0)], formed := false, beat := [0] }] }) (by decide +kernel)⟩
    · exact ⟨{ collOf 0 with formed := false }, atJob (collJob 0)
        (fun s => s.modDie 0 fun d => { d with colls := [{ collOf 0 with formed := false }] }) (by decide +kernel)⟩

/-- A job of a numbered operation of two elements, and a machine in which die 0 holds it and its group. -/
def op1 (k : Nat) (f : Job → Job := id) : Job := f { collJob (BitVec.ofNat 32 k) 1 with card := [0, 0, BitVec.ofNat 32 k, 5, 2, 0, 1] }
def at1 (k : Nat) (f : Job → Job) (g : Coll → Coll) (h : State → State := id) : State :=
  jobbed (op1 k f) fun s => h (s.modDie 0 fun d => { d with colls := [g (collOf (BitVec.ofNat 32 k))] })
/-- A job of the same epoch besides it: number and operation. -/
def withOp (num : Nat) (op : Word) (s : State) : State :=
  s.modDie 0 fun d => { d with jobs := d.jobs ++ [{ collJob op num with idx := 1 }] }
/-- The operations of a group. -/
def collOps : List Nat := [1, 2, 3, 4, 5, 6, 7]

/-- CollectiveOperations, the others: of an epoch that is over, of no number; of a group that is still to form and of none; of one that is
not formed or has ended; decided, and of a list that its count does not fit. -/
theorem witness_CollectiveOperations :
    (∀ k ∈ collOps, (AtJob fun s j => j.kind = 4 ∧ j.collOp = k ∧ outdated s 0 j = true) ∧
      (AtJob fun _ j => j.kind = 4 ∧ j.collOp = k ∧ j.num = 0)) ∧
    (∀ b ∈ [true, false], ∀ k ∈ collOps, AtJob fun s j => j.kind = 4 ∧ j.collOp = k ∧ outdated s 0 j = false ∧ j.num ≠ 0 ∧
      s.coll? 0 j.gid j.epoch = none ∧ forming s 0 j = b) ∧
    (∀ k ∈ collOps, ∃ c, AtJob fun s j => j.kind = 4 ∧ j.collOp = k ∧ outdated s 0 j = false ∧ j.num ≠ 0 ∧
      s.coll? 0 j.gid j.epoch = some c ∧ c.ended = true) ∧
    (∀ k ∈ collOps, ∃ c, AtJob fun s j => j.kind = 4 ∧ j.collOp = k ∧ outdated s 0 j = false ∧ j.num ≠ 0 ∧
      s.coll? 0 j.gid j.epoch = some c ∧ c.corr = j.corr ∧ c.ended = false ∧ c.formed = false) ∧
    (∀ k ∈ collOps, ∃ c st, AtJob fun s j => j.kind = 4 ∧ j.collOp = k ∧ outdated s 0 j = false ∧ j.num ≠ 0 ∧
      s.coll? 0 j.gid j.epoch = some c ∧ c.corr = j.corr ∧ c.ended = false ∧ c.formed = true ∧ c.decided = some st) ∧
    (∃ c, AtJob fun s j => j.kind = 4 ∧ j.collOp = 5 ∧ outdated s 0 j = false ∧ j.num ≠ 0 ∧ s.coll? 0 j.gid j.epoch = some c ∧
      c.corr = j.corr ∧ c.ended = false ∧ c.formed = true ∧ c.decided = none ∧ j.bad = false ∧ collFits s 0 j c = false) := by
  refine ⟨fun k hk => ⟨⟨at1 k id id newer, op1 k, ?_⟩, ⟨grouped (BitVec.ofNat 32 k) 0 id, collJob (BitVec.ofNat 32 k), ?_⟩⟩, fun b hb k hk => ?_,
    fun k hk => ⟨{ collOf (BitVec.ofNat 32 k) with ended := true }, at1 k id fun c => { c with ended := true }, op1 k, ?_⟩,
    fun k hk => ⟨{ collOf (BitVec.ofNat 32 k) with formed := false }, at1 k id fun c => { c with formed := false }, op1 k, ?_⟩,
    fun k hk => ⟨{ collOf (BitVec.ofNat 32 k) with decided := some 2 }, 2, at1 k id fun c => { c with decided := some 2 }, op1 k, ?_⟩,
    ⟨{ collOf 5 with members := [(0, 0), (0, 1), (0, 2)] }, at1 5 id fun c => { c with members := [(0, 0), (0, 1), (0, 2)] }, op1 5,
      by decide +kernel⟩⟩
  · revert k; decide +kernel
  · revert k; decide +kernel
  · rcases mem_two hb with rfl | rfl
    · refine ⟨jobbed (op1 k fun j => { j with seq := 9 }) (withOp 0 0), op1 k fun j => { j with seq := 9 }, ?_⟩
      revert k; decide +kernel
    · refine ⟨jobbed (op1 k), op1 k, ?_⟩
      revert k; decide +kernel
  · revert k; decide +kernel
  · revert k; decide +kernel
  · revert k; decide +kernel

/-- A job of a group that goes on: formed, neither over nor decided, its count fitting. -/
def AtOp (k : Nat) (p : State → Job → Coll → Prop) : Prop := ∃ c, AtJob fun s j => j.kind = 4 ∧ j.collOp = k ∧ outdated s 0 j = false ∧
  j.num ≠ 0 ∧ s.coll? 0 j.gid j.epoch = some c ∧ c.corr = j.corr ∧ c.ended = false ∧ c.formed = true ∧ c.decided = none ∧ j.bad = false ∧
  collFits s 0 j c = true ∧ p s j c

/-- CollectiveOperations, one that goes on: behind an operation of a lower number, posting with and without data, its words still to send;
each operation that every member has posted, with bytes to write and without, a DISBAND behind another operation and alone. -/
theorem witness_CollectiveOperations_goes_on :
    (∀ k ∈ collOps, AtOp k fun s j c => c.hasPosted j = false ∧ earlierOp s 0 c j = true) ∧
    (∀ k ∈ collOps, AtOp k fun s j c => c.hasPosted j = false ∧ earlierOp s 0 c j = false ∧ served s 0 j = some s ∧
      j.gives c = decide (3 ≤ k)) ∧
    (∀ k ∈ collOps, AtOp k fun _ j c => c.hasPosted j = true ∧ j.susp = .none ∧ j.took = 0) ∧
    (∀ k ∈ collOps, ∃ ps, AtOp k fun s j c => c.hasPosted j = true ∧ j.susp = .none ∧ j.took ≠ 0 ∧ allPosted c j.num = some ps ∧ j.out = [] ∧
      (k = 1 → lowerOp s 0 j = false)) ∧
    (∃ ps, AtOp 1 fun s j c => c.hasPosted j = true ∧ j.susp = .none ∧ j.took ≠ 0 ∧ allPosted c j.num = some ps ∧ j.out = [] ∧
      lowerOp s 0 j = true) ∧
    (∃ ps, AtOp 4 fun _ j c => c.hasPosted j = true ∧ j.susp = .none ∧ j.took ≠ 0 ∧ allPosted c j.num = some ps ∧ j.out ≠ []) := by
  refine ⟨fun k hk => ⟨collOf (BitVec.ofNat 32 k), at1 k (fun j => { j with num := 2 }) id (withOp 1 2), op1 k fun j => { j with num := 2 }, ?_⟩,
    fun k hk => ⟨collOf (BitVec.ofNat 32 k), at1 k id id, op1 k, ?_⟩,
    fun k hk => ⟨postedAll (BitVec.ofNat 32 k) (collOf (BitVec.ofNat 32 k)), at1 k id (postedAll (BitVec.ofNat 32 k)), op1 k, ?_⟩,
    fun k hk => ⟨(postedAll (BitVec.ofNat 32 k) (collOf (BitVec.ofNat 32 k))).posts, postedAll (BitVec.ofNat 32 k) (collOf (BitVec.ofNat 32 k)),
      at1 k (fun j => { j with took := 1 }) (postedAll (BitVec.ofNat 32 k)), op1 k fun j => { j with took := 1 }, ?_⟩,
    ⟨[⟨0, 2, 1, 1, []⟩, ⟨1, 2, 1, 1, []⟩], { collOf 1 with posts := [⟨0, 2, 1, 1, []⟩, ⟨1, 2, 1, 1, []⟩] },
      at1 1 (fun j => { j with num := 2, took := 1 }) (fun c => { c with posts := [⟨0, 2, 1, 1, []⟩, ⟨1, 2, 1, 1, []⟩] }) (withOp 1 2),
      op1 1 fun j => { j with num := 2, took := 1 }, by decide +kernel⟩,
    ⟨(postedAll 4 (collOf 4)).posts, postedAll 4 (collOf 4), at1 4 (fun j => { j with took := 1, out := [(0, 0)] }) (postedAll 4),
      op1 4 fun j => { j with took := 1, out := [(0, 0)] }, by decide +kernel⟩⟩
  · revert k; decide +kernel
  · revert k; decide +kernel
  · revert k; decide +kernel
  · revert k; decide +kernel

/-- A message between the members. -/
def msg (rank : Nat) : Msg := ⟨1, (collOf 1).gid, 5, BitVec.ofNat 16 rank, 1⟩
/-- The one group of its number that is formed. -/
def AtColl (p : State → Coll → Prop) : Prop := ∃ (s : State) (gid : BitVec 16) (c : Coll), s.formed 0 gid = [c] ∧ p s c

/-- CollectiveMembership: a FORM of no group and of one that is formed, a POST that agrees and one that does not, an ABORT and a DECIDE to
a member that decides, that does not, whose group is not formed; a member lost, an operation waited for, a member without a decider. -/
theorem witness_CollectiveMembership :
    (∃ s : State, ∀ c ∈ (s.die 0).colls, ¬(c.gid = (msg 1).gid ∧ c.epoch = (msg 1).epoch ∧ (c.formed = true ∨ c.ended = true))) ∧
    (∃ s : State, ∃ c ∈ (s.die 0).colls, c.gid = (msg 1).gid ∧ c.epoch = (msg 1).epoch ∧ (c.formed = true ∨ c.ended = true)) ∧
    (∀ b ∈ [true, false], ∃ (s : State) (c : Coll), s.coll? 0 (msg 1).gid (msg 1).epoch = some c ∧ c.ended = false ∧
      (msg 1).rank.toNat < c.members.length ∧ (msg 1).rank.toNat ≠ c.rank ∧
      (∀ q ∈ c.posts, ¬(q.rank = (msg 1).rank.toNat ∧ q.seq = (msg 1).seq.toNat)) ∧
      decide (∀ q ∈ c.posts, q.rank = c.rank → q.seq = (msg 1).seq.toNat → q.c2 = 1 ∧ q.count = 1) = b) ∧
    (∀ b ∈ [true, false], ∃ (s : State) (c : Coll), s.coll? 0 (msg 1).gid (msg 1).epoch = some c ∧ c.open_ = true ∧ c.decides = b) ∧
    (∃ (s : State) (c : Coll), s.coll? 0 (msg 1).gid (msg 1).epoch = some c ∧ c.formed = false ∧ c.ended = false) ∧
    (AtColl fun s c => c.open_ = true ∧ 1 < c.members.length ∧ 1 ≠ c.rank ∧ 1 ∉ c.lost ∧ c.beat.getD 1 0 + s.times.collTo * 1000000 ≤ s.ns) ∧
    (AtColl fun _ c => c.open_ = true ∧ c.waits = true) ∧
    (∃ t0, AtColl fun s c => c.open_ = true ∧ c.decides = false ∧ c.proposed = some t0 ∧ t0 + s.times.collTo * 1000000 ≤ s.ns) ∧
    (AtColl fun _ c => c.open_ = false ∨ c.decides = true ∨ c.proposed = none) ∧
    (∃ (s : State) (j : Job), s.job? 0 0 = some j ∧ j.kind = 4 ∧ j.collOp = 0 ∧ j.started = true) := by
  refine ⟨⟨State.reset, by decide +kernel⟩, ⟨grouped 1 0 id, collOf 1, by decide +kernel⟩, fun b hb => ?_, fun b hb => ?_,
    ⟨grouped 1 0 fun c => { c with formed := false }, { collOf 1 with formed := false }, by decide +kernel⟩,
    ⟨grouped 1 0 id fun s => { s with ns := 10 ^ 12 }, (collOf 1).gid, collOf 1, by decide +kernel⟩,
    ⟨grouped 1 0 fun c => { c with posts := [⟨0, 1, 1, 1, []⟩] }, (collOf 1).gid, { collOf 1 with posts := [⟨0, 1, 1, 1, []⟩] }, by decide +kernel⟩,
    ⟨0, grouped 1 0 (fun c => { c with rank := 1, proposed := some 0 }) fun s => { s with ns := 10 ^ 12 }, (collOf 1).gid,
      { collOf 1 with rank := 1, proposed := some 0 }, by decide +kernel⟩,
    ⟨grouped 1 0 id, (collOf 1).gid, collOf 1, by decide +kernel⟩, ⟨jobbed (collJob 0), collJob 0, by decide +kernel⟩⟩
  · rcases mem_two hb with rfl | rfl
    · exact ⟨grouped 1 0 id, collOf 1, by decide +kernel⟩
    · exact ⟨grouped 1 0 fun c => { c with posts := [⟨0, 1, 9, 1, []⟩] }, { collOf 1 with posts := [⟨0, 1, 9, 1, []⟩] }, by decide +kernel⟩
  · rcases mem_two hb with rfl | rfl
    · exact ⟨grouped 1 0 id, collOf 1, by decide +kernel⟩
    · exact ⟨grouped 1 0 fun c => { c with rank := 1 }, { collOf 1 with rank := 1 }, by decide +kernel⟩

/-- A signal tag open at the receiver, and one that has been added. -/
def tag (want : Option Nat) (got : Nat) (added : Bool) (seen : List Nat := []) : SigTag := ⟨3, 9, 0, want, got, seen, added⟩
/-- The receiver with it. -/
def tagAt (t : SigTag) : State := { State.reset with sigTags := [t] }

/-- FabricRequests: the last bytes of HBM4E, a size and an address that break the rules, an operation that is not listed; a write of a tag,
sent once and again; a trailer before, at and after its bytes. -/
theorem witness_FabricRequests :
    (∀ n ∈ [64, 128, 256], ∃ (s : State) (addr : Nat), (n = 64 ∨ n = 128 ∨ n = 256) ∧ addr % n = 0 ∧ addr + n = 412316860416 ∧
      s.anyPoison (hbmAddr addr) n = false) ∧
    (∃ n : Nat, ¬(n = 64 ∨ n = 128 ∨ n = 256)) ∧ (∃ addr : Nat, addr % 64 ≠ 0) ∧
    (∃ (s : State) (bs : List Byte) (en : List Bool) (addr : Nat) (t : SigTag), bs.length % 64 = 0 ∧ 64 ≤ bs.length ∧ bs.length = 256 ∧
      en.length = bs.length ∧ addr % 64 = 0 ∧ addr + bs.length = 412316860416 ∧ s.sigTags = [t] ∧ t.src = 3 ∧ t.tag = 9 ∧ t.want = none ∧
      hbmAddr addr ∉ t.seen) ∧
    (∃ (s : State) (bs : List Byte) (en : List Bool) (addr : Nat) (t : SigTag), bs.length = 64 ∧ en.length = bs.length ∧ addr = 0 ∧
      s.sigTags = [t] ∧ t.src = 3 ∧ t.tag = 9 ∧ t.want = none ∧ hbmAddr addr ∈ t.seen) ∧
    (∃ (bs : List Byte) (addr : Nat), bs.length % 64 ≠ 0 ∨ addr % 64 ≠ 0) ∧
    (∃ (s : State) (op : FabAtom) (addr : Nat), op ≠ .other ∧ addr % 4 = 0 ∧ addr + 4 = 412316860416 ∧ s.anyPoison (hbmAddr addr) 4 = false) ∧
    (∃ (s : State) (t : SigTag), s.sigTags.find? (fun t => t.src == 3 && t.tag == 9) = some t ∧ t.added = true) ∧
    (∃ (s : State) (t : SigTag) (n : Nat), s.sigTags = [t] ∧ t.src = 3 ∧ t.tag = 9 ∧ t.added = false ∧ n ≤ t.got ∧
      s.anyPoison (hbmAddr 0) 4 = false) ∧
    (∃ (s : State) (t : SigTag) (n : Nat), s.sigTags = [t] ∧ t.src = 3 ∧ t.tag = 9 ∧ t.added = false ∧ t.got < n) ∧
    (∃ (s : State) (t : SigTag) (n : Nat), s.sigTags.find? (fun t => t.src == 3 && t.tag == 9) = some t ∧ t.want = some n ∧ t.added = false) := by
  refine ⟨?_, ⟨32, by decide⟩, ⟨1, by decide⟩,
    ⟨tagAt (tag none 0 false), List.replicate 256 0, List.replicate 256 true, 412316860160, tag none 0 false, by decide +kernel⟩,
    ⟨tagAt (tag none 64 false [hbmAddr 0]), List.replicate 64 0, List.replicate 64 true, 0,
      tag none 64 false [hbmAddr 0], by decide +kernel⟩, ⟨[], 1, by decide⟩,
    ⟨State.reset, .cas, 412316860412, by decide +kernel⟩, ⟨tagAt (tag none 0 true), tag none 0 true, by decide +kernel⟩,
    ⟨tagAt (tag none 64 false), tag none 64 false, 64, by decide +kernel⟩, ⟨tagAt (tag none 64 false), tag none 64 false, 65, by decide +kernel⟩,
    ⟨tagAt (tag (some 65) 64 false), tag (some 65) 64 false, 65, by decide +kernel⟩⟩
  intro n hn
  exact ⟨State.reset, 412316860416 - n, by revert n; decide +kernel⟩

/-- FabricCompletions: of each kind, awaited and late; one to be sent again, on the other port of the mask, and for the last time; the ends of
the lane counts. -/
theorem witness_FabricCompletions :
    (∀ k ∈ ([.read 0 2, .write 0 [], .atomic .addS32 0 1, .trailer ⟨0, 0, 0, 0, 0⟩ 0 64] : List ReqKind), ∃ (s : State) (q : Req) (y : Copy),
      s.req? q.id = some q ∧ awaits s q = true ∧ q.kind = k ∧ q.who = .copy 0 y.id ∧ s.copy? 0 y.id = some y) ∧
    (∃ (s : State) (q : Req), s.req? q.id = some q ∧ q.kind = .read 0 2 ∧ awaits s q = false) ∧
    (∃ (s : State) (q : Req) (p : Nat), s.req? q.id = some q ∧ q.resent = false ∧
      otherPort (portsTo s (EngRef.die q.who) q.dev) q.port q.kind.addr = some p ∧ portUp s p = true) ∧
    (∃ (s : State) (q : Req), s.req? q.id = some q ∧ q.resent = false ∧
      ∀ p, otherPort (portsTo s (EngRef.die q.who) q.dev) q.port q.kind.addr = some p → portUp s p = false) ∧
    (∃ (s : State) (q : Req), s.req? q.id = some q ∧ q.resent = true) ∧
    (∃ s : State, 1 < s.ports.getD 1 0) ∧ (∃ s : State, 0 < s.ports.getD 47 0) ∧ (∃ s : State, s.ports.getD 47 0 < 4) := by
  refine ⟨fun k hk => ⟨asked (reqOf k false) id, reqOf k false, { copyAt 77 true with susp := .fabric 90 }, rfl, by revert k; decide +kernel, rfl, rfl,
      rfl⟩, ⟨asked (reqOf (.read 0 2) false) id .none, reqOf (.read 0 2) false, by decide +kernel⟩,
    ?_, ⟨asked (reqOf (.read 0 2) false) (fun s => { s with routes := [] }), reqOf (.read 0 2) false, by decide +kernel⟩,
    ⟨asked (reqOf (.read 0 2) true) id, reqOf (.read 0 2) true, rfl, rfl⟩, ⟨asked (reqOf (.read 0 2) false) id, by decide +kernel⟩,
    ⟨{ State.reset with ports := List.replicate 48 2 }, by decide +kernel⟩, ⟨State.reset, by decide +kernel⟩⟩
  refine ⟨asked (reqOf (.read 0 2) false) (fun s => { s with routes := [(0, 5, 2)] }), reqOf (.read 0 2) false, 1, rfl, rfl, ?_, by decide +kernel⟩
  have h : portsTo (asked (reqOf (.read 0 2) false) fun s => { s with routes := [(0, 5, 2)] }) (EngRef.die (reqOf (.read 0 2) false).who)
      (reqOf (.read 0 2) false).dev = [1] := by decide +kernel
  rw [h]; simp [otherPort, hashPort, Nat.mod_one, reqOf]

/-! The distributor and the platform -/

/-- Queue 0 as enabled with one record. -/
def queued (s : State) : State := { s with queues := s.queues.set 0 { Queue.reset with enabled := true, tail := 1 } }
/-- A machine that holds one launch. -/
def holds (f : Grid → Grid) (h : State → State := id) : State := h { State.reset with grids := [f (Grid.plain 0)] }
/-- A launch of priority 5 besides it, with a team on core 0; the first launch has reserved that core. -/
def besides (s : State) : State :=
  { s with grids := s.grids ++ [{ Grid.plain 1 with prio := 5 }], teams := [Team.plain 0 1], reserv := [⟨0, 0, 1, 1, 0⟩], ns := 64000 }

/-- A launch that has a cluster to place. -/
def toPlace (g : Grid) : Grid := { g with next := 0 }
/-- One that fits no core. -/
def tooBig (g : Grid) : Grid := { g with next := 0, l := { g.l with shBytes := 2 ^ 21 } }

/-- LaunchEvents: a record taken, a poisoned one, none; the last queue; a launch that the number names, a record that waits, a number of another
queue; a rectangle with room, none, one reserved; the map; a wait of exactly 64 microseconds; the end of a launch. -/
theorem witness_LaunchEvents :
    (∃ (s : State) (i : Nat) (q : Queue), nextQueue s = some i ∧ s.queues[i]? = some q) ∧
    (∃ (s : State) (i : Nat) (q : Queue), nextQueue s = some i ∧ s.queues[i]? = some q ∧ s.anyPoison q.headAt 128 = true) ∧
    (∃ s : State, nextQueue s = none) ∧ (∃ (s : State) (q : Queue), s.queues[31]? = some q) ∧
    (∃ (s : State) (q : Queue) (hi : Word) (g : Grid), s.queues[0]? = some q ∧ (hi.toNat * 2 ^ 32 + q.cancelLo.toNat) / 2 ^ 56 = 0 ∧
      s.grid? (hi.toNat * 2 ^ 32 + q.cancelLo.toNat) = some g) ∧
    (∀ b ∈ [true, false], ∃ (s : State) (q : Queue) (hi : Word), s.queues[0]? = some q ∧ (hi.toNat * 2 ^ 32 + q.cancelLo.toNat) / 2 ^ 56 = 0 ∧
      s.grid? (hi.toNat * 2 ^ 32 + q.cancelLo.toNat) = none ∧ q.waiting ((hi.toNat * 2 ^ 32 + q.cancelLo.toNat) % 2 ^ 56) = b) ∧
    (∃ (s : State) (q : Queue) (hi : Word), s.queues[1]? = some q ∧ (hi.toNat * 2 ^ 32 + q.cancelLo.toNat) / 2 ^ 56 ≠ 1) ∧
    (∃ (s : State) (g : Grid) (p : Nat × Nat) (base : Nat) (l : List (Nat × Nat)), s.grid? g.corr = some g ∧ g.phase = .live ∧ g.allPlaced = false ∧
      g.l.mapped = false ∧ nextRect s g = some (p, base, l)) ∧
    (∃ (s : State) (g : Grid) (r : Reserv), s.grid? g.corr = some g ∧ g.phase = .live ∧ g.allPlaced = false ∧ g.l.mapped = false ∧
      s.reserv.find? (fun r => r.corr == g.corr) = some r ∧ sitesAt s g (rectCores r.base r.rows r.cols) = none ∧ nextRect s g = none) ∧
    (∃ (s : State) (g : Grid), s.grid? g.corr = some g ∧ g.phase = .live ∧ g.allPlaced = false ∧ g.l.mapped = true) ∧
    (∃ (s : State) (g : Grid), s.grid? g.corr = some g ∧ g.phase = .live ∧ g.allPlaced = false ∧ g.l.mapped = false ∧ g.fallback = false ∧
      g.waitFrom + 64000 = s.ns) ∧
    (∃ (s : State) (g h : Grid) (r : Reserv), s.grid? g.corr = some g ∧ g.phase = .live ∧ g.allPlaced = false ∧ g.prio = 7 ∧
      g.waitFrom + 64000 = s.ns ∧ s.reserv = [r] ∧ r.corr = g.corr ∧ s.grids.filter (fun h =>
        (((s.teams.filter fun t => (rectCores r.base r.rows r.cols).contains t.core).map (·.corr)).contains h.corr) && decide (h.prio ≤ 5)) = [h]) ∧
    (∃ (s : State) (g : Grid), s.grid? g.corr = some g ∧ g.phase = .live ∧ g.allPlaced = true ∧ (∀ t ∈ s.teams, t.corr ≠ g.corr) ∧
      jobsDone s g.corr = true) ∧
    (∃ (s : State) (g : Grid), s.grid? g.corr = some g ∧ g.phase = .ending) := by
  have ⟨⟨p, b, l⟩, hp⟩ := some_of (show (nextRect (holds toPlace) (toPlace (Grid.plain 0))).isSome = true by decide +kernel)
  refine ⟨⟨queued State.reset, 0, _, by decide +kernel, rfl⟩,
    ⟨{ queued State.reset with poison := [0] }, 0, { Queue.reset with enabled := true, tail := 1 }, by decide +kernel, rfl, by decide +kernel⟩,
    ⟨State.reset, by decide +kernel⟩, ⟨State.reset, _, rfl⟩, ⟨holds id, Queue.reset, 0, Grid.plain 0, rfl, by decide +kernel, rfl⟩, fun w hw => ?_,
    ⟨State.reset, Queue.reset, 0, rfl, by decide +kernel⟩, ⟨_, toPlace (Grid.plain 0), p, b, l, rfl, rfl, by decide +kernel, rfl, hp⟩,
    ⟨holds tooBig fun s => { s with reserv := [⟨0, 0, 1, 1, 0⟩] }, tooBig (Grid.plain 0), ⟨0, 0, 1, 1, 0⟩, rfl, rfl, by decide +kernel, rfl, rfl,
      by decide +kernel, by decide +kernel⟩,
    ⟨holds fun g => { g with l := { g.l with mapped := true }, todo := [0] },
      { Grid.plain 0 with l := { Launch.plain with mapped := true }, todo := [0] }, rfl, rfl, by decide +kernel, rfl⟩,
    ⟨holds toPlace fun s => { s with ns := 64000 }, toPlace (Grid.plain 0), rfl, rfl, by decide +kernel, rfl, rfl, rfl⟩,
    ⟨holds (fun g => { g with next := 0, prio := 7 }) besides, { Grid.plain 0 with next := 0, prio := 7 }, { Grid.plain 1 with prio := 5 }, _, rfl, rfl,
      by decide +kernel, rfl, rfl, rfl, rfl, by decide +kernel⟩,
    ⟨holds id, Grid.plain 0, rfl, rfl, by decide +kernel, by decide +kernel, by decide +kernel⟩,
    ⟨holds fun g => { g with phase := .ending }, { Grid.plain 0 with phase := .ending }, rfl, rfl⟩⟩
  rcases mem_two hw with rfl | rfl
  · exact ⟨queued State.reset, { Queue.reset with enabled := true, tail := 1 }, 0, rfl, by decide +kernel, by decide +kernel, by decide +kernel⟩
  · exact ⟨queued State.reset, { Queue.reset with enabled := true, tail := 1 }, 1, rfl, by decide +kernel, by decide +kernel, by decide +kernel⟩

/-- A saved team of one slot. -/
def savedTeam : SavedTeam :=
  ⟨Team.plain 0 0, [{ group0 with halted := true }], [], [], [], [], [], [], [], none, [], [], [], [], [], [], [], [0], []⟩

/-- PreemptionEvents: a launch to halt and one that is not live; still, and not; saved with the walkers' cores free, and with one taken. -/
theorem witness_PreemptionEvents :
    (∃ (s : State) (g : Grid) (q : Queue) (hi : Word), s.grid? g.corr = some g ∧ s.queues[0]? = some q ∧
      g.corr = hi.toNat * 2 ^ 32 + q.preemptLo.toNat ∧ g.corr / 2 ^ 56 = 0 ∧ g.phase = .live ∧ ∃ t ∈ s.teams, t.corr = g.corr) ∧
    (∃ (s : State) (g : Grid) (q : Queue) (hi : Word), s.grid? g.corr = some g ∧ s.queues[0]? = some q ∧
      g.corr = hi.toNat * 2 ^ 32 + q.preemptLo.toNat ∧ g.corr / 2 ^ 56 = 0 ∧ g.phase ≠ .live) ∧
    (∃ (s : State) (g : Grid), s.grid? g.corr = some g ∧ g.phase = .halting ∧ halted s g.corr = true ∧ (s.teams.filter fun t => t.corr == g.corr) ≠ []) ∧
    (∃ (s : State) (g : Grid), s.grid? g.corr = some g ∧ g.phase = .halting ∧ halted s g.corr = false) ∧
    (∃ (s : State) (g : Grid) (r : State), s.grid? g.corr = some g ∧ g.phase = .saved ∧ g.saved ≠ [] ∧
      (∀ p ∈ g.walkers, (s.core p.1).walker = none) ∧
      restoreAll g (clustersOf g.saved) (putWalkers g s) = (r, none)) ∧
    (∃ (s : State) (g : Grid), s.grid? g.corr = some g ∧ g.phase = .saved ∧ ∃ p ∈ g.walkers, (s.core p.1).walker.isSome = true) :=
  ⟨⟨machine id group0, Grid.plain 0, Queue.reset, 0, rfl, rfl, by decide +kernel, by decide +kernel, rfl, Team.plain 0 0, by decide +kernel, rfl⟩,
    ⟨holds fun g => { g with phase := .saved }, { Grid.plain 0 with phase := .saved }, Queue.reset, 0, rfl, rfl, by decide +kernel, by decide +kernel,
      by decide +kernel⟩,
    ⟨holds (fun g => { g with phase := .halting }) fun s => { s with teams := [Team.plain 0 0], groups := [{ group0 with halted := true }] },
      { Grid.plain 0 with phase := .halting }, rfl, rfl, by decide +kernel, by decide +kernel⟩,
    ⟨holds (fun g => { g with phase := .halting }) fun s => { s with teams := [Team.plain 0 0], groups := [pending 0 true { group0 with halted := true }] },
      { Grid.plain 0 with phase := .halting }, rfl, rfl, by decide +kernel⟩,
    ⟨holds fun g => { g with phase := .saved, saved := [savedTeam] }, { Grid.plain 0 with phase := .saved, saved := [savedTeam] }, _, rfl, rfl,
      by decide +kernel, by decide, Prod.ext rfl (by decide +kernel)⟩,
    ⟨holds (fun g => { g with phase := .saved, walkers := [(0, walker 0 0 0 none)] }) fun s => s.modCore 0 fun c => { c with walker := some (walker 0 0 0 none) },
      { Grid.plain 0 with phase := .saved, walkers := [(0, walker 0 0 0 none)] }, rfl, rfl, by decide +kernel⟩⟩

/-- A table whose first entry leads to a secure page of 1 GiB at the bottom of HBM4E. -/
def secured : State :=
  State.reset.store (cellsAt (hbmAddr 0) (leBytes 8 0x1001) ++ cellsAt (hbmAddr 0x1000) (leBytes 8 0x2001) ++ cellsAt (hbmAddr 0x2000) (leBytes 8 37))
/-- Rails of die 3. -/
def rails3 : List Rail := [⟨0, 750, 60, 1, 2⟩, ⟨1, 750, 60, 1, 2⟩, ⟨2, 750, 60, 1, 2⟩]

/-- PlatformEvents: the ends of the ranges, a queue of each world, the rails of a die, an interval with no launch and with one, a clear and a
secure page, a sample taken untraced, more energy than the limit with the fastest clock and less with the slowest, a queue that is on and off, firmware that
runs and none. -/
theorem witness_PlatformEvents :
    (∃ s : State, s.plat.atCtl = 1) ∧ (∃ off : Nat, off + 4 ≤ 2 ^ 26 ∧ off % 4 ≠ 0 ∧ off + 4 = 2 ^ 26 - 1) ∧
    (∃ (s : State) (q : Queue), s.queues[31]? = some q ∧ q.secure = true) ∧ (∃ (s : State) (q : Queue), s.queues[31]? = some q ∧ q.secure = false) ∧
    (∃ (off : Nat) (bs : List Byte), bs.length = 4 ∧ off < 2 ^ 26 ∧ off % 4 = 0 ∧ off = 2 ^ 26 - 4) ∧
    (∃ (s : State) (rails : List Rail), (s.die 3).trCtl / 2 % 2 = 1 ∧ rails.map (·.rail.toNat) = railsOf 3) ∧
    (∃ s : State, s.meter = []) ∧ (∃ (s : State) (g : Grid) (w c : Nat), w ≠ 0 ∧ c ≠ 0 ∧ s.meter = [⟨0, g.corr, w, c⟩]) ∧
    (∃ s : State, .stack 7 ∉ s.lost) ∧
    (∃ (s : State) (addr : Nat) (bs : List Byte), addr + bs.length = 412316860416 ∧ bs ≠ [] ∧ secureHbm s addr bs.length = false) ∧
    (∃ (s : State) (addr n : Nat), 0 < n ∧ addr + n ≤ 412316860416 ∧ secureHbm s addr n = true) ∧
    (∃ (s : State) (rails : List Rail), (s.die 3).trCtl / 2 % 2 = 0 ∧ rails.map (·.rail.toNat) = railsOf 3) ∧
    (∃ s : State, overLimit s = true ∧ 1350 < s.plat.clockMHz) ∧ (∃ s : State, overLimit s = false ∧ s.plat.clockMHz < 2700) ∧
    (∀ b ∈ [true, false], ∃ (s : State) (q : Queue), s.queues[31]? = some q ∧ q.enabled = b) ∧
    (∃ s : State, s.grids ≠ [] ∧ (s.grids.map (·.corr)).Nodup) ∧ (∀ b ∈ [true, false], ∃ s : State, s.plat.fwRuns = b) :=
  ⟨⟨{ State.reset with plat := { State.reset.plat with atCtl := 1 } }, rfl⟩, ⟨2 ^ 26 - 5, by decide⟩,
    ⟨{ State.reset with queues := List.replicate 32 { Queue.reset with secure := true } }, _, rfl, rfl⟩, ⟨State.reset, _, rfl, rfl⟩,
    ⟨2 ^ 26 - 4, [0, 0, 0, 0], by decide⟩, ⟨{ State.reset with dies := List.replicate 4 { Die.reset with trCtl := 2 } }, rails3, by decide +kernel⟩,
    ⟨State.reset, rfl⟩, ⟨{ State.reset with meter := [⟨0, 0, 3, 2⟩] }, Grid.plain 0, 3, 2, by decide, by decide, rfl⟩,
    ⟨State.reset, by decide +kernel⟩, ⟨secured, 412316860415, [1], by decide +kernel⟩, ⟨secured, 1073741823, 2, by decide +kernel⟩,
    ⟨State.reset, rails3, by decide +kernel⟩,
    ⟨{ State.reset with dies := [{ Die.reset with sample := [⟨0, 750, 60, 1, 0xFFFFFFFF⟩] }] }, by decide +kernel⟩,
    ⟨{ State.reset with plat := { State.reset.plat with clockMHz := 1350 } }, by decide +kernel⟩,
    fun b _ => ⟨{ State.reset with queues := List.replicate 32 { Queue.reset with enabled := b } }, _, rfl, rfl⟩,
    ⟨holds id besides, by decide +kernel⟩, fun b _ => ⟨{ State.reset with plat := { State.reset.plat with fwRuns := b } }, rfl⟩⟩

/-! The whole machine -/

/-- The group at a header in code: bytes at it. -/
def codeAt (pc : Nat) (bs : List Byte) (s : State) : State :=
  { s with grids := [{ Grid.plain 0 with imgLen := 4096 }] }.store (cellsAt (hbmAddr (imageBase 0 + pc)) bs)

/-- ClauseFaults: a header off a multiple of 4, in poisoned code, with a reserved word; a clause that passes. -/
theorem witness_ClauseFaults :
    (∃ (s : State) (g : Group) (pc : Nat) (m : Mask), s.group? g.key = some g ∧ mayIssue s g = true ∧ g.cur = none ∧ select g = some (.header pc, m) ∧
      g.late = [] ∧ breakpointAt s (corrOf s g) pc = none ∧ pc % 4 ≠ 0) ∧
    (∃ (s : State) (g : Group) (pc : Nat) (m : Mask), s.group? g.key = some g ∧ mayIssue s g = true ∧ g.cur = none ∧ select g = some (.header pc, m) ∧
      g.late = [] ∧ breakpointAt s (corrOf s g) pc = none ∧ pc % 4 = 0 ∧ poisonedCode s g m pc (clauseWords s g m pc) = true) ∧
    (∃ (s : State) (g : Group) (pc : Nat) (m : Mask) (b : Bad), s.group? g.key = some g ∧ mayIssue s g = true ∧ g.cur = none ∧
      select g = some (.header pc, m) ∧ g.late = [] ∧ breakpointAt s (corrOf s g) pc = none ∧ pc % 4 = 0 ∧ poisonedCode s g m pc (clauseWords s g m pc) = false ∧
      readClause pc (codeWords s g m pc (clauseWords s g m pc)) = .error b) ∧
    (∃ w : Word, w.toNat / 2 ^ 25 ≠ 0x7F ∨ w.toNat % 2 = 1) ∧
    (∃ (pc : Nat) (h0 h1 w : Word) (ws : List Word) (cl : Clause) (n : Nat), readClause pc (h0 :: h1 :: w :: ws) = .ok (cl, n)) :=
  ⟨⟨machine id (placed (.header 2)), placed (.header 2), 2, ones 8, by decide +kernel⟩,
    ⟨machine (fun s => { coded s with poison := [granuleBase (hbmAddr (imageBase 0 + 20))] }) (placed (.header 20)), placed (.header 20), 20, ones 8,
      by decide +kernel⟩,
    ⟨machine (codeAt 20 [1]) (placed (.header 20)), placed (.header 20), 20, ones 8, ⟨20, 1, 20⟩, rfl, by decide +kernel, rfl, by decide +kernel, rfl,
      by decide +kernel, by decide +kernel, by decide +kernel, rfl⟩,
    ⟨1, by decide⟩, ⟨20, 0xFE001FE0, 0, 0, [], ⟨20, [0], 0, 15, 15, false⟩, 0, rfl⟩⟩

/-- What the machine of a word meets before the word issues. -/
def atWord (i : Instr) (g : Group) (p : State → Group → Issue → Prop) : Prop :=
  let h := { g with cur := some (at_ (ones 8) 0 0) }
  (machine id h).cur = some (.group h.key) ∧ (machine id h).group? h.key = some h ∧ h.halted = false ∧ h.pend.any (·.hold) = false ∧
    i.fields.isSome = true ∧ p (machine id h) h (at_ (ones 8) 0 0)

/-- RegisterFaults: a word that is not well formed, a register at the bound, an odd pair (that of a load is judged with its
access), a poisoned element. -/
theorem witness_RegisterFaults :
    atWord (.iaddi .lit (.v 0) 1) group0 (fun _ _ _ => (Instr.iaddi .lit (.v 0) 1).wf = false) ∧
    (∃ q, atWord (.iaddi (.v 0) (.v 1) 1) { group0 with it := { group0.it with winBase := 24 } }
      (fun _ _ _ => (Instr.iaddi (.v 0) (.v 1) 1).wf = true) ∧
      firstOut { group0 with it := { group0.it with winBase := 24 } } (Instr.iaddi (.v 8) (.v 1) 1).shape = some q) ∧
    atWord (.sysTime (.s 1)) group0 (fun _ g _ => (Instr.sysTime (.s 1)).wf = true ∧ firstOut g (Instr.sysTime (.s 1)).shape = none ∧
      alignFault (.sysTime (.s 1)) = true) ∧ alignFault (.ld (.s 1) .z .z .sp .b64) = false ∧
    (∃ r, atWord (.iaddi (.v 0) (.v 1) 1) (group0.setVreg 1 { group0.vreg 1 with bad := 1 }) fun s g iss =>
      (Instr.iaddi (.v 0) (.v 1) 1).wf = true ∧ firstOut g (Instr.iaddi (.v 0) (.v 1) 1).shape = none ∧
      alignFault (Instr.iaddi (.v 0) (.v 1) 1) = false ∧
      firstBad g ((mkIns s g iss (.iaddi (.v 0) (.v 1) 1)).regs g) = some r) :=
  ⟨⟨rfl, rfl, rfl, rfl, rfl, by decide⟩, ⟨32, ⟨rfl, rfl, rfl, rfl, rfl, by decide⟩, by decide +kernel⟩,
    ⟨rfl, rfl, rfl, rfl, rfl, by decide +kernel⟩, by decide +kernel, ⟨1, rfl, rfl, rfl, rfl, rfl, by decide +kernel⟩⟩

/-- SpecialRegisters: a dead register, the last predicate register that can be written. -/
theorem witness_SpecialRegisters :
    (∃ (g : Group) (n : Fin 96), (g.vreg (g.phys n).toNat).live = false) ∧ (∃ (g : Group) (p : Nat), p < 7 ∧ p = 6 ∧ g.preds.length = 7) :=
  ⟨⟨group0.setVreg 5 { group0.vreg 5 with live := false }, 5, by decide +kernel⟩, ⟨group0, 6, by decide, rfl, rfl⟩⟩

/-- The group at hand has nothing to join and traps nothing. -/
theorem steady0 (iss : Issue) : Steady (grp id iss) ∧ Untrapped (grp id iss) :=
  ⟨⟨fun _ h => absurd h List.not_mem_nil, fun _ h => absurd h List.not_mem_nil, by show group0.returned = false; decide +kernel,
    by show group0.popReady = false; decide +kernel, by show ∀ n < 16, hasArrived group0 n = false; decide +kernel,
    by show group0.allExited = false; decide +kernel⟩, by show Untrapped group0; unfold Untrapped; decide +kernel⟩

/-- RegisterWordFrame: a word of each kind. -/
theorem witness_RegisterWordFrame : ∀ i ∈ ([.iadd (.v 0) (.v 1) (.v 2) false .wrap, .iset 1 (.v 1) (.v 2) false .lt, .mov (.v 0) (.v 1) 0 .vv] :
    List Instr), ∃ (s : State) (g : Group) (iss : Issue) (t : State), Ready s g iss i ∧ Steady g ∧ Untrapped g ∧ exec i s = .next t ∧
      (i.writesD = true ∨ i.writesP.isSome = true) := by
  intro i hi
  have h : (ready i && goesOn (exec i (machine id (grp id (at_ (ones 8) 0 0)))) && (i.writesD || i.writesP.isSome)) = true :=
    List.all_eq_true.mp (show List.all [.iadd (.v 0) (.v 1) (.v 2) false .wrap, .iset 1 (.v 1) (.v 2) false .lt, .mov (.v 0) (.v 1) 0 .vv] (fun i =>
      ready i && goesOn (exec i (machine id (grp id (at_ (ones 8) 0 0)))) && (i.writesD || i.writesP.isSome)) = true by decide +kernel) i hi
  simp only [Bool.and_eq_true, Bool.or_eq_true] at h
  have ⟨t, ht⟩ := next_of h.1.2
  exact ⟨_, _, _, t, ready_of h.1.1, (steady0 _).1, (steady0 _).2, ht, h.2⟩

/-- StoreIssueFrame and StoreReadsBack: a store by one thread at the last word of its window. -/
theorem witness_StoreReadsBack : ∃ (s t u : State) (g : Group) (iss : Issue), Ready s g iss (.st (.s 0) .lit .z .sp .b32) ∧ Steady g ∧ Untrapped g ∧
    g.queue = [] ∧ s.mem.wf = true ∧ Allowed (mkIns s g iss (.st (.s 0) .lit .z .sp .b32)) (accOf (mkIns s g iss (.st (.s 0) .lit .z .sp .b32)) .sp .b32) ∧
    accThreads (mkIns s g iss (.st (.s 0) .lit .z .sp .b32)) = [0] ∧ exec (.st (.s 0) .lit .z .sp .b32) s = .next t ∧
    exec (.storeQueueDrain g.key) t = .next u := by
  have h : (match exec (.st (.s 0) .lit .z .sp .b32) (machine id (grp id (at_ (ones 8) 0x1FFFFC 0))) with
    | .next t => goesOn (exec (.storeQueueDrain probeKey) t)
    | _ => false) = true := by decide +kernel
  cases ht : exec (.st (.s 0) .lit .z .sp .b32) (machine id (grp id (at_ (ones 8) 0x1FFFFC 0))) with
  | next t =>
    rw [ht] at h
    have ⟨u, hu⟩ := next_of h
    exact ⟨_, t, u, grp id (at_ (ones 8) 0x1FFFFC 0), at_ (ones 8) 0x1FFFFC 0, ready_of (by decide +kernel), (steady0 _).1, (steady0 _).2, rfl, rfl, allowed_of (by decide +kernel), by decide +kernel, ht, hu⟩
  | fault => rw [ht] at h; cases h
  | refused => rw [ht] at h; cases h

/-- StoreIssueFrame: a store with an immediate offset. -/
theorem witness_StoreIssueFrame : ∃ (s : State) (g : Group) (iss : Issue), Ready s g iss (.sti (.v 0) .z .sp .b8 63) ∧ Steady g ∧ Untrapped g ∧
    Allowed (mkIns s g iss (.sti (.v 0) .z .sp .b8 63)) (accImm (mkIns s g iss (.sti (.v 0) .z .sp .b8 63)) .sp .b8 63) ∧
    accThreads (mkIns s g iss (.sti (.v 0) .z .sp .b8 63)) ≠ [] :=
  ⟨machine id (grp id (at_ (ones 8) 0 0)), grp id (at_ (ones 8) 0 0), at_ (ones 8) 0 0, ready_of (by decide +kernel), (steady0 _).1, (steady0 _).2, allowed_of (by decide +kernel),
    by decide +kernel⟩

/-- DrainFrame: an entry of each kind. -/
theorem witness_DrainFrame : ∀ o ∈ ([.bytes [(spAddr 0 0, 5)], .atom .addS32 [⟨0, spAddr 0 0, 0, 1⟩], .cas true [⟨0, spAddr 0 0, 0, 1⟩],
    .tags [(spAddr 0 0, 6)]] : List QOp), ∃ (s t : State) (g : Group) (e : QEntry), s.group? g.key = some g ∧ g.queue = [e] ∧ e.op = o ∧
      g.allExited = false ∧ exec (.storeQueueDrain g.key) s = .next t := by
  intro o ho
  have h : goesOn (exec (.storeQueueDrain probeKey) (machine id { group0 with queue := [⟨7, o, none, .none, 1, 0, 0, 0, ⟨0, false⟩⟩] })) = true := by
    revert o; decide +kernel
  have ⟨t, ht⟩ := next_of h
  exact ⟨_, t, { group0 with queue := [⟨7, o, none, .none, 1, 0, 0, 0, ⟨0, false⟩⟩] }, _, rfl, rfl, rfl, by show group0.allExited = false; decide +kernel, ht⟩

/-- MemoryReadsLastWrite and WholeGranuleClearsPoison: a memory that lists a byte, a poisoned granule. -/
theorem witness_MemoryReadsLastWrite : ∃ s t : State, s.mem ≠ [] ∧ s.mem.wf = true ∧ t.mem.wf = true ∧ ∀ a, t.byte a = s.byte a :=
  ⟨secured, secured, by decide +kernel, by decide +kernel, by decide +kernel, fun _ => rfl⟩
theorem witness_WholeGranuleClearsPoison : ∃ (s : State) (a : Nat), granule a ≠ 0 ∧ granuleBase a ∈ s.poison ∧ a ≠ granuleBase a :=
  ⟨{ State.reset with poison := [granuleBase (spAddr 0 0)] }, spAddr 0 1, by decide +kernel⟩

/-- ShuffledMaps and ThreadResults: the identity of the widest group, rotated by 127; a partial write. -/
theorem witness_ShuffledMaps : ∃ (m : LaneMap) (sh : List (BitVec 7)) (c : BitVec 7), LaneMapFits m ∧ LaneMapFits ⟨m.code, sh, c⟩ ∧ m.code = 4 ∧ c = 127 :=
  ⟨LaneMap.ident 4, LaneMap.idRows 7, 127, ⟨by decide, by decide +kernel, by decide +kernel, by decide +kernel⟩,
    ⟨by decide, by decide +kernel, by decide +kernel, by decide +kernel⟩, rfl, rfl⟩
theorem witness_ThreadResults : ∃ (g : Group) (p : Nat) (m : LaneMap) (act : Mask), p < g.regs.length ∧ m.code = g.wcode ∧ LaneMapFits m ∧
    m.injective = true ∧ (g.vreg p).elems.length = g.width ∧ act ≠ 0#128 ∧ act ≠ g.full ∧ act &&& ~~~g.full = 0#128 :=
  ⟨group0, 31, ⟨0, [4, 2, 1], 5⟩, 0x85, by decide +kernel, rfl, ⟨by decide, rfl, by decide +kernel, by decide +kernel⟩, by decide +kernel,
    by decide +kernel, by decide, by decide +kernel, by decide +kernel⟩

/-- HandlerEntry: the frame of `handler` and an effect of some lanes. -/
theorem witness_HandlerEntry : ∃ (s : State) (g : Group) (p : Perf) (f : Frame) (d : Nat), s.group? g.key = some g ∧ p.lanes &&& g.present ≠ 0#128 ∧
    g.ctxs.length < 16 ∧ g.frame? f.uid = some (f, d) ∧ g.it.tokens.length = 4 ∧
    ∀ t, has (p.lanes &&& g.present) t = true → g.findFrame p.eff t = some f := by
  refine ⟨machine id (handler group0), handler group0, { lateEffect with lanes := 5 }, ⟨900, 256, 512, 0, 0, false, ones 8, 0, 0⟩, 1, rfl,
    by decide +kernel, by decide, by decide +kernel, rfl, fun t ht => ?_⟩
  have hl : t < 128 := by
    rcases Nat.lt_or_ge t 128 with h | h
    · exact h
    · simp [has, BitVec.getLsbD_of_ge _ _ h] at ht
  have k : ∀ t < 128, has (({ lateEffect with lanes := 5 } : Perf).lanes &&& (handler group0).present) t = true →
    (handler group0).findFrame lateEffect.eff t = some ⟨900, 256, 512, 0, 0, false, ones 8, 0, 0⟩ := by decide +kernel
  exact k t hl ht

/-- UnhandledEffectEndsGrid. -/
theorem witness_UnhandledEffectEndsGrid : ∃ (s : State) (g : Group) (gr : Grid) (p : Perf) (t : Nat), s.group? g.key = some g ∧
    has (p.lanes &&& g.present) t = true ∧ g.findFrame p.eff t = none ∧ s.grid? (corrOf s g) = some gr ∧ gr.final = none ∧ gr.phase ≠ .completed :=
  ⟨machine id group0, group0, Grid.plain 0, { lateEffect with lanes := 0x80 }, 7, rfl, by decide +kernel, by decide +kernel, rfl, rfl, by decide⟩

/-- HandlerReturn: the invocation of `handling`, of FPTRAP. -/
theorem witness_HandlerReturn : ∃ (s : State) (g : Group) (c : Ctx), s.group? g.key = some g ∧ g.ctx? c.uid = some c ∧ c.ended = false ∧
    c.perf.kind = .once ∧ c.perf.src = .trap ∧ c.rest = [] ∧ g.it.tokens.length = 4 ∧ c.left ≠ 0#128 := by
  let g : Group := { handling group0 with ctxs := (handling group0).ctxs.map fun c => { c with perf := { c.perf with kind := .once, src := .trap } } }
  have ⟨c, hc⟩ := some_of (show (g.ctxs.head?.filter fun c => g.ctx? c.uid == some c && !c.ended && c.perf.kind == .once && c.perf.src == .trap &&
    c.rest == [] && c.left != 0#128).isSome = true by decide +kernel)
  simp only [Option.filter_eq_some_iff, Bool.and_eq_true, beq_iff_eq, Bool.not_eq_true', bne_iff_ne, ne_eq] at hc
  exact ⟨machine id g, g, c, rfl, hc.2.1.1.1.1.1, hc.2.1.1.1.1.2, hc.2.1.1.1.2, hc.2.1.1.2, hc.2.1.2, rfl, hc.2.2⟩

/-- BarrierPhases: the arrival before the last, the last; a waiter. -/
theorem witness_BarrierPhases :
    (∃ (b : Bar) (w : Nat), b.expected ≠ 0 ∧ b.arrived.toNat + w ≤ 4095 ∧ b.arrived.toNat + w + 1 = b.expected.toNat) ∧
    (∃ (b : Bar) (w : Nat), b.expected ≠ 0 ∧ b.arrived.toNat + w = 4095 ∧ b.expected.toNat = b.arrived.toNat + w) ∧
    (∃ (s : State) (n : Nat) (b : Bar) (g : Group), s.group? g.key = some g ∧ b.phase ≠ (s.bar g.team n).phase) ∧
    (∃ (s : State) (n : Nat) (b : Bar) (g : Group), b.phase = (s.bar g.team n).phase) :=
  ⟨⟨⟨4095, 4093, false, true, []⟩, 1, by decide⟩, ⟨⟨4095, 4094, false, true, []⟩, 1, by decide⟩,
    ⟨machine id group0, 15, ⟨1, 0, true, true, []⟩, group0, rfl, by decide +kernel⟩, ⟨machine id group0, 15, ⟨1, 0, false, true, []⟩, group0, by decide +kernel⟩⟩

/-- StickyFlagsAndTraps: the last of the conditions that can trap. -/
theorem witness_StickyFlagsAndTraps : ∃ (x : Ins) (s : State) (h : Group) (fl : BitVec 7), s.group? x.k = some h ∧
    ∃ i < 5, fl.getLsbD i = true ∧ h.it.fflags.getLsbD (8 + i) = true :=
  ⟨insOf .nop, machine id { group0 with it := { group0.it with fflags := 0x1000 } }, { group0 with it := { group0.it with fflags := 0x1000 } }, 0x10, rfl,
    4, by decide, by decide, by decide⟩

/-! Further clauses -/

/-- StepRunsInstruction: an error of a memory. -/
theorem witness_StepRunsInstruction_flaw :
    (∃ (s : State) (f : Flaw) (ts : List Turn), s.agenda = .flaw f :: ts) ∧ (∃ (s : State) (d : Nat), d = 3 ∧ d < s.dies.length) :=
  ⟨⟨{ State.reset with agenda := [.flaw (.poisoned 0)] }, _, _, rfl⟩, ⟨State.reset, 3, rfl, by decide +kernel⟩⟩

/-- ControlFlow: CALL with no acting lane and at the end of its storage, the words that a body forbids, LOOPs that break their rules. -/
theorem witness_ControlFlow_limits :
    Meets (.call true 7 5) (fun x => bodyLoop x = none ∧ acting x 7 true = 0#128) ∧
    Meets (.call false 7 5) (fun x => bodyLoop x = none ∧ acting x 7 false ≠ 0#128 ∧ x.g.wouldMeet (x.g.it.callHt + 1) x.g.depth = true) ∧
    (∀ i ∈ ([.brx (.v 1) false 7, .call true 7 5, .ret, .yield] : List Instr), Meets i fun x => bodyLoop x ≠ none) ∧
    Meets (.loop .lit 3) (fun x => x.g.loop ≠ none) ∧ Meets (.loop .lit 3) (fun x => x.g.runnable &&& ~~~x.act ≠ 0#128) ∧
    Meets (.loop .lit 64) (fun x => (codeWords x.s x.g x.act x.iss.cl.stop (64#11).toNat).length ≠ (64#11).toNat) ∧
    Meets (.loop .lit 3) (fun x => wholeClauses 64 (codeWords x.s x.g x.act x.iss.cl.stop (3#11).toNat) = false) := by
  refine ⟨meets 0 0 id id (by decide +kernel), meets 0 0 (fun g => { g with it := { g.it with callHt := 0x10000 } }) id (by decide +kernel), ?_,
    meets 1 0 inLoop coded (by decide +kernel), meets_at 1 1 0 id coded (by decide +kernel), meets 1 0 id id (by decide +kernel),
    meets 1 0 id (fun s => (coded s).store (cellsAt (hbmAddr (imageBase 0 + 20)) [4, 0, 0, 0])) (by decide +kernel)⟩
  intro i hi
  have h : ([.brx (.v 1) false 7, .call true 7 5, .ret, .yield] : List Instr).all (fun i =>
    ready i 0 0 inLoop && bodyLoop (insOf i 0 0 inLoop) != none) = true := by decide +kernel
  have h := List.all_eq_true.mp h i hi
  simp only [Bool.and_eq_true, bne_iff_ne, ne_eq] at h
  exact ⟨_, _, _, ready_of h.1, h.2⟩

/-- WidthChanges: a FUSE with work in flight, one that the first stage ends, one whose partners have not come, and one whose window differs. -/
theorem witness_WidthChanges_fuse :
    Meets (.fuse .z .lit 5) (fun x => x.iss.prog = .fresh ∧ unsettledGroup x.g = true) ∧
    Meets (.fuse .z .lit 5) (fun x => x.iss.prog = .fresh ∧ unsettledGroup x.g = false ∧
      stageOne x (if x.a.sca.toNat = 32 then decide (x.g.width < 32)
        else (x.a.sca.toNat == 64 || x.a.sca.toNat == 128) && x.g.width == 32) 1024 = some 6) ∧
    Meets (.fuse .z .lit 5) (fun x => x.iss.prog = .fresh ∧ unsettledGroup x.g = false ∧
      stageOne x (if x.a.sca.toNat = 32 then decide (x.g.width < 32)
        else (x.a.sca.toNat == 64 || x.a.sca.toNat == 128) && x.g.width == 32) 1024 = none ∧
      ((fuseNames x.g x.a.sca.toNat).filter (· != x.k)).any (partnerGone x.s x.g x.a.sca.toNat) = false ∧
      (arrivedPartners x.s x 5 x.a.sca.toNat).length < ((fuseNames x.g x.a.sca.toNat).filter (· != x.k)).length) ∧
    Meets (.fuse .z .lit 5) (fun x =>
      let others := (fuseNames x.g x.a.sca.toNat).filter (· != x.k)
      let ps := arrivedPartners x.s x 5 x.a.sca.toNat
      x.iss.prog ≠ .fresh ∧ others.any (partnerGone x.s x.g x.a.sca.toNat) = false ∧ others.length ≤ ps.length ∧
      ∃ p ∈ ps, p.x.g.allot ≠ x.g.allot ∨ p.x.g.it.winBase ≠ x.g.it.winBase) :=
  ⟨meets 32 0 (pending 1 true) id (by decide +kernel), meets 64 0 id id (by decide +kernel),
    meets 32 0 id (fun s => { s with groups := s.groups ++ [waiter 1, waiter 2, { waiter 3 with cur := none }] }) (by decide +kernel),
    meets_on past (fun g => { g with it := { g.it with winBase := 8 } }) partners (by decide +kernel)⟩

/-- FencesAndBarriers: a fence that waits, the scopes that reach beyond the core, the words that a handler forbids. -/
theorem witness_FencesAndBarriers_waits :
    Meets (.fence .acq .sys) (fun x => x.g.pend.any (·.mem) = true) ∧ Meets (.fence .full .grp) (fun x => x.g.pend.any (·.mem) = true) ∧
    Meets (.fence .full .team) (fun x => x.g.queue ≠ [] ∧ Scope.team ≠ .grp) ∧ Meets (.fence .eng .grp) (fun x => x.g.pend.any (·.mem) = true) ∧
    (∀ c ∈ [Scope.die, .dev, .sys], Meets (.fence .rel c) fun x => wideScope x c = true) ∧
    Meets (.fence .full .die) (fun x => wideScope x .die = true ∧ x.g.pend.any (·.mem) = false ∧ x.g.queue = []) ∧
    (∀ i ∈ ([.bar 0, .bara .z 15, .barw .z 3] : List Instr), Meets i fun x => inInvocation x = true) := by
  refine ⟨meets 0 0 (pending 1 true) id (by decide +kernel), meets 0 0 (pending 1 true) id (by decide +kernel), meets 0 0 queuedAtom id (by decide +kernel),
    meets 0 0 (pending 1 true) id (by decide +kernel), ?_, meets 0 0 id id (by decide +kernel), ?_⟩
  · intro c hc
    have h : [Scope.die, .dev, .sys].all (fun c => ready (.fence .rel c) && wideScope (insOf (.fence .rel c)) c) = true := by decide +kernel
    have h := List.all_eq_true.mp h c hc
    simp only [Bool.and_eq_true] at h
    exact ⟨_, _, _, ready_of h.1, h.2⟩
  · intro i hi
    have h : ([.bar 0, .bara .z 15, .barw .z 3] : List Instr).all (fun i => ready i 0 0 handling && inInvocation (insOf i 0 0 handling)) = true := by
      decide +kernel
    have h := List.all_eq_true.mp h i hi
    simp only [Bool.and_eq_true] at h
    exact ⟨_, _, _, ready_of h.1, h.2⟩

/-- A job in every entry of a job table. -/
@[irreducible] def crowd : List Job := (List.range 1024).map fun n => { probeJob with idx := n }
theorem crowd_full {s : State} {d : Nat} (h : (s.die d).jobs = crowd) : jobSlot s d = none := by
  refine List.find?_eq_none.mpr fun i hi => ?_
  have k : (crowd.find? fun j => j.idx == i).isSome = true :=
    List.find?_isSome.mpr ⟨{ probeJob with idx := i }, by unfold crowd; exact List.mem_map.mpr ⟨i, hi, rfl⟩, beq_self_eq_true i⟩
  have ⟨j, hj⟩ := some_of k
  have kept : ∀ j ∈ crowd, (j.finished && !j.keep) = false := by
    unfold crowd; simp only [List.mem_map]; rintro j ⟨n, -, rfl⟩; rfl
  simp only [entryFree, State.job?, h, hj, Option.map_some, Option.getD_some, kept j (List.mem_of_find?_eq_some hj), Bool.false_eq_true,
    not_false_eq_true]
/-- Every entry of the job table of die 0 is taken. -/
def crowded (s : State) : State := s.modDie 0 fun d => { d with jobs := crowd }

/-- JobIssue: a card with a reserved kind, a full job table, a stale handle, BINA without a stream, before its group's stores are performed,
and with elements past the last bin. -/
theorem witness_JobIssue_waits :
    (∃ v, Meets (.enq 15 (.s 0)) (fun x => cardBad (windowAt x .sp).size (blockAt x (.s 0)) = some v)) ∧
    Meets (.enq 0 (.s 0)) (fun x => cardBad (windowAt x .sp).size (blockAt x (.s 0)) = none ∧ jobSlot x.s x.die = none) ∧
    (∀ i ∈ ([.waith .z 15, .tsth 7 15, .canh 15] : List Instr), Meets i fun x => jobOf x.s (x.g.handle (15 : Fin 16).val) = none) ∧
    Meets (.bina 15 .lid (.v 1)) (fun x => x.s.stream? x.die x.corr (15 : Fin 16).val = none) ∧
    (∃ st, Meets (.bina 0 .lid (.v 1)) (fun x => x.s.stream? x.die x.corr (0 : Fin 16).val = some st ∧ x.iss.prog = .fresh ∧ x.g.queue ≠ [])) ∧
    (∃ st, Meets (.bina 0 .lid (.v 1)) (fun x => x.s.stream? x.die x.corr (0 : Fin 16).val = some st ∧ x.g.queue = [] ∧
      (appendBins x (0 : Fin 16).val (binEls x) x.s).rest = [] ∧ (appendBins x (0 : Fin 16).val (binEls x) x.s).bad = [])) ∧
    (∃ st, Meets (.bina 0 (.v 1) (.v 1)) (fun x => x.s.stream? x.die x.corr (0 : Fin 16).val = some st ∧ x.g.queue = [] ∧
      (appendBins x (0 : Fin 16).val (binEls x) x.s).rest = [] ∧ (appendBins x (0 : Fin 16).val (binEls x) x.s).bad ≠ [])) := by
  refine ⟨⟨_, meets 0 0 (setS 0 6) id rfl⟩, meets 0 0 (setS 0 1) crowded ⟨by decide +kernel, crowd_full rfl⟩, ?_, meets 0 0 id streamed (by decide +kernel),
    ⟨_, meets 0 0 queuedAtom streamed ⟨rfl, by decide +kernel⟩⟩, ⟨_, meets 0 0 id streamed ⟨rfl, by decide +kernel⟩⟩,
    ⟨_, meets 0 0 (setV 1 fun _ => 0x7FFFFFFF) streamed ⟨rfl, by decide +kernel⟩⟩⟩
  intro i hi
  have h : ([.waith .z 15, .tsth 7 15, .canh 15] : List Instr).all (fun i => ready i && jobOf (insOf i).s ((insOf i).g.handle 15) == none) = true := by
    decide +kernel
  have h := List.all_eq_true.mp h i hi
  simp only [Bool.and_eq_true, beq_iff_eq] at h
  exact ⟨_, _, _, ready_of h.1, h.2⟩

/-- EffectWords: the operands that break a rule of PERF, HPSH, HPOP and RSUM; a live ONCE or MANY token at TOKD; an aborted token of an ended
invocation, within its lanes and outside them; an empty register. -/
theorem witness_EffectWords_ranges :
    Meets (.perf .z .lit .lit false 7) (fun x => kindOf (x.a.sca.toNat / 2048) = none) ∧
    Meets (.perf .z .lit .lit false 7) (fun x => 255 < x.a.sca.toNat % 2048) ∧
    Meets (.hpsh (.s 0) .lit .lit) (fun x => x.act ≠ 0#128 ∧ 4194304 ≤ x.d.sca.toNat) ∧
    Meets (.hpsh .z .lit .lit) (fun x => x.act = 0#128) ∧
    Meets (.hpsh .z .lit .lit) (fun x => x.act ≠ 0#128 ∧ x.d.sca.toNat < 4194304 ∧ (if x.g.parts ≤ 1 then 255 else 256 / x.g.parts) < x.g.depth + 1) ∧
    Meets (.hpsh .z .lit .lit) (fun x => x.act ≠ 0#128 ∧ x.d.sca.toNat < 4194304 ∧ x.g.wouldMeet x.g.it.callHt (x.g.depth + 1) = true) ∧
    (∃ f fs, Meets .hpop (fun x => x.g.it.frames = f :: fs ∧ f.running = true)) ∧
    (∃ f fs, Meets .hpop (fun x => x.g.it.frames = f :: fs ∧ x.act &&& ~~~f.lanes ≠ 0#128)) ∧
    (∃ c, Meets (.rsum 0 .z .skip) (fun x => (x.g.token (0 : Fin 4).val).toNat / 1073741824 ≠ 0 ∧
      liveToken x.s x.g (x.g.token (0 : Fin 4).val) = some c ∧ RsumAct.skip ∉ allowedActs c.perf.eff)) ∧
    (∃ c, Meets (.tokd 0) (fun x => (x.g.token (0 : Fin 4).val).toNat / 1073741824 ≠ 0 ∧
      liveToken x.s x.g (x.g.token (0 : Fin 4).val) = some c ∧ ¬(c.ended = true ∧ c.perf.kind = .many))) ∧
    (∃ c, Meets (.tokdAbort 1) (fun x => (x.g.token (1 : Fin 4).val).toNat / 1073741824 ≠ 0 ∧
      liveToken x.s x.g (x.g.token (1 : Fin 4).val) = some c ∧ c.ended = true ∧ x.act &&& ~~~c.q = 0#128)) ∧
    (∃ c, Meets (.tokdAbort 1) (fun x => (x.g.token (1 : Fin 4).val).toNat / 1073741824 ≠ 0 ∧
      liveToken x.s x.g (x.g.token (1 : Fin 4).val) = some c ∧ c.ended = true ∧ x.act &&& ~~~c.q ≠ 0#128)) ∧
    (∀ i ∈ ([.rsum 3 .z .cont, .tokdAbort 3, .tokdMov 0 3] : List Instr), Meets i fun x => (x.g.token (3 : Fin 4).val).toNat / 1073741824 = 0) ∧
    (∀ i ∈ ([.tokd 2, .tokdAbort 2, .tokdMov 2 2] : List Instr), Meets i fun x => (x.g.token (2 : Fin 4).val).toNat / 1073741824 ≠ 0 ∧
      liveToken x.s x.g (x.g.token (2 : Fin 4).val) = none) := by
  refine ⟨meets 0 0 id id (by decide +kernel), meets 0x900 0 id id (by decide +kernel), meets 0 0 (setS 0 0x400000) id (by decide +kernel), meets_at 0 0 0 id id (by decide +kernel),
    meets 0 0 (fun g => { g with it := { g.it with frames := List.replicate 255 ⟨900, 256, 512, 0, 0, false, ones 8, 0, 0⟩ } }) id (by decide +kernel),
    meets 0 0 (fun g => { g with it := { g.it with callHt := 0x10000 } }) id (by decide +kernel),
    ⟨_, _, meets 0 0 handling id ⟨rfl, by decide +kernel⟩⟩,
    ⟨_, _, meets 0 0 (fun g => { g with it := { g.it with frames := [⟨900, 256, 512, 0, 0, false, 1, 0, 0⟩] } }) id ⟨rfl, by decide +kernel⟩⟩,
    ⟨_, meets 0 0 handling id ⟨by decide +kernel, rfl, by decide +kernel⟩⟩, ⟨_, meets 0 0 handling id ⟨by decide +kernel, rfl, by decide +kernel⟩⟩,
    ⟨_, meets 0 0 endedMany id ⟨by decide +kernel, rfl, by decide +kernel⟩⟩,
    ⟨_, meets 0 0 (fun g => { endedMany g with ctxs := (endedMany g).ctxs.map fun c => { c with q := 1 } }) id ⟨by decide +kernel, rfl, by decide +kernel⟩⟩,
    ?_, ?_⟩
  · intro i hi
    have h : ([.rsum 3 .z .cont, .tokdAbort 3, .tokdMov 0 3] : List Instr).all (fun i => ready i && (insOf i).g.token 3 == 0) = true := by decide +kernel
    have h := List.all_eq_true.mp h i hi
    simp only [Bool.and_eq_true, beq_iff_eq] at h
    refine ⟨_, _, _, ready_of h.1, ?_⟩
    show ((insOf i).g.token 3).toNat / 1073741824 = 0
    rw [h.2]; decide
  · intro i hi
    have h : ([.tokd 2, .tokdAbort 2, .tokdMov 2 2] : List Instr).all (fun i => ready i 0 0 stale &&
      ((insOf i 0 0 stale).g.token 2).toNat / 1073741824 != 0 && liveToken (insOf i 0 0 stale).s (insOf i 0 0 stale).g ((insOf i 0 0 stale).g.token 2) ==
        none) = true := by decide +kernel
    have h := List.all_eq_true.mp h i hi
    simp only [Bool.and_eq_true, beq_iff_eq, bne_iff_ne, ne_eq] at h
    exact ⟨_, _, _, ready_of h.1.1, h.1.2, h.2⟩

/-- SystemWords: an element past the last bank, and one of a bank that is not the group's. -/
theorem witness_SystemWords_stamp : (Meets (.sysStamp .lit) fun x => 8388608 ≤ x.a.sca.toNat) ∧
    Meets (.sysStamp .lit) fun x => x.a.sca.toNat < 8388608 ∧ (x.s.core x.k.core).readsBank x.own (x.a.sca.toNat / 65536) = false :=
  ⟨meets 0x800000 0 id id (by decide +kernel), meets 0x7FFFFF 0 id id (by decide +kernel)⟩

/-- The first units of every die's scratchpad belong to the secure world. -/
def secureSp (s : State) : State := { s with dies := s.dies.map fun d => { d with secUnits := [0, 1, 2, 3] } }

/-- WalkerLoadsAndBranches and WalkerTargets: bytes of the other world, a run of none, runs that break their rules. -/
theorem witness_WalkerTargets_runs :
    MeetsW (.wldw 1 2 0 0) (fun s c w j => (w.reg 2 + (0#14).signExtend 32).toNat % 4 = 0 ∧
      (w.reg 2 + (0#14).signExtend 32).toNat + 4 ≤ (walkWindow s c j 0).size ∧
      walkSecure s j (walkWindow s c j 0) (w.reg 2 + (0#14).signExtend 32).toNat 4 = true) ∧
    (∃ t, MeetsW (.wrun 3 1 2 0) (fun s c w j => w.target = some t ∧ w.reg 3 = 0 ∧ (w.reg 2).toNat % elemBytes t = 0 ∧
      (w.reg 2).toNat ≤ (walkWindow s c j 0).size)) ∧
    MeetsW (.wrun 3 1 2 0) (fun _ _ w _ => w.target = none) ∧
    (∃ t, MeetsW (.wrun 3 1 2 0) (fun _ _ w _ => w.target = some t ∧ w.reg 3 ≠ 0 ∧ elemCount t < (w.reg 1).toNat + (w.reg 3).toNat)) ∧
    (∃ t, MeetsW (.wrun 3 1 2 0) (fun _ _ w _ => w.target = some t ∧ (w.reg 2).toNat % elemBytes t ≠ 0)) ∧
    (∃ t, MeetsW (.wrun 3 1 2 0) (fun s c w j => w.target = some t ∧
      (walkWindow s c j 0).size < (w.reg 2).toNat + elemBytes t * (w.reg 3).toNat)) :=
  ⟨meetsW (walker 0 0 0 none) secureSp (by decide +kernel),
    ⟨_, meetsW (walker 4096 0x200000 0 (some (0, 1, 2, 0))) owning ⟨rfl, by decide +kernel⟩⟩, meetsW (walker 0 0 0 none) owning rfl,
    ⟨_, meetsW (walker 4096 0 1 (some (0, 1, 2, 0))) owning ⟨rfl, by decide +kernel⟩⟩,
    ⟨_, meetsW (walker 0 1 0 (some (0, 1, 2, 0))) owning ⟨rfl, by decide +kernel⟩⟩,
    ⟨_, meetsW (walker 0 0x200000 1 (some (0, 1, 2, 0))) owning ⟨rfl, by decide +kernel⟩⟩⟩

/-- DrainFrame: an entry of each destination, first with nothing of the group's on its way, then with the choice its own; a core's stores on
their way, all of bytes. -/
theorem witness_DrainFrame_far :
    (∀ e ∈ [nearStored, stored], AtGroup fun s g => g.queue = [e] ∧ g.allExited = false ∧ e.op ≠ .fence ∧ g.key.core < s.cores.length ∧
      aloft s g.key = false ∧ goesOn (exec (.storeQueueDrain g.key) s) = true) ∧
    (∃ (s : State) (c : Nat) (f : Flight), c < s.cores.length ∧ (s.core c).flights = [f] ∧ s.mem.wf = true ∧ ∃ l, f.e.op = .bytes l) := by
  refine ⟨fun e he => ?_, ⟨flying (machine id group0), 0, _, by decide +kernel, rfl, by decide +kernel, _, rfl⟩⟩
  have h : [nearStored, stored].all (fun e => e.op != .fence && !aloft (machine id (queueing [e] group0)) probeKey &&
    goesOn (exec (.storeQueueDrain probeKey) (machine id (queueing [e] group0)))) = true := by decide +kernel
  have h := List.all_eq_true.mp h e he
  simp only [Bool.and_eq_true, bne_iff_ne, ne_eq, Bool.not_eq_true'] at h
  exact ⟨machine id (queueing [e] group0), queueing [e] group0, rfl, rfl, by show group0.allExited = false; decide +kernel, h.1.1,
    by show 0 < (machine id group0).cores.length; decide +kernel, h.1.2, h.2⟩

/-- StoreReadsBack: both destinations. -/
theorem witness_StoreReadsBack_near :
    (∀ m ∈ [Space.sh, .sp], Meets (.st (.s 0) .lit .z m .b32) fun x => x.g.queue = [] ∧ x.s.mem.wf = true ∧ aloft x.s x.k = false ∧
      x.k.core < x.s.cores.length ∧ Allowed x (accOf x m .b32) ∧ accThreads x = [0] ∧
      (QOp.bytes (valueAt (accAt x (accOf x m .b32) 0) 4 (storeData x (accOf x m .b32) 0))).far = (m == .sp)) := by
  intro m hm
  rcases mem_two hm with rfl | rfl
  · exact meets 0xFFC 0 id id ⟨by decide +kernel, by decide +kernel, by decide +kernel, by decide +kernel, allowed_of (by decide +kernel), by decide +kernel⟩
  · exact meets 0x1FFFFC 0 id id ⟨by decide +kernel, by decide +kernel, by decide +kernel, by decide +kernel, allowed_of (by decide +kernel), by decide +kernel⟩

/-! ### One step of control, memory, effect and walker words -/

/-- BRA by 9 words from the clause at 0 sends the lanes that p1 names, the others to the next header (05 R121, R122). -/
theorem test_bra : (after (.bra false 1 9) 0 0 (setP 1 2)).map (fun g => ((g.lane 1).pos.pc, (g.lane 0).pos.pc)) =
    some (36, 20) := by decide +kernel
/-- SETX adds; WINB moves the base (05 R133, R134). -/
theorem test_setx : (after (.setx .lit true) 0xFFFFFFFF 0 fun g => { g with it := { g.it with x := 2 } }).map (·.it.x) = some 1 := by decide +kernel
theorem test_winb : (after (.winb .lit 8) 16).map (·.it.winBase) = some 24 := by decide +kernel
/-- CALL leaves the other lanes at the return address (05 R124). -/
theorem test_call : (after (.call false 1 7) 0 0 (setP 1 2)).map (fun g => ((g.lane 1).depth, (g.lane 0).depth, g.it.callHt)) = some (1, 0, 1) := by
  decide +kernel
/-- A store stands in the queue, little-endian (08 R207, R208). -/
theorem test_st : (after (.st (.s 0) .lit .z .sp .b32) 16 0 (setS 0 0x04030201)).map (fun g => g.queue.map (·.op)) =
    some [.bytes [(spAddr 0 16, 1), (spAddr 0 17, 2), (spAddr 0 18, 3), (spAddr 0 19, 4)]] := by decide +kernel
/-- A load sees it (08 R208). -/
theorem test_ld : (after (.ld (.s 0) .lit .z .sp .b16) 17 0 id).map (fun g => g.late.map (·.eff)) = some [] ∧
    (after (.ld (.s 0) .lit .z .sp .b8) 17 0 fun g => { g with queue := [⟨7, .bytes [(spAddr 0 17, 9)], none, .none, 1, 0, 0, 0, ⟨0, false⟩⟩] }).map
      (fun g => g.pend.map (·.lands)) = some [[.sreg 0 9]] := by decide +kernel
/-- An atomic's increment is made when its entry is performed (08 R208, R211). -/
theorem test_atom : (match exec (.storeQueueDrain probeKey) (machine id { group0 with queue :=
      [⟨7, .atom .addS32 [⟨0, shAddr 0 0, 0, 5⟩, ⟨1, shAddr 0 0, 0, 6⟩], none, .none, 2, 0, 0, 0, ⟨0, false⟩⟩] }) with
    | .next t => some (t.word32 (shAddr 0 0))
    | _ => none) = some 11 := by decide +kernel
/-- Of two threads with one compare value the first succeeds (08 R215). -/
theorem test_acas : (match exec (.storeQueueDrain probeKey) (machine id { group0 with queue :=
      [⟨7, .cas false [⟨0, shAddr 0 0, 0, 5⟩, ⟨1, shAddr 0 0, 0, 6⟩], none, .none, 2, 0, 0, 0, ⟨0, false⟩⟩] }) with
    | .next t => some (t.word32 (shAddr 0 0))
    | _ => none) = some 5 := by decide +kernel
/-- A group that arrives alone completes the phase (08 R218, R219; 01 R31). -/
theorem test_bar : (match exec (.bar 0) (machine id (grp id (at_ (ones 8) 0 0))) with
    | .next t => ((t.bar 0 0).arrived, (t.bar 0 0).phase, (t.group? probeKey).map fun g => (g.lane 0).st)
    | _ => (0, false, none)) = (0, true, some .run) := by decide +kernel
/-- PERF enters the handler at 256 (11 R284, R285). -/
theorem test_perf : (after (.perf .z .lit .z false 7) 0x820 0 handler).map (fun g => ((g.lane 0).pos, g.ctxs.map (·.perf.eff))) =
    some (.header 256, [0x20]) := by decide +kernel
/-- An effect without a frame ends the launch (11 R284). -/
theorem test_unhandled : (match exec (.perf .z .lit .z false 7) (machine id (grp id (at_ (ones 8) 0x820 0))) with
    | .next t => (t.grid? 0).map fun g => g.final.map (·.status)
    | _ => none) = some (some 0x820) := by decide +kernel

/-- A register of core 0's walker after one word. -/
def walks (i : Instr) (w : Walker) (n : Fin 16) (h : State → State := id) : Option (Word × Word) :=
  match exec i (atWalker w h) with
  | .next t => ((t.core 0).walker).map fun w => (w.reg n, w.pc)
  | _ => none
/-- The walker's arithmetic wraps; branches are relative to themselves (12 R301). -/
theorem test_wadd : walks (.wadd 4 1 2 0x3FFF) (walker 0xFFFFFFFF 2 0 none) 4 = some (0, 12) := by decide +kernel
theorem test_wmul : walks (.wmul 4 1 2) (walker 0x10001 0x10001 0 none) 4 = some (0x20001, 12) := by decide +kernel
theorem test_wshr : walks (.wshr 0 1 4) (walker 0xFF 0 0 none) 0 = some (0, 12) := by decide +kernel
theorem test_wblo : walks (.wblo 1 2 0x3FFF) (walker 1 0xFFFFFFFF 0 none) 0 = some (0, 4) ∧
    walks (.wblo 2 1 0x3FFF) (walker 1 0xFFFFFFFF 0 none) 0 = some (0, 12) := by decide +kernel
theorem test_wldh : walks (.wldh 4 1 0 2) (walker 0 0 0 none) 4 (fun s => s.store [(spAddr 0 2, 0x34), (spAddr 0 3, 0x12)]) = some (0x1234, 12) := by
  decide +kernel
end Sys2Proof.Tests
end

section
/-! SUPPORT. Canonical memories that read alike, and the last write of some cells (00 R9).
-/

namespace Sys2Proof.Machine

open Sys2Proof

/-! ### Canonical memories that read alike -/

/-- A listed byte is not zero, so that a list that reads zero everywhere is empty. -/
theorem Memory.eq_nil_of_get {m : Memory} {k : Nat} (h : m.above k = true) (h0 : ∀ a, m.get a = 0) : m = [] := by
  cases m with
  | nil => rfl
  | cons p m =>
    obtain ⟨a, b⟩ := p
    simp only [Memory.above, Bool.and_eq_true, bne_iff_ne] at h
    exact absurd (by simpa [Memory.get] using h0 a) h.1.2

/-- The first listed address is the least address that does not read zero: of two lists that read alike neither begins before
the other. -/
theorem Memory.head_le {a c : Nat} {b d : Byte} {m n : Memory} {j k : Nat} (hm : Memory.above j ((a, b) :: m) = true)
    (hn : Memory.above k ((c, d) :: n) = true)
    (h : ∀ x, Memory.get ((a, b) :: m) x = Memory.get ((c, d) :: n) x) : c ≤ a := by
  simp only [Memory.above, Bool.and_eq_true, decide_eq_true_eq, bne_iff_ne] at hm hn
  obtain ⟨⟨-, hb⟩, -⟩ := hm
  refine Nat.le_of_not_lt fun hlt => ?_
  have hz : Memory.get ((c, d) :: n) a = 0 := by
    rw [Memory.get, if_neg (by omega), Memory.get_below hn.2 (by omega)]
  exact hb (by rw [← hz, ← h a, Memory.get, if_pos rfl])

/-- Two lists in canonical form that read alike are equal. -/
theorem Memory.eq_of_get {m : Memory} : ∀ {n : Memory} {j k : Nat}, m.above j = true → n.above k = true →
    (∀ a, m.get a = n.get a) → m = n := by
  induction m with
  | nil => intro n j k _ hn h; exact (Memory.eq_nil_of_get hn fun a => (h a).symm).symm
  | cons p m ih =>
    obtain ⟨a, b⟩ := p
    intro n j k hm hn h
    cases n with
    | nil => exact Memory.eq_nil_of_get hm h
    | cons q n =>
      obtain ⟨c, d⟩ := q
      obtain rfl : a = c := Nat.le_antisymm (Memory.head_le hn hm fun x => (h x).symm) (Memory.head_le hm hn h)
      have hbd : b = d := by simpa [Memory.get] using h a
      simp only [Memory.above, Bool.and_eq_true] at hm hn
      have htail : m = n := ih hm.2 hn.2 fun x => by
        rcases Nat.lt_or_ge a x with hx | hx
        · simpa [Memory.get, Nat.ne_of_lt hx] using h x
        · rw [Memory.get_below hm.2 (by omega), Memory.get_below hn.2 (by omega)]
      rw [hbd, htail]

/-! ### The last write of some cells -/

/-- The byte that the last of some cells at an address gives. -/
def lastCell (l : List (Nat × Byte)) (a : Nat) : Option Byte := (l.reverse.find? fun c => c.1 == a).map (·.2)

@[simp] theorem lastCell_nil (a : Nat) : lastCell [] a = none := rfl

theorem lastCell_append (l m : List (Nat × Byte)) (a : Nat) : lastCell (l ++ m) a = (lastCell m a).or (lastCell l a) := by
  simp only [lastCell, List.reverse_append, List.find?_append]
  cases m.reverse.find? fun c => c.1 == a <;> rfl

theorem lastCell_cons (c : Nat × Byte) (l : List (Nat × Byte)) (a : Nat) :
    lastCell (c :: l) a = (lastCell l a).or (if c.1 = a then some c.2 else none) := by
  rw [show c :: l = [c] ++ l from rfl, lastCell_append]
  congr 1
  by_cases h : c.1 = a <;> simp [lastCell, h]

/-- After cells are written an address reads the last of them there, or what it read before. -/
theorem Memory.get_sets {l : List (Nat × Byte)} {a : Nat} : ∀ {m : Memory}, m.wf = true →
    (m.sets l).get a = (lastCell l a).getD (m.get a) := by
  induction l with
  | nil => intros; rfl
  | cons c l ih =>
    intro m h
    have hstep : (m.sets (c :: l)).get a = (lastCell l a).getD ((m.set c.1 c.2).get a) := ih (Memory.set_wf h)
    rw [hstep, lastCell_cons]
    cases lastCell l a with
    | some v => rfl
    | none =>
      by_cases hc : c.1 = a
      · subst hc; simpa using Memory.get_set_same h
      · simpa [hc] using Memory.get_set_other hc

theorem State.byte_store {s : State} (h : s.mem.wf = true) (l : List (Nat × Byte)) (a : Nat) :
    (s.store l).byte a = (lastCell l a).getD (s.byte a) := Memory.get_sets h

end Sys2Proof.Machine
end

section
/-! SUPPORT. What performing the entries of store queues writes: their cells in order, and no byte that they do not name (08 R207,
R208, R211, R215; 15 R325).
-/

namespace Sys2Proof.Machine

open Sys2Proof

/-! ### Cells of values and of queue operations -/

theorem valueAt_mem {a n v : Nat} {c : Nat × Byte} (h : c ∈ valueAt a n v) : a ≤ c.1 ∧ c.1 < a + n := by
  simpa using cellsAt_mem h

theorem lastCell_eq_none {l : List (Nat × Byte)} {a : Nat} (h : ∀ c ∈ l, c.1 ≠ a) : lastCell l a = none := by
  simpa [lastCell] using fun x y hxy => h (x, y) hxy

/-- Each byte of a run is the last write at its address. -/
theorem lastCell_cellsAt {bs : List Byte} : ∀ {a i : Nat} (hi : i < bs.length), lastCell (cellsAt a bs) (a + i) = some bs[i] := by
  induction bs with
  | nil => intro a i hi; exact absurd hi (Nat.not_lt_zero i)
  | cons b bs ih =>
    intro a i hi
    rw [cellsAt_cons, lastCell_cons]
    cases i with
    | zero =>
      rw [lastCell_eq_none fun c hc => ?_]
      · simp
      · have := cellsAt_mem hc; omega
    | succ i => rw [show a + (i + 1) = a + 1 + i by omega, ih (by simpa using hi)]; rfl

/-- Bytes that agree with the cells of a value at its addresses make up the value, cut to its size. -/
theorem leNat_of_lastCell {f : Nat → Byte} {a n v : Nat}
    (h : ∀ i b, lastCell (valueAt a n v) (a + i) = some b → f (a + i) = b) :
    leNat ((List.range n).map fun i => f (a + i)) = v % 256 ^ n := by
  rw [← leNat_leBytes]
  congr 1
  apply List.ext_getElem
  · simp
  · intro i hi hj
    simpa using h i _ (lastCell_cellsAt hj)

theorem foldl_lastCell (l : List (Nat × Byte)) (a : Nat) : ∀ o : Option Byte,
    l.foldl (fun acc c => if c.1 == a then some c.2 else acc) o = (lastCell l a).or o := by
  induction l with
  | nil => intro o; rfl
  | cons c l ih =>
    intro o
    rw [List.foldl_cons, ih, lastCell_cons, Option.or_assoc]
    by_cases hc : c.1 = a <;> simp [hc]

/-- The last byte that operations write is the last of all their cells. -/
theorem lastByte_eq (l : List QOp) (a : Nat) : lastByte l a = lastCell (l.flatMap QOp.cells) a := by
  rw [lastByte, ← List.foldl_flatMap, foldl_lastCell, Option.or_none]

/-- The parts of a store are stores. -/
theorem parts_bytes {bad : Nat → Bool} {l : List (Nat × Byte)} {op : QOp} (h : op ∈ (QOp.bytes l).parts bad) :
    ∃ m, op = .bytes m := by
  obtain ⟨m, -, rfl⟩ := List.mem_map.mp h
  exact ⟨m, rfl⟩

/-- The loop of `List.splitBy` keeps the runs done, the run under way and the rest in order. -/
theorem flatten_splitBy_loop {α : Type} (r : α → α → Bool) (l : List α) : ∀ (a : α) (g : List α) (gs : List (List α)),
    (List.splitBy.loop r l a g gs).flatten = gs.reverse.flatten ++ g.reverse ++ a :: l := by
  induction l with
  | nil =>
    intro a g gs
    simp only [List.splitBy.loop, List.reverse_cons, List.flatten_append, List.flatten_cons, List.flatten_nil,
      List.append_nil, List.append_assoc]
  | cons b l ih =>
    intro a g gs
    rw [List.splitBy.loop]
    cases r a b with
    | true => simp only [ih, List.reverse_cons, List.append_assoc, List.cons_append, List.nil_append]
    | false =>
      simp only [ih, List.reverse_cons, List.reverse_nil, List.flatten_append, List.flatten_cons, List.flatten_nil,
        List.append_nil, List.append_assoc, List.cons_append, List.nil_append]

/-- The runs into which a list is cut make up the list. Core has no such lemma, and the package does not import Mathlib's. -/
theorem flatten_runs {α : Type} (r : α → α → Bool) (l : List α) : (l.splitBy r).flatten = l := by
  cases l with
  | nil => rfl
  | cons a l => exact flatten_splitBy_loop r l a [] []

/-- The parts of a store write its cells in its order. -/
theorem parts_cells (bad : Nat → Bool) (l : List (Nat × Byte)) : ((QOp.bytes l).parts bad).flatMap QOp.cells = l := by
  rw [QOp.parts, List.flatMap_map]
  exact List.flatMap_id'.trans (flatten_runs _ l)

/-! ### What leaves memory alone -/

@[simp] theorem shutPast_mem (s : State) (k : GKey) (ws : List Nat) : (shutPast s k ws).mem = s.mem := by
  unfold shutPast; split <;> rfl

@[simp] theorem shutPast_groups (s : State) (k : GKey) (ws : List Nat) : (shutPast s k ws).groups = s.groups := by
  unfold shutPast; split <;> rfl

@[simp] theorem storeOf_mem (s : State) (c : Nat) (l : List (Nat × Byte)) : (storeOf s c l).mem = s.mem.sets l := rfl

@[simp] theorem storeOf_groups (s : State) (c : Nat) (l : List (Nat × Byte)) : (storeOf s c l).groups = s.groups := rfl

@[simp] theorem endGrid_mem (s : State) (corr : Nat) (f : Final) : (endGrid s corr f).mem = s.mem := by
  unfold endGrid
  split
  · split
    · split <;> rfl
    · split <;> rfl
  · rfl

@[simp] theorem chargeGrid_mem (s : State) (corr : Nat) (k : GKey) (p : Perf) : (chargeGrid s corr k p).mem = s.mem :=
  endGrid_mem ..

@[simp] theorem modIssuer_mem (s : State) (k : GKey) (o : Own) (corr : Nat) (f : Group → Group) :
    (modIssuer s k o corr f).mem = s.mem := by
  unfold modIssuer
  split
  · simp
  · split <;> simp

@[simp] theorem addLate_mem (s : State) (k : GKey) (o : Own) (corr : Nat) (p : Perf) : (addLate s k o corr p).mem = s.mem := by
  unfold addLate
  split
  · split <;> simp
  · simp

@[simp] theorem dueAll_mem (s : State) (c : Nat) : (dueAll s c).mem = s.mem := rfl

@[simp] theorem dueAll_groups (s : State) (c : Nat) : (dueAll s c).groups = s.groups := rfl

@[simp] theorem meetLoads_mem (s : State) (may : Group → Pend → Option Bool) (l : List (Nat × Byte)) :
    (meetLoads s may l).mem = s.mem := by
  unfold meetLoads; split <;> rfl

@[simp] theorem meetLoads_cores (s : State) (may : Group → Pend → Option Bool) (l : List (Nat × Byte)) :
    (meetLoads s may l).cores = s.cores := by
  unfold meetLoads; split <;> rfl

/-- A write meets the loads in flight of a group and changes nothing else of it. -/
theorem meetLoads_group {s : State} {k : GKey} {g : Group} (h : s.group? k = some g) (may : Group → Pend → Option Bool)
    (l : List (Nat × Byte)) : ∃ ps, (meetLoads s may l).group? k = some { g with pend := ps } := by
  unfold meetLoads
  split
  · exact ⟨g.pend, h⟩
  · simp only [State.group?] at h ⊢
    rw [List.find?_map]
    exact ⟨_, by rw [show (_ ∘ _ : Group → Bool) = fun g => g.key == k from rfl, h]; rfl⟩

/-- Performing an entry for its group writes memory as its operation does: what follows touches only groups and grids. -/
theorem performFor_mem (s : State) (k : GKey) (e : QEntry) : (performFor s k e).mem = (performEntry s k.core e).s.mem := by
  unfold performFor
  dsimp only
  cases (performEntry s k.core e).bad <;> cases e.pend <;> simp

theorem landFlight_mem (c : Nat) (s : State) (f : Flight) : (landFlight c s f).mem =
    (performEntry (s.modCore c fun k => { k with flights := landed f k.flights }) f.key.core f.e).s.mem := by
  rw [landFlight, meetLoads_mem, performFor_mem]

/-! ### Which addresses an operation writes -/

/-- The second memory is the first after cells have been written, all of them at addresses of a set. -/
def WritesIn (p : Nat → Prop) (m n : Memory) : Prop := ∃ l, n = m.sets l ∧ ∀ c ∈ l, p c.1

namespace WritesIn
variable {p q : Nat → Prop} {m n o : Memory}

theorem refl (p : Nat → Prop) (m : Memory) : WritesIn p m m := ⟨[], rfl, by simp⟩

theorem sets {l : List (Nat × Byte)} (h : ∀ c ∈ l, p c.1) : WritesIn p m (m.sets l) := ⟨l, rfl, h⟩

theorem trans (h : WritesIn p m n) (h' : WritesIn p n o) : WritesIn p m o := by
  obtain ⟨l, rfl, hl⟩ := h
  obtain ⟨l', rfl, hl'⟩ := h'
  exact ⟨l ++ l', by simp [Memory.sets], fun c hc => (List.mem_append.mp hc).elim (hl c) (hl' c)⟩

theorem mono (h : WritesIn p m n) (hpq : ∀ a, p a → q a) : WritesIn q m n := by
  obtain ⟨l, rfl, hl⟩ := h
  exact sets fun c hc => hpq _ (hl c hc)

theorem wf (h : WritesIn p m n) (hm : m.wf = true) : n.wf = true := by
  obtain ⟨l, rfl, -⟩ := h
  exact Memory.sets_wf hm

/-- An address outside the set reads as before. -/
theorem get (h : WritesIn p m n) {a : Nat} (ha : ¬p a) : n.get a = m.get a := by
  obtain ⟨l, rfl, hl⟩ := h
  exact Memory.get_sets_other fun c hc e => ha (e ▸ hl c hc)

/-- A fold of steps of which each writes only in a set writes only there. -/
theorem foldl {α β : Type} {mem : α → Memory} {f : α → β → α} {l : List β} :
    ∀ {a : α}, (∀ a, ∀ b ∈ l, WritesIn p (mem a) (mem (f a b))) → WritesIn p (mem a) (mem (l.foldl f a)) := by
  induction l with
  | nil => intro a _; exact refl p _
  | cons b l ih =>
    intro a h
    exact (h a b (List.mem_cons_self ..)).trans (ih fun a c hc => h a c (List.mem_cons_of_mem b hc))

end WritesIn

theorem atomStep_writes (c : Nat) (op : AtomOp) (o : QOut) (el : AtomEl) :
    WritesIn (fun a => el.addr ≤ a ∧ a < el.addr + 4) o.s.mem (atomStep c op o el).s.mem := by
  unfold atomStep
  split
  · exact .refl ..
  · exact .sets fun c hc => valueAt_mem hc

theorem casStep_writes (c : Nat) (wide : Bool) (o : QOut) (el : AtomEl) :
    WritesIn (fun a => el.addr ≤ a ∧ a < el.addr + if wide then 8 else 4) o.s.mem (casStep c wide o el).s.mem := by
  unfold casStep
  generalize (if wide then 8 else 4) = n
  dsimp only
  split
  · exact .refl ..
  · split
    · exact .sets fun c hc => valueAt_mem hc
    · exact .refl ..

/-- An entry that is performed writes only bytes that its operation names (08 R207, R211, R215, R224). -/
theorem performEntry_writes (s : State) (c : Nat) (e : QEntry) : WritesIn e.op.covers s.mem (performEntry s c e).s.mem := by
  unfold performEntry
  cases he : e.op with
  | bytes l => exact .sets fun x hx => ⟨x, hx, rfl⟩
  | tags l =>
    refine .sets fun x hx => ?_
    obtain ⟨t, ht, hx⟩ := List.mem_flatMap.mp hx
    split at hx
    · simp at hx
    · exact ⟨t, ht, valueAt_mem hx⟩
  | atom op l =>
    exact WritesIn.foldl (mem := fun o : QOut => o.s.mem) (a := ⟨s, [], 0#7, []⟩) fun o el hel =>
      (atomStep_writes c op o el).mono fun a ha => ⟨el, hel, ha⟩
  | cas wide l =>
    exact WritesIn.foldl (mem := fun o : QOut => o.s.mem) (a := ⟨s, [], 0#7, []⟩) fun o el hel =>
      (casStep_writes c wide o el).mono fun a ha => ⟨el, hel, ha⟩
  | fence => exact .refl ..

theorem landFlight_writes (c : Nat) (s : State) (f : Flight) : WritesIn f.e.op.covers s.mem (landFlight c s f).mem := by
  rw [landFlight_mem]
  exact performEntry_writes (s.modCore c _) _ _

/-- Flights that reach their homes write only bytes that their operations name. -/
theorem foldl_landFlight_writes (c : Nat) (fs : List Flight) (s : State) :
    WritesIn (fun a => ∃ f ∈ fs, f.e.op.covers a) s.mem (fs.foldl (landFlight c) s).mem :=
  WritesIn.foldl (mem := State.mem) fun s f hf => (landFlight_writes c s f).mono fun _ ha => ⟨f, hf, ha⟩

/-- A store that reaches its home writes its cells. -/
theorem performEntry_bytes_mem {s : State} {c : Nat} {e : QEntry} {l : List (Nat × Byte)} (h : e.op = .bytes l) :
    (performEntry s c e).s.mem = s.mem.sets l := by
  simp [performEntry, h]

/-- Stores that reach their homes one after another write their cells in that order. -/
theorem foldl_landFlight_bytes (c : Nat) {fs : List Flight} : ∀ {s : State}, (∀ f ∈ fs, ∃ l, f.e.op = .bytes l) →
    (fs.foldl (landFlight c) s).mem = s.mem.sets (fs.flatMap fun f => f.e.op.cells) := by
  induction fs with
  | nil => intros; rfl
  | cons f fs ih =>
    intro s h
    obtain ⟨l, hl⟩ := h f (List.mem_cons_self ..)
    rw [List.foldl_cons, ih fun f hf => h f (List.mem_cons_of_mem _ hf), landFlight_mem, performEntry_bytes_mem hl]
    simp [Memory.sets, hl, QOp.cells]

end Sys2Proof.Machine
end

section
/-! SUPPORT. A store word as it issues and as its entry leaves the queue (08 R207, R208).
-/

namespace Sys2Proof.Machine

open Sys2Proof

/-! ### Accesses that all pass -/

theorem maskOf_eq_zero {n : Nat} {p : Nat → Bool} (h : ∀ t < n, p t = false) : maskOf n p = 0#128 :=
  foldl_fix fun t ht => by rw [h t (List.mem_range.mp ht)]; rfl

/-- Where every access passes, every acting thread is a passing one. -/
theorem passing_of_allowed {x : Ins} {a : Acc} (h : Allowed x a) : passing x a = accThreads x :=
  List.filter_eq_self.mpr fun t ht => by simp [h t ht]

/-- Where every access passes, no thread has a failing fate. -/
theorem fateMask_of_allowed {x : Ins} {a : Acc} {f : Fate} (h : Allowed x a) (hf : f ≠ .ok) : fateMask x a f = 0#128 := by
  unfold Allowed accThreads at h
  unfold fateMask
  cases hv : x.vector
  · rw [hv] at h
    have h0 : fateAt x a 0 = .ok := h 0 (List.mem_cons_self ..)
    simp [h0, hf.symm]
  · rw [hv] at h
    refine maskOf_eq_zero fun t ht => ?_
    cases hact : has x.act t
    · rfl
    · have hok : fateAt x a t = .ok := h t (List.mem_filter.mpr ⟨List.mem_range.mpr ht, hact⟩)
      simpa [hok] using hf.symm

theorem failures_of_allowed {x : Ins} {a : Acc} (h : Allowed x a) : failures x a = [] := by
  simp [failures, fateMask_of_allowed h]

theorem size_bytes_pos (sz : Size) : 0 < Size.bytes sz := by cases sz <;> decide

/-- The bytes that the acting threads of a store write, in rising thread order (08 R207). -/
def storeCells (x : Ins) (a : Acc) : List (Nat × Byte) :=
  (accThreads x).flatMap fun t => valueAt (accAt x a t) a.size (storeData x a t)

/-- A store whose accesses pass puts the bytes of its acting threads into the queue and does nothing else (08 R207, R208). -/
theorem store_of_allowed {x : Ins} {a : Acc} (h : Allowed x a) (hn : accThreads x ≠ []) (hs : 0 < a.size) :
    store x a = .done (enqueue x.k (entryOf x a (.bytes (storeCells x a)) none) x.s) := by
  unfold store storeCells
  rw [failures_of_allowed h, passing_of_allowed h]
  obtain ⟨t, ts, hts⟩ := List.exists_cons_of_ne_nil hn
  obtain ⟨n, hsz⟩ := Nat.exists_eq_succ_of_ne_zero (Nat.ne_of_gt hs)
  simp only [hts, List.flatMap_cons, hsz, valueAt, leBytes, cellsAt_cons, List.cons_append, List.isEmpty_cons,
    Bool.false_eq_true, if_false]
  rfl

/-! ### The group that a word leaves -/

/-- The issuing group once a word has read its registers: the live bits that its last marks end are clear, and values read early
are no longer open. -/
def afterReads (s : State) (g : Group) (iss : Issue) (i : Instr) : Group :=
  (clearLive { g with it := { g.it with csn := (mkIns s g iss i).g.it.csn } } (lastRegs g i.shape iss.nibble)).readEarly s.tick

theorem mkIns_s (s : State) (g : Group) (iss : Issue) (i : Instr) : (mkIns s g iss i).s = s.setGroup (afterReads s g iss i) := rfl

/-- Any reading of a group that does not look at its registers is left alone by last marks. -/
theorem clearLive_keeps {α : Type} (f : Group → α) (hf : ∀ g rs, f { g with regs := rs } = f g) (ps : List Nat) :
    ∀ g : Group, f (clearLive g ps) = f g := by
  induction ps with
  | nil => exact fun _ => rfl
  | cons p ps ih => exact fun g => (ih _).trans (hf g _)

section
variable (s : State) (g : Group) (iss : Issue) (i : Instr)

@[simp] theorem afterReads_key : (afterReads s g iss i).key = g.key := clearLive_keeps (·.key) (fun _ _ => rfl) ..
@[simp] theorem afterReads_queue : (afterReads s g iss i).queue = g.queue := clearLive_keeps (·.queue) (fun _ _ => rfl) ..
@[simp] theorem afterReads_fflags : (afterReads s g iss i).it.fflags = g.it.fflags :=
  clearLive_keeps (·.it.fflags) (fun _ _ => rfl) ..

theorem alike_afterReads : Alike g (afterReads s g iss i) :=
  ((Alike.csn g _).trans (Alike.clearLive _ _)).trans ⟨rfl, rfl, rfl, rfl, fun _ => rfl, fun _ => rfl⟩

end

/-- The group put is the one found under the name it has. -/
theorem setGroup_here {s : State} {k : GKey} {g h : Group} (e : s.group? k = some g) (hk : h.key = k) :
    (s.setGroup h).group? k = some h := by
  subst hk; exact State.setGroup_same e

/-- A word's effect starts from its group after the reads. -/
theorem mkIns_group {s : State} {g : Group} (h : s.group? g.key = some g) (iss : Issue) (i : Instr) :
    (mkIns s g iss i).s.group? (mkIns s g iss i).k = some (afterReads s g iss i) := by
  rw [mkIns_k, mkIns_key, mkIns_s]
  exact setGroup_here h (afterReads_key ..)

/-- No flag of a group with no condition enabled is performed as FPTRAP (01 R22). -/
theorem trapBits_untrapped {g : Group} (h : Untrapped g) (fl : BitVec 7) : g.trapBits fl = 0#5 := by
  ext i hi
  have hbit : (g.it.fflags &&& 0x1F00#32).getLsbD (8 + i) = false := by rw [h]; simp
  have hmask : (0x1F00#32).getLsbD (8 + i) = true := by
    clear hbit; revert i; decide
  simp only [BitVec.getLsbD_and, hmask, Bool.and_true] at hbit
  simp [Group.trapBits, enabledBits, BitVec.getLsbD_ushiftRight, hbit]

/-- The end of a word for which nothing of its group joins, ends or traps. -/
theorem finish_untrapped {x : Ins} {s : State} {g h : Group} {fl : Fl} (hx : s.group? x.k = some h) (ha : Alike g h)
    (hs : Steady g) (hu : Untrapped h) : finish x s fl [] id = s.setGroup (finishGroup x [] (h.merge fl)).leaveLoop :=
  finish_steady hx (trapBits_untrapped hu fl) ((finishGroup_key ..).trans (State.group?_key hx : h.key = x.k))
    (((ha.trans (.merge h fl)).trans (.finishGroup x [] _)).steady hs)

/-! ### A store issues -/

@[simp] theorem enqueue_mem (k : GKey) (e : QEntry) (s : State) : (enqueue k e s).mem = s.mem := State.modGroup_mem ..

@[simp] theorem enqueue_cores (k : GKey) (e : QEntry) (s : State) : (enqueue k e s).cores = s.cores := State.modGroup_cores ..

/-- The entry stands at the end of the group's queue, numbered. -/
theorem enqueue_group {s : State} {k : GKey} {g : Group} (h : s.group? k = some g) (e : QEntry) :
    (enqueue k e s).group? k = some { g with queue := g.queue ++ [{ e with id := s.nextId }] } := by
  have hn : ({ s with nextId := s.nextId + 1 } : State).group? k = some g := h
  rw [enqueue, State.modGroup_eq _ hn]
  exact setGroup_here hn (State.group?_key h : g.key = k)

/-- The entry that a store queues where its accesses pass. -/
def storeEntry (x : Ins) (a : Acc) : QEntry := { entryOf x a (.bytes (storeCells x a)) none with id := x.s.nextId }

/-- The issuing group with the entry of a store at the end of its queue. -/
def queuing (s : State) (g : Group) (iss : Issue) (i : Instr) (a : Acc) : Group :=
  { afterReads s g iss i with queue := g.queue ++ [storeEntry (mkIns s g iss i) a] }

theorem alike_queuing (s : State) (g : Group) (iss : Issue) (i : Instr) (a : Acc) : Alike g (queuing s g iss i a) :=
  (alike_afterReads s g iss i).trans ⟨rfl, rfl, rfl, rfl, fun _ => rfl, fun _ => rfl⟩

@[simp] theorem queuing_key (s : State) (g : Group) (iss : Issue) (i : Instr) (a : Acc) : (queuing s g iss i a).key = g.key :=
  afterReads_key ..

theorem enqueue_storeEntry {s : State} {g : Group} (h : s.group? g.key = some g) (iss : Issue) (i : Instr) (a : Acc) :
    (enqueue (mkIns s g iss i).k (entryOf (mkIns s g iss i) a (.bytes (storeCells (mkIns s g iss i) a)) none)
      (mkIns s g iss i).s).group? (mkIns s g iss i).k = some (queuing s g iss i a) := by
  rw [enqueue_group (mkIns_group h iss i), afterReads_queue]; rfl

/-- A store word whose accesses pass changes no memory and no core as it issues, and its bytes stand at the end of its group's
queue (08 R207, R208). -/
theorem issue_store {s t : State} {g : Group} {iss : Issue} {i : Instr} {a : Ins → Acc} (hr : Ready s g iss i) (hs : Steady g)
    (hu : Untrapped g) (hok : Allowed (mkIns s g iss i) (a (mkIns s g iss i))) (hn : accThreads (mkIns s g iss i) ≠ [])
    (hsz : 0 < (a (mkIns s g iss i)).size) (ht : issue i s (fun x => store x (a x)) = .next t) :
    t.mem = s.mem ∧ t.cores = s.cores ∧ ∃ h, t.group? g.key = some h ∧ Alike g h ∧
      h.queue = g.queue ++ [storeEntry (mkIns s g iss i) (a (mkIns s g iss i))] := by
  have hq := enqueue_storeEntry hr.here iss i (a (mkIns s g iss i))
  have ha := alike_queuing s g iss i (a (mkIns s g iss i))
  have hu' : Untrapped (queuing s g iss i (a (mkIns s g iss i))) := (congrArg (· &&& 0x1F00#32) (afterReads_fflags ..)).trans hu
  rw [issue_act hr (store_of_allowed hok hn hsz), issues, finish_untrapped hq ha hs hu'] at ht
  cases ht
  refine ⟨enqueue_mem .., enqueue_cores .., _, setGroup_here (k := g.key) (by rw [← mkIns_key s g iss i]; exact hq) ?_, ?_, ?_⟩
  · rw [leaveLoop_key, finishGroup_key]; exact queuing_key s g iss i (a (mkIns s g iss i))
  · exact ((ha.trans (.merge ..)).trans (.finishGroup ..)).trans (.leaveLoop _)
  · rw [leaveLoop_queue, finishGroup_queue]; rfl

/-! ### The drain of a store -/

/-- A group that has not ended does not retire. -/
theorem tryRetire_alive {s : State} {k : GKey} {g : Group} (h : s.group? k = some g) (hl : g.allExited = false) :
    tryRetire s k = s := by
  simp [tryRetire, h, hl]

/-- A group none of whose stores is on its way drains the head of its queue. -/
theorem drainStep_of_not_aloft {s : State} {k : GKey} (h : aloft s k = false) : drainStep s k = drainHead s k := by
  simp [drainStep, h]

/-- A store that is performed for its group writes its cells and changes no group. -/
theorem performFor_bytes {s : State} {k : GKey} {e : QEntry} {l : List (Nat × Byte)} (ho : e.op = .bytes l)
    (hp : e.pend = none) : performFor s k e = shutPast (storeOf s k.core l) k e.op.words := by
  simp [performFor, performEntry, ho, hp]

/-- The flights that a store of the scratchpad becomes. -/
def flightsOf (bad : Nat → Bool) (k : GKey) (e : QEntry) : List Flight :=
  (e.op.parts bad).map fun op => ⟨k, { e with op := op }, false⟩

/-- What the drain of a store at the head of a queue leaves, before loads in flight meet it: it has been written, or it is on its
way (08 R208; 15 R325). -/
def drained (s : State) (k : GKey) (e : QEntry) : State :=
  if e.op.far then s.modCore k.core fun c => { c with flights := c.flights ++ flightsOf s.poisoned k e }
  else dueAll (performFor s k e) k.core

theorem drainHead_store {s : State} {k : GKey} {g : Group} {e : QEntry} {rest : List QEntry} (h : s.group? k = some g)
    (hq : g.queue = e :: rest) (he : e.op ≠ .fence) : drainHead s k =
      meetCore (drained (s.setGroup { g with queue := rest }) k e) k (!e.op.far || !e.op.cells.isEmpty)
        (Flight.cells ⟨k, e, false⟩) := by
  simp only [drainHead, h, hq, if_neg he]
  rfl

theorem drained_group {s : State} {k : GKey} {e : QEntry} {l : List (Nat × Byte)} (ho : e.op = .bytes l)
    (hp : e.pend = none) (j : GKey) : (drained s k e).group? j = s.group? j := by
  unfold drained
  split
  · rfl
  · rw [performFor_bytes ho hp, State.group?, dueAll_groups, shutPast_groups, storeOf_groups, State.group?]

/-- What the drain of a store by a group with nothing on its way leaves: the group without the entry, and loads that have met it. -/
theorem drain_store {s u : State} {k : GKey} {g : Group} {e : QEntry} {rest : List QEntry} {l : List (Nat × Byte)}
    (h : s.group? k = some g) (hl : g.allExited = false) (hq : g.queue = e :: rest) (ho : e.op = .bytes l) (hp : e.pend = none)
    (ha : aloft s k = false) (hu : exec (.storeQueueDrain k) s = .next u) :
    u.mem = (drained (s.setGroup { g with queue := rest }) k e).mem ∧
    u.cores = (drained (s.setGroup { g with queue := rest }) k e).cores ∧
    ∃ ps, u.group? k = some { g with queue := rest, pend := ps } := by
  have hk : g.key = k := State.group?_key h
  have hput : (s.setGroup { g with queue := rest }).group? k = some { g with queue := rest } := setGroup_here h hk
  have hd := drainHead_store h hq (by rw [ho]; exact QOp.noConfusion)
  obtain ⟨ps, hps⟩ := meetLoads_group ((drained_group ho hp k).trans hput) _ (Flight.cells ⟨k, e, false⟩)
  have hexec : exec (.storeQueueDrain k) s = .next (tryRetire (drainStep s k) k) := rfl
  rw [hexec, drainStep_of_not_aloft ha, hd, meetCore, tryRetire_alive hps hl] at hu
  cases hu
  exact ⟨meetLoads_mem .., meetLoads_cores .., ps, hps⟩

end Sys2Proof.Machine
end

section
/-! SUPPORT. Who reads a stored value: its group from the queue and from the core order, then its home (08 R208; 15 R321, R325).
-/

namespace Sys2Proof.Machine

open Sys2Proof

/-! ### Where a store has gone -/

theorem drained_mem_near {s : State} {k : GKey} {e : QEntry} {l : List (Nat × Byte)} (ho : e.op = .bytes l) (hp : e.pend = none)
    (hf : e.op.far = false) : (drained s k e).mem = s.mem.sets l := by
  simp [drained, hf, performFor_bytes ho hp]

theorem drained_mem_far {s : State} {k : GKey} {e : QEntry} (hf : e.op.far = true) : (drained s k e).mem = s.mem := by
  simp [drained, hf]

theorem drained_flights {s : State} {k : GKey} {e : QEntry} (hf : e.op.far = true) (hc : k.core < s.cores.length) :
    ((drained s k e).core k.core).flights = (s.core k.core).flights ++ flightsOf s.poisoned k e := by
  rw [drained, if_pos hf, State.core_modCore_same hc]

theorem flightsOf_bytes {bad : Nat → Bool} {k : GKey} {e : QEntry} {l : List (Nat × Byte)} (ho : e.op = .bytes l) :
    ∀ f ∈ flightsOf bad k e, ∃ m, f.e.op = .bytes m := by
  intro f hf
  obtain ⟨op, hop, rfl⟩ := List.mem_map.mp hf
  exact parts_bytes (ho ▸ hop)

/-- The flights of a store write its cells in its order. -/
theorem flightsOf_cells {bad : Nat → Bool} {k : GKey} {e : QEntry} {l : List (Nat × Byte)} (ho : e.op = .bytes l) :
    (flightsOf bad k e).flatMap (fun f => f.e.op.cells) = l := by
  rw [flightsOf, List.flatMap_map, ho]
  exact parts_cells bad l

/-! ### Who reads a stored value -/

section
variable {a n v : Nat}

/-- A group reads the value of the last store in its queue. -/
theorem seenLoad_queued {t : State} {h : Group} {q : List QEntry} {e : QEntry} (hq : h.queue = q ++ [e])
    (ho : e.op = .bytes (valueAt a n v)) : seenLoad t h a n = v % 256 ^ n :=
  leNat_of_lastCell (f := seenByte t h) fun i b hb => by
    have hl : queuedByte h.queue (a + i) = some b := by
      simp [queuedByte, lastByte_eq, hq, List.flatMap_append, lastCell_append, ho, QOp.cells, hb]
    rw [seenByte, hl]; rfl

/-- A group with an empty queue reads the value of the last store on its way. -/
theorem seenLoad_flying {t : State} {h : Group} {fs : List Flight} {bad : Nat → Bool} {k : GKey} {e : QEntry}
    (hq : h.queue = []) (hf : (t.core h.key.core).flights = fs ++ flightsOf bad k e) (ho : e.op = .bytes (valueAt a n v)) :
    seenLoad t h a n = v % 256 ^ n :=
  leNat_of_lastCell (f := seenByte t h) fun i b hb => by
    have hl : lastByte ((t.core h.key.core).flights.map (·.e.op)) (a + i) = some b := by
      rw [lastByte_eq, hf, List.flatMap_map, List.flatMap_append, flightsOf_cells ho, lastCell_append, hb]; rfl
    rw [seenByte, hq, coreByte, hl]; rfl

/-- A memory to which the cells of a value have been written last loads it. -/
theorem load_of_mem {s : State} {m : Memory} (hm : m.wf = true) (h : s.mem = m.sets (valueAt a n v)) :
    s.load a n = v % 256 ^ n :=
  leNat_of_lastCell (f := s.byte) fun i b hb => by rw [State.byte, h, Memory.get_sets hm, hb]; rfl

/-- Outside the value such a memory reads as before. -/
theorem byte_of_mem {s : State} {m : Memory} (h : s.mem = m.sets (valueAt a n v)) {y : Nat} (hy : ¬(a ≤ y ∧ y < a + n)) :
    s.byte y = m.get y := by
  rw [State.byte, h, Memory.get_sets_other fun c hc (e : c.1 = y) => hy (e ▸ valueAt_mem hc)]

end

/-- Once all stores of a core have landed, the cells of the one that left last have been written last, after bytes that the others
name (15 R325). -/
theorem landAll_mem {s : State} {c : Nat} {fs : List Flight} {bad : Nat → Bool} {k : GKey} {e : QEntry}
    {l : List (Nat × Byte)} (hf : (s.core c).flights = fs ++ flightsOf bad k e) (ho : e.op = .bytes l) :
    ∃ m, WritesIn (fun a => ∃ f ∈ fs, f.e.op.covers a) s.mem m ∧ (landAll s c).mem = m.sets l := by
  refine ⟨_, foldl_landFlight_writes c fs s, ?_⟩
  rw [landAll, hf, List.foldl_append, foldl_landFlight_bytes c (flightsOf_bytes ho), flightsOf_cells ho]

/-- A store of bytes stands alone in the queue of a living group that has nothing on its way, and the queue drains. -/
structure DrainsAlone (t u : State) (g : Group) (e : QEntry) (l : List (Nat × Byte)) : Prop where
  here  : t.group? g.key = some g
  alive : g.allExited = false
  queue : g.queue = [e]
  bytes : e.op = .bytes l
  pend  : e.pend = none
  quiet : aloft t g.key = false
  drain : exec (.storeQueueDrain g.key) t = .next u

section
variable {t u : State} {g : Group} {e : QEntry} {a n v : Nat}

/-- A store of team shared memory stands in memory once it has been drained (08 R208). -/
theorem DrainsAlone.near (hd : DrainsAlone t u g e (valueAt a n v)) (hwf : t.mem.wf = true) (hf : e.op.far = false) :
    u.load a n = v % 256 ^ n ∧ ∀ y, ¬(a ≤ y ∧ y < a + n) → u.byte y = t.byte y := by
  obtain ⟨hmem, -, -⟩ := drain_store hd.here hd.alive hd.queue hd.bytes hd.pend hd.quiet hd.drain
  have hsets : u.mem = t.mem.sets (valueAt a n v) := hmem.trans (drained_mem_near hd.bytes hd.pend hf)
  exact ⟨load_of_mem hwf hsets, fun y => byte_of_mem hsets⟩

/-- A drained store of the scratchpad is seen by its group at once and stands in memory once the stores of its core have landed
(08 R208; 15 R325). -/
theorem DrainsAlone.far (hd : DrainsAlone t u g e (valueAt a n v)) (hwf : t.mem.wf = true) (hf : e.op.far = true)
    (hc : g.key.core < t.cores.length) :
    u.mem = t.mem ∧ (∃ h, u.group? g.key = some h ∧ seenLoad u h a n = v % 256 ^ n) ∧
    (landAll u g.key.core).load a n = v % 256 ^ n ∧
    ∀ y, ¬(a ≤ y ∧ y < a + n) → (∀ f ∈ (t.core g.key.core).flights, ¬f.e.op.covers y) →
      (landAll u g.key.core).byte y = t.byte y := by
  obtain ⟨hmem, hcores, ps, hu⟩ := drain_store hd.here hd.alive hd.queue hd.bytes hd.pend hd.quiet hd.drain
  have hsame : u.mem = t.mem := hmem.trans (drained_mem_far hf)
  have hfl : (u.core g.key.core).flights = (t.core g.key.core).flights ++ flightsOf t.poisoned g.key e := by
    rw [State.core, hcores]
    exact drained_flights (s := t.setGroup { g with queue := [] }) hf hc
  obtain ⟨m, hw, hsets⟩ := landAll_mem hfl hd.bytes
  have hm : m.wf = true := hw.wf (hsame ▸ hwf)
  refine ⟨hsame, ⟨_, hu, seenLoad_flying rfl hfl hd.bytes⟩, load_of_mem hm hsets, fun y hy hny => ?_⟩
  calc (landAll u g.key.core).byte y = m.get y := byte_of_mem hsets hy
    _ = u.mem.get y := hw.get fun ⟨f, hf, hcov⟩ => hny f hf hcov
    _ = t.byte y := by rw [hsame]; rfl

end

end Sys2Proof.Machine
end

section
/-! PROOFS. Memory reads the last write, and a stored value reads back.
-/

namespace Sys2Proof.Machine

open Sys2Proof

/-- Settles O51: a write gives the byte written last, the form is kept, and canonical memories that read alike are equal. -/
theorem memoryReadsLastWrite : Obligations.MemoryReadsLastWrite := by
  unfold Obligations.MemoryReadsLastWrite
  intro s h l
  refine ⟨Memory.sets_wf h, fun a => ?_, fun a n v => State.load_store_same h, fun t ht heq => Memory.eq_of_get ht h heq⟩
  rw [State.byte_store h, lastCell]
  cases l.reverse.find? fun c => c.1 == a <;> rfl

/-- Settles O50: the bytes of a store are the last in its group's queue, then on their way in their order, and the last that their
home receives. -/
theorem storeReadsBack : Obligations.StoreReadsBack := by
  unfold Obligations.StoreReadsBack
  rintro s t u g iss d a b m sz th x c rfl rfl hr hs hu hq hwf haloft hcore hok hth ht hdrain
  obtain ⟨htmem, htcores, h, hh, ha, hhq⟩ :=
    issue_store hr hs hu (a := fun x => accOf x m sz) hok (by simp [hth]) (size_bytes_pos sz) ht
  rw [hq, List.nil_append] at hhq
  generalize mkIns s g iss (.st d a b m sz) = x at *
  have hkey : h.key = g.key := State.group?_key hh
  have hcells : storeCells x (accOf x m sz) =
      valueAt (accAt x (accOf x m sz) th) (accOf x m sz).size (storeData x (accOf x m sz) th) := by simp [storeCells, hth]
  have hbytes : (storeEntry x (accOf x m sz)).op = .bytes _ := congrArg QOp.bytes hcells
  have hcore' : ∀ n, t.core n = s.core n := fun n => by rw [State.core, htcores]; rfl
  have hquiet : aloft t g.key = false := by rw [aloft, hcore']; exact haloft
  rw [← hkey] at hh hdrain hquiet hcore ⊢
  have hd : DrainsAlone t u h _ _ := ⟨hh, ha.allExited.trans hs.alive, hhq, hbytes, rfl, hquiet, hdrain⟩
  have hbyte : ∀ y, t.byte y = s.byte y := fun y => by rw [State.byte, htmem]; rfl
  have hwf' : t.mem.wf = true := htmem ▸ hwf
  refine ⟨⟨h, hh, seenLoad_queued (q := []) hhq hbytes⟩, fun hnear => ?_, fun hfar => ?_⟩
  · simpa only [hbyte] using hd.near hwf' (hbytes ▸ hnear)
  · simpa only [hbyte, hcore', htmem] using hd.far hwf' (hbytes ▸ hfar) (htcores ▸ hcore)

end Sys2Proof.Machine
end

section
/-! SUPPORT. What comes before and after a word's own description: ILLEGAL and the register faults (03 R88, R91), the rights that an
operation lacks (10 R261, R262), the sticky flags and FPTRAP (01 R22).
-/

namespace Sys2Proof.Machine

open Sys2Proof

/-! ### Register faults -/

/-- A word of a Derrov program executes by issuing. -/
theorem exec_eq_issue {i : Instr} (h : i.fields.isSome = true) : ∃ m, ∀ s, exec i s = issue i s m := by
  cases i <;> cases h <;> exact ⟨_, fun _ => rfl⟩

section
variable {g : Group} {x : Ins}

theorem registerFault_of_out {q : Int} (h : firstOut g x.i.shape = some q) : registerFault g x =
    some { x.perf 0x101 .none (wordOfInt q) (word g.allot) 0 x.act .none with csn := g.it.csn } := by
  simp only [registerFault, h]

theorem registerFault_of_align (ho : firstOut g x.i.shape = none) (h : alignFault x.i = true) : registerFault g x =
    some { x.perf 0x102 .none x.pc 0 0 x.act .none with csn := g.it.csn } := by
  simp only [registerFault, ho, h, if_true]

theorem registerFault_of_bad {r : Nat} (ho : firstOut g x.i.shape = none) (ha : alignFault x.i = false)
    (h : firstBad g (x.regs g) = some r) : registerFault g x = some (x.perf 0x106 .none 5 (word r) 0 x.act .none) := by
  simp only [registerFault, ho, ha, h, Bool.false_eq_true, if_false]

end

section
variable {s : State} {g : Group} {iss : Issue} {i : Instr} {p : Perf} (ha : s.cur = some (.group g.key))
  (hg : s.group? g.key = some g) (hi : g.cur = some iss) (hh : g.halted = false) (hp : g.pend.any (·.hold) = false)
  (hf : i.fields.isSome = true)
include ha hg hi hh hp hf

/-- A word that is not well formed performs ILLEGAL (03 R88). -/
theorem exec_illegal (hw : i.wf = false) : exec i s = .next (illegalWord s g iss) := by
  obtain ⟨m, hm⟩ := exec_eq_issue hf
  rw [hm, issue_illegal m ha hg hi hh hp hw]

/-- A word that performs REGBOUND or ALIGN keeps no CSN of its own. -/
theorem exec_nameFault (hw : i.wf = true) (hr : registerFault g (mkIns s g iss i) = some p)
    (hn : ((firstOut g i.shape).isSome || alignFault i) = true) : exec i s = .next (finish (mkIns s g iss i)
      ((mkIns s g iss i).s.modGroup g.key fun h => { h with it := { h.it with csn := g.it.csn } })
      (poisonFlag g (mkIns s g iss i)) [] fun t => perform t g.key g.loop [p]) := by
  obtain ⟨m, hm⟩ := exec_eq_issue hf
  simp only [hm, issue_faulty m ha hg hi hh hp hw hr, hn, if_true, mkIns_k, mkIns_key]

/-- A word that performs MEMPOISON has taken its CSN. -/
theorem exec_elementFault (hw : i.wf = true) (hr : registerFault g (mkIns s g iss i) = some p)
    (ho : firstOut g i.shape = none) (hal : alignFault i = false) : exec i s = .next (finish (mkIns s g iss i)
      ((mkIns s g iss i).s.modGroup g.key fun h => h) (poisonFlag g (mkIns s g iss i)) []
      fun t => perform t g.key g.loop [p]) := by
  obtain ⟨m, hm⟩ := exec_eq_issue hf
  simp only [hm, issue_faulty m ha hg hi hh hp hw hr, ho, hal, Option.isSome_none, Bool.or_self, Bool.false_eq_true, if_false,
    mkIns_k, mkIns_key]

end

/-! ### Rights -/

theorem entitled_of_lacking_none {x : Ins} {hs ws rs : List Nat} (h : lacking x hs ws rs = none) (f : Unit → Act) :
    entitled x hs ws rs f = f () := by
  rw [entitled, h]

theorem entitled_of_lacking_some {x : Ins} {hs ws rs : List Nat} {p : Perf} (h : lacking x hs ws rs = some p) (f : Unit → Act) :
    entitled x hs ws rs f = x.fail p := by
  rw [entitled, h]

/-- A bank that the group may not read is the first right that an operation on it alone lacks (10 R261). -/
theorem lacking_bank {x : Ins} {b : Nat} (h : (x.s.core x.k.core).readsBank x.own b = false) :
    lacking x [] [] [b] = some (x.perf 0x107 .none (word b) 0 0 x.act .none) := by
  rw [lacking]
  simp only [List.find?_nil, List.find?_cons, h, Bool.not_false]

/-! ### Sticky flags and FPTRAP -/

theorem getLsbD_trapBits (g : Group) (fl : BitVec 7) (i : Nat) :
    (g.trapBits fl).getLsbD i = (decide (i < 5) && fl.getLsbD i && g.it.fflags.getLsbD (8 + i)) := by
  by_cases hi : i < 5 <;> simp [Group.trapBits, enabledBits, hi]

/-- FFLAGS gains the raised bits and loses none (01 R22). -/
theorem getLsbD_merge (g : Group) (fl : BitVec 7) {i : Nat} (hi : i < 32) :
    (g.merge fl).it.fflags.getLsbD i = (g.it.fflags.getLsbD i || (decide (i < 7) && fl.getLsbD i)) := by
  rw [Group.merge, mergeBits, BitVec.getLsbD_or, BitVec.getLsbD_setWidth]
  by_cases h7 : i < 7
  · simp [hi, h7]
  · simp [BitVec.getLsbD_of_ge fl i (Nat.le_of_not_lt h7)]

/-- FFLAGS keeps bits 0 to 6 and 8 to 12 of what is written (01 R22). -/
theorem getLsbD_writeFflags (v : Word) {i : Nat} (hi : i < 32) :
    (writeFflags v).getLsbD i = (v.getLsbD i && (decide (i < 7) || (decide (8 ≤ i) && decide (i < 13)))) := by
  rw [writeFflags, BitVec.getLsbD_and]
  congr 1
  revert i; decide

/-- A raised condition that is enabled is one to perform. -/
theorem trapBits_ne_zero {g : Group} {fl : BitVec 7} {i : Nat} (hi : i < 5) (hf : fl.getLsbD i = true)
    (he : g.it.fflags.getLsbD (8 + i) = true) : g.trapBits fl ≠ 0#5 := fun h0 => by
  have hbit := getLsbD_trapBits g fl i
  simp [h0, hi, hf, he] at hbit

/-- FPTRAP of a word for enabled conditions (01 R22). -/
def trapOf (x : Ins) (bits : BitVec 5) : Perf := ⟨0x10A, .once, x.pc, x.csn, bits.setWidth 32, 0, 0, 0, x.act, .trap, none⟩

/-- Enabled conditions are performed once the results are written and the lanes stand at their next position (01 R22). -/
theorem finish_trapped {x : Ins} {s : State} {h : Group} {fl : Fl} (hh : s.group? x.k = some h) (hb : h.trapBits fl ≠ 0#5)
    (jumps : List (Mask × Pos)) : finish x s fl jumps id =
      settle (perform (s.setGroup (finishGroup x jumps (h.merge fl))) x.k x.g.loop [trapOf x (h.trapBits fl)]) x.k := by
  simp only [finish, hh, Option.map_some, Option.getD_some, hb, if_false, id_eq, finish_group hh, trapOf]

end Sys2Proof.Machine
end

section
/-! SUPPORT. What a register word leaves alone (01 R12, R22; 06 R150; 07 R168): frames compose, every part of an issue keeps one,
and each word of `Instr.writesD` and `Instr.writesP` writes its one register only.
-/

namespace Sys2Proof.Machine

open Sys2Proof

/-! ### Frames -/

theorem modAt_getD_other {α : Type} {l : List α} {i j : Nat} {f : α → α} {d : α} (h : i ≠ j) :
    (modAt l i f).getD j d = l.getD j d := by
  unfold modAt
  split
  · simp [List.getD_eq_getElem?_getD, List.getElem?_set_ne h]
  · rfl

/-- A register is what the list and the width make it. -/
theorem vreg_congr {g h : Group} (hr : h.regs = g.regs) (hw : h.wcode = g.wcode) (n : Nat) : h.vreg n = g.vreg n := by
  simp only [Group.vreg, Group.freshReg, Group.width, hr, hw]

theorem vreg_setVreg_other {g : Group} {p n : Nat} (h : p ≠ n) (r : VReg) : (g.setVreg p r).vreg n = g.vreg n := by
  simp [Group.vreg, Group.setVreg, setAt, List.getD_eq_getElem?_getD, List.getElem?_set_ne h, Group.freshReg, Group.width]

/-- A register put is the one read, where there is a register of its number. -/
theorem vreg_setVreg_same {g : Group} {p : Nat} (r : VReg) : (g.setVreg p r).vreg p = r ∨ (g.setVreg p r).vreg p = g.vreg p := by
  rcases Nat.lt_or_ge p g.regs.length with h | h
  · exact .inl (by simp [Group.vreg, Group.setVreg, setAt, List.getD_eq_getElem?_getD, h])
  · exact .inr (by simp [Group.vreg, Group.setVreg, setAt, List.set_eq_of_length_le h, Group.freshReg, Group.width])

end Sys2Proof.Machine

namespace Sys2Proof.Keeps

open Sys2Proof.Machine

variable {d : Dst} {p : Option (Fin 8)} {g h k : Group}

/-- A group that has changed in nothing that a frame speaks of but the flags it has gained. -/
theorem of_same (hregs : h.regs = g.regs) (hpreds : h.preds = g.preds)
    (hflags : ∃ fl : BitVec 7, h.it = { g.it with fflags := g.it.fflags ||| fl.setWidth 32 })
    (hplace : h.key = g.key ∧ h.team = g.team ∧ h.wcode = g.wcode ∧ h.parts = g.parts ∧ h.allot = g.allot ∧ h.born = g.born)
    (hwork : h.hidden = g.hidden ∧ h.pend.map Pend.fixed = g.pend.map Pend.fixed ∧ h.queue = g.queue ∧ h.late = g.late ∧
      h.ctxs = g.ctxs ∧ h.stale = g.stale ∧ h.halted = g.halted ∧ h.bpSkip = g.bpSkip)
    (hlanes : ∀ t, (h.lane t).st = (g.lane t).st ∧ (h.lane t).depth = (g.lane t).depth) : Keeps d p g h where
  vregs n _ := by
    obtain ⟨-, -, hw, -⟩ := hplace
    rw [vreg_congr hregs hw]
    exact ⟨rfl, rfl, rfl⟩
  sregs n _ := by
    obtain ⟨fl, hf⟩ := hflags
    rw [Group.sreg, hf]; rfl
  preds n _ := by
    obtain ⟨-, -, hw, -⟩ := hplace
    simp only [Group.pred, Group.full, Group.width, hpreds, hw]
  flags := by
    obtain ⟨fl, hf⟩ := hflags
    exact ⟨fl, by rw [hf]⟩
  items := by
    obtain ⟨fl, hf⟩ := hflags
    rw [hf]
  place := hplace
  work := hwork
  lanes := hlanes

theorem refl : Keeps d p g g :=
  of_same rfl rfl ⟨0, by simp⟩ ⟨rfl, rfl, rfl, rfl, rfl, rfl⟩ ⟨rfl, rfl, rfl, rfl, rfl, rfl, rfl, rfl⟩ fun _ => ⟨rfl, rfl⟩

/-- Frames compose. -/
theorem trans (a : Keeps d p g h) (b : Keeps d p h k) : Keeps d p g k where
  vregs n hn := by simpa only [a.vregs n hn] using b.vregs n hn
  sregs n hn := (b.sregs n hn).trans (a.sregs n hn)
  preds n hn := (b.preds n hn).trans (a.preds n hn)
  flags := by
    obtain ⟨fa, hfa⟩ := a.flags
    obtain ⟨fb, hfb⟩ := b.flags
    exact ⟨fa ||| fb, by rw [hfb, hfa, BitVec.setWidth_or, BitVec.or_assoc]⟩
  items := by rw [← a.items, ← b.items]
  place := by simpa only [a.place] using b.place
  work := by simpa only [a.work] using b.work
  lanes t := by simpa only [a.lanes t] using b.lanes t

/-- What leaves every register alone leaves those alone that a word does not write. -/
theorem weaken (a : Keeps .none none g h) : Keeps d p g h :=
  ⟨fun n _ => a.vregs n Dst.noConfusion, fun n _ => a.sregs n Dst.noConfusion, fun n _ => a.preds n (by simp), a.flags, a.items,
    a.place, a.work, a.lanes⟩

theorem key (a : Keeps d p g h) : h.key = g.key := a.place.1

/-- What joins and ends look at is left alone. -/
theorem alike (a : Keeps d p g h) : Alike g h := by
  obtain ⟨-, -, hw, -⟩ := a.place
  obtain ⟨-, -, -, -, hc, -⟩ := a.work
  have hi : { h.it with sregs := g.it.sregs, fflags := g.it.fflags } = g.it := a.items
  exact ⟨hc, hw, congrArg (·.callHt) hi, congrArg (·.frames) hi, fun t => (a.lanes t).1, fun t => (a.lanes t).2⟩

/-- The flags gained enable no condition. -/
theorem untrapped (a : Keeps d p g h) (hu : Untrapped g) : Untrapped h := by
  obtain ⟨fl, hf⟩ := a.flags
  have hfl : fl.setWidth 32 &&& 0x1F00#32 = 0#32 := by
    refine BitVec.eq_of_getLsbD_eq fun i _ => ?_
    rw [BitVec.getLsbD_and, BitVec.getLsbD_setWidth, BitVec.getLsbD_zero]
    rcases Nat.lt_or_ge i 7 with h7 | h7
    · rw [(by decide : ∀ i < 7, (0x1F00#32).getLsbD i = false) i h7, Bool.and_false]
    · rw [BitVec.getLsbD_of_ge fl i h7, Bool.and_false, Bool.false_and]
  have hu' : g.it.fflags &&& 0x1F00#32 = 0#32 := hu
  rw [Untrapped, hf, BitVec.and_comm, BitVec.and_or_distrib_left, BitVec.and_comm, hu', BitVec.and_comm, hfl, BitVec.or_zero]

/-! ### What writes a destination -/

theorem setVreg (g : Group) (n : Nat) (r : VReg) : Keeps (.vec n) none g (g.setVreg n r) where
  vregs m hm := by
    rw [vreg_setVreg_other fun h => hm (congrArg Dst.vec h)]
    exact ⟨rfl, rfl, rfl⟩
  sregs _ _ := rfl
  preds _ _ := rfl
  flags := ⟨0, by simp [Group.setVreg]⟩
  items := rfl
  place := ⟨rfl, rfl, rfl, rfl, rfl, rfl⟩
  work := ⟨rfl, rfl, rfl, rfl, rfl, rfl, rfl, rfl⟩
  lanes _ := ⟨rfl, rfl⟩

theorem writeVec (g : Group) (tick n : Nat) (m : LaneMap) (t : Mask) (f : Nat → Word) :
    Keeps (.vec n) none g (g.writeVec tick n m t f) := by
  unfold Group.writeVec
  split
  · exact refl
  · exact setVreg ..

theorem setSreg (g : Group) (n : Nat) (v : Word) : Keeps (.sca n) none g (g.setSreg n v) where
  vregs _ _ := ⟨rfl, rfl, rfl⟩
  sregs m hm := by
    have hne : n ≠ m := fun h => hm (congrArg Dst.sca h)
    simp [Group.sreg, Group.setSreg, setAt, List.getD_eq_getElem?_getD, List.getElem?_set_ne hne]
  preds _ _ := rfl
  flags := ⟨0, by simp [Group.setSreg]⟩
  items := rfl
  place := ⟨rfl, rfl, rfl, rfl, rfl, rfl⟩
  work := ⟨rfl, rfl, rfl, rfl, rfl, rfl, rfl, rfl⟩
  lanes _ := ⟨rfl, rfl⟩

theorem setPred (g : Group) (q : Fin 8) (b m : Mask) : Keeps .none (some q) g (g.setPred q.val b m) := by
  unfold Group.setPred
  split
  · exact refl
  · exact {
      vregs := fun _ _ => ⟨rfl, rfl, rfl⟩
      sregs := fun _ _ => rfl
      preds := fun n hn => by
        have hne : q.val ≠ n := fun h => hn (congrArg some h)
        simp only [Group.pred, Group.full, Group.width, modAt_getD_other hne]
      flags := ⟨0, by simp⟩
      items := rfl
      place := ⟨rfl, rfl, rfl, rfl, rfl, rfl⟩
      work := ⟨rfl, rfl, rfl, rfl, rfl, rfl, rfl, rfl⟩
      lanes := fun _ => ⟨rfl, rfl⟩ }

/-! ### What goes with the issue of every word -/

/-- A last mark takes the live bit of a register and no more (01 R15). -/
theorem unlive (g : Group) (n : Nat) : Keeps .none none g (g.setVreg n { g.vreg n with live := false }) :=
  { setVreg g n { g.vreg n with live := false } with
    vregs := fun m _ => by
      by_cases h : n = m
      · subst h
        obtain e | e := vreg_setVreg_same (g := g) (p := n) { g.vreg n with live := false } <;> rw [e] <;>
          exact ⟨rfl, rfl, rfl⟩
      · rw [vreg_setVreg_other h]; exact ⟨rfl, rfl, rfl⟩
    sregs := fun _ _ => rfl }

theorem clearLive (ps : List Nat) : ∀ g : Group, Keeps .none none g (clearLive g ps) := by
  induction ps with
  | nil => exact fun _ => refl
  | cons n ps ih => exact fun g => (unlive g n).trans (ih _)

/-- A value read early is fixed; nothing else of its instruction changes (15 R321). -/
theorem readEarly (g : Group) (tick : Nat) : Keeps .none none g (g.readEarly tick) := by
  refine of_same rfl rfl ⟨0, by simp [Group.readEarly]⟩ ⟨rfl, rfl, rfl, rfl, rfl, rfl⟩ ⟨rfl, ?_, rfl, rfl, rfl, rfl, rfl, rfl⟩
    fun _ => ⟨rfl, rfl⟩
  rw [Group.readEarly, List.map_map]
  refine List.map_congr_left fun q _ => ?_
  simp only [Function.comp_apply]
  split <;> rfl

theorem merge (g : Group) (fl : BitVec 7) : Keeps .none none g (g.merge fl) :=
  of_same rfl rfl ⟨fl, rfl⟩ ⟨rfl, rfl, rfl, rfl, rfl, rfl⟩ ⟨rfl, rfl, rfl, rfl, rfl, rfl, rfl, rfl⟩ fun _ => ⟨rfl, rfl⟩

theorem finishGroup (x : Ins) (js : List (Mask × Pos)) (g : Group) : Keeps .none none g (finishGroup x js g) :=
  of_same (finishGroup_regs ..) (finishGroup_preds ..) ⟨0, by simp⟩
    ⟨finishGroup_key .., finishGroup_team .., finishGroup_keeps (·.wcode) (fun _ _ _ _ _ _ => rfl) ..,
      finishGroup_keeps (·.parts) (fun _ _ _ _ _ _ => rfl) .., finishGroup_keeps (·.allot) (fun _ _ _ _ _ _ => rfl) ..,
      finishGroup_keeps (·.born) (fun _ _ _ _ _ _ => rfl) ..⟩
    ⟨finishGroup_keeps (·.hidden) (fun _ _ _ _ _ _ => rfl) .., by rw [finishGroup_pend], finishGroup_queue .., finishGroup_late ..,
      finishGroup_ctxs .., finishGroup_keeps (·.stale) (fun _ _ _ _ _ _ => rfl) ..,
      finishGroup_keeps (·.halted) (fun _ _ _ _ _ _ => rfl) .., finishGroup_keeps (·.bpSkip) (fun _ _ _ _ _ _ => rfl) ..⟩
    fun t => ⟨(Alike.finishGroup x js g).st t, (Alike.finishGroup x js g).depth t⟩

theorem leaveLoop (g : Group) : Keeps .none none g g.leaveLoop :=
  of_same rfl rfl ⟨0, by simp⟩ ⟨rfl, rfl, rfl, rfl, rfl, rfl⟩ ⟨rfl, rfl, rfl, rfl, rfl, rfl, rfl, rfl⟩ fun _ => ⟨rfl, rfl⟩

end Sys2Proof.Keeps

namespace Sys2Proof.Machine

open Sys2Proof

/-- A word that takes no CSN leaves it alone (01 R23). -/
theorem mkIns_csn {i : Instr} (h : i.sequenced = false) (s : State) (g : Group) (iss : Issue) :
    (mkIns s g iss i).g.it.csn = g.it.csn := by
  simp [mkIns, h]

/-- Reading its operands, a word that takes no CSN takes last-marked registers and no more (03 R73). -/
theorem keeps_afterReads {i : Instr} (h : i.sequenced = false) (s : State) (g : Group) (iss : Issue) :
    Keeps .none none g (afterReads s g iss i) := by
  rw [afterReads, mkIns_csn h]
  exact (Keeps.clearLive _ g).trans (.readEarly ..)

/-! ### Words that write one register -/

/-- The act changes the state only in the word's group, and that only in D or in one predicate. -/
def WritesOnly (s : State) (g : Group) (d : Dst) (p : Option (Fin 8)) (a : Act) : Prop :=
  ∃ h fl, a = .done (s.setGroup h) fl ∧ Keeps d p g h

theorem writesOnly_same {s : State} {g : Group} (iss : Issue) {i : Instr} (hq : i.sequenced = false) {d : Dst}
    {p : Option (Fin 8)} (fl : Fl) : WritesOnly s g d p (.done (mkIns s g iss i).s fl) :=
  ⟨afterReads s g iss i, fl, rfl, (keeps_afterReads hq s g iss).weaken⟩

/-- A steady group whose word writes one register is left with that register written, its lanes moved on, flags gained. -/
theorem frame_of_writesOnly {s t : State} {g : Group} {iss : Issue} {i : Instr} {m : Ins → Act} {d : Dst} {p : Option (Fin 8)}
    (hr : Ready s g iss i) (hs : Steady g) (hu : Untrapped g) (hm : WritesOnly s g d p (m (mkIns s g iss i)))
    (ht : issue i s m = .next t) : ∃ h, t = s.setGroup h ∧ Keeps d p g h := by
  obtain ⟨h, fl, ha, hk⟩ := hm
  have hh : (s.setGroup h).group? (mkIns s g iss i).k = some h := by
    rw [mkIns_k, mkIns_key]; exact setGroup_here hr.here hk.key
  rw [issue_act hr ha, issues, finish_untrapped hh hk.alike hs (hk.untrapped hu)] at ht
  cases ht
  have hf := ((Keeps.merge h (fl ||| poisonFlag g (mkIns s g iss i))).trans
    (.finishGroup (mkIns s g iss i) [] _)).trans (.leaveLoop _)
  exact ⟨_, State.setGroup_setGroup hf.key.symm, hk.trans hf.weaken⟩

section
variable {s : State} {g : Group} (hg : s.group? g.key = some g) (iss : Issue) {i : Instr} (hq : i.sequenced = false)
include hg hq

/-- A change of the group that writes one register, of a word that takes no CSN. -/
theorem writesOnly_mod {d : Dst} {p : Option (Fin 8)} {f : Group → Group} (hf : ∀ h, Keeps d p h (f h)) (fl : Fl) :
    WritesOnly s g d p (.done ((mkIns s g iss i).mod f) fl) := by
  refine ⟨f (afterReads s g iss i), fl, ?_, (keeps_afterReads hq s g iss).weaken.trans (hf _)⟩
  rw [Ins.mod, State.modGroup_eq f (mkIns_group hg iss i), mkIns_s, State.setGroup_setGroup (hf _).key.symm]

theorem writesOnly_putVec (m : LaneMap) (f : Nat → Word) :
    WritesOnly s g (mkIns s g iss i).dst none (.done (putVec (mkIns s g iss i) m f)) := by
  unfold putVec
  cases hd : (mkIns s g iss i).dst with
  | vec n => exact writesOnly_mod hg iss hq (fun _ => .writeVec ..) _
  | sca n => exact writesOnly_same iss hq _
  | none => exact writesOnly_same iss hq _

theorem writesOnly_putElem (m : LaneMap) (f : Nat → Word) (fl : Fl) :
    WritesOnly s g (mkIns s g iss i).dst none (.done (putElem (mkIns s g iss i) m f) fl) := by
  unfold putElem
  cases hd : (mkIns s g iss i).dst with
  | vec n => exact writesOnly_mod hg iss hq (fun _ => .writeVec ..) _
  | sca n => exact writesOnly_mod hg iss hq (fun _ => .setSreg ..) _
  | none => exact writesOnly_same iss hq _

theorem writesOnly_elem (third : Bool) (op : Word → Word → Word → Word × Fl) :
    WritesOnly s g (mkIns s g iss i).dst none (elem (mkIns s g iss i) third op) := writesOnly_putElem hg iss hq ..

theorem writesOnly_compare (p : Fin 8) (op : Word → Word → Bool × Fl) :
    WritesOnly s g .none (some p) (compare (mkIns s g iss i) p op) := writesOnly_mod hg iss hq (fun _ => .setPred ..) _

end

theorem sequenced_of_writesD {i : Instr} (h : i.writesD = true) : i.sequenced = false := by
  cases i <;> cases h <;> rfl

theorem sequenced_of_writesP {i : Instr} {p : Fin 8} (h : i.writesP = some p) : i.sequenced = false := by
  cases i <;> cases h <;> rfl

/-- A scalar destination is written by its name, and z discards (03 R77). -/
theorem putScalar_keeps {d : Dst} (r : Reg) (v : Word) (h : Group) (hd : ∀ n, r = .s n → d = .sca n.val) :
    Keeps d none h (putScalar r v h) := by
  cases r with
  | s n => rw [hd n rfl]; exact .setSreg ..
  | _ => exact .refl

section
variable {s : State} {g : Group} (hg : s.group? g.key = some g) (iss : Issue)
include hg

/-- The scalar forms of MOV write the scalar register that D names (05 R137). -/
theorem writesOnly_movScalar {d a : Reg} {b : BitVec 7} {form : MovForm}
    (hd : ∀ n, d = .s n → (mkIns s g iss (.mov d a b form)).dst = .sca n.val) (v : Word) :
    WritesOnly s g (mkIns s g iss (.mov d a b form)).dst none (.done ((mkIns s g iss (.mov d a b form)).mod (putScalar d v))) :=
  writesOnly_mod hg iss rfl (fun h => putScalar_keeps d v h hd) _

theorem execMov_writesD (d a : Reg) (b : BitVec 7) (form : MovForm) :
    ∃ m, exec (.mov d a b form) s = issue (.mov d a b form) s m ∧
      WritesOnly s g (mkIns s g iss (.mov d a b form)).dst none (m (mkIns s g iss (.mov d a b form))) := by
  refine ⟨_, rfl, ?_⟩
  cases form with
  | vv => exact writesOnly_putVec hg iss rfl ..
  | vs => exact writesOnly_putVec hg iss rfl ..
  | vsp => exact writesOnly_putVec hg iss rfl ..
  | sv => exact writesOnly_movScalar hg iss (by rintro n rfl; rfl) _
  | ss => exact writesOnly_movScalar hg iss (by rintro n rfl; rfl) _
  | ssp =>
    dsimp only
    split
    · split
      · exact writesOnly_movScalar hg iss (by rintro n rfl; rfl) _
      · exact writesOnly_same iss rfl _
    · exact writesOnly_movScalar hg iss (by rintro n rfl; rfl) _

theorem execSel_writesD (d a b : Reg) (ind : Bool) (p : Fin 8) :
    ∃ m, exec (.sel d a b ind p) s = issue (.sel d a b ind p) s m ∧
      WritesOnly s g (mkIns s g iss (.sel d a b ind p)).dst none (m (mkIns s g iss (.sel d a b ind p))) := by
  refine ⟨_, rfl, ?_⟩
  dsimp only
  split
  · exact writesOnly_putElem hg iss rfl ..
  · split
    · exact writesOnly_putElem hg iss rfl ..
    · exact writesOnly_same iss rfl _

/-- A word of `writesD` writes D as it issues and nothing else. -/
theorem writesOnly_of_writesD {i : Instr} (h : i.writesD = true) :
    ∃ m, exec i s = issue i s m ∧ WritesOnly s g (mkIns s g iss i).dst none (m (mkIns s g iss i)) := by
  have hq := sequenced_of_writesD h
  cases i <;> cases h
  case mov => exact execMov_writesD hg iss ..
  case sel => exact execSel_writesD hg iss ..
  case frow fn => cases fn <;> exact ⟨_, rfl, writesOnly_elem hg iss hq ..⟩
  case shfx | mapId | shfi => exact ⟨_, rfl, writesOnly_putVec hg iss hq ..⟩
  all_goals exact ⟨_, rfl, writesOnly_elem hg iss hq ..⟩

/-- A word of `writesP` writes one predicate as it issues and nothing else. -/
theorem writesOnly_of_writesP {i : Instr} {p : Fin 8} (h : i.writesP = some p) :
    ∃ m, exec i s = issue i s m ∧ WritesOnly s g .none (some p) (m (mkIns s g iss i)) := by
  have hq := sequenced_of_writesP h
  cases i <;> cases h
  case plog => exact ⟨_, rfl, writesOnly_mod hg iss hq (fun _ => .setPred ..) _⟩
  all_goals exact ⟨_, rfl, writesOnly_compare hg iss hq ..⟩

end

end Sys2Proof.Machine
end

section
/-! SUPPORT. Lane maps as affine functions over GF(2) (01 R28, R29; 06 R145): composition, the identity, descriptors.
-/

namespace Sys2Proof.Machine.LaneMap

open Sys2Proof

/-! ### Products over GF(2) -/

/-- Counting bits by parity is additive, whatever has been counted. -/
theorem foldl_bne_xor (x y : BitVec 7) (l : List Nat) : ∀ a b : Bool,
    l.foldl (fun acc j => acc != (x ^^^ y).getLsbD j) (a != b) =
      (l.foldl (fun acc j => acc != x.getLsbD j) a != l.foldl (fun acc j => acc != y.getLsbD j) b) := by
  induction l with
  | nil => exact fun _ _ => rfl
  | cons j l ih =>
    intro a b
    simp only [List.foldl_cons]
    rw [← ih, BitVec.getLsbD_xor]
    congr 1
    cases a <;> cases b <;> cases x.getLsbD j <;> cases y.getLsbD j <;> rfl

theorem parity_xor (x y : BitVec 7) : parity (x ^^^ y) = (parity x ^^ parity y) := foldl_bne_xor x y _ false false

theorem parity_zero : parity 0#7 = false := rfl

theorem parity_and_xor (r x y : BitVec 7) : parity (r &&& (x ^^^ y)) = (parity (r &&& x) ^^ parity (r &&& y)) := by
  rw [← parity_xor]
  congr 1
  ext i
  simp [Bool.and_xor_distrib_left]

theorem parity_xor_and (x y t : BitVec 7) : parity ((x ^^^ y) &&& t) = (parity (x &&& t) ^^ parity (y &&& t)) := by
  simpa only [BitVec.and_comm t] using parity_and_xor t x y

/-- The parity of bits of which at most one is set is that bit. -/
theorem foldl_bne_single {f : Nat → Bool} {k : Nat} (h : ∀ j, j ≠ k → f j = false) (n : Nat) :
    (List.range n).foldl (fun acc j => acc != f j) false = (decide (k < n) && f k) := by
  induction n with
  | zero => simp only [List.range_zero, List.foldl_nil, Nat.not_lt_zero, decide_false, Bool.false_and]
  | succ n ih =>
    rw [List.range_succ, List.foldl_append, ih, List.foldl_cons, List.foldl_nil]
    rcases Nat.lt_trichotomy k n with hk | rfl | hk
    · rw [h n (Nat.ne_of_gt hk), decide_eq_true hk, decide_eq_true (Nat.lt_succ_of_lt hk), Bool.bne_false]
    · rw [decide_eq_false (Nat.lt_irrefl k), decide_eq_true (Nat.lt_succ_self k), Bool.false_and, Bool.true_and, Bool.false_bne]
    · rw [h n (Nat.ne_of_lt hk), decide_eq_false (Nat.lt_asymm hk), decide_eq_false (Nat.not_lt.mpr hk), Bool.false_and,
        Bool.bne_false]

theorem getLsbD_one_shiftLeft (k j : Nat) : (1#7 <<< k).getLsbD j = (decide (j < 7) && decide (j = k)) := by
  rw [BitVec.getLsbD_shiftLeft, BitVec.getLsbD_one]
  rcases Nat.lt_trichotomy j k with h | rfl | h
  · rw [decide_eq_true h, decide_eq_false (Nat.ne_of_lt h), Bool.not_true, Bool.and_false, Bool.false_and]
  · rw [decide_eq_false (Nat.lt_irrefl j), Nat.sub_self]; simp
  · rw [decide_eq_false (Nat.ne_of_gt h), decide_eq_false (Nat.sub_ne_zero_of_lt h), Bool.and_false, Bool.and_false,
      Bool.and_false]

/-- The product of a row with a single bit is the row's bit there. -/
theorem parity_and_bit (r : BitVec 7) (k : Nat) : parity (r &&& 1#7 <<< k) = r.getLsbD k := by
  rcases Nat.lt_or_ge k 7 with hk | hk
  · refine (foldl_bne_single (k := k) (fun j hj => ?_) 7).trans ?_
    · rw [BitVec.getLsbD_and, getLsbD_one_shiftLeft, decide_eq_false hj, Bool.and_false, Bool.and_false]
    · rw [BitVec.getLsbD_and, getLsbD_one_shiftLeft, decide_eq_true hk, decide_eq_true rfl, Bool.true_and, Bool.and_true,
        Bool.and_true]
  · rw [BitVec.shiftLeft_eq_zero hk, BitVec.and_zero, BitVec.getLsbD_of_ge _ _ hk, parity_zero]

/-- The product of rows that stand at the bits from `k` on, joined to `acc`. -/
def mulVecFrom (k : Nat) (rows : List (BitVec 7)) (t acc : BitVec 7) : BitVec 7 :=
  (rows.zipIdx k).foldl (fun acc ri => if parity (ri.1 &&& t) then acc ||| (1#7 <<< ri.2) else acc) acc

theorem mulVec_eq (rows : List (BitVec 7)) (t : BitVec 7) : mulVec rows t = mulVecFrom 0 rows t 0#7 := rfl

theorem getLsbD_mulVecFrom (t : BitVec 7) (i : Nat) (rows : List (BitVec 7)) : ∀ (k : Nat) (acc : BitVec 7),
    (mulVecFrom k rows t acc).getLsbD i =
      (acc.getLsbD i || (decide (k ≤ i) && decide (i < 7) && (rows[i - k]?).any fun r => parity (r &&& t))) := by
  induction rows with
  | nil => intro k acc; simp [mulVecFrom]
  | cons r rows ih =>
    intro k acc
    have hstep : mulVecFrom k (r :: rows) t acc =
      mulVecFrom (k + 1) rows t (if parity (r &&& t) then acc ||| 1#7 <<< k else acc) := rfl
    rw [hstep, ih]
    rcases Nat.lt_trichotomy i k with h | rfl | h
    · cases parity (r &&& t) <;> simp [show ¬k ≤ i by omega, show ¬k + 1 ≤ i by omega, BitVec.getLsbD_shiftLeft, h]
    · cases hp : parity (r &&& t) <;> simp [hp, show ¬i + 1 ≤ i by omega]
    · obtain ⟨j, rfl⟩ : ∃ j, i = k + 1 + j := ⟨i - (k + 1), by omega⟩
      have hi : k + 1 + j - k = j + 1 := by omega
      cases parity (r &&& t) <;> simp [BitVec.getLsbD_shiftLeft, hi, show k ≤ k + 1 + j by omega]

/-- Bit `i` of a product is the product with row `i`. -/
theorem getLsbD_mulVec (rows : List (BitVec 7)) (t : BitVec 7) (i : Nat) :
    (mulVec rows t).getLsbD i = (decide (i < 7) && (rows[i]?).any fun r => parity (r &&& t)) := by
  rw [mulVec_eq, getLsbD_mulVecFrom]; simp

/-- The bits of a product do not meet, so that its rows may be added one by one. -/
theorem mulVecFrom_cons (k : Nat) (r : BitVec 7) (rows : List (BitVec 7)) (t : BitVec 7) :
    mulVecFrom k (r :: rows) t 0#7 = (if parity (r &&& t) then 1#7 <<< k else 0#7) ^^^ mulVecFrom (k + 1) rows t 0#7 := by
  refine BitVec.eq_of_getLsbD_eq fun i hi => ?_
  rw [BitVec.getLsbD_xor, getLsbD_mulVecFrom, getLsbD_mulVecFrom]
  rcases Nat.lt_trichotomy i k with h | rfl | h
  · cases parity (r &&& t) <;> simp [show ¬k ≤ i by omega, show ¬k + 1 ≤ i by omega, BitVec.getLsbD_shiftLeft, h]
  · cases hp : parity (r &&& t) <;> simp [hp, hi, show ¬i + 1 ≤ i by omega]
  · obtain ⟨j, rfl⟩ : ∃ j, i = k + 1 + j := ⟨i - (k + 1), by omega⟩
    have hij : k + 1 + j - k = j + 1 := by omega
    cases parity (r &&& t) <;> simp [hij, hi, show k ≤ k + 1 + j by omega]

/-- The combination of rows that bits of `r` from `k` on select, added to `acc`. -/
def mulRowFrom (k : Nat) (r : BitVec 7) (s : List (BitVec 7)) (acc : BitVec 7) : BitVec 7 :=
  (s.zipIdx k).foldl (fun acc sj => if r.getLsbD sj.2 then acc ^^^ sj.1 else acc) acc

theorem mulRow_eq (r : BitVec 7) (s : List (BitVec 7)) : mulRow r s = mulRowFrom 0 r s 0#7 := rfl

theorem parity_mulRowFrom (r t : BitVec 7) (s : List (BitVec 7)) : ∀ (k : Nat) (acc : BitVec 7),
    parity (mulRowFrom k r s acc &&& t) = (parity (acc &&& t) ^^ parity (r &&& mulVecFrom k s t 0#7)) := by
  induction s with
  | nil => intro k acc; simp [mulRowFrom, mulVecFrom, parity_zero]
  | cons s0 s ih =>
    intro k acc
    have hstep : mulRowFrom k r (s0 :: s) acc = mulRowFrom (k + 1) r s (if r.getLsbD k then acc ^^^ s0 else acc) := rfl
    rw [hstep, ih, mulVecFrom_cons, parity_and_xor, ← Bool.xor_assoc]
    congr 1
    cases hr : r.getLsbD k <;> cases hs : parity (s0 &&& t) <;>
      simp [parity_zero, parity_and_bit, hr, parity_xor_and, hs]

/-- The product with a combination of rows: (r·S)·t = r·(S·t). -/
theorem parity_mulRow (r t : BitVec 7) (s : List (BitVec 7)) : parity (mulRow r s &&& t) = parity (r &&& mulVec s t) := by
  rw [mulRow_eq, mulVec_eq, parity_mulRowFrom, BitVec.zero_and, parity_zero, Bool.false_xor]

theorem mulVec_xor (rows : List (BitVec 7)) (x y : BitVec 7) : mulVec rows (x ^^^ y) = mulVec rows x ^^^ mulVec rows y := by
  refine BitVec.eq_of_getLsbD_eq fun i hi => ?_
  simp only [BitVec.getLsbD_xor, getLsbD_mulVec, hi, decide_true, Bool.true_and]
  cases rows[i]? with
  | none => rfl
  | some r => exact parity_and_xor r x y

/-- (A·S)·t = A·(S·t). -/
theorem mulVec_mulRow (rows s : List (BitVec 7)) (t : BitVec 7) :
    mulVec (rows.map fun r => mulRow r s) t = mulVec rows (mulVec s t) := by
  refine BitVec.eq_of_getLsbD_eq fun i hi => ?_
  simp only [getLsbD_mulVec, List.getElem?_map, Option.any_map, parity_mulRow]

/-- Under a composed map a thread reads what the shuffled thread read (06 R145). -/
theorem compose_at (m : LaneMap) (s : List (BitVec 7)) (c : BitVec 7) (t : Nat) :
    (m.compose s c).at_ t = m.at_ (shuffled (s, c) t) := by
  simp only [at_, compose, shuffled, BitVec.ofNat_toNat, BitVec.setWidth_eq, mulVec_mulRow, mulVec_xor, BitVec.xor_assoc]

/-- The rows of the identity leave a thread number below the width alone. -/
theorem mulVec_idRows {n : Nat} {x : BitVec 7} (h : x.toNat < 2 ^ n) : mulVec (idRows n) x = x := by
  refine BitVec.eq_of_getLsbD_eq fun i hi => ?_
  rw [getLsbD_mulVec]
  rcases Nat.lt_or_ge i n with hin | hin
  · simp [idRows, hin, hi, BitVec.and_comm _ x, parity_and_bit]
  · have : x.getLsbD i = false := by
      rw [BitVec.getLsbD, Nat.testBit_lt_two_pow (Nat.lt_of_lt_of_le h (Nat.pow_le_pow_right (by decide) hin))]
    simp [idRows, this, hin]

theorem ident_at {code t : Nat} (hc : code ≤ 4) (ht : t < 2 ^ (code + 3)) : (ident code).at_ t = t := by
  have h7 : t < 2 ^ 7 := Nat.lt_of_lt_of_le ht (Nat.pow_le_pow_right (by decide) (by omega))
  have hn : (BitVec.ofNat 7 t).toNat = t := by rw [BitVec.toNat_ofNat, Nat.mod_eq_of_lt h7]
  have hm : mulVec (ident code).rows (BitVec.ofNat 7 t) = BitVec.ofNat 7 t := mulVec_idRows (hn.symm ▸ ht)
  rw [at_, hm, ident, BitVec.xor_zero, hn]

theorem isIdent_iff {m : LaneMap} : m.isIdent = true ↔ m = ident m.code := by
  obtain ⟨code, rows, b⟩ := m
  simp [isIdent, ident]

/-! ### Descriptors -/

/-- Packing from bit 7k on, added to what has been packed. -/
theorem packRows_from (rows : List (BitVec 7)) : ∀ k acc,
    (rows.zipIdx k).foldl (fun acc ri => acc + ri.1.toNat * 2 ^ (7 * ri.2)) acc = acc + 2 ^ (7 * k) * packRows rows := by
  induction rows with
  | nil => intro k acc; simp [packRows]
  | cons r rows ih =>
    intro k acc
    rw [packRows, List.zipIdx_cons, List.zipIdx_cons, List.foldl_cons, List.foldl_cons, ih, ih,
      show 2 ^ (7 * (k + 1)) = 2 ^ (7 * k) * 128 by rw [Nat.mul_add, Nat.pow_add]]
    simp only [Nat.zero_add, Nat.mul_zero, Nat.mul_one, Nat.pow_zero, Nat.mul_add, Nat.mul_assoc, Nat.add_assoc,
      Nat.mul_comm r.toNat, Nat.one_mul, Nat.reducePow]

theorem packRows_cons (r : BitVec 7) (rows : List (BitVec 7)) : packRows (r :: rows) = r.toNat + 128 * packRows rows := by
  rw [packRows, List.zipIdx_cons, List.foldl_cons, packRows_from]; simp

theorem packRows_lt (rows : List (BitVec 7)) : packRows rows < 128 ^ rows.length := by
  induction rows with
  | nil => simp [packRows]
  | cons r rows ih =>
    have hr := r.isLt
    rw [packRows_cons, List.length_cons, Nat.pow_succ']
    omega

/-- A row of the packed rows, whatever stands above them. -/
theorem packRows_row (rows : List (BitVec 7)) : ∀ n i y, rows.length ≤ n → i < n →
    (packRows rows + 128 ^ n * y) / 128 ^ i % 128 = (rows.getD i 0#7).toNat := by
  induction rows with
  | nil =>
    intro n i y _ hi
    obtain ⟨j, rfl⟩ := Nat.exists_eq_add_of_lt hi
    rw [show 128 ^ (i + j + 1) * y = 128 ^ i * (128 * (128 ^ j * y)) by rw [Nat.pow_succ, Nat.pow_add]; ac_rfl]
    show (0 + 128 ^ i * (128 * (128 ^ j * y))) / 128 ^ i % 128 = 0
    rw [Nat.zero_add, Nat.mul_div_cancel_left _ (Nat.pow_pos (by decide)), Nat.mul_mod_right]
  | cons r rows ih =>
    intro n i y hl hi
    obtain ⟨n, rfl⟩ : ∃ k, n = k + 1 := ⟨n - 1, by omega⟩
    have he : packRows (r :: rows) + 128 ^ (n + 1) * y = r.toNat + 128 * (packRows rows + 128 ^ n * y) := by
      rw [packRows_cons, Nat.pow_succ', Nat.mul_add, Nat.mul_assoc, Nat.add_assoc]
    have hr := r.isLt
    rw [he]
    cases i with
    | zero =>
      rw [Nat.pow_zero, Nat.div_one, List.getD_cons_zero]
      omega
    | succ i =>
      rw [Nat.pow_succ', ← Nat.div_div_eq_div_mul, show (r.toNat + 128 * (packRows rows + 128 ^ n * y)) / 128 =
        packRows rows + 128 ^ n * y by omega]
      exact ih n i y (by simpa using hl) (by omega)

section
variable {m : LaneMap} (h : LaneMapFits m)
include h

theorem rows_length_le : m.rows.length ≤ 7 := by
  have := h.code
  rw [h.size]; omega

theorem packRows_lt_of_fits : packRows m.rows < 2 ^ 49 :=
  Nat.lt_of_lt_of_le (packRows_lt m.rows) (Nat.pow_le_pow_right (n := 128) (by decide) (rows_length_le h))

/-- What stands above the rows in a descriptor: b, the width code, the identity bit (01 R28). -/
theorem descriptor_toNat : m.descriptor.toNat =
    packRows m.rows + 128 ^ 7 * (m.b.toNat + 2 ^ 7 * (m.code + 2 ^ 7 * m.isIdent.toNat)) := by
  have hp := packRows_lt_of_fits h
  have hc := h.code
  have hb := m.b.isLt
  rw [descriptor, BitVec.toNat_ofNat]
  cases m.isIdent <;> simp <;> omega

theorem rowOf_descriptor {i : Nat} (hi : i < 7) : rowOf m.descriptor i = m.rows.getD i 0#7 := by
  refine BitVec.eq_of_toNat_eq ?_
  rw [rowOf, BitVec.extractLsb'_toNat, descriptor_toNat h, Nat.shiftRight_eq_div_pow, Nat.pow_mul]
  exact packRows_row m.rows 7 i _ (rows_length_le h) hi

theorem offset_descriptor : m.descriptor.extractLsb' 49 7 = m.b := by
  have hp := packRows_lt_of_fits h
  have hb := m.b.isLt
  refine BitVec.eq_of_toNat_eq ?_
  rw [BitVec.extractLsb'_toNat, descriptor_toNat h, Nat.shiftRight_eq_div_pow]
  omega

theorem code_descriptor : (m.descriptor.extractLsb' 56 3).toNat = m.code := by
  have hp := packRows_lt_of_fits h
  have hb := m.b.isLt
  have hc := h.code
  rw [BitVec.extractLsb'_toNat, descriptor_toNat h, Nat.shiftRight_eq_div_pow]
  omega

theorem reserved_descriptor : m.descriptor.extractLsb' 59 4 = 0#4 := by
  have hp := packRows_lt_of_fits h
  have hb := m.b.isLt
  have hc := h.code
  refine BitVec.eq_of_toNat_eq ?_
  rw [BitVec.extractLsb'_toNat, descriptor_toNat h, Nat.shiftRight_eq_div_pow, BitVec.toNat_ofNat]
  omega

/-- The identity bit stands exactly at the identity (01 R29). -/
theorem identBit_descriptor : m.descriptor.getLsbD 63 = m.isIdent := by
  have hp := packRows_lt_of_fits h
  have hb := m.b.isLt
  have hc := h.code
  rw [BitVec.getLsbD, descriptor_toNat h, Nat.testBit_eq_decide_div_mod_eq]
  cases m.isIdent <;> simp <;> omega

/-- A descriptor read at its width gives the map (01 R28). -/
theorem ofDescriptor_descriptor : ofDescriptor m.descriptor m.code = m := by
  have hrows : (List.range (bits m.code)).map (rowOf m.descriptor) = m.rows := by
    refine List.ext_getElem (by simp [bits, h.size]) fun i hi hi' => ?_
    have := rows_length_le h
    simp [rowOf_descriptor h (Nat.lt_of_lt_of_le hi' this), hi']
  rw [ofDescriptor, hrows, offset_descriptor h]

theorem wellFormed_descriptor : wellFormed m.descriptor m.code = true := by
  have hrows : ∀ i < 7, (if i < bits m.code then decide ((rowOf m.descriptor i).toNat < 2 ^ bits m.code)
      else rowOf m.descriptor i == 0#7) = true := by
    intro i hi
    rw [rowOf_descriptor h hi]
    split
    · next hb =>
      have hl : i < m.rows.length := h.size ▸ hb
      simpa [hl, bits] using h.rows _ (List.getElem_mem hl)
    · next hb =>
      have hl : m.rows.length ≤ i := h.size ▸ Nat.le_of_not_lt hb
      simp [hl]
  simp only [wellFormed, code_descriptor h, reserved_descriptor h, offset_descriptor h, identBit_descriptor h,
    ofDescriptor_descriptor h, beq_self_eq_true, Bool.true_and, Bool.and_true, Bool.not_or_self, Bool.and_eq_true,
    decide_eq_true_eq]
  exact ⟨List.all_eq_true.mpr fun i hi => by simpa using hrows i (List.mem_range.mp hi), h.off⟩

end

end Sys2Proof.Machine.LaneMap
end

section
/-! SUPPORT. The steps of a group without a word (95), the phases of barrier registers (01 R31), the state after reset (01 R12), and
registers that read by rule (01 R15, R18).
-/

namespace Sys2Proof.Machine

open Sys2Proof

/-! ### Steps of a group -/

section
variable {s : State} {g : Group} (hg : s.group? g.key = some g)
include hg

/-- Lanes that stand inside a clause go on there (05 R117). -/
theorem clauseHeader_inside {cl : Clause} {i : Nat} {p : Progress} {m : Mask} (hm : mayIssue s g = true) (hc : g.cur = none)
    (hs : select g = some (.inside cl i p, m)) :
    exec (.clauseHeader g.key) s = .next (s.setGroup { g with cur := some ⟨cl, i, m, p⟩ }) := by
  simp [exec, execClauseHeader, hg, hm, hc, hs]

/-- Lanes at a header that no breakpoint holds enter its clause (24 R427). -/
theorem clauseHeader_enters {pc : Nat} {m : Mask} (hm : mayIssue s g = true) (hc : g.cur = none)
    (hs : select g = some (.header pc, m)) (hl : g.late = [])
    (hb : breakpointAt s (corrOf s g) pc = none ∨ g.bpSkip = some pc) :
    exec (.clauseHeader g.key) s = .next (enterClause s g pc m) := by
  rcases hb with hb | hb
  · simp [exec, execClauseHeader, hg, hm, hc, hs, hl, hb]
  · cases h : breakpointAt s (corrOf s g) pc <;> simp [exec, execClauseHeader, hg, hm, hc, hs, hl, hb, h]

/-- Lanes at a header with a breakpoint that the group has not passed over meet it (24 R427). -/
theorem clauseHeader_breaks {pc n : Nat} {m : Mask} (hm : mayIssue s g = true) (hc : g.cur = none)
    (hs : select g = some (.header pc, m)) (hl : g.late = []) (hb : breakpointAt s (corrOf s g) pc = some n)
    (hk : g.bpSkip ≠ some pc) : exec (.clauseHeader g.key) s = .next (hitBreakpoint s g pc n) := by
  simp [exec, execClauseHeader, hg, hm, hc, hs, hl, hb, hk]

/-- A late effect at a header is performed by the lanes that R240 names. -/
theorem lateEffect_atHeader {m : Mask} {p : Perf} (hm : mayIssue s g = true) (hc : g.cur = none)
    (hl : lateLanes g = some m) (hn : g.nextLate = some p) : exec (.lateEffectDelivery g.key) s =
      .next (settle (perform (s.setGroup (g.dropLate p)) g.key g.loop [{ p with lanes := m }]) g.key) := by
  simp [exec, execLateEffectDelivery, hg, hm, hc, hl, hn]

/-- A late effect at a wait finds the waiting lanes at their word (09 R240). -/
theorem lateEffect_atWait {m : Mask} {p : Perf} {iss : Issue} (hm : mayIssue s g = true) (hc : g.cur = some iss)
    (hl : lateLanes g = some m) (hn : g.nextLate = some p) : exec (.lateEffectDelivery g.key) s =
      .next (settle (perform (s.setGroup ((g.place iss.active (.inside iss.cl iss.idx iss.prog)).dropLate p)) g.key g.loop
        [{ p with lanes := m }]) g.key) := by
  simp [exec, execLateEffectDelivery, hg, hm, hc, hl, hn]

/-- What a completed long-latency instruction leaves where its results are fixed and it raises no flag (01 R20). -/
theorem complete_ready {p : Pend} (ha : p.await = .ready) (hf : p.flags = 0#7) : complete s g.key p p.lands =
    s.setGroup { p.lands.foldl Group.land g with pend := (p.lands.foldl Group.land g).pend.filter fun q => q.id != p.id } := by
  simp [complete, hg, ha, hf, drainPoison, systemAct, mergeLate]

/-- A long-latency instruction whose results are fixed lands them and leaves the group's list (01 R20). -/
theorem longLatency_lands {p : Pend} (hp : g.pend.find? (fun q => q.id == p.id) = some p) (ha : p.await = .ready)
    (hf : p.flags = 0#7) : exec (.longLatencyCompletion g.key p.id) s = .next (retireCore (s.setGroup
      { p.lands.foldl Group.land g with pend := (p.lands.foldl Group.land g).pend.filter fun q => q.id != p.id }) g.key.core) := by
  have hc : completes s g p = some p.lands := by simp [completes, ha]
  simp only [exec, execLongLatencyCompletion, hg, hp, hc, complete_ready hg ha hf]

end

/-- A header position at which a clause can be read, whose flags are not pending, puts the group at its first word (03 R68; 05
R117). -/
theorem enterClause_ok {s : State} {g : Group} {pc w : Nat} {m : Mask} {cl : Clause} (hpc : pc % 4 = 0)
    (hp : poisonedCode s g m pc (clauseWords s g m pc) = false)
    (hr : readClause pc (codeWords s g m pc (clauseWords s g m pc)) = .ok (cl, w))
    (hf : ∀ f < 12, w / 2 ^ f % 2 = 1 ∨ f = cl.seta ∨ f = cl.setb → g.flagPending f = false) :
    enterClause s g pc m = (afterFetch s g m pc (clauseWords s g m pc)).modGroup g.key fun h =>
      { h with cur := some ⟨cl, 0, m, .fresh⟩, bpSkip := if h.bpSkip = some pc then none else h.bpSkip } := by
  have hn : ((List.range 12).any fun f =>
      (w / 2 ^ f % 2 == 1 || f == cl.seta || f == cl.setb) && g.flagPending f) = false := by
    refine List.any_eq_false.mpr fun f h12 h => ?_
    simp only [Bool.and_eq_true, Bool.or_eq_true, beq_iff_eq, or_assoc] at h
    exact absurd h.2 (by simp [hf f (List.mem_range.mp h12) h.1])
  simp only [enterClause, hpc, hp, hr, hn, ne_eq, not_true_eq_false, Bool.false_eq_true, if_false]

/-- With no store of the group on its way the head of the queue takes its turn. -/
theorem storeQueueDrain_of_not_aloft {s : State} {k : GKey} (h : aloft s k = false) :
    exec (.storeQueueDrain k) s = .next (tryRetire (drainHead s k) k) :=
  congrArg (fun t => Host.Outcome.next (tryRetire t k)) (drainStep_of_not_aloft h)

/-- A FENCE.rel at the head follows all stores of the core, and its group's earlier loads (08 R217; 15 R324). -/
theorem drainHead_fence {s : State} {k : GKey} {g : Group} {e : QEntry} {rest : List QEntry} (h : s.group? k = some g)
    (hq : g.queue = e :: rest) (he : e.op = .fence) : drainHead s k =
      (landAll (s.setGroup { g with queue := rest }) k.core).modGroup k fun h =>
        { h with pend := h.pend.map fun p => if p.id < e.id then { p with reads := [] } else p } := by
  simp only [drainHead, h, hq, he, if_true]

/-- With an empty queue the stores of a group that are on their way reach their slices (15 R333). -/
theorem drainStep_of_empty {s : State} {k : GKey} {g : Group} (h : s.group? k = some g) (hq : g.queue = [])
    (ha : aloft s k = true) : drainStep s k = landSome s k (Config.drainPick s.tick / 2) := by
  simp [drainStep, h, hq, ha]

/-! ### Barrier registers -/

theorem arrived_add {b : Bar} {w : Nat} (h : b.arrived.toNat + w ≤ 4095) :
    (b.arrived + BitVec.ofNat 12 w).toNat = b.arrived.toNat + w := by
  rw [BitVec.toNat_add, BitVec.toNat_ofNat]; omega

section
variable {b : Bar} {w : Nat} (hw : b.arrived.toNat + w ≤ 4095)
include hw

/-- Below the expected count an arrival only counts (08 R219). -/
theorem Bar.add_of_below (h : b.arrived.toNat + w < b.expected.toNat) :
    b.add w = { b with arrived := b.arrived + BitVec.ofNat 12 w } := by
  refine if_neg fun hm => ?_
  simp only [Bar.met, Bool.and_eq_true, decide_eq_true_eq, arrived_add hw] at hm
  omega

/-- An arrival that reaches the expected count completes the phase (01 R31). -/
theorem Bar.add_of_reaches (he : b.expected ≠ 0) (h : b.expected.toNat ≤ b.arrived.toNat + w) :
    b.add w = Bar.complete { b with arrived := b.arrived + BitVec.ofNat 12 w } :=
  if_pos (by simpa [Bar.met, arrived_add hw] using And.intro he h)

end

/-- Looking up a group after all groups have changed without changing their names. -/
theorem group?_map (s : State) (f : Group → Group) (hf : ∀ g, (f g).key = g.key) (k : GKey) :
    ({ s with groups := s.groups.map f } : State).group? k = (s.group? k).map f := by
  simp only [State.group?, List.find?_map, Function.comp_def, hf]

/-- A write of a barrier register that changes its phase bit releases the waiters of the team's groups (01 R31). -/
theorem putBar_group {s : State} {n : Nat} {b : Bar} {g : Group} (hg : s.group? g.key = some g)
    (hp : b.phase ≠ (s.bar g.team n).phase) : (s.putBar g.team n b).group? g.key = some (releaseIn n b.phase g) := by
  rw [State.putBar, if_neg hp, group?_map _ _ fun h => by split <;> rfl]
  simp [hg]

/-- What the change of a phase bit makes of a lane that waits for it (08 R219). -/
theorem releaseIn_lane {n k pc : Nat} {bar phase old : Bool} {g : Group} {t : Nat} (ht : t < g.lanes.length)
    (h : (g.lane t).st = .phase k old pc bar) :
    ((releaseIn n phase g).lane t).st = if k = n ∧ old ≠ phase then .run else .phase k old pc bar := by
  simp only [Group.lane, List.getD_eq_getElem?_getD, List.getElem?_eq_getElem ht, Option.getD_some] at h
  simp [Group.lane, releaseIn, ht, h, LaneSt.release]

/-! ### Reset -/

theorem getD_replicate_of_lt {α : Type} {n i : Nat} {x y : α} (h : i < n) : (List.replicate n x).getD i y = x := by
  rw [List.getD_eq_getElem?_getD, List.getElem?_replicate, if_pos h, Option.getD_some]

theorem reset_core {c : Nat} (h : c < 192) : State.reset.core c = Core.reset := getD_replicate_of_lt h

theorem reset_die {d : Nat} (h : d < 4) : State.reset.die d = Die.reset := getD_replicate_of_lt h

theorem reset_tag {n : Nat} (h : n < 16) : Core.reset.tag n = LTag.reset := getD_replicate_of_lt h

theorem reset_bank {n : Nat} (h : n < 128) : Core.reset.bank n = ⟨none, none⟩ := getD_replicate_of_lt h

theorem reset_halfOwner (n : Nat) : Core.reset.halfOwner n = none := by
  simp only [Core.halfOwner, Core.reset, List.getElem?_replicate]
  split <;> rfl

/-! ### Registers that read by rule -/

/-- A write to a predicate register below p7 changes the bits of the threads it names and no other (01 R18). -/
theorem has_setPred {g : Group} {p : Nat} (hp : p < 7) (hl : g.preds.length = 7) (b m : Mask) (t : Nat) :
    has ((g.setPred p b m).pred p) t = if has m t then has b t else has (g.pred p) t := by
  have h7 : p ≠ 7 := by omega
  have hlt : p < g.preds.length := by omega
  have hset : (g.setPred p b m).pred p = g.pred p &&& ~~~m ||| b &&& m := by
    simp [Group.pred, Group.setPred, modAt, h7, hlt]
  rw [hset]
  by_cases ht : t < 128
  · cases hm : has m t <;> simp_all [has]
  · simp [has, BitVec.getLsbD_of_ge _ t (Nat.le_of_not_lt ht)]

/-- A dead register reads as the dead word under the identity (01 R15). -/
theorem readOpnd_dead {g : Group} {first : Nat} {n : Fin 96} (lit : Word)
    (hl : (g.vreg (g.phys n.val).toNat).live = false) (t : Nat) :
    (readOpnd g first (.v n) none lit).val t = deadWord ∧
      (readOpnd g first (.v n) none lit).map = some (LaneMap.ident (g.vreg (g.phys n.val).toNat).map.code) := by
  simp [readOpnd, VReg.value, VReg.asMap, hl]

end Sys2Proof.Machine
end

section
/-! PROOFS. The machine state: reset, registers and their faults, frames, lane maps, barriers, flags, moves, system words and the
steps of a group.
-/

namespace Sys2Proof

open Sys2Proof.Machine

/-- Settles O1: every core and every die stands as at its own reset, whose lists are empty and whose tags and banks are free. -/
theorem resetState : Obligations.ResetState := by
  unfold Obligations.ResetState
  refine ⟨rfl, rfl, rfl, rfl, List.length_replicate, List.length_replicate, fun c hc => ?_, fun d hd => ?_⟩
  · rw [reset_core hc]
    exact ⟨fun n hn => by rw [reset_tag hn]; rfl, fun n _ => reset_halfOwner n, fun n hn => reset_bank hn, rfl, rfl, rfl⟩
  · rw [reset_die hd]
    exact ⟨rfl, rfl, rfl, rfl⟩

/-- Settles O14: each form of MOV is one write of D; the last two differ in whether the selector varies by thread. -/
theorem moveWords : Obligations.MoveWords := by
  unfold Obligations.MoveWords
  refine ⟨fun _ _ _ s g iss hr _ => issue_act hr rfl, fun _ _ _ s g iss hr _ => issue_act hr rfl,
    fun _ _ _ s g iss hr _ => issue_act hr rfl, fun _ _ _ s g iss hr _ => issue_act hr rfl,
    fun _ _ _ s g iss hr _ => issue_act hr rfl, fun d a b s g iss hr hb => ?_, fun d a b t s g iss hr ⟨hb, ht⟩ => ?_⟩
  · exact issue_act hr (if_neg (Nat.not_lt.mpr hb))
  · refine issue_act hr ((if_pos hb).trans ?_)
    simp only [ht]
    rfl

/-- Settles O29: a system word goes into flight unless its selector is read-only, its element lies past the last bank or its bank is
not the group's to use. -/
theorem systemWords : Obligations.SystemWords := by
  unfold Obligations.SystemWords
  refine ⟨fun _ _ s g iss hr _ => issue_act hr rfl, fun a sel s g iss hr h => ?_, fun a sel s g iss hr h => ?_,
    fun a s g iss hr ⟨hin, hl⟩ => ?_, fun a s g iss hr h => ?_, fun a s g iss hr ⟨hin, hb⟩ => ?_,
    fun _ s g iss hr _ => issue_act hr rfl, fun _ s g iss hr _ => issue_act hr rfl, fun s g iss hr _ => issue_act hr rfl,
    fun _ _ s g iss hr _ => issue_act hr rfl, fun _ _ s g iss hr _ => issue_act hr rfl⟩
  · exact issue_act hr (if_neg (Nat.not_lt.mpr h))
  · exact issue_act hr (if_pos h)
  · exact issue_act hr ((if_neg (Nat.not_le.mpr hin)).trans (entitled_of_lacking_none hl _))
  · exact issue_act hr (if_pos h)
  · exact issue_act hr ((if_neg (Nat.not_le.mpr hin)).trans (entitled_of_lacking_some (lacking_bank hb) _))

/-- Settles O33: each step of a group by the lemma that says what it does. -/
theorem groupEvents : Obligations.GroupEvents := by
  unfold Obligations.GroupEvents
  intro s g hg
  refine ⟨fun hm hc => ⟨fun cl i p m hs => clauseHeader_inside hg hm hc hs, fun pc m cl w hs hl hb hpc hp hr hf => ?_,
      fun pc m n hs hl hb hk => clauseHeader_breaks hg hm hc hs hl hb hk,
      fun m p hl hn => lateEffect_atHeader hg hm hc hl hn⟩,
    fun iss m p hm hc hl hn => lateEffect_atWait hg hm hc hl hn, fun e rest hq ha => ?_, fun hq ha => ?_,
    fun p hp ha hf => longLatency_lands hg hp ha hf, fun x res free src hs => ?_, fun x res free src t => rfl⟩
  · rw [clauseHeader_enters hg hm hc hs hl hb, enterClause_ok hpc hp hr hf]
  · have hd := storeQueueDrain_of_not_aloft ha
    refine ⟨fun he => ?_, fun he hf => ?_, fun he hf => ?_⟩
    · rw [hd, drainHead_fence hg hq he]
    · rw [hd, drainHead_store hg hq he, drained, hf]; rfl
    · rw [hd, drainHead_store hg hq he, drained, hf]; rfl
  · exact congrArg (fun t => Host.Outcome.next (tryRetire t g.key)) (drainStep_of_empty hg hq ha)
  · simp only [exec, execCopystall, hs]

/-- Settles O45: what a word raises before its own description counts, in the order of 03 R91. -/
theorem registerFaults : Obligations.RegisterFaults := by
  unfold Obligations.RegisterFaults
  intro s g iss i ha hg hi hh hp hf
  refine ⟨exec_illegal ha hg hi hh hp hf, fun q hw ho => ?_, fun hw ho hal => ?_, fun r hw ho hal hb => ?_⟩
  · exact ⟨_, exec_nameFault ha hg hi hh hp hf hw (registerFault_of_out ho) (by rw [ho]; rfl), rfl, rfl, rfl, rfl, rfl⟩
  · exact ⟨_, exec_nameFault ha hg hi hh hp hf hw (registerFault_of_align ho hal) (by rw [hal, Bool.or_true]), rfl, rfl, rfl⟩
  · exact ⟨_, exec_elementFault ha hg hi hh hp hf hw (registerFault_of_bad ho hal hb) ho hal, rfl, rfl, rfl, rfl⟩

/-- Settles O46: the rules of 01 R15 to R18, one by one. -/
theorem specialRegisters : Obligations.SpecialRegisters := by
  unfold Obligations.SpecialRegisters
  exact ⟨fun g first lit t => rfl, fun g first lit t => rfl, fun g first lit t => rfl,
    fun g first lit n t hl => readOpnd_dead lit hl t, fun g => rfl, fun g b m => rfl,
    fun g p b m hp hl t => has_setPred hp hl b m t⟩

/-- Settles O47: a word that writes one register leaves a steady group's frame, whichever of the two kinds it is. -/
theorem registerWordFrame : Obligations.RegisterWordFrame := by
  unfold Obligations.RegisterWordFrame
  refine fun s g iss i t hr hs hu ht => ⟨fun h => ?_, fun p h => ?_⟩
  · obtain ⟨m, hm, hw⟩ := writesOnly_of_writesD hr.here iss h
    exact frame_of_writesOnly hr hs hu hw (hm ▸ ht)
  · obtain ⟨m, hm, hw⟩ := writesOnly_of_writesP hr.here iss h
    exact frame_of_writesOnly hr hs hu hw (hm ▸ ht)

/-- Settles O53: composition is associativity of products over GF(2); a descriptor's fields are the map's. -/
theorem shuffledMaps : Obligations.ShuffledMaps := by
  unfold Obligations.ShuffledMaps
  exact ⟨fun m sh c _ _ t _ => LaneMap.compose_at m sh c t,
    fun m h => by rw [LaneMap.identBit_descriptor h, LaneMap.isIdent_iff],
    fun m h => ⟨LaneMap.ofDescriptor_descriptor h, LaneMap.wellFormed_descriptor h⟩,
    fun code t hc ht => LaneMap.ident_at hc ht⟩

/-- Settles O58: an arrival below the expected count only counts, one that reaches it completes the phase, and a changed phase bit
releases the waiters. -/
theorem barrierPhases : Obligations.BarrierPhases := by
  unfold Obligations.BarrierPhases
  refine ⟨fun b w he hw => ⟨fun h => ?_, fun h => ?_, ?_⟩, fun s n b g hg hp => ?_, fun s n b g hp => ?_⟩
  · rw [Bar.add_of_below hw h]
    exact ⟨arrived_add hw, rfl⟩
  · rw [Bar.add_of_reaches hw he h]
    exact ⟨rfl, rfl⟩
  · rcases Nat.lt_or_ge (b.arrived.toNat + w) b.expected.toNat with h | h
    · rw [Bar.add_of_below hw h]
    · rw [Bar.add_of_reaches hw he h, Bar.complete]
  · exact ⟨_, putBar_group hg hp, fun t ht k old pc bar h => releaseIn_lane ht h⟩
  · rw [State.putBar, if_pos hp, State.modTeam_groups]

/-- Settles O59: bit by bit what FFLAGS holds, and the FPTRAP of the bits that are raised and enabled. -/
theorem stickyFlagsAndTraps : Obligations.StickyFlagsAndTraps := by
  unfold Obligations.StickyFlagsAndTraps
  refine ⟨fun g fl i hi => getLsbD_merge g fl hi, fun v i hi => getLsbD_writeFflags v hi,
    fun x s h fl jumps hh ⟨i, hi, hfl, hen⟩ => ?_⟩
  have hb : h.trapBits fl ≠ 0#5 := trapBits_ne_zero hi hfl hen
  refine ⟨trapOf x (h.trapBits fl), finish_trapped hh hb jumps, rfl, rfl, rfl, rfl, fun j hj => ?_⟩
  rw [← getLsbD_trapBits]
  simp [trapOf, hj]

end Sys2Proof
end

section
/-! SUPPORT. The words of instructions (03 R75, 12 R300): fields that fit their widths make a 32-bit word, a word reads back from its
four bytes, and every instruction from the fields it is encoded in.
-/

namespace Sys2Proof

/-! ### Words and their bytes -/

theorem Fields.word_lt {f : Fields} (h : f.ok) : f.word < 2 ^ 32 := by
  obtain ⟨hop, hd, ha, hb, hm⟩ := h
  simp only [Fields.word]
  omega

theorem WFields.word_lt {f : WFields} (h : f.op < 64 ∧ f.d < 16 ∧ f.a < 16 ∧ f.b < 16 ∧ f.imm < 2 ^ 14) : f.word < 2 ^ 32 := by
  obtain ⟨hop, hd, ha, hb, himm⟩ := h
  simp only [WFields.word]
  omega

/-- A 32-bit word is the value of its four bytes (00 R9). -/
theorem le4_bytes {w : Nat} (h : w < 2 ^ 32) :
    le4 (.ofNat 8 w) (.ofNat 8 (w / 256)) (.ofNat 8 (w / 256 / 256)) (.ofNat 8 (w / 256 / 256 / 256)) = w := by
  simp only [le4, BitVec.toNat_ofNat]
  omega

/-! The decoder and the list stay variables until the matches on them are reduced: otherwise the kernel computes with the
quotients of an unknown word. -/

/-- A list that begins with the four bytes of a word that decodes gives its instruction and what follows. -/
theorem decodeBytes_cons {b0 b1 b2 b3 : Byte} {rest bs : List Byte} {i : Instr} (hbs : bs = b0 :: b1 :: b2 :: b3 :: rest)
    (h : decodeWord (le4 b0 b1 b2 b3) = .ok i) : decodeBytes bs = .ok (i, rest) := by
  unfold decodeBytes
  obtain ⟨dec, hdec⟩ : ∃ dec, dec = decodeWord := ⟨_, rfl⟩
  rw [← hdec] at h ⊢
  subst hbs
  simp only [h]

/-- As `decodeBytes_cons`, for the walker's decoder. -/
theorem decodeWalkerBytes_cons {b0 b1 b2 b3 : Byte} {rest bs : List Byte} {i : Instr}
    (hbs : bs = b0 :: b1 :: b2 :: b3 :: rest) (h : decodeWalker (le4 b0 b1 b2 b3) = .ok i) :
    decodeWalkerBytes bs = .ok (i, rest) := by
  unfold decodeWalkerBytes
  obtain ⟨dec, hdec⟩ : ∃ dec, dec = decodeWalker := ⟨_, rfl⟩
  rw [← hdec] at h ⊢
  subst hbs
  simp only [h]

/-! ### The fields of every instruction -/

theorem encode_of_fields {i : Instr} {f : Fields} (h : i.fields = some f) : encode i = some f.word := by
  simp only [encode, h]

theorem encode_of_wFields {i : Instr} {f : WFields} (hn : i.fields = none) (h : i.wFields = some f) :
    encode i = some f.word := by
  simp only [encode, hn, h]

end Sys2Proof

namespace Sys2Proof.Laws.RoundTrip

open Sys2Proof

/-- The round trip through the fields, for every constructor by its own lemma. -/
theorem statement (i : Instr) : Statement i :=
  i.casesOn (motive := Statement)
    nop bra brx call ret exit yield loop winb setx split fuse isync bkm waitf mov iadd isub imul imad imnx iuna iset
    iaddi iand ior ixor iandn shl shr bfx bits sel plog idiv addr iseti andi xori shi fadd fsub fmul ffma fmnx fset fcvt
    hadd2 hfma2 hmul2 fsfu funa expo ldexp maxe sexp frow shfx shfp shfb shfi shfr mat mapRd mapWr mapId vote matchk
    pscan qapp cdet redx segr rlt rwalk ld st ldi sti ldn atomh atomp acas fence bar bari bara barw ldt stt layd cpy
    close waitb rrot cpyp enq waith tsth canh hsto hlod bina crc bhist bsel oclm orel aclm aclmGrant arel arelRevoke mma
    mmaa mmsp publ publSeal setl alin adrn afil old sltg ast ost perf hpsh hpop rsum tokd tokdAbort tokdMov sysRdsr
    sysWrsr sysStamp sysProf sysTime sysFlags whalt wli wadd wsub wmul wshl wshr wand wldw wldh wldb wbeq wbne wblo wbhs
    wjmp wtgt wzero wemit wrun warv wfault clauseHeader storeQueueDrain longLatencyCompletion lateEffectDelivery
    copyBlock translationWalk matrixEntryStart matrixEntryFinish correctionApplication binningOpen binningReplay
    walkerJob gather topkHistogram topkSelect mainToMainCopy walkerStepLimit collForm collDisband collBarrier collBcast
    collAllred collRedscat collGather collXscan signal formMsg beatMsg postMsg abortMsg decideMsg readRequest
    writeRequest atomicRequest readCompletion writeCompletion atomicCompletion fabricRequestTimeout signalTagTimeout
    heartbeat memberLost collectiveTimeout formTimeout deciderUnreachable portLaneFailure copystall
    fuseRendezvousTimeout writeblock heldWriteRewalk invctl invalidationComplete codeinv codeinvAccept doorbell
    launchRecord clusterPlacement fallbackMode priority7Preemption cancel preempt preemptHaltComplete gridRestore
    gridCompletion railSample energyShare patrolScrub unitLoss atctl attestationReport registerWrite hostMemoryAccess
    reset firmwareImage throttle thermalShutdown portComeUp walkfault trailerCompletion

end Sys2Proof.Laws.RoundTrip

namespace Sys2Proof

open Sys2Proof.Laws

/-- The fields of a Derrov instruction fit their widths and give the instruction back (03 R75, R85). -/
theorem fields_roundTrip {i : Instr} {f : Fields} (h : i.fields = some f) : f.ok ∧ decodeFields f = .ok i := by
  have hs := RoundTrip.statement i
  simpa only [RoundTrip.Statement, h] using hs

/-- The fields of a walker instruction fit their widths and give the instruction back (12 R300, R301). -/
theorem wFields_roundTrip {i : Instr} {f : WFields} (hn : i.fields = none) (h : i.wFields = some f) :
    (f.op < 64 ∧ f.d < 16 ∧ f.a < 16 ∧ f.b < 16 ∧ f.imm < 2 ^ 14) ∧ decodeWFields f = .ok i := by
  have hs := RoundTrip.statement i
  simpa only [RoundTrip.Statement, hn, h] using hs

/-- The word of a Derrov instruction decodes to it. -/
theorem decodeWord_word {i : Instr} {f : Fields} (h : i.fields = some f) : decodeWord f.word = .ok i := by
  obtain ⟨hok, hd⟩ := fields_roundTrip h
  rw [decodeWord, fieldsOf_word hok, hd]

/-- The word of a walker instruction decodes to it. -/
theorem decodeWalker_word {i : Instr} {f : WFields} (hn : i.fields = none) (h : i.wFields = some f) :
    decodeWalker f.word = .ok i := by
  obtain ⟨⟨_, hd, ha, hb, himm⟩, hdec⟩ := wFields_roundTrip hn h
  rw [decodeWalker, wFieldsOf_word hd ha hb himm, hdec]

end Sys2Proof
end

section
/-! SUPPORT. What a header position finds (03 R66 to R74, R88, R89; 18 R381): the clause that its words make, and the effect that it
performs where they make none.
-/

namespace Sys2Proof.Machine

open Sys2Proof

/-! ### The first header word -/

/-- The opcode of H0 and its lowest bit are fixed (03 R67, R88). -/
theorem readH0_none {w : Word} (h : w.toNat / 2 ^ 25 ≠ 0x7F ∨ w.toNat % 2 = 1) : readH0 w = none :=
  if_pos (h.imp_right .inl)

/-- H0 tells the number of words less one (03 R67). -/
theorem readH0_n {w : Word} {h : H0} (hw : readH0 w = some h) : h.n = w.toNat / 4 % 8 + 1 := by
  simp only [readH0] at hw
  split at hw
  · cases hw
  · cases hw; rfl

/-! ### The instruction positions -/

/-- A scan that ends with no bad position has begun with none. -/
theorem scanFrom_bad_none {h1 : Word} (fuel : Nat) : ∀ {i : Nat} {ws : List Word} {ctl : Bool} {r : Scan},
    (scanFrom h1 fuel i ws ctl r).bad = none → r.bad = none := by
  induction fuel with
  | zero => exact fun h => h
  | succ fuel ih =>
    intro i ws ctl r h
    cases ws with
    | nil => exact h
    | cons w ws =>
      simp only [scanFrom] at h
      split at h <;> exact (Option.or_eq_none_iff.mp (ih h)).1

/-- A scan that finds no bad position has read a well-formed instruction at its first. -/
theorem scanFrom_first {h1 w : Word} {fuel i : Nat} {ws : List Word} {ctl : Bool} {r : Scan}
    (h : (scanFrom h1 (fuel + 1) i (w :: ws) ctl r).bad = none) : ∃ x : Instr, decodeWord w.toNat = .ok x ∧ x.wf = true := by
  simp only [scanFrom] at h
  split at h
  · have hb := (Option.or_eq_none_iff.mp (scanFrom_bad_none fuel h)).2
    simp at hb
  · next x hx =>
    have hb := (Option.or_eq_none_iff.mp (scanFrom_bad_none fuel h)).2
    simp only [ite_eq_right_iff, reduceCtorEq, imp_false, Bool.or_eq_true, not_or, Bool.not_eq_true',
      Bool.not_eq_false] at hb
    obtain ⟨⟨_, hwf⟩, _⟩ := hb
    exact ⟨x, hx, hwf⟩

/-! ### The clause -/

/-- What a clause that passes holds (03 R66, R67): as many words as H0 says, each a position that the scan has passed. -/
theorem readClause_ok {pc n : Nat} {h0 h1 : Word} {body : List Word} {cl : Clause}
    (h : readClause pc (h0 :: h1 :: body) = .ok (cl, n)) : h0.toNat / 4 % 8 + 1 ≤ body.length ∧
      cl.words = body.take (h0.toNat / 4 % 8 + 1) ∧ (scanFrom h1 8 0 cl.words false ⟨false, none⟩).bad = none := by
  simp only [readClause] at h
  split at h
  · next hd h1' body' hr hb =>
    cases hb
    rw [← readH0_n hr]
    split at h
    · cases h
    next hlen =>
    split at h
    · cases h
    split at h
    · cases h
    next hbad =>
    cases h
    exact ⟨Nat.le_of_not_lt hlen, rfl, hbad⟩
  · cases h

/-! ### What a header position performs -/

section
variable {s : State} {g : Group} {pc : Nat} {m : Mask}

theorem enterClause_misaligned (h : pc % 4 ≠ 0) : enterClause s g pc m = headerEffect s g 0x102 pc (word pc) 0 m :=
  if_pos h

theorem enterClause_poisoned (h : pc % 4 = 0) (hp : poisonedCode s g m pc (clauseWords s g m pc) = true) :
    enterClause s g pc m = headerEffect s g 0x106 pc 9 (word pc) m := by
  simp only [enterClause, h, hp, ne_eq, not_true_eq_false, if_true, if_false]

theorem enterClause_illegal {b : Bad} (h : pc % 4 = 0) (hp : poisonedCode s g m pc (clauseWords s g m pc) = false)
    (hr : readClause pc (codeWords s g m pc (clauseWords s g m pc)) = .error b) : enterClause s g pc m =
      headerEffect (afterFetch s g m pc (clauseWords s g m pc)) g 0x100 b.site b.p0 (word b.p1) m := by
  simp only [enterClause, h, hp, hr, ne_eq, not_true_eq_false, Bool.false_eq_true, if_false]

end

end Sys2Proof.Machine
end

section
/-! PROOFS. Instruction words and clauses: the encodings of 03 and 12, and what a header position finds (03 R88, R89).
-/

namespace Sys2Proof

open Sys2Proof.Machine

/-- Settles O5: each word by the fields it holds. -/
theorem wordsDecode : Obligations.WordsDecode := by
  unfold Obligations.WordsDecode
  exact ⟨rfl, rfl, rfl, rfl, rfl, rfl, rfl, rfl, rfl, rfl⟩

/-- Settles O6: the fields of an instruction fit their word, which reads back, and its four bytes read back to it. -/
theorem encodeDecodeRoundTrip : Obligations.EncodeDecodeRoundTrip := by
  unfold Obligations.EncodeDecodeRoundTrip
  refine fun i => ⟨fun f h => ?_, fun f hn h => ?_⟩
  · have hlt : f.word < 2 ^ 32 := Fields.word_lt (fields_roundTrip h).1
    have hdec : decodeWord f.word = .ok i := decodeWord_word h
    exact ⟨encode_of_fields h, hlt, hdec, fun rest => decodeBytes_cons rfl (by rw [le4_bytes hlt, hdec])⟩
  · have hlt : f.word < 2 ^ 32 := WFields.word_lt (wFields_roundTrip hn h).1
    have hdec : decodeWalker f.word = .ok i := decodeWalker_word hn h
    exact ⟨encode_of_wFields hn h, hlt, hdec, fun rest => decodeWalkerBytes_cons rfl (by rw [le4_bytes hlt, hdec])⟩

/-- Settles O44: a header off a multiple of 4, poisoned code and a word that breaks R88 are judged in this order; a scan
that finds no bad position has read an instruction at the first. -/
theorem clauseFaults : Obligations.ClauseFaults := by
  unfold Obligations.ClauseFaults
  refine ⟨fun s g pc m hg hm hc hs hl hb => ?_, fun pc => rfl, fun pc w ws h => ?_, fun pc h0 h1 w ws cl n h => ?_⟩
  · have hb' : breakpointAt s (corrOf s g) pc = none ∨ g.bpSkip = some pc := by
      cases hbp : breakpointAt s (corrOf s g) pc with
      | none => exact .inl rfl
      | some n => exact .inr (hb n hbp)
    rw [clauseHeader_enters hg hm hc hs hl hb']
    exact ⟨fun h => by rw [enterClause_misaligned h]; rfl, fun h hp => by rw [enterClause_poisoned h hp]; rfl,
      fun b h hp hr => by rw [enterClause_illegal h hp hr]; rfl⟩
  · simp only [readClause, readH0_none h]
  · obtain ⟨hn, hw, hscan⟩ := readClause_ok h
    refine ⟨by rw [hw, List.length_take, Nat.min_eq_left hn], hw, ?_⟩
    rw [hw, List.take_succ_cons] at hscan
    exact scanFrom_first hscan

end Sys2Proof
end

section
/-! SUPPORT. Rounding a magnitude to a coarser last place (04 R104): the whole part, and the step up that each mode takes.
-/

namespace Sys2Proof.Machine

open Sys2Proof

/-- To nearest a magnitude is rounded up above one half, and at one half from an odd last bit. -/
theorem roundUp_rne (neg odd lost : Bool) (a b : Nat) :
    roundUp .rne neg odd (Ord.compare a b) lost = decide (b < a ∨ a = b ∧ odd = true) := by
  rw [Bool.eq_iff_iff]
  simp [roundUp, Nat.compare_eq_gt]

/-- The directed mode that moves a number of this sign away from zero rounds up whatever is lost. -/
theorem roundUp_outward (neg odd lost : Bool) (half : Ordering) :
    roundUp (if neg then .rdn else .rup) neg odd half lost = lost := by
  cases neg <;> rfl

/-! ### Rounding m to a multiple of 2^k -/

section
variable (neg : Bool) (m k : Nat) (e : Int)

/-- A magnitude rounded 2^k above its own last place: its whole part, and a step up that the mode decides from the rest. At k = 0
the rest is 0, and no mode steps up. -/
theorem roundAt_add (rm : Rm) : roundAt rm neg m e (e + k) false =
    ⟨m / 2 ^ k + (roundUp rm neg (m / 2 ^ k % 2 == 1) (Ord.compare (m % 2 ^ k * 2) (2 ^ k)) (m % 2 ^ k != 0)).toNat,
      m % 2 ^ k != 0⟩ := by
  rcases Nat.eq_zero_or_pos k with rfl | hk
  · cases rm <;> simp [roundAt, roundUp, Nat.mod_one, Nat.compare_eq_gt]
  · have hle : ¬ e + (k : Int) ≤ e := by omega
    have hnat : (e + (k : Int) - e).toNat = k := by omega
    simp only [roundAt, if_neg hle, hnat, Bool.or_false, Bool.false_eq_true, if_false, beq_iff_eq, Ord.compare, compareOfLessAndEq]

theorem roundAt_inexact (rm : Rm) : (roundAt rm neg m e (e + k) false).inexact = true ↔ m % 2 ^ k ≠ 0 := by
  rw [roundAt_add, bne_iff_ne]

theorem roundAt_rtz : (roundAt .rtz neg m e (e + k) false).n = m / 2 ^ k := by
  rw [roundAt_add]; rfl

/-- The directed mode that moves a number of this sign toward zero cuts its magnitude. -/
theorem roundAt_inward : (roundAt (if neg then .rup else .rdn) neg m e (e + k) false).n = m / 2 ^ k := by
  rw [roundAt_add]; cases neg <;> rfl

/-- The outward mode steps up from every rest. -/
theorem roundAt_outward : (roundAt (if neg then .rdn else .rup) neg m e (e + k) false).n =
    if m % 2 ^ k = 0 then m / 2 ^ k else m / 2 ^ k + 1 := by
  simp only [roundAt_add, roundUp_outward]
  split
  · next h => rw [h]; rfl
  · next h => rw [bne_iff_ne.mpr h]; rfl

/-- Rounding to nearest steps up from a rest above one half, and from one half itself at an odd whole part. -/
theorem roundAt_rne : (roundAt .rne neg m e (e + k) false).n =
    if 2 ^ k < m % 2 ^ k * 2 ∨ m % 2 ^ k * 2 = 2 ^ k ∧ m / 2 ^ k % 2 = 1 then m / 2 ^ k + 1 else m / 2 ^ k := by
  simp only [roundAt_add, roundUp_rne, beq_iff_eq]
  split
  · next h => rw [decide_eq_true h]; rfl
  · next h => rw [decide_eq_false h]; rfl

end

end Sys2Proof.Machine
end

section
/-! SUPPORT. Element words as they complete (07 R168, R169).
-/

namespace Sys2Proof.Machine

open Sys2Proof

/-- A word whose meaning is an element operation completes with its results and their flags. -/
theorem computesFlags_of_exec {i : Instr} {third : Bool} {op : Word → Word → Word → Word × Fl}
    (h : ∀ s, exec i s = issue i s fun x => elem x third op) : ComputesFlags i third op :=
  fun s _ _ hr _ => (h s).trans (issue_act hr rfl)

end Sys2Proof.Machine
end

section
/-! PROOFS. Number formats: rounding (04 R104) and the floating-point words (07 R184 to R189).
-/

namespace Sys2Proof

open Sys2Proof.Machine

/-- Settles O12: each word is one element operation, or the comparison, with the operation that the statement names. -/
theorem floatArithmetic : Obligations.FloatArithmetic := by
  unfold Obligations.FloatArithmetic
  exact ⟨fun _ _ _ _ _ => computesFlags_of_exec fun _ => rfl, fun _ _ _ _ _ => computesFlags_of_exec fun _ => rfl,
    fun _ _ _ _ _ => computesFlags_of_exec fun _ => rfl, fun _ _ _ _ _ _ => computesFlags_of_exec fun _ => rfl,
    fun _ _ _ _ _ => computesFlags_of_exec fun _ => rfl, fun _ _ _ _ _ _ _ _ hr _ => issue_act hr rfl,
    fun _ _ _ _ _ _ _ => computesFlags_of_exec fun _ => rfl, fun _ _ _ _ _ _ => computesFlags_of_exec fun _ => rfl,
    fun _ _ _ _ _ _ => computesFlags_of_exec fun _ => rfl, fun _ _ _ _ _ _ => computesFlags_of_exec fun _ => rfl⟩

/-- Settles O60: m stands the rest above its whole part in units of the last place; each mode gives the whole part or the next, as
the rest decides. -/
theorem roundingIsCorrect : Obligations.RoundingIsCorrect := by
  unfold Obligations.RoundingIsCorrect
  intro neg m k e
  have hm : m / 2 ^ k * 2 ^ k + m % 2 ^ k = m := Nat.div_add_mod' m (2 ^ k)
  have hr : m % 2 ^ k < 2 ^ k := Nat.mod_lt _ (Nat.two_pow_pos k)
  have hnext : (m / 2 ^ k + 1) * 2 ^ k = m / 2 ^ k * 2 ^ k + 2 ^ k := Nat.succ_mul ..
  refine ⟨roundAt_inexact neg m k e, ?_, ?_, by rw [roundAt_inward, roundAt_rtz], ?_⟩
  · simp only [roundAt_rtz]
    omega
  · simp only [roundAt_outward]
    split <;> omega
  · simp only [roundAt_rne]
    split <;> omega

end Sys2Proof
end

section
/-! SUPPORT. What a Derrov word can decode to (03 R75, R85).
-/

namespace Sys2Proof.Machine

open Sys2Proof

/-- A decoding gives no instruction, or one that has a Derrov encoding. -/
def Worded (r : Decoded) : Prop := ∀ i, r = .ok i → i.fields.isSome = true

theorem worded_ok {i : Instr} : Worded (.ok i) ↔ i.fields.isSome = true :=
  ⟨fun h => h i rfl, fun h j hj => by cases hj; exact h⟩

theorem worded_error (e : DecodeError) : Worded (.error e) := fun _ h => nomatch h

theorem worded_need {c : Bool} {r : Decoded} : Worded (need c r) ↔ (c = true → Worded r) := by
  cases c <;> simp [need, worded_error]

theorem worded_pick {α : Type} {l : List α} {n : Nat} {k : α → Decoded} :
    Worded (pick l n k) ↔ ∀ x, l[n]? = some x → Worded (k x) := by
  unfold pick
  split
  · next x h => simp [h]
  · next h => simp [h, worded_error]

/-- Every entry of the opcode table is an instruction with an encoding: the splits are the row, the opcode in it, and where
there is one the selector that M holds. -/
theorem worded_decodeFields (f : Fields) : Worded (decodeFields f) := by
  simp only [decodeFields, decodeRow00, decodeRow08, decodeRow10, decodeRow18, decodeRow20, decodeRow28, decodeRow30,
    decodeRow38, decodeRow40, decodeRow48, decodeRow50, decodeRow58, decodeRow60, decodeRow68, decodeRow70, decodeRow78]
  split
  all_goals try split
  all_goals try split
  all_goals simp only [worded_need, worded_pick, worded_ok, worded_error, implies_true]
  all_goals intros; rfl

/-- A word decodes to an instruction that has a Derrov encoding. -/
theorem fields_of_decodeWord {w : Nat} {i : Instr} (h : decodeWord w = .ok i) : i.fields.isSome = true :=
  worded_decodeFields (fieldsOf w) i h

end Sys2Proof.Machine
end

section
/-! SUPPORT. How a step begins, what a turn executes, and which turn a step takes (17 R357, R358; notes/assumptions/2.md).
-/

namespace Sys2Proof.Machine

open Sys2Proof

/-! ### How a step begins -/

/-- No group changes as a step begins, nor with the agenda. -/
theorem begin_group? (s : State) (ts : List Turn) (k : GKey) : ({ begin_ s with agenda := ts } : State).group? k = s.group? k := rfl

/-- A die as a step begins has taken note of its launches and is the same otherwise (24 R423). -/
theorem begin_die {s : State} {d : Nat} (h : d < s.dies.length) : (begin_ s).die d = noteResidents s d (s.die d) := by
  simp only [begin_, State.die, List.getD_eq_getElem?_getD, List.getElem?_mapIdx, List.getElem?_eq_getElem h]
  rfl

theorem begin_die_jobs (s : State) (d : Nat) : ((begin_ s).die d).jobs = (s.die d).jobs := by
  by_cases h : d < s.dies.length
  · rw [begin_die h]; rfl
  · simp [begin_, State.die, h]

/-- Whether a walker goes on is settled before the step begins. -/
theorem walkerGoes_begin (s : State) (c : Nat) (w : Walker) : walkerGoes (begin_ s) c w = walkerGoes s c w := by
  simp only [walkerGoes, State.job?, begin_die_jobs]
  rfl

/-! ### What a turn executes -/

section
variable {s : State} {k : GKey} {g : Group} (hg : s.group? k = some g)
include hg

/-- A turn of a group that is to execute anything but a late effect executes it where the group's schedulers choose it. -/
theorem turnOf_group {i : Instr} {a : Option Actor} (hc : chosen s (.group k) = some (i, a))
    (hi : ∀ j, i ≠ .lateEffectDelivery j) : turnOf s (.group k) = if mayTurn s g then some (i, a) else none := by
  simp only [turnOf, hc, hg, Option.bind_some]

/-- A group that may issue is to execute the word it stands at. -/
theorem chosen_word {iss : Issue} {i : Instr} (hl : g.late = [] ∨ lateLanes g = none) (hc : g.cur = some iss)
    (hm : mayIssue s g = true) (hd : decodeWord (iss.word iss.idx).toNat = .ok i) :
    chosen s (.group k) = some (i, some (.group k)) := by
  have hlate : (!g.late.isEmpty && (lateLanes g).isSome) = false := by
    rcases hl with h | h <;> simp [h]
  simp [chosen, hg, hlate, hc, hm, wordAt, hd]

/-- A group at a header is to enter its clause. -/
theorem chosen_header (hl : g.late = []) (hc : g.cur = none) : chosen s (.group k) = some (.clauseHeader k, none) := by
  simp [chosen, hg, hl, hc]

end

/-- A walker that goes on is to execute the word it stands at, below its step limit (12 R301, R306). -/
theorem chosen_walker {s : State} {c : Nat} {w : Walker} {i : Instr} (hw : (s.core c).walker = some w)
    (hg : walkerGoes s c w = true) (ha : w.pc.toNat % 4 = 0) (hin : w.pc.toNat + 4 ≤ w.code.length)
    (hd : decodeWalker (leNat ((w.code.drop w.pc.toNat).take 4)) = .ok i) (hf : i.wf = true)
    (hs : w.steps < s.times.stepLimit) : chosen s (.walker c) = some (i, some (.walker c)) := by
  have hword : walkerWord w = some i := by simp [walkerWord, ha, Nat.not_lt.mpr hin, hd, hf]
  simp [chosen, hw, hg, hword, Nat.not_le.mpr hs]

/-! ### The outcome of a turn -/

/-- A turn of a group that its schedulers do not choose changes nothing; one that they choose counts an issue. -/
theorem runTurn_group {s : State} {k : GKey} {g : Group} {i : Instr} {a : Option Actor}
    (ht : turnOf s (.group k) = if mayTurn s g then some (i, a) else none) : runTurn s (.group k) =
      if mayTurn s g = true then countsIn s (.group k) (exec i { s with cur := a }) else .next s := by
  simp only [runTurn, ht]
  cases mayTurn s g with
  | false => rfl
  | true => simp only [if_true]; cases exec i { s with cur := a } <;> rfl

/-- The turn of a walker or an event counts no issue. -/
theorem runTurn_walker {s : State} {c : Nat} {i : Instr} {a : Option Actor} (hc : chosen s (.walker c) = some (i, a)) :
    runTurn s (.walker c) = exec i { s with cur := a } := by
  simp only [runTurn, turnOf, hc]
  cases exec i { s with cur := a } <;> rfl

theorem runTurn_event (s : State) (i : Instr) : runTurn s (.event i) = exec i { s with cur := none } := by
  simp only [runTurn, turnOf, chosen]
  cases exec i { s with cur := none } <;> rfl

/-- What counting the issue of a word changes is what the schedulers count. -/
theorem noteIssue_uncounted (now : Nat) (h g : Group) : (Group.noteIssue now h g).uncounted = g.uncounted := by
  unfold Group.noteIssue
  split
  · rfl
  · split <;> rfl

theorem counted_groups (s : State) (t : Turn) (u : State) : counted s t u = { u with groups := (counted s t u).groups } ∧
    (counted s t u).groups.map Group.uncounted = u.groups.map Group.uncounted := by
  unfold counted
  split
  · split
    · next g _ _ _ =>
      split
      · exact ⟨rfl, rfl⟩
      · refine ⟨rfl, ?_⟩
        simp only [List.map_map]
        exact List.map_congr_left fun x _ => noteIssue_uncounted u.ns g x
    · exact ⟨rfl, rfl⟩
  · exact ⟨rfl, rfl⟩

/-! ### Which ready group a scheduler takes -/

theorem mayTurn_iff {s : State} {g : Group} : mayTurn s g = true ↔
    ∀ h ∈ s.groups, h.key ≠ g.key → h.competes g = true → ready s h = true → preferred s h g = false := by
  simp only [mayTurn, List.all_eq_true]
  refine forall₂_congr fun h _ => ?_
  simp only [Bool.or_eq_true, beq_iff_eq, Bool.not_eq_true', ne_eq]
  constructor
  · rintro (((hk | hc) | hp) | hr) hne hcomp hready
    · exact absurd hk hne
    · exact absurd hcomp (ne_true_of_eq_false hc)
    · exact hp
    · exact absurd hready (ne_true_of_eq_false hr)
  · intro hall
    by_cases hk : h.key = g.key
    · exact .inl (.inl (.inl hk))
    cases hc : h.competes g with
    | false => exact .inl (.inl (.inr rfl))
    | true =>
      cases hr : ready s h with
      | false => exact .inr rfl
      | true => exact .inl (.inr (hall hk hc hr))

section
variable {s : State} {a b : Group}

theorem preferred_of_starving (ha : starving s a = true) (hb : starving s b = false) : preferred s a b = true := by
  simp [preferred, ha, hb]

theorem preferred_of_undeferred (h : starving s a = starving s b) (ha : deferred s a = false) (hb : deferred s b = true) :
    preferred s a b = true := by
  simp [preferred, h, ha, hb]

theorem preferred_of_alike (h : starving s a = starving s b) (hd : deferred s a = deferred s b) :
    preferred s a b = olderThan a b := by
  simp [preferred, h, hd]

end

/-! ### Which turn a step takes -/

theorem step_agenda {s : State} {t : Turn} {ts : List Turn} (h : s.agenda = t :: ts) :
    step s = runTurn { begin_ s with agenda := ts } t := by
  simp only [step, h]

/-- With an empty agenda a first turn that changes the state is the one taken. -/
theorem step_default {s u : State} {t : Turn} {ts : List Turn} (ha : s.agenda = []) (hd : defaultTurns s = t :: ts)
    (ht : runTurn (begin_ s) t = .next u) (hu : u ≠ { begin_ s with cur := u.cur }) :
    step s = .next { u with agenda := roundAfter t ts } := by
  simp only [step, ha, hd, firstTurn, ht, if_neg hu]

end Sys2Proof.Machine
end

section
/-! SUPPORT. Words that wait, words that a loop's body forbids, and the tests of LOOP and WAITF (05 R129, R130, R136).
-/

namespace Sys2Proof.Machine

open Sys2Proof

/-! ### Words that wait -/

/-- A ready word whose meaning holds keeps its place. -/
theorem issue_hold {s : State} {g : Group} {iss : Issue} {i : Instr} {m : Ins → Act} {p : Progress} (h : Ready s g iss i)
    (hm : m (mkIns s g iss i) = .hold p) : issue i s m = .next (s.setGroup { g with
      cur := some { iss with prog := p }, it := { g.it with csn := (mkIns s g iss i).g.it.csn } }) := by
  rw [issue_ready m h, hm]

/-! ### Loop bodies, LOOP and WAITF -/

section
variable {x : Ins}

theorem notInBody_outside (h : bodyLoop x = none) (a : Act) : notInBody x a = a := by
  simp only [notInBody, h]

theorem notInBody_inside (h : bodyLoop x ≠ none) (a : Act) : notInBody x a = x.fail (x.range x.pc) := by
  obtain ⟨l, hl⟩ := Option.ne_none_iff_exists'.mp h
  simp only [notInBody, hl]

/-- LOOP is refused in a loop, where a runnable lane stands outside the active set, and where its words do not make up whole
clauses of the code section (05 R129). -/
theorem loopRefused_iff {n : Nat} {ws : List Word} :
    (x.g.loop.isSome || x.g.runnable &&& ~~~x.act != 0#128 || ws.length != n || !wholeClauses 64 ws) = true ↔
      x.g.loop ≠ none ∨ x.g.runnable &&& ~~~x.act ≠ 0#128 ∨ ws.length ≠ n ∨ wholeClauses 64 ws = false := by
  simp [Option.isSome_iff_ne_none, or_assoc]

theorem loop_accepted {n : Nat} {ws : List Word} (hl : x.g.loop = none) (ha : x.g.runnable &&& ~~~x.act = 0#128)
    (hn : ws.length = n) (hw : wholeClauses 64 ws = true) :
    ¬(x.g.loop.isSome || x.g.runnable &&& ~~~x.act != 0#128 || ws.length != n || !wholeClauses 64 ws) = true := by
  simp [hl, ha, hn, hw]

/-- WAITF has a flag to wait for (05 R136). -/
theorem flagAwaited_iff {m : BitVec 12} : ((List.range 12).any fun i => m.getLsbD i && x.g.flagPending i) = true ↔
    ∃ i < 12, m.getLsbD i = true ∧ x.g.flagPending i = true := by
  simp

end

end Sys2Proof.Machine
end

section
/-! SUPPORT. The stages of FUSE and its time-out (05 R138 to R141).
-/

namespace Sys2Proof.Machine

open Sys2Proof

/-- R138 allows a FUSE to the width that A names. -/
def fuseFits (x : Ins) : Bool :=
  if x.a.sca.toNat = 32 then decide (x.g.width < 32) else (x.a.sca.toNat == 64 || x.a.sca.toNat == 128) && x.g.width == 32

/-- A FUSE has passed its first stage, now or when it came to wait (05 R139, R140). -/
def FuseStaged (x : Ins) : Prop :=
  x.iss.prog ≠ .fresh ∨ (unsettledGroup x.g = false ∧ stageOne x (fuseFits x) 1024 = none)

/-- The partners of a FUSE: the groups it names but its own (05 R138). -/
def fuseOthers (x : Ins) : List GKey := (fuseNames x.g x.a.sca.toNat).filter (· != x.k)

/-- What a FUSE past its first stage does: it ends where a partner is gone, waits until all have come, and meets them (05 R139 to
R141). -/
def fuseMeet (x : Ins) (d : Reg) (tag : BitVec 11) : Act :=
  if (fuseOthers x).any (partnerGone x.s x.g x.a.sca.toNat) then widthStatus x d 1
  else if (arrivedPartners x.s x tag x.a.sca.toNat).length < (fuseOthers x).length then .hold (.taken x.csn)
  else rendezvous x d x.a.sca.toNat (arrivedPartners x.s x tag x.a.sca.toNat)

/-- FUSE by its stages: it waits for what is unsettled, ends with the status of its first stage, or goes on to its partners. -/
theorem exec_fuse (d a : Reg) (tag : BitVec 11) : ∃ m, (∀ s, exec (.fuse d a tag) s = issue (.fuse d a tag) s m) ∧
    (∀ x, x.iss.prog = .fresh → unsettledGroup x.g = true → m x = .hold x.kept) ∧
    (∀ x code, x.iss.prog = .fresh → unsettledGroup x.g = false → stageOne x (fuseFits x) 1024 = some code →
      m x = widthStatus x d code) ∧
    ∀ x, FuseStaged x → m x = fuseMeet x d tag := by
  refine ⟨_, fun _ => rfl, fun x hp hu => if_pos ⟨hp, hu⟩, fun x code hp hu hs => ?_, fun x h => ?_⟩
  · refine (if_neg fun h => ne_true_of_eq_false hu h.2).trans ?_
    rw [if_pos hp, ← fuseFits, hs]
  · rcases h with hp | ⟨hu, hs⟩
    · refine (if_neg fun h => hp h.1).trans ?_
      rw [if_neg hp]
      rfl
    · refine (if_neg fun h => ne_true_of_eq_false hu h.2).trans ?_
      rw [← fuseFits, hs, ite_self]
      rfl

section
variable {x : Ins} {d : Reg} {tag : BitVec 11}

theorem fuseMeet_gone (h : (fuseOthers x).any (partnerGone x.s x.g x.a.sca.toNat) = true) :
    fuseMeet x d tag = widthStatus x d 1 := if_pos h

variable (h : (fuseOthers x).any (partnerGone x.s x.g x.a.sca.toNat) = false)
include h

theorem fuseMeet_waits (hn : (arrivedPartners x.s x tag x.a.sca.toNat).length < (fuseOthers x).length) :
    fuseMeet x d tag = .hold (.taken x.csn) :=
  (if_neg (ne_true_of_eq_false h)).trans (if_pos hn)

theorem fuseMeet_met (hn : (fuseOthers x).length ≤ (arrivedPartners x.s x tag x.a.sca.toNat).length) :
    fuseMeet x d tag = rendezvous x d x.a.sca.toNat (arrivedPartners x.s x tag x.a.sca.toNat) :=
  (if_neg (ne_true_of_eq_false h)).trans (if_neg (Nat.not_lt.mpr hn))

end

/-- Some partner's allotment or window differs (05 R139 code 5). -/
theorem fuseDiffers_iff {x : Ins} {ps : List Waiting} :
    (ps.any fun p => p.x.g.allot != x.g.allot || p.x.g.it.winBase != x.g.it.winBase) = true ↔
      ∃ p ∈ ps, p.x.g.allot ≠ x.g.allot ∨ p.x.g.it.winBase ≠ x.g.it.winBase := by
  simp

section
variable {x : Ins} {d : Reg} {w : Nat} {ps : List Waiting}

/-- Partners that have come and differ end their waits with 5, as the group does (05 R139). -/
theorem rendezvous_differs (h : ∃ p ∈ ps, p.x.g.allot ≠ x.g.allot ∨ p.x.g.it.winBase ≠ x.g.it.winBase) :
    rendezvous x d w ps = .act (x.mod (putScalar d 5)) 0#7 [] fun s => ps.foldl (fun s p => endWait s p.x.k 5) s :=
  if_pos (fuseDiffers_iff.mpr h)

/-- The D of a group that a FUSE joins: its own, or that of the partner's word (05 R141). -/
def fuseDest (x : Ins) (d : Reg) (ps : List Waiting) (k : GKey) : Reg :=
  if k == x.k then d else ((ps.find? fun p => p.x.k == k).map (·.d)).getD .z

/-- The word of the first group that a FUSE names: a partner's, or its own (05 R141). -/
def fuseFirst (x : Ins) (w : Nat) (ps : List Waiting) : Ins :=
  ((ps.find? fun p => p.x.k == (fuseNames x.g w).headD x.k).map (·.x)).getD x

/-- Partners that have come and agree are fused once the word has issued (05 R141). -/
theorem rendezvous_alike (h : ∀ p ∈ ps, p.x.g.allot = x.g.allot ∧ p.x.g.it.winBase = x.g.it.winBase) :
    rendezvous x d w ps = .then_ x.s (fuseGroups (fuseNames x.g w) ((fuseNames x.g w).map (fuseDest x d ps))
      (afterWidth (fuseFirst x w ps).g (fuseFirst x w ps).iss.cl) w) := by
  refine if_neg fun hd => ?_
  obtain ⟨p, hp, hne⟩ := fuseDiffers_iff.mp hd
  obtain ⟨hallot, hwin⟩ := h p hp
  exact hne.elim (· hallot) (· hwin)

end

/-- The time-out ends the wait of a group that may issue, with 1 where a partner is gone, else with 2 (05 R140). -/
theorem exec_fuseTimeout {s : State} {k : GKey} {g : Group} {p : Waiting} (hg : s.group? k = some g)
    (hw : waitingFuse s k = some p) (hm : mayIssue s g = true) : exec (.fuseRendezvousTimeout k) s = .next (endWait s k
      (if ((fuseNames g p.x.a.sca.toNat).filter (· != k)).any (partnerGone s g p.x.a.sca.toNat) then 1 else 2)) := by
  simp only [exec, execFuseRendezvousTimeout, hg, hw, hm, Bool.not_true, Bool.false_eq_true, if_false]

end Sys2Proof.Machine
end

section
/-! PROOFS. Control flow, changes of width, and the step that runs a decoded instruction (05; 17 R357, R358).
-/

namespace Sys2Proof

open Sys2Proof.Machine

/-- Settles O4: a turn executes what it is said to, in the state in which the step has begun; a decoded word is no late effect, so
its group's schedulers are asked. -/
theorem stepRunsInstruction : Obligations.StepRunsInstruction := by
  unfold Obligations.StepRunsInstruction
  refine ⟨fun s k g iss i ts ha hg hl hc hm hd => ?_, fun s k g ts ha hg hc hl => ?_, fun s g => mayTurn_iff,
    fun s a b => ⟨preferred_of_starving, preferred_of_undeferred, preferred_of_alike⟩, counted_groups,
    fun s c w i ts ha hw hg hpc hin hd hf hs => ?_, fun s i ts ha => (step_agenda ha).trans (runTurn_event _ i),
    fun s f ts ha => step_agenda ha, fun s t ts u => step_default, fun s => rfl, fun s d hd => begin_die hd⟩
  · have hg' := (begin_group? s ts k).trans hg
    have hno : ∀ j, i ≠ .lateEffectDelivery j := by
      rintro j rfl
      exact nomatch fields_of_decodeWord hd
    rw [step_agenda ha, runTurn_group (turnOf_group hg' (chosen_word hg' hl hc hm hd) hno)]
  · have hg' := (begin_group? s ts k).trans hg
    rw [step_agenda ha, runTurn_group (turnOf_group hg' (chosen_header hg' hl hc) fun _ => Instr.noConfusion)]
  · have hgo := (walkerGoes_begin s c w).trans hg
    exact (step_agenda ha).trans (runTurn_walker (chosen_walker hw hgo hpc hin hd hf hs))

/-- Settles O18: each word by the branch of its meaning that the condition names. -/
theorem controlFlow : Obligations.ControlFlow := by
  unfold Obligations.ControlFlow
  refine ⟨fun s g iss hr _ => issue_act hr rfl,
    fun neg p off s g iss hr h => issue_act hr (if_pos ?bra),
    fun neg p off l s g iss hr ⟨hl, hn⟩ => issue_act hr (if_neg (by simpa [hl] using hn)),
    fun a neg p s g iss hr hb => issue_act hr (notInBody_outside hb _),
    fun neg p off s g iss hr ⟨hb, hm, hw⟩ =>
      issue_act hr ((notInBody_outside hb _).trans ((if_neg hm).trans (if_neg (ne_true_of_eq_false hw)))),
    fun neg p off s g iss hr ⟨hb, hm⟩ => issue_act hr ((notInBody_outside hb _).trans (if_pos hm)),
    fun neg p off s g iss hr ⟨hb, hm, hw⟩ => issue_act hr ((notInBody_outside hb _).trans ((if_neg hm).trans (if_pos hw))),
    fun i hi => ?inBody,
    fun s g iss hr ⟨hb, hh⟩ => issue_act hr ((notInBody_outside hb _).trans (if_neg (Nat.ne_of_gt hh))),
    fun s g iss hr ⟨hb, hh⟩ => issue_act hr ((notInBody_outside hb _).trans (if_pos hh)),
    fun s g iss hr _ => issue_act hr rfl,
    fun s g iss hr hb => issue_act hr (notInBody_outside hb _),
    fun a n s g iss hr ⟨h0, hl, ha, hn, hw⟩ => issue_act hr ((if_neg (loop_accepted hl ha hn hw)).trans (if_neg h0)),
    fun a n s g iss hr h => issue_act hr (if_pos (loopRefused_iff.mpr h)),
    fun a n s g iss hr ⟨h0, hl, ha, hn, hw⟩ => issue_act hr ((if_neg (loop_accepted hl ha hn hw)).trans (if_pos h0)),
    fun a imm s g iss hr h => issue_act hr (if_pos h),
    fun a imm s g iss hr h => issue_act hr (if_neg h),
    fun a add s g iss hr _ => issue_act hr rfl,
    fun s g iss hr _ => issue_act hr rfl,
    fun a id s g iss hr _ => issue_act hr ?bkm,
    fun m s g iss hr h => issue_act hr (if_neg ?waitf),
    fun m i s g iss hr h => issue_hold hr (if_pos (flagAwaited_iff.mpr ⟨i, h⟩))⟩
  case bra =>
    cases hl : bodyLoop (mkIns s g iss (.bra neg p off)) with
    | none => rfl
    | some l => simpa using h l hl
  case inBody =>
    intro s g iss hr hb
    rcases hi with ⟨a, neg, p, rfl⟩ | ⟨neg, p, off, rfl⟩ | rfl | rfl
    all_goals exact issue_act hr (notInBody_inside hb _)
  case bkm =>
    rw [← BitVec.ofNat_toNat]
    rfl
  case waitf =>
    rw [flagAwaited_iff]
    rintro ⟨i, hi, hm, hp⟩
    exact ne_true_of_eq_false (h i hi hm) hp

/-- Settles O19: SPLIT by its two stages, FUSE by its stages and by what it finds of its partners. -/
theorem widthChanges : Obligations.WidthChanges := by
  unfold Obligations.WidthChanges
  refine ⟨fun d w s g iss hr hu => issue_hold hr (if_pos hu),
    fun d w code s g iss hr ⟨hu, hs⟩ => issue_act hr ((if_neg (ne_true_of_eq_false hu)).trans (by rw [hs]; rfl)),
    fun d w s g iss hr ⟨hu, hs⟩ => issue_act hr ((if_neg (ne_true_of_eq_false hu)).trans (by rw [hs]; rfl)),
    fun d a tag s g iss hr ⟨hp, hu⟩ => ?_, fun d a tag code s g iss hr ⟨hp, hu, hs⟩ => ?_, ?_,
    fun s k g p hg hw hm => exec_fuseTimeout hg hw hm⟩
  · obtain ⟨m, he, hm, -⟩ := exec_fuse d a tag
    exact (he s).trans (issue_hold hr (hm _ hp hu))
  · obtain ⟨m, he, -, hm, -⟩ := exec_fuse d a tag
    exact (he s).trans (issue_act hr (hm _ code hp hu hs))
  · rintro _ rfl
    refine ⟨fun d a tag s g iss hr ⟨hst, hgone⟩ => ?_, fun d a tag s g iss hr hst hall hn => ?_,
      fun d a tag s g iss hr ⟨hst, hall, hn, hsame⟩ => ?_, fun d a tag s g iss hr ⟨hst, hall, hn, hdiff⟩ => ?_⟩
    all_goals
      obtain ⟨m, he, -, -, hm⟩ := exec_fuse d a tag
      rw [he s]
    · exact issue_act hr ((hm _ hst).trans (fuseMeet_gone hgone))
    · exact issue_hold hr ((hm _ hst).trans (fuseMeet_waits hall hn))
    · exact issue_act hr ((hm _ hst).trans ((fuseMeet_met hall hn).trans (rendezvous_alike hsame)))
    · exact issue_act hr ((hm _ hst).trans ((fuseMeet_met hall hn).trans (rendezvous_differs hdiff)))

end Sys2Proof
end

section
/-! SUPPORT. The shuffles and votes by the conditions that their statements name (06 R157, R160), and a group whose write shows what a
never-launched lane holds (01 R39).
-/

namespace Sys2Proof.Machine

open Sys2Proof

/-! ### Segments of a shuffle -/

section
variable {x : Ins} {seg : Fin 8}

theorem segOk_of_le (h : segExp x.g.wcode seg.val ≤ x.g.wcode + 3) : segOk x seg = true := decide_eq_true h

theorem not_segOk_of_lt (h : x.g.wcode + 3 < segExp x.g.wcode seg.val) : ¬segOk x seg = true :=
  ne_true_of_eq_false (decide_eq_false (Nat.not_le.mpr h))

end

/-! ### Votes -/

/-- What a vote other than a ballot writes: ones where the vote carries, zeros elsewhere (06 R160). -/
theorem voteBits_eq {fn : VoteFn} {on act full : Mask} {p : Prop} [Decidable p] (h : voteOf fn on act = true ↔ p) :
    (if voteOf fn on act = true then full else 0#128) = if p then full else 0#128 := by
  by_cases hp : p
  · rw [if_pos hp, if_pos (h.mpr hp)]
  · rw [if_neg hp, if_neg fun hv => hp (h.mp hv)]

theorem voteOf_any (on act : Mask) : voteOf .any on act = true ↔ on ≠ 0#128 := bne_iff_ne

theorem voteOf_all (on act : Mask) : voteOf .all on act = true ↔ on = act := beq_iff_eq

theorem voteOf_uni (on act : Mask) : voteOf .uni on act = true ↔ on = 0#128 ∨ on = act := by
  simp only [voteOf, Bool.or_eq_true, beq_iff_eq]

/-! ### A lane that was never launched -/

/-- A group of width 8 of which lane 0 alone was launched (01 R39), as it starts. -/
def loneGroup : Group := Group.start ⟨0, 0, 0⟩ 0 0 4 32 0 [] 1

/-- The lone group after the last read of its register 0, whose live bit is clear (01 R15). -/
def spentGroup : Group := loneGroup.setVreg 0 { loneGroup.vreg 0 with live := false }

end Sys2Proof.Machine
end

section
/-! PROOFS. Lane maps: shuffles, votes, keyed words, scans and reductions (06 R156 to R167; 07 R201), and what threads read after a
write under a map (06 R150).
-/

namespace Sys2Proof

open Sys2Proof.Machine

/-- Settles O15: a word without a condition by its meaning, a word that checks an operand by the branch of 06 R157 that the condition
names. -/
theorem shuffles : Obligations.Shuffles := by
  unfold Obligations.Shuffles
  refine ⟨fun d a b s g iss hr _ => issue_act hr rfl,
    fun d a b s g iss hr h => issue_act hr (if_pos h),
    fun d a b s g iss hr h => issue_act hr (if_neg (ne_true_of_eq_false h)),
    fun d a b seg s g iss hr h => issue_act hr (if_pos (segOk_of_le h)),
    fun d a b seg s g iss hr h => issue_act hr (if_neg (not_segOk_of_lt h)),
    fun d a b s g iss hr h => issue_act hr (if_pos h),
    fun d a b s g iss hr h => issue_act hr (if_neg (ne_true_of_eq_false h)),
    fun d n s g iss hr _ => issue_act hr rfl,
    fun d a p s g iss hr ⟨hw, hd⟩ => issue_act hr ((if_pos hw).trans ?mapWr),
    fun d a s g iss hr h => issue_act hr (if_neg (ne_true_of_eq_false h)),
    fun d a s g iss hr _ => issue_act hr rfl,
    fun d a b s g iss hr _ => issue_act hr rfl,
    fun d a b seg s g iss hr h => issue_act hr (if_pos (segOk_of_le h)),
    fun d a b seg s g iss hr h => issue_act hr (if_neg (not_segOk_of_lt h))⟩
  case mapWr => simp only [hd]; rfl

/-- Settles O16: a vote by when it carries, a ballot by the branch that its place names; the other words write what is stated. -/
theorem laneReductions : Obligations.LaneReductions := by
  unfold Obligations.LaneReductions
  refine ⟨fun d p neg s g iss hr _ => issue_act hr ?any, fun d p neg s g iss hr _ => issue_act hr ?all,
    fun d p neg s g iss hr _ => issue_act hr ?uni,
    fun d p neg s g iss hr ⟨hz, hle⟩ => issue_act hr ((if_neg hz).trans (if_neg (Nat.not_lt.mpr hle))),
    fun d a f s g iss hr _ => issue_act hr rfl, fun d a f s g iss hr _ => issue_act hr rfl,
    fun d a f s g iss hr _ => issue_act hr rfl, fun d a f next s g iss hr _ => issue_act hr rfl,
    fun d a b s g iss hr _ => issue_act hr rfl, fun d a h seg ex op s g iss hr _ => issue_act hr rfl,
    fun d a b f op s g iss hr _ => issue_act hr rfl, fun d a h last op p s g iss hr hd => issue_act hr ?segr⟩
  case any => simp only [voteBits_eq (voteOf_any _ _)]; rfl
  case all => simp only [voteBits_eq (voteOf_all _ _)]; rfl
  case uni => simp only [voteBits_eq (voteOf_uni _ _)]; rfl
  case segr => simp only [hd]; rfl

/-- Refutes O54: lane 0 writes a register whose live bit is clear. Lane 1 was never launched: it read the dead word before, and reads
the zero of 01 R39 afterwards. -/
theorem not_threadResults : ¬Obligations.ThreadResults := by
  unfold Obligations.ThreadResults
  intro h
  have hfits : LaneMapFits (LaneMap.ident 0) := ⟨by decide, by decide, by decide, by decide⟩
  obtain ⟨-, hothers, -⟩ := h spentGroup 0 0 (LaneMap.ident 0) 1#128 (fun _ => 7#32) (by decide) rfl hfits (by decide)
    (by decide) (by decide) (by decide)
  have hbefore : (spentGroup.vreg 0).value 1 = deadWord := by decide
  have hafter : ((spentGroup.writeVec 0 0 (LaneMap.ident 0) 1#128 fun _ => 7#32).vreg 0).value 1 = 0#32 := by decide
  have hkept := hothers 1 (by decide) (by decide)
  rw [hbefore, hafter] at hkept
  exact absurd hkept (by decide)

end Sys2Proof
end

section
/-! SUPPORT. Element words without flags, comparisons, and what they have in common (07 R168, R169; 06 R150).
-/

namespace Sys2Proof.Machine

open Sys2Proof

/-! ### Results that raise no flag -/

/-- Threads that raise nothing raise nothing together. -/
@[simp] theorem threadFlags_zero (x : Ins) : threadFlags x (fun _ => 0#7) = 0#7 :=
  foldl_fix fun _ hf => by
    obtain ⟨_, -, rfl⟩ := List.mem_map.mp hf
    rfl

section
variable {α β : Type} [DecidableEq α] [DecidableEq β]

/-- Which result a shared element keeps does not depend on a part that all threads have alike. -/
theorem keeper_pair (tick : Nat) (r : Nat → α) (b : β) (ts : List Nat) :
    keeper tick (fun t => (r t, b)) ts = keeper tick r ts := by
  cases ts with
  | nil => rfl
  | cons t ts => simp only [keeper, Prod.mk.injEq, and_true]

/-- Computing each element once keeps a part that all threads have alike. -/
theorem once_pair (g : Group) (tick : Nat) (m : LaneMap) (t : Mask) (r : Nat → α) (b : β) (u : Nat) :
    g.once tick m t (fun v => (r v, b)) u = (g.once tick m t r u, b) := by
  simp only [Group.once, keeper_pair]
  split <;> rfl

end

/-- An element operation without flags writes its results. -/
theorem elemInt_eq (x : Ins) (third : Bool) (op : Word → Word → Word → Word) :
    elemInt x third op = .done (putElem x (commonOf x third) (results x third op)) := by
  simp only [elemInt, elem, once_pair, threadFlags_zero, ite_self]
  rfl

/-- A word whose meaning is an element operation without flags completes with the results of any operation of the same values. -/
theorem computes_of_exec {i : Instr} {third : Bool} {op rule : Word → Word → Word → Word}
    (h : ∀ s, exec i s = issue i s fun x => elemInt x third op) (hop : ∀ a b d, op a b d = rule a b d) :
    Computes i third rule := by
  obtain rfl : op = rule := funext fun a => funext fun b => funext fun d => hop a b d
  exact fun s _ _ hr _ => (h s).trans (issue_act hr (elemInt_eq ..))

/-! ### Comparisons -/

/-- A comparison without flags writes the threads' answers, or the one answer of scalar form. -/
theorem compare_eq (x : Ins) (p : Fin 8) (rel : Word → Word → Bool) :
    compare x p (fun a b => (rel a b, 0#7)) = .done (x.mod fun g => g.setPred p.val
      (if x.vector then maskOf x.g.width fun t => rel (x.a.val t) (x.b.val t)
       else if rel x.a.sca x.b.sca then x.g.full else 0#128) x.act) := by
  simp only [compare, threadFlags_zero, ite_self]
  rfl

/-- A word whose meaning is a comparison decides any relation with the same answers. -/
theorem decides_of_exec {i : Instr} {p : Fin 8} {op rel : Word → Word → Bool}
    (h : ∀ s, exec i s = issue i s fun x => compare x p fun a b => (op a b, 0#7)) (hop : ∀ a b, op a b = rel a b) :
    Decides i p rel := by
  obtain rfl : op = rel := funext fun a => funext fun b => hop a b
  exact fun s _ _ hr _ => (h s).trans (issue_act hr (compare_eq ..))

end Sys2Proof.Machine
end

section
/-! SUPPORT. What the integer, logic and shift operations give (07 R172 to R175, R178, R182).
-/

namespace Sys2Proof.Machine

open Sys2Proof

/-! ### Sums, products, extrema and signs (07 R172 to R174) -/

theorem wordOfInt_natCast (n : Nat) : wordOfInt n = BitVec.ofNat 32 n := BitVec.ofInt_natCast ..

/-- Clamping to the unsigned words takes what is below 0 to 0, as does a difference of naturals. -/
theorem clampTo_unsigned {i : Int} {n : Nat} (h : i.toNat = n) : clampTo 0 (2 ^ 32 - 1) i = (min n 4294967295 : Nat) := by
  unfold clampTo
  omega

theorem addOp_eq (m : SatMode) (a b : Word) : addOp m a b = match m with
    | .wrap => a + b
    | .sat => BitVec.ofInt 32 (max (-2147483648) (min (a.toInt + b.toInt) 2147483647))
    | .nsat => BitVec.ofNat 32 (min (a.toNat + b.toNat) 4294967295) := by
  cases m with
  | wrap => exact (wordOfInt_natCast _).trans (BitVec.eq_of_toNat_eq (by simp))
  | sat => rfl
  | nsat => exact (congrArg wordOfInt (clampTo_unsigned (Int.toNat_natCast _))).trans (wordOfInt_natCast _)

theorem subOp_eq (m : SatMode) (a b : Word) : subOp m a b = match m with
    | .wrap => a - b
    | .sat => BitVec.ofInt 32 (max (-2147483648) (min (a.toInt - b.toInt) 2147483647))
    | .nsat => BitVec.ofNat 32 (a.toNat - b.toNat) := by
  cases m with
  | wrap =>
    refine BitVec.eq_of_toNat_eq ?_
    simp only [subOp, saturate, wordOfInt, BitVec.toNat_ofInt, BitVec.toNat_sub]
    omega
  | sat => rfl
  | nsat =>
    have hcut : min (a.toNat - b.toNat) 4294967295 = a.toNat - b.toNat := by have := a.isLt; omega
    refine (congrArg wordOfInt (clampTo_unsigned (n := a.toNat - b.toNat) (by omega))).trans ?_
    rw [hcut]
    exact wordOfInt_natCast _

/-- The high word of a 64-bit integer. -/
theorem extractHigh_ofInt (i : Int) : (BitVec.ofInt 64 i).extractLsb' 32 32 = wordOfInt (i / 2 ^ 32) := by
  refine BitVec.eq_of_toNat_eq ?_
  simp only [wordOfInt, BitVec.extractLsb'_toNat, BitVec.toNat_ofInt, Nat.shiftRight_eq_div_pow]
  omega

theorem mulOp_eq (m : MulMode) (a b : Word) : mulOp m a b = match m with
    | .low => a * b
    | .hi => (BitVec.ofInt 64 (a.toInt * b.toInt)).extractLsb' 32 32
    | .nhi => (BitVec.ofNat 64 (a.toNat * b.toNat)).extractLsb' 32 32 := by
  cases m with
  | low => rfl
  | hi => exact (extractHigh_ofInt _).symm
  | nhi =>
    simp only [mulOp, word, ← BitVec.ofInt_natCast, extractHigh_ofInt]
    rfl

theorem mulAdd_eq (a b d : Word) : a * b + d = BitVec.ofNat 32 (a.toNat * b.toNat + d.toNat) :=
  BitVec.eq_of_toNat_eq (by simp)

/-- The unsigned extremum has the extreme value of the two. -/
theorem minMaxOp_toNat (gt : Bool) (a b : Word) :
    (minMaxOp true gt a b).toNat = if gt then max a.toNat b.toNat else min a.toNat b.toNat := by
  cases gt with
  | true =>
    simp only [minMaxOp, if_true, BitVec.ult_eq_decide, decide_eq_true_eq]
    split <;> omega
  | false =>
    simp only [minMaxOp, if_true, Bool.false_eq_true, if_false, BitVec.ult_eq_decide, decide_eq_true_eq]
    split <;> omega

/-- The signed extremum has the extreme value of the two. -/
theorem minMaxOp_toInt (gt : Bool) (a b : Word) :
    (minMaxOp false gt a b).toInt = if gt then max a.toInt b.toInt else min a.toInt b.toInt := by
  cases gt with
  | true =>
    simp only [minMaxOp, if_true, Bool.false_eq_true, if_false, BitVec.slt_eq_decide, decide_eq_true_eq]
    split <;> omega
  | false =>
    simp only [minMaxOp, Bool.false_eq_true, if_false, BitVec.slt_eq_decide, decide_eq_true_eq]
    split <;> omega

theorem minMaxOp_eq (uns gt : Bool) (a b : Word) : minMaxOp uns gt a b = match uns, gt with
    | true, true => BitVec.ofNat 32 (max a.toNat b.toNat)
    | true, false => BitVec.ofNat 32 (min a.toNat b.toNat)
    | false, true => BitVec.ofInt 32 (max a.toInt b.toInt)
    | false, false => BitVec.ofInt 32 (min a.toInt b.toInt) := by
  cases uns with
  | true =>
    rw [← BitVec.setWidth_eq (minMaxOp true gt a b), ← BitVec.ofNat_toNat, minMaxOp_toNat]
    cases gt <;> rfl
  | false =>
    rw [← BitVec.ofInt_toInt (x := minMaxOp false gt a b), minMaxOp_toInt]
    cases gt <;> rfl

theorem unaOp_eq (fn : UnaFn) (a : Word) : unaOp fn a = match fn with
    | .abs => BitVec.ofInt 32 a.toInt.natAbs
    | .neg => BitVec.ofInt 32 (-a.toInt)
    | .sabs => BitVec.ofInt 32 (min a.toInt.natAbs 2147483647)
    | .sneg => BitVec.ofInt 32 (min (-a.toInt) 2147483647) := by
  have hneg : -a = BitVec.ofInt 32 (-a.toInt) := by rw [BitVec.ofInt_neg, BitVec.ofInt_toInt]
  have hlo := a.le_toInt
  have hhi := a.toInt_lt
  cases fn with
  | abs =>
    by_cases h : a.toInt < 0
    · simp only [unaOp, if_pos h, hneg]
      congr 1
      omega
    · simp only [unaOp, if_neg h]
      rw [show (a.toInt.natAbs : Int) = a.toInt by omega, BitVec.ofInt_toInt]
  | neg => exact hneg
  | sabs | sneg =>
    refine congrArg wordOfInt ?_
    simp only [clampTo]
    omega

/-! ### Shifts and scaled addresses (07 R175, R182) -/

/-- A shift to the left by 32 or more gives 0. -/
theorem shlOp_eq (a b : Word) : shlOp a b = a <<< b.toNat := by
  unfold shlOp
  split
  · rfl
  · next h => exact (BitVec.shiftLeft_eq_zero (Nat.le_of_not_lt h)).symm

/-- An arithmetic shift by more than 31 gives 32 copies of the sign bit, as does one by 31. -/
theorem sshiftRight_min (a : Word) (n : Nat) : a.sshiftRight (min n 31) = a.sshiftRight n := by
  rcases Nat.le_total n 31 with h | h
  · rw [Nat.min_eq_left h]
  · rw [Nat.min_eq_right h]
    ext i hi
    simp only [BitVec.getElem_sshiftRight, BitVec.msb_eq_getLsbD_last]
    split
    · obtain rfl : i = 0 := by omega
      split
      · obtain rfl : n = 31 := by omega
        rfl
      · rfl
    · rw [dif_neg (by omega)]

theorem shrOp_eq (m : ShrMode) (a b : Word) : shrOp m a b = match m with
    | .logical => a >>> b.toNat
    | .arith => a.sshiftRight b.toNat
    | .rot => a.rotateRight b.toNat := by
  cases m with
  | logical =>
    simp only [shrOp]
    split
    · rfl
    · next h => exact (BitVec.ushiftRight_eq_zero (Nat.le_of_not_lt h)).symm
  | arith => exact sshiftRight_min ..
  | rot => exact BitVec.rotateRight_mod_eq_rotateRight

theorem shiOp_eq (k : ShiKind) (n : Nat) (a : Word) : shiOp k n a = match k with
    | .shl => a <<< n
    | .shr => a >>> n
    | .sar => a.sshiftRight n
    | .rot => a.rotateRight n := by
  cases k <;> rfl

theorem addrOp_eq (k : Nat) (a b : Word) : addrOp k a b = BitVec.ofNat 32 (a.toNat + b.toNat * 2 ^ k) :=
  BitVec.eq_of_toNat_eq (by simp [addrOp, Nat.shiftLeft_eq])

/-! ### Conditions (07 R178) -/

theorem condOp_eq (c : ICond) (a b : Word) : condOp c a b = match c with
    | .eq => decide (a = b)
    | .ne => decide (a ≠ b)
    | .lt => decide (a.toInt < b.toInt)
    | .ge => decide (b.toInt ≤ a.toInt)
    | .lo => decide (a.toNat < b.toNat)
    | .hs => decide (b.toNat ≤ a.toNat)
    | .tst => decide (a &&& b ≠ 0)
    | .ntst => decide (a &&& b = 0) := by
  cases c with
  | eq => rfl
  | ne => exact (decide_not ..).symm
  | lt => rfl
  | ge => simp only [condOp, BitVec.slt_eq_decide, ← decide_not, Int.not_lt]
  | lo => rfl
  | hs => simp only [condOp, BitVec.ult_eq_decide, ← decide_not, Nat.not_lt]
  | tst => exact (decide_not ..).symm
  | ntst => rfl

/-- An immediate compares as a signed value where it is sign-extended, as an unsigned one where it is zero-extended. -/
theorem condOp_setImm_eq (c : ICond) (a : Word) (imm : BitVec 11) : condOp c a (setImm c imm) = match c with
    | .eq => decide (a.toInt = imm.toInt)
    | .ne => decide (a.toInt ≠ imm.toInt)
    | .lt => decide (a.toInt < imm.toInt)
    | .ge => decide (imm.toInt ≤ a.toInt)
    | .lo => decide (a.toNat < imm.toNat)
    | .hs => decide (imm.toNat ≤ a.toNat)
    | .tst => decide (a &&& imm.signExtend 32 ≠ 0)
    | .ntst => decide (a &&& imm.signExtend 32 = 0) := by
  have hs : (imm.signExtend 32).toInt = imm.toInt := BitVec.toInt_signExtend_of_le (by decide)
  have hz : (imm.setWidth 32).toNat = imm.toNat := BitVec.toNat_setWidth_of_le (by decide)
  rw [condOp_eq]
  cases c with
  | eq => simp only [setImm, ← BitVec.toInt_inj, hs]
  | ne => simp only [setImm, ne_eq, ← BitVec.toInt_inj, hs]
  | lt => simp only [setImm, hs]
  | ge => simp only [setImm, hs]
  | lo => simp only [setImm, hz]
  | hs => simp only [setImm, hz]
  | tst => rfl
  | ntst => rfl

end Sys2Proof.Machine
end

section
/-! SUPPORT. Bit fields and bit counts (07 R176, R177), predicate logic and the bucket test (07 R179; 09 R257).
-/

namespace Sys2Proof.Machine

open Sys2Proof

/-! ### BFX (07 R176) -/

/-- The position of a BFX field. -/
def bfxPos (b : Word) : Nat := (b.extractLsb' 0 5).toNat

/-- The length of a BFX field, cut at bit 31. -/
def bfxLen (b : Word) : Nat := min (bfxPos b + min (b.extractLsb' 8 6).toNat 32) 32 - bfxPos b

theorem bfxField_eq (b : Word) : bfxField b = (bfxPos b, bfxLen b) := by
  have hp : bfxPos b = b.toNat % 32 := by simp [bfxPos]
  have hn : (b.extractLsb' 8 6).toNat = b.toNat / 2 ^ 8 % 64 := by simp [Nat.shiftRight_eq_div_pow]
  rw [bfxLen, hp, hn]
  rfl

/-- A field ends at bit 31 at the latest. -/
theorem bfxPos_add_bfxLen_le (b : Word) : bfxPos b + bfxLen b ≤ 32 := by
  have : bfxPos b < 2 ^ 5 := BitVec.isLt _
  unfold bfxLen
  omega

/-- The word of the n lowest bits. -/
theorem getLsbD_lowBits {n i : Nat} (hi : i < 32) : (word (2 ^ n - 1)).getLsbD i = decide (i < n) := by
  rw [word, BitVec.getLsbD_ofNat, Nat.testBit_two_pow_sub_one, decide_eq_true hi, Bool.true_and]

section
variable {a b d : Word} {i : Nat} (hi : i < 32)
include hi

/-- The n bits of a word from a position on, at bit 0. -/
theorem getLsbD_bitsFrom (p n : Nat) :
    ((a >>> p) &&& word (2 ^ n - 1)).getLsbD i = (decide (i < n) && a.getLsbD (p + i)) := by
  rw [BitVec.getLsbD_and, BitVec.getLsbD_ushiftRight, getLsbD_lowBits hi, Bool.and_comm]

theorem getLsbD_bfxOp_n : (bfxOp .n a b d).getLsbD i = (decide (i < bfxLen b) && a.getLsbD (bfxPos b + i)) := by
  simp only [bfxOp, bfxField_eq, getLsbD_bitsFrom hi]

theorem getLsbD_bfxOp_s : (bfxOp .s a b d).getLsbD i =
    (decide (0 < bfxLen b) && a.getLsbD (bfxPos b + min i (bfxLen b - 1))) := by
  have hle := bfxPos_add_bfxLen_le b
  have hsign : i < bfxLen b → min i (bfxLen b - 1) = i := by omega
  have hcopy : ¬i < bfxLen b → min i (bfxLen b - 1) = bfxLen b - 1 := by omega
  simp only [bfxOp, bfxField_eq]
  rcases Nat.eq_zero_or_pos (bfxLen b) with h0 | h0
  · rw [if_neg fun h => h.1 h0, getLsbD_bitsFrom hi, h0]
    simp
  · rw [getLsbD_bitsFrom (by omega : bfxLen b - 1 < 32), decide_eq_true (by omega : bfxLen b - 1 < bfxLen b),
      decide_eq_true h0, Bool.true_and, Bool.true_and]
    by_cases hn : i < bfxLen b
    · rw [hsign hn]
      split
      · simp [getLsbD_bitsFrom hi, getLsbD_lowBits hi, hn]
      · simp [getLsbD_bitsFrom hi, hn]
    · rw [hcopy hn]
      split
      · next h =>
        rw [BitVec.getLsbD_or, getLsbD_bitsFrom hi, BitVec.getLsbD_not, getLsbD_lowBits hi]
        simp [hn, hi, h.2]
      · next h => simpa [getLsbD_bitsFrom hi, hn, Nat.ne_of_gt h0] using h

theorem getLsbD_bfxOp_ins : (bfxOp .ins a b d).getLsbD i =
    if bfxPos b ≤ i ∧ i < bfxPos b + bfxLen b then a.getLsbD (i - bfxPos b) else d.getLsbD i := by
  simp only [bfxOp, bfxField_eq, BitVec.getLsbD_or, BitVec.getLsbD_and, BitVec.getLsbD_not,
    BitVec.getLsbD_shiftLeft, getLsbD_lowBits (show i - bfxPos b < 32 by omega), hi]
  by_cases hp : bfxPos b ≤ i
  · by_cases hn : i - bfxPos b < bfxLen b
    · simp [hp, hn, Nat.not_lt.mpr hp, show i < bfxPos b + bfxLen b by omega]
    · simp [hp, hn, Nat.not_lt.mpr hp, show ¬i < bfxPos b + bfxLen b by omega]
  · simp [hp, Nat.lt_of_not_le hp]

end

/-! ### BITS (07 R177) -/

theorem bitsOp_popc (a : Word) : bitsOp .popc a = BitVec.ofNat 32 ((List.range 32).countP a.getLsbD) := by
  rw [List.countP_eq_length_filter]
  rfl

/-- As many numbers from 0 on satisfy a test as the place of the first that does not. -/
theorem length_takeWhile_range (p : Nat → Bool) (n : Nat) :
    ((List.range n).takeWhile p).length = (List.range n).findIdx fun i => !p i := by
  rw [List.takeWhile_eq_take_findIdx_not, List.length_take]
  exact Nat.min_eq_left List.findIdx_le_length

/-- The number of leading zeros as a place in the list of bits from bit 31 down. -/
theorem toNat_bitsOp_clz (a : Word) :
    (bitsOp .clz a).toNat = (List.range 32).findIdx fun i => a.getLsbD (31 - i) := by
  have hle : (List.range 32).findIdx (fun i => a.getLsbD (31 - i)) ≤ 32 := List.findIdx_le_length
  simp only [bitsOp, word, length_takeWhile_range, Bool.not_not, BitVec.toNat_ofNat]
  omega

theorem bitsOp_clz_spec (a : Word) : (bitsOp .clz a).toNat ≤ 32 ∧
    (∀ i < (bitsOp .clz a).toNat, a.getLsbD (31 - i) = false) ∧
    ((bitsOp .clz a).toNat < 32 → a.getLsbD (31 - (bitsOp .clz a).toNat) = true) := by
  rw [toNat_bitsOp_clz]
  refine ⟨List.findIdx_le_length, fun i hi => ?_, fun h => ?_⟩
  · simpa using List.not_of_lt_findIdx hi
  · have hw : (List.range 32).findIdx (fun i => a.getLsbD (31 - i)) < (List.range 32).length := by rwa [List.length_range]
    simpa using List.findIdx_getElem (w := hw)

theorem bitsOp_ffs_spec (a : Word) : (a = 0 → bitsOp .ffs a = 0xFFFFFFFF#32) ∧
    (a ≠ 0 → a.getLsbD (bitsOp .ffs a).toNat = true ∧ ∀ i < (bitsOp .ffs a).toNat, a.getLsbD i = false) := by
  cases h : (List.range 32).find? fun i => a.getLsbD i with
  | none =>
    have h0 : a = 0 := BitVec.eq_of_getLsbD_eq fun i hi => by simpa using List.find?_range_eq_none.mp h i hi
    exact ⟨fun _ => by simp only [bitsOp, h]; rfl, fun hne => absurd h0 hne⟩
  | some n =>
    obtain ⟨hn, hlt, hbelow⟩ := List.find?_range_eq_some.mp h
    have hval : (bitsOp .ffs a).toNat = n := by
      have := List.mem_range.mp hlt
      simp only [bitsOp, h, word, BitVec.toNat_ofNat]
      omega
    rw [hval]
    refine ⟨fun h0 => ?_, fun _ => ⟨hn, fun i hi => by simpa using hbelow i hi⟩⟩
    subst h0
    simp at hn

/-! ### Predicates (07 R179; 09 R257) -/

/-- One bit of a result of PLOG. -/
def plogBit (op : PlogOp) (u v : Bool) : Bool :=
  match op with
  | .and => u && v
  | .or => u || v
  | .xor => u != v
  | .andn => u && !v
  | .orn => u || !v
  | .xnor => u == v
  | .nand => !(u && v)
  | .nor => !(u || v)

theorem has_plogOp (op : PlogOp) (a b : Mask) {t : Nat} (ht : t < 128) :
    has (plogOp op a b) t = plogBit op (has a t) (has b t) := by
  have hxnor : ∀ u v : Bool, (!(u ^^ v)) = (u == v) := by decide
  cases op <;> simp only [has, plogOp, plogBit, hxnor, BitVec.getLsbD_and, BitVec.getLsbD_or, BitVec.getLsbD_xor,
    BitVec.getLsbD_not, decide_eq_true ht, Bool.true_and]

theorem has_one (u : Nat) {t : Nat} (ht : t < 128) : has (one u) t = decide (t = u) := by
  simp only [has, one, BitVec.getLsbD_shiftLeft, BitVec.getLsbD_one, decide_eq_true ht]
  rcases Nat.lt_trichotomy t u with h | h | h
  · simp [h, Nat.ne_of_lt h]
  · simp [h]
  · simp [Nat.ne_of_gt h, Nat.not_lt_of_gt h, Nat.sub_ne_zero_of_lt h]

theorem has_maskOf (n : Nat) (p : Nat → Bool) {t : Nat} (ht : t < 128) : has (maskOf n p) t = (decide (t < n) && p t) := by
  induction n with
  | zero => simp [maskOf, has]
  | succ n ih =>
    have hstep : has (maskOf (n + 1) p) t = (has (maskOf n p) t || (p n && has (one n) t)) := by
      simp only [maskOf, List.range_succ, List.foldl_append, List.foldl_cons, List.foldl_nil]
      cases p n with
      | true => exact BitVec.getLsbD_or ..
      | false => exact (Bool.or_false _).symm
    rw [hstep, ih, has_one n ht]
    by_cases h : t = n
    · simp [h]
    · simp [h, show t < n + 1 ↔ t < n by omega]

theorem plogOp_eq (op : PlogOp) (a b : Mask) : plogOp op a b = maskOf 128 fun t => plogBit op (has a t) (has b t) := by
  refine BitVec.eq_of_getLsbD_eq fun t ht => ?_
  exact (has_plogOp op a b ht).trans (by rw [← has, has_maskOf 128 _ ht, decide_eq_true ht, Bool.true_and])

/-- A key lies within two bounds, or above the upper one. -/
theorem bucketTest_eq (within : Bool) (lo hi t : Word) : (if within then lo.ule t && t.ule hi else hi.ult t) =
    if within then decide (lo.toNat ≤ t.toNat ∧ t.toNat ≤ hi.toNat) else decide (hi.toNat < t.toNat) := by
  cases within with
  | true => exact (Bool.decide_and ..).symm
  | false => rfl

end Sys2Proof.Machine
end

section
/-! SUPPORT. Division and its zero divisors (07 R181), the tests of RLT (07 R199).
-/

namespace Sys2Proof.Machine

open Sys2Proof

/-- IDIV by its divisors: all results go into flight, or those of the threads whose divisor is not 0 do and the others perform
DIVZERO; in scalar form a divisor of 0 is every thread's. -/
theorem exec_idiv (d a b : Reg) (ind uns rem : Bool) : ∃ m,
    (∀ s, exec (.idiv d a b ind uns rem) s = issue (.idiv d a b ind uns rem) s m) ∧
    (∀ x, zeroDivisors x = 0#128 →
      m x = .done (longElem x (commonOf x false) x.act (fun t => divOp uns rem (x.a.val t) (x.b.val t)) 0#7)) ∧
    ∀ x, zeroDivisors x ≠ 0#128 → m x = x.raise
      (if x.vector then
        longElem x (commonOf x false) (x.act &&& ~~~zeroDivisors x) (fun t => divOp uns rem (x.a.val t) (x.b.val t)) 0#7
       else x.flight x.s .ready [] 0#7)
      [x.perf 0x109 .once ((zeroDivisors x).setWidth 32) 0 0 (zeroDivisors x) (.value x.dst)] := by
  refine ⟨_, fun _ => rfl, fun x hz => (if_pos hz).trans ?_, fun x hz => (if_neg hz).trans ?_⟩
  · have hall : x.act &&& ~~~0#128 = x.act := BitVec.and_allOnes
    simp only [hz, bne_self_eq_false, Bool.and_false, Bool.false_eq_true, if_false, hall]
  · have hany : (zeroDivisors x != 0#128) = true := bne_iff_ne.mpr hz
    cases hv : x.vector with
    | true => simp only [Bool.not_true, Bool.false_and, Bool.false_eq_true, if_false, if_true]
    | false => simp only [hany, Bool.not_false, Bool.and_self, Bool.false_eq_true, if_false, if_true]

/-- Lengths added up one after the other. -/
theorem foldl_add_eq_sum (f : Nat → Nat) (l : List Nat) : l.foldl (fun n t => n + f t) 0 = (l.map f).sum := by
  rw [List.sum_eq_foldl_nat, List.foldl_map]

/-- No thread is found above a bound that all keep. -/
theorem find?_above_eq_none {f : Nat → Nat} {n : Nat} {l : List Nat} (h : ∀ t ∈ l, f t ≤ n) :
    l.find? (fun t => decide (n < f t)) = none :=
  List.find?_eq_none.mpr fun t ht hd => Nat.not_lt.mpr (h t ht) (of_decide_eq_true hd)

/-- The sum of the lengths of the active rows (07 R199). -/
def rowTotal (x : Ins) : Nat := ((lanesOf x.g.width x.act).map fun t => (x.a.val t).toNat).sum

/-- RLT by its tests: RANGE with the first length above 65,535, or with the total, or each row's length and start. -/
theorem exec_rlt (d a : Reg) : ∃ m, (∀ s, exec (.rlt d a) s = issue (.rlt d a) s m) ∧
    (∀ x t, (lanesOf x.g.width x.act).find? (fun u => decide (65535 < (x.a.val u).toNat)) = some t →
      m x = x.fail (x.range (x.a.val t))) ∧
    ∀ x, (∀ t ∈ lanesOf x.g.width x.act, (x.a.val t).toNat ≤ 65535) → m x =
      if 65535 < rowTotal x then x.fail (x.range (BitVec.ofNat 32 (rowTotal x)))
      else .done (putVec x (LaneMap.ident x.g.wcode) fun r => BitVec.ofNat 32 ((x.a.val r).toNat * 65536 +
        (((lanesOf x.g.width x.act).filter fun u => decide (u < r)).map fun u => (x.a.val u).toNat).sum)) := by
  refine ⟨_, fun _ => rfl, fun x t hf => ?_, fun x hl => ?_⟩
  · simp only [hf]
  · simp only [find?_above_eq_none hl, foldl_add_eq_sum]
    rfl

end Sys2Proof.Machine
end

section
/-! PROOFS. Integer arithmetic, logic, comparison and division; floating-point parts and checksums; ragged rows (07; 09 R254, R257).
-/

namespace Sys2Proof

open Sys2Proof.Machine

/-- Settles O7: each word is one element operation, and its operation has the stated results. -/
theorem integerArithmetic : Obligations.IntegerArithmetic := by
  unfold Obligations.IntegerArithmetic
  exact ⟨fun _ _ _ _ m => computes_of_exec (fun _ => rfl) fun a b _ => addOp_eq m a b,
    fun _ _ _ _ m => computes_of_exec (fun _ => rfl) fun a b _ => subOp_eq m a b,
    fun _ _ _ => computes_of_exec (fun _ => rfl) fun _ _ _ => rfl,
    fun _ _ _ _ m => computes_of_exec (fun _ => rfl) fun a b _ => mulOp_eq m a b,
    fun _ _ _ _ => computes_of_exec (fun _ => rfl) fun a b d => mulAdd_eq a b d,
    fun _ _ _ _ uns gt => computes_of_exec (fun _ => rfl) fun a b _ => minMaxOp_eq uns gt a b,
    fun _ _ _ fn => computes_of_exec (fun _ => rfl) fun a _ _ => unaOp_eq fn a⟩

/-- Settles O8: each word is one element operation; the shifts by their results at every count. -/
theorem logicAndShifts : Obligations.LogicAndShifts := by
  unfold Obligations.LogicAndShifts
  exact ⟨fun _ _ _ _ => computes_of_exec (fun _ => rfl) fun _ _ _ => rfl,
    fun _ _ _ _ => computes_of_exec (fun _ => rfl) fun _ _ _ => rfl,
    fun _ _ _ _ => computes_of_exec (fun _ => rfl) fun _ _ _ => rfl,
    fun _ _ _ _ => computes_of_exec (fun _ => rfl) fun _ _ _ => rfl,
    fun _ _ _ => computes_of_exec (fun _ => rfl) fun _ _ _ => rfl,
    fun _ _ _ => computes_of_exec (fun _ => rfl) fun _ _ _ => rfl,
    fun _ _ _ _ => computes_of_exec (fun _ => rfl) fun a b _ => shlOp_eq a b,
    fun _ _ _ _ m => computes_of_exec (fun _ => rfl) fun a b _ => shrOp_eq m a b,
    fun _ _ k n => computes_of_exec (fun _ => rfl) fun a _ _ => shiOp_eq k n.val a,
    fun _ _ _ _ k => computes_of_exec (fun _ => rfl) fun a b _ => addrOp_eq k.val a b⟩

/-- Settles O9: the field of BFX and the two counted indices of BITS are the model's own operations. -/
theorem bitFieldsAndCounts : Obligations.BitFieldsAndCounts := by
  unfold Obligations.BitFieldsAndCounts
  refine ⟨⟨bfxOp, fun m a b d i hi => ?_, fun d a b ind m => computes_of_exec (fun _ => rfl) fun _ _ _ => rfl⟩,
    bitsOp .clz, bitsOp .ffs, bitsOp_clz_spec, bitsOp_ffs_spec,
    fun d a ind fn => computes_of_exec (fun _ => rfl) fun a _ _ => ?_⟩
  · cases m with
    | n => exact getLsbD_bfxOp_n hi
    | s => exact getLsbD_bfxOp_s hi
    | ins => exact getLsbD_bfxOp_ins hi
  · cases fn with
    | popc => exact bitsOp_popc a
    | clz => rfl
    | brev => rfl
    | ffs => rfl

/-- Settles O10: comparisons by their relation, PLOG bit by bit, SEL by its form and the lowest active lane. -/
theorem comparisonAndSelection : Obligations.ComparisonAndSelection := by
  unfold Obligations.ComparisonAndSelection
  refine ⟨fun p a b ind c => decides_of_exec (fun _ => rfl) fun a b => condOp_eq c a b,
    fun p c a imm => decides_of_exec (fun _ => rfl) fun a _ => condOp_setImm_eq c a imm,
    fun p a b within k s g iss hr _ => issue_act hr ?bsel,
    fun d a b op => ⟨plogBit op, fun _ _ => by cases op <;> rfl, fun s g iss hr _ => issue_act hr ?plog⟩,
    fun d a b ind p s g iss hr hv => issue_act hr (if_pos hv),
    fun d a b ind p t s g iss hr ⟨hv, hl⟩ => issue_act hr ((if_neg (ne_true_of_eq_false hv)).trans ?lane),
    fun d a b ind p s g iss hr ⟨hv, hl⟩ => issue_act hr ((if_neg (ne_true_of_eq_false hv)).trans ?noLane)⟩
  case bsel =>
    refine (compare_eq ..).trans ?_
    simp only [bucketTest_eq]
    rfl
  case plog => simp only [plogOp_eq]; rfl
  case lane => simp only [hl]; rfl
  case noLane => simp only [hl]; rfl

/-- Settles O11: with no zero divisor every active thread's result goes into flight; with one, those of the others, and the word
performs DIVZERO. -/
theorem division : Obligations.Division := by
  unfold Obligations.Division
  intro d a b ind uns rem
  obtain ⟨m, hm, hclean, hzero⟩ := exec_idiv d a b ind uns rem
  refine ⟨divOp uns rem, fun a b _ => ?_, fun s g iss hr hz => (hm s).trans (issue_act hr (hclean _ hz)),
    fun s g iss hr hz => (hm s).trans (issue_act hr (hzero _ hz))⟩
  cases uns <;> cases rem <;> rfl

/-- Settles O13: each word is one element operation with the operation that the statement names; FSFU puts its results in flight. -/
theorem floatPartsAndChecksums : Obligations.FloatPartsAndChecksums := by
  unfold Obligations.FloatPartsAndChecksums
  exact ⟨fun _ _ _ _ fn => computes_of_exec (fun _ => rfl) fun _ _ _ => by cases fn <;> rfl,
    fun _ _ _ _ => computesFlags_of_exec fun _ => rfl, fun _ _ _ _ _ => computesFlags_of_exec fun _ => rfl,
    fun _ _ _ _ => computesFlags_of_exec fun _ => rfl, fun _ _ _ _ => computesFlags_of_exec fun _ => rfl,
    fun _ _ _ _ _ => computesFlags_of_exec fun _ => rfl, fun _ _ _ _ _ => computesFlags_of_exec fun _ => rfl,
    fun _ _ _ _ _ => computesFlags_of_exec fun _ => rfl, fun _ _ _ _ _ _ _ hr _ => issue_act hr rfl,
    fun _ _ _ _ => computes_of_exec (fun _ => rfl) fun _ _ _ => rfl⟩

/-- Settles O17: RLT by the first of its tests that fails, RWALK by what each position finds. -/
theorem raggedRows : Obligations.RaggedRows := by
  unfold Obligations.RaggedRows
  refine ⟨fun d a s g iss hr ⟨hlen, hsum⟩ => ?_, fun d a s g iss hr ⟨hlen, hsum⟩ => ?_, fun d a t s g iss hr hf => ?_,
    fun d a b h s g iss hr _ => issue_act hr rfl⟩
  all_goals obtain ⟨m, hm, hlong, hshort⟩ := exec_rlt d a
  · exact (hm s).trans (issue_act hr ((hshort _ hlen).trans (if_neg (Nat.not_lt.mpr hsum))))
  · exact (hm s).trans (issue_act hr ((hshort _ hlen).trans (if_pos hsum)))
  · exact (hm s).trans (issue_act hr (hlong _ t hf))

end Sys2Proof
end

section
/-! SUPPORT. Accesses of loads, stores and atomics by the fates of their threads (08 R203, R204, R225): what a load lands, which
effects fail it, what an LDN reads (08 R209; 15 R318), what a queued entry holds (08 R207, R211, R215, R224).
-/

namespace Sys2Proof.Machine

open Sys2Proof

/-! ### Masks by their tests -/

theorem maskOf_succ (n : Nat) (p : Nat → Bool) : maskOf (n + 1) p = if p n then maskOf n p ||| one n else maskOf n p := by
  rw [maskOf, List.range_succ, List.foldl_append]
  rfl

theorem maskOf_congr {n : Nat} {p q : Nat → Bool} (h : ∀ t < n, p t = q t) : maskOf n p = maskOf n q := by
  induction n with
  | zero => rfl
  | succ n ih => rw [maskOf_succ, maskOf_succ, ih fun t ht => h t (Nat.lt_succ_of_lt ht), h n (Nat.lt_succ_self n)]

theorem has_of_ge {m : Mask} {t : Nat} (h : 128 ≤ t) : has m t = false := BitVec.getLsbD_of_ge m t h

/-- The lowest lane depends on the lanes below the width only. -/
theorem lowest_congr {n : Nat} {m k : Mask} (h : ∀ t < n, has m t = has k t) : lowest n m = lowest n k := by
  rw [lowest, lowest, ← List.head?_filter, ← List.head?_filter, List.filter_congr fun t ht => h t (List.mem_range.mp ht)]

theorem mem_lanesOf {n t : Nat} {m : Mask} : t ∈ lanesOf n m ↔ t < n ∧ has m t = true := by
  simp [lanesOf]

/-! ### Fates -/

section
variable {x : Ins} {a : Acc}

/-- A passing thread is an acting one whose access passes. -/
theorem mem_passing {t : Nat} : t ∈ passing x a ↔ t ∈ accThreads x ∧ fateAt x a t = .ok := by
  simp [passing]

/-- A fate that no acting thread has. -/
theorem fateMask_eq_zero {f : Fate} (h : ∀ t ∈ accThreads x, fateAt x a t ≠ f) : fateMask x a f = 0#128 := by
  unfold fateMask
  cases hv : x.vector with
  | false => exact if_neg (h 0 (by simp [accThreads, hv]))
  | true =>
    refine maskOf_eq_zero fun t ht => ?_
    cases hact : has x.act t with
    | false => rfl
    | true => simpa using h t (by simp [accThreads, hv, mem_lanesOf, ht, hact])

/-- Where all threads fail alike the lowest that fails is the lowest that acts. -/
theorem lowest_fateMask_of_all {f : Fate} (h : ∀ t ∈ accThreads x, fateAt x a t = f) (hv : x.vector = true) :
    lowest x.g.width (fateMask x a f) = lowest x.g.width x.act := by
  refine lowest_congr fun t ht => ?_
  rcases Nat.lt_or_ge t 128 with h128 | h128
  · rw [fateMask, if_pos hv, has_maskOf _ _ h128, decide_eq_true ht, Bool.true_and]
    cases hact : has x.act t with
    | false => rfl
    | true =>
      have hf : fateAt x a t = f := h t (by simp [accThreads, hv, mem_lanesOf, ht, hact])
      simp [hf]
  · rw [has_of_ge h128, has_of_ge h128]

/-- An offset that is no multiple of the size is misaligned before anything else is looked at (08 R204, R225). -/
theorem fateAt_of_misaligned {t : Nat} (h : a.off t % a.size ≠ 0) : fateAt x a t = .align := if_pos (.inl h)

theorem passing_of_none (h : ∀ t ∈ accThreads x, fateAt x a t ≠ .ok) : passing x a = [] :=
  List.filter_eq_nil_iff.mpr fun t ht => by simpa using h t ht

/-- An access that none of the acting threads passes waits for no atomic. -/
theorem awaitsAtomic_of_none (h : passing x a = []) : awaitsAtomic x a = false := by
  simp [awaitsAtomic, h]

/-- An access whose every thread is misaligned fails with ALIGN alone, named by its lowest thread (08 R204; 11 R290). -/
theorem failures_of_misaligned (h : ∀ t ∈ accThreads x, fateAt x a t = .align) (hm : fateMask x a .align ≠ 0#128) :
    failures x a = [x.perf 0x102 .none (word (a.off (if x.vector then (lowest x.g.width x.act).getD 0 else 0)))
      (word (Space.code a.sp + a.code * 16)) 0 (fateMask x a .align) .none] := by
  have hr : fateMask x a .range = 0#128 := fateMask_eq_zero fun t ht => by rw [h t ht]; exact Fate.noConfusion
  have hs : fateMask x a .secure = 0#128 := fateMask_eq_zero fun t ht => by rw [h t ht]; exact Fate.noConfusion
  simp only [failures, List.filterMap_cons, List.filterMap_nil, hm, hr, hs, if_false, if_true]
  cases hv : x.vector with
  | false => rfl
  | true => simp only [if_true, lowest_fateMask_of_all h hv]

/-! ### Loads -/

/-- With no byte poisoned the threads that land are those that pass. -/
theorem fateMask_ok : (if x.vector then maskOf x.g.width fun t => (passing x a).contains t && !([] : List Nat).contains t
    else if fateAt x a 0 = .ok ∧ ([] : List Nat) = [] then x.act else 0#128) = fateMask x a .ok := by
  unfold fateMask
  cases hv : x.vector with
  | false => simp
  | true =>
    refine maskOf_congr fun t ht => ?_
    rw [Bool.eq_iff_iff]
    simp [mem_passing, accThreads, hv, mem_lanesOf, ht]

/-- A load that meets neither a queued atomic nor poison lands the values of the threads that pass; the others fail (08 R204,
R206). -/
theorem load_of_sound (hw : awaitsAtomic x a = false) (hs : ∀ t ∈ passing x a, seenPoison x.s x.g (accAt x a t) a.size = false)
    (n : Nat) (at_ read : Nat → Nat) (touch : State → State) :
    load x a n at_ read touch = x.raise (loaded x a (fateMask x a .ok) n at_ read touch) (failures x a) := by
  have hbad : ((passing x a).filter fun t => seenPoison x.s x.g (accAt x a t) a.size) = [] :=
    List.filter_eq_nil_iff.mpr fun t ht => by simp [hs t ht]
  rw [load, if_neg (ne_true_of_eq_false hw)]
  dsimp only
  rw [hbad, fateMask_ok]
  rfl

theorem load_of_clean (h : CleanRead x a) (n : Nat) (at_ read : Nat → Nat) (touch : State → State) :
    load x a n at_ read touch = .done (loaded x a (fateMask x a .ok) n at_ read touch) := by
  rw [load_of_sound h.free fun t ht => h.sound t (mem_passing.mp ht).1, failures_of_allowed h.passes]
  rfl

/-- A load whose every thread is misaligned lands nothing and performs ALIGN (08 R204, R225). -/
theorem load_of_misaligned (h : ∀ t ∈ accThreads x, a.off t % a.size ≠ 0) (hm : fateMask x a .align ≠ 0#128) (n : Nat)
    (at_ read : Nat → Nat) (touch : State → State) :
    load x a n at_ read touch = x.raise (loaded x a 0#128 n at_ read touch)
      [x.perf 0x102 .none (word (a.off (if x.vector then (lowest x.g.width x.act).getD 0 else 0)))
        (word (Space.code a.sp + a.code * 16)) 0 (fateMask x a .align) .none] := by
  have hf : ∀ t ∈ accThreads x, fateAt x a t = .align := fun t ht => fateAt_of_misaligned (h t ht)
  have hno : ∀ t ∈ accThreads x, fateAt x a t ≠ .ok := fun t ht => by rw [hf t ht]; exact Fate.noConfusion
  have hp : passing x a = [] := passing_of_none hno
  rw [load_of_sound (awaitsAtomic_of_none hp) (by simp [hp]), failures_of_misaligned hf hm, fateMask_eq_zero hno]

end

/-- A word whose meaning is a load completes as one. -/
theorem loads_of_exec {i : Instr} {a : Ins → Acc} {n : Nat} {at_ read : Ins → Nat → Nat} {touch : Ins → State → State}
    (h : ∀ s, exec i s = issue i s fun x => load x (a x) n (at_ x) (read x) (touch x)) : Loads i a n at_ read touch :=
  fun s _ _ hr hc => (h s).trans (issue_act hr (load_of_clean hc ..))

/-! ### LDN -/

section
variable {x : Ins}

/-- The group's own stores come before what LDN finds elsewhere (08 R209). -/
theorem ldnByte_unperformed {v a : Nat} (h : unperformed x.s x.g a = true) : ldnByte x v a = seenByte x.s x.g a := if_pos h

/-- LDN takes a value that the word has held since the launch started (08 R209). -/
theorem ldnByte_past {v a : Nat} {w : Word} (hu : unperformed x.s x.g a = false)
    (hp : (pastWords x a)[Config.ldnPast x.s.tick v]? = some w) : ldnByte x v a = (w >>> (8 * (a % 4))).setWidth 8 := by
  simp only [ldnByte, hu, hp, Bool.false_eq_true, if_false]

/-- LDN takes the line that the invariant cache holds (15 R318). -/
theorem ldnByte_line {v a : Nat} {l : Line} (hu : unperformed x.s x.g a = false)
    (hp : (pastWords x a)[Config.ldnPast x.s.tick v]? = none) (hl : invLine (x.s.core x.k.core) x.corr a = some l)
    (hh : Config.ldnHit x.s.tick v = true) : ldnByte x v a = l.bytes.getD (a % 64) 0 := by
  simp only [ldnByte, hu, hp, hl, hh, Bool.false_eq_true, if_false, if_true]

/-- LDN reads as a load does where it takes neither (08 R209). -/
theorem ldnByte_miss {v a : Nat} (hp : (pastWords x a)[Config.ldnPast x.s.tick v]? = none)
    (hh : ∀ l, invLine (x.s.core x.k.core) x.corr a = some l → Config.ldnHit x.s.tick v = false) :
    ldnByte x v a = seenByte x.s x.g a := by
  cases hl : invLine (x.s.core x.k.core) x.corr a with
  | none => simp only [ldnByte, hp, hl, ite_self]
  | some l => simp only [ldnByte, hp, hl, hh l hl, Bool.false_eq_true, if_false, ite_self]

variable {b i : Nat} (hi : i < 4)
include hi

/-- The bytes of a word have the same past values. -/
theorem pastWords_byte : pastWords x (4 * b + i) = pastWords x (4 * b) := by
  rw [pastWords, pastWords, show (4 * b + i) / 4 = 4 * b / 4 by omega]

/-- The bytes of a word stand in the same line. -/
theorem invLine_byte (c : Core) (corr : Nat) : invLine c corr (4 * b + i) = invLine c corr (4 * b) := by
  rw [invLine, invLine, show (4 * b + i) / 64 * 64 = 4 * b / 64 * 64 by omega]

end

/-- A word that LDN reads for the half at `v` comes as a whole of one of its past values, of the line held, or as a load reads it
(08 R209; 15 R318, R320). -/
theorem ldnByte_whole (x : Ins) (v b : Nat) :
    (∃ w ∈ pastWords x (4 * b), ∀ i < 4, unperformed x.s x.g (4 * b + i) = false →
      ldnByte x v (4 * b + i) = (w >>> (8 * i)).setWidth 8) ∨
    (∃ l, invLine (x.s.core x.k.core) x.corr (4 * b) = some l ∧ ∀ i < 4, unperformed x.s x.g (4 * b + i) = false →
      ldnByte x v (4 * b + i) = l.bytes.getD ((4 * b + i) % 64) 0) ∨
    (∀ i < 4, ldnByte x v (4 * b + i) = seenByte x.s x.g (4 * b + i)) := by
  cases hp : (pastWords x (4 * b))[Config.ldnPast x.s.tick v]? with
  | some w =>
    refine .inl ⟨w, List.mem_of_getElem? hp, fun i hi hu => ?_⟩
    rw [ldnByte_past hu ((congrArg (·[Config.ldnPast x.s.tick v]?) (pastWords_byte hi)).trans hp),
      show (4 * b + i) % 4 = i by omega]
  | none =>
    have hnone : ∀ i < 4, (pastWords x (4 * b + i))[Config.ldnPast x.s.tick v]? = none := fun i hi => by
      rw [pastWords_byte hi, hp]
    by_cases hit : ∃ l, invLine (x.s.core x.k.core) x.corr (4 * b) = some l ∧ Config.ldnHit x.s.tick v = true
    · obtain ⟨l, hl, hh⟩ := hit
      exact .inr (.inl ⟨l, hl, fun i hi hu => ldnByte_line hu (hnone i hi) ((invLine_byte hi ..).trans hl) hh⟩)
    · refine .inr (.inr fun i hi => ldnByte_miss (hnone i hi) fun l hl => ?_)
      exact eq_false_of_ne_true fun hh => hit ⟨l, (invLine_byte hi ..).symm.trans hl, hh⟩

/-! ### Stores and atomics -/

/-- The bytes of an access are 8 exactly at size 64 bits (03 R81). -/
theorem size_bytes_eq_eight {sz : Size} : Size.bytes sz = 8 ↔ sz = .b64 := by cases sz <;> decide

/-- A store's data by its size: D, and the register after it for 64 bits (08 R207). -/
theorem storeData_eq {x : Ins} {a : Acc} {sz : Size} (h : a.size = Size.bytes sz) (t : Nat) :
    storeData x a t = (x.d.val t).toNat + (if sz = .b64 then (dNext x 1 t).toNat * 4294967296 else 0) := by
  simp only [storeData, h, size_bytes_eq_eight, Nat.reducePow]

section
variable {x : Ins} {a : Acc} (h : Allowed x a) (hn : accThreads x ≠ [])
include h hn

/-- A store of tags whose accesses pass queues the tags of its acting threads (08 R224). -/
theorem storeTags_of_allowed (tag : Nat → Nat × BitVec 16) :
    x.raise (if ((passing x a).map tag).isEmpty then x.s
      else enqueue x.k (entryOf x a (.tags ((passing x a).map tag)) none) x.s) (failures x a) =
    .done (enqueue x.k (entryOf x a (.tags ((accThreads x).map tag)) none) x.s) := by
  rw [passing_of_allowed h, failures_of_allowed h, if_neg (by simpa using hn)]
  rfl

end

/-- A word whose meaning is an atomic completes as one: where its accesses pass, the elements of D are fixed, and the updates of its
acting threads stand in the queue (08 R208, R211; 06 R151). -/
theorem updates_of_exec {i : Instr} {a : Ins → Acc} {op : List AtomEl → QOp} {el : Ins → Nat → AtomEl}
    (h : ∀ s, exec i s = issue i s fun x => atomic x (a x) op (el x)) : Updates i a op el := by
  intro s g iss hr ⟨hok, hn⟩
  refine (h s).trans (issue_act hr ?_)
  generalize mkIns s g iss i = x at hok hn
  have he : ¬((accThreads x).map (el x)).isEmpty = true := by simpa using hn
  simp only [atomic, passing_of_allowed hok, failures_of_allowed hok, if_neg he]
  cases x.dst <;> rfl

/-- The elements of a narrower compare-and-swap: single words (08 R215). -/
theorem casEl_narrow {x : Ins} {a : Acc} (h : a.size ≠ 8) (t : Nat) : casEl x a t =
    ⟨t, accAt x a t, (x.d.val t).setWidth 64, (dNext x 1 t).setWidth 64⟩ := if_neg h

end Sys2Proof.Machine
end

section
/-! SUPPORT. What holds a FENCE and how far its scope reaches (08 R216, R217; 15 R322), the synchronising words inside a
handler (08 R223).
-/

namespace Sys2Proof.Machine

open Sys2Proof

section
variable {x : Ins}

theorem outsideHandler_outside (h : inInvocation x = false) (a : Act) : outsideHandler x a = a := if_neg (ne_true_of_eq_false h)

theorem outsideHandler_inside (h : inInvocation x = true) (a : Act) :
    outsideHandler x a = x.fail (x.perf 0x10F .none (word x.op) 0 0 x.act .none) := if_pos h

/-- A scope reaches beyond the core by itself, or as a cluster of more than one core (15 R322). -/
theorem wideScope_eq (x : Ins) (c : Scope) : wideScope x c = match c with
    | .grp => false
    | .team => false
    | .clu => match x.team with
      | some t => decide (1 < t.cluRows * t.cluCols)
      | none => false
    | .die => true
    | .dev => true
    | .sys => true := by
  cases c with
  | clu =>
    simp only [wideScope]
    cases x.team <;> rfl
  | _ => rfl

/-- A FENCE.full waits for the group's long-latency memory words and, beyond .grp, for its queue (08 R216, R217). -/
theorem fullHeld_iff {long : Bool} {q : List QEntry} {c : Scope} : (long || (!q.isEmpty && c != .grp)) = true ↔
    long = true ∨ (q ≠ [] ∧ c ≠ .grp) := by
  simp

theorem engHeld_iff {long : Bool} {q : List QEntry} : (long || !q.isEmpty) = true ↔ long = true ∨ q ≠ [] := by
  simp

end

/-- The synchronising words on barrier registers go on outside a handler only (08 R223). -/
theorem exec_syncing {i : Instr} (h : (∃ n, i = .bar n) ∨ (∃ d n, i = .bara d n) ∨ ∃ a n, i = .barw a n) :
    ∃ m : Ins → Act, ∀ s, exec i s = issue i s fun x => outsideHandler x (m x) := by
  obtain ⟨n, rfl⟩ | ⟨d, n, rfl⟩ | ⟨a, n, rfl⟩ := h <;> exact ⟨_, fun _ => rfl⟩

end Sys2Proof.Machine
end

section
/-! SUPPORT. What a store word leaves alone in its group as it issues (08 R207, R208).
-/

namespace Sys2Proof.Keeps

open Sys2Proof.Machine

variable {d : Dst} {p : Option (Fin 8)} {g h : Group}

/-- A frame does not depend on what stands in the queue, where that is put back. -/
theorem withQueue {q : List QEntry} (a : Keeps d p { g with queue := q } h) : Keeps d p g { h with queue := g.queue } := by
  obtain ⟨hhidden, hpend, -, hlate, hctxs, hstale, hhalted, hskip⟩ := a.work
  exact ⟨a.vregs, a.sregs, a.preds, a.flags, a.items, a.place,
    ⟨hhidden, hpend, rfl, hlate, hctxs, hstale, hhalted, hskip⟩, a.lanes⟩

end Sys2Proof.Keeps

namespace Sys2Proof.Machine

open Sys2Proof

/-- A store word whose accesses pass changes no memory as it issues, and of its group only the queue, which gains its entry, beyond
what every word does (08 R207, R208). -/
theorem issue_store_frame {s : State} {g : Group} {iss : Issue} {i : Instr} {a : Ins → Acc} (hr : Ready s g iss i) (hs : Steady g)
    (hu : Untrapped g) (hq : i.sequenced = false) (hok : Allowed (mkIns s g iss i) (a (mkIns s g iss i)))
    (hn : accThreads (mkIns s g iss i) ≠ []) (hsz : 0 < (a (mkIns s g iss i)).size) :
    ∃ t h, issue i s (fun x => store x (a x)) = .next t ∧ t.mem = s.mem ∧ t.group? g.key = some h ∧
      h.queue = g.queue ++ [storeEntry (mkIns s g iss i) (a (mkIns s g iss i))] ∧
      Keeps .none none g { h with queue := g.queue } := by
  have hput := enqueue_storeEntry hr.here iss i (a (mkIns s g iss i))
  have hu' : Untrapped (queuing s g iss i (a (mkIns s g iss i))) := (congrArg (· &&& 0x1F00#32) (afterReads_fflags ..)).trans hu
  have hk : Keeps .none none (queuing s g iss i (a (mkIns s g iss i))) _ := ((Keeps.merge _
    (0#7 ||| poisonFlag g (mkIns s g iss i))).trans (.finishGroup (mkIns s g iss i) [] _)).trans (.leaveLoop _)
  obtain ⟨-, -, hqueue, -⟩ := hk.work
  have ht := (issue_act (m := fun x => store x (a x)) hr (store_of_allowed hok hn hsz)).trans
    (congrArg Host.Outcome.next (finish_untrapped hput (alike_queuing ..) hs hu'))
  refine ⟨_, _, ht, enqueue_mem .., ?_, hqueue, ?_⟩
  · rw [← mkIns_key s g iss i]
    exact setGroup_here hput ((hk.key.trans (queuing_key ..)).trans (mkIns_key ..).symm)
  · simpa only [afterReads_queue] using (keeps_afterReads hq s g iss).trans hk.withQueue

end Sys2Proof.Machine
end

section
/-! SUPPORT. What the steps of a store queue leave standing: every group with its queue and its lanes, every store on its way but
those that land (08 R208; 15 R325, R333).
-/

namespace Sys2Proof.Machine

open Sys2Proof

/-! ### Groups and flights that stand -/

/-- Each group that stands goes on standing, with its queue, and has ended or not as before. -/
structure GroupsStand (s t : State) : Prop where
  find : ∀ {k g}, s.group? k = some g → ∃ h, t.group? k = some h ∧ h.queue = g.queue ∧ h.allExited = g.allExited

/-- A change of a group leaves its name, its queue and its end alone. -/
structure LeavesQueue (f : Group → Group) : Prop where
  key   : ∀ g, (f g).key = g.key
  queue : ∀ g, (f g).queue = g.queue
  ended : ∀ g, (f g).allExited = g.allExited

theorem leavesQueue_pend (ps : Group → List Pend) : LeavesQueue fun g => { g with pend := ps g } :=
  ⟨fun _ => rfl, fun _ => rfl, fun _ => rfl⟩

/-- Some groups halt. -/
theorem leavesQueue_halt (p : Group → Bool) : LeavesQueue fun g => if p g then { g with halted := true } else g :=
  ⟨fun g => by split <;> rfl, fun g => by split <;> rfl, fun g => by split <;> rfl⟩

theorem leavesQueue_fillPend (id : Nat) (lands : List Land) (fl : BitVec 7) : LeavesQueue (fillPend · id lands fl) :=
  leavesQueue_pend _

theorem leavesQueue_addLate (saved : Bool) (p : Perf) : LeavesQueue (·.addLate saved p) := by
  unfold Group.addLate
  split <;> exact ⟨fun _ => rfl, fun _ => rfl, fun _ => rfl⟩

/-- The groups stand, and every store that is on its way. -/
structure Stands (s t : State) : Prop where
  groups  : GroupsStand s t
  flights : t.cores.map (·.flights) = s.cores.map (·.flights)

namespace GroupsStand
variable {s t u : State}

theorem of_eq (h : t.groups = s.groups) : GroupsStand s t where
  find {k g} hg := ⟨g, by rwa [State.group?, h], rfl, rfl⟩

theorem trans (a : GroupsStand s t) (b : GroupsStand t u) : GroupsStand s u where
  find hg := by
    obtain ⟨h, hh, hq, he⟩ := a.find hg
    obtain ⟨i, hi, hq', he'⟩ := b.find hh
    exact ⟨i, hi, hq'.trans hq, he'.trans he⟩

/-- Changing every group. -/
theorem map {f : Group → Group} (hf : LeavesQueue f) (h : t.groups = s.groups.map f) : GroupsStand s t where
  find {k g} hg := by
    have hm := group?_map s f hf.key k
    rw [hg] at hm
    exact ⟨f g, by rw [State.group?, h]; exact hm, hf.queue g, hf.ended g⟩

/-- Changing the group of a name. -/
theorem modGroup {f : Group → Group} (hf : LeavesQueue f) (s : State) (j : GKey) : GroupsStand s (s.modGroup j f) where
  find {k g} hg := by
    cases hj : s.group? j with
    | none => exact ⟨g, by rw [State.modGroup, hj]; exact hg, rfl, rfl⟩
    | some h =>
      have hjk : (f h).key = j := (hf.key h).trans (State.group?_key hj)
      rw [State.modGroup_eq f hj]
      by_cases hkj : k = j
      · subst hkj
        obtain rfl : h = g := Option.some.inj (hj.symm.trans hg)
        exact ⟨f h, setGroup_here hg hjk, hf.queue h, hf.ended h⟩
      · exact ⟨g, (State.setGroup_other fun e => hkj (e.trans hjk)).trans hg, rfl, rfl⟩

end GroupsStand

/-- The flights of a core, of the flights of all. -/
theorem core_flights (s : State) (c : Nat) : (s.core c).flights = (s.cores.map (·.flights)).getD c [] := by
  rw [State.core, List.getD_eq_getElem?_getD, List.getD_eq_getElem?_getD, List.getElem?_map]
  cases s.cores[c]? <;> rfl

/-- Changing a core but for its flights. -/
theorem map_flights_modCore {f : Core → Core} (hf : ∀ x, (f x).flights = x.flights) (s : State) (c : Nat) :
    (s.modCore c f).cores.map (·.flights) = s.cores.map (·.flights) := by
  show (s.cores.set c (f (s.core c))).map (·.flights) = _
  rw [List.map_set, hf, core_flights]
  refine List.ext_getElem? fun i => ?_
  by_cases hi : c = i
  · subst hi
    rw [List.getElem?_set_self', List.getD_eq_getElem?_getD]
    cases (s.cores.map (·.flights))[c]? <;> rfl
  · rw [List.getElem?_set_ne hi]

namespace Stands
variable {s t u : State}

theorem of_eq (hg : t.groups = s.groups) (hc : t.cores = s.cores) : Stands s t := ⟨.of_eq hg, by rw [hc]⟩

theorem refl (s : State) : Stands s s := of_eq rfl rfl

theorem trans (a : Stands s t) (b : Stands t u) : Stands s u := ⟨a.groups.trans b.groups, b.flights.trans a.flights⟩

theorem map {f : Group → Group} (hf : LeavesQueue f) (hg : t.groups = s.groups.map f) (hc : t.cores = s.cores) : Stands s t :=
  ⟨.map hf hg, by rw [hc]⟩

theorem modGroup {f : Group → Group} (hf : LeavesQueue f) (s : State) (k : GKey) : Stands s (s.modGroup k f) :=
  ⟨.modGroup hf s k, by rw [State.modGroup_cores]⟩

/-- A fold of steps each of which leaves all standing. -/
theorem foldl {α β : Type} {st : α → State} {f : α → β → α} (h : ∀ a b, Stands (st a) (st (f a b))) (l : List β) :
    ∀ a, Stands (st a) (st (l.foldl f a)) := by
  induction l with
  | nil => exact fun a => refl _
  | cons b l ih => exact fun a => (h a b).trans (ih _)

theorem core (a : Stands s t) (c : Nat) : (t.core c).flights = (s.core c).flights := by
  rw [core_flights, core_flights, a.flights]

theorem length (a : Stands s t) : t.cores.length = s.cores.length := by
  simpa only [List.length_map] using congrArg List.length a.flights

end Stands

/-! ### Performing an entry -/

theorem stands_storeOf (s : State) (c : Nat) (l : List (Nat × Byte)) : Stands s (storeOf s c l) :=
  ⟨.of_eq rfl, (map_flights_modCore (f := fun k => { k with inv := k.inv.map fun p => (p.1, lineWrite p.2 l) })
    (fun _ => rfl) (s.store l) c).trans rfl⟩

theorem stands_atomStep (c : Nat) (op : AtomOp) (o : QOut) (el : AtomEl) : Stands o.s (atomStep c op o el).s := by
  unfold atomStep
  split
  · exact .refl _
  · exact stands_storeOf ..

theorem stands_casStep (c : Nat) (wide : Bool) (o : QOut) (el : AtomEl) : Stands o.s (casStep c wide o el).s := by
  unfold casStep
  generalize (if wide then 8 else 4) = n
  dsimp only
  split
  · exact .refl _
  · split
    · exact stands_storeOf ..
    · exact .refl _

theorem stands_performEntry (s : State) (c : Nat) (e : QEntry) : Stands s (performEntry s c e).s := by
  unfold performEntry
  cases e.op with
  | bytes l => exact stands_storeOf ..
  | tags l => exact .of_eq rfl rfl
  | atom op l => exact Stands.foldl (st := QOut.s) (stands_atomStep c op) l ⟨s, [], 0#7, []⟩
  | cas wide l => exact Stands.foldl (st := QOut.s) (stands_casStep c wide) l ⟨s, [], 0#7, []⟩
  | fence => exact .refl s

/-! ### What follows an entry: flags, poison, loads in flight -/

theorem stands_shutPast (s : State) (k : GKey) (ws : List Nat) : Stands s (shutPast s k ws) := by
  unfold shutPast
  split
  · exact .refl s
  · exact .of_eq rfl rfl

theorem stands_endGrid (s : State) (corr : Nat) (f : Final) : Stands s (endGrid s corr f) := by
  unfold endGrid
  split
  · split
    · split
      · exact .of_eq rfl rfl
      · exact .refl s
    · split
      · exact .refl s
      · exact .map (leavesQueue_halt _) rfl rfl
  · exact .refl s

theorem stands_modIssuer {f : Group → Group} (hf : LeavesQueue f) (s : State) (k : GKey) (o : Own) (corr : Nat) :
    Stands s (modIssuer s k o corr f) := by
  unfold modIssuer
  split
  · exact .of_eq (State.modGrid_groups ..) (State.modGrid_cores ..)
  · split
    · exact .modGroup hf s k
    · exact .refl s

theorem stands_addLate (s : State) (k : GKey) (o : Own) (corr : Nat) (p : Perf) : Stands s (addLate s k o corr p) := by
  unfold addLate
  split
  · split
    · exact stands_endGrid ..
    · exact stands_modIssuer (leavesQueue_addLate ..) ..
  · exact stands_endGrid ..

theorem stands_performFor (s : State) (k : GKey) (e : QEntry) : Stands s (performFor s k e) := by
  have hp := (stands_performEntry s k.core e).trans (stands_shutPast _ k e.op.words)
  unfold performFor
  dsimp only
  split
  · split
    · exact hp.trans (.modGroup (leavesQueue_fillPend ..) _ k)
    · exact hp
  · split
    · exact (hp.trans (.modGroup (leavesQueue_fillPend ..) _ k)).trans (stands_addLate ..)
    · exact hp.trans (stands_addLate ..)

theorem stands_meetLoads (s : State) (may : Group → Pend → Option Bool) (l : List (Nat × Byte)) :
    Stands s (meetLoads s may l) := by
  unfold meetLoads
  split
  · exact .refl s
  · exact .map (leavesQueue_pend _) rfl rfl

theorem stands_meetCore (s : State) (k : GKey) (known : Bool) (l : List (Nat × Byte)) : Stands s (meetCore s k known l) :=
  stands_meetLoads ..

@[simp] theorem meetCore_mem (s : State) (k : GKey) (known : Bool) (l : List (Nat × Byte)) :
    (meetCore s k known l).mem = s.mem := meetLoads_mem ..

/-! ### Flights that land -/

/-- What a flight leaves when it lands: itself gone from its core, all else standing. -/
theorem stands_landFlight (c : Nat) (s : State) (f : Flight) :
    Stands (s.modCore c fun k => { k with flights := landed f k.flights }) (landFlight c s f) :=
  (stands_performFor ..).trans (stands_meetLoads ..)

theorem groupsStand_landFlight (c : Nat) (s : State) (f : Flight) : GroupsStand s (landFlight c s f) :=
  .trans (t := s.modCore c fun k => { k with flights := landed f k.flights }) (.of_eq rfl) (stands_landFlight c s f).groups

theorem groupsStand_foldl_landFlight (c : Nat) (fs : List Flight) : ∀ s, GroupsStand s (fs.foldl (landFlight c) s) := by
  induction fs with
  | nil => exact fun s => .of_eq rfl
  | cons f fs ih => exact fun s => (groupsStand_landFlight c s f).trans (ih _)

/-- The first of the flights lands out of their list, with none before it. -/
theorem landed_head (f : Flight) (fs : List Flight) : landed f (f :: fs) = fs := by
  have his : f.is f = true := by simp [Flight.is]
  simp [landed, his]

/-- Flights that land in core order are gone from their core. -/
theorem foldl_landFlight_flights {c : Nat} (fs : List Flight) : ∀ {s : State}, c < s.cores.length → (s.core c).flights = fs →
    ((fs.foldl (landFlight c) s).core c).flights = [] := by
  induction fs with
  | nil => exact fun _ h => h
  | cons f fs ih =>
    intro s hc hf
    have hstands := stands_landFlight c s f
    refine ih (by rwa [hstands.length, State.modCore_length]) ?_
    rw [hstands.core, State.core_modCore_same hc]
    exact (congrArg (landed f) hf).trans (landed_head f fs)

/-- What must land for some words to be reached is on its way. -/
theorem mem_of_flightsFor {f : Flight} {ws : List Nat} : ∀ {fs : List Flight}, f ∈ (flightsFor fs ws).1 → f ∈ fs := by
  intro fs
  induction fs with
  | nil => exact fun h => h
  | cons e fs ih =>
    intro h
    simp only [flightsFor] at h
    split at h
    · rcases List.mem_cons.mp h with rfl | h
      · exact List.mem_cons_self ..
      · exact List.mem_cons_of_mem _ (ih h)
    · exact List.mem_cons_of_mem _ (ih h)

/-- Flights of a group that land are among those of its core, whichever are picked. -/
theorem landSome_eq (s : State) (k : GKey) (pick : Nat) :
    ∃ fs : List Flight, (∀ f ∈ fs, f ∈ (s.core k.core).flights) ∧ landSome s k pick = fs.foldl (landFlight k.core) s := by
  unfold landSome
  dsimp only
  split <;> exact ⟨_, fun f => mem_of_flightsFor, rfl⟩

/-- The groups stand as the head of a queue reaches its home or joins the core order. -/
theorem groupsStand_drained (s : State) (k : GKey) (e : QEntry) : GroupsStand s (drained s k e) := by
  unfold drained
  split
  · exact .of_eq rfl
  · exact (stands_performFor ..).groups.trans (.of_eq rfl)

/-! ### What a step of a queue does -/

/-- An entry of team shared memory is performed as it leaves the queue (08 R208). -/
theorem drained_mem_of_near {s : State} {k : GKey} {e : QEntry} (hf : e.op.far = false) :
    (drained s k e).mem = (performEntry s k.core e).s.mem := by
  rw [drained, if_neg (ne_true_of_eq_false hf), dueAll_mem, performFor_mem]

/-- What follows a write of team shared memory on its core comes after the stores then on their way (15 R328). -/
theorem drained_flights_near {s : State} {k : GKey} {e : QEntry} (hf : e.op.far = false) (hc : k.core < s.cores.length) :
    ((drained s k e).core k.core).flights = (s.core k.core).flights.map fun (f : Flight) => { f with due := true } := by
  have hp := stands_performFor s k e
  rw [drained, if_neg (ne_true_of_eq_false hf), dueAll, State.core_modCore_same (by rwa [hp.length]), ← hp.core]

/-- Once all stores of a core have landed memory reads as the core saw it (15 R325). -/
theorem landAll_byte {s : State} {c : Nat} (hwf : s.mem.wf = true)
    (h : ∀ f ∈ (s.core c).flights, ∃ l, f.e.op = .bytes l) (a : Nat) : (landAll s c).byte a = coreByte s c a := by
  rw [State.byte, landAll, foldl_landFlight_bytes c h, Memory.get_sets hwf, coreByte, lastByte_eq, List.flatMap_map]
  rfl

/-- The bytes that a step of a group's queue may write: those of its head, where that goes to team shared memory, and of the stores
on their way. -/
def DrainWrites (s : State) (g : Group) (a : Nat) : Prop :=
  (∃ e, g.queue.head? = some e ∧ e.op.far = false ∧ e.op.covers a) ∨ ∃ f ∈ (s.core g.key.core).flights, f.e.op.covers a

section
variable {s : State} {g : Group} (hg : s.group? g.key = some g)
include hg

/-- The group stands with the queue it has been given. -/
theorem group_setQueue (q : List QEntry) : (s.setGroup { g with queue := q }).group? g.key = some { g with queue := q } :=
  setGroup_here hg rfl

/-- The head of a queue that leaves it writes what it names, or the flights that a fence waits for do. -/
theorem drainHead_writes : WritesIn (DrainWrites s g) s.mem (drainHead s g.key).mem := by
  cases hq : g.queue with
  | nil =>
    simp only [drainHead, hg, hq]
    exact .refl ..
  | cons e rest =>
    by_cases he : e.op = .fence
    · rw [drainHead_fence hg hq he, State.modGroup_mem]
      exact (foldl_landFlight_writes g.key.core (s.core g.key.core).flights _).mono fun a => .inr
    · rw [drainHead_store hg hq he, meetCore_mem]
      cases hf : e.op.far with
      | true =>
        rw [drained_mem_far hf]
        exact .refl ..
      | false =>
        rw [drained_mem_of_near hf]
        exact (performEntry_writes _ _ _).mono fun a ha => .inl ⟨e, by rw [hq]; rfl, hf, ha⟩

theorem drainStep_writes : WritesIn (DrainWrites s g) s.mem (drainStep s g.key).mem := by
  unfold drainStep
  dsimp only
  split
  · obtain ⟨fs, hfs, h⟩ := landSome_eq s g.key (Config.drainPick s.tick / 2)
    rw [h]
    exact (foldl_landFlight_writes g.key.core fs s).mono fun a ⟨f, hf, ha⟩ => .inr ⟨f, hfs f hf, ha⟩
  · exact drainHead_writes hg

/-- The group goes on standing as its head leaves, alive if it was. -/
theorem drainHead_alive (hl : g.allExited = false) : ∃ h, (drainHead s g.key).group? g.key = some h ∧ h.allExited = false := by
  cases hq : g.queue with
  | nil =>
    simp only [drainHead, hg, hq]
    exact ⟨g, rfl, hl⟩
  | cons e rest =>
    have hstand : GroupsStand (s.setGroup { g with queue := rest }) (drainHead s g.key) := by
      by_cases he : e.op = .fence
      · rw [drainHead_fence hg hq he]
        exact (groupsStand_foldl_landFlight ..).trans (.modGroup (leavesQueue_pend _) _ _)
      · rw [drainHead_store hg hq he]
        exact (groupsStand_drained ..).trans (stands_meetCore ..).groups
    obtain ⟨h, hh, -, he⟩ := hstand.find (group_setQueue hg rest)
    exact ⟨h, hh, he.trans hl⟩

theorem drainStep_alive (hl : g.allExited = false) : ∃ h, (drainStep s g.key).group? g.key = some h ∧ h.allExited = false := by
  unfold drainStep
  dsimp only
  split
  · obtain ⟨fs, -, h⟩ := landSome_eq s g.key (Config.drainPick s.tick / 2)
    obtain ⟨k, hk, -, he⟩ := (groupsStand_foldl_landFlight g.key.core fs s).find hg
    exact ⟨k, by rw [h]; exact hk, he.trans hl⟩
  · exact drainHead_alive hg hl

/-- A living group does not retire as its queue drains. -/
theorem storeQueueDrain_alive (hl : g.allExited = false) : exec (.storeQueueDrain g.key) s = .next (drainStep s g.key) := by
  obtain ⟨h, hh, he⟩ := drainStep_alive hg hl
  exact congrArg Host.Outcome.next (tryRetire_alive hh he)

end

/-- A queue that is not empty has its head's turn where no store of the group is on its way, or the pick is for the head. -/
theorem drainStep_of_turn {s : State} {k : GKey} {g : Group} {e : QEntry} {rest : List QEntry} (hg : s.group? k = some g)
    (hq : g.queue = e :: rest) (h : aloft s k = false ∨ Config.drainPick s.tick % 2 = 0) : drainStep s k = drainHead s k := by
  refine if_neg ?_
  rcases h with h | h <;> simp [h, hg, hq]

/-- What a living group's queue leaves when its head has its turn: the head at home or in the core order, and loads that have met
it. -/
def headLeft (s : State) (g : Group) (e : QEntry) (rest : List QEntry) : State :=
  meetCore (drained (s.setGroup { g with queue := rest }) g.key e) g.key (!e.op.far || !e.op.cells.isEmpty)
    (Flight.cells ⟨g.key, e, false⟩)

section
variable {s : State} {g : Group} {e : QEntry} {rest : List QEntry}

theorem storeQueueDrain_turn (hg : s.group? g.key = some g) (hl : g.allExited = false) (hq : g.queue = e :: rest)
    (he : e.op ≠ .fence) (h : aloft s g.key = false ∨ Config.drainPick s.tick % 2 = 0) :
    exec (.storeQueueDrain g.key) s = .next (headLeft s g e rest) := by
  rw [storeQueueDrain_alive hg hl, drainStep_of_turn hg hq h, drainHead_store hg hq he, headLeft]

theorem headLeft_queue (hg : s.group? g.key = some g) : ((headLeft s g e rest).group? g.key).map (·.queue) = some rest := by
  obtain ⟨h, hh, hqueue, -⟩ := ((groupsStand_drained ..).trans (stands_meetCore ..).groups).find (group_setQueue hg rest)
  rw [headLeft, hh]
  exact congrArg some hqueue

/-- An entry of team shared memory has been performed (08 R208). -/
theorem headLeft_mem_near (hf : e.op.far = false) : (headLeft s g e rest).mem =
    (performEntry (s.setGroup { g with queue := rest }) g.key.core e).s.mem := by
  rw [headLeft, meetCore_mem, drained_mem_of_near hf]

/-- A store of team shared memory stands in memory. -/
theorem headLeft_byte_near {l : List (Nat × Byte)} (hf : e.op.far = false) (ho : e.op = .bytes l) (hwf : s.mem.wf = true)
    (a : Nat) : (headLeft s g e rest).byte a = (lastByte [e.op] a).getD (s.byte a) := by
  rw [State.byte, headLeft_mem_near hf, performEntry_bytes_mem ho, ho, lastByte_eq, List.flatMap_singleton]
  exact Memory.get_sets hwf

/-- An entry of the scratchpad changes no memory (15 R325). -/
theorem headLeft_mem_far (hf : e.op.far = true) : (headLeft s g e rest).mem = s.mem := by
  rw [headLeft, meetCore_mem, drained_mem_far hf, State.setGroup_mem]

variable (hc : g.key.core < s.cores.length)
include hc

theorem headLeft_flights_near (hf : e.op.far = false) : ((headLeft s g e rest).core g.key.core).flights =
    (s.core g.key.core).flights.map fun (f : Flight) => { f with due := true } :=
  ((stands_meetCore ..).core _).trans (drained_flights_near hf hc)

theorem headLeft_flights_far (hf : e.op.far = true) : ((headLeft s g e rest).core g.key.core).flights =
    (s.core g.key.core).flights ++ flightsOf s.poisoned g.key e :=
  ((stands_meetCore ..).core _).trans (drained_flights hf hc)

end

end Sys2Proof.Machine
end

section
/-! PROOFS. Loads, stores, atomics, fences and barrier words at their issue (08; 15), and the steps of a store queue.
-/

namespace Sys2Proof

open Sys2Proof.Machine

/-- Settles O20: each word's meaning is a load; a clean one lands what passes, one misaligned in every thread performs ALIGN; where
an LDN takes a word from does not depend on the byte. -/
theorem loadWords : Obligations.LoadWords := by
  unfold Obligations.LoadWords
  refine ⟨fun d a b m sz => loads_of_exec fun _ => rfl, fun d a m sz cnt => loads_of_exec fun _ => rfl,
    fun d a b sz => loads_of_exec fun _ => rfl, fun d a b m sz hm => loads_of_exec fun s => ?ldn,
    fun x v a hu => ldnByte_unperformed hu, ldnByte_whole, fun d a b m => loads_of_exec fun _ => rfl,
    fun d a b m sz s g iss hr hw => issue_hold hr (if_pos hw), ?misaligned⟩
  case ldn =>
    refine congrArg (issue _ s) (funext fun x => ?_)
    exact if_neg hm
  case misaligned =>
    rintro d a b m sz off rfl s g iss hr ⟨-, hm, hmis⟩
    exact issue_act hr (load_of_misaligned hmis hm ..)

/-- Settles O21: with every access passing, the acting threads are those whose bytes or tags the entry holds. -/
theorem storeWords : Obligations.StoreWords := by
  unfold Obligations.StoreWords
  refine ⟨fun d a b m sz s g iss hr ⟨hok, hn⟩ => issue_act hr ?_,
    fun d a m sz cnt s g iss hr ⟨hok, hn⟩ => issue_act hr ?_, ?_⟩
  · refine (store_of_allowed hok hn (size_bytes_pos sz)).trans ?_
    simp only [storeCells, storeData_eq (a := accOf _ m sz) rfl]
    rfl
  · refine (store_of_allowed hok hn (size_bytes_pos sz)).trans ?_
    simp only [storeCells, storeData_eq (a := accImm _ m sz cnt) rfl]
    rfl
  · rintro d a b m acc rfl s g iss hr ⟨hok, hn⟩
    exact issue_act hr (storeTags_of_allowed hok hn _)

/-- Settles O22: each word's meaning is an atomic of the stated elements; ACAS's depend on its size. -/
theorem atomicWords : Obligations.AtomicWords := by
  unfold Obligations.AtomicWords
  refine ⟨fun d a b op => updates_of_exec fun _ => rfl, fun d a b op => updates_of_exec fun _ => rfl,
    fun d a b m sz hsz => ?narrow, fun d a b m => updates_of_exec fun _ => rfl⟩
  case narrow =>
    refine updates_of_exec fun s => congrArg (issue _ s) (funext fun x => ?_)
    have h8 : Size.bytes sz ≠ 8 := mt size_bytes_eq_eight.mp hsz
    simp only [beq_eq_false_iff_ne.mpr hsz, funext (casEl_narrow (a := accOf x m sz) h8)]
    rfl

/-- Settles O23: FENCE by what holds its kind, the barrier words by whether they stand inside a handler. -/
theorem fencesAndBarriers : Obligations.FencesAndBarriers := by
  unfold Obligations.FencesAndBarriers
  refine ⟨fun c s g iss hr _ => issue_act hr rfl,
    fun c s g iss hr h => issue_act hr (if_neg (ne_true_of_eq_false h)),
    fun c s g iss hr ⟨hl, hq⟩ => issue_act hr (if_neg (mt fullHeld_iff.mp ?full)),
    fun c s g iss hr ⟨hl, hq⟩ => issue_act hr (if_neg (mt engHeld_iff.mp ?eng)),
    fun c s g iss hr h => issue_hold hr (if_pos h),
    fun c s g iss hr h => issue_hold hr (if_pos (fullHeld_iff.mpr h)),
    fun c s g iss hr h => issue_hold hr (if_pos (engHeld_iff.mpr h)),
    wideScope_eq,
    fun n s g iss hr h => issue_act hr (outsideHandler_outside h _),
    fun k n s g iss hr h => issue_act hr (outsideHandler_outside h _),
    fun n s g iss hr h => issue_act hr (outsideHandler_outside h _),
    fun a n s g iss hr ⟨h, hp⟩ => issue_act hr ((outsideHandler_outside h _).trans (if_neg hp)),
    fun a n s g iss hr ⟨h, hp⟩ => issue_act hr ((outsideHandler_outside h _).trans (if_pos hp)),
    fun i hi s g iss hr h => ?inside,
    fun a n fixed s g iss hr h => issue_act hr (if_pos h),
    fun a n fixed s g iss hr h => issue_act hr (if_neg h)⟩
  case full => exact fun h => h.elim (ne_true_of_eq_false hl) fun hs => hq.elim hs.1 hs.2
  case eng => exact fun h => h.elim (ne_true_of_eq_false hl) (· hq)
  case inside =>
    obtain ⟨m, hm⟩ := exec_syncing hi
    exact (hm s).trans (issue_act hr (outsideHandler_inside h _))

/-- Settles O48: the entry is that of the acting threads, and the group's queue apart the frame is that of every word. -/
theorem storeIssueFrame : Obligations.StoreIssueFrame := by
  unfold Obligations.StoreIssueFrame
  intro s g iss i a hr hs hu hi hok hn
  have hstore : exec i s = issue i s (fun x => store x (a x)) ∧ i.sequenced = false ∧ 0 < (a (mkIns s g iss i)).size := by
    obtain ⟨d, r, b, m, sz, rfl, rfl⟩ | ⟨d, r, m, sz, n, rfl, rfl⟩ := hi
    · exact ⟨rfl, rfl, size_bytes_pos sz⟩
    · exact ⟨rfl, rfl, size_bytes_pos sz⟩
  obtain ⟨hexec, hq, hsz⟩ := hstore
  obtain ⟨t, h, ht, hmem, hh, hqueue, hk⟩ := issue_store_frame hr hs hu hq hok hn hsz
  exact ⟨t, h, _, hexec.trans ht, hmem, hh, hqueue, hk, rfl⟩

/-- Settles O49: what lands writes what it names; the head of the queue has its turn, and nothing that follows disturbs queues or
flights; flights that land in core order write their cells in that order. -/
theorem drainFrame : Obligations.DrainFrame := by
  unfold Obligations.DrainFrame
  refine ⟨fun s t g hg hl ht a hhead hfl => ?_, fun s t g e rest hg hq hl he hc hturn ht => ?_, fun s c hc => ⟨?_, ?_, ?_⟩⟩
  · rw [storeQueueDrain_alive hg hl] at ht
    cases ht
    refine (drainStep_writes hg).get fun ha => ?_
    rcases ha with ⟨e, he, hf, ha⟩ | ⟨f, hf, ha⟩
    · exact hhead e he hf ha
    · exact hfl f hf ha
  · rw [storeQueueDrain_turn hg hl hq he hturn] at ht
    cases ht
    refine ⟨headLeft_queue hg, fun hf => ⟨fun a ha => ?_, headLeft_flights_near hc hf, fun l ho hwf a =>
      headLeft_byte_near hf ho hwf a⟩, fun hf => ⟨headLeft_mem_far hf, headLeft_flights_far hc hf⟩⟩
    rw [State.byte, headLeft_mem_near hf]
    exact (performEntry_writes ..).get ha
  · exact foldl_landFlight_flights _ hc rfl
  · exact fun a ha => (foldl_landFlight_writes c _ s).get fun ⟨f, hf, hcov⟩ => ha f hf hcov
  · exact fun hwf hb a => landAll_byte hwf hb a

end Sys2Proof
end

section
/-! SUPPORT. What CPY, CPYP and RROT do with and without a free entry of the copy queue (09 R239, R242, R243), what the handle words
do with a handle of no job (09 R250), what HLOD loads (09 R251).
-/

namespace Sys2Proof.Machine

open Sys2Proof

theorem gate_of_passes {gate : (Unit → Act) → Act} (h : Passes gate) (f : Unit → Act) : gate f = f () := h f

/-! ### The copy queue -/

/-- CPY, CPYP and RROT test for room first; without it their .nb forms write 0 to pD and go on (09 R239; notes/assumptions/39.md). -/
theorem exec_copyWord {i : Instr} {p : Fin 8} {nb : Bool}
    (h : (∃ a fo, i = .cpy p a nb fo) ∨ (∃ a, i = .cpyp p a nb) ∨ ∃ a, i = .rrot p a nb) :
    ∃ m : Ins → Act, (∀ s, exec i s = issue i s fun x => noWait x nb p (m x)) ∧
      ∀ x, copyRoom x.s x.k.core x.g.team = none → m x = .hold x.kept := by
  obtain ⟨a, fo, rfl⟩ | ⟨a, rfl⟩ | ⟨a, rfl⟩ := h <;>
    exact ⟨_, fun _ => rfl, fun x hx => by simp only [hx]⟩

section
variable {x : Ins} {pd : Fin 8} {nb shared : Bool} {a : Reg}

/-- A planned copy that no check holds back is queued (09 R229 to R235, R239). -/
theorem copyIns_commits {fo peer : Bool} {pl : Plan} (hr : copyRoom x.s x.k.core x.g.team = some shared)
    (hp : planOf x peer fo a = .ok pl) (hf : planFault x pl.m = none) (hb : Passes (bankSource x pl.m))
    (hu : Passes (unpinned x (if pl.m.dst.space = 3 then unitsOf pl.m.writeSpans else []))) (ho : Passes (followRoom x pl.follow)) :
    copyIns x pd a fo nb peer = .done (setQueued x nb pd true (commit x pl shared x.s)) := by
  simp only [copyIns, hr, hp, hf]
  rw [gate_of_passes hb, gate_of_passes hu, gate_of_passes ho]
  rfl

end

/-! ### Handles -/

/-- WAITH, TSTH and CANH perform STALEHANDLE for a handle that names no job (09 R250). -/
theorem exec_handleWord {i : Instr} {h : Fin 16} (hi : (∃ d, i = .waith d h) ∨ (∃ p, i = .tsth p h) ∨ i = .canh h) :
    ∃ m : Ins → Act, (∀ s, exec i s = issue i s m) ∧
      ∀ x, jobOf x.s (x.g.handle h.val) = none → m x = x.fail (staleHandle x h) := by
  obtain ⟨d, rfl⟩ | ⟨p, rfl⟩ | rfl := hi <;>
    exact ⟨_, fun _ => rfl, fun x hx => by simp only [hx]⟩

/-- No byte of a clean read is poisoned. -/
theorem poisoned_of_clean {x : Ins} {a : Acc} {n : Nat} (h : CleanRead x a) (hn : a.size = n) :
    ((passing x a).filter fun t => seenPoison x.s x.g (accAt x a t) n) = [] := by
  subst hn
  exact List.filter_eq_nil_iff.mpr fun t ht => ne_true_of_eq_false (h.sound t (mem_passing.mp ht).1)

end Sys2Proof.Machine
end

section
/-! PROOFS. Copy words and job words at their issue (09 R228 to R256).
-/

namespace Sys2Proof

open Sys2Proof.Machine

/-- Settles O24: each word by the outcome of its own tests, the full queue for the three copy words together. -/
theorem copyIssue : Obligations.CopyIssue := by
  unfold Obligations.CopyIssue
  refine ⟨fun l a b m r s g iss hr ⟨hok, hw, hp, hl⟩ => issue_act hr ?layd,
    fun p a nb fo shared pl s g iss hr ⟨hq, hp, hf, hb, hu, ho⟩ => issue_act hr (copyIns_commits hq hp hf hb hu ho),
    fun p a nb shared pl s g iss hr ⟨hq, hp, hf, hb, hu, ho⟩ => issue_act hr (copyIns_commits hq hp hf hb hu ho),
    fun i p hi s g iss hr hq => ?noRoom, fun i p hi s g iss hr hq => ?waits,
    fun p a nb shared r s g iss hr ⟨hq, hp⟩ => issue_act hr ?rrot,
    fun d s g iss hr _ => issue_act hr rfl,
    fun a s g iss hr ⟨hn, ho⟩ => issue_act hr ((if_neg (Nat.not_le.mpr hn)).trans (if_neg (ne_true_of_eq_false ho))),
    fun a s g iss hr ⟨hn, ho⟩ => issue_hold hr ((if_neg (Nat.not_le.mpr hn)).trans (if_pos ho)),
    fun a s g iss hr hn => issue_act hr (if_pos hn)⟩
  case layd =>
    simp only [hok, hw, accAt, hp, hl, ne_eq, not_true_eq_false, if_false, Bool.false_eq_true]
    rfl
  case noRoom =>
    obtain ⟨m, hm, hnone⟩ := exec_copyWord hi
    exact (hm s).trans (issue_act hr (congrArg (noWait _ true p) (hnone _ hq)))
  case waits =>
    obtain ⟨m, hm, hnone⟩ := exec_copyWord hi
    exact (hm s).trans (issue_hold hr (congrArg (noWait _ false p) (hnone _ hq)))
  case rrot =>
    simp only [hq, hp, noWait]
    rfl

/-- Settles O25: each word by the outcome of its own tests, a stale handle for the three words that ask for its job together. -/
theorem jobIssue : Obligations.JobIssue := by
  unfold Obligations.JobIssue
  refine ⟨fun h a i s g iss hr ⟨hc, hj, hf, hw⟩ => issue_act hr ?enq,
    fun h a v s g iss hr hc => issue_act hr ?badCard,
    fun h a s g iss hr ⟨hc, hj⟩ => issue_hold hr ?full,
    fun d h j n s g iss hr ⟨hj, hn⟩ => issue_act hr ?waith,
    fun d h j s g iss hr ⟨hj, hn⟩ => issue_hold hr ?unfinished,
    fun p h j s g iss hr hj => issue_act hr ?tsth,
    fun i h hi s g iss hr hj => ?stale,
    fun h j s g iss hr hj => issue_act hr ?canh,
    fun h a b j s g iss hr ⟨hok, hj⟩ => issue_act hr ?hsto,
    fun h a b s g iss hr ⟨hok, hc⟩ => issue_act hr ?hlod,
    fun n a b st s g iss hr ⟨hst, hq, hrest, hbad⟩ => issue_act hr ?appended,
    fun n a b s g iss hr hst => issue_act hr ?closed,
    fun n a b st s g iss hr ⟨hst, hf, hq⟩ => issue_hold hr ?undrained,
    fun n a b st s g iss hr ⟨hst, hq, hrest, hbad⟩ => issue_act hr ?refused,
    fun d a b dig k els s g iss hr ⟨hok, hne, hels⟩ => issue_act hr ?bhist⟩
  case enq => simp only [hc, hj, hf, hw, if_false, Bool.false_eq_true]; rfl
  case badCard => simp only [hc]; rfl
  case full => simp only [hc, hj]
  case waith => simp only [hj, hn]; rfl
  case unfinished => simp only [hj, hn]
  case tsth => simp only [hj]; rfl
  case stale =>
    obtain ⟨m, hm, hnone⟩ := exec_handleWord hi
    exact (hm s).trans (issue_act hr (hnone _ hj))
  case canh => simp only [hj]; rfl
  case hsto => simp only [hok, hj, ne_eq, not_true_eq_false, if_false]; rfl
  case hlod =>
    simp only [hc.free, hok, poisoned_of_clean (n := 8) hc rfl, failures_of_allowed hc.passes, true_and, if_true, if_false,
      Bool.false_eq_true]
    rfl
  case appended => simp only [hst, hq, hrest, hbad, List.isEmpty_nil, Bool.not_true, Bool.false_eq_true, if_false, if_true]; rfl
  case closed => simp only [hst]; rfl
  case undrained =>
    simp only [hst, hf, List.isEmpty_eq_false_iff.mpr hq, Bool.not_false, if_true]
  case refused =>
    simp only [hst, hq, hrest, hbad, List.isEmpty_nil, List.isEmpty_iff, Bool.not_true, Bool.false_eq_true, if_false, if_true]
    rfl
  case bhist =>
    simp only [passing_of_allowed hok, failures_of_allowed hok, accAt, ← hels, List.isEmpty_iff, hne, if_false]
    rfl

end Sys2Proof
end

section
/-! SUPPORT. How a step takes up a job (09 R245 to R247, R250): the event of each kind, what comes before the service itself, and the
state in which the service begins.
-/

namespace Sys2Proof.Machine

open Sys2Proof

variable {s t : State} {d n kind : Nat} {j : Job} {f : Job → State → State}

theorem ne_queued_of_started (h : j.started = true) : j.st ≠ .queued := fun hq =>
  JobSt.noConfusion ((eq_of_beq h).symm.trans hq)

/-! ### What comes before the service -/

section
variable (hj : s.job? d n = some j) (hk : j.kind = kind) (hf : j.finished = false)
include hj hk hf

/-- A malformed descriptor comes first (09 R245). -/
theorem onJob_malformed (hb : j.bad = true) : onJob s d n kind f = completeJob s d n 7 := by
  simp only [onJob, hj, hk, hf, hb, ne_eq, not_true_eq_false, Bool.false_eq_true, or_self, if_false, if_true]

/-- A cancelled job ends where it can be cancelled, or where nobody will answer it (09 R250; 17 R365). -/
theorem onJob_cancelled (hb : j.bad = false) (hc : j.canh = true)
    (h : j.st = .queued ∨ j.atBoundary = true ∨ unanswered s j = true) : onJob s d n kind f = completeJob s d n 5 := by
  have hend : (j.canh && (j.st == .queued || j.atBoundary || unanswered s j)) = true := by
    simpa only [hc, Bool.true_and, Bool.or_eq_true, beq_iff_eq, or_assoc] using h
  simp only [onJob, hj, hk, hf, hb, hend, ne_eq, not_true_eq_false, Bool.false_eq_true, or_self, if_false, if_true]

/-- What is left for a job that nothing ends: its start, its service, what is under way to a peer. -/
theorem onJob_goesOn (hb : j.bad = false) (hc : j.canh = false) : onJob s d n kind f =
    if j.st = .queued then
      (if jobStarts s d j then f j (s.modJob d n fun x => { x with st := .started }) else s)
    else if j.susp = .none then (if j.out.isEmpty then f j s else flushRest s (.job d n))
    else s := by
  simp only [onJob, hj, hk, hf, hb, hc, ne_eq, not_true_eq_false, Bool.false_eq_true, or_self, Bool.false_and, if_false]

theorem onJob_unstarted (hb : j.bad = false) (hc : j.canh = false) (hq : j.st = .queued) (hs : jobStarts s d j = false) :
    onJob s d n kind f = s := by
  rw [onJob_goesOn hj hk hf hb hc, if_pos hq, if_neg (ne_true_of_eq_false hs)]

/-- What is under way to a peer leaves first (21 R391). -/
theorem onJob_flushes (hb : j.bad = false) (hc : j.canh = false) (hs : j.started = true) (hw : j.susp = .none) (ho : j.out ≠ []) :
    onJob s d n kind f = flushRest s (.job d n) := by
  rw [onJob_goesOn hj hk hf hb hc, if_neg (ne_queued_of_started hs), if_pos hw, if_neg (mt List.isEmpty_iff.mp ho)]

theorem onJob_suspended (hb : j.bad = false) (hc : j.canh = false) (hs : j.started = true) (hw : j.susp ≠ .none) :
    onJob s d n kind f = s := by
  rw [onJob_goesOn hj hk hf hb hc, if_neg (ne_queued_of_started hs), if_neg hw]

end

/-! ### The events -/

theorem exec_binningOpen (hj : s.job? d n = some j) (hb : (j.c 2).getLsbD 0 = false) :
    exec (.binningOpen d n) s = .next (onJob s d n 0 fun j s => serveOpen s d n j) := by
  simp only [exec, execBinningOpen, hj, hb, Bool.false_eq_true, if_false]

theorem exec_topkHistogram (hj : s.job? d n = some j) (hb : (j.c 2).getLsbD 0 = false) :
    exec (.topkHistogram d n) s = .next (onJob s d n 3 fun j s => serveHistogram s d n j) := by
  simp only [exec, execTopkHistogram, hj, hb, Bool.false_eq_true, if_false]

theorem exec_topkSelect (hj : s.job? d n = some j) (hb : (j.c 2).getLsbD 0 = true) :
    exec (.topkSelect d n) s = .next (onJob s d n 3 fun j s => serveSelect s d n j) := by
  simp only [exec, execTopkSelect, hj, hb, if_true]

/-- A replay that has started, or is malformed, is taken up as any other job. -/
theorem exec_binningReplay_onJob (hj : s.job? d n = some j) (hb : (j.c 2).getLsbD 0 = true)
    (h : j.st ≠ .queued ∨ j.bad = true) :
    exec (.binningReplay d n) s = .next (onJob s d n 0 fun j s => serveReplay s d n j) := by
  have hq : (j.st == .queued && !j.bad) = false := by
    rcases h with h | h
    · rw [beq_eq_false_iff_ne.mpr h, Bool.false_and]
    · rw [h, Bool.not_true, Bool.and_false]
  simp only [exec, execBinningReplay, hj, hb, hq, Bool.not_true, Bool.false_and, Bool.false_eq_true, if_false]

/-- A queued replay that may not start waits (09 R246). -/
theorem exec_binningReplay_unstarted (hj : s.job? d n = some j) (hb : (j.c 2).getLsbD 0 = true) (hq : j.st = .queued)
    (hbad : j.bad = false) (hs : jobStarts s d j = false) : exec (.binningReplay d n) s = .next s := by
  simp only [exec, execBinningReplay, hj, hb, hq, hbad, hs, beq_self_eq_true, Bool.not_true, Bool.not_false, Bool.and_false,
    Bool.and_self, Bool.false_eq_true, if_false, if_true]

/-- The event that serves a job by its kind and, for binnings and top-k passes, bit 0 of its card's c2 (09 R248, R439). -/
def Serves (i : Instr) (d n : Nat) (j : Job) : Prop :=
  (i = .binningOpen d n ∧ j.kind = 0 ∧ (j.c 2).getLsbD 0 = false) ∨ (i = .binningReplay d n ∧ j.kind = 0 ∧ (j.c 2).getLsbD 0 = true) ∨
  (i = .gather d n ∧ j.kind = 2) ∨ (i = .topkHistogram d n ∧ j.kind = 3 ∧ (j.c 2).getLsbD 0 = false) ∨
  (i = .topkSelect d n ∧ j.kind = 3 ∧ (j.c 2).getLsbD 0 = true) ∨ (i = .mainToMainCopy d n ∧ j.kind = 5)

section
variable {i : Instr} {u : State} (hj : s.job? d n = some j) (hi : Serves i d n j)
include hj hi

/-- The event of a job does what `onJob` does for its kind; only a replay has a start of its own. -/
theorem exec_serves (hon : ∀ {kind f}, j.kind = kind → onJob s d n kind f = u)
    (hr : (j.c 2).getLsbD 0 = true → j.kind = 0 → exec (.binningReplay d n) s = .next u) : exec i s = .next u := by
  obtain ⟨rfl, hk, hb⟩ | ⟨rfl, hk, hb⟩ | ⟨rfl, hk⟩ | ⟨rfl, hk, hb⟩ | ⟨rfl, hk, hb⟩ | ⟨rfl, hk⟩ := hi
  · rw [exec_binningOpen hj hb, hon hk]
  · exact hr hb hk
  · exact congrArg _ (hon hk)
  · rw [exec_topkHistogram hj hb, hon hk]
  · rw [exec_topkSelect hj hb, hon hk]
  · exact congrArg _ (hon hk)

theorem exec_serves_onJob (h : j.kind ≠ 0 ∨ j.st ≠ .queued ∨ j.bad = true)
    (hon : ∀ {kind f}, j.kind = kind → onJob s d n kind f = u) : exec i s = .next u :=
  exec_serves hj hi hon fun hb hk => by
    rw [exec_binningReplay_onJob hj hb (h.resolve_left (not_not_intro hk)), hon hk]

/-- A job of any kind that may not start waits (09 R246). -/
theorem exec_serves_unstarted (hf : j.finished = false) (hb : j.bad = false) (hc : j.canh = false) (hq : j.st = .queued)
    (hs : jobStarts s d j = false) : exec i s = .next s :=
  exec_serves hj hi (onJob_unstarted hj · hf hb hc hq hs) fun h0 _ => exec_binningReplay_unstarted hj h0 hq hb hs

end

/-! ### The state in which the service begins -/

/-- A job that nothing ends or holds back: `t` is the state in which its service begins. -/
structure TakenUp (s : State) (d n : Nat) (j : Job) (t : State) : Prop where
  here   : s.job? d n = some j
  idx    : j.idx = n
  alive  : j.finished = false
  sound  : j.bad = false
  kept   : j.canh = false
  sent   : j.out = []
  served : served s d j = some t

/-- The service of a started job that nothing stops begins in the state at hand. -/
theorem served_of_started (hs : j.started = true) (hw : j.susp = .none) : Machine.served s d j = some s := by
  simp only [Machine.served, ne_queued_of_started hs, hw, if_false, if_true]

/-- The service of a job that is taken up works on that state. -/
theorem TakenUp.onJob (h : TakenUp s d n j t) (hk : j.kind = kind) : onJob s d n kind f = f j t := by
  have ht := h.served
  rw [onJob_goesOn h.here hk h.alive h.sound h.kept]
  unfold Machine.served at ht
  rw [h.idx] at ht
  split at ht
  · next hq =>
    split at ht
    · next hs => cases ht; rw [if_pos hq, if_pos hs]
    · cases ht
  · next hq =>
    split at ht
    · next hw => cases ht; rw [if_neg hq, if_pos hw, h.sent]; rfl
    · cases ht

section
variable (h : TakenUp s d n j t) {u : State}
include h

theorem TakenUp.binningOpen (hk : j.kind = 0) (hb : (j.c 2).getLsbD 0 = false) (hu : serveOpen t d n j = u) :
    exec (.binningOpen d n) s = .next u := by
  rw [exec_binningOpen h.here hb, h.onJob hk, hu]

theorem TakenUp.gather (hk : j.kind = 2) (hu : serveGather t d n j = u) : exec (.gather d n) s = .next u :=
  congrArg _ ((h.onJob hk).trans hu)

theorem TakenUp.topkHistogram (hk : j.kind = 3) (hb : (j.c 2).getLsbD 0 = false) (hu : serveHistogram t d n j = u) :
    exec (.topkHistogram d n) s = .next u := by
  rw [exec_topkHistogram h.here hb, h.onJob hk, hu]

theorem TakenUp.topkSelect (hk : j.kind = 3) (hb : (j.c 2).getLsbD 0 = true) (hu : serveSelect t d n j = u) :
    exec (.topkSelect d n) s = .next u := by
  rw [exec_topkSelect h.here hb, h.onJob hk, hu]

theorem TakenUp.mainToMainCopy (hk : j.kind = 5) (hu : serveMain t d n j = u) : exec (.mainToMainCopy d n) s = .next u :=
  congrArg _ ((h.onJob hk).trans hu)

end

end Sys2Proof.Machine
end

section
/-! SUPPORT. What each service does at the place its job has come to (09 R248, R253, R439; 12 R298, R309).
-/

namespace Sys2Proof.Machine

open Sys2Proof

variable {s : State} {d n : Nat} {j : Job}

/-! ### Opening a bin stream (09 R253, R439) -/

theorem serveOpen_malformed (h : ((s.windowOf j.corr d).bind fun w => streamOf w.2 j.stream j.corr j.desc) = none) :
    serveOpen s d n j = completeJob s d n 7 := by
  simp only [serveOpen, h]

section
variable {w : Nat × Nat} {st : Stream} (hw : s.windowOf j.corr d = some w) (hst : streamOf w.2 j.stream j.corr j.desc = some st)
include hw hst

theorem serveOpen_opens (h : s.stream? d j.corr j.stream = none) : serveOpen s d n j =
    completeJob (s.modDie d fun x => { x with streams := x.streams ++ [st] }) d n 0 := by
  simp only [serveOpen, hw, hst, h, Option.bind_some]

/-- A stream that is open is replayed under its old record before the new one takes effect. -/
theorem serveOpen_reopens {old : Stream} (h : s.stream? d j.corr j.stream = some old) : serveOpen s d n j =
    if replayBusy s d j then s
    else if j.bins ≠ [] then replayStep s d n old j
    else if old.held ≠ 0 then takeBins s d n old
    else completeJob (s.modStream d j.corr j.stream fun _ => { st with els := old.els }) d n 0 := by
  simp only [serveOpen, hw, hst, h, Option.bind_some, Bool.not_eq_true', List.isEmpty_eq_false_iff]

end

/-! ### Replays (09 R253) -/

theorem serveReplay_closed (h : s.stream? d j.corr j.stream = none) : serveReplay s d n j = completeJob s d n 7 := by
  simp only [serveReplay, h]

section
variable {st : Stream} (h : s.stream? d j.corr j.stream = some st)
include h

theorem serveReplay_done (hb : j.bins = []) : serveReplay s d n j = completeJob s d n 0 := by
  simp only [serveReplay, h, hb, List.isEmpty_nil, if_true]

theorem serveReplay_busy (hb : j.bins ≠ []) (hr : replayBusy s d j = true) : serveReplay s d n j = s := by
  simp only [serveReplay, h, List.isEmpty_iff, hb, hr, if_false, if_true]

theorem serveReplay_steps {x : Job} (hb : j.bins ≠ []) (hr : replayBusy s d j = false)
    (hx : (replayStep s d n st j).job? d n = some x) : serveReplay s d n j =
      if x.bins = [] ∧ x.out = [] ∧ x.susp = .none then completeJob (replayStep s d n st j) d n 0 else replayStep s d n st j := by
  simp only [serveReplay, h, List.isEmpty_iff, hb, hr, hx, Bool.false_eq_true, if_false, Bool.and_eq_true, beq_iff_eq, and_assoc]

end

section
variable (hj : s.job? d n = some j) (hb : (j.c 2).getLsbD 0 = true) (hk : j.kind = 0) (hq : j.st = .queued)
  (hbad : j.bad = false) (hs : jobStarts s d j = true)
include hj hb hk hq hbad hs

theorem exec_binningReplay_closed (h : s.stream? d j.corr j.stream = none) :
    exec (.binningReplay d n) s = .next (completeJob s d n 7) := by
  simp only [exec, execBinningReplay, hj, hb, hk, hq, hbad, hs, h, beq_self_eq_true, Bool.not_true, Bool.not_false, Bool.and_self,
    Bool.false_eq_true, if_false, if_true]

/-- A replay starts with the elements that the stream has received by then (09 R253). -/
theorem exec_binningReplay_starts {st : Stream} {x : Job} (h : s.stream? d j.corr j.stream = some st)
    (hr : replayBusy s d j = false)
    (hx : (takeBins (s.modJob d n fun y => { y with st := .started }) d n st).job? d n = some x) :
    exec (.binningReplay d n) s =
      .next (serveReplay (takeBins (s.modJob d n fun y => { y with st := .started }) d n st) d n x) := by
  simp only [exec, execBinningReplay, hj, hb, hk, hq, hbad, hs, h, hr, hx, beq_self_eq_true, Bool.not_true, Bool.not_false,
    Bool.and_self, Bool.false_eq_true, if_false, if_true]

end

/-! ### Gather (09 R248) -/

section
variable {w : Nat × Nat} {g : Gathering} (hw : s.windowOf j.corr d = some w) (hg : gatherOf w.2 (j.c 2).toNat j.desc = some g)
include hw hg

theorem serveGather_done (hm : j.mv = none) (h : (j.c 2).toNat ≤ j.at_) : serveGather s d n j = completeJob s d n 0 := by
  simp only [serveGather, hw, hg, hm, h, if_true]

theorem serveGather_takes (hm : j.mv = none) (h : j.at_ < (j.c 2).toNat) : serveGather s d n j = takeRow s d n j g := by
  simp only [serveGather, hw, hg, hm, Nat.not_le.mpr h, if_false]

theorem serveGather_row {m : Move} (hm : j.mv = some m) : serveGather s d n j = serveRow s d n j m := by
  simp only [serveGather, hw, hg, hm]

end

section
variable {m : Move}

/-- A row of an index beyond the table is told to the handler. -/
theorem serveRow_beyond (h : m.src.ext1 ≤ m.c2.toNat) (hs : skipOf j.toEng (rowMark j.at_) = none) :
    serveRow s d n j m = copyFault s (.job d n) false 0 (rowMark j.at_) 1 := by
  simp only [serveRow, h, hs, if_true]

theorem serveRow_answered {k : SkipRange} (h : m.src.ext1 ≤ m.c2.toNat) (hs : skipOf j.toEng (rowMark j.at_) = some k) :
    serveRow s d n j m = nextRow (if k.patch then s else fillRow s (.job d n) m) d n := by
  simp only [serveRow, h, hs, if_true]

theorem serveRow_within (h : m.c2.toNat < m.src.ext1) : serveRow s d n j m =
    if moveDone (serveBlock s (.job d n)) (.job d n) then nextRow (serveBlock s (.job d n)) d n
    else serveBlock s (.job d n) := by
  simp only [serveRow, Nat.not_le.mpr h, if_false]

end

/-! ### Passes of top-k (09 R248) -/

section
variable {u : State}

section
variable (h : j.at_ < (j.c 4).toNat)
include h

theorem serveHistogram_unread (hr : readKey s d n j (topkOf j.desc) = (u, none)) : serveHistogram s d n j = u := by
  simp only [serveHistogram, Nat.not_le.mpr h, if_false, hr]

theorem serveHistogram_skipped (hr : readKey s d n j (topkOf j.desc) = (u, some none)) :
    serveHistogram s d n j = nextKey u d n false false := by
  simp only [serveHistogram, Nat.not_le.mpr h, if_false, hr]

theorem serveHistogram_counts {k : Word} (hr : readKey s d n j (topkOf j.desc) = (u, some (some k))) :
    serveHistogram s d n j = nextKey (if keyCounts j.digit (j.c 3) k then u.modJob d n fun x =>
      { x with counts := x.counts.modify (bucketOf j.digit k) (· + 1) } else u) d n false false := by
  simp only [serveHistogram, Nat.not_le.mpr h, if_false, hr]

end

section
variable (h : (j.c 4).toNat ≤ j.at_)
include h

theorem serveHistogram_done (h0 : ∀ b < 256, j.at_ - (j.c 4).toNat ≤ b → j.counts.getD b 0 = 0) :
    serveHistogram s d n j = completeJob s d n 0 := by
  have hnone : ((List.range 256).find? fun b => decide (j.at_ - (j.c 4).toNat ≤ b) && j.counts.getD b 0 != 0) = none :=
    List.find?_eq_none.mpr fun b hb => by
      simpa only [Bool.not_eq_true, Bool.and_eq_false_imp, decide_eq_true_eq, bne_eq_false_iff_eq] using h0 b (List.mem_range.mp hb)
  simp only [serveHistogram, h, if_true, hnone]

/-- Of the counters that have grown the lowest not yet written is written next. -/
theorem serveHistogram_writes {b : Nat} (hb : b < 256) (hle : j.at_ - (j.c 4).toNat ≤ b) (hne : j.counts.getD b 0 ≠ 0)
    (hlow : ∀ a < b, j.at_ - (j.c 4).toNat ≤ a → j.counts.getD a 0 = 0) : serveHistogram s d n j =
      putOut (s.modJob d n fun x => { x with at_ := (j.c 4).toNat + b }) d n (topkOf j.desc) (4 * b) true (j.counts.getD b 0)
        fun u => nextKey u d n false false := by
  have hsome : ((List.range 256).find? fun b => decide (j.at_ - (j.c 4).toNat ≤ b) && j.counts.getD b 0 != 0) = some b :=
    List.find?_range_eq_some.mpr ⟨by simpa only [Bool.and_eq_true, decide_eq_true_eq, bne_iff_ne] using ⟨hle, hne⟩,
      List.mem_range.mpr hb, fun a ha => by
        simpa only [Bool.not_eq_true', Bool.and_eq_false_imp, decide_eq_true_eq, bne_eq_false_iff_eq] using hlow a ha⟩
  simp only [serveHistogram, h, if_true, hsome]

end

section
variable (h : j.at_ < (j.c 4).toNat)
include h

theorem serveSelect_unread (hr : readKey s d n j (topkOf j.desc) = (u, none)) : serveSelect s d n j = u := by
  simp only [serveSelect, Nat.not_lt.mpr (Nat.le_of_lt h), Nat.ne_of_gt h, if_false, hr]

theorem serveSelect_skipped (hr : readKey s d n j (topkOf j.desc) = (u, some none)) :
    serveSelect s d n j = nextKey u d n false false := by
  simp only [serveSelect, Nat.not_lt.mpr (Nat.le_of_lt h), Nat.ne_of_gt h, if_false, hr]

/-- A key above the threshold is selected, and one within it while there is room. -/
theorem serveSelect_selects {k : Word} (hr : readKey s d n j (topkOf j.desc) = (u, some (some k)))
    (hk : (j.c 6).ult k = true ∨ ((j.c 5).ule k = true ∧ k.ule (j.c 6) = true ∧ j.took < (j.c 3).toNat)) :
    serveSelect s d n j = putOut u d n (topkOf j.desc) (4 * j.wrote) false (BitVec.ofNat 32 j.at_) fun v =>
      nextKey v d n true ((j.c 5).ule k && k.ule (j.c 6) && decide (j.took < (j.c 3).toNat)) := by
  have hsel : ((j.c 6).ult k || ((j.c 5).ule k && k.ule (j.c 6) && decide (j.took < (j.c 3).toNat))) = true := by
    simpa only [Bool.or_eq_true, Bool.and_eq_true, decide_eq_true_eq, and_assoc] using hk
  simp only [serveSelect, Nat.not_lt.mpr (Nat.le_of_lt h), Nat.ne_of_gt h, if_false, hr, hsel, if_true]
  rfl

theorem serveSelect_passes {k : Word} (hr : readKey s d n j (topkOf j.desc) = (u, some (some k))) (ha : (j.c 6).ult k = false)
    (hw : (j.c 5).ule k = false ∨ k.ule (j.c 6) = false ∨ (j.c 3).toNat ≤ j.took) :
    serveSelect s d n j = nextKey u d n false false := by
  have hnot : ((j.c 6).ult k || ((j.c 5).ule k && k.ule (j.c 6) && decide (j.took < (j.c 3).toNat))) = false := by
    simpa only [Bool.or_eq_false_iff, Bool.and_eq_false_iff, decide_eq_false_iff_not, Nat.not_lt, or_assoc] using ⟨ha, hw⟩
  simp only [serveSelect, Nat.not_lt.mpr (Nat.le_of_lt h), Nat.ne_of_gt h, if_false, hr, hnot, Bool.false_eq_true]

end

/-- After the last key the count of the indices is written. -/
theorem serveSelect_writesCount {x : Job} (h : j.at_ = (j.c 4).toNat) (hu : u = putOut s d n (topkOf j.desc) (4 * j.wrote) false
      (BitVec.ofNat 32 j.wrote) fun v => nextKey v d n false false) (hx : u.job? d n = some x) :
    serveSelect s d n j = if (j.c 4).toNat < x.at_ ∧ x.out = [] ∧ x.susp = .none then completeJob u d n 0 else u := by
  subst hu
  simp only [serveSelect, h, Nat.lt_irrefl, if_false, if_true, word, hx, Bool.and_eq_true, decide_eq_true_eq, List.isEmpty_iff,
    beq_iff_eq, and_assoc]

theorem serveSelect_done (h : (j.c 4).toNat < j.at_) : serveSelect s d n j = completeJob s d n 0 := by
  simp only [serveSelect, h, if_true]

end

/-! ### Main-to-main copy (09 R248) -/

theorem serveMain_eq {u : State}
    (hu : u = if j.mv = none then s.modJob d n fun x => { x with mv := mainMove x.c x.desc } else s) : serveMain s d n j =
      if moveDone (serveBlock u (.job d n)) (.job d n) then completeJob (serveBlock u (.job d n)) d n 0
      else serveBlock u (.job d n) := by
  subst hu
  simp only [serveMain, Option.isNone_iff_eq_none]

/-! ### Walker jobs (12 R298, R309) -/

section
variable (hj : s.job? d n = some j) (hk : j.kind = 1) (hf : j.finished = false)
include hj hk hf

theorem serveWalker_malformed (hb : j.bad = true) : serveWalker s d n = completeJob s d n 7 := by
  simp only [serveWalker, hj, hk, hf, hb, ne_eq, not_true_eq_false, Bool.false_eq_true, or_self, if_false, if_true]

theorem serveWalker_cancelled (hb : j.bad = false) (hc : j.canh = true) (h : j.st = .queued ∨ s.goesOn j.corr = true) :
    serveWalker s d n = completeJob (dropWalker s d n) d n 5 := by
  simp only [serveWalker, hj, hk, hf, hb, hc, h, ne_eq, not_true_eq_false, Bool.false_eq_true, or_self, and_self, if_false, if_true]

/-- A launch that is halting or saved keeps the CANH of a started walker job (12 R299; 17 R362). -/
theorem serveWalker_keeps (hb : j.bad = false) (hc : j.canh = true) (hs : j.started = true) (h : s.goesOn j.corr = false) :
    serveWalker s d n = s := by
  simp only [serveWalker, hj, hk, hf, hb, hc, ne_queued_of_started hs, h, ne_eq, not_true_eq_false, Bool.false_eq_true, or_self,
    and_false, if_false, if_true]

theorem serveWalker_starts (hb : j.bad = false) (hc : j.canh = false) (hs : jobStarts s d j = true) (hg : s.goesOn j.corr = true)
    (hw : (s.core j.key.core).walker = none) (ha : walkerAhead s d j = false) : serveWalker s d n =
      putWalker (s.modJob d n fun x => { x with st := .started }) j.key.core
        (some (Walker.start j (((s.grid? j.corr).map (·.walker)).getD []))) := by
  simp only [serveWalker, hj, hk, hf, hb, hc, hs, hg, hw, ha, ne_eq, not_true_eq_false, Bool.false_eq_true, or_self, false_and,
    and_self, if_false, if_true]

end

end Sys2Proof.Machine
end

section
/-! PROOFS. The steps that serve a job (09 R245 to R253, R439; 12 R298, R309).
-/

namespace Sys2Proof

open Sys2Proof.Machine

/-- Settles O35: what ends or holds back a job of any kind comes from `onJob`; the rest is its service, at the place the job has come
to. -/
theorem jobEvents : Obligations.JobEvents := by
  unfold Obligations.JobEvents
  intro s d n j hj hidx hf
  refine ⟨fun i hi => ?common, fun hb hc ho t ht => ?served, fun hk h0 hb hc => ?replay, fun hk => ?walker⟩
  case common =>
    exact ⟨fun hb => exec_serves_onJob hj hi (.inr (.inr hb)) (onJob_malformed hj · hf hb),
      fun hk hb hc h => exec_serves_onJob hj hi (.inl hk) (onJob_cancelled hj · hf hb hc h),
      fun hb hc hq hs => exec_serves_unstarted hj hi hf hb hc hq hs,
      fun hb hc hs hw ho => exec_serves_onJob hj hi (.inr (.inl (ne_queued_of_started hs))) (onJob_flushes hj · hf hb hc hs hw ho),
      fun hb hc hs hw => exec_serves_onJob hj hi (.inr (.inl (ne_queued_of_started hs))) (onJob_suspended hj · hf hb hc hs hw)⟩
  case served =>
    have h : TakenUp s d n j t := ⟨hj, hidx, hf, hb, hc, ho, ht⟩
    refine ⟨fun hk h0 => ?opening, fun w g hk hw hg => ?gather, fun hk h0 => ?histogram, fun hk h0 => ?select,
      fun u hk hu => h.mainToMainCopy hk (serveMain_eq hu)⟩
    case opening =>
      refine ⟨fun hnone => h.binningOpen hk h0 (serveOpen_malformed hnone), fun w st hw hst =>
        ⟨fun hn => h.binningOpen hk h0 (serveOpen_opens hw hst hn), fun old hold => ?_⟩⟩
      have hre := serveOpen_reopens (n := n) hw hst hold
      exact ⟨fun hr => h.binningOpen hk h0 (hre.trans (if_pos hr)),
        fun hr hbins => h.binningOpen hk h0 (hre.trans ((if_neg (ne_true_of_eq_false hr)).trans (if_pos hbins))),
        fun hr hbins hheld => h.binningOpen hk h0 (hre.trans ((if_neg (ne_true_of_eq_false hr)).trans
          ((if_neg (not_not_intro hbins)).trans (if_pos hheld)))),
        fun hr hbins hheld => h.binningOpen hk h0 (hre.trans ((if_neg (ne_true_of_eq_false hr)).trans
          ((if_neg (not_not_intro hbins)).trans (if_neg (not_not_intro hheld)))))⟩
    case gather =>
      exact ⟨fun hm hle => h.gather hk (serveGather_done hw hg hm hle), fun hm hlt => h.gather hk (serveGather_takes hw hg hm hlt),
        fun m hm hle hs => h.gather hk ((serveGather_row hw hg hm).trans (serveRow_beyond hle hs)),
        fun m k hm hle hs => h.gather hk ((serveGather_row hw hg hm).trans (serveRow_answered hle hs)),
        fun m hm hlt => h.gather hk ((serveGather_row hw hg hm).trans (serveRow_within hlt))⟩
    case histogram =>
      exact ⟨fun hlt => ⟨fun u hr => h.topkHistogram hk h0 (serveHistogram_unread hlt hr),
          fun u hr => h.topkHistogram hk h0 (serveHistogram_skipped hlt hr),
          fun u k hr => h.topkHistogram hk h0 (serveHistogram_counts hlt hr)⟩,
        fun hle hz => h.topkHistogram hk h0 (serveHistogram_done hle hz),
        fun b hle hb256 hnext hne hlow => h.topkHistogram hk h0 (serveHistogram_writes hle hb256 hnext hne hlow)⟩
    case select =>
      exact ⟨fun hlt => ⟨fun u hr => h.topkSelect hk h0 (serveSelect_unread hlt hr),
          fun u hr => h.topkSelect hk h0 (serveSelect_skipped hlt hr),
          fun u k hr => ⟨fun hsel => h.topkSelect hk h0 (serveSelect_selects hlt hr hsel),
            fun ha hw => h.topkSelect hk h0 (serveSelect_passes hlt hr ha hw)⟩⟩,
        fun u x heq hu hx => h.topkSelect hk h0 (serveSelect_writesCount heq hu hx),
        fun hlt => h.topkSelect hk h0 (serveSelect_done hlt)⟩
  case replay =>
    refine ⟨fun hq hs hn => exec_binningReplay_closed hj h0 hk hq hb hs hn, ?_, fun hs hw ho => ?_⟩
    · rintro st _ x hq hs hst hr rfl hx
      exact exec_binningReplay_starts hj h0 hk hq hb hs hst hr hx
    · have h : TakenUp s d n j s := ⟨hj, hidx, hf, hb, hc, ho, served_of_started hs hw⟩
      have hexec {u : State} (hu : serveReplay s d n j = u) : exec (.binningReplay d n) s = .next u := by
        rw [exec_binningReplay_onJob hj h0 (.inl (ne_queued_of_started hs)), h.onJob hk, hu]
      refine ⟨fun hn => hexec (serveReplay_closed hn), fun st hst => ⟨fun hbins => hexec (serveReplay_done hst hbins),
        fun hbins hr => hexec (serveReplay_busy hst hbins hr), ?_⟩⟩
      rintro _ x hbins hr rfl hx
      exact hexec (serveReplay_steps hst hbins hr hx)
  case walker =>
    exact ⟨fun hb => congrArg _ (serveWalker_malformed hj hk hf hb),
      fun hb hc h => congrArg _ (serveWalker_cancelled hj hk hf hb hc h),
      fun hb hc hs h => congrArg _ (serveWalker_keeps hj hk hf hb hc hs h),
      fun hb hc hs hg hw ha => congrArg _ (serveWalker_starts hj hk hf hb hc hs hg hw ha)⟩

end Sys2Proof
end

section
/-! SUPPORT. Words that claim, release and queue for the matrix array at their issue: descriptors, the checks and waits that let a
word go on, what they ask of halves, banks and tags (10 R259 to R278).
-/

namespace Sys2Proof.Machine

open Sys2Proof

/-! ### Descriptors and checks -/

section
variable {α : Type} {x : Ins}

/-- A descriptor that keeps R259 is used. -/
theorem needs_of_some {v : Word} {o : Option α} {a : α} (h : o = some a) (f : α → Act) : needs x v o f = f a := by
  rw [h, needs]

/-- A descriptor that breaks R259 performs RANGE. -/
theorem needs_of_none {v : Word} {o : Option α} (h : o = none) (f : α → Act) : needs x v o f = x.fail (x.range v) := by
  rw [h, needs]

/-- A tile with no unsettled tag has no consumer that the provisional rules hold back (10 R271). -/
theorem passes_nonLinear_of_settled {t : Tile} {v : Word} (ho : (x.s.core x.k.core).openBy x.own t = false)
    (hc : (x.s.core x.k.core).carried t = []) : Passes (nonLinear x t v) := fun _ =>
  (if_neg (ne_true_of_eq_false ho)).trans (if_neg (not_not_intro hc))

end

/-! ### Claims and releases (10 R260 to R262) -/

section
variable {x : Ins}

theorem claimed_of_some {d : Reg} {o : Option Core} {c : Core} (h : o = some c) :
    claimed x d o = .done ((x.mod (putScalar d 0)).setCore x.k.core c) := by
  rw [h, claimed]

theorem claimed_of_none {d : Reg} {o : Option Core} (h : o = none) : claimed x d o = .done (x.mod (putScalar d 1)) := by
  rw [h, claimed]

/-- A release goes on where nothing in flight touches what it names (10 R262). -/
theorem none_busy {l : List Nat} {busy : Nat → Bool} (h : ∀ n ∈ l, busy n = false) : ¬l.any busy = true :=
  ne_true_of_eq_false (List.any_eq_false.mpr fun n hn => ne_true_of_eq_false (h n hn))

/-- None of the banks is a grant that the group holds from another owner (10 R261). -/
theorem none_granted {c : Core} {o : Own} {bs : List Nat}
    (h : ∀ b ∈ bs, c.ownsBank o b = true ∨ (c.bank b).grantee ≠ some o) :
    bs.find? (fun b => !c.ownsBank o b && (c.bank b).grantee == some o) = none := by
  refine List.find?_eq_none.mpr fun b hb => ?_
  rcases h b hb with hown | hgrant
  · simp [hown]
  · simp [hgrant]

end

/-! ### Products (10 R265) -/

/-- MMA, MMAA and MMSP share their issue. -/
theorem exec_product {i : Instr}
    (h : (∃ d a b tb ov, i = .mma d a b tb ov) ∨ (∃ d a b ov, i = .mmaa d a b ov) ∨ ∃ d a b tb ov, i = .mmsp d a b tb ov) (s : State) :
    exec i s = issue i s product := by
  obtain ⟨d, a, b, tb, ov, rfl⟩ | ⟨d, a, b, ov, rfl⟩ | ⟨d, a, b, tb, ov, rfl⟩ := h <;> rfl

/-- A product whose descriptors and checks pass takes its place in matrix order. -/
theorem product_placed {x : Ins} {p : Product} (hp : productOf x.i x.d.sca x.a.sca x.b.sca = .ok p)
    (ht : Passes (takeProduct x p x.d.sca)) : product x = .done (placeEntry x x.s p.op false true p.der) := by
  simp only [product, hp]
  exact ht _

/-! ### Lineage tags (10 R270, R274) -/

section
variable {c : Core} {o : Own} {team : Nat} {m : Word}

/-- None of the tags that a mask names is one that the group has open. -/
theorem none_open (h : ∀ n < 16, m.getLsbD n = true → (c.tag n).st ≠ .opened ∨ (c.tag n).pub ≠ o) :
    (((List.range 16).filter fun i => m.getLsbD i).any fun i => (c.tag i).st == .opened && (c.tag i).pub == o) = false := by
  refine List.any_eq_false.mpr fun n hn => ?_
  obtain ⟨hlt, hm⟩ := List.mem_filter.mp hn
  rcases h n (List.mem_range.mp hlt) hm with hst | hpub
  · simp [hst]
  · simp [hpub]

/-- The tags that a mask names have all settled, as far as they are the team's. -/
theorem all_settled (h : ∀ n < 16, m.getLsbD n = true → (c.tag n).unsettled = false ∨ (c.tag n).team ≠ team) :
    (((List.range 16).filter fun i => m.getLsbD i).all fun i => !(c.tag i).unsettled || (c.tag i).team != team) = true := by
  refine List.all_eq_true.mpr fun n hn => ?_
  obtain ⟨hlt, hm⟩ := List.mem_filter.mp hn
  rcases h n (List.mem_range.mp hlt) hm with hst | hteam
  · simp [hst]
  · simp [hteam]

end

end Sys2Proof.Machine
end

section
/-! PROOFS. Claims and matrix words at their issue (10 R259 to R278).
-/

namespace Sys2Proof

open Sys2Proof.Machine

/-- Settles O26: each word by its descriptor and the outcome of its claim or checks. -/
theorem claimWords : Obligations.ClaimWords := by
  unfold Obligations.ClaimWords
  refine ⟨fun d a r core s g iss hr ⟨hd, hc⟩ => issue_act hr ((needs_of_some hd _).trans (claimed_of_some hc)),
    fun d a r s g iss hr ⟨hd, hc⟩ => issue_act hr ((needs_of_some hd _).trans (claimed_of_none hc)),
    fun d a s g iss hr hd => issue_act hr (needs_of_none hd _),
    fun d a r core s g iss hr ⟨hd, hc⟩ => issue_act hr ((needs_of_some hd _).trans (claimed_of_some hc)),
    fun d a r s g iss hr ⟨hd, hc⟩ => issue_act hr ((needs_of_some hd _).trans (claimed_of_none hc)),
    fun a b k h s g iss hr ⟨hd, _, hl, hg⟩ => issue_act hr ?granted,
    fun a r s g iss hr ⟨hd, hl, hf⟩ => issue_act hr ?halvesFreed,
    fun a r h s g iss hr ⟨hd, hl, hh, hb⟩ => issue_hold hr ?halfBusy,
    fun a r s g iss hr ⟨hd, hl, ho, hc, hf⟩ => issue_act hr ?banksFreed,
    fun a r s g iss hr ⟨hd, hg⟩ => issue_act hr ?revoked⟩
  case granted => exact (needs_of_some hd _).trans ((needs_of_some hg _).trans (entitled_of_lacking_none hl _))
  case halvesFreed =>
    exact (needs_of_some hd _).trans ((entitled_of_lacking_none hl _).trans (if_neg (none_busy hf)))
  case halfBusy =>
    exact (needs_of_some hd _).trans ((entitled_of_lacking_none hl _).trans (if_pos (List.any_eq_true.mpr ⟨h, hh, hb⟩)))
  case banksFreed =>
    exact (needs_of_some hd _).trans ((entitled_of_lacking_none hl _).trans
      ((passes_nonLinear_of_settled ho hc _).trans (if_neg (none_busy hf))))
  case revoked =>
    refine (needs_of_some hd _).trans ?_
    simp only [none_granted hg]
    rfl

/-- Settles O27: each word by its descriptors and by what its rights and waits let go on. -/
theorem matrixIssue : Obligations.MatrixIssue := by
  unfold Obligations.MatrixIssue
  refine ⟨fun i p hi s g iss hr ⟨hp, ht⟩ => (exec_product hi s).trans (issue_act hr (product_placed hp ht)),
    fun d a t n s g iss hr ⟨hd, hl, hc, hq, hf⟩ => issue_act hr ?tagTaken,
    fun d a t s g iss hr ⟨hd, hl, hc, hq, hf⟩ => issue_act hr ?noTag,
    fun a t n s g iss hr ⟨hd, ht, hq⟩ => issue_act hr ((needs_of_some hd _).trans ((needs_of_some ht _).trans (hq _))),
    fun a s g iss hr ⟨hm, hn⟩ => issue_act hr ?settled,
    fun d a b op t u o s g iss hr ⟨ht, hu, ho, hfits, hl, hw, hq, htab⟩ => issue_act hr ?alin,
    fun a b t s g iss hr ⟨ht, hl, hw, hq⟩ => issue_act hr
      ((needs_of_some ht _).trans ((entitled_of_lacking_none hl _).trans ((hw _).trans (hq _)))),
    fun d a b k p s g iss hr ⟨hk, he, hlen, hl, hn, hp, hdst⟩ => issue_act hr ?adrn,
    fun d a b r s g iss hr ⟨hd, hb, ha, hsize, hl, hu, hq⟩ => issue_act hr ?old,
    fun a b r s g iss hr ⟨hd, hb, hl, hu, hq⟩ => issue_act hr ((needs_of_some hd _).trans
      ((if_neg (ne_true_of_eq_false hb)).trans ((entitled_of_lacking_none hl _).trans ((hu _).trans (hq _))))),
    fun d a b m t s g iss hr ⟨ht, hst, ha, hsize, hsec, hl, hn, hp, hq⟩ => issue_act hr ?ast,
    fun d a b sat fmt t dst hs s g iss hr ⟨ht, hb, hd, hl, hn, hp, hq⟩ => issue_act hr ?ost⟩
  case tagTaken | noTag =>
    refine (needs_of_some hd _).trans ((entitled_of_lacking_none hl _).trans ((if_neg (not_not_intro hc)).trans ((hq _).trans ?_)))
    simp only [hf]
    rfl
  case settled =>
    refine (if_neg ?_).trans (if_pos (all_settled fun n hlt hbit => (hn n hlt hbit).2))
    rw [none_open fun n hlt hbit => (hn n hlt hbit).1]
    simpa using hm
  case alin =>
    refine (needs_of_some ht _).trans ((needs_of_some hu _).trans ((needs_of_some ho _).trans ((if_neg ?_).trans
      ((entitled_of_lacking_none hl _).trans ((hw _).trans ((hq _).trans (htab _)))))))
    simp [hfits]
  case adrn =>
    refine (needs_of_some hk _).trans ((if_neg ?_).trans ((entitled_of_lacking_none hl _).trans ((hn _).trans ((hp _).trans ?_))))
    · exact not_or.mpr ⟨not_not_intro he, Nat.not_lt.mpr hlen⟩
    · simp only [hdst]
      rfl
  case old =>
    refine (needs_of_some hd _).trans ((if_neg ?_).trans ((if_neg (not_not_intro ha)).trans ((if_neg (Nat.not_lt.mpr hsize)).trans
      ((entitled_of_lacking_none hl _).trans ((hu _).trans (hq _))))))
    rintro ⟨hne, hbad⟩
    exact hb.elim hne fun hgood => ne_true_of_eq_false hgood hbad
  case ast =>
    exact (needs_of_some ht _).trans ((if_neg (not_not_intro hst)).trans ((if_neg (not_not_intro ha)).trans
      ((if_neg (Nat.not_lt.mpr hsize)).trans ((if_neg (ne_true_of_eq_false hsec)).trans
        ((entitled_of_lacking_none hl _).trans ((hn _).trans ((hp _).trans (hq _))))))))
  case ost =>
    refine (needs_of_some ht _).trans ((if_neg (Nat.not_le.mpr hb)).trans ?_)
    simp only [hd]
    exact (entitled_of_lacking_none hl _).trans ((hn _).trans ((hp _).trans (hq _)))

end Sys2Proof
end

section
/-! SUPPORT. The steps of a core's engines (95): what stores that land leave of a core (15 R325), how a matrix entry starts and what
its writes meet (10 R263, R274, R280), where the walker stands at no word (12 R307, R308).
-/

namespace Sys2Proof.Machine

open Sys2Proof

/-! ### The cores where groups and grids change -/

@[simp] theorem shutPast_cores (s : State) (k : GKey) (ws : List Nat) : (shutPast s k ws).cores = s.cores := by
  unfold shutPast; split <;> rfl

@[simp] theorem endGrid_cores (s : State) (corr : Nat) (f : Final) : (endGrid s corr f).cores = s.cores := by
  unfold endGrid
  split
  · split
    · split <;> rfl
    · split <;> rfl
  · rfl

@[simp] theorem chargeGrid_cores (s : State) (corr : Nat) (k : GKey) (p : Perf) : (chargeGrid s corr k p).cores = s.cores :=
  endGrid_cores ..

@[simp] theorem modIssuer_cores (s : State) (k : GKey) (o : Own) (corr : Nat) (f : Group → Group) :
    (modIssuer s k o corr f).cores = s.cores := by
  unfold modIssuer
  split
  · simp
  · split <;> simp

@[simp] theorem addLate_cores (s : State) (k : GKey) (o : Own) (corr : Nat) (p : Perf) :
    (addLate s k o corr p).cores = s.cores := by
  unfold addLate
  split
  · split <;> simp
  · simp

/-- What follows an entry of a queue touches no core. -/
theorem performFor_cores (s : State) (k : GKey) (e : QEntry) :
    (performFor s k e).cores = (performEntry s k.core e).s.cores := by
  unfold performFor
  dsimp only
  cases (performEntry s k.core e).bad <;> cases e.pend <;> simp

/-! ### What stores that land leave of a core -/

/-- A core but for its stores on their way and the lines of its invariant cache. -/
def Core.engines (c : Core) : Core := { c with flights := [], inv := [] }

@[simp] theorem engines_flights (c : Core) (fs : List Flight) : ({ c with flights := fs } : Core).engines = c.engines := rfl
@[simp] theorem engines_inv (c : Core) (l : List (Nat × Line)) : ({ c with inv := l } : Core).engines = c.engines := rfl

/-- The cores stand but for their stores on their way and the lines of their invariant caches. -/
structure EnginesStand (s t : State) : Prop where
  cores : t.cores.map Core.engines = s.cores.map Core.engines

namespace EnginesStand
variable {s t u : State}

theorem of_eq (h : t.cores = s.cores) : EnginesStand s t := ⟨by rw [h]⟩

theorem refl (s : State) : EnginesStand s s := of_eq rfl

theorem trans (a : EnginesStand s t) (b : EnginesStand t u) : EnginesStand s u := ⟨b.cores.trans a.cores⟩

theorem modCore {f : Core → Core} (hf : ∀ x, (f x).engines = x.engines) (s : State) (c : Nat) : EnginesStand s (s.modCore c f) where
  cores := by
    refine List.ext_getElem? fun i => ?_
    show ((s.cores.set c (f (s.core c))).map Core.engines)[i]? = _
    rw [List.getElem?_map, List.getElem?_map]
    by_cases hi : c = i
    · subst hi
      rw [List.getElem?_set_self', State.core, List.getD_eq_getElem?_getD]
      cases s.cores[c]? with
      | none => rfl
      | some x => exact congrArg some (hf x)
    · rw [List.getElem?_set_ne hi]

/-- A fold of steps each of which leaves the engines standing. -/
theorem foldl {α β : Type} {st : α → State} {f : α → β → α} (h : ∀ a b, EnginesStand (st a) (st (f a b))) (l : List β) :
    ∀ a, EnginesStand (st a) (st (l.foldl f a)) := by
  induction l with
  | nil => exact fun a => refl _
  | cons b l ih => exact fun a => (h a b).trans (ih _)

theorem length (a : EnginesStand s t) : t.cores.length = s.cores.length := by
  simpa only [List.length_map] using congrArg List.length a.cores

theorem core (a : EnginesStand s t) (c : Nat) : (t.core c).engines = (s.core c).engines := by
  have h (v : State) : (v.core c).engines = (v.cores.map Core.engines).getD c Core.reset := by
    rw [State.core, List.getD_eq_getElem?_getD, List.getD_eq_getElem?_getD, List.getElem?_map]
    cases v.cores[c]? <;> rfl
  rw [h, h, a.cores]

/-- The matrix queue stands. -/
theorem mq (a : EnginesStand s t) (c : Nat) : (t.core c).mq = (s.core c).mq :=
  show (t.core c).engines.mq = (s.core c).engines.mq by rw [a.core c]

end EnginesStand

theorem enginesStand_storeOf (s : State) (c : Nat) (l : List (Nat × Byte)) : EnginesStand s (storeOf s c l) :=
  (EnginesStand.of_eq (s := s) (t := s.store l) rfl).trans
    (.modCore (f := fun k => { k with inv := k.inv.map fun p => (p.1, lineWrite p.2 l) }) (fun _ => rfl) _ c)

theorem enginesStand_atomStep (c : Nat) (op : AtomOp) (o : QOut) (el : AtomEl) : EnginesStand o.s (atomStep c op o el).s := by
  unfold atomStep
  split
  · exact .refl _
  · exact enginesStand_storeOf ..

theorem enginesStand_casStep (c : Nat) (wide : Bool) (o : QOut) (el : AtomEl) : EnginesStand o.s (casStep c wide o el).s := by
  unfold casStep
  generalize (if wide then 8 else 4) = n
  dsimp only
  split
  · exact .refl _
  · split
    · exact enginesStand_storeOf ..
    · exact .refl _

theorem enginesStand_performEntry (s : State) (c : Nat) (e : QEntry) : EnginesStand s (performEntry s c e).s := by
  unfold performEntry
  cases e.op with
  | bytes l => exact enginesStand_storeOf ..
  | tags l => exact .of_eq rfl
  | atom op l => exact EnginesStand.foldl (st := QOut.s) (enginesStand_atomStep c op) l ⟨s, [], 0#7, []⟩
  | cas wide l => exact EnginesStand.foldl (st := QOut.s) (enginesStand_casStep c wide) l ⟨s, [], 0#7, []⟩
  | fence => exact .refl s

theorem enginesStand_landFlight (c : Nat) (s : State) (f : Flight) : EnginesStand s (landFlight c s f) :=
  (EnginesStand.modCore (f := fun k => { k with flights := landed f k.flights }) (fun _ => rfl) s c).trans
    ((enginesStand_performEntry _ f.key.core f.e).trans (.of_eq ((meetLoads_cores ..).trans (performFor_cores ..))))

/-- Stores that an engine's coming to the scratchpad lands leave the engines standing (15 R328, R334). -/
theorem enginesStand_coreSees (s : State) (c : Nat) (p : Flight → Bool) : EnginesStand s (coreSees s c p) := by
  unfold coreSees
  dsimp only
  split
  · exact .refl s
  · exact EnginesStand.foldl (st := id) (enginesStand_landFlight c) _ s

/-! ### The array at memory -/

theorem arraySees_of_reaches {s : State} {c : Nat} {e : MEntry} (h : e.op.reaches = true) :
    arraySees s c e = coreSees s c fun f => f.key == e.key && decide (f.e.id < e.id) := if_pos h

theorem arraySees_of_not_reaches {s : State} {c : Nat} {e : MEntry} (h : e.op.reaches = false) : arraySees s c e = s :=
  if_neg (ne_true_of_eq_false h)

section
variable {s : State} {c : Nat} {e : MEntry} {l : List (Nat × Byte)} {tags : List (Nat × BitVec 16)}

theorem arrayStore_of_reaches (h : e.op.reaches = true) : arrayStore s c e l tags =
    (meetLoads ((coreSees s c fun f => f.key == e.key && decide (f.e.id < e.id)).store l) (portMeets c e.key e.id) l).setTags tags := by
  simp only [arrayStore, arraySees_of_reaches h, h, if_true]

theorem arrayStore_of_not_reaches (h : e.op.reaches = false) : arrayStore s c e l tags = (s.store l).setTags tags := by
  simp only [arrayStore, arraySees_of_not_reaches h, h, Bool.false_eq_true, if_false]

end

theorem enginesStand_arraySees (s : State) (c : Nat) (e : MEntry) : EnginesStand s (arraySees s c e) := by
  cases h : e.op.reaches with
  | true =>
    rw [arraySees_of_reaches h]
    exact enginesStand_coreSees ..
  | false =>
    rw [arraySees_of_not_reaches h]
    exact .refl s

/-- The array's writes leave the engines standing. -/
theorem enginesStand_arrayStore (s : State) (c : Nat) (e : MEntry) (l : List (Nat × Byte)) (tags : List (Nat × BitVec 16)) :
    EnginesStand s (arrayStore s c e l tags) := by
  cases h : e.op.reaches with
  | true =>
    rw [arrayStore_of_reaches h]
    exact (enginesStand_coreSees ..).trans (.of_eq (meetLoads_cores ..))
  | false =>
    rw [arrayStore_of_not_reaches h]
    exact .of_eq rfl

/-! ### The start of an entry -/

/-- What an entry does to the derivations leaves the matrix queue alone. -/
theorem relate_mq (c : Core) (e : MEntry) : (c.relate e).mq = c.mq := by
  have hmake : (c.makeDerivs e).mq = c.mq :=
    List.foldlRecOn (motive := fun k : Core => k.mq = c.mq) _ _ rfl fun _ hk _ _ => hk
  unfold Core.relate
  split
  · exact hmake
  · split <;> rfl

theorem modStamps_mq (c : Core) (t : Option Tile) (f : Stamp → Stamp) : (c.modStamps t f).mq = c.mq := by
  cases t <;> rfl

/-- An entry that has started is gone from the matrix queue and runs with the flags of its work, owing no effect (10 R263). -/
theorem startEntry_runs {s : State} {c : Nat} {e : MEntry} {w : Work} (hc : c < s.cores.length)
    (hf : followLacks ((arraySees s c e).core c) e = none) (hw : runOp (arraySees s c e) c e.op e.done = .ok w) :
    ∃ r, ((startEntry s c e).core c).running = some r ∧ r.entry = e ∧ r.perf = none ∧ r.flags = w.flags ∧
      (((startEntry s c e).core c).mq.any fun f => f.id == e.id) = false := by
  unfold startEntry
  simp only [hf, hw]
  generalize hv : arrayStore _ c e _ _ = v
  have hstand : EnginesStand ((arraySees s c e).modCore c fun k => { k with mq := k.mq.filter fun f => f.id != e.id }) v :=
    hv ▸ enginesStand_arrayStore ..
  have hlen : c < (arraySees s c e).cores.length := by rwa [(enginesStand_arraySees s c e).length]
  have hlenv : c < v.cores.length := by rwa [hstand.length, State.modCore_length]
  rw [State.core_modCore_same hlenv]
  refine ⟨_, rfl, rfl, rfl, rfl, ?_⟩
  show (((v.core c).relate e).modStamps _ _).mq.any _ = false
  rw [modStamps_mq, relate_mq, hstand.mq, State.core_modCore_same hlen]
  simp

/-! ### The walker off its words -/

/-- No word stands where the PC is no multiple of 4 or outside the code (12 R307, R308). -/
theorem walkerWord_off {w : Walker} (h : w.pc.toNat % 4 ≠ 0 ∨ w.code.length < w.pc.toNat + 4) : walkerWord w = none := if_pos h

/-- A walker event does what it says of the walker that goes on. -/
theorem onWalker_goes {s : State} {c : Nat} {w : Walker} {j : Job} {f : Walker → Job → State} (hw : (s.core c).walker = some w)
    (hj : s.job? (dieOf c) w.job = some j) (hg : walkerGoes s c w = true) : onWalker s c f = f w j := by
  simp only [onWalker, hw, hj, hg, if_true]

end Sys2Proof.Machine
end

section
/-! PROOFS. The steps of a core's engines (17 R359; 10 R263, R272, R274; 12 R306 to R308).
-/

namespace Sys2Proof

open Sys2Proof.Machine

/-- Settles O34: each event by what stands ready for its engine; the entry that starts by what its writes and the stores they
follow leave of the matrix queue. -/
theorem coreEvents : Obligations.CoreEvents := by
  unfold Obligations.CoreEvents
  intro s c
  refine ⟨fun y hy hn => ?copy, fun e w hc he hf hw => ?starts, fun r hr => ?finishes, fun a l ha hr hgo => ?correction,
    fun w j hw hj hg => ?walker⟩
  case copy => simp only [exec, execCopyBlock, hy, hn, if_true]
  case starts =>
    have hexec : exec (.matrixEntryStart c) s = .next (startEntry s c e) := by simp only [exec, execMatrixEntryStart, he]
    obtain ⟨r, hrun, hentry, hperf, hflags, hgone⟩ := startEntry_runs hc hf hw
    exact ⟨_, r, hexec, hrun, hentry, hperf, hflags, hgone⟩
  case finishes =>
    have hexec : exec (.matrixEntryFinish c) s = .next (finishEntry s c r) := by simp only [exec, execMatrixEntryFinish, hr]
    exact ⟨hexec, fun hm => hexec.trans (congrArg _ (if_neg (ne_true_of_eq_false hm))), fun hm => hexec.trans (congrArg _ (if_pos hm)),
      arrayStore_of_not_reaches, arrayStore_of_reaches⟩
  case correction => simp only [exec, execCorrectionApplication, ha, hr, hgo, Option.isNone_none, Bool.and_self, if_true]
  case walker =>
    refine ⟨fun hword hsteps => ?limit, fun hoff => ?off, fun hal hin hnone => ?noWord⟩
    case limit => exact congrArg _ ((onWalker_goes hw hj hg).trans (if_pos ⟨hword, hsteps⟩))
    case off =>
      refine congrArg _ ((onWalker_goes hw hj hg).trans ?_)
      simp only [walkerWord_off hoff, Option.isSome_none, Bool.false_eq_true, if_false, if_pos hoff]
    case noWord =>
      refine congrArg _ ((onWalker_goes hw hj hg).trans ?_)
      have hon : ¬(w.pc.toNat % 4 ≠ 0 ∨ w.code.length < w.pc.toNat + 4) := not_or.mpr ⟨not_not_intro hal, Nat.not_lt.mpr hin⟩
      simp only [hnone, Option.isSome_none, Bool.false_eq_true, if_false, if_neg hon]

end Sys2Proof
end

section
/-! SUPPORT. Effects (11 R284 to R294): which handler they enter or which grid they end, what the end of an invocation leaves of its
group, and what a token register names.
-/

namespace Sys2Proof.Machine

open Sys2Proof

/-! ### What leaves the groups of a state alone -/

namespace State

@[simp] theorem traceWrite_group_of (s : State) (d : Nat) (ws : List Word) (j : GKey) : (s.traceWrite d ws).group? j = s.group? j := by
  unfold traceWrite
  dsimp only
  split <;> rfl

@[simp] theorem traceAt_group_of (s : State) (g : Group) (m : IssueMark) (type : Nat) (pc csn p0 p1 : Word) (j : GKey) :
    (s.traceAt g m type pc csn p0 p1).group? j = s.group? j := by
  unfold traceAt
  split
  · exact traceWrite_group_of ..
  · rfl

/-- The group changed is the one found under its name. -/
theorem modGroup_here {s : State} {k : GKey} {g : Group} {f : Group → Group} (h : s.group? k = some g) (hf : (f g).key = g.key) :
    (s.modGroup k f).group? k = some (f g) := by
  rw [modGroup_eq f h]
  exact setGroup_here h (hf.trans (group?_key h))

/-- The launch put is the one found under its number. -/
theorem setGrid_same {s : State} {gr old : Grid} (h : s.grid? gr.corr = some old) : (s.setGrid gr).grid? gr.corr = some gr := by
  have hcorr : ((fun x : Grid => x.corr == gr.corr) ∘ fun x : Grid => if x.corr == gr.corr then gr else x) =
      fun x => x.corr == gr.corr := by
    funext x
    by_cases hx : x.corr = gr.corr <;> simp [hx]
  have hold : (old.corr == gr.corr) = true := List.find?_some (p := fun x : Grid => x.corr == gr.corr) h
  have hfind : s.grids.find? (fun x => x.corr == gr.corr) = some old := h
  simp only [grid?, setGrid, List.find?_map, hcorr, hfind, Option.map_some, hold, if_true]

end State

/-- Spilled frames are written to memory only (01 R27). -/
@[simp] theorem spill_group_of (s : State) (k j : GKey) : (spill s k).group? j = s.group? j := by
  unfold spill
  split
  · rfl
  · exact List.foldlRecOn (motive := fun t : State => t.group? j = s.group? j) _ _ rfl fun t ht _ _ =>
      (State.store_group_of t _ j).trans ht

/-! ### Lanes that have not exited -/

theorem maskOf_has {n : Nat} {m : Mask} (h : ∀ t, has m t = true → t < n) : maskOf n (has m) = m := by
  refine BitVec.eq_of_getLsbD_eq fun t ht => (has_maskOf n _ ht).trans ?_
  show _ = has m t
  cases hm : has m t with
  | true => simp [h t hm]
  | false => simp

section
variable {g : Group} {m : Mask} {t : Nat}

theorem has_present (h : has g.present t = true) : t < g.width ∧ (g.lane t).st ≠ .exited := by
  rcases Nat.lt_or_ge t 128 with ht | ht
  · rw [Group.present, has_maskOf _ _ ht] at h
    simpa using h
  · rw [has_of_ge ht] at h
    cases h

theorem has_and_present (h : has (m &&& g.present) t = true) : has g.present t = true := by
  rw [has, BitVec.getLsbD_and, Bool.and_eq_true] at h
  exact h.2

/-- A lane that has not exited exists. -/
theorem lt_lanes_of_present (h : has g.present t = true) : t < g.lanes.length := by
  refine Nat.lt_of_not_le fun hle => (has_present h).2 ?_
  simp [Group.lane, List.getElem?_eq_none hle]

/-- A lane of a changed set is what the change makes of it. -/
theorem lane_modLanes (f : Lane → Lane) (ht : t < g.lanes.length) (h : has m t = true) :
    (g.modLanes m f).lane t = f (g.lane t) := by
  simp [Group.lane, Group.modLanes, ht, h]

end

/-! ### Token registers -/

theorem token_setToken_same {g : Group} {k : Nat} (v : Word) (h : k < g.it.tokens.length) : (g.setToken k v).token k = v := by
  simp [Group.token, Group.setToken, setAt, h]

section
variable {x : Ins} {k : Fin 4} (f : Ctx → Act)

/-- An empty register performs RANGE (11 R288). -/
theorem withToken_of_empty (h : (x.g.token k.val).toNat / 1073741824 = 0) :
    withToken x k f = x.fail (x.range (x.g.token k.val)) := if_pos h

/-- A live token gives its invocation (11 R288). -/
theorem withToken_of_live {c : Ctx} (h : (x.g.token k.val).toNat / 1073741824 ≠ 0)
    (hl : liveToken x.s x.g (x.g.token k.val) = some c) : withToken x k f = f c := by
  refine (if_neg h).trans ?_
  simp only [hl]

/-- A token that names no live invocation performs STALETOKEN (11 R288). -/
theorem withToken_of_stale (h : (x.g.token k.val).toNat / 1073741824 ≠ 0)
    (hl : liveToken x.s x.g (x.g.token k.val) = none) :
    withToken x k f = x.fail (x.perf 0x10C .none (x.g.token k.val) 0 0 x.act .none) := by
  refine (if_neg h).trans ?_
  simp only [hl]

end

/-- The codes of the three token kinds (01 R26). -/
theorem kindOf_eq_some (n : Nat) (kind : TokKind) :
    kindOf n = some kind ↔ (n = 1 ∧ kind = .once) ∨ (n = 2 ∧ kind = .many) ∨ (n = 3 ∧ kind = .none) := by
  unfold kindOf
  split
  case h_4 h1 h2 h3 => simp [show n ≠ 1 from h1, show n ≠ 2 from h2, show n ≠ 3 from h3]
  all_goals simp [eq_comm]

/-- The actions that each effect admits (11 R290). -/
theorem mem_allowedActs (eff : BitVec 11) (act : RsumAct) : act ∈ allowedActs eff ↔
    (eff = 0x104#11 ∧ (act = .retry ∨ act = .skip ∨ act = .patch)) ∨
    (eff = 0x105#11 ∧ (act = .retry ∨ act = .skip)) ∨ (eff = 0x109#11 ∧ act = .cont) ∨ (eff = 0x10A#11 ∧ act = .cont) ∨
    (eff = 0x10D#11 ∧ (act = .cont ∨ act = .skip)) ∨ (eff = 0x110#11 ∧ act = .retry) ∨
    (eff.toNat < 256 ∧ (act = .cont ∨ act = .retry)) := by
  simp only [← BitVec.toNat_inj, BitVec.reduceToNat]
  unfold allowedActs
  generalize eff.toNat = n
  split
  case h_7 h4 h5 h9 ha hd h10 =>
    simp only [show n ≠ 260 from h4, show n ≠ 261 from h5, show n ≠ 265 from h9, show n ≠ 266 from ha, show n ≠ 269 from hd,
      show n ≠ 272 from h10, false_and, false_or]
    split <;> simp [*]
  all_goals simp

/-! ### Performing an effect (11 R284) -/

section
variable {g : Group} {p : Perf} {f : Frame} (hf : ∀ t, has p.lanes t = true → g.findFrame p.eff t = some f)
include hf

/-- The lanes that find a frame are all of an effect's where it is the frame they all find, else none. -/
theorem maskOf_findFrame (hw : ∀ t, has p.lanes t = true → t < g.width) (x : Frame) :
    maskOf g.width (fun t => has p.lanes t && g.findFrame p.eff t == some x) = if x = f then p.lanes else 0#128 := by
  by_cases hx : x = f
  · rw [if_pos hx]
    refine (maskOf_congr fun t _ => ?_).trans (maskOf_has hw)
    cases ht : has p.lanes t with
    | true => simp [hf t ht, hx]
    | false => rfl
  · rw [if_neg hx]
    refine maskOf_eq_zero fun t _ => ?_
    cases ht : has p.lanes t with
    | true => simp [hf t ht, Ne.symm hx]
    | false => rfl

/-- An effect whose lanes all find one frame has one part, however often the frame stands on the stack. -/
theorem framesOf_of_found (hw : ∀ t, has p.lanes t = true → t < g.width) (h0 : p.lanes ≠ 0#128) (hmem : f ∈ g.it.frames) :
    ∃ qs, framesOf g p = (f, p) :: qs := by
  have hall : ∀ y ∈ framesOf g p, y = (f, p) := by
    intro y hy
    obtain ⟨x, -, hx⟩ := List.mem_filterMap.mp hy
    simp only [maskOf_findFrame hf hw] at hx
    by_cases hxf : x = f
    · simpa [hxf, h0] using hx.symm
    · simp [hxf] at hx
  have hin : (f, p) ∈ framesOf g p :=
    List.mem_filterMap.mpr ⟨f, hmem, by simp only [maskOf_findFrame hf hw, if_true, h0, if_false]⟩
  cases hq : framesOf g p with
  | nil => simp [hq] at hin
  | cons y qs => exact ⟨qs, by rw [hall y (hq ▸ List.mem_cons_self ..)]⟩

end

section
variable {s : State} {g : Group} {p : Perf} (l : Option Loop) (hg : s.group? g.key = some g)
include hg

/-- An effect whose lanes all find one frame enters its handler (11 R284, R285). -/
theorem perform_of_found {f : Frame} (h0 : p.lanes &&& g.present ≠ 0#128) (hc : g.ctxs.length < 16) (hmem : f ∈ g.it.frames)
    (hf : ∀ t, has (p.lanes &&& g.present) t = true → g.findFrame p.eff t = some f) : ∃ rest, perform s g.key l [p] =
      enter s g.key l f (({ p with lanes := p.lanes &&& g.present } : Perf).stamp (s.markNow g)) rest := by
  obtain ⟨qs, hqs⟩ := framesOf_of_found (p := { p with lanes := p.lanes &&& g.present }) hf
    (fun t ht => (has_present (has_and_present ht)).1) h0 hmem
  have hfound : ((lanesOf g.width (p.lanes &&& g.present)).any fun t => (g.findFrame p.eff t).isNone) = false :=
    List.any_eq_false.mpr fun t ht => by simp [hf t (mem_lanesOf.mp ht).2]
  have hroom : decide (16 ≤ g.ctxs.length) = false := decide_eq_false (Nat.not_le.mpr hc)
  simp only [perform, hg, h0, if_false, hfound, hroom, Bool.or_self, Bool.false_eq_true, hqs]
  exact ⟨_, rfl⟩

/-- An effect for which some lane finds no frame is charged to the grid (11 R284). -/
theorem perform_of_unfound (ps : List Perf) {t : Nat} (ht : has (p.lanes &&& g.present) t = true)
    (hf : g.findFrame p.eff t = none) :
    perform s g.key l (p :: ps) = chargeGrid s (corrOf s g) g.key { p with lanes := p.lanes &&& g.present } := by
  have h0 : p.lanes &&& g.present ≠ 0#128 := fun h => by simp [h, has] at ht
  have hnone : ((lanesOf g.width (p.lanes &&& g.present)).any fun t => (g.findFrame p.eff t).isNone) = true :=
    List.any_eq_true.mpr ⟨t, mem_lanesOf.mpr ⟨(has_present (has_and_present ht)).1, ht⟩, by simp [hf]⟩
  simp only [perform, hg, h0, if_false, hnone, Bool.true_or, if_true]

end

/-- A frame with a depth stands on the stack. -/
theorem mem_frames_of_frame? {g : Group} {u d : Nat} {f : Frame} (h : g.frame? u = some (f, d)) : f ∈ g.it.frames := by
  obtain ⟨x, hx, he⟩ := Option.map_eq_some_iff.mp h
  cases he
  exact List.fst_mem_of_mem_zipIdx (List.mem_of_find?_eq_some hx)

/-- The frame that an entry marks runs (11 R285). -/
theorem modFrame_runs {g : Group} {u : Nat} :
    ∀ x ∈ (g.modFrame u fun f => { f with running := true }).it.frames, x.uid = u → x.running = true := by
  intro x hx hu
  obtain ⟨y, -, rfl⟩ := List.mem_map.mp hx
  by_cases hy : y.uid = u <;> simp_all

section
variable {s : State} {corr : Nat} {gr : Grid} (f : Final) (hg : s.grid? corr = some gr) (hn : gr.final = none)
  (hp : gr.phase ≠ .completed)
include hg hn hp

/-- The end of a launch that no end has come to before (17 R365). -/
theorem endGrid_first : endGrid s corr f =
    { s.setGrid { gr with phase := .ending, final := some f, saved := [], walkers := [] } with
      groups := s.groups.map fun h => if (s.team? h.team).map (·.corr) == some corr then { h with halted := true } else h } := by
  have hp' : (gr.phase == .completed) = false := by simpa using hp
  simp only [endGrid, hg, hn, hp', Bool.false_eq_true, if_false]
  rfl

/-- The launch keeps the record of its end (17 R365). -/
theorem endGrid_first_grid : (endGrid s corr f).grid? corr =
    some { gr with phase := .ending, final := some f, saved := [], walkers := [] } := by
  have hc : gr.corr = corr := by simpa using List.find?_some (p := fun x : Grid => x.corr == corr) hg
  rw [endGrid_first f hg hn hp]
  subst hc
  exact State.setGrid_same (gr := { gr with phase := .ending, final := some f, saved := [], walkers := [] }) hg

/-- The groups of the launch issue no more (17 R365). -/
theorem endGrid_first_halts {h : Group} (hh : h ∈ (endGrid s corr f).groups) (ht : (s.team? h.team).map (·.corr) = some corr) :
    h.halted = true := by
  rw [endGrid_first f hg hn hp] at hh
  obtain ⟨x, -, rfl⟩ := List.mem_map.mp hh
  have hteam : (if (s.team? x.team).map (·.corr) == some corr then { x with halted := true } else x : Group).team = x.team := by
    split <;> rfl
  rw [hteam] at ht
  rw [if_pos (beq_iff_eq.mpr ht)]

end

/-! ### The end of an invocation (11 R289, R292) -/

theorem leave_keeps {α : Type} (f : Group → α) (hf : ∀ g cu, f { g with cur := cu } = f g) (g : Group) (m : Mask) :
    f (g.leave m) = f g := by
  unfold Group.leave
  split
  · rfl
  · exact hf ..

theorem reenter_keeps {α : Type} (f : Group → α) (hf : ∀ g cu, f { g with cur := cu } = f g) (g : Group) (c : Ctx) :
    f (g.reenter c) = f g := by
  unfold Group.reenter
  split
  · split
    · exact hf ..
    · rfl
  · rfl

/-! What the end of an invocation and the return to its clause leave alone. -/

section
variable (g : Group) (c : Ctx)

@[simp] theorem endCtx_key : (g.endCtx c).key = g.key := rfl
@[simp] theorem endCtx_lane (t : Nat) : (g.endCtx c).lane t = g.lane t := rfl
@[simp] theorem endCtx_regs : (g.endCtx c).regs = g.regs := rfl
@[simp] theorem endCtx_preds : (g.endCtx c).preds = g.preds := rfl
@[simp] theorem reenter_key : (g.reenter c).key = g.key := reenter_keeps (·.key) (fun _ _ => rfl) ..
@[simp] theorem reenter_lane (t : Nat) : (g.reenter c).lane t = g.lane t := reenter_keeps (·.lane t) (fun _ _ => rfl) ..
@[simp] theorem reenter_token (k : Nat) : (g.reenter c).token k = g.token k := reenter_keeps (·.token k) (fun _ _ => rfl) ..
@[simp] theorem reenter_ctxs : (g.reenter c).ctxs = g.ctxs := reenter_keeps (·.ctxs) (fun _ _ => rfl) ..
@[simp] theorem reenter_regs : (g.reenter c).regs = g.regs := reenter_keeps (·.regs) (fun _ _ => rfl) ..
@[simp] theorem reenter_preds : (g.reenter c).preds = g.preds := reenter_keeps (·.preds) (fun _ _ => rfl) ..

end

/-- The end of an invocation restores k0 (11 R292). -/
theorem endCtx_token {g : Group} (c : Ctx) (h : 0 < g.it.tokens.length) : (g.endCtx c).token 0 = c.k0 :=
  token_setToken_same (g := (g.popPushed c).modFrame c.frame fun f => { f with running := false }) c.k0 h

/-- The context of an ended invocation is freed unless its token is MANY (11 R292). -/
theorem endCtx_frees {g : Group} {c : Ctx} (hk : c.perf.kind ≠ .many) : ∀ x ∈ (g.endCtx c).ctxs, x.uid ≠ c.uid := by
  have hk' : (c.perf.kind == .many) = false := by simpa using hk
  intro x hx
  simp only [Group.endCtx, hk', Bool.false_and, Bool.false_eq_true, if_false] at hx
  simpa using (List.mem_filter.mp hx).2

/-- An invocation that has answered its source and that nothing waits for leaves its group ended and back in its clause (11 R292). -/
theorem endInvocation_group {s : State} {k : GKey} {g : Group} {uid : Nat} {c : Ctx} (hg : s.group? k = some g)
    (hc : g.ctx? uid = some c) (he : c.ended = false) (hr : c.rest = []) :
    (endInvocation s k uid true).group? k = some ((g.endCtx c).reenter c) := by
  have hclose : closeCtx s k uid true = (spill (s.modGroup k fun g => g.endCtx c) k, []) := by
    simp only [closeCtx, hg, Option.bind_some, hc, he, hr, Bool.false_eq_true, if_false, if_true]
  have hend : (spill (s.modGroup k fun g => g.endCtx c) k).group? k = some (g.endCtx c) :=
    (spill_group_of ..).trans (State.modGroup_here hg (endCtx_key ..))
  simp only [endInvocation, hg, Option.bind_some, hc, hclose, perform]
  exact State.modGroup_here hend (reenter_key ..)

/-! ### Resumption (11 R289) -/

section
variable {l : List Lane} {m : Mask} {t : Nat} {x : Lane}

/-- Joining the elements of redirected lanes moves none of them. -/
theorem joinBin_of_has (hx : l[t]? = some x) (hm : has m t = true) :
    ∃ y, (joinBin l m)[t]? = some y ∧ y.st = x.st ∧ y.depth = x.depth ∧ y.pos.pc = x.pos.pc := by
  unfold joinBin
  dsimp only
  rw [List.getElem?_mapIdx, hx, Option.map_some, if_pos hm]
  refine ⟨_, rfl, rfl, rfl, ?_⟩
  dsimp only
  split <;> simp_all [Pos.pc]

theorem joinBin_of_not_has (hm : has m t = false) : (joinBin l m)[t]? = l[t]? := by
  unfold joinBin
  dsimp only
  rw [List.getElem?_mapIdx, hm]
  cases l[t]? <;> rfl

end

/-- The group once the lanes that an FPTRAP invocation holds have continued (11 R289). -/
def Group.continued (g : Group) (c : Ctx) (v : Nat → Word) : Group :=
  ({ g with lanes := joinBin (g.lanes.mapIdx (resumeLane c .cont c.left v)) c.left
            ctxs := g.ctxs.map fun (x : Ctx) => x.resumed c.uid c.left } : Group).leave c.left

section
variable {s : State} {g : Group} {c : Ctx} (v : Nat → Word)

/-- Any reading of a group that does not look at lanes, contexts or the current word is left alone by a continuation. -/
theorem continued_keeps {α : Type} (f : Group → α)
    (hf : ∀ g ls cs cu, f { g with lanes := ls, ctxs := cs, cur := cu } = f g) : f (g.continued c v) = f g :=
  (leave_keeps f (fun g cu => hf g g.lanes g.ctxs cu) ..).trans (hf g _ _ g.cur)

theorem continued_lane (t : Nat) : (g.continued c v).lane t =
    (joinBin (g.lanes.mapIdx (resumeLane c .cont c.left v)) c.left).getD t ⟨.header 0, 0, .exited, 0⟩ :=
  leave_keeps (fun h => h.lane t) (fun _ _ => rfl) ..

/-- A lane that the invocation held stands where it stood when the effect was performed. -/
theorem continued_lane_held {t : Nat} {x : Snap} (hs : c.perf.src = .trap) (ht : has c.left t = true) (hx : c.snaps[t]? = some x)
    (hl : t < g.lanes.length) : ((g.continued c v).lane t).st = x.st ∧ ((g.continued c v).lane t).depth = x.depth ∧
      ((g.continued c v).lane t).pos.pc = x.pos.pc := by
  have hlane : (g.lanes.mapIdx (resumeLane c .cont c.left v))[t]? =
      some { g.lanes[t] with pos := x.pos, st := x.st, depth := x.depth } := by
    simp [hl, resumeLane, hx, ht, hs, resumePos]
  obtain ⟨y, hy, hst, hdepth, hpc⟩ := joinBin_of_has hlane ht
  rw [continued_lane, List.getD_eq_getElem?_getD, hy]
  exact ⟨hst, hdepth, hpc⟩

theorem continued_lane_other {t : Nat} (ht : has c.left t = false) : (g.continued c v).lane t = g.lane t := by
  have hlane : (g.lanes.mapIdx (resumeLane c .cont c.left v))[t]? = g.lanes[t]? := by
    rw [List.getElem?_mapIdx]
    cases g.lanes[t]? with
    | none => rfl
    | some l => simp only [Option.map_some, resumeLane, ht]; split <;> rfl
  rw [continued_lane, List.getD_eq_getElem?_getD, joinBin_of_not_has ht, hlane, Group.lane, List.getD_eq_getElem?_getD]

/-- A context that loses lanes of its own. -/
theorem resumed_self (c : Ctx) (m : Mask) :
    c.resumed c.uid m = { c with left := c.left &&& ~~~m, token := c.token && c.perf.kind == .many } := if_pos rfl

/-- The invocation's context has lost the lanes. -/
theorem continued_ctx (hc : g.ctx? c.uid = some c) : (g.continued c v).ctx? c.uid = some (c.resumed c.uid c.left) := by
  have huid : ((fun x : Ctx => x.uid == c.uid) ∘ fun x : Ctx => x.resumed c.uid c.left) = fun x => x.uid == c.uid := by
    funext x
    simp only [Function.comp_apply, Ctx.resumed]
    split <;> rfl
  have hfind : g.ctxs.find? (fun x => x.uid == c.uid) = some c := hc
  refine (leave_keeps (fun h => h.ctx? c.uid) (fun _ _ => rfl) ..).trans ?_
  simp only [Group.ctx?, List.find?_map, huid, hfind, Option.map_some]

/-- Continuing all lanes of a running FPTRAP invocation ends it (11 R289, R292). -/
theorem resume_group (hg : s.group? g.key = some g) (hc : g.ctx? c.uid = some c) (he : c.ended = false)
    (hs : c.perf.src = .trap) (hr : c.rest = []) : (resume s g.key c.uid c.left .cont v).group? g.key =
      some (((g.continued c v).endCtx (c.resumed c.uid c.left)).reenter (c.resumed c.uid c.left)) := by
  have hforget (m : Mask) : forgetBins s g.key .trap m = s := rfl
  have hmod : (s.modGroup g.key fun h => h.continued c v).group? g.key = some (g.continued c v) :=
    State.modGroup_here hg (continued_keeps v (·.key) fun _ _ _ _ => rfl)
  have hctx := continued_ctx v hc
  have hfound : ((s.modGroup g.key fun h => h.continued c v).group? g.key).bind (·.ctx? c.uid) = some (c.resumed c.uid c.left) := by
    rw [hmod, Option.bind_some, hctx]
  have hended : (c.resumed c.uid c.left).ended = false := by rw [resumed_self, he]
  have hleft : ((c.resumed c.uid c.left).left == 0#128) = true := by simp [resumed_self]
  have hrest : (c.resumed c.uid c.left).rest = [] := by rw [resumed_self, hr]
  have hstep : resume s g.key c.uid c.left .cont v = endInvocation (s.modGroup g.key fun h => h.continued c v) g.key c.uid true := by
    simp only [resume, hg, hc, hs, hforget, resumeLoop]
    split
    · next c1 h1 =>
      obtain rfl : c.resumed c.uid c.left = c1 := Option.some.inj (hfound.symm.trans h1)
      rw [if_pos (by rw [hended, hleft]; rfl)]
      rfl
    · next h1 => exact nomatch hfound.symm.trans h1
  rw [hstep]
  exact endInvocation_group hmod hctx hended hrest

end

end Sys2Proof.Machine
end

section
/-! PROOFS. Effects, tokens and handlers (11 R282 to R294).
-/

namespace Sys2Proof

open Sys2Proof.Machine

/-- Settles O56: the effect is charged to the grid, which it ends first. -/
theorem unhandledEffectEndsGrid : Obligations.UnhandledEffectEndsGrid := by
  unfold Obligations.UnhandledEffectEndsGrid
  intro s g gr l p ps t hg ht hf hgr hn hp
  rw [perform_of_unfound l hg ps ht hf]
  exact ⟨_, rfl, chargeGrid_mem .., endGrid_first_grid _ hgr hn hp, fun h => endGrid_first_halts _ hgr hn hp⟩

/-- Settles O55: the effect has one part, which enters its frame. -/
theorem handlerEntry : Obligations.HandlerEntry := by
  unfold Obligations.HandlerEntry
  intro s g l p f d hg h0 hc hd ht hf
  obtain ⟨rest, hperf⟩ := perform_of_found l hg h0 hc (mem_frames_of_frame? hd) hf
  rw [hperf]
  simp only [enter, hg, hd, spill_group_of, State.traceAt_group_of]
  refine ⟨_, _, _, setGroup_here hg rfl, rfl, rfl, rfl, rfl, rfl, rfl, rfl, rfl, rfl, rfl, ?_, ?_, ?_, rfl, rfl, rfl, rfl, rfl⟩
  · exact token_setToken_same _ (by omega)
  · exact modFrame_runs
  · intro t hq
    rw [lane_modLanes]
    · exact ⟨rfl, rfl⟩
    · exact lt_lanes_of_present (has_and_present hq)
    · exact hq

/-- Settles O57: the lanes continue, the invocation ends, and its group goes back into the clause. -/
theorem handlerReturn : Obligations.HandlerReturn := by
  unfold Obligations.HandlerReturn
  intro s g c v hg hc he hk hs hr htok _
  refine ⟨_, resume_group v hg hc he hs hr, ?_, ?_, fun t x ht hx hl => ?_, fun t ht => ?_, ?_, ?_⟩
  · have hlen : (g.continued c v).it.tokens.length = 4 := (continued_keeps v (·.it.tokens.length) fun _ _ _ _ => rfl).trans htok
    rw [reenter_token, endCtx_token _ (by omega), resumed_self]
  · have hfree := endCtx_frees (g := g.continued c v) (c := c.resumed c.uid c.left) (by simp [resumed_self, hk])
    simpa only [reenter_ctxs, resumed_self] using hfree
  · rw [reenter_lane, endCtx_lane]
    exact continued_lane_held v hs ht hx hl
  · rw [reenter_lane, endCtx_lane]
    exact continued_lane_other v ht
  · rw [reenter_regs, endCtx_regs]
    exact continued_keeps v (·.regs) fun _ _ _ _ => rfl
  · rw [reenter_preds, endCtx_preds]
    exact continued_keeps v (·.preds) fun _ _ _ _ => rfl

/-- Settles O28: each word by its operands; the words of tokens by what their register names. -/
theorem effectWords : Obligations.EffectWords := by
  unfold Obligations.EffectWords
  refine ⟨fun d a b neg p kind s g iss hr ⟨hk, hid, hm⟩ => issue_act hr ?perf,
    fun d a b neg p kind s g iss hr ⟨hk, hid, hm⟩ => issue_act hr ?perfNone,
    fun d a b neg p s g iss hr h => issue_act hr ?perfRange, kindOf_eq_some,
    fun d a b s g iss hr ⟨ha, hv, hn, hw⟩ => issue_act hr ?hpsh, fun d a b s g iss hr ha => issue_act hr (if_pos ha),
    fun d a b s g iss hr ⟨ha, hv⟩ => issue_act hr ((if_neg ha).trans (if_pos hv)),
    fun d a b s g iss hr ⟨ha, hv, h⟩ => issue_act hr ((if_neg ha).trans ((if_neg (Nat.not_le.mpr hv)).trans (if_pos h))),
    fun f fs s g iss hr ⟨hf, hrun, hl⟩ => issue_act hr ?hpop, fun s g iss hr hf => issue_act hr ?hpopEmpty,
    fun f fs s g iss hr ⟨hf, h⟩ => issue_act hr ?hpopRange,
    fun k b act c s g iss hr ⟨ht, hl, hd, hk, ha, hq⟩ => issue_act hr ((withToken_of_live _ ht hl).trans (if_neg ?rsum)),
    fun k b act c s g iss hr ⟨ht, hl, h⟩ => issue_act hr ((withToken_of_live _ ht hl).trans (if_pos ?rsumRange)),
    mem_allowedActs, fun k s g iss hr ht => issue_act hr (if_pos ht),
    fun k c s g iss hr ⟨ht, hl, h⟩ => issue_act hr ((if_neg ht).trans ((withToken_of_live _ ht hl).trans (if_pos h))),
    fun k c s g iss hr ⟨ht, hl, h⟩ => issue_act hr ((if_neg ht).trans ((withToken_of_live _ ht hl).trans (if_neg h))),
    fun k c s g iss hr ⟨ht, hl, h⟩ => issue_act hr ((withToken_of_live _ ht hl).trans (if_neg fun hq => hq.2 (h hq.1))),
    fun k c s g iss hr ⟨ht, hl, he, hq⟩ => issue_act hr ((withToken_of_live _ ht hl).trans (if_pos ⟨he, hq⟩)),
    fun j k c s g iss hr ⟨ht, hl⟩ => issue_act hr (withToken_of_live _ ht hl), fun i k hi s g iss hr ht => ?empty,
    fun i k hi s g iss hr ⟨ht, hl⟩ => ?stale⟩
  case perf =>
    simp only [Nat.reducePow, hk]
    exact (if_neg (Nat.not_lt.mpr hid)).trans (if_neg hm)
  case perfNone =>
    simp only [Nat.reducePow, hk]
    exact (if_neg (Nat.not_lt.mpr hid)).trans (if_pos hm)
  case perfRange =>
    dsimp only
    split
    · next kind hk => exact if_pos (h.resolve_left fun hn => nomatch hk.symm.trans hn)
    · rfl
  case hpsh =>
    exact (if_neg ha).trans ((if_neg (Nat.not_le.mpr hv)).trans (if_neg fun h =>
      h.elim (Nat.not_lt.mpr hn) (ne_true_of_eq_false hw)))
  case hpop =>
    simp only [hf]
    exact if_neg fun h => h.elim (ne_true_of_eq_false hrun) fun hne => hne hl
  case hpopEmpty =>
    simp only [hf]
    rfl
  case hpopRange =>
    simp only [hf]
    exact if_pos h
  case rsum => simp [hd, hk, ha, hq]
  case rsumRange => simpa using h
  case empty =>
    obtain ⟨b, act, rfl⟩ | rfl | ⟨j, rfl⟩ := hi <;> exact issue_act hr (withToken_of_empty _ ht)
  case stale =>
    obtain ⟨b, act, rfl⟩ | rfl | rfl | ⟨j, rfl⟩ := hi
    · exact issue_act hr (withToken_of_stale _ ht hl)
    · exact issue_act hr ((if_neg ht).trans (withToken_of_stale _ ht hl))
    · exact issue_act hr (withToken_of_stale _ ht hl)
    · exact issue_act hr (withToken_of_stale _ ht hl)

end Sys2Proof
end

section
/-! SUPPORT. Every step keeps the invariant of Sys2Proof/Safety.lean: every meaning does, by the lemma of its constructor, and so do the
beginning of a step, a turn, and the choice of one (notes/assumptions/2.md).
-/

namespace Sys2Proof.Machine

open Sys2Proof

/-- Every instruction keeps the invariant: the lemma of its row. -/
theorem inv_exec {s : State} (h : Inv s) (i : Instr) : OutInv (exec i s) :=
  match i with
  | .nop => inv_execNop h | .bra .. => inv_execBra h | .brx .. => inv_execBrx h | .call .. => inv_execCall h
  | .ret => inv_execRet h | .exit => inv_execExit h | .yield => inv_execYield h | .loop .. => inv_execLoop h
  | .winb .. => inv_execWinb h | .setx .. => inv_execSetx h | .split .. => inv_execSplit h | .fuse .. => inv_execFuse h
  | .isync => inv_execIsync h | .bkm .. => inv_execBkm h | .waitf .. => inv_execWaitf h | .mov .. => inv_execMov h
  | .iadd .. => inv_execIadd h | .isub .. => inv_execIsub h | .imul .. => inv_execImul h | .imad .. => inv_execImad h
  | .imnx .. => inv_execImnx h | .iuna .. => inv_execIuna h | .iset .. => inv_execIset h | .iaddi .. => inv_execIaddi h
  | .iand .. => inv_execIand h | .ior .. => inv_execIor h | .ixor .. => inv_execIxor h | .iandn .. => inv_execIandn h
  | .shl .. => inv_execShl h | .shr .. => inv_execShr h | .bfx .. => inv_execBfx h | .bits .. => inv_execBits h
  | .sel .. => inv_execSel h | .plog .. => inv_execPlog h | .idiv .. => inv_execIdiv h | .addr .. => inv_execAddr h
  | .iseti .. => inv_execIseti h | .andi .. => inv_execAndi h | .xori .. => inv_execXori h | .shi .. => inv_execShi h
  | .fadd .. => inv_execFadd h | .fsub .. => inv_execFsub h | .fmul .. => inv_execFmul h | .ffma .. => inv_execFfma h
  | .fmnx .. => inv_execFmnx h | .fset .. => inv_execFset h | .fcvt .. => inv_execFcvt h | .hadd2 .. => inv_execHadd2 h
  | .hfma2 .. => inv_execHfma2 h | .hmul2 .. => inv_execHmul2 h | .fsfu .. => inv_execFsfu h | .funa .. => inv_execFuna h
  | .expo .. => inv_execExpo h | .ldexp .. => inv_execLdexp h | .maxe .. => inv_execMaxe h | .sexp .. => inv_execSexp h
  | .frow .. => inv_execFrow h | .shfx .. => inv_execShfx h | .shfp .. => inv_execShfp h | .shfb .. => inv_execShfb h
  | .shfi .. => inv_execShfi h | .shfr .. => inv_execShfr h | .mat .. => inv_execMat h | .mapRd .. => inv_execMapRd h
  | .mapWr .. => inv_execMapWr h | .mapId .. => inv_execMapId h | .vote .. => inv_execVote h | .matchk .. => inv_execMatchk h
  | .pscan .. => inv_execPscan h | .qapp .. => inv_execQapp h | .cdet .. => inv_execCdet h | .redx .. => inv_execRedx h
  | .segr .. => inv_execSegr h | .rlt .. => inv_execRlt h | .rwalk .. => inv_execRwalk h | .ld .. => inv_execLd h
  | .st .. => inv_execSt h | .ldi .. => inv_execLdi h | .sti .. => inv_execSti h | .ldn .. => inv_execLdn h
  | .atomh .. => inv_execAtomh h | .atomp .. => inv_execAtomp h | .acas .. => inv_execAcas h | .fence .. => inv_execFence h
  | .bar .. => inv_execBar h | .bari .. => inv_execBari h | .bara .. => inv_execBara h | .barw .. => inv_execBarw h
  | .ldt .. => inv_execLdt h | .stt .. => inv_execStt h | .layd .. => inv_execLayd h | .cpy .. => inv_execCpy h
  | .close .. => inv_execClose h | .waitb .. => inv_execWaitb h | .rrot .. => inv_execRrot h | .cpyp .. => inv_execCpyp h
  | .enq .. => inv_execEnq h | .waith .. => inv_execWaith h | .tsth .. => inv_execTsth h | .canh .. => inv_execCanh h
  | .hsto .. => inv_execHsto h | .hlod .. => inv_execHlod h | .bina .. => inv_execBina h | .crc .. => inv_execCrc h
  | .bhist .. => inv_execBhist h | .bsel .. => inv_execBsel h | .oclm .. => inv_execOclm h | .orel .. => inv_execOrel h
  | .aclm .. => inv_execAclm h | .aclmGrant .. => inv_execAclmGrant h | .arel .. => inv_execArel h
  | .arelRevoke .. => inv_execArelRevoke h | .mma .. => inv_execMma h | .mmaa .. => inv_execMmaa h | .mmsp .. => inv_execMmsp h
  | .publ .. => inv_execPubl h | .publSeal .. => inv_execPublSeal h | .setl .. => inv_execSetl h | .alin .. => inv_execAlin h
  | .adrn .. => inv_execAdrn h | .afil .. => inv_execAfil h | .old .. => inv_execOld h | .sltg .. => inv_execSltg h
  | .ast .. => inv_execAst h | .ost .. => inv_execOst h | .perf .. => inv_execPerf h | .hpsh .. => inv_execHpsh h
  | .hpop => inv_execHpop h | .rsum .. => inv_execRsum h | .tokd .. => inv_execTokd h | .tokdAbort .. => inv_execTokdAbort h
  | .tokdMov .. => inv_execTokdMov h | .sysRdsr .. => inv_execSysRdsr h | .sysWrsr .. => inv_execSysWrsr h
  | .sysStamp .. => inv_execSysStamp h | .sysProf .. => inv_execSysProf h | .sysTime .. => inv_execSysTime h
  | .sysFlags .. => inv_execSysFlags h | .whalt => inv_execWhalt h | .wli .. => inv_execWli h | .wadd .. => inv_execWadd h
  | .wsub .. => inv_execWsub h | .wmul .. => inv_execWmul h | .wshl .. => inv_execWshl h | .wshr .. => inv_execWshr h
  | .wand .. => inv_execWand h | .wldw .. => inv_execWldw h | .wldh .. => inv_execWldh h | .wldb .. => inv_execWldb h
  | .wbeq .. => inv_execWbeq h | .wbne .. => inv_execWbne h | .wblo .. => inv_execWblo h | .wbhs .. => inv_execWbhs h
  | .wjmp .. => inv_execWjmp h | .wtgt .. => inv_execWtgt h | .wzero => inv_execWzero h | .wemit .. => inv_execWemit h
  | .wrun .. => inv_execWrun h | .warv .. => inv_execWarv h | .wfault .. => inv_execWfault h
  | .clauseHeader .. => inv_execClauseHeader h | .storeQueueDrain .. => inv_execStoreQueueDrain h
  | .longLatencyCompletion .. => inv_execLongLatencyCompletion h | .lateEffectDelivery .. => inv_execLateEffectDelivery h
  | .copyBlock .. => inv_execCopyBlock h | .translationWalk .. => inv_execTranslationWalk h
  | .matrixEntryStart .. => inv_execMatrixEntryStart h | .matrixEntryFinish .. => inv_execMatrixEntryFinish h
  | .correctionApplication .. => inv_execCorrectionApplication h | .binningOpen .. => inv_execBinningOpen h
  | .binningReplay .. => inv_execBinningReplay h | .walkerJob .. => inv_execWalkerJob h | .gather .. => inv_execGather h
  | .topkHistogram .. => inv_execTopkHistogram h | .topkSelect .. => inv_execTopkSelect h
  | .mainToMainCopy .. => inv_execMainToMainCopy h | .walkerStepLimit .. => inv_execWalkerStepLimit h
  | .collForm .. => inv_execCollForm h | .collDisband .. => inv_execCollDisband h | .collBarrier .. => inv_execCollBarrier h
  | .collBcast .. => inv_execCollBcast h | .collAllred .. => inv_execCollAllred h | .collRedscat .. => inv_execCollRedscat h
  | .collGather .. => inv_execCollGather h | .collXscan .. => inv_execCollXscan h | .signal .. => inv_execSignal h
  | .formMsg .. => inv_execFormMsg h | .beatMsg .. => inv_execBeatMsg h | .postMsg .. => inv_execPostMsg h
  | .abortMsg .. => inv_execAbortMsg h | .decideMsg .. => inv_execDecideMsg h | .readRequest .. => inv_execReadRequest h
  | .writeRequest .. => inv_execWriteRequest h | .atomicRequest .. => inv_execAtomicRequest h
  | .readCompletion .. => inv_execReadCompletion h | .writeCompletion .. => inv_execWriteCompletion h
  | .atomicCompletion .. => inv_execAtomicCompletion h | .fabricRequestTimeout .. => inv_execFabricRequestTimeout h
  | .signalTagTimeout .. => inv_execSignalTagTimeout h | .heartbeat .. => inv_execHeartbeat h
  | .memberLost .. => inv_execMemberLost h | .collectiveTimeout .. => inv_execCollectiveTimeout h
  | .formTimeout .. => inv_execFormTimeout h | .deciderUnreachable .. => inv_execDeciderUnreachable h
  | .portLaneFailure .. => inv_execPortLaneFailure h | .copystall .. => inv_execCopystall h
  | .fuseRendezvousTimeout .. => inv_execFuseRendezvousTimeout h | .writeblock .. => inv_execWriteblock h
  | .heldWriteRewalk .. => inv_execHeldWriteRewalk h | .invctl .. => inv_execInvctl h
  | .invalidationComplete .. => inv_execInvalidationComplete h | .codeinv .. => inv_execCodeinv h
  | .codeinvAccept .. => inv_execCodeinvAccept h | .doorbell .. => inv_execDoorbell h | .launchRecord => inv_execLaunchRecord h
  | .clusterPlacement .. => inv_execClusterPlacement h | .fallbackMode .. => inv_execFallbackMode h
  | .priority7Preemption .. => inv_execPriority7Preemption h | .cancel .. => inv_execCancel h
  | .preempt .. => inv_execPreempt h | .preemptHaltComplete .. => inv_execPreemptHaltComplete h
  | .gridRestore .. => inv_execGridRestore h | .gridCompletion .. => inv_execGridCompletion h
  | .railSample .. => inv_execRailSample h | .energyShare .. => inv_execEnergyShare h | .patrolScrub => inv_execPatrolScrub h
  | .unitLoss .. => inv_execUnitLoss h | .atctl .. => inv_execAtctl h | .attestationReport => inv_execAttestationReport h
  | .registerWrite .. => inv_execRegisterWrite h | .hostMemoryAccess .. => inv_execHostMemoryAccess h
  | .reset => inv_execReset h | .firmwareImage .. => inv_execFirmwareImage h | .throttle .. => inv_execThrottle h
  | .thermalShutdown => inv_execThermalShutdown h | .portComeUp .. => inv_execPortComeUp h
  | .walkfault .. => inv_execWalkfault h | .trailerCompletion .. => inv_execTrailerCompletion h

/-- The beginning of a step changes cores and dies one by one, and adds none. -/
theorem inv_begin {s : State} (h : Inv s) : Inv (begin_ s) := by
  unfold begin_
  simp only [inv_mk, List.length_map, List.length_mapIdx]
  exact inv_of h

/-- An outcome keeps the invariant with the issue of its word counted. -/
theorem inv_runTurn {s : State} (h : Inv s) (t : Turn) : OutInv (runTurn s t) := by
  unfold runTurn
  split
  · exact inv_strike h
  · split
    · next i a _ =>
      have hi : OutInv (exec i { s with cur := a }) := inv_exec (s := { s with cur := a }) h i
      split
      · next u hu =>
        rw [hu] at hi
        exact inv_counted h hi
      · exact hi
    · exact h

/-- The first turn that changes anything keeps the invariant, and so does none. -/
theorem inv_firstTurn {s : State} (h : Inv s) (ts : List Turn) : OutInv (firstTurn s ts) := by
  induction ts with
  | nil => exact h
  | cons t ts ih =>
    have ht := inv_runTurn h t
    unfold firstTurn
    split
    · next u hu =>
      rw [hu] at ht
      split
      · exact ih
      · exact ht
    · exact ht

theorem inv_step {s : State} (h : Inv s) : OutInv (step s) := by
  unfold step
  split
  · next t ts _ => exact inv_runTurn (s := { begin_ s with agenda := ts }) (inv_begin h) t
  · exact inv_firstTurn (inv_begin h) _

end Sys2Proof.Machine
end

section
/-! PROOFS. The invariant of the package: it holds after reset, and every step keeps it (21 R390; 25 R436).
-/

namespace Sys2Proof

open Sys2Proof.Machine

/-- Settles O2: the lists of the reset state have their lengths, no port has a lane, and the clock is 20 steps of 135 MHz. -/
theorem resetMeetsInvariant : Obligations.ResetMeetsInvariant :=
  ⟨rfl, List.length_replicate, List.length_replicate, List.length_replicate, List.length_replicate,
    fun _ hp => .inl (List.eq_of_mem_replicate hp), ⟨20, rfl, by omega, by omega⟩⟩

/-- Settles O3: a step begins, then runs one turn, and a turn is one instruction or an error that strikes. -/
theorem stepKeepsInvariant : Obligations.StepKeepsInvariant := by
  unfold Obligations.StepKeepsInvariant
  intro s t h hs
  have hout : OutInv (step s) := inv_step h
  rwa [hs] at hout

end Sys2Proof
end

section
/-! SUPPORT. The walker's words (12 R299 to R305): registers, one word of a walker that stands at it, loads, branches and emissions.
-/

namespace Sys2Proof.Machine

open Sys2Proof

/-! ### Registers (12 R299) -/

/-- A write moves neither the PC nor the count of steps. -/
theorem Walker.put_next (w : Walker) (d : Fin 16) (v : Word) :
    (w.put d v).next = { w.put d v with pc := w.pc + 4, steps := w.steps + 1, part := 0 } := by
  unfold Walker.put
  split <;> rfl

theorem Walker.reg_zero (w : Walker) : w.reg 0 = 0 := if_pos rfl

theorem Walker.put_zero (w : Walker) (v : Word) : w.put 0 v = w := if_pos rfl

theorem Walker.reg_put {w : Walker} {n : Fin 16} (m : Fin 16) (v : Word) (hn : n ≠ 0) (hw : w.w.length = 16) :
    (w.put n v).reg m = if m = n then v else w.reg m := by
  rw [Walker.put, if_neg hn]
  by_cases hm : m = n
  · subst hm
    simp [Walker.reg, setAt, hn, hw]
  · have hval : n.val ≠ m.val := fun h => hm (Fin.ext h.symm)
    simp [Walker.reg, setAt, hm, hval]

/-! ### One word (12 R298, R301) -/

section
variable {s : State} {c : Nat} {w : Walker} {j : Job} {i : Instr}

/-- A walker that stands at a well-formed word executes it. -/
theorem walkWord_walking (h : Walking s c w j i) (f : Nat → Walker → Job → State) : walkWord i s f = .next (f c w j) := by
  simp only [walkWord, h.acts, h.walker, h.job, h.formed, if_true]

theorem onTarget_some {t : Nat × Nat × Nat × Byte} (h : Walking s c w j i) (ht : w.target = some t)
    (f : Nat → Walker → Job → (Nat × Nat × Nat × Byte) → State) : onTarget i s f = .next (f c w j t) := by
  rw [onTarget, walkWord_walking h]
  simp only [ht]

theorem onTarget_none (h : Walking s c w j i) (ht : w.target = none)
    (f : Nat → Walker → Job → (Nat × Nat × Nat × Byte) → State) : onTarget i s f = .next (walkFault s c w j 4) := by
  rw [onTarget, walkWord_walking h]
  simp only [ht]

end

theorem walkSets_of_exec {i : Instr} {d : Fin 16} {f : Walker → Word} (h : ∀ s, exec i s = walkSet i d f s) : WalkSets i d f := by
  intro s c w j hw _
  rw [h, walkSet, walkWord_walking hw, Walker.put_next]

theorem walkBranches_of_exec {i : Instr} {imm : BitVec 14} {p : Walker → Bool} {taken : Walker → Prop}
    (h : ∀ s, exec i s = walkBranch i imm p s) (hp : ∀ w, p w = true ↔ taken w) : WalkBranches i imm taken := by
  refine ⟨fun s c w j hw ht => ?_, fun s c w j hw ht => ?_⟩
  · rw [h, walkBranch, walkWord_walking hw, if_pos ((hp w).mpr ht)]
    rfl
  · rw [h, walkBranch, walkWord_walking hw, if_neg (mt (hp w).mp ht)]
    rfl

/-! ### Loads (12 R302) -/

/-- The three loads differ in their size alone. -/
theorem exec_walkLoad {i : Instr} {d a sp : Fin 16} {imm : BitVec 14} {n : Nat}
    (h : (i = .wldw d a sp imm ∧ n = 4) ∨ (i = .wldh d a sp imm ∧ n = 2) ∨ (i = .wldb d a sp imm ∧ n = 1)) (s : State) :
    exec i s = walkLoad i n d a sp imm s := by
  obtain ⟨rfl, rfl⟩ | ⟨rfl, rfl⟩ | ⟨rfl, rfl⟩ := h <;> rfl

section
variable {s : State} {c n : Nat} {w : Walker} {j : Job} {i : Instr} {d a sp : Fin 16} {imm : BitVec 14}
variable (h : Walking s c w j i)
include h

theorem walkLoad_outside (ho : (w.reg a + sext14 imm).toNat % n ≠ 0 ∨
    (walkWindow s c j sp).size < (w.reg a + sext14 imm).toNat + n) :
    walkLoad i n d a sp imm s = .next (walkFault s c w j 2) := by
  rw [walkLoad, walkWord_walking h]
  exact congrArg _ (if_pos ho)

section
variable (hal : (w.reg a + sext14 imm).toNat % n = 0) (hin : (w.reg a + sext14 imm).toNat + n ≤ (walkWindow s c j sp).size)
include hal hin

theorem walkLoad_secure (hs : walkSecure s j (walkWindow s c j sp) (w.reg a + sext14 imm).toNat n = true) :
    walkLoad i n d a sp imm s = .next (walkFault s c w j 3) := by
  rw [walkLoad, walkWord_walking h]
  exact congrArg _ ((if_neg (not_or.mpr ⟨not_not_intro hal, Nat.not_lt.mpr hin⟩)).trans (if_pos hs))

theorem walkLoad_reads (hs : walkSecure s j (walkWindow s c j sp) (w.reg a + sext14 imm).toNat n = false)
    (hp : (walkSees s c j sp).anyPoison ((walkWindow s c j sp).flat + (w.reg a + sext14 imm).toNat) n = false) :
    walkLoad i n d a sp imm s = .next (putWalker (walkSees s c j sp) c (some (w.put d (word ((walkSees s c j sp).load
      ((walkWindow s c j sp).flat + (w.reg a + sext14 imm).toNat) n))).next)) := by
  rw [walkLoad, walkWord_walking h]
  exact congrArg _ ((if_neg (not_or.mpr ⟨not_not_intro hal, Nat.not_lt.mpr hin⟩)).trans
    ((if_neg (ne_true_of_eq_false hs)).trans (if_neg (ne_true_of_eq_false hp))))

end
end

/-! ### Emissions (12 R304, R309) -/

section
variable {s : State} {c at_ n : Nat} {w : Walker} {j : Job} {t : Nat × Nat × Nat × Byte}

theorem emits_owned (h : targetOwned s c j t = true) (bs : List Byte) :
    emits s c w j t at_ bs = putWalker (emit s c t at_ bs) c (some w.next) := if_pos h

theorem emitPiece_owned (h : targetOwned s c j t = true) (f : Nat → Nat → List Byte) : emitPiece s c w j t at_ n f =
    putWalker (emit s c t (at_ + w.part) (f w.part (w.piece at_ n))) c
      (some (if n ≤ w.part + w.piece at_ n then w.next else { w with part := w.part + w.piece at_ n })) := if_pos h

end

/-- The word reads as a count other than zero. -/
theorem count_ne_zero {v : Word} : v.toNat ≠ 0 ↔ v ≠ 0 := (BitVec.toNat_ne (y := 0)).symm

/-- A WRUN lies beyond its target, off its elements' alignment or beyond its window (12 R304). -/
def RunBeyond (s : State) (c : Nat) (w : Walker) (j : Job) (d a b sp : Fin 16) (t : Nat × Nat × Nat × Byte) : Prop :=
  (w.reg d ≠ 0 ∧ elemCount t < (w.reg a).toNat + (w.reg d).toNat) ∨ (w.reg b).toNat % elemBytes t ≠ 0 ∨
    (walkWindow s c j sp).size < (w.reg b).toNat + elemBytes t * (w.reg d).toNat

section
variable {s : State} {c : Nat} {w : Walker} {j : Job} {d a b sp : Fin 16} {t : Nat × Nat × Nat × Byte}
variable (h : Walking s c w j (.wrun d a b sp)) (ht : w.target = some t)
include h ht

theorem wrun_beyond (hb : RunBeyond s c w j d a b sp t) : exec (.wrun d a b sp) s = .next (walkFault s c w j 4) :=
  (onTarget_some h ht _).trans (congrArg _ (if_pos (hb.imp_left fun hn => ⟨count_ne_zero.mpr hn.1, hn.2⟩)))

/-- A WRUN that lies within its target and window: nothing for a count of 0, else its source is judged and a piece written. -/
theorem wrun_within (hb : ¬RunBeyond s c w j d a b sp t) : exec (.wrun d a b sp) s = .next (
    if (w.reg d).toNat = 0 then putWalker s c (some w.next)
    else if walkSecure s j (walkWindow s c j sp) (w.reg b).toNat (elemBytes t * (w.reg d).toNat) then walkFault s c w j 3
    else if (walkSees s c j sp).anyPoison ((walkWindow s c j sp).flat + (w.reg b).toNat + w.part)
        (w.piece ((w.reg a).toNat * elemBytes t) (elemBytes t * (w.reg d).toNat)) then
      walkerStops (walkSees s c j sp) c j (perfPoison j.pc j.csn (1 - sp.val) ((w.reg b).toNat + w.part))
    else emitPiece (walkSees s c j sp) c w j t ((w.reg a).toNat * elemBytes t) (elemBytes t * (w.reg d).toNat) fun p m =>
      (walkSees s c j sp).bytes ((walkWindow s c j sp).flat + (w.reg b).toNat + p) m) :=
  (onTarget_some h ht _).trans (congrArg _ (if_neg fun hn => hb (hn.imp_left fun hm => ⟨count_ne_zero.mp hm.1, hm.2⟩)))

end

end Sys2Proof.Machine
end

section
/-! PROOFS. The words of the walker (12 R299 to R308).
-/

namespace Sys2Proof

open Sys2Proof.Machine

/-- Settles O30: each word is one write of its register; the product is that of the numbers modulo 2^32. -/
theorem walkerArithmetic : Obligations.WalkerArithmetic := by
  unfold Obligations.WalkerArithmetic
  refine ⟨fun _ _ => walkSets_of_exec fun _ => rfl, fun _ _ _ _ => walkSets_of_exec fun _ => rfl,
    fun _ _ _ => walkSets_of_exec fun _ => rfl, fun d a b => walkSets_of_exec fun _ => ?_,
    fun _ _ _ => walkSets_of_exec fun _ => rfl, fun _ _ _ => walkSets_of_exec fun _ => rfl,
    fun _ _ _ => walkSets_of_exec fun _ => rfl, Walker.reg_zero, Walker.put_zero, fun w n m v => Walker.reg_put m v⟩
  exact congrArg (walkSet (.wmul d a b) d · _) (funext fun _ => BitVec.mul_def)

/-- Settles O31: a load by the first of its checks that fails, a branch by whether its comparison holds. -/
theorem walkerLoadsAndBranches : Obligations.WalkerLoadsAndBranches := by
  unfold Obligations.WalkerLoadsAndBranches
  refine ⟨fun i d a sp imm n hi => ⟨fun s c w j h ⟨hal, hin, hs, hp⟩ => ?_,
      fun s c w j h ho => (exec_walkLoad hi s).trans (walkLoad_outside h ho),
      fun s c w j h ⟨hal, hin, hs⟩ => (exec_walkLoad hi s).trans (walkLoad_secure h hal hin hs)⟩,
    fun _ _ _ => walkBranches_of_exec (fun _ => rfl) fun _ => beq_iff_eq,
    fun _ _ _ => walkBranches_of_exec (fun _ => rfl) fun _ => bne_iff_ne,
    fun _ _ _ => walkBranches_of_exec (fun _ => rfl) fun _ => decide_eq_true_iff,
    fun _ _ _ => walkBranches_of_exec (fun _ => rfl) fun _ => decide_eq_true_iff,
    fun _ => walkBranches_of_exec (fun _ => rfl) fun _ => iff_of_true rfl trivial,
    fun s c w j h _ => walkWord_walking h _⟩
  rw [exec_walkLoad hi, walkLoad_reads h hal hin hs hp, Walker.put_next]
  rfl

/-- Settles O32: a word of the target by whether there is one and whose it is; a WRUN by whether it lies within its target and
window, an arrival by whether its register refuses it. -/
theorem walkerTargets : Obligations.WalkerTargets := by
  unfold Obligations.WalkerTargets
  refine ⟨fun a b t s c w j h ⟨ht, ho⟩ => ?wtgt, fun a b s c w j h ht => ?wtgtFault,
    fun t s c w j h ⟨ht, ho⟩ => (onTarget_some h ht _).trans (congrArg _ (emitPiece_owned ho _)),
    fun a b t s c w j h ⟨ht, hn, ho⟩ => (onTarget_some h ht _).trans
      (congrArg _ ((if_neg (Nat.not_le.mpr hn)).trans (emits_owned ho _))),
    fun a b t s c w j h hno => ?wemitFault, fun d a b sp t s c w j h ⟨ht, hd, hn, hal, hin, hs, hp, ho⟩ => ?wrun,
    fun d a b sp t s c w j h ⟨ht, hd, hal, hin⟩ => ?wrunEmpty, fun d a b sp t s c w j h hno => ?wrunFault,
    fun n s c w j h hr => ?warv, fun n s c w j h hr => ?warvFault, fun n s c w j h _ => walkWord_walking h _,
    fun s c w j cause => rfl⟩
  case wtgt =>
    refine (walkWord_walking h _).trans (congrArg _ ?_)
    simp only [ht, ho, if_true]
    rfl
  case wtgtFault =>
    refine (walkWord_walking h _).trans (congrArg _ ?_)
    simp only [ht]
  case wemitFault =>
    obtain hno | ⟨ht, hn⟩ := hno
    · exact onTarget_none h hno _
    · exact (onTarget_some h ht _).trans (congrArg _ (if_pos hn))
  case wrun =>
    have hwithin : ¬RunBeyond s c w j d a b sp t :=
      not_or.mpr ⟨fun hb => Nat.not_lt.mpr hn hb.2, not_or.mpr ⟨not_not_intro hal, Nat.not_lt.mpr hin⟩⟩
    rw [wrun_within h ht hwithin, if_neg (count_ne_zero.mpr hd), if_neg (ne_true_of_eq_false hs)]
    exact congrArg _ ((if_neg (ne_true_of_eq_false hp)).trans (emitPiece_owned ho _))
  case wrunEmpty =>
    have hzero : (w.reg d).toNat = 0 := by rw [hd]; rfl
    have hwithin : ¬RunBeyond s c w j d a b sp t := by
      rw [RunBeyond, hzero]
      exact not_or.mpr ⟨fun hb => hb.1 hd, not_or.mpr ⟨not_not_intro hal, Nat.not_lt.mpr hin⟩⟩
    rw [wrun_within h ht hwithin, if_pos hzero]
    rfl
  case wrunFault =>
    obtain hno | ⟨ht, hb⟩ := hno
    · exact onTarget_none h hno _
    · exact wrun_beyond h ht hb
  case warv => exact (walkWord_walking h _).trans (congrArg _ (if_neg (ne_true_of_eq_false hr)))
  case warvFault => exact (walkWord_walking h _).trans (congrArg _ (if_pos hr))

end Sys2Proof
end

section
/-! SUPPORT. The granules of poison (18 R380, R381): the first byte of a granule lies in the same region, so that its granule is the same.
-/

namespace Sys2Proof.Machine

open Sys2Proof

/-- A granule is 64, 8, 4 or 1 bytes. -/
theorem granule_cases (a : Nat) : granule a = 64 ∨ granule a = 4 ∨ granule a = 8 ∨ granule a = 1 := by
  unfold granule
  dsimp only
  split
  · exact .inl rfl
  · split
    · exact .inr (.inl rfl)
    · split
      · exact .inr (.inr (.inl rfl))
      · exact .inr (.inr (.inr rfl))

/-- Rounding an address down to its granule leaves its region. -/
theorem regionOf_granuleBase (a : Nat) : regionOf (granuleBase a) = regionOf a := by
  unfold regionOf granuleBase
  rcases granule_cases a with h | h | h | h <;> rw [h] <;> omega

theorem granule_granuleBase (a : Nat) : granule (granuleBase a) = granule a := by
  simp only [granule, regionOf_granuleBase]

/-- A poisoned granule leaves the list exactly when cells replace every one of its bytes (18 R381). -/
theorem mem_store_poison {s : State} {l : List (Nat × Byte)} {g : Nat} :
    g ∈ (s.store l).poison ↔ g ∈ s.poison ∧ ∃ i < granule g, ∀ c ∈ l, c.1 ≠ g + i := by
  simp only [State.store, List.mem_filter, Bool.not_eq_true', List.all_eq_false, List.any_eq_true, List.mem_range, beq_iff_eq,
    not_exists, not_and, ne_eq]

end Sys2Proof.Machine
end

section
/-! PROOFS. Poison that writes leave (18 R381).
-/

namespace Sys2Proof

open Sys2Proof.Machine

/-- Settles O52: the granule of a granule's first byte is the granule itself. -/
theorem wholeGranuleClearsPoison : Obligations.WholeGranuleClearsPoison := by
  unfold Obligations.WholeGranuleClearsPoison
  intro s l a _ hp
  rw [mem_store_poison, granule_granuleBase]
  exact and_iff_right hp

end Sys2Proof
end

section
/-! SUPPORT. The distributor (17 R342 to R367): what it does with the head record of a queue and with a cancellation, which launch
waits to place a cluster, and what a save leaves of the launches (17 R362).
-/

namespace Sys2Proof.Machine

open Sys2Proof

variable {s : State}

/-! ### Records and cancellations (17 R342, R345; 25 R430) -/

theorem exec_launchRecord {i : Nat} {q : Queue} (hn : nextQueue s = some i) (hq : s.queues[i]? = some q) :
    exec .launchRecord s = .next (takeRecord s i q) := by
  simp only [exec, execLaunchRecord, hn, hq]

/-- A poisoned record leaves its queue, and its completion is counted as lost (17 R438, R440). -/
theorem takeRecord_poisoned {i : Nat} {q : Queue} (hp : s.anyPoison q.headAt 128 = true) : takeRecord s i q =
    lostCompletion { s with
      lastQueue := i
      queues := s.queues.set i { q with
        head := (q.head + 1) % q.size, served := q.served + 1, cancels := q.cancels.filter fun k => k != q.served % 2 ^ 56 } }
      (i * 2 ^ 56 + q.served % 2 ^ 56) 0x4001 := if_pos hp

section
variable {n : Nat} {q : Queue} {hi : Word} (hq : s.queues[n]? = some q)
include hq

/-- A cancellation of another queue's number is ignored. -/
theorem exec_cancel_other (hc : (hi.toNat * 2 ^ 32 + q.cancelLo.toNat) / 2 ^ 56 ≠ n) : exec (.cancel n hi) s = .next s := by
  simp only [exec, execCancel, hq]
  exact congrArg _ (if_pos hc)

variable (hc : (hi.toNat * 2 ^ 32 + q.cancelLo.toNat) / 2 ^ 56 = n)
include hc

theorem exec_cancel_held {g : Grid} (hg : s.grid? (hi.toNat * 2 ^ 32 + q.cancelLo.toNat) = some g) :
    exec (.cancel n hi) s = .next (cancelGrid s (hi.toNat * 2 ^ 32 + q.cancelLo.toNat)) := by
  simp only [exec, execCancel, hq]
  exact congrArg _ ((if_neg (not_not_intro hc)).trans (if_pos (by rw [hg]; rfl)))

theorem exec_cancel_unread (hg : s.grid? (hi.toNat * 2 ^ 32 + q.cancelLo.toNat) = none) :
    exec (.cancel n hi) s = .next (if q.waiting ((hi.toNat * 2 ^ 32 + q.cancelLo.toNat) % 2 ^ 56) then
      { s with queues := s.queues.set n { q with cancels := (hi.toNat * 2 ^ 32 + q.cancelLo.toNat) % 2 ^ 56 :: q.cancels } }
    else s) := by
  simp only [exec, execCancel, hq]
  exact congrArg _ ((if_neg (not_not_intro hc)).trans (if_neg (by rw [hg]; exact Bool.false_ne_true)))

end

/-! ### Placement (17 R353 to R356) -/

theorem waitingGrid_of_live {g : Grid} (hg : s.grid? g.corr = some g) (hl : g.phase = .live) (ha : g.allPlaced = false) :
    waitingGrid s g.corr = some g := by
  simp only [waitingGrid, hg, hl, ha, beq_self_eq_true, Bool.not_false, Bool.and_self, if_true]

/-- A launch that has reserved a rectangle takes that one or none (17 R356). -/
theorem nextRect_of_reserved {g : Grid} {r : Reserv} (hr : s.reserv.find? (fun r => r.corr == g.corr) = some r) :
    nextRect s g = (sitesAt s g (rectCores r.base r.rows r.cols)).map fun l => ((r.rows, r.cols), r.base, l) := by
  simp only [nextRect, hr]

theorem placeNext_of_some {g : Grid} {p : Nat × Nat} {base : Nat} {l : List (Nat × Nat)}
    (h : nextRect s g = some (p, base, l)) :
    placeNext s g = endReserv (startCluster s g g.next base p.1 p.2 l) g.corr fun _ => true := by
  simp only [placeNext, h]

theorem placeNext_of_none {g : Grid} (h : nextRect s g = none) :
    placeNext s g = if g.fallback then reserveRect s g g.l.mayUse g.l.fallRows g.l.fallCols else s := by
  simp only [placeNext, h]

section
variable {g : Grid} (hw : waitingGrid s g.corr = some g)
include hw

theorem exec_clusterPlacement :
    exec (.clusterPlacement g.corr) s = .next (if g.l.mapped then placeMapped s g else placeNext s g) := by
  simp only [exec, execClusterPlacement, hw]

theorem exec_fallbackMode (hm : g.l.mapped = false) (hf : g.fallback = false) (h64 : g.waitFrom + 64000 ≤ s.ns) :
    exec (.fallbackMode g.corr) s =
      .next (placeNext (s.setGrid { g with fallback := true }) { g with fallback := true }) := by
  have h : (!g.l.mapped && !g.fallback && waited64 s g) = true := by
    rw [hm, hf]
    exact decide_eq_true h64
  simp only [exec, execFallbackMode, hw]
  exact congrArg _ (if_pos h)

/-- One reserved rectangle with one launch of low priority on its cores: that one is pre-empted. -/
theorem exec_priority7 {r : Reserv} {h : Grid} (hp : g.prio = 7) (h64 : g.waitFrom + 64000 ≤ s.ns) (hr : s.reserv = [r])
    (hc : r.corr = g.corr) (hf : s.grids.filter (fun h =>
      (((s.teams.filter fun t => (rectCores r.base r.rows r.cols).contains t.core).map (·.corr)).contains h.corr) &&
        decide (h.prio ≤ 5)) = [h]) :
    exec (.priority7Preemption g.corr) s = .next (requestPreempt s h.corr) := by
  have hgo : (g.prio == 7 && waited64 s g) = true := by
    rw [hp]
    exact decide_eq_true h64
  have hcores : (s.reserv.filter fun r => r.corr == g.corr).flatMap (fun r => rectCores r.base r.rows r.cols) =
      rectCores r.base r.rows r.cols := by
    simp [hr, hc]
  simp only [exec, execPriority7Preemption, hw, hgo, if_true, hcores, hf, List.foldl_cons, List.foldl_nil]

end

/-! ### Pre-emption (17 R360 to R363) -/

/-- A fold keeps what each of its steps keeps. -/
theorem foldl_same {α β : Type} {v : State → β} {f : State → α → State} (h : ∀ s a, v (f s a) = v s) (l : List α) (s : State) :
    v (l.foldl f s) = v s :=
  List.foldlRecOn (motive := fun t => v t = v s) l f rfl fun t ht a _ => (h t a).trans ht

/-- Teams put in order are as many as before. -/
theorem teamOrder_length (l : List Team) : (teamOrder l).length = l.length := by
  suffices h : ∀ acc : List Team, (l.foldl (fun acc t => (acc.takeWhile fun x => decide (x.num ≤ t.num)) ++ [t] ++
      acc.dropWhile fun x => decide (x.num ≤ t.num)) acc).length = acc.length + l.length by
    exact (h []).trans (Nat.zero_add _)
  induction l with
  | nil => intro acc; rfl
  | cons t l ih =>
    intro acc
    have hlen := congrArg List.length (List.takeWhile_append_dropWhile (p := fun x : Team => decide (x.num ≤ t.num)) (l := acc))
    simp only [List.length_append] at hlen
    simp only [List.foldl_cons, ih, List.length_append, List.length_cons, List.length_nil]
    omega

/-- The dump is written to memory, and DUMPADDR names it (24 R427, R428). -/
theorem writeDump_grids (s : State) (g : Grid) (l : List SavedTeam) : (writeDump s g l).grids = s.grids := by
  unfold writeDump
  dsimp only
  rw [foldl_same (v := State.grids) fun _ _ => State.store_grids .., State.store_grids]

theorem writeDump_dumpAddr (s : State) (g : Grid) (l : List SavedTeam) :
    (writeDump s g l).dist.dumpAddr = saveBase g.image := rfl

/-- What stands before a save puts its launch: the dump written, its teams and walkers gone, its reservations ended. -/
def cleared (s : State) (g : Grid) : State :=
  endReserv ((orphanWalkers s g.corr).foldl (fun s p => s.modCore p.1 fun c => { c with walker := none })
    (((teamOrder (s.teams.filter fun t => t.corr == g.corr)).map (saveTeam s)).foldl leaveCore
      (writeDump s g ((teamOrder (s.teams.filter fun t => t.corr == g.corr)).map (saveTeam s))))) g.corr fun _ => true

theorem saveGrid_eq (s : State) (g : Grid) : saveGrid s g = (cleared s g).setGrid { g with
    phase := .saved
    saved := (teamOrder (s.teams.filter fun t => t.corr == g.corr)).map (saveTeam s)
    walkers := orphanWalkers s g.corr
    haltTime := (cleared s g).ns } := rfl

theorem cleared_grids (s : State) (g : Grid) : (cleared s g).grids = s.grids :=
  (foldl_same (v := State.grids) (by intros; rfl) ..).trans
    ((foldl_same (v := State.grids) (by intros; rfl) ..).trans (writeDump_grids ..))

theorem cleared_dumpAddr (s : State) (g : Grid) : (cleared s g).dist.dumpAddr = saveBase g.image :=
  (foldl_same (v := fun s => s.dist.dumpAddr) (by intros; rfl) ..).trans
    (foldl_same (v := fun s => s.dist.dumpAddr) (by intros; rfl) ..)

theorem cleared_grid {g : Grid} (hg : s.grid? g.corr = some g) : (cleared s g).grid? g.corr = some g := by
  rw [State.grid?, cleared_grids]
  exact hg

/-- A request for a launch that runs halts its groups (17 R360). -/
theorem requestPreempt_live {g : Grid} (hg : s.grid? g.corr = some g) (hl : g.phase = .live) (ht : ∃ t ∈ s.teams, t.corr = g.corr) :
    requestPreempt s g.corr = { s.setGrid { g with phase := .halting, haltTime := s.ns } with
      groups := s.groups.map fun h =>
        (if (s.team? h.team).map (·.corr) = some g.corr then { h with halted := true } else h) } := by
  have hgo : (g.phase == .live && s.teams.any fun t => t.corr == g.corr) = true := by
    simpa [hl] using ht
  simp only [requestPreempt, hg, hgo, if_true, beq_iff_eq]
  rfl

theorem requestPreempt_other {g : Grid} (hg : s.grid? g.corr = some g) (hl : g.phase ≠ .live) : requestPreempt s g.corr = s := by
  have hgo : (g.phase == .live && s.teams.any fun t => t.corr == g.corr) = false := by
    rw [beq_eq_false_iff_ne.mpr hl, Bool.false_and]
  simp only [requestPreempt, hg, hgo, Bool.false_eq_true, if_false]

theorem exec_preempt {n : Nat} {q : Queue} {hi : Word} {corr : Nat} (hq : s.queues[n]? = some q)
    (hc : corr = hi.toNat * 2 ^ 32 + q.preemptLo.toNat) (hn : corr / 2 ^ 56 = n) :
    exec (.preempt n hi) s = .next (requestPreempt s corr) := by
  subst hc
  simp only [exec, execPreempt, hq]
  exact congrArg _ (if_pos hn)

section
variable {g : Grid} (hg : s.grid? g.corr = some g)
include hg

theorem exec_preemptHaltComplete (hp : g.phase = .halting) :
    exec (.preemptHaltComplete g.corr) s = .next (if halted s g.corr then saveGrid s g else s) := by
  simp only [exec, execPreemptHaltComplete, hg, hp, beq_self_eq_true, Bool.true_and]

theorem exec_gridRestore (hp : g.phase = .saved) : exec (.gridRestore g.corr) s = .next (restoreGrid s g) := by
  simp only [exec, execGridRestore, hg, hp, beq_self_eq_true, if_true]

end

end Sys2Proof.Machine
end

section
/-! PROOFS. The steps of the distributor and of pre-emption (17 R342 to R367, R440; 25 R430).
-/

namespace Sys2Proof

open Sys2Proof.Machine

/-- Settles O41: a record by whether it is poisoned, a cancellation by what the distributor holds under its number, a placement by
the rectangle that the launch may take next. -/
theorem launchEvents : Obligations.LaunchEvents := by
  unfold Obligations.LaunchEvents
  intro s
  refine ⟨fun i q hn hq => ⟨exec_launchRecord hn hq, fun hp => ?poisoned⟩, fun hn => ?idle, fun n q tail hq => ?doorbell,
    fun n q hi hq hc => ⟨fun g hg => exec_cancel_held hq hc hg, fun hg => exec_cancel_unread hq hc hg⟩,
    fun n q hi hq hc => exec_cancel_other hq hc,
    fun g hg hl => ⟨fun ha => ?waiting, fun ha ht hj => ?completes⟩, fun g hg hp => ?ending⟩
  case poisoned =>
    have hi : i < s.queues.length := (List.getElem?_eq_some_iff.mp hq).1
    exact ⟨_, (exec_launchRecord hn hq).trans (congrArg _ (takeRecord_poisoned hp)), rfl, rfl, rfl, rfl,
      List.getElem?_set_self hi⟩
  case idle => simp only [exec, execLaunchRecord, hn]
  case doorbell => simp only [exec, execDoorbell, hq]
  case waiting =>
    have hw := waitingGrid_of_live hg hl ha
    refine ⟨fun p base l hm hr => ?_, fun hm hr => ?_, fun r hr hs => ?_, fun hm => ?_,
      fun hm hf h64 => exec_fallbackMode hw hm hf h64, fun r h hp h64 hr hc hf => exec_priority7 hw hp h64 hr hc hf⟩
    · rw [exec_clusterPlacement hw, if_neg (ne_true_of_eq_false hm), placeNext_of_some hr]
    · rw [exec_clusterPlacement hw, if_neg (ne_true_of_eq_false hm), placeNext_of_none hr]
    · rw [nextRect_of_reserved hr, hs, Option.map_none]
    · rw [exec_clusterPlacement hw, if_pos hm]
  case completes =>
    have hnone : (s.teams.any fun t => t.corr == g.corr) = false := by simpa using ht
    simp only [exec, execGridCompletion, hg, hl, ha, hnone, hj, Bool.not_false, Bool.and_self, if_true]
  case ending => simp only [exec, execGridCompletion, hg, hp]

/-- Settles O42: a request by the phase of its launch, a save by whether all is still, a restore by whether the cores of its other
walkers are free. -/
theorem preemptionEvents : Obligations.PreemptionEvents := by
  unfold Obligations.PreemptionEvents
  intro s g hg
  refine ⟨fun n q hi hq hc hn => ⟨fun hl ht => ?request, fun hl => ?ignored⟩, fun hp hh => ?saves, fun hp hh => ?waits,
    fun r t hp hw hr ht => ?restores, fun hp hw => ?occupied⟩
  case request => rw [exec_preempt hq hc hn, requestPreempt_live hg hl ht]
  case ignored => rw [exec_preempt hq hc hn, requestPreempt_other hg hl]
  case saves =>
    refine ⟨saveGrid s g, _, ?_, State.setGrid_same (cleared_grid hg), rfl, ?_, cleared_dumpAddr s g⟩
    · rw [exec_preemptHaltComplete hg hp, if_pos hh]
    · rw [List.length_map, teamOrder_length]
  case waits => rw [exec_preemptHaltComplete hg hp, if_neg (ne_true_of_eq_false hh)]
  case restores =>
    have hfree : ¬(g.walkers.any fun p => (s.core p.1).walker.isSome) = true := by simpa using hw
    rw [exec_gridRestore hg hp, restoreGrid, if_neg hfree, hr]
    subst ht
    rfl
  case occupied =>
    have hheld : (g.walkers.any fun p => (s.core p.1).walker.isSome) = true := List.any_eq_true.mpr hw
    rw [exec_gridRestore hg hp, restoreGrid, if_pos hheld]

end Sys2Proof
end

section
/-! SUPPORT. Translation and invalidation (18 R370 to R374, R378; 23 R417): the walkers of a die without misses, a die whose caches drop a
range, the code lines of a core.
-/

namespace Sys2Proof.Machine

open Sys2Proof

variable {s : State} {d : Nat}

/-! ### An element of a list that is there -/

theorem getD_of_lt {α : Type} {l : List α} {i : Nat} (h : i < l.length) (x : α) : l.getD i x = l[i] := by
  rw [List.getD_eq_getElem?_getD, List.getElem?_eq_getElem h, Option.getD_some]

/-! ### A die changed twice -/

/-- What is done to a die depends on that die alone. -/
theorem State.modDie_congr {f g : Die → Die} (h : f (s.die d) = g (s.die d)) : s.modDie d f = s.modDie d g :=
  congrArg (s.setDie d) h

theorem State.modDie_modDie (f g : Die → Die) (h : d < s.dies.length) :
    (s.modDie d f).modDie d g = s.modDie d fun x => g (f x) := by
  show ((s.modDie d f).setDie d (g ((s.modDie d f).die d))) = s.setDie d (g (f (s.die d)))
  rw [State.die_modDie_same h]
  simp only [State.setDie, State.modDie, List.set_set]

theorem State.modDie_self {f : Die → Die} (h : f (s.die d) = s.die d) : s.modDie d f = s := by
  show { s with dies := s.dies.set d (f (s.die d)) } = s
  rw [h, State.die]
  by_cases hd : d < s.dies.length
  · rw [getD_of_lt hd, List.set_getElem_self]
  · rw [List.set_eq_of_length_le (Nat.le_of_not_lt hd)]

/-- What a change leaves in every die is as it was. -/
theorem State.die_modDie_keeps {α : Type} {v : Die → α} {f : Die → Die} (hv : ∀ x, v (f x) = v x) :
    v ((s.modDie d f).die d) = v (s.die d) := by
  by_cases hd : d < s.dies.length
  · rw [State.die_modDie_same hd, hv]
  · show v ((s.dies.set d _).getD d Die.reset) = v (s.dies.getD d Die.reset)
    rw [List.set_eq_of_length_le (Nat.le_of_not_lt hd)]

/-! ### Walks (18 R370 to R372) -/

/-- Without a miss no walker takes one. -/
theorem takeMiss_of_none (h : misses s d = []) : takeMiss s d = none := by
  unfold takeMiss
  simp only [h, List.any_nil, Bool.false_and, List.find?_eq_none.mpr fun _ _ => Bool.false_ne_true, ite_self]

theorem takeMisses_of_none (h : misses s d = []) (n : Nat) : takeMisses d n s = s := by
  cases n with
  | zero => rfl
  | succ n => rw [takeMisses, takeMiss_of_none h]

/-- Operations that no change of a die's caches touches: those of the cores, and the jobs that stay. -/
theorem engsOf_modDie {f : Die → Die} (hf : ∀ x, (f x).jobs = x.jobs) : engsOf (s.modDie d f) d = engsOf s d := by
  simp only [engsOf, State.die_modDie_keeps (v := Die.jobs) hf, State.modDie_core]

theorem rewalkHeld_of_none (h : engsOf s d = []) : rewalkHeld s d = s := by rw [rewalkHeld, h]; rfl

theorem retranslate_of_none (h : engsOf s d = []) : retranslate s d = s := by rw [retranslate, h]; rfl

/-! ### Invalidation (18 R373, R374) -/

/-- An invalidation of its own die alone names that die (18 R373). -/
theorem names_own {i : Inval} (ha : i.all = false) (hd : d < 4) : (List.range 4).filter (i.names d) = [d] := by
  have hnames : i.names d = (· == d) := by
    funext e
    rw [Inval.names, ha, Bool.false_or]
  have hall : ∀ d < 4, (List.range 4).filter (· == d) = [d] := by decide
  rw [hnames, hall d hd]

/-- With nothing gathered no count goes home. -/
theorem flushGather_of_none (h : (s.die d).gather = []) (p : Gather → Bool) : flushGather s d p = s := by
  have hself : (s.modDie d fun x => { x with gather := x.gather.filter fun g => !p g }) = s := by
    refine State.modDie_self ?_
    have hl : ((s.die d).gather.filter fun g => !p g) = (s.die d).gather := by rw [h]; rfl
    exact congrArg (fun l => { s.die d with gather := l }) hl
  rw [flushGather, h, hself]
  rfl

theorem exec_invalidation_waits (h : rangeInFlight s (invalOf (s.die d).invFrom (s.die d).invCtl) d = true) :
    exec (.invalidationComplete d) s = .next s := congrArg _ (if_pos (.inr h))

/-- The end of an invalidation on a die without operations: the translations of its range go, and done reads 1 (18 R374). -/
theorem exec_invalidation_ends (hi : (s.die d).invDone = false) (hd : d < s.dies.length)
    (ha : (invalOf (s.die d).invFrom (s.die d).invCtl).all = false)
    (hr : rangeInFlight s (invalOf (s.die d).invFrom (s.die d).invCtl) d = false) (hg : (s.die d).gather = []) (h4 : d < 4)
    (he : engsOf s d = []) :
    exec (.invalidationComplete d) s = .next (s.modDie d fun x => { x with
      invDone := true
      tlb := x.tlb.filter fun t => !(invalOf x.invFrom x.invCtl).covers t.secure t.va (2 ^ levelShift t.level)
      walkc := x.walkc.filter fun w => !(invalOf x.invFrom x.invCtl).covers w.secure w.va (2 ^ levelShift w.level) }) := by
  have hopen : ¬((s.die d).invDone = true ∨ rangeInFlight s (invalOf (s.die d).invFrom (s.die d).invCtl) d = true) := by
    rw [hi, hr]
    simp
  refine congrArg _ ((if_neg hopen).trans ?_)
  simp only [names_own ha h4, List.foldl_cons, List.foldl_nil, dropRange, retranslate_of_none he, flushGather_of_none hg,
    State.modDie_modDie _ _ hd]
  exact (rewalkHeld_of_none ((engsOf_modDie (by intros; rfl)).trans he)).trans (State.modDie_congr rfl)

/-! ### Code lines (23 R417) -/

/-- The state once the cores of a die have dropped the lines of the range; a group that may still run from one keeps it. -/
def linesDropped (s : State) (d : Nat) : State :=
  let hit := fun (l : Line) => s.grids.any fun g => l.within g (s.die d).codeInvLine (s.die d).codeInvCount
  { s with
    groups := s.groups.map fun (g : Group) =>
      { g with stale := g.stale ++ if dieOf g.key.core = d then (s.core g.key.core).icache.filter hit else [] }
    cores := s.cores.mapIdx fun c (x : Core) => if dieOf c = d then { x with icache := x.icache.filter fun l => !hit l } else x }

theorem linesDropped_dies : (linesDropped s d).dies = s.dies := rfl

theorem linesDropped_icache {c : Nat} (hc : c < s.cores.length) (hd : dieOf c = d) : ((linesDropped s d).core c).icache =
    (s.core c).icache.filter fun l => !(s.grids.any fun g => l.within g (s.die d).codeInvLine (s.die d).codeInvCount) := by
  simp only [linesDropped, State.core, List.getD_eq_getElem?_getD, List.getElem?_mapIdx, List.getElem?_eq_getElem hc,
    Option.map_some, Option.getD_some, hd, if_true]

/-- The cores of the die drop the lines of every launch's image that lie in the range. -/
theorem exec_codeinvAccept (h : (s.die d).codeInvDone = false) :
    exec (.codeinvAccept d) s = .next ((linesDropped s d).modDie d fun x => { x with codeInvDone := true }) :=
  congrArg _ (if_neg (ne_true_of_eq_false h))

theorem within_iff {l : Line} {g : Grid} {first count : Nat} : l.within g first count = true ↔ imageBase g.image ≤ l.addr ∧
    l.addr < imageBase g.image + g.imgLen ∧ first ≤ g.codeVa + (l.addr - imageBase g.image) ∧
    g.codeVa + (l.addr - imageBase g.image) < first + 64 * count := by
  simp only [Line.within, Bool.and_eq_true, decide_eq_true_eq, and_assoc]

end Sys2Proof.Machine
end

section
/-! PROOFS. The steps of translation and invalidation (18 R370 to R374, R378; 23 R417).
-/

namespace Sys2Proof

open Sys2Proof.Machine

/-- Settles O36: a walk by what the walkers have taken, a held write by how its operation stands, an invalidation by whether it is in
progress and what it waits for. -/
theorem translationEvents : Obligations.TranslationEvents := by
  unfold Obligations.TranslationEvents
  intro s d
  refine ⟨fun t w ht hw => ?walk, fun hm hw => ?noWalk, fun r va hs => ?writeblock, fun r va b he hs => ?rewalk,
    fun v hi hv => congrArg _ (if_pos ⟨hi, hv⟩), fun v h => congrArg _ (if_neg ?ignored), exec_invalidation_ends,
    exec_invalidation_waits, fun line n hi hl hw hn => ?codeinv, fun hi hd => ?dropped, fun l g first count => within_iff⟩
  case walk =>
    subst ht
    refine congrArg Host.Outcome.next ?_
    split
    · next hnone => cases hw.symm.trans hnone
    · next v hv =>
      obtain rfl := Option.some.inj (hw.symm.trans hv)
      rfl
  case noWalk => simp only [exec, execTranslationWalk, takeMisses_of_none hm, hw, List.getElem?_nil]
  case writeblock => simp only [exec, execWriteblock, hs]
  case rewalk =>
    simp only [exec, execHeldWriteRewalk, rewalkHeld, he, List.foldl_cons, List.foldl_nil, hs]
  case ignored =>
    intro hgo
    rcases h with h | h
    · exact ne_true_of_eq_false h hgo.1
    · exact Nat.not_le.mpr h hgo.2
  case dropped =>
    have hdone := State.die_modDie_same (s := linesDropped s d) (f := fun x => { x with codeInvDone := true }) hd
    exact ⟨_, exec_codeinvAccept hi, congrArg Die.codeInvDone hdone, fun c hc hdie => linesDropped_icache hc hdie⟩
  case codeinv =>
    refine (congrArg _ (if_pos hi)).trans ?_
    rw [Nat.mod_eq_of_lt hw, Nat.div_mul_cancel (Nat.dvd_of_mod_eq_zero hl), Nat.mod_eq_of_lt hn]

end Sys2Proof
end

section
/-! SUPPORT. Collective operations (21 R396 to R399, R402): which meaning a job's event has, how a FORM starts and completes, how an
operation of a formed group is served, and what reductions give.
-/

namespace Sys2Proof.Machine

open Sys2Proof

variable {s : State} {d n k : Nat} {j : Job} {c : Coll}

/-! ### The events -/

section
variable (hj : s.job? d n = some j) (hk : j.kind = 4) (hf : j.finished = false)
include hj hk hf

/-- The event of a FORM serves it. -/
theorem exec_collForm (ho : j.collOp = 0) : exec (.collForm d n) s = .next (serveForm s d j) := by
  simp [exec, execCollForm, serveColl, hj, hk, hf, ho]

/-- The event of another operation serves a job of that operation. -/
theorem serveColl_op (ho : j.collOp = k) (h0 : k ≠ 0) : serveColl s d n k = serveOp s d j := by
  simp [serveColl, hj, hk, hf, ho, h0]

end

/-! ### FORM (21 R396, R399, R402) -/

theorem serveForm_malformed (hb : j.bad = true) : serveForm s d j = completeJob s d j.idx 7 := if_pos hb

section
variable (hb : j.bad = false)
include hb

theorem serveForm_cancelled (hc : j.canh = true) : serveForm s d j = dropForm s d j 5 := by
  rw [serveForm, if_neg (ne_true_of_eq_false hb), if_pos hc]

variable (hc : j.canh = false)
include hc

theorem serveForm_outdated (hq : j.st = .queued) (ho : outdated s d j = true) : serveForm s d j = completeJob s d j.idx 4 := by
  rw [serveForm, if_neg (ne_true_of_eq_false hb), if_neg (ne_true_of_eq_false hc), if_pos hq, if_pos ho]

theorem serveForm_starts (hq : j.st = .queued) (ho : outdated s d j = false) (hs : jobStarts s d j = true) :
    serveForm s d j = startForm s d j := by
  rw [serveForm, if_neg (ne_true_of_eq_false hb), if_neg (ne_true_of_eq_false hc), if_pos hq,
    if_neg (ne_true_of_eq_false ho), if_pos hs]

theorem serveForm_started (hs : j.started = true) (hw : j.susp = .none) : serveForm s d j = tryForm s d j := by
  rw [serveForm, if_neg (ne_true_of_eq_false hb), if_neg (ne_true_of_eq_false hc), if_neg (ne_queued_of_started hs), if_pos hw]

end

/-- An epoch that is held and not finished, or that this launch has ended, is held (21 R397, R399). -/
theorem held_iff : ((s.die d).colls.any fun c => c.gid == j.gid &&
      ((c.epoch == j.epoch && !c.ended) || (c.corr == j.corr && j.epoch.ule c.epoch))) = true ↔
    ∃ c ∈ (s.die d).colls, c.gid = j.gid ∧ ((c.epoch = j.epoch ∧ c.ended = false) ∨ (c.corr = j.corr ∧ j.epoch.ule c.epoch = true)) := by
  simp only [List.any_eq_true, Bool.and_eq_true, Bool.or_eq_true, beq_iff_eq, Bool.not_eq_true']

/-- The group as its FORM enters it. -/
def entered (s : State) (d : Nat) (j : Job) (ms : List (Nat × Nat)) : Coll :=
  { gid := j.gid, epoch := j.epoch, corr := j.corr, members := ms, list := formWords s d j
    rank := ms.idxOf (ownDev s d, d), formed := false
    posted := 0, posts := [], lost := [], beat := [], decided := none, ended := false, proposed := none, told := [], early := [] }

/-- The state once the FORM has entered its group and sent its message. -/
def formSent (s : State) (d : Nat) (j : Job) (c : Coll) : State :=
  sendMsg ((s.modDie d fun x => { x with colls := (x.colls.filter fun y => y.gid != j.gid || y.epoch != j.epoch) ++ [c] }).modJob
    d j.idx fun x => { x with st := .started }) c (fun _ => true) 0x10 (c.msg 0 0) c.list

theorem formSent_outbox (s : State) (d : Nat) (j : Job) (c : Coll) : (formSent s d j c).outbox =
    s.outbox ++ c.others.map fun o => Sent.message o.2.1 o.2.2 0x10 (c.msg 0 0) c.list := by
  rw [formSent, sendMsg, List.filter_eq_self.mpr fun _ _ => rfl]
  rfl

section
variable (hp : s.anyPoison (formList s d j).1 (formList s d j).2.2 = false)
include hp

theorem startForm_malformed (hm : membersOf (ownDev s d) d (formWords s d j) = none) :
    startForm s d j = completeJob s d j.idx 7 := by
  simp only [startForm, hp, hm, Bool.false_eq_true, if_false]

/-- A FORM with a sound list: the epoch is held, the die is full, or the group is entered. -/
theorem startForm_sound {ms : List (Nat × Nat)} (hm : membersOf (ownDev s d) d (formWords s d j) = some ms) :
    startForm s d j = if ((s.die d).colls.any fun c => c.gid == j.gid &&
        ((c.epoch == j.epoch && !c.ended) || (c.corr == j.corr && j.epoch.ule c.epoch))) then completeJob s d j.idx 4
      else if 64 ≤ collsHeld s d then completeJob s d j.idx 1 else tryForm (formSent s d j (entered s d j ms)) d j := by
  simp only [startForm, hp, hm, Bool.false_eq_true, if_false]
  rfl

end

section
variable (h : s.coll? d j.gid j.epoch = some c)
include h

theorem tryForm_complete (ha : allFormed s d c = true) : tryForm s d j =
    catchUp (completeJob (dropForms (s.modColl d j.gid j.epoch fun x =>
      { x with formed := true, beat := List.replicate x.members.length s.ns }) d j.gid j.epoch) d j.idx 0) d j.gid j.epoch := by
  simp only [tryForm, h, ha, if_true]

theorem tryForm_waits (ha : allFormed s d c = false) : tryForm s d j = s := by
  simp only [tryForm, h, ha, Bool.false_eq_true, if_false]

end

/-! ### The other operations (21 R397, R401, R402) -/

theorem serveOp_over (h : outdated s d j = true ∨ j.num = 0) : serveOp s d j = completeJob s d j.idx (if j.bad then 7 else 4) :=
  if_pos h

section
variable (ho : outdated s d j = false) (hn : j.num ≠ 0)
include ho hn

theorem not_over : ¬(outdated s d j = true ∨ j.num = 0) :=
  not_or.mpr ⟨ne_true_of_eq_false ho, hn⟩

theorem serveOp_unheld (h : s.coll? d j.gid j.epoch = none) :
    serveOp s d j = if forming s d j then s else completeJob s d j.idx (if j.bad then 7 else 4) := by
  simp only [serveOp, not_over ho hn, h, if_false]

variable (h : s.coll? d j.gid j.epoch = some c)
include h

theorem serveOp_foreign (hc : c.corr ≠ j.corr ∨ c.ended = true) :
    serveOp s d j = completeJob s d j.idx (if j.bad then 7 else 4) := by
  simp only [serveOp, not_over ho hn, h, hc, if_false, if_true]

theorem serveOp_held (hc : c.corr = j.corr) (he : c.ended = false) :
    serveOp s d j = if c.formed then serveFormed s d j c else s := by
  simp only [serveOp, not_over ho hn, h, hc, he, if_false, ne_eq, not_true_eq_false, Bool.false_eq_true, or_self]

end

/-! ### In a formed group -/

theorem serveFormed_decided {st : Nat} (h : c.decided = some st) : serveFormed s d j c = completeJob s d j.idx st := by
  simp only [serveFormed, h]

section
variable (hd : c.decided = none)
include hd

theorem serveFormed_malformed (h : j.bad = true ∨ collFits s d j c = false) : serveFormed s d j c = completeJob s d j.idx 7 := by
  have hbad : (j.bad || !collFits s d j c) = true := by
    rcases h with h | h
    · rw [h, Bool.true_or]
    · rw [h, Bool.not_false, Bool.or_true]
  simp only [serveFormed, hd, hbad, if_true]

variable (hb : j.bad = false) (hc : collFits s d j c = true)
include hb hc

theorem serveFormed_sends (hp : c.hasPosted j = true) (hw : j.susp = .none) (h0 : j.took = 0) :
    serveFormed s d j c = collSend s d j.idx c := by
  simp [serveFormed, hd, hb, hc, hp, hw, h0]

theorem serveFormed_goes {ps : List Post} (hp : c.hasPosted j = true) (hw : j.susp = .none) (h0 : j.took ≠ 0)
    (hps : allPosted c j.num = some ps) : serveFormed s d j c = collGo s d j c ps := by
  simp [serveFormed, hd, hb, hc, hp, hw, h0, hps]

variable (hp : c.hasPosted j = false)
include hp

theorem serveFormed_outOfTurn (he : earlierOp s d c j = true) : serveFormed s d j c = s := by
  simp only [serveFormed, hd, hb, hc, hp, he, Bool.not_true, Bool.or_self, Bool.false_eq_true, if_false, if_true]

theorem serveFormed_reads {t : State} (he : earlierOp s d c j = false) (ht : served s d j = some t) :
    serveFormed s d j c = collRead t d j c := by
  simp only [serveFormed, hd, hb, hc, hp, he, Bool.not_true, Bool.or_self, Bool.false_eq_true, if_false]
  unfold Machine.served at ht
  split at ht
  · next hq =>
    split at ht
    · next hs => cases ht; rw [if_pos hq, if_pos hs]
    · cases ht
  · next hq =>
    split at ht
    · next hw => cases ht; rw [if_neg hq, if_pos hw]
    · cases ht

end

/-- A member that contributes nothing posts at once. -/
theorem collRead_nothing (h : j.gives c = false) : collRead s d j c = collPost s d j c [] := by
  rw [collRead, if_neg (ne_true_of_eq_false h)]

section
variable {ps : List Post}

theorem collGo_flushes (h : j.out ≠ []) : collGo s d j c ps = flushRest s (.job d j.idx) := by
  rw [collGo, if_pos (by simpa using h)]

variable (h : j.out = [])
include h

theorem collGo_disband (ho : j.collOp = 1) : collGo s d j c ps =
    if lowerOp s d j then s else (collDone s d j c).modColl d c.gid c.epoch fun x => { x with ended := true } := by
  simp only [collGo, h, ho, List.isEmpty_nil, Bool.not_true, Bool.false_eq_true, if_false]

theorem collGo_barrier (ho : j.collOp = 2) : collGo s d j c ps = collDone s d j c := by
  simp only [collGo, h, ho, List.isEmpty_nil, Bool.not_true, Bool.false_eq_true, if_false]

/-- The next part of a result, then its end once all of it is written. -/
theorem collGo_writes {u : State} {x : Job} {res : List (Word × Fl)} (h3 : 3 ≤ j.collOp)
    (hres : res = collResult j.collOp j.redn c.rank (j.c 5).toNat j.count (ps.map (·.data)))
    (hu : u = if 16 * j.at_ < res.length then collWrite s d j res else s) (hx : u.job? d j.idx = some x) :
    collGo s d j c ps = if res.length ≤ 16 * x.at_ ∧ x.out = [] ∧ x.susp = .none then collDone u d x c else u := by
  unfold collGo
  rw [if_neg (by simp [h])]
  split
  · omega
  · omega
  · dsimp only
    rw [← hres, ← hu]
    simp only [hx, Bool.and_eq_true, decide_eq_true_eq, List.isEmpty_iff, beq_iff_eq, and_assoc]

end

/-! ### Reductions (21 R398, R399) -/

/-- Sums of words raise no flags. -/
theorem redRanks_add (l : List Word) : redRanks 0 l = (l.foldl (· + ·) 0, 0#7) := by
  have hadd (x v : Word) : atomNew (rednOp 0) x v = (x + v, 0#7) := rfl
  have hfold : ∀ (xs : List Word) (x : Word),
      xs.foldl (fun acc v => let r := atomNew (rednOp 0) acc.1 v; (r.1, acc.2 ||| r.2)) (x, 0#7) = (xs.foldl (· + ·) x, 0#7) := by
    intro xs
    induction xs with
    | nil => intro x; rfl
    | cons v xs ih => intro x; simpa only [List.foldl_cons, hadd, BitVec.or_self] using ih (x + v)
  cases l with
  | nil => rfl
  | cons x xs =>
    have hzero : (0 : Word) + x = x := BitVec.zero_add x
    rw [redRanks, hfold, List.foldl_cons, hzero]

theorem getElem?_map_range {α : Type} {f : Nat → α} {i m : Nat} (h : i < m) : ((List.range m).map f)[i]? = some (f i) := by
  rw [List.getElem?_map, List.getElem?_range h, Option.map_some]

end Sys2Proof.Machine
end

section
/-! PROOFS. Collective operations (21 R396 to R399, R402).
-/

namespace Sys2Proof

open Sys2Proof.Machine

/-- Settles O37: a FORM by its phase and its list, another operation by the state of its group, a posted one by its kind. -/
theorem collectiveOperations : Obligations.CollectiveOperations := by
  unfold Obligations.CollectiveOperations
  intro s d n j hj hn hk hf
  subst hn
  refine ⟨fun h0 => ?form, fun i k hi hop => ?ops, fun root count data rank i => ?results⟩
  case form =>
    rw [exec_collForm hj hk hf h0]
    refine ⟨fun hb => congrArg _ (serveForm_malformed hb), fun hb hc => congrArg _ (serveForm_cancelled hb hc),
      fun hb hc hq ho => congrArg _ (serveForm_outdated hb hc hq ho), fun hb hc hq ho hs hp => ?_, fun c hb hc hs hw h => ?_⟩
    · rw [serveForm_starts hb hc hq ho hs]
      refine ⟨fun hm => congrArg _ (startForm_malformed hp hm), fun ms hm => ?_⟩
      rw [startForm_sound hp hm]
      have hnew : (∀ c ∈ (s.die d).colls, c.gid ≠ j.gid) → ¬((s.die d).colls.any fun c => c.gid == j.gid &&
          ((c.epoch == j.epoch && !c.ended) || (c.corr == j.corr && j.epoch.ule c.epoch))) = true := fun hno hheld =>
        have ⟨c, hmem, hgid, _⟩ := held_iff.mp hheld
        hno c hmem hgid
      refine ⟨fun hheld => congrArg _ (if_pos (held_iff.mpr hheld)), fun hno h64 => ?_, fun hno h64 => ?_⟩
      · rw [if_neg (hnew hno), if_pos h64]
      · rw [if_neg (hnew hno), if_neg (Nat.not_le.mpr h64)]
        exact ⟨entered s d j ms, formSent s d j (entered s d j ms), rfl, rfl, rfl, rfl, rfl, rfl, rfl, formSent_outbox ..⟩
    · rw [serveForm_started hb hc hs hw]
      exact ⟨fun ha => congrArg _ (tryForm_complete h ha), fun ha => congrArg _ (tryForm_waits h ha)⟩
  case ops =>
    have hexec : exec i s = .next (serveOp s d j) := by
      rcases hi with ⟨rfl, rfl⟩ | ⟨rfl, rfl⟩ | ⟨rfl, rfl⟩ | ⟨rfl, rfl⟩ | ⟨rfl, rfl⟩ | ⟨rfl, rfl⟩ | ⟨rfl, rfl⟩ <;>
        exact congrArg _ (serveColl_op hj hk hf hop (by decide))
    rw [hexec]
    refine ⟨fun h => congrArg _ (serveOp_over h), fun ho hn h => congrArg _ (serveOp_unheld ho hn h),
      fun c ho hn h => ⟨fun hc => congrArg _ (serveOp_foreign ho hn h hc),
        fun hc he hf => congrArg _ ((serveOp_held ho hn h hc he).trans (if_neg (ne_true_of_eq_false hf)))⟩,
      fun c ho hn h hc he hf => ?_⟩
    rw [serveOp_held ho hn h hc he, if_pos hf]
    refine ⟨fun st hd => congrArg _ (serveFormed_decided hd), fun hd hbad => congrArg _ (serveFormed_malformed hd hbad),
      fun hd hb hfit hp he => congrArg _ (serveFormed_outOfTurn hd hb hfit hp he), fun t hd hb hfit hp he ht => ?_,
      fun hd hb hfit hp hw h0 => congrArg _ (serveFormed_sends hd hb hfit hp hw h0), fun ps hd hb hfit hp hw h0 hps => ?_⟩
    · rw [serveFormed_reads hd hb hfit hp he ht]
      exact ⟨rfl, fun hg => congrArg _ (collRead_nothing hg)⟩
    · rw [serveFormed_goes hd hb hfit hp hw h0 hps]
      subst hop
      exact ⟨fun hout => congrArg _ (collGo_flushes hout), fun hout h1 => congrArg _ (collGo_disband hout h1),
        fun hout h2 => congrArg _ (collGo_barrier hout h2),
        fun res u x hout h3 hres hu hx => congrArg _ (collGo_writes hout h3 hres hu hx)⟩
  case results =>
    refine ⟨fun h => ⟨getElem?_map_range h, ?_, ?_⟩, fun h => ?_⟩
    · exact (getElem?_map_range h).trans (congrArg some (redRanks_add _))
    · exact (getElem?_map_range h).trans (congrArg some (redRanks_add _))
    · exact (getElem?_map_range h).trans (congrArg some (redRanks_add _))

end Sys2Proof
end

section
/-! SUPPORT. The membership of collective groups (21 R395, R397, R399 to R401): what a message finds, the words of a posting, and the
steps over the epochs that a die has formed.
-/

namespace Sys2Proof.Machine

open Sys2Proof

variable {s : State} {d : Nat} {m : Msg} {c : Coll}

/-! ### FORM (21 R399) -/

/-- An epoch that has been formed, or has ended, needs no more FORM messages. -/
theorem known_iff : ((s.die d).colls.any fun c => c.gid == m.gid && c.epoch == m.epoch && (c.formed || c.ended)) = true ↔
    ∃ c ∈ (s.die d).colls, c.gid = m.gid ∧ c.epoch = m.epoch ∧ (c.formed = true ∨ c.ended = true) := by
  simp only [List.any_eq_true, Bool.and_eq_true, Bool.or_eq_true, beq_iff_eq, and_assoc]

/-! ### POST (21 R395, R397) -/

/-- A die finds its groups in its own table, whatever leaves the wire and the staging area. -/
theorem coll?_unstage (s : State) (d : Nat) (m : Msg) (n : Nat) (gid : BitVec 16) (epoch : Word) :
    (unstage s d m n).coll? d gid epoch = s.coll? d gid epoch :=
  congrArg (List.find? _) (State.die_modDie_keeps (v := Die.colls) (by intros; rfl))

/-- A posting counts that is of another member, of the group, and not there yet. -/
theorem counts_iff {p : Post} : (c.ended || decide (c.members.length ≤ p.rank) || p.rank == c.rank ||
      (c.posts.any fun q => q.rank == p.rank && q.seq == p.seq)) = false ↔
    c.ended = false ∧ p.rank < c.members.length ∧ p.rank ≠ c.rank ∧ ∀ q ∈ c.posts, ¬(q.rank = p.rank ∧ q.seq = p.seq) := by
  simp only [Bool.or_eq_false_iff, decide_eq_false_iff_not, Nat.not_le, beq_eq_false_iff_ne, List.any_eq_false, Bool.and_eq_true,
    beq_iff_eq, and_assoc]

/-- The member's own posting of the number differs. -/
theorem differs_iff {p : Post} : (c.posts.any fun q => q.rank == c.rank && p.differs q) = true ↔
    ∃ q ∈ c.posts, q.rank = c.rank ∧ q.seq = p.seq ∧ (q.c2 ≠ p.c2 ∨ q.count ≠ p.count) := by
  simp only [Post.differs, List.any_eq_true, Bool.and_eq_true, Bool.or_eq_true, beq_iff_eq, bne_iff_ne, eq_comm (a := p.seq),
    ne_comm (a := p.c2), ne_comm (a := p.count)]

section
variable {u v t : State} {c2 n : Word} {data ws : List Word} {p : Post}

/-- A posting that counts is added to the group's, and proposes an abort where it differs. -/
theorem exec_postMsg (hc : s.coll? d m.gid m.epoch = some c)
    (hu : u = { s with outbox :=
      ((s.outbox.erase (.message (ownDev s d) d 0x12 m [])).erase (.staged (ownDev s d) d m (c2 :: n :: data))) })
    (hws : ws = postWords u d m (c2 :: n :: data)) (hv : v = unstage u d m ws.length)
    (hp : p = ⟨m.rank.toNat, m.seq.toNat, ws.getD 0 0, (ws.getD 1 0).toNat, ws.drop 2⟩)
    (ht : t = v.modColl d m.gid m.epoch fun x => { x with posts := x.posts ++ [p] })
    (h : (c.ended || decide (c.members.length ≤ p.rank) || p.rank == c.rank ||
      (c.posts.any fun q => q.rank == p.rank && q.seq == p.seq)) = false) :
    exec (.postMsg d m c2 n data) s = .next (if c.posts.any (fun q => q.rank == c.rank && p.differs q) then
      propose t d m.gid m.epoch 3 else t) := by
  have hcv : v.coll? d m.gid m.epoch = some c := by rw [hv, coll?_unstage, hu]; exact hc
  have hexec : exec (.postMsg d m c2 n data) s = .next (match v.coll? d m.gid m.epoch with
      | none => v
      | some c =>
        if c.ended || decide (c.members.length ≤ p.rank) || p.rank == c.rank ||
            (c.posts.any fun q => q.rank == p.rank && q.seq == p.seq) then v
        else if c.posts.any (fun q => q.rank == c.rank && p.differs q) then propose t d m.gid m.epoch 3 else t) := by
    subst ht hp hv hws hu
    rfl
  rw [hexec, hcv]
  exact congrArg _ (if_neg (ne_true_of_eq_false h))

end

theorem staged_of_none (h : (s.die d).staging = []) (a : Nat) : (s.die d).staged a = none := by
  rw [Die.staged, h]
  rfl

/-- Without staged words a posting is what its event brings. -/
theorem postWords_unstaged (h : (s.die d).staging = []) (m : Msg) (l : List Word) : postWords s d m l = l := by
  simp only [postWords, staged_of_none h, h, List.length_nil, Nat.zero_div, List.range_zero, List.takeWhile_nil, Nat.zero_max,
    Option.getD_none]
  exact List.ext_getElem (by simp) fun i h1 h2 => by simp [h2]

theorem postWords_getElem? (s : State) (d : Nat) (m : Msg) {l : List Word} {i : Nat} (h : i < l.length) :
    (postWords s d m l)[i]? = some (((s.die d).staged (stagedAt s d m + 4 * i)).getD (l.getD i 0)) := by
  have hi (n : Nat) : i < max n l.length := Nat.lt_of_lt_of_le h (Nat.le_max_right ..)
  simp only [postWords, List.getElem?_map, List.getElem?_range (hi _), Option.map_some]

/-! ### ABORT and DECIDE (21 R401) -/

section
variable (hc : s.coll? d m.gid m.epoch = some c)
include hc

theorem coll?_receive (type : Nat) (data : List Word) : (receive s d type m data).coll? d m.gid m.epoch = some c := hc

theorem exec_abortMsg : exec (.abortMsg d m) s = .next
    (if c.open_ && c.decides then collDecide (receive s d 0x13 m []) d c m.status.toNat
    else if !c.formed && !c.ended then (receive s d 0x13 m []).modColl d m.gid m.epoch fun x =>
      { x with early := x.early ++ [(false, m.status.toNat)] }
    else receive s d 0x13 m []) := by
  simp only [exec, execAbortMsg, coll?_receive hc]

theorem exec_decideMsg : exec (.decideMsg d m) s = .next
    (if c.open_ then collEnds (receive s d 0x14 m []) d c m.status.toNat
    else if !c.formed && !c.ended then (receive s d 0x14 m []).modColl d m.gid m.epoch fun x =>
      { x with early := x.early ++ [(true, m.status.toNat)] }
    else receive s d 0x14 m []) := by
  simp only [exec, execDecideMsg, coll?_receive hc]

end

/-- A group that is open has been formed. -/
theorem formed_of_open (h : c.open_ = true) : c.formed = true := by
  simp only [Coll.open_, Bool.and_eq_true] at h
  exact h.1.1

theorem not_open_of_unformed (h : c.formed = false) : c.open_ = false := by
  simp only [Coll.open_, h, Bool.false_and]

/-! ### Heartbeats and timeouts (21 R399 to R401) -/

section
variable {gid : BitVec 16} (hf : s.formed d gid = [c])
include hf

theorem exec_heartbeat : exec (.heartbeat d gid) s = .next { s with outbox := s.outbox ++
    (c.others.map fun o => Sent.message o.2.1 o.2.2 0x11 ⟨0, c.gid, c.epoch, BitVec.ofNat 16 c.rank, 0⟩ []) } := by
  simp only [exec, execHeartbeat, hf, List.foldl_cons, List.foldl_nil, sendMsg, List.filter_eq_self.mpr fun _ _ => rfl]
  rfl

theorem exec_memberLost {r : Nat} (ho : c.open_ = true) (hr : r < c.members.length) (hself : r ≠ c.rank) (hl : r ∉ c.lost)
    (hb : c.beat.getD r 0 + s.times.collTo * 1000000 ≤ s.ns) : exec (.memberLost d gid r) s =
      .next (propose (s.modColl d gid c.epoch fun x => { x with lost := x.lost ++ [r] }) d gid c.epoch 2) := by
  have hlost : (c.open_ && decide (r < c.members.length) && r != c.rank && !c.lost.contains r &&
      decide (c.beat.getD r 0 + s.times.collTo * 1000000 ≤ s.ns)) = true := by
    simp only [ho, hr, bne_iff_ne.mpr hself, List.contains_eq_mem, hl, hb, decide_true, decide_false, Bool.not_false, Bool.and_self]
  simp only [exec, execMemberLost, hf, List.foldl_cons, List.foldl_nil, hlost, if_true]

theorem exec_collectiveTimeout (ho : c.open_ = true) (hw : c.waits = true) :
    exec (.collectiveTimeout d gid) s = .next (propose s d gid c.epoch 1) := by
  simp [exec, execCollectiveTimeout, hf, ho, hw]

theorem exec_deciderUnreachable :
    exec (.deciderUnreachable d gid) s = .next (if c.cutOff s then collEnds s d c 2 else s) := by
  simp only [exec, execDeciderUnreachable, hf, List.foldl_cons, List.foldl_nil]

end

theorem cutOff_of_late {t0 : Nat} (ho : c.open_ = true) (hd : c.decides = false) (hp : c.proposed = some t0)
    (ht : t0 + s.times.collTo * 1000000 ≤ s.ns) : c.cutOff s = true := by
  simp [Coll.cutOff, ho, hd, hp, ht]

theorem not_cutOff (h : c.open_ = false ∨ c.decides = true ∨ c.proposed = none) : c.cutOff s = false := by
  rcases h with h | h | h <;> simp [Coll.cutOff, h]

end Sys2Proof.Machine
end

section
/-! PROOFS. The membership of collective groups (21 R395, R397, R399 to R401).
-/

namespace Sys2Proof

open Sys2Proof.Machine

/-- Settles O38: a message by the state of the group that it finds, a time-out on the one epoch that the die has formed. -/
theorem collectiveMembership : Obligations.CollectiveMembership := by
  unfold Obligations.CollectiveMembership
  intro s d
  refine ⟨fun m l u hu => ⟨fun hno => ?newForm, fun hold => ?oldForm⟩, fun m u hu => ?beat,
    fun m c2 n data c u ws v hu hws hv hc he hr hself hnew p t hp ht => ?post, fun m l h => postWords_unstaged h m l,
    fun m l i h => postWords_getElem? s d m h, fun m c u hu hc => ?abort, fun m c u hu hc => ?decide, fun gid c hf => ?formed,
    fun n j hj hk h0 hs => ?formTimeout⟩
  case newForm =>
    subst hu
    exact congrArg _ (if_neg (mt known_iff.mp fun ⟨c, hmem, hc⟩ => hno c hmem hc))
  case oldForm =>
    subst hu
    exact congrArg _ (if_pos (known_iff.mpr hold))
  case beat =>
    subst hu
    rfl
  case post =>
    have hrank : p.rank = m.rank.toNat := by rw [hp]
    have hseq : p.seq = m.seq.toNat := by rw [hp]
    have hcounts := counts_iff.mpr ⟨he, hrank ▸ hr, hrank ▸ hself, hrank ▸ hseq ▸ hnew⟩
    rw [exec_postMsg hc hu hws hv hp ht hcounts]
    refine ⟨fun hsame => congrArg _ (if_neg fun hdiff => ?_), fun hdiff => congrArg _ (if_pos (differs_iff.mpr hdiff))⟩
    obtain ⟨q, hq, hown, hnum, h⟩ := differs_iff.mp hdiff
    obtain ⟨h2, h3⟩ := hsame q hq hown hnum
    exact h.elim (· h2) (· h3)
  case abort =>
    subst hu
    rw [exec_abortMsg hc]
    refine ⟨fun ho hd => ?_, fun ho hd => ?_, fun hf he => ?_⟩
    · rw [ho, hd]
      rfl
    · rw [ho, hd, formed_of_open ho]
      rfl
    · rw [not_open_of_unformed hf, hf, he]
      rfl
  case decide =>
    subst hu
    rw [exec_decideMsg hc]
    refine ⟨fun ho => congrArg _ (if_pos ho), fun hf he => ?_⟩
    rw [not_open_of_unformed hf, hf, he]
    rfl
  case formed =>
    refine ⟨exec_heartbeat hf, fun r ho hr hself hl hb => exec_memberLost hf ho hr hself hl hb,
      fun ho hw => exec_collectiveTimeout hf ho hw, fun t0 ho hd hp ht => ?_, fun h => ?_⟩
    · rw [exec_deciderUnreachable hf, if_pos (cutOff_of_late ho hd hp ht)]
    · rw [exec_deciderUnreachable hf, if_neg (ne_true_of_eq_false (not_cutOff h))]
  case formTimeout => simp only [exec, execFormTimeout, hj, hk, h0, hs, and_self, if_true]

end Sys2Proof
end

section
/-! SUPPORT. The fabric (21 R390 to R394): inbound requests and their bytes, the tags of signals, completions and what a request that
fails does.
-/

namespace Sys2Proof.Machine

open Sys2Proof

variable {s : State} {src tag addr : Nat}

/-! ### Reads and writes (21 R391) -/

section
variable {n : Nat}

theorem exec_readRequest_done (hn : n = 64 ∨ n = 128 ∨ n = 256) (ha : addr % n = 0) (hh : addr + n ≤ 412316860416)
    (hp : s.anyPoison (hbmAddr addr) n = false) :
    exec (.readRequest src tag addr n) s = .next (send s (.readDone src tag true (s.bytes (hbmAddr addr) n))) := by
  have hok : ((n == 64 || n == 128 || n == 256) && addr % n == 0 && inHbm addr n && !s.anyPoison (hbmAddr addr) n) = true := by
    simp [hn, ha, inHbm, hh, hp, or_assoc]
  simp only [exec, execReadRequest, hok, if_true]

theorem exec_readRequest_fails (h : ¬(n = 64 ∨ n = 128 ∨ n = 256) ∨ addr % n ≠ 0) :
    exec (.readRequest src tag addr n) s = .next (send s (.readDone src tag false [])) := by
  have hok : ((n == 64 || n == 128 || n == 256) && addr % n == 0 && inHbm addr n && !s.anyPoison (hbmAddr addr) n) = false := by
    rcases h with h | h
    · simp [not_or.mp h, not_or.mp (not_or.mp h).2]
    · simp [h]
  simp only [exec, execReadRequest, hok, Bool.false_eq_true, if_false]

end

section
variable {bs : List Byte} {en : List Bool}

/-- The last of the enabled cells at an address of the run is its byte, where that is enabled. -/
theorem lastCell_enabled {i : Nat} (hi : i < bs.length) : ∀ {a : Nat} {en : List Bool},
    lastCell (enabled a bs en) (a + i) = if en.getD i false then some bs[i] else none := by
  induction bs generalizing i with
  | nil => exact absurd hi (Nat.not_lt_zero i)
  | cons b bs ih =>
    intro a en
    cases en with
    | nil => simp [enabled]
    | cons e en =>
      have hcons : enabled a (b :: bs) (e :: en) = (if e then [(a, b)] else []) ++ enabled (a + 1) bs en := by
        cases e <;> simp [enabled, hbmAddr, cellsAt_cons]
      rw [hcons, lastCell_append]
      cases i with
      | zero =>
        have hrest : lastCell (enabled (a + 1) bs en) (a + 0) = none := by
          refine lastCell_eq_none fun c hc => ?_
          obtain ⟨p, hp, hpc⟩ := List.mem_filterMap.mp hc
          have hmem := cellsAt_mem (List.of_mem_zip hp).1
          split at hpc
          · cases hpc
            rw [hbmAddr] at hmem
            omega
          · cases hpc
        rw [hrest]
        cases e <;> simp [lastCell]
      | succ i =>
        have hi' : i < bs.length := Nat.lt_of_succ_lt_succ hi
        have hfirst : lastCell (if e then [(a, b)] else []) (a + (i + 1)) = none := by
          cases e <;> simp [lastCell]
        rw [hfirst, Option.or_none, show a + (i + 1) = a + 1 + i by omega, ih hi']
        rfl

section
variable (hm : bs.length % 64 = 0) (hlo : 64 ≤ bs.length) (hhi : bs.length ≤ 256) (hen : en.length = bs.length)
  (ha : addr % 64 = 0) (hh : addr + bs.length ≤ 412316860416)
include hm hlo hhi hen ha hh

/-- A sound write request stores the bytes that it enables, and counts them for its tag. -/
theorem exec_writeRequest_done : exec (.writeRequest src tag addr bs en) s = .next
    (if tag = 0 then send (s.store (enabled addr bs en)) (.writeDone src tag true)
    else trySignal (modTag (openTag (send (s.store (enabled addr bs en)) (.writeDone src tag true)) src tag) src tag
      (·.count ((enabled addr bs en).map (·.1)))) src tag) := by
  have hin : inHbm addr bs.length = true := decide_eq_true hh
  simp only [exec, execWriteRequest, hm, hlo, hhi, hen, ha, hin, beq_self_eq_true, decide_true, Bool.and_self]

end

theorem exec_writeRequest_fails (h : bs.length % 64 ≠ 0 ∨ addr % 64 ≠ 0) :
    exec (.writeRequest src tag addr bs en) s = .next (send s (.writeDone src tag false)) := by
  have hok : (bs.length % 64 == 0 && decide (64 ≤ bs.length) && decide (bs.length ≤ 256) && en.length == bs.length &&
      addr % 64 == 0) = false := by
    rcases h with h | h <;> simp [h]
  simp only [exec, execWriteRequest, hok]

end

/-! ### Atomics (21 R391) -/

section
variable {op : FabAtom} {v c : Word}

theorem exec_atomicRequest_done (ho : op ≠ .other) (ha : addr % 4 = 0) (hh : addr + 4 ≤ 412316860416)
    (hp : s.anyPoison (hbmAddr addr) 4 = false) : exec (.atomicRequest src tag addr op v c) s = .next
      (send (s.store (valueAt (hbmAddr addr) 4 (fabNew op (s.word32 (hbmAddr addr)) v c).toNat))
        (.atomicDone src tag true (s.word32 (hbmAddr addr)))) := by
  have hok : (op != .other && addr % 4 == 0 && inHbm addr 4 && !s.anyPoison (hbmAddr addr) 4) = true := by
    simp [ho, ha, inHbm, hh, hp]
  simp only [exec, execAtomicRequest, hok, if_true]

theorem exec_atomicRequest_fails (h : op = .other ∨ addr % 4 ≠ 0) :
    exec (.atomicRequest src tag addr op v c) s = .next (send s (.atomicDone src tag false 0)) := by
  have hok : (op != .other && addr % 4 == 0 && inHbm addr 4 && !s.anyPoison (hbmAddr addr) 4) = false := by
    rcases h with h | h <;> simp [h]
  simp only [exec, execAtomicRequest, hok, Bool.false_eq_true, if_false]

end

/-! ### Signals (21 R394) -/

section
variable {t : SigTag} {n : Nat}

/-- A tag that is open is not opened again. -/
theorem openTag_of_found (h : s.sigTags.find? (fun t => t.src == src && t.tag == tag) = some t) : openTag s src tag = s :=
  if_pos (List.any_eq_true.mpr ⟨t, List.mem_of_find?_eq_some h, List.find?_some h⟩)

theorem find?_only (hs : s.sigTags = [t]) (h1 : t.src = src) (h2 : t.tag = tag) :
    s.sigTags.find? (fun t => t.src == src && t.tag == tag) = some t := by
  rw [hs, List.find?_cons_of_pos (by simp [h1, h2])]

theorem find?_put (h1 : t.src = src) (h2 : t.tag = tag) :
    { s with sigTags := [t] }.sigTags.find? (fun t => t.src == src && t.tag == tag) = some t := find?_only rfl h1 h2

/-- A change of the only tag. -/
theorem modTag_only (hs : s.sigTags = [t]) (h1 : t.src = src) (h2 : t.tag = tag) (f : SigTag → SigTag) :
    modTag s src tag f = { s with sigTags := [f t] } := by
  simp only [modTag, hs, List.map_cons, List.map_nil, h1, h2, beq_self_eq_true, Bool.and_self, if_true]

section
variable (h : s.sigTags.find? (fun t => t.src == src && t.tag == tag) = some t)
include h

/-- Until its trailer comes a tag only counts. -/
theorem trySignal_unwanted (hw : t.want = none) : trySignal s src tag = s := by
  simp only [trySignal, h, hw]

/-- A trailer waits for all the bytes. -/
theorem trySignal_waits (hw : t.want = some n) (hn : t.got < n) : trySignal s src tag = s := by
  simp only [trySignal, h, hw, decide_eq_true hn, Bool.or_true, if_true]

/-- When all has come the word is added to, once. -/
theorem trySignal_adds (hw : t.want = some n) (hadd : t.added = false) (hn : n ≤ t.got) (ha : t.addr % 4 = 0)
    (hh : t.addr + 4 ≤ 412316860416) (hp : s.anyPoison (hbmAddr t.addr) 4 = false) : trySignal s src tag =
      send { s.store (valueAt (hbmAddr t.addr) 4 ((s.load (hbmAddr t.addr) 4 + 1) % 2 ^ 32)) with
        sigTags := s.sigTags.map fun x => if x.src == src && x.tag == tag then { x with added := true } else x }
        (.trailerDone src tag true) := by
  have hopen : (t.added || decide (t.got < n)) = false := by simp [hadd, hn]
  have hok : t.addr % 4 = 0 ∧ inHbm t.addr 4 = true ∧ s.anyPoison (hbmAddr t.addr) 4 = false := ⟨ha, decide_eq_true hh, hp⟩
  simp only [trySignal, h, hw, hopen, hok, Bool.false_eq_true, if_false, if_true, and_self, State.store_sigTags]

/-- A tag that has added acknowledges its trailer again. -/
theorem exec_signal_again (hadd : t.added = true) :
    exec (.signal src tag n addr) s = .next (send s (.trailerDone src tag true)) := by
  simp only [exec, execSignal, openTag_of_found h, h, hadd, if_true]

/-- A trailer leaves its word and its count, and the add is made if all has come. -/
theorem exec_signal (hadd : t.added = false) : exec (.signal src tag n addr) s =
    .next (trySignal (modTag s src tag fun t => { t with addr := addr, want := some n }) src tag) := by
  simp only [exec, execSignal, openTag_of_found h, h, hadd, Bool.false_eq_true, if_false]

theorem exec_signalTagTimeout (hw : t.want = some n) (hadd : t.added = false) : exec (.signalTagTimeout src tag) s =
    .next (send { s with sigTags := s.sigTags.erase t } (.trailerDone src tag false)) := by
  simp only [exec, execSignalTagTimeout, h, hw, hadd, Option.isSome_some, Bool.not_false, Bool.and_self, if_true]

end

/-- The word that a signal adds to holds one more. -/
theorem word32_store_succ (hm : s.mem.wf = true) (a : Nat) :
    (s.store (valueAt a 4 ((s.load a 4 + 1) % 2 ^ 32))).word32 a = s.word32 a + 1 := by
  rw [State.word32, State.load_store_same hm, State.word32]
  exact BitVec.eq_of_toNat_eq (by simp [BitVec.toNat_add])

end

/-! ### Completions (21 R391, R393) -/

section
variable {q : Req} {fits : ReqKind → Bool} {f : ReqKind → Eng → Eng} (hq : s.req? q.id = some q)
include hq

/-- On success the request is done, and the operation that waits for it goes on. -/
theorem reqCompletes_done (hf : fits q.kind = true) : reqCompletes s q.id fits true f =
    if awaits s q then (dropReq s q.id).modEng q.who fun e => { f q.kind e with susp := .none } else dropReq s q.id := by
  simp only [reqCompletes, hq, hf, Bool.not_true, Bool.false_eq_true, if_false]
  rfl

theorem reqCompletes_failed (hf : fits q.kind = true) : reqCompletes s q.id fits false f = reqFails s q := by
  simp only [reqCompletes, hq, hf, Bool.not_true, Bool.not_false, Bool.false_eq_true, if_false, if_true]

section
variable {a : Nat} {bs : List Byte}

theorem exec_readCompletion (hk : q.kind = .read a bs.length) : exec (.readCompletion q.id true bs) s = .next
    (if awaits s q then (dropReq s q.id).modEng q.who fun e => { e with got := e.got ++ cellsAt a bs, susp := .none }
    else dropReq s q.id) := by
  refine congrArg _ ((reqCompletes_done hq ?_).trans ?_)
  · simp only [hk, beq_self_eq_true, Bool.true_or]
  · simp only [hk]

end

theorem exec_readCompletion_failed {a n : Nat} (hk : q.kind = .read a n) (bs : List Byte) :
    exec (.readCompletion q.id false bs) s = .next (reqFails s q) :=
  congrArg _ (reqCompletes_failed hq (by simp only [hk, Bool.not_false, Bool.or_true]))

section
variable {t : Nat} {l : List (Nat × Byte)} (hk : q.kind = .write t l)
include hk

theorem exec_writeCompletion (hw : awaits s q = true) : exec (.writeCompletion q.id true) s = .next
    ((dropReq s q.id).modEng q.who fun e => { e with
      out := e.out.filter fun c => !l.contains c
      got := if (e.out.filter fun c => !l.contains c) = [] then [] else e.got
      acked := (if t = 0 then [] else (l.map (·.1)).eraseDups.filter fun a => !e.acked.contains a) ++ e.acked
      susp := .none }) := by
  refine congrArg _ ((reqCompletes_done hq ?_).trans ((if_pos hw).trans ?_))
  · simp only [hk]
  · simp only [hk, List.isEmpty_iff]

theorem exec_writeCompletion_failed : exec (.writeCompletion q.id false) s = .next (reqFails s q) :=
  congrArg _ (reqCompletes_failed hq (by simp only [hk]))

end

section
variable {op : AtomOp} {a : Nat} {v : Word} (hk : q.kind = .atomic op a v) (old : Word)
include hk

theorem exec_atomicCompletion (hw : awaits s q = true) : exec (.atomicCompletion q.id true old) s = .next
    ((dropReq s q.id).modEng q.who fun e => { e with got := e.got ++ cellsAt a (leBytes 4 old.toNat), susp := .none }) := by
  refine congrArg _ ((reqCompletes_done hq ?_).trans ((if_pos hw).trans ?_))
  · simp only [hk]
  · simp only [hk]

theorem exec_atomicCompletion_failed : exec (.atomicCompletion q.id false old) s = .next (reqFails s q) :=
  congrArg _ (reqCompletes_failed hq (by simp only [hk]))

end

/-! ### Time-outs (21 R393) -/

theorem exec_fabricRequestTimeout : exec (.fabricRequestTimeout q.id) s = .next (resendOrFail s q) := by
  simp only [exec, execFabricRequestTimeout, hq]

end

section
variable {q : Req}

theorem resendOrFail_resends {p : Nat} (hr : q.resent = false)
    (hp : otherPort (portsTo s (EngRef.die q.who) q.dev) q.port q.kind.addr = some p) (hu : portUp s p = true) :
    resendOrFail s q = send { s with
      reqs := s.reqs.map fun x => if x.id == q.id then { x with port := p, resent := true } else x }
        (.request q.id q.dev p q.kind) := by
  simp only [resendOrFail, hr, hp, hu, Bool.false_eq_true, if_false, if_true]

theorem resendOrFail_fails (h : q.resent = true ∨
    ∀ p, otherPort (portsTo s (EngRef.die q.who) q.dev) q.port q.kind.addr = some p → portUp s p = false) :
    resendOrFail s q = reqFails s q := by
  unfold resendOrFail
  split
  · rfl
  · next hr =>
    have hdown := h.resolve_left hr
    split
    · rfl
    · next p hp => rw [if_neg (ne_true_of_eq_false (hdown p hp))]

end

end Sys2Proof.Machine
end

section
/-! PROOFS. The fabric (21 R390 to R394).
-/

namespace Sys2Proof

open Sys2Proof.Machine

/-- Settles O39: a request by whether it keeps the rules, a signal by what its tag has had. -/
theorem fabricRequests : Obligations.FabricRequests := by
  unfold Obligations.FabricRequests
  intro s src tag addr
  refine ⟨fun n hn ha hh hp => exec_readRequest_done hn ha hh hp, fun n h => exec_readRequest_fails h,
    fun bs en hm hlo hhi hen ha hh => ⟨?plain, fun t h0 hs h1 h2 hw => ?tagged⟩, fun bs en h => exec_writeRequest_fails h,
    fun op v c ho ha hh hp => exec_atomicRequest_done ho ha hh hp, fun op v c h => exec_atomicRequest_fails h,
    fun n t h hadd => exec_signal_again h hadd, fun n t hs h1 h2 hadd hn ha hh hp => ?adds,
    fun n t hs h1 h2 hadd hn => ?waits, fun t n h hw hadd => exec_signalTagTimeout h hw hadd⟩
  case plain =>
    refine ⟨_, (exec_writeRequest_done hm hlo hhi hen ha hh).trans (congrArg _ (if_pos rfl)), rfl, rfl, fun hwf i hi => ?_⟩
    refine (State.byte_store hwf (enabled addr bs en) (addr + i)).trans ?_
    rw [lastCell_enabled hi, getD_of_lt hi]
    split <;> rfl
  case tagged =>
    rw [exec_writeRequest_done hm hlo hhi hen ha hh, if_neg h0]
    have hs' : (send (s.store (enabled addr bs en)) (.writeDone src tag true)).sigTags = [t] := hs
    rw [openTag_of_found (find?_only hs' h1 h2), modTag_only hs' h1 h2,
      trySignal_unwanted (find?_put (t := t.count ((enabled addr bs en).map (·.1))) h1 h2) hw]
    rfl
  case adds =>
    rw [exec_signal (find?_only hs h1 h2) hadd, modTag_only hs h1 h2,
      trySignal_adds (find?_put (t := { t with addr := addr, want := some n }) h1 h2) rfl hadd hn ha hh hp]
    refine ⟨_, rfl, rfl, fun x hx => ?_, fun hwf => word32_store_succ hwf (hbmAddr addr)⟩
    simp only [send, List.map_cons, List.map_nil, h1, h2, beq_self_eq_true, Bool.and_self, if_true, List.mem_singleton] at hx
    rw [hx]
  case waits =>
    rw [exec_signal (find?_only hs h1 h2) hadd, modTag_only hs h1 h2,
      trySignal_waits (find?_put (t := { t with addr := addr, want := some n }) h1 h2) rfl hn]

/-- Settles O40: a completion by its request's kind and by whether the operation still waits, a time-out by the other ports. -/
theorem fabricCompletions : Obligations.FabricCompletions := by
  unfold Obligations.FabricCompletions
  intro s q hq
  refine ⟨fun hw => ⟨fun a bs hk => ?read, fun tag l hk => exec_writeCompletion hq hk hw,
      fun op a v old hk => exec_atomicCompletion hq hk old hw, fun body a n c y hk hwho hy => ?trailer⟩,
    fun a bs hk hw => ?late, fun a n bs hk => exec_readCompletion_failed hq hk bs, fun tag l hk => exec_writeCompletion_failed hq hk,
    fun op a v old hk => exec_atomicCompletion_failed hq hk old, fun body a n c i hk hwho => ?trailerFails,
    fun p hr hp hu => ?resent, fun h => ?fails, fun p n hp hn h12 => ?lanes, fun p hp h0 => ?down, fun p n hp hn h => ?up⟩
  case read => rw [exec_readCompletion hq hk, if_pos hw]
  case late => rw [exec_readCompletion hq hk, if_neg (ne_true_of_eq_false hw)]
  case trailer => simp only [exec, execTrailerCompletion, hq, hk, hwho, hw, Bool.not_true, Bool.false_eq_true, if_false, if_true]
  case trailerFails => simp only [exec, execTrailerCompletion, hq, hk, hwho, Bool.not_false, if_true]
  case resent => rw [exec_fabricRequestTimeout hq, resendOrFail_resends hr hp hu]; rfl
  case fails => rw [exec_fabricRequestTimeout hq, resendOrFail_fails h]
  case lanes => exact congrArg _ ((if_pos ⟨hp, hn, by omega⟩).trans (if_neg (by omega)))
  case down => exact congrArg _ ((if_pos ⟨hp, h0, by omega⟩).trans (if_pos rfl))
  case up => exact congrArg _ (if_pos ⟨hp, hn, h⟩)

end Sys2Proof
end

section
/-! SUPPORT. The host and the platform (18 R382; 24 R422, R423, R426; 25 R429 to R437): which register stands at an offset, the host's
accesses, how energy is charged, the end of every launch at a shutdown, the fields of an image.
-/

namespace Sys2Proof.Machine

open Sys2Proof

variable {s : State}

/-! ### Registers (25 R429, R433) -/

theorem regAt_misaligned {off : Nat} (h : off % 4 ≠ 0) : regAt off = .none := if_pos h

/-- The registers of a queue lie 64 bytes apart. -/
theorem regAt_queue {n o : Nat} (hn : n < 32) (ho : o < 64) (h4 : o % 4 = 0) : regAt (0x1000 + 64 * n + o) = queueReg n o := by
  have hblock : (0x1000 + 64 * n + o - 0x1000) / 64 = n := by omega
  have hoff : (0x1000 + 64 * n + o) % 64 = o := by omega
  rw [regAt, if_neg (by omega), if_neg (by omega), if_pos (by omega), hblock, hoff]

theorem readReg_queue {n o : Nat} {q : Queue} (hn : n < 32) (ho : o < 64) (hq : s.queues[n]? = some q) :
    readReg s (0x1000 + 64 * n + o) = readQueue q o := by
  have hblock : (0x1000 + 64 * n + o - 0x1000) / 64 = n := by omega
  have hoff : (0x1000 + 64 * n + o) % 64 = o := by omega
  rw [readReg, if_neg (by omega), if_pos (by omega), hblock, hoff, hq]
  rfl

theorem regAt_pwrCap : regAt 0x30000F0 = .pwrCap := by decide

theorem regAt_devStat : regAt 0x3000000 = .none := by decide

theorem readReg_devStat (s : State) : readReg s 0x3000000 = word s.plat.devStat := by
  rw [readReg, if_neg (by decide), if_neg (by decide), if_neg (by decide), if_neg (by decide), if_pos (by decide)]
  rfl

section
variable {sec : Bool} {off : Nat} {v : Word}

theorem exec_registerWrite_refused (h : (regAt off).guarded s = true) :
    exec (.registerWrite false off v) s = .next (refuseHost s) := if_pos (by rw [h]; rfl)

/-- PWRCAP and an offset of no register are written plainly, whatever the world. -/
theorem exec_registerWrite_open {r : HostReg} (hr : regAt off = r) (hg : r.guarded s = false)
    (hp : r = .pwrCap ∨ r = .none) : exec (.registerWrite sec off v) s = .next (writePlain s sec r v) := by
  have hopen : ¬(!sec && (regAt off).guarded s) = true := by rw [hr, hg, Bool.and_false]; exact Bool.false_ne_true
  refine (if_neg hopen).trans ?_
  rw [hr]
  rcases hp with rfl | rfl <;> rfl

theorem exec_registerWrite_tail {n : Nat} (hr : regAt off = .tail n)
    (hg : sec = true ∨ (HostReg.tail n).guarded s = false) :
    exec (.registerWrite sec off v) s = execDoorbell n v.toNat s := by
  have hopen : ¬(!sec && (regAt off).guarded s) = true := by
    rw [hr]
    rcases hg with rfl | hg
    · exact Bool.false_ne_true
    · rw [hg, Bool.and_false]; exact Bool.false_ne_true
  refine (if_neg hopen).trans ?_
  rw [hr]

end

/-! ### The host's accesses (25 R429, R431, R433) -/

section
variable {sec : Bool} {off : Nat}

/-- From 2^61 on a read is of the register aperture. -/
theorem exec_hostMemoryAccess_read (h : off + 4 ≤ 2 ^ 26) :
    exec (.hostMemoryAccess sec false (2 ^ 61 + off) 4 []) s = hostRegister sec false off 4 [] s := by
  have hap : 2 ^ 61 ≤ 2 ^ 61 + off ∧ 2 ^ 61 + off + (if false = true then ([] : List Byte).length else 4) ≤ 2 ^ 61 + 2 ^ 26 :=
    ⟨Nat.le_add_right _ _, by rw [if_neg Bool.false_ne_true]; omega⟩
  refine (if_pos hap).trans ?_
  rw [Nat.add_sub_cancel_left]

theorem exec_hostMemoryAccess_write {bs : List Byte} (hb : bs.length = 4) (h : off + 4 ≤ 2 ^ 26) :
    exec (.hostMemoryAccess sec true (2 ^ 61 + off) 0 bs) s = execRegisterWrite sec off (word (leNat bs)) s := by
  have hap : 2 ^ 61 ≤ 2 ^ 61 + off ∧ 2 ^ 61 + off + (if true = true then bs.length else 0) ≤ 2 ^ 61 + 2 ^ 26 :=
    ⟨Nat.le_add_right _ _, by rw [if_pos rfl]; omega⟩
  refine (if_pos hap).trans ?_
  rw [Nat.add_sub_cancel_left, hostRegister, if_pos rfl, if_pos hb]

theorem hostRegister_misaligned (h : off % 4 ≠ 0) :
    hostRegister sec false off 4 [] s = .next (send s (.hostRead false (List.replicate 4 0xFF#8))) := by
  rw [hostRegister, if_neg Bool.false_ne_true, if_pos (.inr h)]

theorem hostRegister_refused (h4 : off % 4 = 0) (h : (regAt off).guarded s = true) :
    hostRegister false false off 4 [] s = .next (send (refuseHost s) (.hostRead false (List.replicate 4 0xFF#8))) := by
  rw [hostRegister, if_neg Bool.false_ne_true, if_neg (by omega), if_pos (by rw [h]; rfl)]

theorem hostRegister_read (h4 : off % 4 = 0) (h : sec = true ∨ (regAt off).guarded s = false) :
    hostRegister sec false off 4 [] s = .next (send s (.hostRead true (leBytes 4 (readReg s off).toNat))) := by
  have hopen : ¬(!sec && (regAt off).guarded s) = true := by
    rcases h with rfl | h
    · exact Bool.false_ne_true
    · rw [h, Bool.and_false]; exact Bool.false_ne_true
  rw [hostRegister, if_neg Bool.false_ne_true, if_neg (by omega), if_neg hopen]

end

section
variable {addr n : Nat} {bs : List Byte} {sec : Bool}

/-- An access to main memory lies below the other apertures. -/
theorem exec_hostMemoryAccess_hbm {write : Bool} (h : addr + (if write then bs.length else n) ≤ 412316860416) :
    exec (.hostMemoryAccess sec write addr n bs) s = .next
      (if !sec && secureHbm s addr (if write then bs.length else n) then
        (if write then refuseHost s else
          send (refuseHost s) (.hostRead false (List.replicate (if write then bs.length else n) 0xFF#8)))
      else if write then s.store (cellsAt addr bs)
      else if s.anyPoison addr (if write then bs.length else n) then send s (.hostRead false [])
      else send s (.hostRead true (s.bytes addr (if write then bs.length else n)))) := by
  have hlow : addr < 2 ^ 60 := by omega
  have hap : ¬(2 ^ 61 ≤ addr ∧ addr + (if write then bs.length else n) ≤ 2 ^ 61 + 2 ^ 26) := fun h => by omega
  have hin : inHbm addr (if write then bs.length else n) = true := decide_eq_true h
  have hreach : (!hostReach addr (if write then bs.length else n)) = false := by rw [hostReach, hin, Bool.or_true, Bool.not_true]
  have hflat : hostFlat addr = addr := if_neg (Nat.not_le.mpr hlow)
  simp only [exec, execHostMemoryAccess, hap, hreach, hflat, hlow, decide_true, Bool.and_true, Bool.false_eq_true, if_false]

end

/-! ### Energy (24 R426) -/

theorem State.setGrid_setGrid (s : State) (g : Grid) : (s.setGrid g).setGrid g = s.setGrid g := by
  simp only [State.setGrid, List.map_map]
  congr 2
  funext x
  by_cases hx : x.corr = g.corr <;> simp [hx]

/-- To charge nothing to a launch that has been charged changes nothing. -/
theorem charge_charge_zero (s : State) (corr e : Nat) : charge (charge s corr e) corr 0 = charge s corr e := by
  cases hg : s.grid? corr with
  | none => simp only [charge, State.modGrid, hg]
  | some g =>
    have hc : g.corr = corr := eq_of_beq (List.find?_some (p := fun x : Grid => x.corr == corr) hg)
    subst hc
    have hput : (s.setGrid { g with energy := g.energy + e }).grid? g.corr = some { g with energy := g.energy + e } :=
      State.setGrid_same (gr := { g with energy := g.energy + e }) hg
    simp only [charge, State.modGrid, hg, hput, Nat.add_zero]
    exact State.setGrid_setGrid ..

/-- A single sharer takes all. -/
theorem shareOut_single (s : State) (e corr : Nat) {w : Nat} (hw : w ≠ 0) : shareOut s e [(corr, w)] = charge s corr e := by
  simp [shareOut, lowestShare, Nat.mul_div_cancel _ (Nat.pos_of_ne_zero hw), charge_charge_zero]

theorem coreSharers_single {corr w c : Nat} (hw : w ≠ 0) : coreSharers [⟨0, corr, w, c⟩] 0 = [(corr, w)] := by
  simp [coreSharers, hw]

theorem poolSharers_single {corr w c : Nat} (hc : c ≠ 0) : poolSharers [⟨0, corr, w, c⟩] = [(corr, c)] := by
  simp [poolSharers, hc, List.eraseDups_cons]

/-! ### Lost units (18 R382) -/

theorem exec_unitLoss {u : LostUnit} (he : unitExists u = true) (hl : u ∉ s.lost) : exec (.unitLoss u) s = .next
    { s with lost := s.lost ++ [u], plat := { s.plat with devStat := 5, devLoss := Config.lossName u } } := by
  simp only [exec, execUnitLoss, he, List.contains_eq_mem, hl, decide_false, Bool.false_eq_true, if_false, if_true]
  rfl

/-! ### Power (25 R436) -/

theorem overLimit_iff : overLimit s = true ↔ s.plat.pwrCap * 1000 < ((s.dies.flatMap (·.sample)).map (·.nJ.toNat)).sum ∨
    ∃ r ∈ s.dies.flatMap (·.sample), (s.plat.juncLim : Int) < r.temp.toInt := by
  simp only [overLimit, Bool.or_eq_true, decide_eq_true_eq, List.any_eq_true, List.sum_eq_foldl_nat, List.foldl_map]

/-! ### Shutdown (25 R436) -/

/-- A launch whose end is decided. -/
def Decided (g : Grid) : Prop := g.final.isSome = true ∨ g.phase = .completed

theorem State.setGrid_corrs (s : State) (g : Grid) : (s.setGrid g).grids.map (·.corr) = s.grids.map (·.corr) := by
  simp only [State.setGrid, List.map_map]
  congr 1
  funext x
  by_cases hx : x.corr = g.corr <;> simp [hx]

theorem endGrid_corrs (s : State) (corr : Nat) (f : Final) :
    (endGrid s corr f).grids.map (·.corr) = s.grids.map (·.corr) := by
  unfold endGrid
  split
  · split
    · split
      · exact State.setGrid_corrs ..
      · rfl
    · split
      · rfl
      · exact State.setGrid_corrs ..
  · rfl

/-- A launch that stands after one has been put is that one, or another of before. -/
theorem State.mem_setGrid {g x : Grid} (h : x ∈ (s.setGrid g).grids) : x = g ∨ (x.corr ≠ g.corr ∧ x ∈ s.grids) := by
  obtain ⟨y, hy, rfl⟩ := List.mem_map.mp h
  by_cases hc : y.corr = g.corr
  · exact .inl (if_pos (by simpa using hc))
  · simp only [beq_iff_eq, hc, if_false]
    exact .inr ⟨hc, hy⟩

/-- Elements whose images differ are found by their image. -/
theorem eq_of_nodup_map {α β : Type} {f : α → β} {l : List α} {x y : α} (hn : (l.map f).Nodup) (hx : x ∈ l) (hy : y ∈ l)
    (h : f x = f y) : x = y := by
  induction l with
  | nil => cases hx
  | cons a l ih =>
    obtain ⟨ha, hl⟩ := List.nodup_cons.mp hn
    rcases List.mem_cons.mp hx with hxa | hxl <;> rcases List.mem_cons.mp hy with hya | hyl
    · exact hxa.trans hya.symm
    · exact absurd (hxa ▸ h ▸ List.mem_map_of_mem hyl) ha
    · exact absurd (hya ▸ h ▸ List.mem_map_of_mem hxl) ha
    · exact ih hl hxl hyl

/-- Where the numbers differ, the launch of a number is the one found under it. -/
theorem State.grid?_unique {g x : Grid} {corr : Nat} (hn : (s.grids.map (·.corr)).Nodup) (hg : s.grid? corr = some g)
    (hx : x ∈ s.grids) (hc : x.corr = corr) : x = g :=
  eq_of_nodup_map hn hx (List.mem_of_find?_eq_some hg)
    (hc.trans (eq_of_beq (List.find?_some (p := fun x : Grid => x.corr == corr) hg)).symm)

/-- An end decides the launch of its number and leaves the others. -/
theorem mem_endGrid {corr : Nat} {f : Final} {x : Grid} (hn : (s.grids.map (·.corr)).Nodup)
    (h : x ∈ (endGrid s corr f).grids) : Decided x ∨ (x.corr ≠ corr ∧ x ∈ s.grids) := by
  have hput {g y : Grid} (hg : s.grid? corr = some g) (hy : Decided y) (hc : y.corr = g.corr)
      (hx : x ∈ (s.setGrid y).grids) : Decided x ∨ (x.corr ≠ corr ∧ x ∈ s.grids) := by
    have hcorr : g.corr = corr := eq_of_beq (List.find?_some (p := fun x : Grid => x.corr == corr) hg)
    rcases State.mem_setGrid hx with rfl | ⟨hne, hmem⟩
    · exact .inl hy
    · exact .inr ⟨hcorr ▸ hc ▸ hne, hmem⟩
  have hkept {g : Grid} (hg : s.grid? corr = some g) (hd : Decided g) (hx : x ∈ s.grids) :
      Decided x ∨ (x.corr ≠ corr ∧ x ∈ s.grids) := by
    by_cases hc : x.corr = corr
    · exact .inl (State.grid?_unique hn hg hx hc ▸ hd)
    · exact .inr ⟨hc, hx⟩
  unfold endGrid at h
  split at h
  · next g hg =>
    split at h
    · next f0 hf =>
      have hd : Decided g := .inl (by rw [hf]; rfl)
      split at h
      · exact hput (y := { g with final := some f }) hg (.inl rfl) rfl h
      · exact hkept hg hd h
    · split at h
      · next hp => exact hkept hg (.inr (eq_of_beq hp)) h
      · exact hput (y := { g with phase := .ending, final := some f, saved := [], walkers := [] }) hg (.inl rfl) rfl h
  · next hg =>
    exact .inr ⟨fun hc => List.find?_eq_none.mp hg x h (beq_iff_eq.mpr hc), h⟩

/-- A cancellation of every number of a list decides the launches of those numbers. -/
theorem mem_foldl_cancelGrid {x : Grid} (l : List Nat) : ∀ {s : State}, (s.grids.map (·.corr)).Nodup →
    x ∈ (l.foldl cancelGrid s).grids → Decided x ∨ (x.corr ∉ l ∧ x ∈ s.grids) := by
  induction l with
  | nil => exact fun _ h => .inr ⟨List.not_mem_nil, h⟩
  | cons c l ih =>
    intro s hn h
    have hn' : ((cancelGrid s c).grids.map (·.corr)).Nodup := by rw [cancelGrid, endGrid_corrs]; exact hn
    rcases ih hn' h with hd | ⟨hl, hmem⟩
    · exact .inl hd
    · rcases mem_endGrid hn hmem with hd | ⟨hc, hs⟩
      · exact .inl hd
      · exact .inr ⟨List.not_mem_cons_of_ne_of_not_mem hc hl, hs⟩

/-! ### Firmware (25 R434) -/

theorem leNat_lt (l : List Byte) : leNat l < 256 ^ l.length := by
  induction l with
  | nil => exact Nat.one_pos
  | cons b l ih =>
    have hb : b.toNat < 256 := b.isLt
    rw [leNat, List.length_cons, Nat.pow_succ]
    omega

theorem fieldAt_lt (bs : List Byte) (o n : Nat) : fieldAt bs o n < 256 ^ n :=
  Nat.lt_of_lt_of_le (leNat_lt _) (Nat.pow_le_pow_right (by decide) (List.length_take_le ..))

/-- An image raises the fuses to its level, and never lowers them. -/
theorem runImage_fuseLevel (s : State) (b : List Byte) :
    (runImage s b).plat.fuseLevel.toNat = max s.plat.fuseLevel.toNat (fieldAt b 8 4) := by
  have hlt : max s.plat.fuseLevel.toNat (fieldAt b 8 4) < 2 ^ 32 := Nat.max_lt.mpr ⟨s.plat.fuseLevel.isLt, fieldAt_lt b 8 4⟩
  exact (BitVec.toNat_ofNat ..).trans (Nat.mod_eq_of_lt hlt)

theorem runImage_poison (s : State) (b : List Byte) : ∀ a ∈ (runImage s b).poison, foreign a = true :=
  fun _ ha => (List.mem_filter.mp ha).2

theorem runImage_devStat (s : State) (b : List Byte) : (runImage s b).plat.devStat = if s.lost = [] then 4 else 5 := by
  simp only [← List.isEmpty_iff]
  rfl

end Sys2Proof.Machine
end

section
/-! PROOFS. The steps of the host and of the platform (18 R380, R382; 24 R422, R423, R426; 25 R429 to R437).
-/

namespace Sys2Proof

open Sys2Proof.Machine

/-- Settles O43: an access by the register or the memory at its address, a power step by the limits, a shutdown by induction on the
launches, an image by its checks. -/
theorem platformEvents : Obligations.PlatformEvents := by
  unfold Obligations.PlatformEvents
  intro s
  refine ⟨congrArg _ (if_pos ⟨rfl, show (0#32) ≠ 1 by decide⟩), fun h => congrArg _ (if_pos h), fun v => ?cap,
    fun v => exec_registerWrite_open regAt_pwrCap rfl (.inl rfl),
    fun off v h => exec_registerWrite_open (regAt_misaligned h) rfl (.inr rfl), fun n q v hq hs hn => ?tailRefused,
    fun n q v sec hq hs hn => ?tail, fun sec off hoff h4 => ?misaligned, fun n q hq hn => ?head, fun sec => ?devStat,
    fun sec off bs hb hoff h4 => exec_hostMemoryAccess_write hb (by omega), fun d rails ht hr => ?records,
    fun d rails ht hr => ?noRecords, fun n r p hm => ?idle, fun e g w c hw hc hm => ?shared, rfl,
    fun n hn hl => exec_unitLoss (decide_eq_true hn) hl, fun sec addr bs ha hs => ?hostWrite, fun addr n h0 ha hs => ?hostRefused,
    overLimit_iff, fun ho hc => ?down, fun ho hc => ?up, fun up ho => ?still, fun hn => ?shutdown, rfl,
    fun b h => congrArg _ (if_neg (by rw [h]; decide)), fun b h => ?image⟩
  case cap =>
    rw [exec_registerWrite_open regAt_pwrCap rfl (.inl rfl)]
    simp only [writePlain, true_and]
    rfl
  case tailRefused =>
    have hr : regAt (0x1000 + 64 * n) = .tail n := regAt_queue (o := 0) hn (by decide) rfl
    refine exec_registerWrite_refused ?_
    rw [hr]
    simp only [HostReg.guarded, hq, Option.map_some, Option.getD_some, hs]
  case tail =>
    have hr : regAt (0x1000 + 64 * n) = .tail n := regAt_queue (o := 0) hn (by decide) rfl
    rw [exec_registerWrite_tail hr]
    · simp only [execDoorbell, hq]
    · simpa only [HostReg.guarded, hq, Option.map_some, Option.getD_some] using hs
  case misaligned => rw [exec_hostMemoryAccess_read hoff, hostRegister_misaligned h4]; rfl
  case head =>
    have hr : regAt (0x1000 + 64 * n + 4) = .head n := regAt_queue hn (by decide) rfl
    have hguard : (regAt (0x1000 + 64 * n + 4)).guarded s = q.secure := by
      rw [hr]
      simp only [HostReg.guarded, hq, Option.map_some, Option.getD_some]
    have haddr : 2 ^ 61 + 0x1000 + 64 * n + 4 = 2 ^ 61 + (0x1000 + 64 * n + 4) := by omega
    rw [haddr]
    refine ⟨fun hs => ?_, fun sec hs => ?_⟩
    · rw [exec_hostMemoryAccess_read (by omega), hostRegister_refused (by omega) (hguard.trans hs)]
      rfl
    · rw [exec_hostMemoryAccess_read (by omega), hostRegister_read (by omega) (hguard ▸ hs), readReg_queue hn (by decide) hq]
      rfl
  case devStat =>
    rw [exec_hostMemoryAccess_read (by decide), hostRegister_read (by decide) (.inr (by rw [regAt_devStat]; rfl)), readReg_devStat]
    rfl
  case records =>
    have ht' : ((s.modDie d fun x => { x with sample := rails }).die d).trCtl / 2 % 2 = 1 := by
      rw [State.die_modDie_keeps (v := Die.trCtl) (by intros; rfl), ht]
    exact congrArg _ ((if_pos hr).trans (if_pos ht'))
  case noRecords =>
    have ht' : ((s.modDie d fun x => { x with sample := rails }).die d).trCtl / 2 % 2 ≠ 1 := by
      rw [State.die_modDie_keeps (v := Die.trCtl) (by intros; rfl), ht]
      decide
    exact congrArg _ ((if_pos hr).trans (if_neg ht'))
  case idle =>
    have hcore : coreSharers [] 0 = [] := rfl
    have hpool : poolSharers [] = [] := rfl
    simp only [exec, execEnergyShare, hm, List.zipIdx_cons, List.zipIdx_nil, List.foldl_cons, List.foldl_nil, hcore, hpool,
      List.isEmpty_nil, if_true]
    rfl
  case shared =>
    simp only [exec, execEnergyShare, hm, List.zipIdx_cons, List.zipIdx_nil, List.foldl_cons, List.foldl_nil,
      coreSharers_single hw, poolSharers_single hc, List.isEmpty_cons, Bool.false_eq_true, if_false, shareOut_single _ _ _ hw,
      shareOut_single _ _ _ hc, charge_charge_zero, Nat.add_zero]
    rfl
  case hostWrite =>
    have hopen : ¬(!sec && secureHbm s addr bs.length) = true := by
      rcases hs with rfl | hs
      · exact Bool.false_ne_true
      · rw [hs, Bool.and_false]; exact Bool.false_ne_true
    refine ⟨_, (exec_hostMemoryAccess_hbm (write := true) ha).trans (congrArg _ ((if_neg hopen).trans (if_pos rfl))),
      fun hwf i hi => ?_⟩
    rw [hbmAddr, State.byte_store hwf, lastCell_cellsAt hi, getD_of_lt hi]
    rfl
  case hostRefused => exact (exec_hostMemoryAccess_hbm (write := false) ha).trans (congrArg _ (if_pos hs))
  case down =>
    have hgo : (overLimit s && decide (1350 < s.plat.clockMHz)) = true := by rw [ho, decide_eq_true hc]; rfl
    simp only [exec, execThrottle, modPlat, hgo, Bool.false_eq_true, if_false, if_true]
  case up =>
    have hgo : (!overLimit s && decide (s.plat.clockMHz < 2700)) = true := by rw [ho, decide_eq_true hc]; rfl
    simp only [exec, execThrottle, modPlat, hgo, if_true]
  case still => cases up <;> simp [exec, execThrottle, modPlat, ho]
  case shutdown =>
    refine ⟨_, rfl, rfl, fun g hg => ?_⟩
    rcases mem_foldl_cancelGrid _ hn hg with hd | ⟨hnew, hold⟩
    · exact hd
    · exact absurd (List.mem_map_of_mem hold) hnew
  case image =>
    by_cases hok : imageOk s.plat.fuseLevel b = true
    · refine ⟨runImage (readImage s b) b, congrArg _ ((if_pos h).trans (if_pos hok)), ?_⟩
      rw [if_pos hok]
      exact ⟨runImage_poison _ _, runImage_devStat .., rfl, rfl, runImage_fuseLevel ..⟩
    · refine ⟨modPlat (readImage s b) fun p => { p with devStat := 3 }, congrArg _ ((if_pos h).trans (if_neg hok)), ?_⟩
      rw [if_neg hok]
      rfl

end Sys2Proof
end
